-- ==== Sys2Proof/Word.lean ====
section
/-! DEFINITION. The word types of the Skaran Basar and their plainest arithmetic (spec R4, R43, R84):
64-bit scalar words, 256-bit vector registers, 32-bit mask registers and instruction words, bytes. -/

namespace Sys2Proof

/-- A byte of any memory (R4). -/
abbrev Byte := BitVec 8

/-- An instruction word (R43). -/
abbrev Word32 := BitVec 32

/-- A scalar register (R84). -/
abbrev Word := BitVec 64

/-- A vector register: 32 byte lanes (R84, R218). -/
abbrev VWord := BitVec 256

/-- A mask register: one bit per byte lane (R84). -/
abbrev KWord := BitVec 32

/-- A byte offset in TCM (R32, path 0x0). -/
abbrev TcmAddr := BitVec 18

end Sys2Proof
end

