-- ==== Sys2Proof/Config.lean ====
section
/-! DEFINITION. What an implementation fixes and the free values: the constants below have no body, so nothing
can be proved about their values (spec R9; log entries 4, 5, 6, 7, 19, 67). -/

namespace Sys2Proof.Config

/-- The n-th undefined value of a run (R9): the machine asks for one with the counter `State.fresh` and advances it.
Log entry 4 (DESIGN CHOICE). -/
opaque freeValue : Nat → BitVec 256

/-- Verdict of the RSA-3072 and SLH-DSA-SHA2-192s signatures over a program image (R67, R450), given the bytes signed
and the signature block; the key table is firmware configuration the spec does not give. Log entry 5 (DESIGN CHOICE). -/
opaque signatureOk : List Byte → List Byte → Bool

/-- Verdict of the fixed-cycle schedule check of R303 against the variant's route table, which the spec does not give:
the `SENDF` entries (core id, destination, length, cycle) of one variant in one package. Log entry 6 (DESIGN CHOICE). -/
opaque routesOk : BitVec 64 → List (Nat × Word × Nat × Nat) → Bool

/-- Verdict of firmware verification at a device reset (R449, R453). Log entry 5 (DESIGN CHOICE). -/
opaque firmwareOk : Nat → Bool

/-- The channel controller of a package that holds a device-memory byte (R11, R73): the interleaving of a package's channels, given the
physical address where the walk finds one. The spec does not give it. Log entry 19 (DESIGN CHOICE). -/
opaque channelOf : Nat → Option Nat → Nat

/-- Bytes that a sequenced-atomic request counts in `PENDBYTES` (R307), which the spec does not give. Log entry 67 (DESIGN CHOICE). -/
opaque requestBytes : Nat

/-- What an attestation report covers of a package's firmware (R450): the digests, and the security version. Log entry 5 (DESIGN CHOICE). -/
opaque firmwareDigests : Nat → List (List Byte)
opaque securityVersion : Nat → Nat

/-- The minimum security version fused into a package (R449). Log entry 5 (DESIGN CHOICE). -/
opaque minimumVersion : Nat → Nat

/-- The two signatures of an attestation report by the device identity key pair (R450), over what it covers: the
digests, the security version, `DEFECTSIG` and the nonce. Log entry 5
(DESIGN CHOICE). -/
opaque attestSign : Nat → List (List Byte) → Nat → BitVec 64 → List Byte → List Byte × List Byte

/-- Bytes of the header of a specialisation-cache entry (R190), which the spec does not give. Log entry 4 (DESIGN CHOICE). -/
opaque cacheHeader : Nat

/-- HBM installed in one package: 1 TiB (R1, R3). -/
def hbmBytes : Nat := 2 ^ 40

/-- Second tier installed in one package: the full 28 TiB over the eight CXL ports, and on an SKB-16M the module's 4 TiB of LPDDR
less its 1.25 TiB safe tier (R1, R2, R3). Log entry 7 (DESIGN CHOICE). -/
def tier2Bytes (module_ : Bool) : Nat := if module_ then 2 ^ 45 - 5 * 2 ^ 38 else 7 * 2 ^ 42

end Sys2Proof.Config
end

