-- ==== Sys2Proof/Syntax.lean ====
section
/-! DEFINITION. The instruction syntax: one constructor per row of spec/opcode_table.json. Rows 0 to 169 are the 170
instruction word forms of R56; their operands are the encoded fields, named and sized as the table gives them, less the
bits `L` and `S`, which every word has (R43, R44) and which `DecodedWord` holds. Rows 170 to 241 are the steps that are
not words: their operands say which agent takes the step, or what the outside world supplies (INVENTORY.md, Host
interface; log entry 3). -/

namespace Sys2Proof

/-- The 64 bytes of a command-processor packet as read, once, from its slot (R409, R413). -/
structure Packet where
  /-- Package whose command processor issues it. -/
  pkg : Nat
  /-- Queue number q. -/
  q : Nat
  /-- Free-running packet number p. -/
  num : BitVec 32
  /-- True for a packet read from an indirect buffer (R420). -/
  indirect : Bool
  /-- The eight dwords of the slot. -/
  d0 : Word
  d1 : Word
  d2 : Word
  d3 : Word
  d4 : Word
  d5 : Word
  d6 : Word
  d7 : Word
  deriving DecidableEq, Repr

/-- Why a word that matches no form, or fails a placement or fetch-bound check, traps (R45, R47). -/
inductive FetchFault where
  /-- Control transfer to an address that is not a multiple of 4. -/
  | instructionAddress (target : Word)
  /-- A fetch outside the guard bounds: the first address outside them. -/
  | fetchBounds (addr : Word)
  /-- A word with `L` = 0 at an address that is 4 mod 8. -/
  | misalignedBundle (word : Word32)
  /-- A pair that breaks the class or destination rule. -/
  | bundleClass (word : Word32)
  /-- A reserved or unassigned code, a non-zero field marked zero, an unaccepted code, or a forbidden `S`. -/
  | illegal (word : Word32)
  deriving DecidableEq, Repr

/-- A PCIe AtomicOp of the host on `QCLAIM` (R411). -/
inductive HostAtomic where
  /-- The 64-bit FetchAdd. -/
  | fetchAdd64 (k : Word)
  /-- Any other, the 32-bit FetchAdd among them. -/
  | other
  deriving DecidableEq, Repr

/-- What a PCIe completion carries (R404, R328, R135). -/
inductive Completion where
  /-- An ATS translation completion for a page: granted permissions, or not present. -/
  | atsTranslation (pasid : BitVec 20) (page : Nat) (read write present : Bool)
  /-- The completion of the zero-length read that acknowledges a core's posted writes. -/
  | postedAck (core : Nat)
  /-- The data of a path 0x7 read or of a command-processor read of host memory: the host memory bytes it returned. -/
  | hostData (addr : Nat) (bytes : List Byte)
  deriving DecidableEq, Repr

/-- The instruction set and the steps of the part: one constructor per row of spec/opcode_table.json. -/
inductive Instr where
  /-- `BEQ` (R96). Branches to the word offset if sA equals sB. -/
  | beq (a : BitVec 5) (b : BitVec 5) (o : BitVec 11)
  /-- `BNE` (R96). Branches to the word offset if sA differs from sB. -/
  | bne (a : BitVec 5) (b : BitVec 5) (o : BitVec 11)
  /-- `BLT` (R96). Branches if sA is less than sB, compared as signed values. -/
  | blt (a : BitVec 5) (b : BitVec 5) (o : BitVec 11)
  /-- `BGE` (R96). Branches if sA is greater than or equal to sB, compared as signed values. -/
  | bge (a : BitVec 5) (b : BitVec 5) (o : BitVec 11)
  /-- `BLTN` (R96). Branches if sA is less than sB, compared as unsigned values. -/
  | bltn (a : BitVec 5) (b : BitVec 5) (o : BitVec 11)
  /-- `BGEN` (R96). Branches if sA is greater than or equal to sB, compared as unsigned values. -/
  | bgen (a : BitVec 5) (b : BitVec 5) (o : BitVec 11)
  /-- `JAL` (R97). Writes the link address to sD and jumps to the word offset; applies LeaveCheck when d is s0. -/
  | jal (d : BitVec 5) (i : BitVec 19)
  /-- `JALR` (R98). Jumps to sA plus the immediate, writing the link address to sD. -/
  | jalr (d : BitVec 5) (a : BitVec 5) (i : BitVec 14)
  /-- `LOOP` (R101). Sets up a hardware loop level with its trip count taken from sA. -/
  | loop (v : BitVec 1) (a : BitVec 5) (n : BitVec 12)
  /-- `LOOPI` (R101). Sets up a hardware loop level with an immediate trip count from 0 to 511. -/
  | loopi (v : BitVec 1) (c : BitVec 9) (n : BitVec 12)
  /-- `REP` (R106). Replays a body of 1 to 16 A-class words from the repetition buffer, staggering register fields on each pass. -/
  | rep (b : BitVec 4) (p : BitVec 8) (g : BitVec 3) (t : BitVec 3)
  /-- `START` (R79). Starts helper strand n at the entry held in sA, passing sB in the new strand's s1, after waiting for the strand to be Not live. -/
  | start (a : BitVec 5) (b : BitVec 5) (n : BitVec 2)
  /-- `WAITS` (R81). Blocks the issuing strand until every strand in the set is Not live. -/
  | waits (g : BitVec 3)
  /-- `YIELD` (R82). Gives up the issue slot for the following cycle. -/
  | yield
  /-- `LD` (R116). Loads 1, 2, 4 or 8 bytes into sD, extended with sign or zeros. -/
  | ld (d : BitVec 5) (b : BitVec 5) (t : BitVec 3) (o : BitVec 11)
  /-- `ST` (R117). Stores the low bytes of sData; the store is deferred on an EX page. -/
  | st (d : BitVec 5) (b : BitVec 5) (z : BitVec 2) (o : BitVec 11)
  /-- `ST_H` (R117). Stores 8 bytes to a sync word as a release and a handoff point. -/
  | stH (d : BitVec 5) (b : BitVec 5) (o : BitVec 11)
  /-- `LDBIT` (R123). Loads a bit field of 1 to 64 bits from TCM or the cluster scratchpad, extended with sign or zeros. -/
  | ldbit (d : BitVec 5) (a : BitVec 5) (b : BitVec 1) (w : BitVec 6)
  /-- `STBIT` (R123). Writes a bit field of 1 to 64 bits as one indivisible access. -/
  | stbit (a : BitVec 5) (b : BitVec 5) (w : BitVec 6)
  /-- `LDT` (R124). Loads n strided rows and writes them transposed into consecutive vector registers. -/
  | ldt (d : BitVec 5) (a : BitVec 5) (b : BitVec 5) (e : BitVec 2)
  /-- `AMOADD` (R125). No-return atomic addition at the memory home. -/
  | amoadd (a : BitVec 5) (b : BitVec 5) (w : BitVec 1)
  /-- `AMOAND` (R125). No-return atomic AND. -/
  | amoand (a : BitVec 5) (b : BitVec 5) (w : BitVec 1)
  /-- `AMOOR` (R125). No-return atomic OR. -/
  | amoor (a : BitVec 5) (b : BitVec 5) (w : BitVec 1)
  /-- `AMOXOR` (R125). No-return atomic XOR. -/
  | amoxor (a : BitVec 5) (b : BitVec 5) (w : BitVec 1)
  /-- `AMOMIN` (R125). No-return atomic signed minimum. -/
  | amomin (a : BitVec 5) (b : BitVec 5) (w : BitVec 1)
  /-- `AMOMAX` (R125). No-return atomic signed maximum. -/
  | amomax (a : BitVec 5) (b : BitVec 5) (w : BitVec 1)
  /-- `AMOMINN` (R125). No-return atomic unsigned minimum. -/
  | amominn (a : BitVec 5) (b : BitVec 5) (w : BitVec 1)
  /-- `AMOMAXN` (R125). No-return atomic unsigned maximum. -/
  | amomaxn (a : BitVec 5) (b : BitVec 5) (w : BitVec 1)
  /-- `AMOSEQ` (R129). Queues a sequenced atomic add, with a key and a limit, whose result is delivered to a TCM slot in the X phase. -/
  | amoseq (d : BitVec 5) (a : BitVec 5) (b : BitVec 5) (c : BitVec 5) (w : BitVec 1)
  /-- `FENCE` (R133). Orders the strand's pred-class accesses before its succ-class accesses within the scope. -/
  | fence (c : BitVec 3) (p : BitVec 4) (q : BitVec 4)
  /-- `WAITW` (R131). Blocks until a handoff write carrying value sB reaches the sync word at sA, then acts as an acquire. -/
  | waitw (a : BitVec 5) (b : BitVec 5)
  /-- `IFENCE` (R132). Discards the strand's fetched and decoded words. -/
  | ifence
  /-- `SYNC` (R20). Stalls the control strand until the barrier and contributes to the core's C-done report. -/
  | sync
  /-- `POST` (R316). Queues a message of 1 to 6 dwords to a core of the region. -/
  | post (a : BitVec 5) (b : BitVec 5) (n : BitVec 6)
  /-- `RECV` (R319). Returns the address of the oldest receive-queue slot and advances RQHEAD, or returns 0. -/
  | recv (d : BitVec 5)
  /-- `TRAP` (R172). Enters the trap handler with cause trap-instruction. -/
  | trap (n : BitVec 6)
  /-- `ERET` (R172). Returns from a handler to EPC and resumes a suspended replay. -/
  | eret
  /-- `END` (R172). Ends a helper strand, parks a pre-empted strand, or casts the control strand's vote to end the region. -/
  | endOp
  /-- `BRK` (R172). Halts the core if breakpoints are enabled, otherwise raises breakpoint. -/
  | brk (n : BitVec 6)
  /-- `CRR` (R173). Reads a control register into sD. -/
  | crr (d : BitVec 5) (r : BitVec 12)
  /-- `CRW` (R173). Writes sA to a control register and returns its old value. -/
  | crw (d : BitVec 5) (a : BitVec 5) (r : BitVec 12)
  /-- `CRS` (R173). Sets the bits of sA in a control register and returns its old value. -/
  | crs (d : BitVec 5) (a : BitVec 5) (r : BitVec 12)
  /-- `CRC` (R173). Clears the bits of sA in a control register and returns its old value. -/
  | crc (d : BitVec 5) (a : BitVec 5) (r : BitVec 12)
  /-- `VLD` (R238). Loads the active elements of a vector register from memory. -/
  | vld (v : BitVec 5) (b : BitVec 5) (c : BitVec 5) (m : BitVec 3) (t : BitVec 4)
  /-- `VST` (R238). Stores the active elements of a vector register to memory. -/
  | vst (v : BitVec 5) (b : BitVec 5) (c : BitVec 5) (m : BitVec 3) (t : BitVec 4)
  /-- `VGATHER` (R239). Loads elements from indexed addresses. -/
  | vgather (v : BitVec 5) (b : BitVec 5) (c : BitVec 5) (m : BitVec 3) (t : BitVec 4)
  /-- `VSCATTER` (R239). Stores elements to indexed addresses in ascending element order. -/
  | vscatter (v : BitVec 5) (b : BitVec 5) (c : BitVec 5) (m : BitVec 3) (t : BitVec 4)
  /-- `VLDQ` (R240). Decodes eight stippled Q8 or INT4X elements through a view into FP32. -/
  | vldq (v : BitVec 5) (b : BitVec 5) (g : BitVec 3) (m : BitVec 3) (t : BitVec 4)
  /-- `VSTQ` (R241). Quantises eight FP32 elements into stippled codes through a view. -/
  | vstq (v : BitVec 5) (b : BitVec 5) (g : BitVec 3) (m : BitVec 3) (t : BitVec 4)
  /-- `HSIFT` (R242). Inserts the active elements into a top-k heap in TCM. -/
  | hsift (v : BitVec 5) (b : BitVec 5) (m : BitVec 3) (t : BitVec 4)
  /-- `MMA` (R255). Adds the product of an A tile and the operand latch to an accumulator. -/
  | mma (c : BitVec 2) (a : BitVec 5) (b : BitVec 5)
  /-- `MMAZ` (R255). Writes the product of an A tile and the operand latch to an accumulator taken as zero. -/
  | mmaz (c : BitVec 2) (a : BitVec 5) (b : BitVec 5)
  /-- `MLDB` (R257). Decodes a B tile into the operand latch. -/
  | mldb (a : BitVec 5) (b : BitVec 5)
  /-- `MLDBT` (R257). Decodes a transposed B tile into the operand latch. -/
  | mldbt (a : BitVec 5) (b : BitVec 5)
  /-- `MRING` (R259). Joins an exchange round that moves each latch to its ring successor. -/
  | mring (k : BitVec 2)
  /-- `MSWAP` (R259). Joins an exchange round that swaps the masked latch quadrants with the mirrored core. -/
  | mswap (q : BitVec 4)
  /-- `MZERO` (R262). Zeroes an accumulator. -/
  | mzero (c : BitVec 2)
  /-- `MLDACC` (R262). Loads an accumulator bit for bit from memory. -/
  | mldacc (c : BitVec 2) (a : BitVec 5)
  /-- `MSTACC` (R262). Stores an accumulator bit for bit to memory. -/
  | mstacc (c : BitVec 2) (a : BitVec 5)
  /-- `MSTACCQ` (R263). Converts an accumulator and stores it in a narrower or stippled type. -/
  | mstaccq (c : BitVec 2) (a : BitVec 5) (b : BitVec 5) (g : BitVec 3) (t : BitVec 4)
  /-- `MACCADD` (R264). Adds one accumulator into another as FP32 or INT32. -/
  | maccadd (c : BitVec 2) (p : BitVec 1) (s : BitVec 2)
  /-- `MCFG` (R265). Sets the operand formats and view registers of A, of B, or of both, in command order. -/
  | mcfg (w : BitVec 2) (a : BitVec 3) (b : BitVec 3) (y : BitVec 4) (x : BitVec 4)
  /-- `MSKSET` (R267). Sets the keeper's pending GA and GB, which apply from the next phase. -/
  | mskset (a : BitVec 5) (b : BitVec 5) (w : BitVec 2)
  /-- `MSKGET` (R269). Reads the link latch into a scalar register. -/
  | mskget (a : BitVec 5)
  /-- `MKEEP` (R268). Sets the pending keeper position. -/
  | mkeep (y : BitVec 2) (x : BitVec 2)
  /-- `MWAIT` (R271). Blocks until the strand's matrix commands have settled; it is a drain point. -/
  | mwait
  /-- `CPY` (R280). Queues a strided copy over the iteration space of a geometry group. -/
  | cpy (a : BitVec 5) (b : BitVec 5) (c : BitVec 5) (g : BitVec 1) (e : BitVec 2)
  /-- `CPYD` (R280). Queues a dense copy of 64 to 2,048 bytes. -/
  | cpyd (a : BitVec 5) (b : BitVec 5) (c : BitVec 5) (n : BitVec 5)
  /-- `CPYG` (R281). Queues a gather of rows selected by an index list. -/
  | cpyg (a : BitVec 5) (b : BitVec 5) (c : BitVec 5) (g : BitVec 1) (e : BitVec 2)
  /-- `CPYS` (R281). Queues a scatter of rows to positions given by an index list. -/
  | cpys (a : BitVec 5) (b : BitVec 5) (c : BitVec 5) (g : BitVec 1) (e : BitVec 2)
  /-- `CPYF` (R280). Queues a fill of a strided region with a value. -/
  | cpyf (a : BitVec 5) (b : BitVec 5) (c : BitVec 5) (g : BitVec 1) (e : BitVec 2)
  /-- `CPYR` (R282). Queues a recode of view positions into a stippled destination. -/
  | cpyr (a : BitVec 5) (b : BitVec 5) (c : BitVec 5)
  /-- `CPYHO` (R285). Queues a copy whose completion write is a handoff. -/
  | cpyho (a : BitVec 5) (b : BitVec 5) (c : BitVec 5) (g : BitVec 1) (e : BitVec 2)
  /-- `CPYRES` (R292). Re-issues the faulted copy command recorded in CE_STATE, from the vector in CE_IDX0 to CE_IDX4. -/
  | cpyres (a : BitVec 5) (b : BitVec 5) (c : BitVec 5)
  /-- `EBSET` (R278). Writes an engine bound or stipple view register from sA. -/
  | ebset (a : BitVec 5) (r : BitVec 5)
  /-- `EBGET` (R278). Reads an engine bound or stipple view register into sA. -/
  | ebget (a : BitVec 5) (r : BitVec 5)
  /-- `TXSUB` (R364). Checks a transaction descriptor and queues it as a submission. -/
  | txsub (d : BitVec 5) (a : BitVec 5)
  /-- `TXPEEK` (R365). Reads one dword of a tile without a lock. -/
  | txpeek (d : BitVec 5) (a : BitVec 5)
  /-- `TXSETS` (R366). Appends a read-tile or write-tile address to a descriptor. -/
  | txsets (d : BitVec 5) (a : BitVec 5) (b : BitVec 5) (k : BitVec 1)
  /-- `TXCHK` (R366). Appends a check word, whose expected value is peeked, to a descriptor. -/
  | txchk (d : BitVec 5) (a : BitVec 5) (b : BitVec 5)
  /-- `TXEND` (R367). Ends a body: writes its write tiles home, then releases its locks and permits. -/
  | txend
  /-- `TXRST` (R368). Ends a body without home writes and resubmits the descriptor as a restart. -/
  | txrst (a : BitVec 5)
  /-- `PDAINIT` (R390). Writes an automaton context from a table header or from a saved record. -/
  | pdainit (a : BitVec 5) (b : BitVec 5) (r : BitVec 1)
  /-- `PDAMASK` (R391). Writes the legal-token mask of a range of tokens. -/
  | pdamask (a : BitVec 5) (b : BitVec 5)
  /-- `PDASTEP` (R392). Advances the automaton context by one token. -/
  | pdastep (a : BitVec 5) (b : BitVec 5)
  /-- `SAMPLEP` (R396). Computes the chunk record of a partial sample, or a scan. -/
  | samplep (a : BitVec 5) (b : BitVec 5) (k : BitVec 1)
  /-- `SAMPLEF` (R397). Draws one token from the chunk records with top-k and top-p. -/
  | samplef (a : BitVec 5) (b : BitVec 5)
  /-- `PDASAVE` (R393). Writes the context header and stack to a destination. -/
  | pdasave (a : BitVec 5) (b : BitVec 5)
  /-- `SASSERT` (R192). A static assertion; the launch is refused if its comparison is false. -/
  | sassert (a : BitVec 5) (b : BitVec 5) (c : BitVec 3)
  /-- `SGROW` (R193). Sets the growth priority of the static loop that follows. -/
  | sgrow (p : BitVec 6)
  /-- `SBMAP` (R194). Returns the back-map of a residual code address. -/
  | sbmap (d : BitVec 5) (a : BitVec 5)
  /-- `ADD` (R90). sD := sA + sB, modulo 2^64. -/
  | add (d : BitVec 5) (a : BitVec 5) (b : BitVec 5)
  /-- `SUB` (R90). sD := sA - sB. -/
  | sub (d : BitVec 5) (a : BitVec 5) (b : BitVec 5)
  /-- `AND` (R90). Bitwise AND. -/
  | and (d : BitVec 5) (a : BitVec 5) (b : BitVec 5)
  /-- `OR` (R90). Bitwise OR. -/
  | or (d : BitVec 5) (a : BitVec 5) (b : BitVec 5)
  /-- `XOR` (R90). Bitwise XOR. -/
  | xor (d : BitVec 5) (a : BitVec 5) (b : BitVec 5)
  /-- `ANDN` (R90). sA AND NOT sB. -/
  | andn (d : BitVec 5) (a : BitVec 5) (b : BitVec 5)
  /-- `SLL` (R90). Logical left shift. -/
  | sll (d : BitVec 5) (a : BitVec 5) (b : BitVec 5)
  /-- `SRL` (R90). Logical right shift. -/
  | srl (d : BitVec 5) (a : BitVec 5) (b : BitVec 5)
  /-- `SRA` (R90). Arithmetic right shift. -/
  | sra (d : BitVec 5) (a : BitVec 5) (b : BitVec 5)
  /-- `ROTR` (R90). Rotate right. -/
  | rotr (d : BitVec 5) (a : BitVec 5) (b : BitVec 5)
  /-- `MUL` (R90). Low 64 bits of the product. -/
  | mul (d : BitVec 5) (a : BitVec 5) (b : BitVec 5)
  /-- `MULH` (R90). High 64 bits of the signed product. -/
  | mulh (d : BitVec 5) (a : BitVec 5) (b : BitVec 5)
  /-- `MULHN` (R90). High 64 bits of the unsigned product. -/
  | mulhn (d : BitVec 5) (a : BitVec 5) (b : BitVec 5)
  /-- `DIV` (R91). Signed division rounded toward zero. -/
  | div (d : BitVec 5) (a : BitVec 5) (b : BitVec 5)
  /-- `DIVN` (R91). Unsigned division. -/
  | divn (d : BitVec 5) (a : BitVec 5) (b : BitVec 5)
  /-- `REM` (R91). Signed remainder. -/
  | rem (d : BitVec 5) (a : BitVec 5) (b : BitVec 5)
  /-- `REMN` (R91). Unsigned remainder. -/
  | remn (d : BitVec 5) (a : BitVec 5) (b : BitVec 5)
  /-- `MIN` (R90). Signed minimum. -/
  | min (d : BitVec 5) (a : BitVec 5) (b : BitVec 5)
  /-- `MAX` (R90). Signed maximum. -/
  | max (d : BitVec 5) (a : BitVec 5) (b : BitVec 5)
  /-- `MINN` (R90). Unsigned minimum. -/
  | minn (d : BitVec 5) (a : BitVec 5) (b : BitVec 5)
  /-- `MAXN` (R90). Unsigned maximum. -/
  | maxn (d : BitVec 5) (a : BitVec 5) (b : BitVec 5)
  /-- `SLT` (R90). 1 if sA is less than sB as signed values, else 0. -/
  | slt (d : BitVec 5) (a : BitVec 5) (b : BitVec 5)
  /-- `SLTN` (R90). 1 if sA is less than sB as unsigned values, else 0. -/
  | sltn (d : BitVec 5) (a : BitVec 5) (b : BitVec 5)
  /-- `SEQ` (R90). 1 if sA equals sB, else 0. -/
  | seq (d : BitVec 5) (a : BitVec 5) (b : BitVec 5)
  /-- `CLZ` (R90). Counts leading zero bits. -/
  | clz (d : BitVec 5) (a : BitVec 5)
  /-- `CTZ` (R90). Counts trailing zero bits. -/
  | ctz (d : BitVec 5) (a : BitVec 5)
  /-- `POPC` (R90). Counts one bits. -/
  | popc (d : BitVec 5) (a : BitVec 5)
  /-- `BREV` (R90). Reverses the bit order. -/
  | brev (d : BitVec 5) (a : BitVec 5)
  /-- `BSWAP` (R90). Reverses the byte order. -/
  | bswap (d : BitVec 5) (a : BitVec 5)
  /-- `ADDI` (R92). Adds a sign-extended immediate. -/
  | addi (d : BitVec 5) (a : BitVec 5) (i : BitVec 14)
  /-- `ANDI` (R92). AND with a zero-extended immediate. -/
  | andi (d : BitVec 5) (a : BitVec 5) (i : BitVec 14)
  /-- `ORI` (R92). OR with a zero-extended immediate. -/
  | ori (d : BitVec 5) (a : BitVec 5) (i : BitVec 14)
  /-- `XORI` (R92). XOR with a zero-extended immediate. -/
  | xori (d : BitVec 5) (a : BitVec 5) (i : BitVec 14)
  /-- `SLTI` (R92). Signed compare against a sign-extended immediate. -/
  | slti (d : BitVec 5) (a : BitVec 5) (i : BitVec 14)
  /-- `SLTIN` (R92). Unsigned compare against a sign-extended immediate. -/
  | sltin (d : BitVec 5) (a : BitVec 5) (i : BitVec 14)
  /-- `SLLI` (R93). Logical left shift by an immediate amount. -/
  | slli (d : BitVec 5) (a : BitVec 5) (n : BitVec 6)
  /-- `SRLI` (R93). Logical right shift by an immediate amount. -/
  | srli (d : BitVec 5) (a : BitVec 5) (n : BitVec 6)
  /-- `SRAI` (R93). Arithmetic right shift by an immediate amount. -/
  | srai (d : BitVec 5) (a : BitVec 5) (n : BitVec 6)
  /-- `ROTRI` (R93). Rotate right by an immediate amount. -/
  | rotri (d : BitVec 5) (a : BitVec 5) (n : BitVec 6)
  /-- `LUI` (R94). sD := the sign-extended imm19 times 2^14. -/
  | lui (d : BitVec 5) (i : BitVec 19)
  /-- `INSH` (R95). Replaces one halfword of sD. -/
  | insh (d : BitVec 5) (h : BitVec 2) (i : BitVec 16)
  /-- `VADD` (R226). Element-wise addition. -/
  | vadd (d : BitVec 5) (a : BitVec 5) (b : BitVec 5) (m : BitVec 3) (t : BitVec 4)
  /-- `VSUB` (R226). Element-wise subtraction. -/
  | vsub (d : BitVec 5) (a : BitVec 5) (b : BitVec 5) (m : BitVec 3) (t : BitVec 4)
  /-- `VMUL` (R226). Element-wise multiplication. -/
  | vmul (d : BitVec 5) (a : BitVec 5) (b : BitVec 5) (m : BitVec 3) (t : BitVec 4)
  /-- `VFMA` (R226). Element-wise fused multiply-add into vD. -/
  | vfma (d : BitVec 5) (a : BitVec 5) (b : BitVec 5) (m : BitVec 3) (t : BitVec 4)
  /-- `VMIN` (R226). Element-wise minimum. -/
  | vmin (d : BitVec 5) (a : BitVec 5) (b : BitVec 5) (m : BitVec 3) (t : BitVec 4)
  /-- `VMAX` (R226). Element-wise maximum. -/
  | vmax (d : BitVec 5) (a : BitVec 5) (b : BitVec 5) (m : BitVec 3) (t : BitVec 4)
  /-- `VABS` (R226). Element-wise absolute value. -/
  | vabs (d : BitVec 5) (a : BitVec 5) (m : BitVec 3) (t : BitVec 4)
  /-- `VNEG` (R226). Element-wise negation. -/
  | vneg (d : BitVec 5) (a : BitVec 5) (m : BitVec 3) (t : BitVec 4)
  /-- `VAND` (R226). Bitwise AND of elements. -/
  | vand (d : BitVec 5) (a : BitVec 5) (b : BitVec 5) (m : BitVec 3) (t : BitVec 4)
  /-- `VOR` (R226). Bitwise OR of elements. -/
  | vor (d : BitVec 5) (a : BitVec 5) (b : BitVec 5) (m : BitVec 3) (t : BitVec 4)
  /-- `VXOR` (R226). Bitwise XOR of elements. -/
  | vxor (d : BitVec 5) (a : BitVec 5) (b : BitVec 5) (m : BitVec 3) (t : BitVec 4)
  /-- `VSLL` (R226). Element-wise logical left shift. -/
  | vsll (d : BitVec 5) (a : BitVec 5) (b : BitVec 5) (m : BitVec 3) (t : BitVec 4)
  /-- `VSRL` (R226). Element-wise logical right shift. -/
  | vsrl (d : BitVec 5) (a : BitVec 5) (b : BitVec 5) (m : BitVec 3) (t : BitVec 4)
  /-- `VSRA` (R226). Element-wise arithmetic right shift. -/
  | vsra (d : BitVec 5) (a : BitVec 5) (b : BitVec 5) (m : BitVec 3) (t : BitVec 4)
  /-- `VADDS` (R226). Element-wise saturating addition. -/
  | vadds (d : BitVec 5) (a : BitVec 5) (b : BitVec 5) (m : BitVec 3) (t : BitVec 4)
  /-- `VSUBS` (R226). Element-wise saturating subtraction. -/
  | vsubs (d : BitVec 5) (a : BitVec 5) (b : BitVec 5) (m : BitVec 3) (t : BitVec 4)
  /-- `VCMPEQ` (R228). Sets mask kD where elements are equal. -/
  | vcmpeq (k : BitVec 3) (a : BitVec 5) (b : BitVec 5) (m : BitVec 3) (t : BitVec 4)
  /-- `VCMPNE` (R228). Sets mask kD where elements differ. -/
  | vcmpne (k : BitVec 3) (a : BitVec 5) (b : BitVec 5) (m : BitVec 3) (t : BitVec 4)
  /-- `VCMPLT` (R228). Sets mask kD where an element of vA is less than that of vB. -/
  | vcmplt (k : BitVec 3) (a : BitVec 5) (b : BitVec 5) (m : BitVec 3) (t : BitVec 4)
  /-- `VCMPLE` (R228). Sets mask kD where an element of vA is less than or equal to that of vB. -/
  | vcmple (k : BitVec 3) (a : BitVec 5) (b : BitVec 5) (m : BitVec 3) (t : BitVec 4)
  /-- `VSEL` (R229). Selects each element from vA or vB by the mask. -/
  | vsel (d : BitVec 5) (a : BitVec 5) (b : BitVec 5) (m : BitVec 3) (t : BitVec 4)
  /-- `VREDSUM` (R231). Sums the active elements in a fixed tree, then adds the carry-in. -/
  | vredsum (d : BitVec 5) (a : BitVec 5) (b : BitVec 5) (m : BitVec 3) (t : BitVec 4)
  /-- `VREDMAX` (R231). Fixed-tree maximum reduction. -/
  | vredmax (d : BitVec 5) (a : BitVec 5) (b : BitVec 5) (m : BitVec 3) (t : BitVec 4)
  /-- `VREDMIN` (R231). Fixed-tree minimum reduction. -/
  | vredmin (d : BitVec 5) (a : BitVec 5) (b : BitVec 5) (m : BitVec 3) (t : BitVec 4)
  /-- `VSCAN` (R232). Inclusive prefix sums in ascending element order. -/
  | vscan (d : BitVec 5) (a : BitVec 5) (b : BitVec 5) (m : BitVec 3) (t : BitVec 4)
  /-- `VPERM` (R233). Permutes the elements of vA by the indices in vB. -/
  | vperm (d : BitVec 5) (a : BitVec 5) (b : BitVec 5) (m : BitVec 3) (t : BitVec 4)
  /-- `VBCAST` (R233). Broadcasts one element of vA. -/
  | vbcast (d : BitVec 5) (a : BitVec 5) (b : BitVec 5) (m : BitVec 3) (t : BitVec 4)
  /-- `VSLIDE` (R233). Slides the elements by a signed count. -/
  | vslide (d : BitVec 5) (a : BitVec 5) (b : BitVec 5) (m : BitVec 3) (t : BitVec 4)
  /-- `VCVT` (R235). Converts elements between formats by R200. -/
  | vcvt (d : BitVec 5) (a : BitVec 5) (u : BitVec 4) (m : BitVec 3) (t : BitVec 4)
  /-- `VSCALE` (R236). Computes the E8M0 block scale of a block spread over registers. -/
  | vscale (d : BitVec 5) (a : BitVec 5) (b : BitVec 5) (m : BitVec 3) (t : BitVec 4)
  /-- `VEXP2` (R237). Correctly rounded 2^a of each element. -/
  | vexp2 (d : BitVec 5) (a : BitVec 5) (m : BitVec 3) (t : BitVec 4)
  /-- `VRCP` (R237). Correctly rounded reciprocal of each element. -/
  | vrcp (d : BitVec 5) (a : BitVec 5) (m : BitVec 3) (t : BitVec 4)
  /-- `KAND` (R230). AND of two mask registers. -/
  | kand (d : BitVec 3) (a : BitVec 3) (b : BitVec 3)
  /-- `KOR` (R230). OR of two mask registers. -/
  | kor (d : BitVec 3) (a : BitVec 3) (b : BitVec 3)
  /-- `KXOR` (R230). XOR of two mask registers. -/
  | kxor (d : BitVec 3) (a : BitVec 3) (b : BitVec 3)
  /-- `KNOT` (R230). NOT of a mask register. -/
  | knot (d : BitVec 3) (a : BitVec 3)
  /-- `VINS` (R234). Inserts a scalar into element i of vD. -/
  | vins (d : BitVec 5) (a : BitVec 5) (i : BitVec 5) (t : BitVec 4)
  /-- `VMOVS` (R234). Moves element i of vA into a scalar register. -/
  | vmovs (d : BitVec 5) (a : BitVec 5) (i : BitVec 5) (t : BitVec 4)
  /-- `ISSUE_SLOT_GIVE_UP` (R77). A strand that has issued in 64 consecutive issue cycles gives up the slot to another Ready strand. -/
  | issueSlotGiveUp (core : Nat)
  /-- `FAULT_RECORD` (R331). A fault record arrives at the fault buffer and is kept or discarded by generation and page. -/
  | faultRecord (pkg : Nat)
  /-- `FIRMWARE_FLUSH` (R331). Firmware flushes a batch of records and advances FAULTGEN.GEN. -/
  | firmwareFlush (pkg : Nat) (writes : List (Nat × Word)) (unmapped : List (Nat × Nat))
  /-- `C_DONE` (R20). A core reports C done once its SYNC has issued, its helpers have ended and its engine commands have settled. -/
  | cDone (core : Nat)
  /-- `C_CLOSE` (R21). A package observes that every core of the region has reported C done, and the T phase begins. -/
  | cClose (region pkg : Nat)
  /-- `LOCK_REQUEST_ENQUEUE` (R347). A lock manager enqueues a request once it holds every lower-numbered request addressed to it. -/
  | lockRequestEnqueue (region num req : Nat)
  /-- `LOCK_GRANT` (R349). A shared or exclusive request is granted when the earlier conflicting requests have been removed. -/
  | lockGrant (region num req : Nat)
  /-- `TILE_PUSH` (R353). A granted tile is pushed into its landing block once the block has taken its permits. -/
  | tilePush (region num req : Nat)
  /-- `TRANSACTION_DISPATCH` (R355). A landed transaction starts on its helper strand once that strand's previous transaction has ended. -/
  | transactionDispatch (region num : Nat)
  /-- `T_CLOSE` (R19). Every transaction is Done, and the X phase starts. -/
  | tClose (region : Nat)
  /-- `PLAN_ENTRY_START` (R301). A plan entry starts once the REDUCE named by its AFTER is complete. -/
  | planEntryStart (core idx : Nat)
  /-- `SENDF_FLIT` (R303). A fixed-cycle flit is sent at its scheduled cycle after X start. -/
  | sendfFlit (core idx flit : Nat)
  /-- `FLIT_RECEIVE` (R306). A receiving NI checks and writes an arriving transfer, adds to the count dword, and acknowledges. -/
  | flitReceive (region xfer : Nat)
  /-- `CONTRIBUTION_APPLY` (R311). A collective contribution is matched and applied in stage order, or staged. -/
  | contributionApply (region xfer : Nat)
  /-- `CONTRIBUTION_RESEND` (R313). A refused early contribution is sent again after 256 cycles. -/
  | contributionResend (region xfer : Nat)
  /-- `COLLECTIVE_INCOMPLETE` (R314). Once no missing stage can arrive, the REDUCE is incomplete and the entries waiting on it are abandoned. -/
  | collectiveIncomplete (region : Nat)
  /-- `ACKNOWLEDGEMENT` (R307). An acknowledgement returns and decrements PENDBYTES. -/
  | acknowledgement (region xfer : Nat)
  /-- `REQUEST_VOTE` (R308). All sequenced-atomic requests and messages are acknowledged, and step 2 of the X phase begins. -/
  | requestVote (region : Nat)
  /-- `DEFERRED_STORE_PERFORM` (R119). A home performs an arriving deferred store, after its sequenced atomics, in core program order. -/
  | deferredStorePerform (region : Nat)
  /-- `BARRIER_EXIT` (R22). All plan segments are done and the counters read zero: the fetch buffer is flushed, SUPERSTEP advances and PHASE becomes C. -/
  | barrierExit (region : Nat)
  /-- `EXCHANGE_ROUND` (R258). When all 16 units have started the k-th exchange command, the latches move together or the round faults. -/
  | exchangeRound (cluster : Nat)
  /-- `VECTOR_EXECUTE` (R222). The vector unit executes a dispatched instruction in issue order. -/
  | vectorExecute (core : Nat)
  /-- `MATRIX_COMMAND_START` (R250). The matrix unit starts the next queued command of the core, checks it, and executes it or faults. -/
  | matrixCommandStart (core : Nat)
  /-- `COPY_COMMAND_START` (R279). The copy engine starts the next queued command and runs it to completion or to a fault. -/
  | copyCommandStart (core : Nat)
  /-- `SELVEDGE_COMMAND_START` (R378). The selvedge unit takes the next command in rotation and executes it. -/
  | selvedgeCommandStart (core : Nat)
  /-- `NO_RETURN_ATOMIC_APPLY` (R128). A home applies an arriving no-return atomic once, by its request id. -/
  | noReturnAtomicApply (idx : Nat)
  /-- `ATOMIC_REPLAY` (R128). An NI replays an unacknowledged atomic after a timeout or a corrected error. -/
  | atomicReplay (idx : Nat)
  /-- `THROTTLE_BUBBLE` (R310). The power controller inserts a whole-package stall cycle. -/
  | throttleBubble (pkg : Nat)
  /-- `PREEMPTION_TAKE` (R167). A requested pre-emption is taken at the point the phase allows: handlers run and park, and state is spilled. -/
  | preemptionTake (region : Nat)
  /-- `PREEMPTION_RESUME` (R168). A pre-empted region is restored on its cores and enters its pre-emption handlers. -/
  | preemptionResume (region : Nat)
  /-- `PREEMPT_TIMEOUT` (R428). A region that has not released its cores within the bound B is killed with PREEMPTTIMEOUT. -/
  | preemptTimeout (region : Nat)
  /-- `PARK_TIMEOUT` (R428). Pre-emption handlers that do not park within 10 us cause the region to be killed. -/
  | parkTimeout (region : Nat)
  /-- `LAUNCH_START` (R426). A pending launch starts when its cores and die SRAM range are free, or it requests pre-emption. -/
  | launchStart (region : Nat)
  /-- `QUEUE_ENABLE` (R407). A write of EN from 0 to 1 checks the queue configuration and resets its counters. -/
  | queueEnable (pkg q : Nat) (cfg : Word)
  /-- `QUEUE_DISABLE` (R407). A write of EN from 1 to 0 stops the queue. -/
  | queueDisable (pkg q : Nat) (cfg : Word)
  /-- `QTAIL_WRITE` (R410). A tail value is applied by the monotonic-maximum rule or counted as stale. -/
  | qtailWrite (pkg q : Nat) (value : Word)
  /-- `QCLAIM_FETCHADD` (R411). A PCIe FetchAdd claims ring slots, or returns all ones when the ring is full. -/
  | qclaimFetchadd (pkg q : Nat) (op : HostAtomic)
  /-- `DOORBELL_EVENT` (R412). A performed deferred store to the doorbell dword carries a tail value to the front end. -/
  | doorbellEvent (pkg : Nat)
  /-- `STAMP_RECHECK` (R409). The slot stamp is re-read at least every microsecond, and the packet issues once it is valid. -/
  | stampRecheck (pkg q : Nat)
  /-- `NOP` (R414). The NOP packet completes at issue. -/
  | nop (p : Packet)
  /-- `LAUNCH` (R40). The LAUNCH packet verifies, checks, specialises, loads and triggers the launch barrier, or refuses. -/
  | launch (p : Packet)
  /-- `HOSTTX` (R422). The HOSTTX packet checks a host transaction and adds it to the front-end batch of superstep s. -/
  | hosttx (p : Packet)
  /-- `INDIRECT` (R420). The INDIRECT packet issues the packets of a buffer line by line. -/
  | indirect (p : Packet)
  /-- `REGION` (R424). The REGION packet checks and registers a region control block. -/
  | region (p : Packet)
  /-- `KILL` (R427). The KILL packet kills a subtree. -/
  | kill (p : Packet)
  /-- `SUSPEND` (R427). The SUSPEND packet pre-empts the subtree's running regions. -/
  | suspend (p : Packet)
  /-- `RESUME` (R427). The RESUME packet makes suspended regions eligible again. -/
  | resume (p : Packet)
  /-- `INVAL` (R327). The INVAL packet invalidates translations from the next barrier exit. -/
  | inval (p : Packet)
  /-- `EVICT` (R414). The EVICT packet evicts the unpinned specialisation-cache entries of an image, or of every image. -/
  | evict (p : Packet)
  /-- `SIGNAL` (R414). The SIGNAL packet writes a value after every earlier packet has completed. -/
  | signal (p : Packet)
  /-- `DESTROY` (R414). The DESTROY packet disables the queue with QDESTROYED. -/
  | destroy (p : Packet)
  /-- `PASID_TEARDOWN` (R430). Host teardown of a PASID stops its queues, kills its regions and discards its completions. -/
  | pasidTeardown (pkg : Nat) (pasid : BitVec 20)
  /-- `ATS_INVALIDATION` (R328). An ATS invalidation request from the host is honoured. -/
  | atsInvalidation (pkg : Nat) (pasid : BitVec 20) (start len : Nat)
  /-- `PAGE_REQUEST_RESPONSE` (R328). A Page Request Interface response arrives, and the parked access retries or faults. -/
  | pageRequestResponse (pkg : Nat) (pasid : BitVec 20) (page : Nat) (granted : Bool)
  /-- `HALT` (R170). The HALT debug command stops each strand of a core at its next boundary. -/
  | halt (pkg : Nat)
  /-- `DBG_RESUME` (R432). The RESUME debug command resumes a halted core. -/
  | dbgResume (pkg : Nat)
  /-- `STEP` (R432). The STEP debug command sets STATUS.SSTEP of a strand. -/
  | dbgStep (pkg : Nat)
  /-- `RDREG` (R432). The RDREG debug command reads a register into DBGDATA. -/
  | rdreg (pkg : Nat)
  /-- `WRREG` (R432). The WRREG debug command writes DBGDATA to a register. -/
  | wrreg (pkg : Nat)
  /-- `RDTCM` (R432). The RDTCM debug command reads a TCM dword. -/
  | rdtcm (pkg : Nat)
  /-- `WRTCM` (R432). The WRTCM debug command writes a TCM dword. -/
  | wrtcm (pkg : Nat)
  /-- `BRKEN` (R432). The BRKEN debug command enables or disables breakpoints for a region. -/
  | brken (pkg : Nat)
  /-- `REGISTER_WRITE` (R6). A host or firmware write to a register with no behaviour of its own, such as PWRCAP or FBHEAD. -/
  | registerWrite (pkg off : Nat) (value : Word)
  /-- `THERMAL_TRIP` (R438). A junction reaching 110 C stops the compute dies as an uncorrectable error. -/
  | thermalTrip (pkg : Nat)
  /-- `ECC_CORRECTION` (R439). A correctable error is corrected in place and counted. -/
  | eccCorrection (pkg : Nat)
  /-- `LINK_REPLAY` (R435). A Skaran link flit whose CRC fails is replayed. -/
  | linkReplay (pkg port peer : Nat) (failed : Bool)
  /-- `UNCORRECTABLE_ERROR` (R440). Stops the affected regions, which then roll back or are killed. -/
  | uncorrectableError (pkg : Nat)
  /-- `DEVICE_RESET` (R453). A device reset runs bring-up: firmware verification, test, defect map, link training and enabling. -/
  | deviceReset (pkg : Nat) (skips : List Nat)
  /-- `ILLEGAL_INSTRUCTION` (R57). A strand issues a word that matches no form, such as a reserved major or unassigned minor code, or a word that fails a placement or fetch-bound check, and it traps before any effect. -/
  | illegalInstruction (why : FetchFault)
  /-- `PCIE_COMPLETION` (R404). A PCIe completion arrives from the host: the data of a path 0x7 read, the zero-length read that acknowledges posted writes, an ATS translation, or a command-processor read of host memory. -/
  | pcieCompletion (pkg : Nat) (what : Completion)
  /-- `HOST_WINDOW_WRITE` (R434). The host writes device memory through the PCIe window onto device memory, for example HOST-page data or table contents. -/
  | hostWindowWrite (pkg addr : Nat) (bytes : List Byte)
  /-- `RECOVERY_POINT_VALID` (R444). The last byte of a recovery point has been written to the safe tier and read back with correct ECC, so the point becomes valid and the region issues again. -/
  | recoveryPointValid (region : Nat)
  deriving DecidableEq, Repr

/-- A decoded instruction word: the `L` and `S` bits of R43 and R44, and the instruction form. -/
structure DecodedWord where
  lone : Bool
  smark : Bool
  instr : Instr
  deriving DecidableEq, Repr

/-- The encoding versions that are decoded (R59). -/
inductive EncVer where
  | v1
  | v2
  | v3
  deriving DecidableEq, Repr

end Sys2Proof
end

