-- ==== Sys2Proof/WellFormed.lean ====
section
/-! DEFINITION. Well-formedness of an instruction as syntax: the checks of R47 that a form's own fields decide, whatever
the state (unaccepted element-type, scope and condition codes, zero lengths, illegal selectors). An ill-formed
instruction decodes, and executing it raises illegal-instruction. -/

namespace Sys2Proof

/-- The element width in bytes of a type code of set B (R218). Codes of stippled and reserved types give 0. -/
def typeWidth (t : BitVec 4) : Nat :=
  match t.toNat with
  | 0x0 | 0x4 | 0xA | 0xB => 1
  | 0x1 | 0x5 | 0x9 => 2
  | 0x2 | 0x6 | 0x8 => 4
  | 0x3 | 0x7 => 8
  | _ => 0

/-- Type set I: the integers (R221). -/
def inI (t : BitVec 4) : Bool := t.toNat ≤ 0x7
/-- Type set F: `.f32` and `.bf16` (R221). -/
def inF (t : BitVec 4) : Bool := t.toNat = 0x8 || t.toNat = 0x9
/-- Types I and F together, the arithmetic types of R226, R231 and R232. -/
def inIF (t : BitVec 4) : Bool := inI t || inF t
/-- Type set B: every format except Q8 and INT4X (R221). -/
def inB (t : BitVec 4) : Bool := t.toNat ≤ 0xB
/-- Type set G: elements of 16 to 64 bits (R221). -/
def inG (t : BitVec 4) : Bool := inIF t && t.toNat ≠ 0x0 && t.toNat ≠ 0x4
/-- Type set Q: the stippled formats (R221). -/
def inQ (t : BitVec 4) : Bool := t.toNat = 0xC || t.toNat = 0xD
/-- Type set H: the heap's score types (R221). -/
def inH (t : BitVec 4) : Bool := t.toNat = 0x2 || t.toNat = 0x6 || t.toNat = 0x8

/-- `MSTACCQ` types (R249). -/
def inStAccQ (t : BitVec 4) : Bool := t.toNat = 0x0 || (0x9 ≤ t.toNat && t.toNat ≤ 0xD)

/-- The control-register selectors of R58. -/
def selKnown (r : BitVec 12) : Bool :=
  let n := r.toNat
  n ≤ 0x008 || (0x010 ≤ n && n ≤ 0x014) || (0x020 ≤ n && n ≤ 0x025) || (0x030 ≤ n && n ≤ 0x032) ||
  (0x040 ≤ n && n ≤ 0x042) || (0x044 ≤ n && n ≤ 0x046) || n = 0x048 || (0x050 ≤ n && n ≤ 0x057) ||
  (0x060 ≤ n && n ≤ 0x065) || (0x070 ≤ n && n ≤ 0x071)

/-- The fields of an instruction are ones its form accepts (R47). -/
def wellFormed : Instr → Bool
  | .loop _ _ n => n ≠ 0#12                                     -- R52, R101
  | .loopi _ _ n => n ≠ 0#12
  | .start _ _ n => n ≠ 0#2                                      -- R79
  | .waits g => g ≠ 0#3                                          -- R81
  | .ldt d _ _ e => (e = 1#2 && d.toNat % 16 = 0) || (e = 2#2 && d.toNat % 8 = 0)  -- R124
  | .fence c p q => c ≠ 7#3 && p ≠ 0#4 && q ≠ 0#4                -- R54
  | .post _ _ n => 1 ≤ n.toNat && n.toNat ≤ 6                    -- R316
  | .crr _ r | .crw _ _ r | .crs _ _ r | .crc _ _ r => selKnown r  -- R58
  | .vld _ _ _ _ t | .vst _ _ _ _ t => inB t                     -- R238
  | .vgather _ _ _ _ t | .vscatter _ _ _ _ t => inG t            -- R239
  | .vldq _ b _ _ t | .vstq _ b _ _ t => inQ t && 1 ≤ b.toNat && b.toNat ≤ 29  -- R240
  | .hsift _ b _ t => inH t && 1 ≤ b.toNat && b.toNat ≤ 30       -- R242
  | .mring k => k ≠ 3#2                                          -- R249
  | .mswap q => q ≠ 0#4
  | .mstaccq _ _ b _ t => inStAccQ t && (inQ t || b = 0#5)
  | .mcfg w a b y x =>
    w ≠ 0#2 && (w.getLsbD 0 || (a = 0#3 && x = 0#4)) && (w.getLsbD 1 || (b = 0#3 && y = 0#4))
  | .mskset a b w => w ≠ 0#2 && (w.getLsbD 0 || a = 0#5) && (w.getLsbD 1 || b = 0#5)  -- R267
  | .ebset _ r | .ebget _ r => r.toNat < 24                      -- R278
  | .sassert _ _ c => c.toNat ≤ 5                                -- R192
  | .vadd _ _ _ _ t | .vsub _ _ _ _ t | .vmul _ _ _ _ t | .vfma _ _ _ _ t => inIF t  -- R226
  | .vmin _ _ _ _ t | .vmax _ _ _ _ t => inIF t
  | .vabs _ _ _ t | .vneg _ _ _ t => inIF t
  | .vand _ _ _ _ t | .vor _ _ _ _ t | .vxor _ _ _ _ t => inB t
  | .vsll _ _ _ _ t | .vsrl _ _ _ _ t | .vsra _ _ _ _ t | .vadds _ _ _ _ t | .vsubs _ _ _ _ t => inI t
  | .vcmpeq _ _ _ _ t | .vcmpne _ _ _ _ t | .vcmplt _ _ _ _ t | .vcmple _ _ _ _ t => inB t  -- R228
  | .vsel _ _ _ _ t => inB t
  | .vredsum _ _ _ _ t | .vredmax _ _ _ _ t | .vredmin _ _ _ _ t | .vscan _ _ _ _ t => inIF t
  | .vperm _ _ _ _ t | .vbcast _ _ _ _ t | .vslide _ _ _ _ t => inB t
  | .vcvt _ _ u _ t => inB u && inB t                            -- R235
  | .vscale _ _ _ _ t => inF t
  | .vexp2 _ _ _ t | .vrcp _ _ _ t => inF t
  | .vins _ _ i t | .vmovs _ _ i t => inB t && i.toNat < 32 / typeWidth t  -- R51
  | _ => true

end Sys2Proof
end

