-- ==== Sys2Proof/Decode.lean ====
section
/-! DEFINITION. Decoding and encoding of instruction words (spec R43 to R60): total on every 32-bit pattern, rejecting by
name what R47 and R57 make illegal. The decoder takes fields out of a word once; the encoder is written from the same
format tables. -/

namespace Sys2Proof

/-- Why a word is no instruction (R47, R56, R57). -/
inductive DecodeError where
  /-- The major code is reserved, under this encoding version (R56, R57, R59). -/
  | reservedMajor
  /-- The minor code is not listed under its major (R56). -/
  | unassignedMinor
  /-- A field marked zero is not zero, or a fixed field has another value (R47, R56); the form is the one the other fields name. -/
  | nonzeroField (i : Instr)
  /-- `S` is set where R49 does not allow it, or bit 30 is set under version 1 (R59). -/
  | staticMark
  /-- A word that must stand alone has `L` = 0 (R172), or `SASSERT` or `SGROW` has `S` = 0 (R49). -/
  | placement
  deriving DecidableEq, Repr

/-- The `len` bits of a word from bit `lo` up (R4). -/
def bits (w : Word32) (lo len : Nat) : BitVec len := w.extractLsb' lo len

/-- The major code, bits 29:24 (R43). -/
def major (w : Word32) : BitVec 6 := bits w 24 6

/-- `L`: the word issues alone (R44). -/
def isLone (w : Word32) : Bool := w.getLsbD 31

/-- `S`: the static mark (R44). -/
def isMarked (w : Word32) : Bool := w.getLsbD 30

/-- A-class words have major codes 0x20 to 0x3F (R44). -/
def isAClass (w : Word32) : Bool := w.getLsbD 29

/-- The instruction, if the bits of `mask` hold `val`; otherwise a field marked zero or fixed has another value. -/
def fixed (w mask val : Word32) (i : Instr) : Except DecodeError Instr :=
  if w &&& mask = val then .ok i else .error (.nonzeroField i)

/-- Major 0x01 (R56): the minor field is bits 13:11. -/
def decodeMajor01 (w : Word32) : Except DecodeError Instr :=
  match (bits w 11 3).toNat with
  | 0x0 => .ok (.beq (bits w 19 5) (bits w 14 5) (bits w 0 11))
  | 0x1 => .ok (.bne (bits w 19 5) (bits w 14 5) (bits w 0 11))
  | 0x2 => .ok (.blt (bits w 19 5) (bits w 14 5) (bits w 0 11))
  | 0x3 => .ok (.bge (bits w 19 5) (bits w 14 5) (bits w 0 11))
  | 0x4 => .ok (.bltn (bits w 19 5) (bits w 14 5) (bits w 0 11))
  | 0x5 => .ok (.bgen (bits w 19 5) (bits w 14 5) (bits w 0 11))
  | _ => .error .unassignedMinor

/-- Major 0x02 (R56): one form. -/
def decodeMajor02 (w : Word32) : Except DecodeError Instr :=
  .ok (.jal (bits w 19 5) (bits w 0 19))

/-- Major 0x03 (R56): one form. -/
def decodeMajor03 (w : Word32) : Except DecodeError Instr :=
  .ok (.jalr (bits w 19 5) (bits w 14 5) (bits w 0 14))

/-- Major 0x04 (R56): the minor field is bits 23:22. -/
def decodeMajor04 (w : Word32) : Except DecodeError Instr :=
  match (bits w 22 2).toNat with
  | 0x0 => fixed w 0x00F000 0x000000 (.loop (bits w 21 1) (bits w 16 5) (bits w 0 12))
  | 0x1 => .ok (.loopi (bits w 21 1) (bits w 12 9) (bits w 0 12))
  | 0x2 => fixed w 0x00000F 0x000000 (.rep (bits w 18 4) (bits w 10 8) (bits w 7 3) (bits w 4 3))
  | _ => .error .unassignedMinor

/-- Major 0x05 (R56): the minor field is bits 23:21. -/
def decodeMajor05 (w : Word32) : Except DecodeError Instr :=
  match (bits w 21 3).toNat with
  | 0x0 => fixed w 0x1F003C 0x000000 (.start (bits w 11 5) (bits w 6 5) (bits w 0 2))
  | 0x1 => fixed w 0x1FFFF1 0x000000 (.waits (bits w 1 3))
  | 0x2 => fixed w 0x1FFFFF 0x000000 .yield
  | _ => .error .unassignedMinor

/-- Major 0x06 (R56): one form. -/
def decodeMajor06 (w : Word32) : Except DecodeError Instr :=
  .ok (.ld (bits w 19 5) (bits w 14 5) (bits w 11 3) (bits w 0 11))

/-- Major 0x07 (R56): the minor field is bits 11:11. -/
def decodeMajor07 (w : Word32) : Except DecodeError Instr :=
  match (bits w 11 1).toNat with
  | 0x0 => .ok (.st (bits w 19 5) (bits w 14 5) (bits w 12 2) (bits w 0 11))
  | 0x1 => fixed w 0x003000 0x003000 (.stH (bits w 19 5) (bits w 14 5) (bits w 0 11))
  | _ => .error .unassignedMinor

/-- Major 0x08 (R56): the minor field is bits 23:21. -/
def decodeMajor08 (w : Word32) : Except DecodeError Instr :=
  match (bits w 21 3).toNat with
  | 0x0 => fixed w 0x000780 0x000000 (.ldbit (bits w 16 5) (bits w 11 5) (bits w 6 1) (bits w 0 6))
  | 0x1 => fixed w 0x1F0000 0x000000 (.stbit (bits w 11 5) (bits w 6 5) (bits w 0 6))
  | 0x2 => fixed w 0x00003C 0x000000 (.ldt (bits w 16 5) (bits w 11 5) (bits w 6 5) (bits w 0 2))
  | _ => .error .unassignedMinor

/-- Major 0x09 (R56): the minor field is bits 2:0. -/
def decodeMajor09 (w : Word32) : Except DecodeError Instr :=
  match (bits w 0 3).toNat with
  | 0x0 => fixed w 0xF801F0 0x000000 (.amoadd (bits w 14 5) (bits w 9 5) (bits w 3 1))
  | 0x1 => fixed w 0xF801F0 0x000000 (.amoand (bits w 14 5) (bits w 9 5) (bits w 3 1))
  | 0x2 => fixed w 0xF801F0 0x000000 (.amoor (bits w 14 5) (bits w 9 5) (bits w 3 1))
  | 0x3 => fixed w 0xF801F0 0x000000 (.amoxor (bits w 14 5) (bits w 9 5) (bits w 3 1))
  | 0x4 => fixed w 0xF801F0 0x000000 (.amomin (bits w 14 5) (bits w 9 5) (bits w 3 1))
  | 0x5 => fixed w 0xF801F0 0x000000 (.amomax (bits w 14 5) (bits w 9 5) (bits w 3 1))
  | 0x6 => fixed w 0xF801F0 0x000000 (.amominn (bits w 14 5) (bits w 9 5) (bits w 3 1))
  | 0x7 => fixed w 0xF801F0 0x000000 (.amomaxn (bits w 14 5) (bits w 9 5) (bits w 3 1))
  | _ => .error .unassignedMinor

/-- Major 0x0A (R56): the minor field is bits 2:0. -/
def decodeMajor0A (w : Word32) : Except DecodeError Instr :=
  match (bits w 0 3).toNat with
  | 0x0 => .ok (.amoseq (bits w 19 5) (bits w 14 5) (bits w 9 5) (bits w 4 5) (bits w 3 1))
  | _ => .error .unassignedMinor

/-- Major 0x0B (R56): one form. -/
def decodeMajor0B (w : Word32) : Except DecodeError Instr :=
  fixed w 0x001FFF 0x000000 (.fence (bits w 21 3) (bits w 17 4) (bits w 13 4))

/-- Major 0x0C (R56): the minor field is bits 23:21. -/
def decodeMajor0C (w : Word32) : Except DecodeError Instr :=
  match (bits w 21 3).toNat with
  | 0x0 => fixed w 0x1F003F 0x000000 (.waitw (bits w 11 5) (bits w 6 5))
  | 0x1 => fixed w 0x1FFFFF 0x000000 .ifence
  | 0x2 => fixed w 0x1FFFFF 0x000000 .sync
  | 0x3 => fixed w 0x1F0000 0x000000 (.post (bits w 11 5) (bits w 6 5) (bits w 0 6))
  | 0x4 => fixed w 0x00FFFF 0x000000 (.recv (bits w 16 5))
  | _ => .error .unassignedMinor

/-- Major 0x0D (R56): the minor field is bits 23:21. -/
def decodeMajor0D (w : Word32) : Except DecodeError Instr :=
  match (bits w 21 3).toNat with
  | 0x0 => fixed w 0x1FFFC0 0x000000 (.trap (bits w 0 6))
  | 0x1 => fixed w 0x1FFFFF 0x000000 .eret
  | 0x2 => fixed w 0x1FFFFF 0x000000 .endOp
  | 0x3 => fixed w 0x1FFFC0 0x000000 (.brk (bits w 0 6))
  | _ => .error .unassignedMinor

/-- Major 0x0E (R56): the minor field is bits 1:0. -/
def decodeMajor0E (w : Word32) : Except DecodeError Instr :=
  match (bits w 0 2).toNat with
  | 0x0 => fixed w 0x07C000 0x000000 (.crr (bits w 19 5) (bits w 2 12))
  | 0x1 => .ok (.crw (bits w 19 5) (bits w 14 5) (bits w 2 12))
  | 0x2 => .ok (.crs (bits w 19 5) (bits w 14 5) (bits w 2 12))
  | 0x3 => .ok (.crc (bits w 19 5) (bits w 14 5) (bits w 2 12))
  | _ => .error .unassignedMinor

/-- Major 0x0F (R56): the minor field is bits 1:0. -/
def decodeMajor0F (w : Word32) : Except DecodeError Instr :=
  match (bits w 0 2).toNat with
  | 0x0 => .ok (.vld (bits w 19 5) (bits w 14 5) (bits w 9 5) (bits w 6 3) (bits w 2 4))
  | 0x1 => .ok (.vst (bits w 19 5) (bits w 14 5) (bits w 9 5) (bits w 6 3) (bits w 2 4))
  | 0x2 => .ok (.vgather (bits w 19 5) (bits w 14 5) (bits w 9 5) (bits w 6 3) (bits w 2 4))
  | 0x3 => .ok (.vscatter (bits w 19 5) (bits w 14 5) (bits w 9 5) (bits w 6 3) (bits w 2 4))
  | _ => .error .unassignedMinor

/-- Major 0x10 (R56): the minor field is bits 1:0. -/
def decodeMajor10 (w : Word32) : Except DecodeError Instr :=
  match (bits w 0 2).toNat with
  | 0x0 => fixed w 0x000600 0x000000 (.vldq (bits w 19 5) (bits w 14 5) (bits w 11 3) (bits w 6 3) (bits w 2 4))
  | 0x1 => fixed w 0x000600 0x000000 (.vstq (bits w 19 5) (bits w 14 5) (bits w 11 3) (bits w 6 3) (bits w 2 4))
  | 0x2 => fixed w 0x003E00 0x000000 (.hsift (bits w 19 5) (bits w 14 5) (bits w 6 3) (bits w 2 4))
  | _ => .error .unassignedMinor

/-- Major 0x11 (R56): the minor field is bits 23:20. -/
def decodeMajor11 (w : Word32) : Except DecodeError Instr :=
  match (bits w 20 4).toNat with
  | 0x0 => fixed w 0x0000FF 0x000000 (.mma (bits w 18 2) (bits w 13 5) (bits w 8 5))
  | 0x1 => fixed w 0x0000FF 0x000000 (.mmaz (bits w 18 2) (bits w 13 5) (bits w 8 5))
  | 0x2 => fixed w 0x0C00FF 0x000000 (.mldb (bits w 13 5) (bits w 8 5))
  | 0x3 => fixed w 0x0C00FF 0x000000 (.mldbt (bits w 13 5) (bits w 8 5))
  | 0x4 => fixed w 0x0FFFFC 0x000000 (.mring (bits w 0 2))
  | 0x5 => fixed w 0x0FFFF0 0x000000 (.mswap (bits w 0 4))
  | 0x6 => fixed w 0x03FFFF 0x000000 (.mzero (bits w 18 2))
  | 0x7 => fixed w 0x001FFF 0x000000 (.mldacc (bits w 18 2) (bits w 13 5))
  | 0x8 => fixed w 0x001FFF 0x000000 (.mstacc (bits w 18 2) (bits w 13 5))
  | 0x9 => fixed w 0x000080 0x000000 (.mstaccq (bits w 18 2) (bits w 13 5) (bits w 8 5) (bits w 4 3) (bits w 0 4))
  | 0xA => fixed w 0x03FFF8 0x000000 (.maccadd (bits w 18 2) (bits w 2 1) (bits w 0 2))
  | 0xB => fixed w 0x031800 0x000000 (.mcfg (bits w 18 2) (bits w 13 3) (bits w 8 3) (bits w 4 4) (bits w 0 4))
  | 0xC => fixed w 0x0C00FC 0x000000 (.mskset (bits w 13 5) (bits w 8 5) (bits w 0 2))
  | 0xD => fixed w 0x0C1FFF 0x000000 (.mskget (bits w 13 5))
  | 0xE => fixed w 0x0FFFF0 0x000000 (.mkeep (bits w 2 2) (bits w 0 2))
  | 0xF => fixed w 0x0FFFFF 0x000000 .mwait
  | _ => .error .unassignedMinor

/-- Major 0x12 (R56): the minor field is bits 23:20. -/
def decodeMajor12 (w : Word32) : Except DecodeError Instr :=
  match (bits w 20 4).toNat with
  | 0x0 => fixed w 0x000018 0x000000 (.cpy (bits w 15 5) (bits w 10 5) (bits w 5 5) (bits w 2 1) (bits w 0 2))
  | 0x1 => .ok (.cpyd (bits w 15 5) (bits w 10 5) (bits w 5 5) (bits w 0 5))
  | 0x2 => fixed w 0x000018 0x000000 (.cpyg (bits w 15 5) (bits w 10 5) (bits w 5 5) (bits w 2 1) (bits w 0 2))
  | 0x3 => fixed w 0x000018 0x000000 (.cpys (bits w 15 5) (bits w 10 5) (bits w 5 5) (bits w 2 1) (bits w 0 2))
  | 0x4 => fixed w 0x000018 0x000000 (.cpyf (bits w 15 5) (bits w 10 5) (bits w 5 5) (bits w 2 1) (bits w 0 2))
  | 0x5 => fixed w 0x00001F 0x000000 (.cpyr (bits w 15 5) (bits w 10 5) (bits w 5 5))
  | 0x6 => fixed w 0x000018 0x000000 (.cpyho (bits w 15 5) (bits w 10 5) (bits w 5 5) (bits w 2 1) (bits w 0 2))
  | 0x7 => fixed w 0x00001F 0x000000 (.cpyres (bits w 15 5) (bits w 10 5) (bits w 5 5))
  | 0x8 => fixed w 0x007FE0 0x000000 (.ebset (bits w 15 5) (bits w 0 5))
  | 0x9 => fixed w 0x007FE0 0x000000 (.ebget (bits w 15 5) (bits w 0 5))
  | _ => .error .unassignedMinor

/-- Major 0x13 (R56): the minor field is bits 23:21. -/
def decodeMajor13 (w : Word32) : Except DecodeError Instr :=
  match (bits w 21 3).toNat with
  | 0x0 => fixed w 0x0007FF 0x000000 (.txsub (bits w 16 5) (bits w 11 5))
  | 0x1 => fixed w 0x0007FF 0x000000 (.txpeek (bits w 16 5) (bits w 11 5))
  | 0x2 => fixed w 0x00003E 0x000000 (.txsets (bits w 16 5) (bits w 11 5) (bits w 6 5) (bits w 0 1))
  | 0x3 => fixed w 0x00003F 0x000000 (.txchk (bits w 16 5) (bits w 11 5) (bits w 6 5))
  | 0x4 => fixed w 0x1FFFFF 0x000000 .txend
  | 0x5 => fixed w 0x1F07FF 0x000000 (.txrst (bits w 11 5))
  | _ => .error .unassignedMinor

/-- Major 0x14 (R56): the minor field is bits 23:21. -/
def decodeMajor14 (w : Word32) : Except DecodeError Instr :=
  match (bits w 21 3).toNat with
  | 0x0 => fixed w 0x1F003E 0x000000 (.pdainit (bits w 11 5) (bits w 6 5) (bits w 0 1))
  | 0x1 => fixed w 0x1F003F 0x000000 (.pdamask (bits w 11 5) (bits w 6 5))
  | 0x2 => fixed w 0x1F003F 0x000000 (.pdastep (bits w 11 5) (bits w 6 5))
  | 0x3 => fixed w 0x1F003E 0x000000 (.samplep (bits w 11 5) (bits w 6 5) (bits w 0 1))
  | 0x4 => fixed w 0x1F003F 0x000000 (.samplef (bits w 11 5) (bits w 6 5))
  | 0x5 => fixed w 0x1F003F 0x000000 (.pdasave (bits w 11 5) (bits w 6 5))
  | _ => .error .unassignedMinor

/-- Major 0x15 (R56): the minor field is bits 23:21. -/
def decodeMajor15 (w : Word32) : Except DecodeError Instr :=
  match (bits w 21 3).toNat with
  | 0x0 => fixed w 0x1F0038 0x000000 (.sassert (bits w 11 5) (bits w 6 5) (bits w 0 3))
  | 0x1 => fixed w 0x1FFFC0 0x000000 (.sgrow (bits w 0 6))
  | 0x2 => fixed w 0x0007FF 0x000000 (.sbmap (bits w 16 5) (bits w 11 5))
  | _ => .error .unassignedMinor

/-- Major 0x20 (R56): the minor field is bits 5:0. -/
def decodeMajor20 (w : Word32) : Except DecodeError Instr :=
  match (bits w 0 6).toNat with
  | 0x0 => fixed w 0x0001C0 0x000000 (.add (bits w 19 5) (bits w 14 5) (bits w 9 5))
  | 0x1 => fixed w 0x0001C0 0x000000 (.sub (bits w 19 5) (bits w 14 5) (bits w 9 5))
  | 0x2 => fixed w 0x0001C0 0x000000 (.and (bits w 19 5) (bits w 14 5) (bits w 9 5))
  | 0x3 => fixed w 0x0001C0 0x000000 (.or (bits w 19 5) (bits w 14 5) (bits w 9 5))
  | 0x4 => fixed w 0x0001C0 0x000000 (.xor (bits w 19 5) (bits w 14 5) (bits w 9 5))
  | 0x5 => fixed w 0x0001C0 0x000000 (.andn (bits w 19 5) (bits w 14 5) (bits w 9 5))
  | 0x6 => fixed w 0x0001C0 0x000000 (.sll (bits w 19 5) (bits w 14 5) (bits w 9 5))
  | 0x7 => fixed w 0x0001C0 0x000000 (.srl (bits w 19 5) (bits w 14 5) (bits w 9 5))
  | 0x8 => fixed w 0x0001C0 0x000000 (.sra (bits w 19 5) (bits w 14 5) (bits w 9 5))
  | 0x9 => fixed w 0x0001C0 0x000000 (.rotr (bits w 19 5) (bits w 14 5) (bits w 9 5))
  | 0xA => fixed w 0x0001C0 0x000000 (.mul (bits w 19 5) (bits w 14 5) (bits w 9 5))
  | 0xB => fixed w 0x0001C0 0x000000 (.mulh (bits w 19 5) (bits w 14 5) (bits w 9 5))
  | 0xC => fixed w 0x0001C0 0x000000 (.mulhn (bits w 19 5) (bits w 14 5) (bits w 9 5))
  | 0xD => fixed w 0x0001C0 0x000000 (.div (bits w 19 5) (bits w 14 5) (bits w 9 5))
  | 0xE => fixed w 0x0001C0 0x000000 (.divn (bits w 19 5) (bits w 14 5) (bits w 9 5))
  | 0xF => fixed w 0x0001C0 0x000000 (.rem (bits w 19 5) (bits w 14 5) (bits w 9 5))
  | 0x10 => fixed w 0x0001C0 0x000000 (.remn (bits w 19 5) (bits w 14 5) (bits w 9 5))
  | 0x11 => fixed w 0x0001C0 0x000000 (.min (bits w 19 5) (bits w 14 5) (bits w 9 5))
  | 0x12 => fixed w 0x0001C0 0x000000 (.max (bits w 19 5) (bits w 14 5) (bits w 9 5))
  | 0x13 => fixed w 0x0001C0 0x000000 (.minn (bits w 19 5) (bits w 14 5) (bits w 9 5))
  | 0x14 => fixed w 0x0001C0 0x000000 (.maxn (bits w 19 5) (bits w 14 5) (bits w 9 5))
  | 0x15 => fixed w 0x0001C0 0x000000 (.slt (bits w 19 5) (bits w 14 5) (bits w 9 5))
  | 0x16 => fixed w 0x0001C0 0x000000 (.sltn (bits w 19 5) (bits w 14 5) (bits w 9 5))
  | 0x17 => fixed w 0x0001C0 0x000000 (.seq (bits w 19 5) (bits w 14 5) (bits w 9 5))
  | 0x18 => fixed w 0x003FC0 0x000000 (.clz (bits w 19 5) (bits w 14 5))
  | 0x19 => fixed w 0x003FC0 0x000000 (.ctz (bits w 19 5) (bits w 14 5))
  | 0x1A => fixed w 0x003FC0 0x000000 (.popc (bits w 19 5) (bits w 14 5))
  | 0x1B => fixed w 0x003FC0 0x000000 (.brev (bits w 19 5) (bits w 14 5))
  | 0x1C => fixed w 0x003FC0 0x000000 (.bswap (bits w 19 5) (bits w 14 5))
  | _ => .error .unassignedMinor

/-- Major 0x21 (R56): one form. -/
def decodeMajor21 (w : Word32) : Except DecodeError Instr :=
  .ok (.addi (bits w 19 5) (bits w 14 5) (bits w 0 14))

/-- Major 0x22 (R56): one form. -/
def decodeMajor22 (w : Word32) : Except DecodeError Instr :=
  .ok (.andi (bits w 19 5) (bits w 14 5) (bits w 0 14))

/-- Major 0x23 (R56): one form. -/
def decodeMajor23 (w : Word32) : Except DecodeError Instr :=
  .ok (.ori (bits w 19 5) (bits w 14 5) (bits w 0 14))

/-- Major 0x24 (R56): one form. -/
def decodeMajor24 (w : Word32) : Except DecodeError Instr :=
  .ok (.xori (bits w 19 5) (bits w 14 5) (bits w 0 14))

/-- Major 0x25 (R56): one form. -/
def decodeMajor25 (w : Word32) : Except DecodeError Instr :=
  .ok (.slti (bits w 19 5) (bits w 14 5) (bits w 0 14))

/-- Major 0x26 (R56): one form. -/
def decodeMajor26 (w : Word32) : Except DecodeError Instr :=
  .ok (.sltin (bits w 19 5) (bits w 14 5) (bits w 0 14))

/-- Major 0x27 (R56): the minor field is bits 13:12. -/
def decodeMajor27 (w : Word32) : Except DecodeError Instr :=
  match (bits w 12 2).toNat with
  | 0x0 => fixed w 0x000FC0 0x000000 (.slli (bits w 19 5) (bits w 14 5) (bits w 0 6))
  | 0x1 => fixed w 0x000FC0 0x000000 (.srli (bits w 19 5) (bits w 14 5) (bits w 0 6))
  | 0x2 => fixed w 0x000FC0 0x000000 (.srai (bits w 19 5) (bits w 14 5) (bits w 0 6))
  | 0x3 => fixed w 0x000FC0 0x000000 (.rotri (bits w 19 5) (bits w 14 5) (bits w 0 6))
  | _ => .error .unassignedMinor

/-- Major 0x28 (R56): one form. -/
def decodeMajor28 (w : Word32) : Except DecodeError Instr :=
  .ok (.lui (bits w 19 5) (bits w 0 19))

/-- Major 0x29 (R56): one form. -/
def decodeMajor29 (w : Word32) : Except DecodeError Instr :=
  fixed w 0x000001 0x000000 (.insh (bits w 19 5) (bits w 17 2) (bits w 1 16))

/-- Major 0x30 (R56): the minor field is bits 1:0. -/
def decodeMajor30 (w : Word32) : Except DecodeError Instr :=
  match (bits w 0 2).toNat with
  | 0x0 => .ok (.vadd (bits w 19 5) (bits w 14 5) (bits w 9 5) (bits w 6 3) (bits w 2 4))
  | 0x1 => .ok (.vsub (bits w 19 5) (bits w 14 5) (bits w 9 5) (bits w 6 3) (bits w 2 4))
  | 0x2 => .ok (.vmul (bits w 19 5) (bits w 14 5) (bits w 9 5) (bits w 6 3) (bits w 2 4))
  | 0x3 => .ok (.vfma (bits w 19 5) (bits w 14 5) (bits w 9 5) (bits w 6 3) (bits w 2 4))
  | _ => .error .unassignedMinor

/-- Major 0x31 (R56): the minor field is bits 1:0. -/
def decodeMajor31 (w : Word32) : Except DecodeError Instr :=
  match (bits w 0 2).toNat with
  | 0x0 => .ok (.vmin (bits w 19 5) (bits w 14 5) (bits w 9 5) (bits w 6 3) (bits w 2 4))
  | 0x1 => .ok (.vmax (bits w 19 5) (bits w 14 5) (bits w 9 5) (bits w 6 3) (bits w 2 4))
  | 0x2 => fixed w 0x003E00 0x000000 (.vabs (bits w 19 5) (bits w 14 5) (bits w 6 3) (bits w 2 4))
  | 0x3 => fixed w 0x003E00 0x000000 (.vneg (bits w 19 5) (bits w 14 5) (bits w 6 3) (bits w 2 4))
  | _ => .error .unassignedMinor

/-- Major 0x32 (R56): the minor field is bits 1:0. -/
def decodeMajor32 (w : Word32) : Except DecodeError Instr :=
  match (bits w 0 2).toNat with
  | 0x0 => .ok (.vand (bits w 19 5) (bits w 14 5) (bits w 9 5) (bits w 6 3) (bits w 2 4))
  | 0x1 => .ok (.vor (bits w 19 5) (bits w 14 5) (bits w 9 5) (bits w 6 3) (bits w 2 4))
  | 0x2 => .ok (.vxor (bits w 19 5) (bits w 14 5) (bits w 9 5) (bits w 6 3) (bits w 2 4))
  | 0x3 => .ok (.vsll (bits w 19 5) (bits w 14 5) (bits w 9 5) (bits w 6 3) (bits w 2 4))
  | _ => .error .unassignedMinor

/-- Major 0x33 (R56): the minor field is bits 1:0. -/
def decodeMajor33 (w : Word32) : Except DecodeError Instr :=
  match (bits w 0 2).toNat with
  | 0x0 => .ok (.vsrl (bits w 19 5) (bits w 14 5) (bits w 9 5) (bits w 6 3) (bits w 2 4))
  | 0x1 => .ok (.vsra (bits w 19 5) (bits w 14 5) (bits w 9 5) (bits w 6 3) (bits w 2 4))
  | 0x2 => .ok (.vadds (bits w 19 5) (bits w 14 5) (bits w 9 5) (bits w 6 3) (bits w 2 4))
  | 0x3 => .ok (.vsubs (bits w 19 5) (bits w 14 5) (bits w 9 5) (bits w 6 3) (bits w 2 4))
  | _ => .error .unassignedMinor

/-- Major 0x34 (R56): the minor field is bits 1:0. -/
def decodeMajor34 (w : Word32) : Except DecodeError Instr :=
  match (bits w 0 2).toNat with
  | 0x0 => fixed w 0xC00000 0x000000 (.vcmpeq (bits w 19 3) (bits w 14 5) (bits w 9 5) (bits w 6 3) (bits w 2 4))
  | 0x1 => fixed w 0xC00000 0x000000 (.vcmpne (bits w 19 3) (bits w 14 5) (bits w 9 5) (bits w 6 3) (bits w 2 4))
  | 0x2 => fixed w 0xC00000 0x000000 (.vcmplt (bits w 19 3) (bits w 14 5) (bits w 9 5) (bits w 6 3) (bits w 2 4))
  | 0x3 => fixed w 0xC00000 0x000000 (.vcmple (bits w 19 3) (bits w 14 5) (bits w 9 5) (bits w 6 3) (bits w 2 4))
  | _ => .error .unassignedMinor

/-- Major 0x35 (R56): the minor field is bits 1:0. -/
def decodeMajor35 (w : Word32) : Except DecodeError Instr :=
  match (bits w 0 2).toNat with
  | 0x0 => .ok (.vsel (bits w 19 5) (bits w 14 5) (bits w 9 5) (bits w 6 3) (bits w 2 4))
  | 0x1 => .ok (.vredsum (bits w 19 5) (bits w 14 5) (bits w 9 5) (bits w 6 3) (bits w 2 4))
  | 0x2 => .ok (.vredmax (bits w 19 5) (bits w 14 5) (bits w 9 5) (bits w 6 3) (bits w 2 4))
  | 0x3 => .ok (.vredmin (bits w 19 5) (bits w 14 5) (bits w 9 5) (bits w 6 3) (bits w 2 4))
  | _ => .error .unassignedMinor

/-- Major 0x36 (R56): the minor field is bits 1:0. -/
def decodeMajor36 (w : Word32) : Except DecodeError Instr :=
  match (bits w 0 2).toNat with
  | 0x0 => .ok (.vscan (bits w 19 5) (bits w 14 5) (bits w 9 5) (bits w 6 3) (bits w 2 4))
  | 0x1 => .ok (.vperm (bits w 19 5) (bits w 14 5) (bits w 9 5) (bits w 6 3) (bits w 2 4))
  | 0x2 => .ok (.vbcast (bits w 19 5) (bits w 14 5) (bits w 9 5) (bits w 6 3) (bits w 2 4))
  | 0x3 => .ok (.vslide (bits w 19 5) (bits w 14 5) (bits w 9 5) (bits w 6 3) (bits w 2 4))
  | _ => .error .unassignedMinor

/-- Major 0x37 (R56): the minor field is bits 1:0. -/
def decodeMajor37 (w : Word32) : Except DecodeError Instr :=
  match (bits w 0 2).toNat with
  | 0x0 => fixed w 0x002000 0x000000 (.vcvt (bits w 19 5) (bits w 14 5) (bits w 9 4) (bits w 6 3) (bits w 2 4))
  | 0x1 => .ok (.vscale (bits w 19 5) (bits w 14 5) (bits w 9 5) (bits w 6 3) (bits w 2 4))
  | 0x2 => fixed w 0x003E00 0x000000 (.vexp2 (bits w 19 5) (bits w 14 5) (bits w 6 3) (bits w 2 4))
  | 0x3 => fixed w 0x003E00 0x000000 (.vrcp (bits w 19 5) (bits w 14 5) (bits w 6 3) (bits w 2 4))
  | _ => .error .unassignedMinor

/-- Major 0x38 (R56): the minor field is bits 1:0. -/
def decodeMajor38 (w : Word32) : Except DecodeError Instr :=
  match (bits w 0 2).toNat with
  | 0x0 => fixed w 0xC631FC 0x000000 (.kand (bits w 19 3) (bits w 14 3) (bits w 9 3))
  | 0x1 => fixed w 0xC631FC 0x000000 (.kor (bits w 19 3) (bits w 14 3) (bits w 9 3))
  | 0x2 => fixed w 0xC631FC 0x000000 (.kxor (bits w 19 3) (bits w 14 3) (bits w 9 3))
  | 0x3 => fixed w 0xC63FFC 0x000000 (.knot (bits w 19 3) (bits w 14 3))
  | _ => .error .unassignedMinor

/-- Major 0x39 (R56): the minor field is bits 1:0. -/
def decodeMajor39 (w : Word32) : Except DecodeError Instr :=
  match (bits w 0 2).toNat with
  | 0x0 => fixed w 0x0001C0 0x000000 (.vins (bits w 19 5) (bits w 14 5) (bits w 9 5) (bits w 2 4))
  | 0x1 => fixed w 0x0001C0 0x000000 (.vmovs (bits w 19 5) (bits w 14 5) (bits w 9 5) (bits w 2 4))
  | _ => .error .unassignedMinor

/-- The instruction form of a word, by its major code (R56); the bits `L` and `S` are not looked at here. -/
def decodeForm (w : Word32) : Except DecodeError Instr :=
  match (major w).toNat with
  | 0x01 => decodeMajor01 w
  | 0x02 => decodeMajor02 w
  | 0x03 => decodeMajor03 w
  | 0x04 => decodeMajor04 w
  | 0x05 => decodeMajor05 w
  | 0x06 => decodeMajor06 w
  | 0x07 => decodeMajor07 w
  | 0x08 => decodeMajor08 w
  | 0x09 => decodeMajor09 w
  | 0x0A => decodeMajor0A w
  | 0x0B => decodeMajor0B w
  | 0x0C => decodeMajor0C w
  | 0x0D => decodeMajor0D w
  | 0x0E => decodeMajor0E w
  | 0x0F => decodeMajor0F w
  | 0x10 => decodeMajor10 w
  | 0x11 => decodeMajor11 w
  | 0x12 => decodeMajor12 w
  | 0x13 => decodeMajor13 w
  | 0x14 => decodeMajor14 w
  | 0x15 => decodeMajor15 w
  | 0x20 => decodeMajor20 w
  | 0x21 => decodeMajor21 w
  | 0x22 => decodeMajor22 w
  | 0x23 => decodeMajor23 w
  | 0x24 => decodeMajor24 w
  | 0x25 => decodeMajor25 w
  | 0x26 => decodeMajor26 w
  | 0x27 => decodeMajor27 w
  | 0x28 => decodeMajor28 w
  | 0x29 => decodeMajor29 w
  | 0x30 => decodeMajor30 w
  | 0x31 => decodeMajor31 w
  | 0x32 => decodeMajor32 w
  | 0x33 => decodeMajor33 w
  | 0x34 => decodeMajor34 w
  | 0x35 => decodeMajor35 w
  | 0x36 => decodeMajor36 w
  | 0x37 => decodeMajor37 w
  | 0x38 => decodeMajor38 w
  | 0x39 => decodeMajor39 w
  | _ => .error .reservedMajor

/-! ### Encoding versions (R59, R60) -/

/-- The version 3 code of a version 1 element-type code (R59). -/
def typeV1 (t : BitVec 4) : BitVec 4 :=
  match t.toNat with
  | 0xA => 0xD#4
  | 0xB => 0xC#4
  | 0xC => 0xA#4
  | 0xD => 0xB#4
  | _ => t

/-- The word with its 4-bit field at `lo` replaced by its version 3 type code. -/
def retype (w : Word32) (lo : Nat) : Word32 :=
  let t := bits w lo 4
  (w &&& ~~~((0xF#32) <<< lo)) ||| ((typeV1 t).zeroExtend 32 <<< lo)

/-- A version 1 word as the version 3 word of the same meaning: the element-type codes that the word carries are
translated (R60). -/
def translateV1 (w : Word32) : Word32 :=
  let m := (major w).toNat
  if m = 0x37 ∧ (bits w 0 2).toNat = 0 then retype (retype w 2) 9
  else if m = 0x0F ∨ m = 0x10 ∨ (0x30 ≤ m ∧ m ≤ 0x39 ∧ m ≠ 0x38) then retype w 2
  else if m = 0x11 ∧ (bits w 20 4).toNat = 0x9 then retype w 0
  else if m = 0x11 ∧ (bits w 20 4).toNat = 0xB then retype (retype w 0) 4
  else w

/-- Majors 0x14 and 0x15 are reserved under the earlier versions (R59). -/
def majorReserved (v : EncVer) (w : Word32) : Bool :=
  match v with
  | .v1 => (major w).toNat = 0x14 || (major w).toNat = 0x15
  | .v2 => (major w).toNat = 0x14
  | .v3 => false

/-- The form of a word, whatever its `S` bit and its zero fields hold (R45, R47). -/
def formOf (v : EncVer) (w : Word32) : Option Instr :=
  if majorReserved v w then none
  else
    match decodeForm (if v = .v1 then translateV1 w else w) with
    | .ok i | .error (.nonzeroField i) => some i
    | .error _ => none

/-- The word's major code is reserved under the encoding version (R56, R57, R59). -/
def reservedWord (v : EncVer) (w : Word32) : Bool := majorReserved v w || decodeForm w = .error .reservedMajor

/-- The groups on which `S` may be set (R49), by major code and, for major 0x15, by form. -/
def markAllowed (w : Word32) : Bool :=
  let m := (major w).toNat
  (0x01 ≤ m && m ≤ 0x04) || m = 0x06 || (0x20 ≤ m && m ≤ 0x29) || (m = 0x15 && (bits w 21 3).toNat ≤ 1)

/-- `SASSERT` and `SGROW` require `S` = 1 (R49). -/
def markRequired (w : Word32) : Bool :=
  (major w).toNat = 0x15 && (bits w 21 3).toNat ≤ 1

/-- The four system instructions must stand as lone words (R172). -/
def loneOnly (w : Word32) : Bool := (major w).toNat = 0x0D

/-- The decoder: a word under an encoding version, as unspecialised code decodes it (R47, R49, R57, R59, R60). -/
def decode (v : EncVer) (w : Word32) : Except DecodeError DecodedWord :=
  if v = .v1 ∧ isMarked w then .error .staticMark
  else if majorReserved v w then .error .reservedMajor
  else
    match decodeForm (if v = .v1 then translateV1 w else w) with
    | .error e => .error e
    | .ok i =>
      if isMarked w && !markAllowed w then .error .staticMark
      else if markRequired w && !isMarked w then .error .placement
      else if loneOnly w && !isLone w then .error .placement
      else .ok { lone := isLone w, smark := isMarked w, instr := i }

/-! ### Encoding -/

/-- The word of an instruction with `L` = 0 and `S` = 0, from the formats of R50 and the code tables of R53 to R56;
`none` for a step that is not a word. -/
def encodeForm : Instr → Option Word32
  | .beq a b o => some (0x1#8 ++ a ++ b ++ 0x0#3 ++ o)
  | .bne a b o => some (0x1#8 ++ a ++ b ++ 0x1#3 ++ o)
  | .blt a b o => some (0x1#8 ++ a ++ b ++ 0x2#3 ++ o)
  | .bge a b o => some (0x1#8 ++ a ++ b ++ 0x3#3 ++ o)
  | .bltn a b o => some (0x1#8 ++ a ++ b ++ 0x4#3 ++ o)
  | .bgen a b o => some (0x1#8 ++ a ++ b ++ 0x5#3 ++ o)
  | .jal d i => some (0x2#8 ++ d ++ i)
  | .jalr d a i => some (0x3#8 ++ d ++ a ++ i)
  | .loop v a n => some (0x10#10 ++ v ++ a ++ 0x0#4 ++ n)
  | .loopi v c n => some (0x11#10 ++ v ++ c ++ n)
  | .rep b p g t => some (0x12#10 ++ b ++ p ++ g ++ t ++ 0x0#4)
  | .start a b n => some (0x500#16 ++ a ++ b ++ 0x0#4 ++ n)
  | .waits g => some (0x520000#28 ++ g ++ 0x0#1)
  | .yield => some (0x5400000#32)
  | .ld d b t o => some (0x6#8 ++ d ++ b ++ t ++ o)
  | .st d b z o => some (0x7#8 ++ d ++ b ++ z ++ 0x0#1 ++ o)
  | .stH d b o => some (0x7#8 ++ d ++ b ++ 0x7#3 ++ o)
  | .ldbit d a b w => some (0x40#11 ++ d ++ a ++ 0x0#4 ++ b ++ w)
  | .stbit a b w => some (0x820#16 ++ a ++ b ++ w)
  | .ldt d a b e => some (0x42#11 ++ d ++ a ++ b ++ 0x0#4 ++ e)
  | .amoadd a b w => some (0x120#13 ++ a ++ b ++ 0x0#5 ++ w ++ 0x0#3)
  | .amoand a b w => some (0x120#13 ++ a ++ b ++ 0x0#5 ++ w ++ 0x1#3)
  | .amoor a b w => some (0x120#13 ++ a ++ b ++ 0x0#5 ++ w ++ 0x2#3)
  | .amoxor a b w => some (0x120#13 ++ a ++ b ++ 0x0#5 ++ w ++ 0x3#3)
  | .amomin a b w => some (0x120#13 ++ a ++ b ++ 0x0#5 ++ w ++ 0x4#3)
  | .amomax a b w => some (0x120#13 ++ a ++ b ++ 0x0#5 ++ w ++ 0x5#3)
  | .amominn a b w => some (0x120#13 ++ a ++ b ++ 0x0#5 ++ w ++ 0x6#3)
  | .amomaxn a b w => some (0x120#13 ++ a ++ b ++ 0x0#5 ++ w ++ 0x7#3)
  | .amoseq d a b c w => some (0xA#8 ++ d ++ a ++ b ++ c ++ w ++ 0x0#3)
  | .fence c p q => some (0xB#8 ++ c ++ p ++ q ++ 0x0#13)
  | .waitw a b => some (0xC00#16 ++ a ++ b ++ 0x0#6)
  | .ifence => some (0xC200000#32)
  | .sync => some (0xC400000#32)
  | .post a b n => some (0xC60#16 ++ a ++ b ++ n)
  | .recv d => some (0x64#11 ++ d ++ 0x0#16)
  | .trap n => some (0x340000#26 ++ n)
  | .eret => some (0xD200000#32)
  | .endOp => some (0xD400000#32)
  | .brk n => some (0x358000#26 ++ n)
  | .crr d r => some (0xE#8 ++ d ++ 0x0#5 ++ r ++ 0x0#2)
  | .crw d a r => some (0xE#8 ++ d ++ a ++ r ++ 0x1#2)
  | .crs d a r => some (0xE#8 ++ d ++ a ++ r ++ 0x2#2)
  | .crc d a r => some (0xE#8 ++ d ++ a ++ r ++ 0x3#2)
  | .vld v b c m t => some (0xF#8 ++ v ++ b ++ c ++ m ++ t ++ 0x0#2)
  | .vst v b c m t => some (0xF#8 ++ v ++ b ++ c ++ m ++ t ++ 0x1#2)
  | .vgather v b c m t => some (0xF#8 ++ v ++ b ++ c ++ m ++ t ++ 0x2#2)
  | .vscatter v b c m t => some (0xF#8 ++ v ++ b ++ c ++ m ++ t ++ 0x3#2)
  | .vldq v b g m t => some (0x10#8 ++ v ++ b ++ g ++ 0x0#2 ++ m ++ t ++ 0x0#2)
  | .vstq v b g m t => some (0x10#8 ++ v ++ b ++ g ++ 0x0#2 ++ m ++ t ++ 0x1#2)
  | .hsift v b m t => some (0x10#8 ++ v ++ b ++ 0x0#5 ++ m ++ t ++ 0x2#2)
  | .mma c a b => some (0x110#12 ++ c ++ a ++ b ++ 0x0#8)
  | .mmaz c a b => some (0x111#12 ++ c ++ a ++ b ++ 0x0#8)
  | .mldb a b => some (0x448#14 ++ a ++ b ++ 0x0#8)
  | .mldbt a b => some (0x44C#14 ++ a ++ b ++ 0x0#8)
  | .mring k => some (0x4500000#30 ++ k)
  | .mswap q => some (0x1150000#28 ++ q)
  | .mzero c => some (0x116#12 ++ c ++ 0x0#18)
  | .mldacc c a => some (0x117#12 ++ c ++ a ++ 0x0#13)
  | .mstacc c a => some (0x118#12 ++ c ++ a ++ 0x0#13)
  | .mstaccq c a b g t => some (0x119#12 ++ c ++ a ++ b ++ 0x0#1 ++ g ++ t)
  | .maccadd c p s => some (0x11A#12 ++ c ++ 0x0#15 ++ p ++ s)
  | .mcfg w a b y x => some (0x11B#12 ++ w ++ 0x0#2 ++ a ++ 0x0#2 ++ b ++ y ++ x)
  | .mskset a b w => some (0x470#14 ++ a ++ b ++ 0x0#6 ++ w)
  | .mskget a => some (0x474#14 ++ a ++ 0x0#13)
  | .mkeep y x => some (0x11E0000#28 ++ y ++ x)
  | .mwait => some (0x11F00000#32)
  | .cpy a b c g e => some (0x120#12 ++ a ++ b ++ c ++ 0x0#2 ++ g ++ e)
  | .cpyd a b c n => some (0x121#12 ++ a ++ b ++ c ++ n)
  | .cpyg a b c g e => some (0x122#12 ++ a ++ b ++ c ++ 0x0#2 ++ g ++ e)
  | .cpys a b c g e => some (0x123#12 ++ a ++ b ++ c ++ 0x0#2 ++ g ++ e)
  | .cpyf a b c g e => some (0x124#12 ++ a ++ b ++ c ++ 0x0#2 ++ g ++ e)
  | .cpyr a b c => some (0x125#12 ++ a ++ b ++ c ++ 0x0#5)
  | .cpyho a b c g e => some (0x126#12 ++ a ++ b ++ c ++ 0x0#2 ++ g ++ e)
  | .cpyres a b c => some (0x127#12 ++ a ++ b ++ c ++ 0x0#5)
  | .ebset a r => some (0x128#12 ++ a ++ 0x0#10 ++ r)
  | .ebget a r => some (0x129#12 ++ a ++ 0x0#10 ++ r)
  | .txsub d a => some (0x98#11 ++ d ++ a ++ 0x0#11)
  | .txpeek d a => some (0x99#11 ++ d ++ a ++ 0x0#11)
  | .txsets d a b k => some (0x9A#11 ++ d ++ a ++ b ++ 0x0#5 ++ k)
  | .txchk d a b => some (0x9B#11 ++ d ++ a ++ b ++ 0x0#6)
  | .txend => some (0x13800000#32)
  | .txrst a => some (0x13A0#16 ++ a ++ 0x0#11)
  | .pdainit a b r => some (0x1400#16 ++ a ++ b ++ 0x0#5 ++ r)
  | .pdamask a b => some (0x1420#16 ++ a ++ b ++ 0x0#6)
  | .pdastep a b => some (0x1440#16 ++ a ++ b ++ 0x0#6)
  | .samplep a b k => some (0x1460#16 ++ a ++ b ++ 0x0#5 ++ k)
  | .samplef a b => some (0x1480#16 ++ a ++ b ++ 0x0#6)
  | .pdasave a b => some (0x14A0#16 ++ a ++ b ++ 0x0#6)
  | .sassert a b c => some (0x1500#16 ++ a ++ b ++ 0x0#3 ++ c)
  | .sgrow p => some (0x548000#26 ++ p)
  | .sbmap d a => some (0xAA#11 ++ d ++ a ++ 0x0#11)
  | .add d a b => some (0x20#8 ++ d ++ a ++ b ++ 0x0#9)
  | .sub d a b => some (0x20#8 ++ d ++ a ++ b ++ 0x1#9)
  | .and d a b => some (0x20#8 ++ d ++ a ++ b ++ 0x2#9)
  | .or d a b => some (0x20#8 ++ d ++ a ++ b ++ 0x3#9)
  | .xor d a b => some (0x20#8 ++ d ++ a ++ b ++ 0x4#9)
  | .andn d a b => some (0x20#8 ++ d ++ a ++ b ++ 0x5#9)
  | .sll d a b => some (0x20#8 ++ d ++ a ++ b ++ 0x6#9)
  | .srl d a b => some (0x20#8 ++ d ++ a ++ b ++ 0x7#9)
  | .sra d a b => some (0x20#8 ++ d ++ a ++ b ++ 0x8#9)
  | .rotr d a b => some (0x20#8 ++ d ++ a ++ b ++ 0x9#9)
  | .mul d a b => some (0x20#8 ++ d ++ a ++ b ++ 0xA#9)
  | .mulh d a b => some (0x20#8 ++ d ++ a ++ b ++ 0xB#9)
  | .mulhn d a b => some (0x20#8 ++ d ++ a ++ b ++ 0xC#9)
  | .div d a b => some (0x20#8 ++ d ++ a ++ b ++ 0xD#9)
  | .divn d a b => some (0x20#8 ++ d ++ a ++ b ++ 0xE#9)
  | .rem d a b => some (0x20#8 ++ d ++ a ++ b ++ 0xF#9)
  | .remn d a b => some (0x20#8 ++ d ++ a ++ b ++ 0x10#9)
  | .min d a b => some (0x20#8 ++ d ++ a ++ b ++ 0x11#9)
  | .max d a b => some (0x20#8 ++ d ++ a ++ b ++ 0x12#9)
  | .minn d a b => some (0x20#8 ++ d ++ a ++ b ++ 0x13#9)
  | .maxn d a b => some (0x20#8 ++ d ++ a ++ b ++ 0x14#9)
  | .slt d a b => some (0x20#8 ++ d ++ a ++ b ++ 0x15#9)
  | .sltn d a b => some (0x20#8 ++ d ++ a ++ b ++ 0x16#9)
  | .seq d a b => some (0x20#8 ++ d ++ a ++ b ++ 0x17#9)
  | .clz d a => some (0x20#8 ++ d ++ a ++ 0x18#14)
  | .ctz d a => some (0x20#8 ++ d ++ a ++ 0x19#14)
  | .popc d a => some (0x20#8 ++ d ++ a ++ 0x1A#14)
  | .brev d a => some (0x20#8 ++ d ++ a ++ 0x1B#14)
  | .bswap d a => some (0x20#8 ++ d ++ a ++ 0x1C#14)
  | .addi d a i => some (0x21#8 ++ d ++ a ++ i)
  | .andi d a i => some (0x22#8 ++ d ++ a ++ i)
  | .ori d a i => some (0x23#8 ++ d ++ a ++ i)
  | .xori d a i => some (0x24#8 ++ d ++ a ++ i)
  | .slti d a i => some (0x25#8 ++ d ++ a ++ i)
  | .sltin d a i => some (0x26#8 ++ d ++ a ++ i)
  | .slli d a n => some (0x27#8 ++ d ++ a ++ 0x0#8 ++ n)
  | .srli d a n => some (0x27#8 ++ d ++ a ++ 0x40#8 ++ n)
  | .srai d a n => some (0x27#8 ++ d ++ a ++ 0x80#8 ++ n)
  | .rotri d a n => some (0x27#8 ++ d ++ a ++ 0xC0#8 ++ n)
  | .lui d i => some (0x28#8 ++ d ++ i)
  | .insh d h i => some (0x29#8 ++ d ++ h ++ i ++ 0x0#1)
  | .vadd d a b m t => some (0x30#8 ++ d ++ a ++ b ++ m ++ t ++ 0x0#2)
  | .vsub d a b m t => some (0x30#8 ++ d ++ a ++ b ++ m ++ t ++ 0x1#2)
  | .vmul d a b m t => some (0x30#8 ++ d ++ a ++ b ++ m ++ t ++ 0x2#2)
  | .vfma d a b m t => some (0x30#8 ++ d ++ a ++ b ++ m ++ t ++ 0x3#2)
  | .vmin d a b m t => some (0x31#8 ++ d ++ a ++ b ++ m ++ t ++ 0x0#2)
  | .vmax d a b m t => some (0x31#8 ++ d ++ a ++ b ++ m ++ t ++ 0x1#2)
  | .vabs d a m t => some (0x31#8 ++ d ++ a ++ 0x0#5 ++ m ++ t ++ 0x2#2)
  | .vneg d a m t => some (0x31#8 ++ d ++ a ++ 0x0#5 ++ m ++ t ++ 0x3#2)
  | .vand d a b m t => some (0x32#8 ++ d ++ a ++ b ++ m ++ t ++ 0x0#2)
  | .vor d a b m t => some (0x32#8 ++ d ++ a ++ b ++ m ++ t ++ 0x1#2)
  | .vxor d a b m t => some (0x32#8 ++ d ++ a ++ b ++ m ++ t ++ 0x2#2)
  | .vsll d a b m t => some (0x32#8 ++ d ++ a ++ b ++ m ++ t ++ 0x3#2)
  | .vsrl d a b m t => some (0x33#8 ++ d ++ a ++ b ++ m ++ t ++ 0x0#2)
  | .vsra d a b m t => some (0x33#8 ++ d ++ a ++ b ++ m ++ t ++ 0x1#2)
  | .vadds d a b m t => some (0x33#8 ++ d ++ a ++ b ++ m ++ t ++ 0x2#2)
  | .vsubs d a b m t => some (0x33#8 ++ d ++ a ++ b ++ m ++ t ++ 0x3#2)
  | .vcmpeq k a b m t => some (0xD0#10 ++ k ++ a ++ b ++ m ++ t ++ 0x0#2)
  | .vcmpne k a b m t => some (0xD0#10 ++ k ++ a ++ b ++ m ++ t ++ 0x1#2)
  | .vcmplt k a b m t => some (0xD0#10 ++ k ++ a ++ b ++ m ++ t ++ 0x2#2)
  | .vcmple k a b m t => some (0xD0#10 ++ k ++ a ++ b ++ m ++ t ++ 0x3#2)
  | .vsel d a b m t => some (0x35#8 ++ d ++ a ++ b ++ m ++ t ++ 0x0#2)
  | .vredsum d a b m t => some (0x35#8 ++ d ++ a ++ b ++ m ++ t ++ 0x1#2)
  | .vredmax d a b m t => some (0x35#8 ++ d ++ a ++ b ++ m ++ t ++ 0x2#2)
  | .vredmin d a b m t => some (0x35#8 ++ d ++ a ++ b ++ m ++ t ++ 0x3#2)
  | .vscan d a b m t => some (0x36#8 ++ d ++ a ++ b ++ m ++ t ++ 0x0#2)
  | .vperm d a b m t => some (0x36#8 ++ d ++ a ++ b ++ m ++ t ++ 0x1#2)
  | .vbcast d a b m t => some (0x36#8 ++ d ++ a ++ b ++ m ++ t ++ 0x2#2)
  | .vslide d a b m t => some (0x36#8 ++ d ++ a ++ b ++ m ++ t ++ 0x3#2)
  | .vcvt d a u m t => some (0x37#8 ++ d ++ a ++ 0x0#1 ++ u ++ m ++ t ++ 0x0#2)
  | .vscale d a b m t => some (0x37#8 ++ d ++ a ++ b ++ m ++ t ++ 0x1#2)
  | .vexp2 d a m t => some (0x37#8 ++ d ++ a ++ 0x0#5 ++ m ++ t ++ 0x2#2)
  | .vrcp d a m t => some (0x37#8 ++ d ++ a ++ 0x0#5 ++ m ++ t ++ 0x3#2)
  | .kand d a b => some (0xE0#10 ++ d ++ 0x0#2 ++ a ++ 0x0#2 ++ b ++ 0x0#9)
  | .kor d a b => some (0xE0#10 ++ d ++ 0x0#2 ++ a ++ 0x0#2 ++ b ++ 0x1#9)
  | .kxor d a b => some (0xE0#10 ++ d ++ 0x0#2 ++ a ++ 0x0#2 ++ b ++ 0x2#9)
  | .knot d a => some (0xE0#10 ++ d ++ 0x0#2 ++ a ++ 0x3#14)
  | .vins d a i t => some (0x39#8 ++ d ++ a ++ i ++ 0x0#3 ++ t ++ 0x0#2)
  | .vmovs d a i t => some (0x39#8 ++ d ++ a ++ i ++ 0x0#3 ++ t ++ 0x1#2)
  | .issueSlotGiveUp _ => none
  | .faultRecord _ => none
  | .firmwareFlush _ _ _ => none
  | .cDone _ => none
  | .cClose _ _ => none
  | .lockRequestEnqueue _ _ _ => none
  | .lockGrant _ _ _ => none
  | .tilePush _ _ _ => none
  | .transactionDispatch _ _ => none
  | .tClose _ => none
  | .planEntryStart _ _ => none
  | .sendfFlit _ _ _ => none
  | .flitReceive _ _ => none
  | .contributionApply _ _ => none
  | .contributionResend _ _ => none
  | .collectiveIncomplete _ => none
  | .acknowledgement _ _ => none
  | .requestVote _ => none
  | .deferredStorePerform _ => none
  | .barrierExit _ => none
  | .exchangeRound _ => none
  | .vectorExecute _ => none
  | .matrixCommandStart _ => none
  | .copyCommandStart _ => none
  | .selvedgeCommandStart _ => none
  | .noReturnAtomicApply _ => none
  | .atomicReplay _ => none
  | .throttleBubble _ => none
  | .preemptionTake _ => none
  | .preemptionResume _ => none
  | .preemptTimeout _ => none
  | .parkTimeout _ => none
  | .launchStart _ => none
  | .queueEnable _ _ _ => none
  | .queueDisable _ _ _ => none
  | .qtailWrite _ _ _ => none
  | .qclaimFetchadd _ _ _ => none
  | .doorbellEvent _ => none
  | .stampRecheck _ _ => none
  | .nop _ => none
  | .launch _ => none
  | .hosttx _ => none
  | .indirect _ => none
  | .region _ => none
  | .kill _ => none
  | .suspend _ => none
  | .resume _ => none
  | .inval _ => none
  | .evict _ => none
  | .signal _ => none
  | .destroy _ => none
  | .pasidTeardown _ _ => none
  | .atsInvalidation _ _ _ _ => none
  | .pageRequestResponse _ _ _ _ => none
  | .halt _ => none
  | .dbgResume _ => none
  | .dbgStep _ => none
  | .rdreg _ => none
  | .wrreg _ => none
  | .rdtcm _ => none
  | .wrtcm _ => none
  | .brken _ => none
  | .registerWrite _ _ _ => none
  | .thermalTrip _ => none
  | .eccCorrection _ => none
  | .linkReplay _ _ _ _ => none
  | .uncorrectableError _ => none
  | .deviceReset _ _ => none
  | .illegalInstruction _ => none
  | .pcieCompletion _ _ => none
  | .hostWindowWrite _ _ _ => none
  | .recoveryPointValid _ => none

/-- The word of a decoded word: its form's bits with `L` and `S` (R43). -/
def encode (d : DecodedWord) : Option Word32 :=
  (encodeForm d.instr).map fun w =>
    w ||| (if d.lone then 0x80000000#32 else 0#32) ||| (if d.smark then 0x40000000#32 else 0#32)

/-! ### The word as stored (R4, R43) -/

/-- The four bytes of a word, the byte at the lowest address first. -/
def wordBytes (w : Word32) : List Byte :=
  [w.extractLsb' 0 8, w.extractLsb' 8 8, w.extractLsb' 16 8, w.extractLsb' 24 8]

/-- The word of four bytes. -/
def bytesWord (b0 b1 b2 b3 : Byte) : Word32 := b3 ++ b2 ++ b1 ++ b0

/-- The instruction this decoder reads from the table's word `w` of `nbits` bits (version 3, R53). -/
def decodeTableWord (nbits w : Nat) : Option Instr :=
  if nbits = 0 ∨ 32 < nbits then none
  else
    match wordBytes (BitVec.ofNat 32 w) with
    | [b0, b1, b2, b3] =>
      match decode .v3 (bytesWord b0 b1 b2 b3) with
      | .ok d => some d.instr
      | .error _ => none
    | _ => none

end Sys2Proof
end

