-- ==== Sys2Proof/Machine/State.lean ====
section
/-! DEFINITION. The state of the Skaran Basar domain as plain data: strands, cores, regions, packages and memory
(INVENTORY.md, State, names the rule of spec/ behind every field), the state after reset, and the reasons a step can stop.
Fields the model adds for itself (log entries 3 and 4) are marked as such. -/

namespace Sys2Proof.Machine

/-- Why the machine can stop with a fault. The spec gives every program fault an effect (a trap, a barrier report, a kill),
which is a next state; what remains is a step taken for an agent that does not exist. -/
inductive Fault where
  /-- Raised by the meaning of an instruction word executed for a strand that is Not live: no strand issues it (R75).
  Safe: `step` never executes a word for such a strand. -/
  | noStrand
  deriving DecidableEq, Repr

/-- Why a step can be refused. -/
inductive Refusal where
  /-- Raised by an arm of `exec` that has no meaning yet. Safe: no claim about the instruction can be proved. -/
  | notModelled (mnemonic : String)
  deriving DecidableEq, Repr

/-- A step's outcome. -/
abbrev Out (σ : Type) := Host.Outcome σ Fault Refusal

/-- Every memory of the domain in one canonical list: strictly rising keys, no entry equal to `0`, which is what an
unlisted byte reads as (log entry 2). A key is a memory's code and the byte's place in it (`Loc.key`). -/
abbrev Memory := List Host.Cell

/-- A sparse map from numbers: sorted by key, one entry a key. -/
abbrev NatMap (α : Type) := List (Nat × α)

/-! ### Clocks of the access checker (R138) -/

/-- A vector clock: for each thread (a strand, or one engine command) how many of its accesses are ordered before. -/
abbrev Clock := NatMap Nat

/-- The four engines of a core that take dispatched instructions, in the order of the `ENG` code (R159). -/
inductive Engine where
  | vector
  | matrix
  | copy
  | selvedge
  deriving DecidableEq, Repr

/-! ### Strands -/

/-- The state of a ring entry (R159); an entry still in flight has no `STATE` code. -/
inductive RingState where
  | inFlight
  | completed
  | faulted
  | cancelled
  deriving DecidableEq, Repr

/-- One entry of a strand's dispatch ring (R159). -/
structure RingEntry where
  used : Bool
  word : Word32
  waddr : TcmAddr
  seq : BitVec 8
  state : RingState
  eng : Engine
  slotA : Bool
  sub : BitVec 8
  deriving DecidableEq, Repr

def RingEntry.empty : RingEntry :=
  { used := false, word := 0, waddr := 0, seq := 0, state := .completed, eng := .vector, slotA := false, sub := 0 }

/-- A late engine fault not yet delivered (R160, R161). -/
structure LateFault where
  eng : Engine
  seq : BitVec 8
  sub : BitVec 8
  acc : BitVec 3
  faddr : Word
  /-- Instructions cancelled behind it (R160). -/
  cancelled : Nat
  /-- What the faulted command's accesses are ordered before once the fault is taken (R289). -/
  clock : Clock
  deriving DecidableEq, Repr

/-- A hardware loop level (R100). -/
structure LoopLevel where
  start : Word
  stop : Word
  count : Word
  deriving DecidableEq, Repr

def LoopLevel.zero : LoopLevel := { start := 0, stop := 0, count := 0 }

/-- The register files of one strand (R84). -/
structure Regs where
  s : Vector Word 32
  v : Vector VWord 32
  k : Vector KWord 8
  deriving DecidableEq, Repr

def Regs.zero : Regs :=
  { s := Vector.replicate 32 0, v := Vector.replicate 32 0, k := Vector.replicate 8 0 }

/-- The per-strand trap registers (R153, R154). -/
structure TrapRegs where
  status : Word
  cause : Word
  epc : Word
  faultAddr : Word
  faultInfo : Word
  origPc : Word
  unrollIdx : Word
  deriving DecidableEq, Repr

def TrapRegs.zero : TrapRegs :=
  { status := 0, cause := 0, epc := 0, faultAddr := 0, faultInfo := 0, origPc := 0, unrollIdx := 0 }

/-- What a live strand waits for (R75). The instruction it waits in has had no effect and is executed again. -/
inductive Wait where
  /-- Ready. -/
  | ready
  /-- `START` or `WAITS`: until every strand of the set (bit n: strand n) is Not live (R79, R81). -/
  | strands (set : BitVec 4)
  /-- `WAITW`: until a handoff write of the value to the word at the memory key (R131). -/
  | word (key : Nat) (value : Word)
  /-- `SYNC`, or `END` on the control strand: until the barrier (R20, R172). -/
  | barrier
  /-- A parked access to a 64 KiB page: until a flush makes the fault generation differ (R158, R331). -/
  | page (pkg page : Nat) (gen : BitVec 32)
  /-- A path 0x7 access parked on the host's answer for the page (R328). -/
  | hostPage (pasid : BitVec 20) (page : Nat)
  /-- An engine queue, ring, interlock or settle wait: until the core has settled more commands than this (R36, R159). -/
  | engine (settled : Nat)
  /-- Any other condition that clears without a strand of the core acting (R75): the word is tried again. -/
  | stall
  /-- Parked by the pre-emption handler's `END` (R167). -/
  | parked
  /-- Halted by the debugger (R170). -/
  | halted
  deriving DecidableEq, Repr

/-- A place in core program order (R120): phase (0 C, 1 T), strand or transaction number, the helper's run, and the
place in that run; `sub` orders the accesses of one engine command (R286). -/
structure Order where
  phase : Nat
  agent : Nat
  run : Nat
  place : Nat
  sub : Nat
  deriving DecidableEq, Repr

/-- The transaction body a helper strand runs (R357, R358). -/
structure BodyCtx where
  num : Nat
  restart : Bool
  /-- Instructions issued (R358). -/
  issued : Nat
  deriving DecidableEq, Repr

structure Strand where
  live : Bool
  pc : TcmAddr
  /-- The target of the last transfer, where it lies beyond TCM and its fetch is to fault (R99). -/
  beyond : Option Word
  /-- `STRANDID` (R88). -/
  strandId : Word
  regs : Regs
  loop0 : LoopLevel
  loop1 : LoopLevel
  repState : Word
  /-- The repetition buffer: 16 words (R84, R106). -/
  repBuf : Vector Word32 16
  /-- Model's own: a replay is in progress, as distinct from `REP_STATE.ACT` held over a handler (R109). -/
  replaying : Bool
  trap : TrapRegs
  /-- Sequence number of the next dispatch (R159). -/
  seq : BitVec 8
  ring : Vector RingEntry 16
  late : List LateFault
  /-- `MSEQ` and `MFAULTSEQ` (R246). -/
  mseq : Word
  mfaultSeq : Word
  wait : Wait
  /-- The page and the generation the word in progress has parked with, until it completes (R331). -/
  parkedAt : Option (Nat × BitVec 32)
  /-- The page of host memory it has asked for (R328). -/
  asked : Option Nat
  /-- Model's own: the barrier the strand waited for has completed, and its `SYNC` or `END` retires at its next issue. -/
  released : Bool
  body : Option BodyCtx
  /-- Which run of the helper this is in the phase, and the place of the next issue in it (R120). -/
  run : Nat
  place : Nat
  /-- Deferred stores, shared `AMOSEQ` and `POST` allowance, and `TXSUB`s used in the phase or body (R120, R129, R364). -/
  deferred : Nat
  allowance : Nat
  txsubs : Nat
  clock : Clock
  /-- What the accesses of the strand's finished copy commands, and matrix commands, are ordered before (R285, R251). -/
  copyClock : Clock
  mxClock : Clock
  deriving DecidableEq, Repr

/-- A strand that is Not live, with every register zero (R17, R80, R85). -/
def Strand.idle : Strand :=
  { live := false, pc := 0, beyond := none, strandId := 0, regs := Regs.zero, loop0 := LoopLevel.zero, loop1 := LoopLevel.zero, repState := 0,
    repBuf := Vector.replicate 16 0, replaying := false, trap := TrapRegs.zero, seq := 0,
    ring := Vector.replicate 16 RingEntry.empty, late := [], mseq := 0, mfaultSeq := 0, wait := .ready,
    parkedAt := none, asked := none, released := false, body := none, run := 0, place := 0, deferred := 0, allowance := 0, txsubs := 0
    clock := [], copyClock := [], mxClock := [] }

/-- Strand `n` when it is Not live: `STRANDID` reads its number (R88). -/
def Strand.idleAs (n : Fin 4) : Strand := { Strand.idle with strandId := BitVec.ofNat 64 n }

/-! ### Exact values (R196, R254) -/

/-- An exact value: a dyadic rational `man × 2^exp` with the sign a zero carries, an infinity, or NaN. -/
inductive Val where
  | fin (man : Int) (exp : Int)
  | zero (neg : Bool)
  | inf (neg : Bool)
  | nan
  deriving DecidableEq, Repr

/-- Operand classes of the matrix unit (R243, R244). -/
inductive MClass where
  | none
  | h
  | e
  | i
  | q
  deriving DecidableEq, Repr

/-- The keeper values that the scale links carry (R243, R266). -/
structure Scale where
  ga : BitVec 8
  gb : BitVec 8
  ky : BitVec 2
  kx : BitVec 2
  deriving DecidableEq, Repr

def Scale.zero : Scale := { ga := 0, gb := 0, ky := 0, kx := 0 }

/-- The matrix unit of a core (R243, R245). -/
structure Matrix where
  acc : Vector (Vector Word32 256) 4
  /-- Row-major: value (k, n) at 16k + n. -/
  latch : List Val
  cls : MClass
  link : Scale
  pending : Scale
  rounds : Nat
  fmtA : Word
  fmtB : Word
  scaleA : Word
  scaleB : Word
  stipA : Word
  stipB : Word
  deriving DecidableEq, Repr

def Matrix.zero : Matrix :=
  { acc := Vector.replicate 4 (Vector.replicate 256 0), latch := [], cls := .none, link := Scale.zero,
    pending := Scale.zero, rounds := 0, fmtA := 0, fmtB := 0, scaleA := 0, scaleB := 0, stipA := 0, stipB := 0 }

/-! ### Engine commands -/

/-- An engine command with its captured operands (R36, R274): queued or in flight. -/
structure Cmd where
  strand : Nat
  seq : BitVec 8
  instr : Instr
  a : Word
  b : Word
  c : Word
  /-- Captured engine bound registers `eb0` to `eb15` and stipple view registers `sv0` to `sv7`. -/
  eb : Vector Word 16
  sv : Vector Word 8
  /-- `TCMGUARD_LO` and `TCMGUARD_HI` as they were for the instruction (R174). -/
  guard : Word × Word
  tphase : Bool
  order : Order
  /-- Iteration to go on from: set by `CPYRES`, a stop or a park (R283, R292). -/
  start : Vector Nat 5
  /-- Queued by `CPYRES` (R292). -/
  resumed : Bool
  /-- `CPYG` and `CPYS`: the index of the row in progress (R281). -/
  index : Option Nat
  /-- What the command read at its start, once it has started: the descriptors of a `CPYR`, destination first, after `Precheck` (R212,
  R287); the block of a selvedge command (R380). -/
  read : Option (List (List Byte))
  /-- What a parked access waits for, else `ready` (R158). -/
  parked : Wait
  /-- An exchange command that has started and waits for its round (R258). -/
  waiting : Bool
  /-- How many commands the core had issued before it (R250, R279). -/
  stamp : Nat
  /-- A copy command that has done its work and waits for the acknowledgements of its writes (R284, R289): complete, or its fault's
  subcode, address and `ACC`. -/
  ended : Option (Option (BitVec 8 × Word × BitVec 3))
  /-- A selvedge command in flight, and the bytes, by key and count, that it has begun to write (R402; log entry 10). -/
  started : Bool
  outputs : List (Nat × Nat)
  clock : Clock
  /-- The access checker's threads of the accesses made so far, one each. -/
  threads : List Nat
  deriving DecidableEq, Repr

/-- A dispatched vector instruction not yet executed (R222). -/
structure VDispatch where
  strand : Nat
  seq : BitVec 8
  instr : Instr
  /-- The scalar registers and stipple view registers as captured at issue. -/
  scalars : Vector Word 32
  sv : Vector Word 8
  /-- `TCMGUARD_LO` and `TCMGUARD_HI` as they were for the instruction (R174). -/
  guard : Word × Word
  deriving DecidableEq, Repr

/-! ### Queued NI work -/

/-- A deferred store (R119, R286): performed at the key in the X phase; `va` is its address as issued. -/
structure DStore where
  order : Order
  core : Nat
  key : Nat
  va : Word
  bytes : List Byte
  deriving DecidableEq, Repr

/-- A sequenced-atomic request (R129). -/
structure SeqReq where
  order : Order
  core : Nat
  key : Nat
  size : Nat
  addend : Nat
  prio : Nat
  limit : Nat
  slot : Nat
  /-- A target on a RED page in the form issued, or none (R142). -/
  va : Word
  deriving DecidableEq, Repr

/-- A posted message (R316, R317). -/
structure Msg where
  order : Order
  src : Nat
  index : Nat
  dst : Nat
  tag : BitVec 32
  payload : List Word
  deriving DecidableEq, Repr

/-- A checked submission descriptor (R341): its fields as read. -/
structure Desc where
  body : Nat
  args : List Word
  rtiles : List Word
  wtiles : List Word
  /-- (set index, dword offset, expected value). -/
  chks : List (Nat × Nat × Word)
  deriving DecidableEq, Repr

/-- A submission of the C phase (R364) or a restart (R360). -/
structure Submission where
  order : Order
  core : Nat
  desc : Desc
  deriving DecidableEq, Repr

/-- A no-return atomic on its way to its home (R125, R128). -/
structure AtomReq where
  /-- Issuing domain core id and strand, and the core's 16-bit count. -/
  core : Nat
  strand : Nat
  count : BitVec 16
  op : BitVec 3
  wide : Bool
  key : Nat
  /-- The address as issued, whose path R146 goes by. -/
  va : Word
  operand : Word
  deriving DecidableEq, Repr

/-! ### Exchange (R296 to R314) -/

/-- Where a plan entry stands in the X phase. -/
inductive PlanStatus where
  | waiting
  | sent
  | complete
  | incomplete
  | abandoned
  deriving DecidableEq, Repr

structure PlanEntry where
  w0 : Word
  w1 : Word
  w2 : Word
  w3 : Word
  status : PlanStatus
  /-- `REDUCE`: stages applied so far, and contributions staged (stage, bytes), in arrival order. -/
  applied : Nat
  staged : List (Nat × List Byte)
  /-- `SENDF`: flits sent. -/
  flits : Nat
  deriving DecidableEq, Repr

/-- Where a transfer stands. -/
inductive XferStatus where
  | inFlight
  /-- A contribution that arrived and was matched, waiting to be applied. -/
  | arrived
  /-- A contribution refused for want of staging space (R313). -/
  | refused
  /-- Written, applied or discarded: its acknowledgement is on its way. -/
  | done
  deriving DecidableEq, Repr

/-- A transfer on the network (R303, R305). -/
structure Xfer where
  src : Nat
  entry : Nat
  dst : Word
  bytes : List Byte
  /-- (`CID`, `STAGE`) of a contribution. -/
  red : Option (Nat × Nat)
  /-- Bytes charged to `PENDBYTES`. -/
  charge : Nat
  /-- The last flit of a fixed-cycle transfer, or a whole count-prefixed transfer. -/
  last : Bool
  /-- Total length of the entry's transfer. -/
  total : Nat
  status : XferStatus
  /-- Parked on a page fault: the package, the 64 KiB page and the generation (R331). -/
  parked : Option (Nat × Nat × BitVec 32)
  deriving DecidableEq, Repr

/-! ### Reports -/

/-- A barrier report held by a core (R162): the cause and the fields of `FAULTINFO` it fixes. -/
structure Report where
  cause : BitVec 8
  faddr : Word
  info : Word
  superstep : Word
  deriving DecidableEq, Repr

/-- One exchange fault detected at a core (R315). -/
structure XFault where
  src : Nat
  entry : Nat
  sub : BitVec 8
  faddr : Word
  deriving DecidableEq, Repr

/-- A granule or register at fault, gathered by a core in the superstep (R86, R141, R142). -/
structure Conflict where
  guard : Bool
  /-- `MEM` of R151. -/
  mem : Nat
  faddr : Word
  regsel : Nat
  bank : Nat
  other : Nat
  deriving DecidableEq, Repr

/-! ### Cores -/

structure Core where
  strands : Vector Strand 4
  eb : Vector Word 16
  sv : Vector Word 8
  mx : Matrix
  handler : Word
  saveArea : Word
  coreId : Word
  pkgId : Word
  superstep : Word
  phase : Word
  xplan : Word
  pendBytes : Word
  rqBase : Word
  rqLimit : Word
  rqHead : Word
  rqTail : Word
  landBase : Word
  /-- The `LANDBASE` value in force for the superstep (R352). -/
  landInForce : Word
  guardLo : Word
  guardHi : Word
  ceIdx : Vector Word 5
  ceState : Word
  /-- Two-entry command queues (R36); the head may be in flight. -/
  mq : List Cmd
  cq : List Cmd
  sq : List Cmd
  /-- Vector instructions dispatched and not yet executed (R222), and the model's own choice whether a dispatched
  instruction waits for `VECTOR_EXECUTE` (log entry 8). -/
  vq : List VDispatch
  vhold : Bool
  /-- Model's own: how many elements a copy command performs before it can be stopped at an element boundary, and whether a selvedge
  command can be stopped in flight; zero, to run each whole (R283, R402; log entry 10). -/
  slice : Nat
  /-- Commands settled since launch (model's own, for `Wait.engine`). -/
  settled : Nat
  /-- Issue slot: the strand that issued last, and in how many consecutive cycles (R76, R77). -/
  slot : Nat
  slotRun : Nat
  /-- The holder of the slot has stalled, blocked or yielded since it issued (R76, R82). -/
  slotGone : Bool
  /-- The region that holds the core, by `RCBID`, and the routine it runs. -/
  region : Option Nat
  routine : Nat
  /-- The core has reported C done (R20); its control strand has voted to end (R172). -/
  cdone : Bool
  vote : Bool
  /-- The core has taken the pre-emption in progress (R167). -/
  taken : Bool
  /-- Per-core registers accessed in the phase: (REGSEL, strand, write) (R86). -/
  regAcc : List (Nat × Nat × Bool)
  regConf : List (Nat × Nat)
  deferred : List DStore
  seqReqs : List SeqReq
  msgs : List Msg
  subs : List Submission
  /-- Restarts of the core carried into this superstep (R343). -/
  carried : Nat
  /-- Request-id count of no-return atomics (R128). -/
  atomCount : BitVec 16
  /-- The plan segment of the X phase, and the exchange faults detected at this NI. -/
  plan : List PlanEntry
  xfaults : List XFault
  planDone : Bool
  conflicts : List Conflict
  reports : List Report
  heldMsgs : List Msg
  /-- The superstep in which the messages were first held (R164). -/
  heldSince : Word
  rqPending : Bool
  halted : Bool
  /-- Writes to peers, host or CXL not yet acknowledged (R135). -/
  unacked : Nat
  /-- The strand's fetched words: addresses whose decoded copy is held in the fetch buffer (R22, R132). -/
  fetched : List (Nat × Nat × Word32)
  deriving DecidableEq, Repr

/-- A core that no region holds (R87): every register at its reset value; `COREID` and `PKGID` read its position. -/
def Core.idle (pkgLast : BitVec 6) (id : Nat) : Core :=
  { strands := Vector.ofFn Strand.idleAs, eb := Vector.replicate 16 0, sv := Vector.replicate 8 0, mx := Matrix.zero,
    handler := 0, saveArea := 0, coreId := BitVec.ofNat 64 (id % 65536),
    pkgId := BitVec.ofNat 64 (pkgLast.toNat * 256 + id / 65536 % 64), superstep := 0, phase := 0, xplan := 0,
    pendBytes := 0, rqBase := 0, rqLimit := 0, rqHead := 0, rqTail := 0, landBase := 0, landInForce := 0, guardLo := 0,
    guardHi := 0, ceIdx := Vector.replicate 5 0, ceState := 0, mq := [], cq := [], sq := [], vq := [], vhold := false, slice := 0,
    settled := 0, slot := 0, slotRun := 0, slotGone := false, region := none, routine := 0, cdone := false, vote := false, taken := false, regAcc := [],
    regConf := [], deferred := [], seqReqs := [], msgs := [], subs := [], carried := 0, atomCount := 0, plan := [],
    xfaults := [], planDone := false, conflicts := [], reports := [], heldMsgs := [], heldSince := 0, rqPending := false, halted := false, unacked := 0,
    fetched := [] }

/-! ### The access checker's record of a phase (R136 to R142) -/

/-- Agents the checker distinguishes (R136). -/
inductive Agent where
  | strand (core n : Nat)
  /-- NI writers: 0 plan receive, 1 sequenced-atomic result, 2 message delivery, 3 landing push. -/
  | ni (core kind : Nat)
  deriving DecidableEq, Repr

/-- One recorded access to a granule. -/
structure Access where
  agent : Agent
  thread : Nat
  time : Nat
  clock : Clock
  /-- The bytes accessed, within one granule: memory keys [lo, hi). -/
  lo : Nat
  hi : Nat
  write : Bool
  /-- A no-return atomic's (`op`, `w`) (R127). -/
  atomic : Option (BitVec 3 × Bool)
  /-- `WAITW`, or an `ST.h` or completion write (R140). -/
  waitw : Bool
  handoff : Bool
  /-- The address in the form issued, for SW and RED pages (R142), and whether the page is RED. -/
  va : Word
  mem : BitVec 4
  deriving DecidableEq, Repr

/-- A handoff write of the phase (R140): the word, the value, and the clock it releases; `any` when it orders any
waiter, otherwise only the issuing strand's (R138). -/
structure Handoff where
  key : Nat
  value : Word
  clock : Clock
  any : Bool
  core : Nat
  strand : Nat
  deriving DecidableEq, Repr

/-- A write by an X-phase agent or a plan read (R24, R302): the bytes [lo, hi) of the memory. -/
structure XAccess where
  agent : Agent
  lo : Nat
  hi : Nat
  write : Bool
  /-- Sending core and entry, or a count-dword addition. -/
  src : Nat
  entry : Nat
  count : Bool
  /-- The granule's address in the form issued, and `MEM` of R151. -/
  va : Word
  mem : Nat
  deriving DecidableEq, Repr

/-! ### Transactions (R345 to R357) -/

/-- States of a lock request (R348); `issued` before it is enqueued (R347), `removed` at the end. -/
inductive ReqStatus where
  | issued
  | queued
  | granted
  | pushed
  | removed
  deriving DecidableEq, Repr

/-- A tile: its identity (R339) and size. -/
structure Tile where
  /-- Path 0x2 tile of a die, or device-memory tile of a package. -/
  die : Bool
  /-- Global die number or package index. -/
  home : Nat
  addr : Nat
  size : Nat
  deriving DecidableEq, Repr

structure LockReq where
  tile : Tile
  va : Word
  excl : Bool
  /-- Offset of the tile in the landing block (R354). -/
  offset : Nat
  status : ReqStatus
  /-- The push is parked on a page fault: the 64 KiB page and the generation (R454). -/
  parked : Option (Nat × BitVec 32)
  /-- The tile's lock manager (R339): whether it stands at a die, the die or package, and the bank or channel. -/
  manager : Bool × Nat × Nat
  /-- Model's own: the access checker's thread of the push. -/
  thread : Option Nat
  deriving DecidableEq, Repr

/-- States of a transaction (R350). -/
inductive TxnStatus where
  | numbered
  | granting
  | landed
  | running
  | ending
  | done
  deriving DecidableEq, Repr

structure Txn where
  num : Nat
  pkg : Nat
  core : Nat
  host : Bool
  desc : Desc
  reqs : List LockReq
  status : TxnStatus
  /-- k of R353, the first permit and the number of permits of its landing block. -/
  k : Nat
  permit : Nat
  permits : Nat
  holds : Bool
  failed : BitVec 4
  /-- Ending: how many of the requests' tiles have been dealt with by the home writes (R350, R454). -/
  homed : Nat
  /-- What the grants, permits and pushes it has had so far are ordered after (R359). -/
  clock : Clock
  deriving DecidableEq, Repr

/-- A transaction resubmitted by `TXRST`: a restart of the next superstep (R360, R361). -/
structure Restart where
  num : Nat
  core : Nat
  host : Bool
  desc : Desc
  deriving DecidableEq, Repr

/-- A host transaction waiting for its superstep (R422). -/
structure HostTxn where
  pkg : Nat
  q : Nat
  num : BitVec 32
  comp : Word
  irq : Bool
  superstep : Word
  core : Nat
  desc : Desc
  /-- Submitted again in replay: its completion has been written (R448). -/
  silent : Bool
  deriving DecidableEq, Repr

/-! ### Images (R66 to R72) -/

structure Routine where
  code : List Word32
  loadAddr : Nat
  entry : Nat
  saveArea : Nat
  landBase : Nat
  rqBase : Nat
  rqLimit : Nat
  guardLo : Nat
  guardHi : Nat
  rflags : Nat
  planAddr : Nat
  deriving DecidableEq, Repr

structure TxBody where
  routine : Nat
  bentry : Nat
  prologue : Option Nat
  deriving DecidableEq, Repr

structure TileSpace where
  base : Word
  len : Nat
  log : Nat
  deriving DecidableEq, Repr

structure MapEntry where
  va : Nat
  len : Nat
  comp : Word
  deriving DecidableEq, Repr

structure Variant where
  key : Word
  generic : Bool
  /-- (routine index, plan offset) of each logical core (R68). -/
  cores : List (Nat × Nat)
  plan : List Byte
  deriving DecidableEq, Repr

structure Image where
  encver : EncVer
  flags : Nat
  digest : List Byte
  variants : List Variant
  routines : List Routine
  bodies : List TxBody
  uniform : List Word
  static : List Bool
  tiles : List TileSpace
  maps : List MapEntry
  xlongest : Nat
  deriving DecidableEq, Repr

def Image.empty : Image :=
  { encver := .v3, flags := 0, digest := [], variants := [], routines := [], bodies := [], uniform := [], static := [],
    tiles := [], maps := [], xlongest := 0 }

/-- The code of a routine as loaded: the residual words and their back-map (R185, R187); for an unspecialised routine
the original words. -/
structure LoadedCode where
  routine : Nat
  specialised : Bool
  loadAddr : Nat
  words : List Word32
  /-- Per residual word, its back-map entry. -/
  backMap : List Word32
  /-- Original word offset of each entry point, and its residual word offset (R177). -/
  entries : List (Nat × Nat)
  deriving DecidableEq, Repr

/-! ### Regions (R37, R423) -/

/-- A region control block's fields as registered, with the effective values of R425. -/
structure Rcb where
  /-- The region's number in the domain: `RCBID`, with the lowest package of the mask above bit 16 (log entry 27). -/
  id : Nat
  /-- The parent's number, or 0xFFFF for a root. -/
  parent : Nat
  setMask : BitVec 5
  prio : Nat
  fdom : Nat
  pkgMask : Word
  y0 : Nat
  x0 : Nat
  y1 : Nat
  x1 : Nat
  txBudget : Nat
  memBudget : Nat
  handlers : Word
  root : Nat
  pasid : BitVec 20
  ctxBuf : Nat
  ctxLen : Nat
  dsBase : Nat
  dsLen : Nat
  /-- Memory key of the block's first byte. -/
  key : Nat
  deriving DecidableEq, Repr

def Rcb.zero : Rcb :=
  { id := 0, parent := 0xFFFF, setMask := 0x1F, prio := 0, fdom := 0, pkgMask := 1, y0 := 0, x0 := 0, y1 := 0, x1 := 0,
    txBudget := 0, memBudget := 0, handlers := 0, root := 0, pasid := 0, ctxBuf := 0, ctxLen := 0, dsBase := 0,
    dsLen := 0, key := 0 }

/-- The `STATE` codes of a region control block (R423). -/
inductive RegionState where
  | idle
  | pending
  | running
  | suspended
  | killed
  deriving DecidableEq, Repr

/-- The launch a region has: its packet, image and options (R421). -/
structure Launch where
  pkg : Nat
  q : Nat
  num : BitVec 32
  comp : Word
  irq : Bool
  /-- Where notices go: the completion record's address, which a teardown of the launching package does not take from the others
  (R334, R429). -/
  notice : Word
  image : Image
  /-- Selected variant of each package of the core set (R41). -/
  variants : List (Nat × Nat)
  nospec : Bool
  rpint : Nat
  recovery : Bool
  /-- The packet lists a host range to be flushed before its completion record (`REL`, R419). -/
  rel : Bool
  deriving DecidableEq, Repr

/-- The phases of a superstep (R19); in the X phase, the two steps of R308. -/
inductive Phase where
  | c
  | t
  | x1
  | x2
  deriving DecidableEq, Repr

/-- A recovery point in the safe tiers of a region's packages (R444). -/
structure RecPoint where
  num : Nat
  valid : Bool
  superstep : Word
  mem : Memory
  cores : NatMap Core
  restarts : List Restart
  votedEnd : Bool
  /-- Host transactions numbered since the point (R448). -/
  hostKept : List HostTxn
  deriving DecidableEq, Repr

structure Region where
  rcb : Rcb
  state : RegionState
  launch : Option Launch
  code : List LoadedCode
  phase : Phase
  superstep : Word
  /-- Packages that have observed C close of this superstep (R21). -/
  closed : List Nat
  /-- Memory as at the start of the C phase, for EX pages (R119), and of the current phase, for path 0x5 (R121). -/
  memC : Memory
  memPhase : Memory
  log : List Access
  handoffs : List Handoff
  /-- Granule classes in force, for granules not ordinary: (granule, code) (R137). -/
  classes : List (Nat × Nat)
  guards : List (Nat × Nat × Nat × BitVec 3)
  xlog : List XAccess
  xfers : List Xfer
  atoms : List AtomReq
  txns : List Txn
  /-- What the releases of a tile are ordered after, by shared (false) and by exclusive holders; and the last accesses to the landing block
  that held a core's permit (R359). -/
  tileClocks : List ((Tile × Bool) × Clock)
  permClocks : List (Nat × Nat × Clock)
  restarts : List Restart
  hostTxns : List HostTxn
  noLanding : List (Nat × Nat)
  /-- Every control strand has voted to end and restarts are pending (R362). -/
  ending : Bool
  /-- A pre-emption is requested; at least one core has taken it and its handlers run (R167). -/
  preemptReq : Bool
  preempting : Bool
  /-- Spilled cores and their TCM, scratchpad (R167). -/
  spill : NatMap Core
  spillMem : Memory
  suspendReq : Bool
  /-- A `KILL` waits for a point of R167 (R416). -/
  killReq : Bool
  /-- Packages, with how many supersteps' C closes each has observed since the launch, replays not counted again (R422, R448). -/
  observed : NatMap Nat
  breakpoints : Bool
  /-- `INVAL` packets to apply at the next barrier exit (R327): package, queue, virtual start, number, record, interrupt. -/
  invals : List (Nat × Nat × Nat × BitVec 32 × Word × Bool)
  abortedPkgs : List Nat
  /-- A package was killed in this superstep, and the abort is due at its barrier (R334). -/
  abortDue : Bool
  restores : Nat
  /-- `FAULT` of the block: the detail word and the fault address; and the fault's subcode, which the detail word has no bits for. -/
  fault : Word × Word
  faultSub : Nat
  deriving DecidableEq, Repr

def Region.idle (r : Rcb) : Region :=
  { rcb := r, state := .idle, launch := none, code := [], phase := .c, superstep := 0, closed := [], memC := [],
    memPhase := [], log := [], handoffs := [], classes := [], guards := [], xlog := [], xfers := [], atoms := [],
    txns := [], tileClocks := [], permClocks := [], restarts := [], hostTxns := [], noLanding := [], ending := false, preemptReq := false,
    preempting := false, spill := [], spillMem := [], suspendReq := false, killReq := false, observed := [], breakpoints := false,
    invals := [], abortedPkgs := [], abortDue := false, restores := 0, fault := (0, 0), faultSub := 0 }

/-! ### Packages -/

/-- An indirect buffer whose packets are being issued (R420): its own packet, the next line's address and the bytes left. -/
structure IndirectBuf where
  num : BitVec 32
  comp : Word
  irq : Bool
  next : Word
  left : Nat
  deriving DecidableEq, Repr

/-- The registers of a queue (R406). -/
structure Queue where
  cfg : Word
  base : Word
  tail : BitVec 32
  head : BitVec 32
  claim : Word
  stale : BitVec 32
  status : BitVec 8
  door : Word
  mirror : Word
  /-- Packets issued and not completed (R415): numbers, most recent last. -/
  outstanding : List (BitVec 32)
  indirect : Option IndirectBuf
  /-- The packet read once after its stamp and not issued yet (R409). -/
  held : Option Packet
  /-- `EN` has been written 0 and the packet being handled has still to issue (R407). -/
  stopping : Bool
  /-- The zero that enabling writes to the mirror waits for the host's translation (R407, R408). -/
  mirrorDue : Bool
  deriving DecidableEq, Repr

def Queue.reset : Queue :=
  { cfg := 0, base := 0, tail := 0, head := 0, claim := 0, stale := 0, status := 0, door := 0, mirror := 0,
    outstanding := [], indirect := none, held := none, stopping := false, mirrorDue := false }

/-- A fault record on its way to the buffer (R329, R331). -/
structure FaultRec where
  va : Word
  core : Nat
  agent : Nat
  region : Nat
  kind : Nat
  lvl : Nat
  gen : BitVec 32
  deriving DecidableEq, Repr

/-- An entry of a die's specialisation cache (R189, R190). -/
structure CacheEntry where
  die : Nat
  key : Word
  digest : List Byte
  variant : Nat
  routine : Nat
  encver : EncVer
  statics : List Word
  code : LoadedCode
  /-- First residency slot and slot count. -/
  slot : Nat
  slots : Nat
  /-- Regions whose running launch pins it. -/
  pins : List Nat
  used : Nat
  deriving DecidableEq, Repr

/-- A cached ATS completion (R328). -/
structure AtsEntry where
  pasid : BitVec 20
  page : Nat
  read : Bool
  write : Bool
  /-- False: the host refused the page request. -/
  granted : Bool
  deriving DecidableEq, Repr

structure Package where
  /-- True: SKB-16M (R1). -/
  module_ : Bool
  /-- Stopped compute dies (R438, R440). -/
  stopped : Bool
  defectSig : Word
  /-- The 256 values k_x of R451, die by die. -/
  skips : List Nat
  queues : NatMap Queue
  faultGen : BitVec 32
  fbBase : Word
  fbSize : Word
  fbHead : Word
  fbTail : Word
  /-- Records on their way to the buffer; pages named by kept records of this generation; pages firmware marked
  unmapped, per region, with the generation their flush began (R331). -/
  inflight : List FaultRec
  kept : List (Nat × Nat)
  unmapped : List (Nat × Nat × BitVec 32)
  doorbells : List (Nat × BitVec 32)
  msix : List Nat
  pwrCap : Word
  pwrStat : Word
  dbgCmd : Word
  dbgArg0 : Word
  dbgArg1 : Word
  dbgData : Word
  dbgStat : Word
  cache : List CacheEntry
  cacheClock : Nat
  ats : List AtsEntry
  /-- Page requests sent to the host and not answered (R328). -/
  pri : List (BitVec 20 × Nat)
  /-- Value returned to the last PCIe AtomicOp, and whether it completed with Unsupported Request (R411). -/
  response : Word
  unsupported : Bool
  /-- Applied request ids per source core, newest first (R128). -/
  applied : List (Nat × BitVec 16)
  eccCount : Nat
  replays : Nat
  bubbles : Nat
  /-- PASIDs torn down and not used by a queue or region since (R430), and those whose teardown handshake is complete. -/
  torn : List (BitVec 20)
  handshakes : List (BitVec 20)
  /-- Bring-up has enabled the command processor (R449, R453). -/
  enabled : Bool
  /-- The safe tier (R2, R444): the region that wrote the point it holds, and the point. -/
  safe : Option (Nat × RecPoint)
  deriving DecidableEq, Repr

/-- A package after device reset, its firmware verified: an SKB-16P with no skipped row (log entries 1 and 5). -/
def Package.reset (sig : Word) : Package :=
  { module_ := false, stopped := false, defectSig := sig, skips := List.replicate 256 16, queues := [], faultGen := 0,
    fbBase := 0, fbSize := 0, fbHead := 0, fbTail := 0, inflight := [], kept := [], unmapped := [], doorbells := [],
    msix := [], pwrCap := 14000, pwrStat := 0, dbgCmd := 0, dbgArg0 := 0, dbgArg1 := 0, dbgData := 0, dbgStat := 0,
    cache := [], cacheClock := 0, ats := [], pri := [], response := 0, unsupported := false, applied := [], eccCount := 0,
    replays := 0, bubbles := 0, torn := [], handshakes := [], enabled := true, safe := none }

/-! ### The issue in progress (model's own) -/

/-- How the word being executed stands (R44, R106). -/
inductive Slot where
  | lone
  | cslot
  | aslot
  | rep
  deriving DecidableEq, Repr

/-- What became of the word being executed. -/
inductive Event where
  | done
  | trapped
  | blocked
  deriving DecidableEq, Repr

/-- The strand that issues, and the word it issues: the context the meanings of words are executed in. -/
structure Ctx where
  core : Nat
  strand : Fin 4
  /-- Address of the word, or of the pair it stands in (R46). -/
  pc : TcmAddr
  /-- Address of the last word of the lone word or pair. -/
  last : TcmAddr
  slot : Slot
  word : Word32
  /-- The registers as before the pair (R46). -/
  snap : Option Regs
  event : Event
  deriving DecidableEq, Repr

/-- What moves next when the outside world or a chosen interleaving decides it (log entry 3). -/
inductive Move where
  /-- A step that is not a word. -/
  | event (i : Instr)
  /-- The core issues its next word or pair. -/
  | issue (core : Nat)
  /-- The core's vector unit executes dispatched instructions at once, or leaves them dispatched (log entry 8). -/
  | hold (core : Nat) (on : Bool)
  /-- The core's copy and selvedge engines can be stopped in flight, or run each command whole (log entry 10). -/
  | slice (core elements : Nat)
  deriving DecidableEq, Repr

/-- What a packet waits for before its completion record (R414, R419). -/
inductive WaitFor where
  /-- `SUSPEND`: the regions hold no core. -/
  | released
  /-- `KILL`: the regions have stopped. -/
  | stopped
  /-- `RESUME`: the regions are running again or pending. -/
  | resumed
  /-- A launch with `REL`: the host writes of its cores are acknowledged; the record then has this status and detail. Until then the
  launch, of this block and image, holds its pages (R30). -/
  | flushed (cores : List Nat) (status : Nat) (detail : Word) (block : Rcb) (image : Image)
  /-- Any packet: the host's translation of its completion record's page (R408). -/
  | translated (status : Nat) (detail : Word)
  /-- A notice in a launch's record (R429): the same, with the PASID that translates it. -/
  | noticed (pasid : BitVec 20) (value : Nat)
  deriving DecidableEq, Repr

/-- A packet past its issue point that has not completed, by the regions of its subtree (R414, R427) or the cores of its launch (R419).
-/
structure PacketWait where
  pkg : Nat
  q : Nat
  num : BitVec 32
  comp : Word
  irq : Bool
  regions : List Nat
  what : WaitFor
  deriving DecidableEq, Repr

/-! ### The domain -/

structure State where
  mem : Memory
  /-- Cores whose state differs from idle, by domain core id (R15). -/
  cores : NatMap Core
  regions : List Region
  packages : NatMap Package
  waits : List PacketWait
  /-- `DOMLAST`: packages of the domain minus one (R14). -/
  domLast : BitVec 6
  ctx : Ctx
  /-- Model's own: the moves to come (log entry 3), the core that issued last, the next free value (log entry 4), the
  next thread of the access checker. -/
  script : List Move
  turn : Nat
  fresh : Nat
  thread : Nat
  /-- Model's own: accesses, by thread and count, that are reads a later access of the phase conflicts with (R142; log entry 30). -/
  doubts : List (Nat × Nat)
  deriving DecidableEq, Repr

/-- The context of no issue. -/
def Ctx.none : Ctx :=
  { core := 0, strand := 0, pc := 0, last := 0, slot := .lone, word := 0, snap := Option.none, event := .done }

/-- `Mix64` (R73), here because `DEFECTSIG` is set by bring-up (R452). -/
def mix64 (seed index : Word) : Word :=
  let z0 := seed ^^^ (index * 0x9E3779B97F4A7C15#64)
  let z1 := (z0 ^^^ (z0 >>> 30)) * 0xBF58476D1CE4E5B9#64
  let z2 := (z1 ^^^ (z1 >>> 27)) * 0x94D049BB133111EB#64
  z2 ^^^ (z2 >>> 31)

/-- `DEFECTSIG` from the 256 skipped rows, die by die and column by column (R452). -/
def defectSig (skips : List Nat) : Word :=
  (skips.zipIdx).foldl (fun k (kx, i) => mix64 k (BitVec.ofNat 64 (16 * (i % 16) + kx))) (mix64 0 0x10)

/-- The machine right after reset and bring-up (R453): a domain of one package, no queue enabled, no region registered, no
strand live, memory as nothing has written it (log entries 1, 2 and 3). -/
def State.reset : State :=
  { mem := [], cores := [], regions := [], waits := [], packages := [(0, Package.reset (defectSig (List.replicate 256 16)))],
    domLast := 0, ctx := Ctx.none, script := [], turn := 0, fresh := 0, thread := 0, doubts := [] }

end Sys2Proof.Machine
end

