-- ==== Sys2Proof/Machine/Ops.lean ====
section
/-! DEFINITION. The shared operations: maps, memory, cores and strands, register files, the access checker's record,
packet completion, killing a region, trap entry and return, and the frame every instruction word's meaning runs in. -/

namespace Sys2Proof.Machine

/-! ### Maps -/

def mapGet? {α : Type} : NatMap α → Nat → Option α
  | [], _ => none
  | (k', v) :: m, k => if k = k' then some v else mapGet? m k

def mapSet {α : Type} : NatMap α → Nat → α → NatMap α
  | [], k, v => [(k, v)]
  | (k', v') :: m, k, v =>
    if k < k' then (k, v) :: (k', v') :: m
    else if k = k' then (k, v) :: m
    else (k', v') :: mapSet m k v

def mapErase {α : Type} (m : NatMap α) (k : Nat) : NatMap α := m.filter (fun e => e.1 ≠ k)

/-- An element placed before the first one it does not come after; equal elements keep their order. -/
def insertBy {α : Type} (le : α → α → Bool) (x : α) : List α → List α
  | [] => [x]
  | y :: l => if le x y then x :: y :: l else y :: insertBy le x l

/-- A list in the order of `le`. -/
def sortBy {α : Type} (le : α → α → Bool) (l : List α) : List α := l.foldr (insertBy le) []

/-- Each value once. -/
def dedup {α : Type} [DecidableEq α] : List α → List α
  | [] => []
  | a :: l => if l.contains a then dedup l else a :: dedup l

/-! ### Memory (R4; log entry 2) -/

/-- The canonical form: strictly rising keys, no entry equal to what an unlisted byte reads as. -/
def Memory.wf : Memory → Bool
  | [] => true
  | [c] => c.2 ≠ 0#8
  | c :: d :: m => c.2 ≠ 0#8 && c.1 < d.1 && Memory.wf (d :: m)

/-- One byte. -/
def memRead : Memory → Nat → Byte
  | [], _ => 0#8
  | c :: m, k => if k = c.1 then c.2 else memRead m k

/-- One byte written, keeping the canonical form. -/
def memWrite : Memory → Nat → Byte → Memory
  | [], k, b => if b = 0#8 then [] else [(k, b)]
  | c :: m, k, b =>
    if k < c.1 then (if b = 0#8 then c :: m else (k, b) :: c :: m)
    else if k = c.1 then (if b = 0#8 then m else (k, b) :: m)
    else c :: memWrite m k b

def readBytes (m : Memory) (k n : Nat) : List Byte := (List.range n).map fun i => memRead m (k + i)

def writeBytes (m : Memory) (k : Nat) : List Byte → Memory
  | [] => m
  | b :: bs => writeBytes (memWrite m k b) (k + 1) bs

/-- Bytes [k, k + n) zeroed. -/
def zeroBytes (m : Memory) (k n : Nat) : Memory := m.filter fun c => c.1 < k || k + n ≤ c.1

/-- The unsigned value of little-endian bytes (R4). -/
def leNat (bs : List Byte) : Nat := bs.foldr (fun b acc => b.toNat + 256 * acc) 0

/-- The low `n` bytes of a value, little-endian (R4). -/
def leBytes : Nat → Nat → List Byte
  | 0, _ => []
  | n + 1, x => BitVec.ofNat 8 x :: leBytes n (x / 256)

def memNat (m : Memory) (k n : Nat) : Nat := leNat (readBytes m k n)

def memPut (m : Memory) (k n x : Nat) : Memory := writeBytes m k (leBytes n x)

/-- The field [hi:lo] of a doubleword as a number. -/
def fieldOf (x : Word) (hi lo : Nat) : Nat := x.toNat / 2 ^ lo % 2 ^ (hi + 1 - lo)

/-! ### Memory keys (R11, R32; log entry 2) -/

def spaceOf (key : Nat) : Nat := key / 2 ^ 60
/-- TCM of a core, by domain core id. -/
def tcmKey (core off : Nat) : Nat := core * 2 ^ 18 + off
/-- Scratchpad of a cluster: domain core id over 16. -/
def spadKey (cluster off : Nat) : Nat := 2 ^ 60 + cluster * 2 ^ 19 + off
/-- SRAM of a die: domain core id over 4,096. -/
def dieKey (die off : Nat) : Nat := 2 * 2 ^ 60 + die * 2 ^ 26 + off
def devKey (pkg pa : Nat) : Nat := 3 * 2 ^ 60 + pkg * 2 ^ 46 + pa
def tier2Key (pkg pa : Nat) : Nat := 4 * 2 ^ 60 + pkg * 2 ^ 46 + pa
def hostKey (a : Nat) : Nat := 5 * 2 ^ 60 + a

def pkgOfCore (core : Nat) : Nat := core / 65536
def clusterOf (core : Nat) : Nat := core / 16
def dieOf (core : Nat) : Nat := core / 4096

/-- A command-processor address (R408). -/
def cpKey? (pkg : Nat) (a : Word) : Option Nat :=
  match fieldOf a 63 60 with
  | 0x4 => if fieldOf a 59 46 = 0 then some (devKey pkg (fieldOf a 45 0)) else none
  | 0x6 => if fieldOf a 59 46 = 0 then some (tier2Key pkg (fieldOf a 45 0)) else none
  | 0x7 => if fieldOf a 59 57 = 0 then some (hostKey (fieldOf a 56 0)) else none
  | _ => none

/-! ### Cores, strands, regions, packages -/

def getCore (s : State) (c : Nat) : Core := (mapGet? s.cores c).getD (Core.idle s.domLast c)

def setCore (s : State) (c : Nat) (x : Core) : State := { s with cores := mapSet s.cores c x }

def modCore (s : State) (c : Nat) (f : Core → Core) : State := setCore s c (f (getCore s c))

def coreStrand (x : Core) (n : Fin 4) : Strand := x.strands[n]

def setStrandOf (x : Core) (n : Fin 4) (t : Strand) : Core := { x with strands := x.strands.set n t }

def getStrand (s : State) (c : Nat) (n : Fin 4) : Strand := coreStrand (getCore s c) n

def setStrand (s : State) (c : Nat) (n : Fin 4) (t : Strand) : State := modCore s c fun x => setStrandOf x n t

def modStrand (s : State) (c : Nat) (n : Fin 4) (f : Strand → Strand) : State :=
  modCore s c fun x => setStrandOf x n (f (coreStrand x n))

/-- The core and strand that issue. -/
def myCore (s : State) : Core := getCore s s.ctx.core
def me (s : State) : Strand := getStrand s s.ctx.core s.ctx.strand
def modMe (s : State) (f : Strand → Strand) : State := modStrand s s.ctx.core s.ctx.strand f
def modMyCore (s : State) (f : Core → Core) : State := modCore s s.ctx.core f

def getRegion? (s : State) (id : Nat) : Option Region := s.regions.find? fun r => r.rcb.id = id

def getRegion (s : State) (id : Nat) : Region := (getRegion? s id).getD (Region.idle { Rcb.zero with id := id })

/-- The region replaced where it is listed. -/
def setRegion (s : State) (r : Region) : State :=
  { s with regions := s.regions.map fun r' => if r'.rcb.id = r.rcb.id then r else r' }

def modRegion (s : State) (id : Nat) (f : Region → Region) : State :=
  { s with regions := s.regions.map fun r => if r.rcb.id = id then f r else r }

/-- The region that holds a core; an idle one where none does. -/
def regionOf (s : State) (c : Nat) : Region :=
  match (getCore s c).region with
  | some id => getRegion s id
  | none => Region.idle Rcb.zero

def modRegionOf (s : State) (c : Nat) (f : Region → Region) : State :=
  match (getCore s c).region with
  | some id => modRegion s id f
  | none => s

def myRegion (s : State) : Region := regionOf s s.ctx.core

def getPackage (s : State) (p : Nat) : Package := (mapGet? s.packages p).getD (Package.reset 0)

def modPackage (s : State) (p : Nat) (f : Package → Package) : State :=
  { s with packages := mapSet s.packages p (f (getPackage s p)) }

/-- The registered rectangle and package mask hold the cluster of the core (R423). -/
def inCoreSet (b : Rcb) (core : Nat) : Bool :=
  let die := core / 4096 % 16
  let y := 16 * (die / 4) + core / 256 % 16
  let x := 16 * (die % 4) + core / 16 % 16
  b.pkgMask.getLsbD (core / 65536) && b.y0 ≤ y && y ≤ b.y1 && b.x0 ≤ x && x ≤ b.x1

/-- Packages of a mask, in ascending order. -/
def maskPkgs (m : Word) : List Nat := (List.range 64).filter fun p => m.getLsbD p

/-- The region's clusters in one package, as core ids over 16, in ascending order of core id. -/
def rectClusters (b : Rcb) : List Nat :=
  (List.range 16).flatMap fun die =>
    (List.range 16).flatMap fun cly =>
      let y := 16 * (die / 4) + cly
      if b.y0 ≤ y && y ≤ b.y1 then
        ((List.range 16).filter fun clx =>
          let x := 16 * (die % 4) + clx
          b.x0 ≤ x && x ≤ b.x1).map fun clx => die * 256 + cly * 16 + clx
      else []

/-- The region's logical cores in one package, by core id, ascending (R421). -/
def pkgCores (b : Rcb) : List Nat := (rectClusters b).flatMap fun cl => (List.range 16).map fun i => cl * 16 + i

/-- The region's cores by domain core id, ascending (R15). -/
def regionCores (b : Rcb) : List Nat :=
  (maskPkgs b.pkgMask).flatMap fun p => (pkgCores b).map fun c => p * 65536 + c

/-- The region's launch has recovery points (R442). -/
def recoveryOf (r : Region) : Bool := (r.launch.map (·.recovery)).getD false

/-- Packages of a region that take part: those not killed alone (R334). -/
def livePkgs (r : Region) : List Nat := (maskPkgs r.rcb.pkgMask).filter fun p => !r.abortedPkgs.contains p

/-- The region's description, of the packages that take part. -/
def liveRcb (r : Region) : Rcb :=
  { r.rcb with pkgMask := r.abortedPkgs.foldl (fun m p => m &&& ~~~(1#64 <<< p)) r.rcb.pkgMask }

/-- The recovery point in the safe tiers of the region's packages that its launch has written (R444, R453). -/
def recPointOf (s : State) (r : Region) : Option RecPoint :=
  if recoveryOf r then
    match (livePkgs r).head? with
    | none => none
    | some p =>
      match (getPackage s p).safe with
      | some (id, q) => if id = r.rcb.id then some q else none
      | none => none
  else none

/-- A recovery point written to the safe tier of each package of the region: it takes the place of the point before (R444). -/
def putPoint (s : State) (r : Region) (p : RecPoint) : State :=
  (livePkgs r).foldl (fun s k => modPackage s k fun x => { x with safe := some (r.rcb.id, p) }) s

/-- The cores a region holds, of those listed. -/
def heldCores (s : State) (id : Nat) : List Nat := (s.cores.filter fun e => e.2.region = some id).map (·.1)

/-! ### Register files (R84): reads inside a pair see the values from before it (R46) -/

def srcRegs (s : State) : Regs := s.ctx.snap.getD (me s).regs

/-- `s0` reads zero. -/
def readS (s : State) (r : BitVec 5) : Word :=
  if r = 0#5 then 0#64 else (srcRegs s).s[r.toNat]'r.isLt

/-- Writes to `s0` are discarded. -/
def putS (g : Regs) (r : BitVec 5) (x : Word) : Regs :=
  if r = 0#5 then g else { g with s := g.s.set r.toNat x r.isLt }

def writeS (s : State) (r : BitVec 5) (x : Word) : State := modMe s fun t => { t with regs := putS t.regs r x }

def readV (s : State) (r : BitVec 5) : VWord := (srcRegs s).v[r.toNat]'r.isLt

def putV (g : Regs) (r : BitVec 5) (x : VWord) : Regs := { g with v := g.v.set r.toNat x r.isLt }

def writeV (s : State) (r : BitVec 5) (x : VWord) : State := modMe s fun t => { t with regs := putV t.regs r x }

def readK (s : State) (r : BitVec 3) : KWord := (srcRegs s).k[r.toNat]'r.isLt

def putK (g : Regs) (r : BitVec 3) (x : KWord) : Regs := { g with k := g.k.set r.toNat x r.isLt }

def writeK (s : State) (r : BitVec 3) (x : KWord) : State := modMe s fun t => { t with regs := putK t.regs r x }

/-! ### Free values (R9; log entry 4) -/

/-- The next undefined value, and the state that has handed it out. -/
def freshV (s : State) : VWord × State := (Config.freeValue s.fresh, { s with fresh := s.fresh + 1 })

/-- `n` undefined bytes. -/
def freshBytes (s : State) (n : Nat) : List Byte × State :=
  ((List.range n).map fun i => (Config.freeValue (s.fresh + i)).setWidth 8, { s with fresh := s.fresh + n })

/-- `n` bytes of memory left undefined (R142, R333). -/
def spoilBytes (s : State) (key n : Nat) : State :=
  let (bs, s1) := freshBytes s n
  { s1 with mem := writeBytes s1.mem key bs }

/-! ### Why a word, or an access, does not complete -/

/-- The outcome of an instruction that has no effect of its own. -/
inductive Stop where
  /-- A precise trap (R150): cause, `SUB`, `FAULTADDR` and `ACC`. -/
  | trap (code sub : Nat) (faddr : Word) (acc : Nat)
  /-- No valid leaf (R158): package whose table lacks it, address, access kind of R329 and level. -/
  | page (pkg : Nat) (va : Word) (kind lvl : Nat)
  /-- The host has not translated the page of an address (R328). -/
  | hostPage (pasid : BitVec 20) (page : Nat) (va : Word)
  /-- Blocked or stalled (R75): the word is tried again when the wait is over. -/
  | wait (w : Wait)
  /-- A pending late fault at a drain point, of any engine or of one (R161). -/
  | late (only : Option Engine)
  deriving DecidableEq, Repr

/-! Cause codes (R150). -/

def cIllegal : Nat := 0x01
def cMisalignedBundle : Nat := 0x02
def cBundleClass : Nat := 0x03
def cInstrAddr : Nat := 0x04
def cAccess : Nat := 0x05
def cMisaligned : Nat := 0x06
def cPageFault : Nat := 0x07
def cSyncClass : Nat := 0x08
def cProgram : Nat := 0x09
def cTxBudget : Nat := 0x0A
def cTrap : Nat := 0x0B
def cBreak : Nat := 0x0C
def cConflict : Nat := 0x10
def cGuard : Nat := 0x11
def cEndMismatch : Nat := 0x12
def cExchange : Nat := 0x13
def cNoLanding : Nat := 0x14
def cLateVector : Nat := 0x20
def cRqOverflow : Nat := 0x30
def cPreempt : Nat := 0x31

/-- `illegal-instruction` at the word being executed (R150: `FAULTADDR` holds the word). -/
def illegal (s : State) : Stop := .trap cIllegal 0 (s.ctx.word.setWidth 64) 7

/-- `program` with a subcode (R152). -/
def programTrap (sub : Nat) : Stop := .trap cProgram sub 0 7

/-! ### The access checker (R136 to R143) -/

def clockGet (c : Clock) (t : Nat) : Nat := (mapGet? c t).getD 0

def clockJoin (a b : Clock) : Clock :=
  b.foldl (fun acc e => if clockGet acc e.1 < e.2 then mapSet acc e.1 e.2 else acc) a

def strandThread (core n : Nat) : Nat := core * 4 + n

/-- Threads of command accesses follow those of strands. -/
def cmdThread0 : Nat := 2 ^ 24

/-- The modes of R29, and memory that carries none. -/
inductive PageMode where
  | untranslated
  | ro
  | sw
  | tx
  | ex
  | red
  | host
  deriving DecidableEq, Repr

/-- Where an address that passed its checks lies. -/
structure Place where
  key : Nat
  mode : PageMode
  /-- Through the read-only path 0x5 (R121). -/
  readOnly : Bool
  /-- Memory key of the leaf's frame word (R326). -/
  leaf : Option Nat
  va : Word
  deriving DecidableEq, Repr

/-- `FAULTINFO.MEM` of a memory the checker watches (R136, R151). -/
def watchCode (p : Place) : Option Nat :=
  match spaceOf p.key with
  | 0 => some 0
  | 1 => some 1
  | 2 => some 2
  | _ =>
    match p.mode with
    | .sw => some 3
    | .red => some 5
    | _ => none

/-- The parts of [lo, lo + n) in each granule. -/
def granParts (lo n : Nat) : List (Nat × Nat) :=
  if n = 0 then [] else
    (List.range ((lo + n - 1) / 256 + 1 - lo / 256)).map fun i =>
      (max lo ((lo / 256 + i) * 256), min (lo + n) ((lo / 256 + i + 1) * 256))

/-- Class of a byte's granule (R137): 0 ordinary, 1 sync, 2 guard. -/
def classAt (r : Region) (key : Nat) : Nat := (mapGet? r.classes (key / 256)).getD 0

/-- The accesses lie in one granule (R139), of whatever class (R31, R140; log entry 12). -/
def sameUnit (a b : Access) : Bool := a.lo / 256 = b.lo / 256

/-- The first access is ordered before the second by a chain of R138. -/
def orderedBefore (a b : Access) : Bool := a.time ≤ clockGet b.clock a.thread

/-- Two accesses conflict (R139, R140, R127). -/
def conflicting (a b : Access) : Bool :=
  if a.handoff && b.handoff && a.lo / 8 = b.lo / 8 then true
  else if a.agent = b.agent || !sameUnit a b then false
  else if a.waitw || b.waitw then false
  else
    match a.atomic, b.atomic with
    | some x, some y => x ≠ y
    | _, _ => (a.write || b.write) && !(orderedBefore a b || orderedBefore b a)

/-- On whose behalf an access is made: a strand's own, or a command's with its clock (R136, R138). -/
structure Who where
  core : Nat
  strand : Fin 4
  cmd : Option Clock
  deriving DecidableEq, Repr

def whoMe (s : State) : Who := { core := s.ctx.core, strand := s.ctx.strand, cmd := none }

/-- What a strand's access to TCM bytes learns from its own commands' accesses to them (R138, interlocks). -/
def interlockClock (r : Region) (agent : Agent) (lo hi : Nat) (write : Bool) (c : Clock) : Clock :=
  if spaceOf lo = 0 then
    r.log.foldl (fun acc a =>
      if a.agent = agent && cmdThread0 ≤ a.thread && a.lo < hi && lo < a.hi && (write || a.write) then
        mapSet (clockJoin acc a.clock) a.thread 1
      else acc) c
  else c

/-- The access recorded in the region's phase log, granule by granule, and whether it conflicts with one recorded before, or
is a read that the run holds to conflict with a later one (R142; log entry 30). An access to a guard granule is recorded as a guard fault instead (R141). -/
def noteAccess (s : State) (w : Who) (p : Place) (n : Nat) (write : Bool) (atomic : Option (BitVec 3 × Bool))
    (waitw handoff : Bool) : State × Bool :=
  match watchCode p with
  | none => (s, false)
  | some code =>
    let r := regionOf s w.core
    let agent := Agent.strand w.core w.strand
    let parts := granParts p.key n
    let own := strandThread w.core w.strand
    let clock0 := match w.cmd with
      | some c => c
      | none => interlockClock r agent p.key (p.key + n) write (getStrand s w.core w.strand).clock
    let thread := match w.cmd with
      | some _ => cmdThread0 + s.thread
      | none => own
    let time := clockGet clock0 thread + 1
    let clock := match w.cmd with
      | some c => c
      | none => mapSet clock0 own time
    let acc (lo hi : Nat) : Access :=
      { agent := agent, thread := thread, time := time, clock := clock, lo := lo, hi := hi, write := write,
        atomic := atomic, waitw := waitw, handoff := handoff, va := p.va + BitVec.ofNat 64 (lo - p.key),
        mem := BitVec.ofNat 4 code }
    let kept := (parts.filter fun q => classAt r q.1 ≠ 2).map fun q => acc q.1 q.2
    let guarded := (parts.filter fun q => classAt r q.1 = 2).map fun q => (w.core, q.1 / 256, (w.strand : Nat), 0#3)
    let bad := kept.any fun a => s.doubts.contains (thread, time) || r.log.any fun b => conflicting a b
    let s1 := match w.cmd with
      | some _ => { s with thread := s.thread + 1 }
      | none => modStrand s w.core w.strand fun t => { t with clock := clock }
    (modRegionOf s1 w.core fun r => { r with log := kept ++ r.log, guards := guarded ++ r.guards }, bad)

/-- A per-core register, by `REGSEL` of R151, accessed by strand `n`: recorded, and whether it conflicts with another strand's
access in the phase (R86). -/
def noteRegAs (s : State) (core n : Nat) (sel : Nat) (write : Bool) : State × Bool :=
  let x := getCore s core
  let bad := x.regAcc.any fun a => a.1 = sel && a.2.1 ≠ n && (write || a.2.2)
  let other := (x.regAcc.find? fun a => a.1 = sel && a.2.1 ≠ n && (write || a.2.2)).map (·.2.1)
  (setCore s core { x with
    regAcc := if x.regAcc.contains (sel, n, write) then x.regAcc else (sel, n, write) :: x.regAcc
    regConf := if bad then (sel, other.getD 0) :: x.regConf else x.regConf }, bad)

def noteReg (s : State) (sel : Nat) (write : Bool) : State × Bool := noteRegAs s s.ctx.core s.ctx.strand sel write

/-! ### Loads and stores at a place that passed its checks -/

/-- `A`, and for a write `D`, of the leaf (R326). -/
def markLeaf (s : State) (p : Place) (write : Bool) : State :=
  match p.leaf with
  | none => s
  | some k => { s with mem := memWrite s.mem k (memRead s.mem k ||| (if write then 0x0C#8 else 0x04#8)) }

/-- What a load reads: an EX page as at C-phase start (R119), path 0x5 as at phase start (R121). -/
def memSeen (s : State) (core : Nat) (p : Place) : Memory :=
  match p.mode with
  | .ex => (regionOf s core).memC
  | _ => if p.readOnly then (regionOf s core).memPhase else s.mem

/-- A load; bytes of guard granules read zero (R141), and a conflicting read gives undefined bytes (R142). -/
def loadAt (s : State) (w : Who) (p : Place) (n : Nat) : List Byte × State :=
  let r := regionOf s w.core
  let m := memSeen s w.core p
  match noteAccess (markLeaf s p false) w p n false none false false with
  | (s1, true) =>
    let (bs, s2) := freshBytes s1 n
    (bs.zipIdx.map fun e => if classAt r (p.key + e.2) = 2 then 0#8 else e.1, s2)
  | (s1, false) =>
    ((List.range n).map fun i => if classAt r (p.key + i) = 2 && (watchCode p).isSome then 0#8 else memRead m (p.key + i), s1)

/-- The bytes that lie in no guard granule written (R141). -/
def writeGuarded (m : Memory) (r : Region) (p : Place) (bs : List Byte) : Memory :=
  (bs.zipIdx).foldl (fun m e =>
    if classAt r (p.key + e.2) = 2 && (watchCode p).isSome then m else memWrite m (p.key + e.2) e.1) m

/-- A store that is not deferred. A posted write to the host is not yet acknowledged (R135). -/
def storeAt (s : State) (w : Who) (p : Place) (bs : List Byte) (handoff : Bool) : State :=
  let r := regionOf s w.core
  let s1 := (noteAccess (markLeaf s p true) w p bs.length true none false handoff).1
  let s2 := { s1 with mem := writeGuarded s1.mem r p bs }
  if spaceOf p.key = 5 then modCore s2 w.core fun x => { x with unacked := x.unacked + 1 } else s2

/-- The strand's place in core program order (R120), and the state that has used it up. -/
def nextOrder (s : State) (core : Nat) (n : Fin 4) : Order × State :=
  let t := getStrand s core n
  let o : Order := match t.body with
    | some b => { phase := 1, agent := b.num, run := 0, place := t.place, sub := 0 }
    | none => { phase := 0, agent := n, run := t.run, place := t.place, sub := 0 }
  (o, modStrand s core n fun t => { t with place := t.place + 1 })

def orderLe (a b : Order) : Bool :=
  let k (o : Order) := [o.phase, o.agent, o.run, o.place, o.sub]
  decide (k a ≤ k b)

/-- Limit of deferred stores (R120), and of `AMOSEQ` with `POST` (R129): per strand in C, per body in T. -/
def queueLimit (t : Strand) : Nat := if t.body.isSome then 1024 else 16384

/-- `DeferStore` (R119, R120): `none` past the limit. -/
def deferStore (s : State) (core : Nat) (n : Fin 4) (o : Order) (p : Place) (bs : List Byte) : Option State :=
  let t := getStrand s core n
  if queueLimit t ≤ t.deferred then none
  else
    let s1 := modStrand (markLeaf s p true) core n fun t => { t with deferred := t.deferred + 1 }
    some (modCore s1 core fun x =>
      { x with deferred := x.deferred ++ [{ order := o, core := core, key := p.key, va := p.va, bytes := bs }] })

/-! ### Handoffs (R138, R140) -/

/-- The clock, joined with what those of the strand's agent's accesses that are chosen are ordered before. -/
def logClock (s : State) (core : Nat) (n : Fin 4) (chosen : Access → Bool) (c0 : Clock) : Clock :=
  (regionOf s core).log.foldl (fun c a =>
    if a.agent = .strand core n && chosen a then
      let c1 := clockJoin c a.clock
      if clockGet c1 a.thread < a.time then mapSet c1 a.thread a.time else c1
    else c) c0

/-- What every access of the strand's agent so far is ordered before (R138, strand end; R359). -/
def agentClock (s : State) (core : Nat) (n : Fin 4) : Clock := logClock s core n (fun _ => true) (getStrand s core n).clock

/-- A handoff write's record: the word, its value, and the clock it releases. -/
def noteHandoff (s : State) (core : Nat) (h : Handoff) : State :=
  modRegionOf s core fun r => { r with handoffs := h :: r.handoffs }

/-! ### Packet completion (R414, R417) -/

def statOk : Nat := 0x01
def statHeader : Nat := 0x02
def statSignature : Nat := 0x03
def statEncver : Nat := 0x04
def statNoVariant : Nat := 0x05
def statPageHeld : Nat := 0x06
def statBudget : Nat := 0x07
def statPlan : Nat := 0x08
def statRoutine : Nat := 0x09
def statNoRecovery : Nat := 0x0A
def statRegion : Nat := 0x0B
def statSpecialise : Nat := 0x0C
def statDescriptor : Nat := 0x0D
def statLate : Nat := 0x0E
def statMalformed : Nat := 0x0F
def statQDestroyed : Nat := 0x10
def statKilled : Nat := 0x11
def statPreemptTimeout : Nat := 0x12
def statEndFault : Nat := 0x13

def getQueue (s : State) (pkg q : Nat) : Queue := (mapGet? (getPackage s pkg).queues q).getD Queue.reset

def modQueue (s : State) (pkg q : Nat) (f : Queue → Queue) : State :=
  modPackage s pkg fun p => { p with queues := mapSet p.queues q (f ((mapGet? p.queues q).getD Queue.reset)) }

/-! ### Host addresses of the command processor (R328, R408; log entry 34) -/

/-- The 4 KiB pages of host memory that `n` bytes at an address lie in. -/
def hostPages (a : Word) (n : Nat) : List Nat :=
  if fieldOf a 63 60 = 7 && n ≠ 0 then
    (List.range ((fieldOf a 56 0 % 4096 + n + 4095) / 4096)).map fun i => fieldOf a 56 0 / 4096 + i
  else []

/-- What the handling of a packet does at an address: the address, how many bytes, and whether it writes them. -/
abbrev CpNeed := Word × Nat × Bool

def atsFor (p : Package) (pasid : BitVec 20) (page : Nat) : Option AtsEntry := p.ats.find? fun e => e.pasid = pasid && e.page = page

/-- The first page whose translation the host has not given. -/
def cpMissing (p : Package) (pasid : BitVec 20) (l : List CpNeed) : Option Nat :=
  (l.flatMap fun n => hostPages n.1 n.2.1).find? fun g => (atsFor p pasid g).isNone

/-- The host refuses one of the accesses. -/
def cpRefused (p : Package) (pasid : BitVec 20) (l : List CpNeed) : Bool :=
  l.any fun n => (hostPages n.1 n.2.1).any fun g => (atsFor p pasid g).any fun e => !(e.granted && if n.2.2 then e.write else e.read)

/-- A page requested of the host (R328): what an earlier request was answered with is of no more use. -/
def askHost (p : Package) (pasid : BitVec 20) (page : Nat) : Package :=
  { p with
    ats := p.ats.filter fun e => e.granted || e.pasid ≠ pasid || e.page ≠ page
    pri := if p.pri.contains (pasid, page) then p.pri else p.pri ++ [(pasid, page)] }

/-- The command processor requests a page. -/
def askPage (s : State) (pkg : Nat) (pasid : BitVec 20) (page : Nat) : State := modPackage s pkg fun p => askHost p pasid page

/-- The first page still missing, if any, requested. -/
def askMissing (s : State) (pkg : Nat) (pasid : BitVec 20) (l : List CpNeed) : State :=
  match cpMissing (getPackage s pkg) pasid l with
  | some page => askPage s pkg pasid page
  | none => s

/-- The queue's PASID is torn down (R430). -/
def qTorn (pk : Package) (q : Queue) : Bool := pk.torn.contains (q.cfg.extractLsb' 32 20)

/-- The page of a completion record is not translated (R408), and the record is to be written. -/
def recordMissing (s : State) (pkg q : Nat) (comp : Word) : Bool :=
  let qu := getQueue s pkg q
  comp ≠ 0#64 && !qTorn (getPackage s pkg) qu && (cpMissing (getPackage s pkg) (qu.cfg.extractLsb' 32 20) [(comp, 32, true)]).isSome

/-- A notice of this record waits for its page. -/
def noticeDue (s : State) (comp : Word) : Bool :=
  s.waits.any fun w =>
    match w.what with
    | .noticed _ _ => w.comp = comp
    | _ => false

/-- The completion record of packet `num` of queue `q` (R417): `DETAIL`, `SEQ`, then `STATUS`; then MSI-X. A record in host
memory of a torn-down PASID is not written (R430), nor one that the host refuses (log entry 34). -/
def writeRecord (s : State) (pkg q : Nat) (num : BitVec 32) (comp : Word) (irq : Bool) (status : Nat) (detail : Word) : State :=
  let qu := getQueue s pkg q
  let pk := getPackage s pkg
  let s1 := if comp = 0#64 then s else
    match cpKey? pkg comp with
    | none => s
    | some k =>
      if (qTorn pk qu && spaceOf k = 5) || cpRefused pk (qu.cfg.extractLsb' 32 20) [(comp, 32, true)] then s
      else { s with mem := memPut (memPut (memPut s.mem (k + 8) 8 detail.toNat) (k + 24) 8 num.toNat) k 8 status }
  if irq then modPackage s1 pkg fun p => { p with msix := p.msix ++ [q] } else s1

/-- A packet completes: its record is written, once the host has translated its page, and its queue has it no longer outstanding
(R408, R415). -/
def completePacket (s : State) (pkg q : Nat) (num : BitVec 32) (comp : Word) (irq : Bool) (status : Nat)
    (detail : Word) : State :=
  if recordMissing s pkg q comp || (comp ≠ 0#64 && noticeDue s comp) then
    { askMissing s pkg ((getQueue s pkg q).cfg.extractLsb' 32 20) [(comp, 32, true)] with
      waits := s.waits ++ [{ pkg := pkg, q := q, num := num, comp := comp, irq := irq, regions := [], what := .translated status detail }] }
  else
    modQueue (writeRecord s pkg q num comp irq status detail) pkg q fun qu => { qu with outstanding := qu.outstanding.erase num }

/-- `NOTICE` of a completion record (R417, R429), where the host does not refuse it, nor the package has torn down its PASID (R430). -/
def putNotice (s : State) (pkg : Nat) (pasid : BitVec 20) (comp : Word) (value : Nat) : State :=
  match cpKey? pkg comp with
  | none => s
  | some k =>
    if ((getPackage s pkg).torn.contains pasid && spaceOf k = 5) || cpRefused (getPackage s pkg) pasid [(comp, 32, true)] then s
    else { s with mem := memPut s.mem (k + 16) 8 value }

/-- The cores of a launch, those of a killed part and of a pre-empted launch among them, that the state lists: the others have nothing in
flight. -/
def coresOf (s : State) (b : Rcb) : List Nat := (s.cores.filter fun e => inCoreSet b e.1).map (·.1)

/-- A launch completes; with `REL`, once its cores' writes to the host are acknowledged (R419). -/
def completeLaunch (s : State) (b : Rcb) (l : Launch) (cores : List Nat) (status : Nat) (detail : Word) : State :=
  if l.rel && cores.any (fun c => (getCore s c).unacked ≠ 0) then
    { s with waits := s.waits ++
        [{ pkg := l.pkg, q := l.q, num := l.num, comp := l.comp, irq := l.irq, regions := [],
           what := .flushed cores status detail b l.image }] }
  else completePacket s l.pkg l.q l.num l.comp l.irq status detail

/-! ### Leaves of a page table (R321 to R325) -/

/-- Index of an address at a level (R321). -/
def walkIndex (v lvl : Nat) : Nat :=
  match lvl with
  | 1 => v / 2 ^ 39 % 512
  | 2 => v / 2 ^ 30 % 512
  | 3 => v / 2 ^ 21 % 512
  | _ => v / 2 ^ 16 % 32

/-- log2 of a leaf's page at a level (R321). -/
def pageLog (lvl : Nat) : Nat :=
  match lvl with
  | 2 => 30
  | 3 => 21
  | _ => 16

/-- A non-leaf entry breaks R322; `next` is the level its table is for. -/
def badNonLeaf (f c : Word) (next : Nat) : Bool :=
  fieldOf f 63 48 ≠ 0 || fieldOf f 8 2 ≠ 0 || c ≠ 0#64 ||
    Config.hbmBytes < fieldOf f 47 9 * 512 + (if next = 4 then 512 else 8192)

/-- A leaf breaks R323 or R324. -/
def badLeaf (s : State) (pkg : Nat) (f c : Word) (lvl : Nat) : Bool :=
  let frame := fieldOf f 47 16
  let space := fieldOf f 47 46
  let pa := fieldOf f 45 16 * 65536
  fieldOf f 63 48 ≠ 0 || fieldOf f 15 4 ≠ 0 || 2 ≤ space || (space = 0 && fieldOf f 45 40 ≠ 0) ||
    (lvl = 2 && frame % 2 ^ 14 ≠ 0) || (lvl = 3 && frame % 2 ^ 5 ≠ 0) ||
    (if space = 0 then Config.hbmBytes else Config.tier2Bytes (getPackage s pkg).module_) < pa + 2 ^ pageLog lvl ||
    5 < fieldOf c 15 12 || fieldOf c 11 1 ≠ 0 || (c.getLsbD 0 && fieldOf c 15 12 ≠ 0)

/-- A walk's result: the leaf's frame and companion words, its level and the memory key of its frame word. -/
structure Leaf where
  frame : Word
  comp : Word
  lvl : Nat
  key : Nat
  deriving DecidableEq, Repr

/-- Where a walk ends (R325): at a leaf, at an entry with `V` = 0 of a level, or at an entry that breaks the rules. -/
inductive WalkEnd where
  | leaf (l : Leaf)
  | missing (lvl : Nat)
  | refused
  deriving DecidableEq, Repr

/-- The walk from a table at physical address `t`, with `fuel` levels left (R325). -/
def findLeaf (s : State) (pkg v : Nat) : Nat → Nat → WalkEnd
  | 0, _ => .refused
  | fuel + 1, t =>
    let lvl := 4 - fuel
    let k := devKey pkg (t + 16 * walkIndex v lvl)
    let f := BitVec.ofNat 64 (memNat s.mem k 8)
    let c := BitVec.ofNat 64 (memNat s.mem (k + 8) 8)
    if !f.getLsbD 0 then .missing lvl
    else if !f.getLsbD 1 then
      if lvl = 4 || badNonLeaf f c (lvl + 1) then .refused else findLeaf s pkg v fuel (fieldOf f 47 9 * 512)
    else if lvl = 1 || badLeaf s pkg f c lvl then .refused
    else .leaf { frame := f, comp := c, lvl := lvl, key := k }

/-- The physical address of a leaf's page with the address's offset in it, [47:46] selecting the space (R325). -/
def leafPa (l : Leaf) (v : Nat) : Nat :=
  let sz := pageLog l.lvl
  (fieldOf l.frame 47 16 * 65536) / 2 ^ sz * 2 ^ sz + v % 2 ^ sz

def modeOf (c : Word) : PageMode :=
  match fieldOf c 15 12 with
  | 0 => .ro
  | 1 => .sw
  | 2 => .tx
  | 3 => .ex
  | 4 => .red
  | _ => .host

/-! ### Entries of an exchange plan (R297, R298) -/

def entKind (p : PlanEntry) : Nat := fieldOf p.w0 3 0
def entLen (p : PlanEntry) : Nat := fieldOf p.w0 63 32
/-- `STAGE`, or `NSTAGE`. -/
def entStage (p : PlanEntry) : Nat := fieldOf p.w3 55 48

/-- The core a path 0x3 address names. -/
def destCore (dst : Word) : Nat := fieldOf dst 53 48 * 65536 + fieldOf dst 47 32

/-- The window of a core's segment that holds a range whole. -/
def windowOf (x : Core) (o n : Nat) : Option PlanEntry :=
  x.plan.find? fun p => entKind p = 3 && p.w2.toNat ≤ o && o + n ≤ p.w2.toNat + entLen p

/-! ### Killing (R39, R333, R372, R427, R456) -/

/-- Ancestors of a region from itself up, at most 8 levels (R37). -/
def ancestors (s : State) : Nat → Nat → List Nat
  | 0, _ => []
  | fuel + 1, id =>
    match getRegion? s id with
    | none => []
    | some r => id :: (if r.rcb.parent = 0xFFFF then [] else ancestors s fuel r.rcb.parent)

/-- The regions of the subtree rooted at a region. -/
def subtree (s : State) (root : Nat) : List Nat :=
  (s.regions.map (·.rcb.id)).filter fun id => (ancestors s 8 id).contains root

/-- The root of a region's fault domain (R423, `FDOM`). -/
def faultRoot (s : State) (id : Nat) : Nat := ((ancestors s 8 id)[(getRegion s id).rcb.fdom]?).getD id

def stateCode : RegionState → Nat
  | .idle => 0
  | .pending => 1
  | .running => 2
  | .suspended => 3
  | .killed => 4

/-- A region's control block in memory: in each package of its mask, at one device-memory place, as `ROOT` is (R423; log entry 23). -/
def blockKeys (b : Rcb) : List Nat :=
  if spaceOf b.key = 3 then dedup ((maskPkgs b.pkgMask).map (fun p => devKey p (b.key % 2 ^ 46)) ++ [b.key]) else [b.key]

/-- A doubleword of the control block written by the command processor. -/
def putBlock (m : Memory) (b : Rcb) (off x : Nat) : Memory := (blockKeys b).foldl (fun m k => memPut m (k + off) 8 x) m

/-- `STATE` of the control block written by the command processor (R423). -/
def setRegionState (s : State) (id : Nat) (st : RegionState) : State :=
  let r := getRegion s id
  { modRegion s id (fun r => { r with state := st }) with mem := putBlock s.mem r.rcb 0x48 (stateCode st) }

/-- `FAULT` of the control block (R156, R164), with the subcode that the layout has no bits for (R454; log entry 66). -/
def noteFault (s : State) (id : Nat) (detail faddr : Word) (sub : Nat) : State :=
  let r := getRegion s id
  { modRegion s id (fun r => { r with fault := (detail, faddr), faultSub := sub }) with
    mem := putBlock (putBlock s.mem r.rcb 0x50 detail.toNat) r.rcb 0x58 faddr.toNat }

/-- The `DETAIL` layout of `KILLED` (R417). -/
def killDetail (cause core superstep : Nat) : Word :=
  BitVec.ofNat 64 (cause % 256 + 2 ^ 8 * (core % 2 ^ 22) + 2 ^ 32 * (superstep % 2 ^ 32))

/-- A core that its region no longer holds: nothing runs on it, and every queue is empty. Its registers keep their values
until the next launch sets them (log entry 18), and its writes to the host are still to be acknowledged. -/
def releaseCore (x : Core) : Core :=
  { x with
    region := none
    strands := x.strands.map fun t =>
      { t with
        live := false, wait := .ready, parkedAt := none, asked := none, replaying := false, late := [], released := false, body := none }
    mq := [], cq := [], sq := [], vq := [], cdone := false, vote := false, taken := false, regAcc := [], regConf := [], deferred := [],
    seqReqs := [], msgs := [], subs := [], pendBytes := 0, plan := [], xfaults := [], planDone := false, reports := [], heldMsgs := [],
    rqPending := false, halted := false, fetched := [] }

/-- A region without anything of its launch (R333, R372): requests, permits, locks, transfers and held reports go. -/
def clearRegion (r : Region) : Region :=
  { Region.idle r.rcb with state := r.state, breakpoints := r.breakpoints, fault := r.fault, faultSub := r.faultSub }

/-- `INVAL` packets of a region that wait for its barrier complete (R414). -/
def finishInvals (s : State) (id : Nat) : State :=
  let s1 := (getRegion s id).invals.foldl (fun s e =>
    completePacket s e.1 e.2.1 e.2.2.2.1 e.2.2.2.2.1 e.2.2.2.2.2 statOk 0#64) s
  modRegion s1 id fun r => { r with invals := [] }

/-- A `SENDF` of a core of which some flits have been written at their window and others have not: where, and how many bytes (R303,
R333). -/
def brokenSendf (s : State) (r : Region) (core : Nat) (e : PlanEntry × Nat) : Option (Nat × Nat) :=
  let p := e.1
  let there := p.flits - (r.xfers.countP fun t => t.src = core && t.entry = e.2 && t.status = .inFlight)
  let dst := destCore p.w2
  if entKind p = 1 && there ≠ 0 && 64 * there < entLen p && (windowOf (getCore s dst) (fieldOf p.w2 17 0) (entLen p)).isSome then
    some (tcmKey dst (fieldOf p.w2 17 0), entLen p)
  else none

/-- A `REDUCE` of a core of which some stages have been applied and others have not (R311, R333). -/
def brokenReduce (core : Nat) (p : PlanEntry) : Option (Nat × Nat) :=
  if entKind p = 4 && p.applied ≠ 0 && p.applied < entStage p then some (tcmKey core (fieldOf p.w2 17 0), entLen p) else none

/-- A tile whose home write is in progress (R372, R454), where its home can be written. -/
def brokenTile (s : State) (r : Region) (t : Txn) : Option (Nat × Nat) :=
  if t.status = .ending then
    match (t.reqs.drop t.homed).find? fun q => q.excl with
    | none => none
    | some q =>
      if q.tile.die then some (dieKey q.tile.home q.tile.addr, q.tile.size)
      else
        match findLeaf s q.tile.home q.tile.addr 4 r.rcb.root with
        | .leaf l => if modeOf l.comp = .tx && leafPa l 0 / 2 ^ 46 = 0 then some (devKey q.tile.home (leafPa l q.tile.addr), q.tile.size) else none
        | _ => none
  else none

/-- What a kill of the region, or of its part in some packages, leaves undefined: destinations partly written (R333), tiles whose home
write was in progress (R372), and what a selvedge command in flight has written (R402). -/
def brokenWrites (s : State) (id : Nat) (part : Nat → Bool) : List (Nat × Nat) :=
  let r := getRegion s id
  (r.txns.filter fun t => part t.pkg).filterMap (brokenTile s r) ++ ((heldCores s id).filter fun c => part (pkgOfCore c)).flatMap fun c =>
    let x := getCore s c
    x.plan.zipIdx.filterMap (brokenSendf s r c) ++ x.plan.filterMap (brokenReduce c) ++
      (x.sq.head?.map fun k => if k.started then k.outputs else []).getD []

/-- The bytes left undefined. -/
def spoilAll (s : State) (l : List (Nat × Nat)) : State := l.foldl (fun s e => spoilBytes s e.1 e.2) s

/-- One region killed: its cores stop, its host transactions and its launch complete (R427, R456). -/
def killOne (status : Nat) (detail : Word) (s : State) (id : Nat) : State :=
  let r := getRegion s id
  match r.launch with
  | none => s
  | some l =>
    let host := killDetail 0 0x3FFFFF r.superstep.toNat
    let s0 := spoilAll s (brokenWrites s id fun _ => true)
    let s1 := r.hostTxns.foldl (fun s h => if h.silent then s else completePacket s h.pkg h.q h.num h.comp h.irq statKilled host) (finishInvals s0 id)
    let s2 := (heldCores s id).foldl (fun s c => modCore s c releaseCore) s1
    let s3 := setRegionState (modRegion s2 id clearRegion) id .killed
    let s4 := { s3 with packages := s3.packages.map fun e =>
      (e.1, { e.2 with cache := e.2.cache.map fun c => { c with pins := c.pins.filter (· ≠ id) }
                       inflight := e.2.inflight.filter fun f => f.region ≠ id
                       unmapped := e.2.unmapped.filter fun u => u.1 ≠ id }) }
    completeLaunch s4 r.rcb l (coresOf s r.rcb) status detail

/-- The host has answered for the page of a notice, or the package has torn down its PASID. -/
def noticeOver (s : State) (w : PacketWait) (pasid : BitVec 20) : Bool :=
  (getPackage s w.pkg).torn.contains pasid || (cpMissing (getPackage s w.pkg) pasid [(w.comp, 32, true)]).isNone

/-- What a packet waits for has come about (R414, R419), and the page of its record (R408). -/
def packetWaitOver (s : State) (w : PacketWait) : Bool :=
  match w.what with
  | .released => w.regions.all fun id => (heldCores s id).isEmpty
  | .stopped => w.regions.all fun id => (getRegion s id).launch.isNone
  | .resumed => w.regions.all fun id => (getRegion s id).state ≠ .suspended
  | .flushed cores _ _ _ _ => cores.all fun c => (getCore s c).unacked = 0
  | .noticed pasid _ => noticeOver s w pasid
  | .translated _ _ =>
    !recordMissing s w.pkg w.q w.comp && s.waits.all fun v =>
      match v.what with
      | .noticed pasid _ => v.comp ≠ w.comp || noticeOver s v pasid
      | _ => true

/-- The packet completes, with `OK` or as its launch ended. -/
def endWait (s : State) (w : PacketWait) : State :=
  match w.what with
  | .flushed _ status detail _ _ | .translated status detail => completePacket s w.pkg w.q w.num w.comp w.irq status detail
  | .noticed pasid value => putNotice s w.pkg pasid w.comp value
  | _ => completePacket s w.pkg w.q w.num w.comp w.irq statOk 0#64

/-- Packets whose wait is over complete. -/
def finishWaits (s : State) : State :=
  (s.waits.filter (packetWaitOver s)).foldl endWait { s with waits := s.waits.filter fun w => !packetWaitOver s w }

/-- A subtree killed. -/
def killSubtree (s : State) (root status : Nat) (detail : Word) : State :=
  finishWaits ((subtree s root).foldl (killOne status detail) s)

/-- Every region of a list killed, each launch with the superstep its region was in (R456). -/
def killEach (status : Nat) (ids : List Nat) (s : State) : State :=
  finishWaits (ids.foldl (fun s id =>
    killOne status (killDetail 0 0x3FFFFF (getRegion s id).superstep.toNat) s id) s)

/-- A fault not handled within the region (R39): `FAULT` of the region's block, then the kill of its fault domain. -/
def killFaultDomain (s : State) (core : Nat) (code sub : Nat) (faddr : Word) : State :=
  match (getCore s core).region with
  | none => modCore s core releaseCore
  | some id =>
    let r := getRegion s id
    let d := killDetail code core r.superstep.toNat
    killSubtree (noteFault s id d faddr sub) (faultRoot s id) statKilled d

/-! ### The back-map (R156, R187, R188) -/

/-- `ROUT`, `OFF` and `IDX` of a code address: the loaded code's back-map entry, or the offset in unspecialised code. -/
def backMap (s : State) (core : Nat) (epc : TcmAddr) : Nat × Nat × Nat :=
  let r := regionOf s core
  let x := getCore s core
  match r.code.find? fun c => c.routine = x.routine && c.loadAddr ≤ epc.toNat && epc.toNat < c.loadAddr + 4 * c.words.length with
  | some c =>
    let i := (epc.toNat - c.loadAddr) / 4
    if c.specialised then
      let e := (c.backMap[i]?).getD 0#32
      (c.routine, e.toNat % 2 ^ 20, e.toNat / 2 ^ 20)
    else (c.routine, i, 0)
  | none => (0xFFFF, epc.toNat / 4, 0)

/-! ### Guard bounds (R114) -/

/-- Every byte of [o, o + n) lies in a granule from `TCMGUARD_LO.GRAN` to `TCMGUARD_HI.GRAN`. The check is no access of a strand to
the two registers (log entry 63). -/
def inBounds (x : Core) (o n : Nat) : Bool :=
  fieldOf x.guardLo 17 8 ≤ o / 256 && (o + n - 1) / 256 ≤ fieldOf x.guardHi 17 8

/-! ### Trap entry and return (R156, R159, R172) -/

def handlerAddr (x : Core) (kind : Nat) : Nat :=
  match kind with
  | 0 => fieldOf x.handler 15 0
  | 1 => fieldOf x.handler 31 16
  | _ => fieldOf x.handler 47 32

/-- TCM offset of a strand's block in the save area (R166). -/
def saveBlock (x : Core) (n : Fin 4) : Nat := fieldOf x.saveArea 17 13 * 8192 + 0x700 * n

def engCode : Engine → Nat
  | .vector => 0
  | .matrix => 1
  | .copy => 2
  | .selvedge => 3

def ringCode : RingState → Nat
  | .inFlight | .completed => 0
  | .faulted => 1
  | .cancelled => 2

/-- One 16-byte record of the ring image (R159). -/
def ringRecord (s : State) (core : Nat) (e : RingEntry) : List Byte :=
  let (_, off, idx) := backMap s core e.waddr
  let flags := (if e.used then 128 else 0) + 32 * ringCode e.state + 8 * engCode e.eng + (if e.slotA then 4 else 0)
  let sub := if e.state = .faulted then e.sub.toNat else 0
  if e.used then
    leBytes 4 e.word.toNat ++ leBytes 2 (e.waddr.toNat / 4) ++ leBytes 1 e.seq.toNat ++ leBytes 1 flags ++
      leBytes 4 (off % 2 ^ 20 + 2 ^ 20 * (idx % 2 ^ 12)) ++ leBytes 4 sub
  else leBytes 16 0

/-- `STRANDID.STRAND` (R88). -/
def strandNo (t : Strand) : Fin 4 := ⟨fieldOf t.strandId 1 0 % 4, Nat.mod_lt _ (by decide)⟩

/-- Stores of trap entry (R156): stores by the strand, to its save-area block. -/
def entryStore (core : Nat) (n : Fin 4) (s : State) (off : Nat) (bs : List Byte) : State :=
  storeAt s { core := core, strand := n, cmd := none }
    { key := tcmKey core (off % 2 ^ 18), mode := .untranslated, readOnly := false, leaf := none,
      va := BitVec.ofNat 64 (off % 2 ^ 18) } bs false

/-- The trap registers and pc as entry leaves them. -/
def enterHandler (s : State) (core : Nat) (code kind : Nat) (epc : TcmAddr) (faddr finfo : Word) (blk h : Nat)
    (t : Strand) : Strand :=
  let (rout, off, idx) := match t.beyond with
    | some a => (0xFFFF, fieldOf a 21 2, 0)
    | none => backMap s core epc
  { t with
    regs := { t.regs with s := t.regs.s.set 1 (BitVec.ofNat 64 blk) }
    trap := { t.trap with
      cause := BitVec.ofNat 64 code, epc := (epc &&& ~~~3#18).setWidth 64, faultAddr := faddr, faultInfo := finfo
      origPc := BitVec.ofNat 64 (rout % 2 ^ 16 * 2 ^ 32 + off % 2 ^ 20)
      unrollIdx := BitVec.ofNat 64 (idx % 2 ^ 12)
      status := (t.trap.status &&& 0x20#64) ||| 1#64 ||| BitVec.ofNat 64 (4 * kind) }
    pc := BitVec.ofNat 18 (4 * h), beyond := none, replaying := false, wait := .ready }

/-- A store of the device into the core's own save area goes where a strand's store could: within the guard bounds and past the
uniform area (R114, R115; log entry 62). -/
def saveFits (x : Core) (off n : Nat) : Bool := 0x1000 ≤ off && inBounds x off n

/-- The late causes, whose entry writes the ring image (R156). -/
def lateCode (code : Nat) : Bool := 0x20 ≤ code && code ≤ 0x23

/-- Every store of an entry fits. -/
def entryFits (x : Core) (t : Strand) (code : Nat) : Bool :=
  let blk := saveBlock x (strandNo t)
  saveFits x (blk + 8) 24 && (!lateCode code || saveFits x (blk + 0x5A0) 256)

/-- `TrapEntry` (R156) for a strand of a core. A double trap, or a missing handler, kills the fault domain (R39); so does a save area
to which entry cannot store, since its access fault would be taken in the entry itself (log entry 62). -/
def trapEntry (s : State) (core : Nat) (n : Fin 4) (code kind : Nat) (epc : TcmAddr) (faddr finfo : Word) : State :=
  let x := getCore s core
  let t := coreStrand x n
  let h := handlerAddr x kind
  if t.trap.status.getLsbD 0 || h = 0 then killFaultDomain s core code (fieldOf finfo 47 40) faddr
  else if !entryFits x t code then killFaultDomain s core cAccess 3 (BitVec.ofNat 64 (saveBlock x (strandNo t) + 8))
  else
    let blk := saveBlock x (strandNo t)
    let st := entryStore core n
    let s1 := st (st (st s (blk + 0x08) (leBytes 8 t.regs.s[1].toNat)) (blk + 0x10) (leBytes 8 t.regs.s[2].toNat))
      (blk + 0x18) (leBytes 8 t.regs.s[3].toNat)
    let s2 := if lateCode code then
        st s1 (blk + 0x5A0) (t.ring.toList.flatMap (ringRecord s core))
      else s1
    modStrand s2 core n (enterHandler s core code kind epc faddr finfo blk h)

/-- Return from a handler (R172): the status, and the resumption of a replay that `REP_STATE` still holds (R109). -/
def returnFrom (t : Strand) : Strand :=
  { t with
    trap := { t.trap with status := t.trap.status &&& 0x20#64 }
    pc := (t.trap.epc.setWidth 18) &&& ~~~3#18
    replaying := t.repState.getLsbD 63 }

/-! ### The frame of a word's meaning -/

/-- `FAULTINFO` of a precise fault (R151). -/
def preciseInfo (sub : Nat) (slotA : Bool) (acc : Nat) : Word :=
  BitVec.ofNat 64 (sub % 256 * 2 ^ 40 + (if slotA then 8 else 0) + acc % 8)

def setEvent (s : State) (e : Event) : State := { s with ctx := { s.ctx with event := e } }

def slotIsA (s : State) : Bool := s.ctx.slot = .aslot

/-- The precise trap of the word being executed: `EPC` is the word or its pair, or the `REP` body word (R46, R109). -/
def raise (s : State) (code sub : Nat) (faddr : Word) (acc : Nat) : State :=
  setEvent (trapEntry s s.ctx.core s.ctx.strand code 0 s.ctx.pc faddr (preciseInfo sub (slotIsA s) acc)) .trapped

/-- The strand waits, and the word has had no effect (R75). -/
def block (s : State) (w : Wait) : State := setEvent (modMe s fun t => { t with wait := w }) .blocked

/-- R158 step 1: the trap registers of a strand outside handler mode. -/
def notePark (s : State) (va : Word) : State :=
  modMe s fun t =>
    if t.trap.status.getLsbD 0 then t
    else { t with trap := { t.trap with cause := BitVec.ofNat 64 cPageFault, faultAddr := va } }

/-- R158 steps 1 to 3: the trap registers, the record, the parked strand. -/
def parkStrand (s : State) (pkg : Nat) (va : Word) (kind lvl : Nat) : State :=
  let g := (getPackage s pkg).faultGen
  let s1 := notePark s va
  let rec_ : FaultRec := { va := va, core := s.ctx.core, agent := 0, region := (myRegion s).rcb.id, kind := kind, lvl := lvl, gen := g }
  let s2 := modMe s1 fun t => { t with parkedAt := some (fieldOf va 47 16, g) }
  block (modPackage s2 pkg fun p => { p with inflight := p.inflight ++ [rec_] }) (.page pkg (fieldOf va 47 16) g)

/-- R328: the trap registers as for any parked access (R158, step 1), the page request to the host, and the parked strand. -/
def parkHost (s : State) (pasid : BitVec 20) (page : Nat) (va : Word) : State :=
  let s1 := modMe (notePark s va) fun t => { t with asked := some page }
  block (modPackage s1 (pkgOfCore s.ctx.core) fun p => askHost p pasid page) (.hostPage pasid page)

/-- The oldest pending late fault of the strand, by sequence order from the ring's next number (R161). -/
def oldestLate (t : Strand) (only : Option Engine) : Option LateFault :=
  (t.late.filter fun f => only.isNone || only = some f.eng).foldl (fun best f =>
    match best with
    | none => some f
    | some b => if (t.seq - b.seq).toNat < (t.seq - f.seq).toNat then some f else some b) none

/-- Delivery of a late fault at the drain point being executed (R161). -/
def deliverLate (s : State) (only : Option Engine) : State :=
  match oldestLate (me s) only with
  | none => s
  | some f =>
    let s1 := modMe s fun t =>
      { t with late := t.late.filter (· ≠ f), clock := clockJoin t.clock f.clock, mfaultSeq := if f.eng = .matrix then 0#64 else t.mfaultSeq }
    let info := BitVec.ofNat 64 (f.seq.toNat * 2 ^ 56 + min f.cancelled 255 * 2 ^ 48 + f.sub.toNat * 2 ^ 40 + f.acc.toNat)
    setEvent (trapEntry s1 s.ctx.core s.ctx.strand (cLateVector + engCode f.eng) 0 s.ctx.pc f.faddr info) .trapped

/-- A word that does not complete. -/
def stopWord (s : State) : Stop → State
  | .trap code sub faddr acc => raise s code sub faddr acc
  | .page pkg va kind lvl => parkStrand s pkg va kind lvl
  | .hostPage pasid page va => parkHost s pasid page va
  | .wait w => block s w
  | .late only => deliverLate s only

/-- Every entry of the strand's ring has settled (R161). -/
def ringSettled (t : Strand) : Bool := t.ring.all fun e => e.state ≠ .inFlight

/-- The entries of the strand's ring that one engine, or any, still has in flight. -/
def inFlightOf (t : Strand) (only : Option Engine) : Bool :=
  t.ring.any fun e => e.state = .inFlight && (only.isNone || only = some e.eng)

/-- A drain point (R161): outside handler mode, wait until the engines it serves have settled, whether or not a fault is known yet,
so that the strand's instruction stream alone fixes the point of delivery; then, once every entry of the ring has settled, the oldest
pending fault. -/
def drain (s : State) (only : Option Engine) : Except Stop Unit :=
  let t := me s
  if t.trap.status.getLsbD 0 then .ok ()
  else if inFlightOf t only then .error (.wait .stall)
  else if (oldestLate t only).isNone then .ok ()
  else if !ringSettled t then .error (.wait .stall)
  else .error (.late only)

/-- A drain point for faults of every engine. -/
def drainAll (s : State) : Except Stop Unit := drain s none

/-- A drain point for faults of the vector unit (R161). -/
def drainVector (s : State) : Except Stop Unit := drain s (some .vector)

/-- The drain points of R161, and `TXRST` (R368): the engines whose faults a word delivers before it executes or is checked (log
entry 24). -/
def drainPoint (i : Instr) (s : State) : Except Stop Unit :=
  match i with
  | .mwait | .waitw .. | .sync | .endOp | .txend | .txrst .. => drainAll s
  | .fence _ p _ => if p.getLsbD 0 then drainAll s else .ok ()
  | .vmovs .. => drainVector s
  | _ => .ok ()

/-- The meaning of a word: the strand that issues it is live, a pending late fault is taken at a drain point, its fields are ones
the form accepts (R47), and it either takes effect whole or stops with none. -/
def issueWord (i : Instr) (s : State) (f : State → Except Stop State) : Out State :=
  if (me s).live then
    match drainPoint i s with
    | .error e => .next (stopWord s e)
    | .ok _ =>
      if wellFormed i then
        match f s with
        | .ok s' => .next s'
        | .error e => .next (stopWord s e)
      else .next (stopWord s (illegal s))
  else .fault .noStrand

/-! ### The end of a word (R102, R46) -/

def loopAddr (r : Word) : Nat := fieldOf r 17 2

/-- `EndCheck` at one level: exit, loop back, or not its end word. -/
def loopStep (l : LoopLevel) (e : TcmAddr) : LoopLevel × Option TcmAddr :=
  if l.count.getLsbD 63 && loopAddr l.stop = e.toNat / 4 then
    if fieldOf l.count 31 0 ≤ 1 then ({ l with count := 0#64 }, none)
    else ({ l with count := l.count - 1#64 }, some ((l.start.setWidth 18) &&& ~~~3#18))
  else (l, none)

/-- `EndCheck` (R102): level 1 first, then level 0, then the next word; past the last word of TCM that is address 0, the model's choice (log
entry 77). -/
def endCheckAt (t : Strand) (e : TcmAddr) : Strand :=
  match loopStep t.loop1 e with
  | (l1, some back) => { t with loop1 := l1, pc := back }
  | (l1, none) =>
    match loopStep t.loop0 e with
    | (l0, some back) => { t with loop1 := l1, loop0 := l0, pc := back }
    | (l0, none) => { t with loop1 := l1, loop0 := l0, pc := e + 4#18 }

/-- Completion without a transfer: the end check, for a lone word or a pair (its C-slot word runs first). -/
def retire (s : State) : State :=
  match s.ctx.slot with
  | .lone | .cslot => modMe s fun t => endCheckAt t s.ctx.last
  | .aslot | .rep => s

/-- The strand's next word is at the target; one beyond TCM is kept whole, for the fault its fetch raises (R99). -/
def goTo (t : Strand) (target : Word) : Strand :=
  { t with pc := target.setWidth 18, beyond := if target.toNat < 2 ^ 18 then none else some target }

/-- Completion with a taken transfer. -/
def jumpTo (s : State) (target : Word) : State := modMe s fun t => goTo t target

/-- The address of the word after the word or its pair; past the last word of TCM it is 0, the model's choice (log entry 77). -/
def nextAddr (s : State) : TcmAddr := s.ctx.last + 4#18

/-! ### Accesses of the strand not performed yet -/

/-- The strand has vector instructions not yet executed. -/
def vqBusy (s : State) : Bool := (myCore s).vq.any fun d => d.strand = s.ctx.strand

/-- The vector instructions that store. -/
def vectorStores : Instr → Bool
  | .vst .. | .vstq .. | .vscatter .. | .hsift .. => true
  | _ => false

/-- The strand has vector stores not yet executed: its later reads of code wait for them (R145, R223), whatever bytes they are to write
(log entry 8). -/
def vqStores (s : State) : Bool := (myCore s).vq.any fun d => d.strand = s.ctx.strand && vectorStores d.instr

/-- A copy command of the strand has not settled. -/
def copiesOut (s : State) : Bool := (myCore s).cq.any fun c => c.strand = s.ctx.strand

/-- A no-return atomic of the strand has not been performed. -/
def atomsPending (s : State) : Bool :=
  (myRegion s).atoms.any fun a => a.core = s.ctx.core && a.strand = s.ctx.strand

/-! ### Dispatch to an engine: the ring (R159, R160) -/

def ringFree (t : Strand) : Bool := (t.ring[t.seq.toNat % 16]'(Nat.mod_lt _ (by decide))).state ≠ .inFlight

/-- A late fault of the engine is pending: a dispatch to it is cancelled (R160). -/
def lateOf (t : Strand) (e : Engine) : Option LateFault := t.late.find? fun f => f.eng = e

def putRing (t : Strand) (i : Nat) (e : RingEntry) : Strand :=
  { t with ring := t.ring.set (i % 16) e (Nat.mod_lt _ (by decide)) }

/-- Address of the word being executed itself: the A-slot word follows the pair's address (R159, `WADDR`). -/
def wordAddr (s : State) : TcmAddr := if slotIsA s then s.ctx.pc + 4#18 else s.ctx.pc

/-- A dispatch takes the next sequence number and ring entry; its state is in flight, or cancelled behind a late fault. -/
def dispatch (s : State) (e : Engine) (st : RingState) : BitVec 8 × State :=
  let t := me s
  let entry : RingEntry := { used := true, word := s.ctx.word, waddr := wordAddr s, seq := t.seq, state := st, eng := e, slotA := slotIsA s, sub := 0 }
  let bump (f : LateFault) : LateFault := if st = .cancelled && f.eng = e then { f with cancelled := f.cancelled + 1 } else f
  (t.seq, modMe s fun t => { putRing t t.seq.toNat entry with seq := t.seq + 1#8, late := t.late.map bump })

/-- A ring entry settles (R159). -/
def settleRing (t : Strand) (seq : BitVec 8) (st : RingState) (sub : BitVec 8) : Strand :=
  let e := t.ring[seq.toNat % 16]'(Nat.mod_lt _ (by decide))
  if e.used && e.seq = seq then putRing t seq.toNat { e with state := st, sub := sub } else t

end Sys2Proof.Machine
end

