-- ==== Sys2Proof/Machine/Flags.lean ====
section
/-! DEFINITION. The core has no flags (R89); this file holds what takes their place: the compare conditions of branches
and `SASSERT` (R55), and the integer functions the scalar instructions compute (R90, R91). -/

namespace Sys2Proof.Machine

/-- The conditions of R55, in code order. -/
inductive Cond where
  | eq
  | ne
  | lt
  | ge
  | ltn
  | gen
  deriving DecidableEq, Repr

def condOf (c : BitVec 3) : Cond :=
  match c.toNat with
  | 0 => .eq
  | 1 => .ne
  | 2 => .lt
  | 3 => .ge
  | 4 => .ltn
  | _ => .gen

/-- `Compare` (R55): `lt` and `ge` as signed values, `ltn` and `gen` as unsigned ones. -/
def compare (c : Cond) (a b : Word) : Bool :=
  match c with
  | .eq => a = b
  | .ne => a ≠ b
  | .lt => a.toInt < b.toInt
  | .ge => a.toInt ≥ b.toInt
  | .ltn => a.toNat < b.toNat
  | .gen => a.toNat ≥ b.toNat

def boolWord (b : Bool) : Word := if b then 1#64 else 0#64

/-! ### Shifts, products, counts (R90) -/

/-- `sh` = UInt(b[5:0]). -/
def shiftOf (b : Word) : Nat := b.toNat % 64

def mulHighS (a b : Word) : Word := (a.signExtend 128 * b.signExtend 128).extractLsb' 64 64
def mulHighU (a b : Word) : Word := (a.setWidth 128 * b.setWidth 128).extractLsb' 64 64

/-- Leading zero bits; 64 for zero. -/
def clz64 (a : Word) : Word := BitVec.ofNat 64 (((List.range 64).find? fun i => a.getLsbD (63 - i)).getD 64)
/-- Trailing zero bits; 64 for zero. -/
def ctz64 (a : Word) : Word := BitVec.ofNat 64 (((List.range 64).find? fun i => a.getLsbD i).getD 64)
def popc64 (a : Word) : Word := BitVec.ofNat 64 ((List.range 64).countP fun i => a.getLsbD i)
/-- Bit i of the result is bit 63 − i. -/
def brev64 (a : Word) : Word := a.reverse
/-- Byte i of the result is byte 7 − i. -/
def bswap64 (a : Word) : Word :=
  a.extractLsb' 0 8 ++ a.extractLsb' 8 8 ++ a.extractLsb' 16 8 ++ a.extractLsb' 24 8 ++
    a.extractLsb' 32 8 ++ a.extractLsb' 40 8 ++ a.extractLsb' 48 8 ++ a.extractLsb' 56 8

/-! ### Division (R91) -/

def minInt64 : Word := 0x8000000000000000#64

def divS (a b : Word) : Word :=
  if b = 0#64 then BitVec.allOnes 64
  else if a = minInt64 && b = BitVec.allOnes 64 then minInt64
  else BitVec.ofInt 64 (a.toInt.tdiv b.toInt)

def divU (a b : Word) : Word := if b = 0#64 then BitVec.allOnes 64 else a / b

def remS (a b : Word) : Word :=
  if b = 0#64 then a
  else if a = minInt64 && b = BitVec.allOnes 64 then 0#64
  else BitVec.ofInt 64 (a.toInt - b.toInt * a.toInt.tdiv b.toInt)

def remU (a b : Word) : Word := if b = 0#64 then a else a % b

/-! ### Exact integers narrowed (R73) -/

/-- `Sat` (R73). -/
def satInt (x lo hi : Int) : Int := if x < lo then lo else if hi < x then hi else x

end Sys2Proof.Machine
end

