-- ==== Sys2Proof/Machine/Operands.lean ====
section
/-! DEFINITION. Operand forms: immediates and offsets (R52), code targets, scaled addresses, the values and writable fields
of the control registers by selector (R58, R87, and the field maps of each chapter). -/

namespace Sys2Proof.Machine

def simm14 (i : BitVec 14) : Word := i.signExtend 64
def uimm14 (i : BitVec 14) : Word := i.setWidth 64

/-- A code target at a signed word offset from the word or its pair; it may lie beyond TCM (R99; log entry 13). -/
def relTarget (p : TcmAddr) (off : Int) : Word := p.setWidth 64 + BitVec.ofInt 64 (off * 4)

/-- `off11` of `LD` and `ST`, in units of the access size (R52). -/
def scaledAddr (base : Word) (o : BitVec 11) (n : Nat) : Word := base + BitVec.ofInt 64 (o.toInt * n)

/-- A register value that is no code address: bits above 17 or below 2 set (R79, R98). -/
def badTarget (x : Word) : Bool := x.extractLsb' 18 46 ≠ 0#46 || x.extractLsb' 0 2 ≠ 0#2

/-! ### Control registers (R58, R87) -/

/-- Value of a control register as its own strand reads it. `FAULTGEN` reads as zero to a strand (R330). -/
def crValue (s : State) (core : Nat) (n : Fin 4) (sel : Nat) : Word :=
  let x := getCore s core
  let t := coreStrand x n
  match sel with
  | 0x000 => t.trap.status
  | 0x001 => t.trap.cause
  | 0x002 => t.trap.epc
  | 0x003 => t.trap.faultAddr
  | 0x004 => t.trap.faultInfo
  | 0x005 => t.trap.origPc
  | 0x006 => t.trap.unrollIdx
  | 0x007 => x.handler
  | 0x008 => x.saveArea
  | 0x010 => t.strandId
  | 0x011 => x.coreId
  | 0x012 => x.pkgId
  | 0x013 => x.superstep
  | 0x014 => x.phase
  | 0x020 => x.xplan
  | 0x021 => x.pendBytes
  | 0x022 => x.rqBase
  | 0x023 => x.rqLimit
  | 0x024 => x.rqHead
  | 0x025 => x.rqTail
  | 0x030 => x.landBase
  | 0x031 => x.guardLo
  | 0x032 => x.guardHi
  | 0x040 => t.loop0.start
  | 0x041 => t.loop0.stop
  | 0x042 => t.loop0.count
  | 0x044 => t.loop1.start
  | 0x045 => t.loop1.stop
  | 0x046 => t.loop1.count
  | 0x048 => t.repState
  | 0x050 => x.mx.fmtA
  | 0x051 => x.mx.fmtB
  | 0x052 => x.mx.scaleA
  | 0x053 => x.mx.scaleB
  | 0x054 => x.mx.stipA
  | 0x055 => x.mx.stipB
  | 0x056 => t.mseq
  | 0x057 => t.mfaultSeq
  | 0x060 => x.ceIdx[0]
  | 0x061 => x.ceIdx[1]
  | 0x062 => x.ceIdx[2]
  | 0x063 => x.ceIdx[3]
  | 0x064 => x.ceIdx[4]
  | 0x065 => x.ceState
  | 0x070 => (getPackage s (pkgOfCore core)).defectSig
  | _ => 0#64

/-- The RW fields of a control register, as a mask; writes to the other bits are ignored (R6, R173). -/
def crMask (sel : Nat) : Word :=
  match sel with
  | 0x001 => 0xFF#64
  | 0x002 => 0x3FFFC#64
  | 0x003 => BitVec.allOnes 64
  | 0x004 => 0xFFFFFFFFC0FFFFFF#64
  | 0x005 => 0x0000FFFF000FFFFF#64
  | 0x006 => 0xFFF#64
  | 0x007 => 0x0000FFFFFFFFFFFF#64
  | 0x008 => 0x3E000#64
  | 0x020 => 0x3FFE1#64
  | 0x022 | 0x023 => 0x3FFC0#64
  | 0x024 => 0xFFF#64
  | 0x030 => 0x3F000#64
  | 0x031 | 0x032 => 0x3FF00#64
  | 0x040 | 0x041 | 0x044 | 0x045 => 0x3FFFC#64
  | 0x042 | 0x046 => 0x80000000FFFFFFFF#64
  | 0x048 => 0x803FFFFFFF03FFFC#64
  | 0x050 | 0x051 => 0xF#64
  | 0x052 | 0x053 => BitVec.allOnes 64
  | 0x054 | 0x055 => 0x7#64
  | 0x060 | 0x061 | 0x062 | 0x063 | 0x064 => 0xFFFFFFFF#64
  | 0x065 => 0x80FFFFFFF0000000#64
  | _ => 0#64

/-- A register of one strand set. -/
def putStrandCr (t : Strand) (sel : Nat) (v : Word) : Strand :=
  match sel with
  | 0x000 => { t with trap := { t.trap with status := v } }
  | 0x001 => { t with trap := { t.trap with cause := v } }
  | 0x002 => { t with trap := { t.trap with epc := v } }
  | 0x003 => { t with trap := { t.trap with faultAddr := v } }
  | 0x004 => { t with trap := { t.trap with faultInfo := v } }
  | 0x005 => { t with trap := { t.trap with origPc := v } }
  | 0x006 => { t with trap := { t.trap with unrollIdx := v } }
  | 0x010 => { t with strandId := v }
  | 0x040 => { t with loop0 := { t.loop0 with start := v } }
  | 0x041 => { t with loop0 := { t.loop0 with stop := v } }
  | 0x042 => { t with loop0 := { t.loop0 with count := v } }
  | 0x044 => { t with loop1 := { t.loop1 with start := v } }
  | 0x045 => { t with loop1 := { t.loop1 with stop := v } }
  | 0x046 => { t with loop1 := { t.loop1 with count := v } }
  | 0x048 => { t with repState := v }
  | 0x056 => { t with mseq := v }
  | 0x057 => { t with mfaultSeq := v }
  | _ => t

/-- A register of the core set. -/
def putCoreCr (x : Core) (sel : Nat) (v : Word) : Core :=
  match sel with
  | 0x007 => { x with handler := v }
  | 0x008 => { x with saveArea := v }
  | 0x011 => { x with coreId := v }
  | 0x012 => { x with pkgId := v }
  | 0x013 => { x with superstep := v }
  | 0x014 => { x with phase := v }
  | 0x020 => { x with xplan := v }
  | 0x021 => { x with pendBytes := v }
  | 0x022 => { x with rqBase := v }
  | 0x023 => { x with rqLimit := v }
  | 0x024 => { x with rqHead := v }
  | 0x025 => { x with rqTail := v }
  | 0x030 => { x with landBase := v }
  | 0x031 => { x with guardLo := v }
  | 0x032 => { x with guardHi := v }
  | 0x050 => { x with mx := { x.mx with fmtA := v } }
  | 0x051 => { x with mx := { x.mx with fmtB := v } }
  | 0x052 => { x with mx := { x.mx with scaleA := v } }
  | 0x053 => { x with mx := { x.mx with scaleB := v } }
  | 0x054 => { x with mx := { x.mx with stipA := v } }
  | 0x055 => { x with mx := { x.mx with stipB := v } }
  | 0x060 => { x with ceIdx := x.ceIdx.set 0 v }
  | 0x061 => { x with ceIdx := x.ceIdx.set 1 v }
  | 0x062 => { x with ceIdx := x.ceIdx.set 2 v }
  | 0x063 => { x with ceIdx := x.ceIdx.set 3 v }
  | 0x064 => { x with ceIdx := x.ceIdx.set 4 v }
  | 0x065 => { x with ceState := v }
  | _ => x

/-- Per-strand registers of R87. -/
def crPerStrand (sel : Nat) : Bool :=
  sel ≤ 0x006 || sel = 0x010 || (0x040 ≤ sel && sel ≤ 0x048) || sel = 0x056 || sel = 0x057

/-- Per-package registers of R87: the same value in every core, no owner tag. -/
def crPerPackage (sel : Nat) : Bool := sel = 0x070 || sel = 0x071

def crPut (s : State) (core : Nat) (n : Fin 4) (sel : Nat) (v : Word) : State :=
  if crPerStrand sel then modStrand s core n fun t => putStrandCr t sel v
  else modCore s core fun x => putCoreCr x sel v

/-- Writing a register changes its RW fields alone. -/
def crMerge (old new mask : Word) : Word := (old &&& ~~~mask) ||| (new &&& mask)

end Sys2Proof.Machine
end

