-- ==== Sys2Proof/Machine/Alu.lean ====
section
/-! DEFINITION. Integer arithmetic (R89 to R95): the register, immediate, shift, `LUI` and `INSH` forms. -/

namespace Sys2Proof.Machine

/-- An integer word: its result into `sD`, and completion (R89). -/
def integer (i : Instr) (d : BitVec 5) (f : State → Word) (s : State) : Out State :=
  issueWord i s fun s => .ok (retire (writeS s d (f s)))

/-- `ADD` (R90). -/
def execAdd (d a b : BitVec 5) (s : State) : Out State :=
  integer (.add d a b) d (fun s => readS s a + readS s b) s

/-- `SUB` (R90). -/
def execSub (d a b : BitVec 5) (s : State) : Out State :=
  integer (.sub d a b) d (fun s => readS s a - readS s b) s

/-- `AND` (R90). -/
def execAnd (d a b : BitVec 5) (s : State) : Out State :=
  integer (.and d a b) d (fun s => readS s a &&& readS s b) s

/-- `OR` (R90). -/
def execOr (d a b : BitVec 5) (s : State) : Out State :=
  integer (.or d a b) d (fun s => readS s a ||| readS s b) s

/-- `XOR` (R90). -/
def execXor (d a b : BitVec 5) (s : State) : Out State :=
  integer (.xor d a b) d (fun s => readS s a ^^^ readS s b) s

/-- `ANDN` (R90). -/
def execAndn (d a b : BitVec 5) (s : State) : Out State :=
  integer (.andn d a b) d (fun s => readS s a &&& ~~~(readS s b)) s

/-- `SLL` (R90: zeros enter). -/
def execSll (d a b : BitVec 5) (s : State) : Out State :=
  integer (.sll d a b) d (fun s => readS s a <<< shiftOf (readS s b)) s

/-- `SRL` (R90: zeros enter). -/
def execSrl (d a b : BitVec 5) (s : State) : Out State :=
  integer (.srl d a b) d (fun s => readS s a >>> shiftOf (readS s b)) s

/-- `SRA` (R90: copies of bit 63 enter). -/
def execSra (d a b : BitVec 5) (s : State) : Out State :=
  integer (.sra d a b) d (fun s => (readS s a).sshiftRight (shiftOf (readS s b))) s

/-- `ROTR` (R90). -/
def execRotr (d a b : BitVec 5) (s : State) : Out State :=
  integer (.rotr d a b) d (fun s => (readS s a).rotateRight (shiftOf (readS s b))) s

/-- `MUL` (R90: the low 64 bits). -/
def execMul (d a b : BitVec 5) (s : State) : Out State :=
  integer (.mul d a b) d (fun s => readS s a * readS s b) s

/-- `MULH` (R90). -/
def execMulh (d a b : BitVec 5) (s : State) : Out State :=
  integer (.mulh d a b) d (fun s => mulHighS (readS s a) (readS s b)) s

/-- `MULHN` (R90). -/
def execMulhn (d a b : BitVec 5) (s : State) : Out State :=
  integer (.mulhn d a b) d (fun s => mulHighU (readS s a) (readS s b)) s

/-- `DIV` (R90, R91). -/
def execDiv (d a b : BitVec 5) (s : State) : Out State :=
  integer (.div d a b) d (fun s => divS (readS s a) (readS s b)) s

/-- `DIVN` (R90, R91). -/
def execDivn (d a b : BitVec 5) (s : State) : Out State :=
  integer (.divn d a b) d (fun s => divU (readS s a) (readS s b)) s

/-- `REM` (R90, R91). -/
def execRem (d a b : BitVec 5) (s : State) : Out State :=
  integer (.rem d a b) d (fun s => remS (readS s a) (readS s b)) s

/-- `REMN` (R90, R91). -/
def execRemn (d a b : BitVec 5) (s : State) : Out State :=
  integer (.remn d a b) d (fun s => remU (readS s a) (readS s b)) s

/-- `MIN` (R90). -/
def execMin (d a b : BitVec 5) (s : State) : Out State :=
  integer (.min d a b) d (fun s => if (readS s a).toInt ≤ (readS s b).toInt then readS s a else readS s b) s

/-- `MAX` (R90). -/
def execMax (d a b : BitVec 5) (s : State) : Out State :=
  integer (.max d a b) d (fun s => if (readS s a).toInt ≥ (readS s b).toInt then readS s a else readS s b) s

/-- `MINN` (R90). -/
def execMinn (d a b : BitVec 5) (s : State) : Out State :=
  integer (.minn d a b) d (fun s => if (readS s a).toNat ≤ (readS s b).toNat then readS s a else readS s b) s

/-- `MAXN` (R90). -/
def execMaxn (d a b : BitVec 5) (s : State) : Out State :=
  integer (.maxn d a b) d (fun s => if (readS s a).toNat ≥ (readS s b).toNat then readS s a else readS s b) s

/-- `SLT` (R90). -/
def execSlt (d a b : BitVec 5) (s : State) : Out State :=
  integer (.slt d a b) d (fun s => boolWord (compare .lt (readS s a) (readS s b))) s

/-- `SLTN` (R90). -/
def execSltn (d a b : BitVec 5) (s : State) : Out State :=
  integer (.sltn d a b) d (fun s => boolWord (compare .ltn (readS s a) (readS s b))) s

/-- `SEQ` (R90). -/
def execSeq (d a b : BitVec 5) (s : State) : Out State :=
  integer (.seq d a b) d (fun s => boolWord (compare .eq (readS s a) (readS s b))) s

/-- `CLZ` (R90). -/
def execClz (d a : BitVec 5) (s : State) : Out State :=
  integer (.clz d a) d (fun s => clz64 (readS s a)) s

/-- `CTZ` (R90). -/
def execCtz (d a : BitVec 5) (s : State) : Out State :=
  integer (.ctz d a) d (fun s => ctz64 (readS s a)) s

/-- `POPC` (R90). -/
def execPopc (d a : BitVec 5) (s : State) : Out State :=
  integer (.popc d a) d (fun s => popc64 (readS s a)) s

/-- `BREV` (R90). -/
def execBrev (d a : BitVec 5) (s : State) : Out State :=
  integer (.brev d a) d (fun s => brev64 (readS s a)) s

/-- `BSWAP` (R90). -/
def execBswap (d a : BitVec 5) (s : State) : Out State :=
  integer (.bswap d a) d (fun s => bswap64 (readS s a)) s

/-- `ADDI` (R92). -/
def execAddi (d a : BitVec 5) (i : BitVec 14) (s : State) : Out State :=
  integer (.addi d a i) d (fun s => readS s a + simm14 i) s

/-- `ANDI` (R92). -/
def execAndi (d a : BitVec 5) (i : BitVec 14) (s : State) : Out State :=
  integer (.andi d a i) d (fun s => readS s a &&& uimm14 i) s

/-- `ORI` (R92). -/
def execOri (d a : BitVec 5) (i : BitVec 14) (s : State) : Out State :=
  integer (.ori d a i) d (fun s => readS s a ||| uimm14 i) s

/-- `XORI` (R92). -/
def execXori (d a : BitVec 5) (i : BitVec 14) (s : State) : Out State :=
  integer (.xori d a i) d (fun s => readS s a ^^^ uimm14 i) s

/-- `SLTI` (R92). -/
def execSlti (d a : BitVec 5) (i : BitVec 14) (s : State) : Out State :=
  integer (.slti d a i) d (fun s => boolWord (compare .lt (readS s a) (simm14 i))) s

/-- `SLTIN` (R92: sign-extended, then compared as unsigned). -/
def execSltin (d a : BitVec 5) (i : BitVec 14) (s : State) : Out State :=
  integer (.sltin d a i) d (fun s => boolWord (compare .ltn (readS s a) (simm14 i))) s

/-- `SLLI` (R93). -/
def execSlli (d a : BitVec 5) (n : BitVec 6) (s : State) : Out State :=
  integer (.slli d a n) d (fun s => readS s a <<< n.toNat) s

/-- `SRLI` (R93). -/
def execSrli (d a : BitVec 5) (n : BitVec 6) (s : State) : Out State :=
  integer (.srli d a n) d (fun s => readS s a >>> n.toNat) s

/-- `SRAI` (R93). -/
def execSrai (d a : BitVec 5) (n : BitVec 6) (s : State) : Out State :=
  integer (.srai d a n) d (fun s => (readS s a).sshiftRight n.toNat) s

/-- `ROTRI` (R93). -/
def execRotri (d a : BitVec 5) (n : BitVec 6) (s : State) : Out State :=
  integer (.rotri d a n) d (fun s => (readS s a).rotateRight n.toNat) s

/-- `LUI` (R94): the sign-extended immediate times 2^14. -/
def execLui (d : BitVec 5) (i : BitVec 19) (s : State) : Out State :=
  integer (.lui d i) d (fun _ => i.signExtend 64 <<< 14) s

/-- One halfword of a register replaced (R95). -/
def insertHalf (x : Word) (h : BitVec 2) (i : BitVec 16) : Word :=
  (x &&& ~~~(0xFFFF#64 <<< (16 * h.toNat))) ||| (i.setWidth 64 <<< (16 * h.toNat))

/-- `INSH` (R95): reads its destination. -/
def execInsh (d : BitVec 5) (h : BitVec 2) (i : BitVec 16) (s : State) : Out State :=
  integer (.insh d h i) d (fun s => insertHalf (readS s d) h i) s

end Sys2Proof.Machine
end

