-- ==== Sys2Proof/Machine/Float.lean ====
section
/-! DEFINITION. The number formats (R195 to R201): exact values, rounding to nearest even, exact arithmetic and comparison,
conversions, correctly rounded reciprocal and power of two (R237). -/

namespace Sys2Proof.Machine

/-- The floating-point formats (R196). -/
inductive FloatFmt where
  | f32
  | bf16
  | e4m3
  | e5m2
  deriving DecidableEq, Repr

/-- Fraction width. -/
def fracBits : FloatFmt → Nat
  | .f32 => 23
  | .bf16 => 7
  | .e4m3 => 3
  | .e5m2 => 2

def expBits : FloatFmt → Nat
  | .f32 | .bf16 => 8
  | .e4m3 => 4
  | .e5m2 => 5

def fmtBias : FloatFmt → Nat
  | .f32 | .bf16 => 127
  | .e4m3 => 7
  | .e5m2 => 15

def fmtWidth (f : FloatFmt) : Nat := 1 + expBits f + fracBits f

/-- Canonical NaN (R196). -/
def canonNaN : FloatFmt → Nat
  | .f32 => 0x7FC00000
  | .bf16 => 0x7FC0
  | .e4m3 => 0x7F
  | .e5m2 => 0x7E

/-- The code, without sign, at and above which a rounded finite magnitude overflows, and what it becomes (R197). -/
def overflowAt : FloatFmt → Nat × Nat
  | .f32 => (0x7F800000, 0x7F800000)
  | .bf16 => (0x7F80, 0x7F80)
  | .e4m3 => (0x7F, 0x7E)
  | .e5m2 => (0x7C, 0x7B)

/-- What an infinity becomes in the format, without sign (R197). -/
def infCode : FloatFmt → Nat
  | .f32 => 0x7F800000
  | .bf16 => 0x7F80
  | .e4m3 => 0x7E
  | .e5m2 => 0x7C

/-- The exact value `man × 2^exp`, a zero taking the sign given. -/
def mkVal (neg : Bool) (man : Nat) (exp : Int) : Val :=
  if man = 0 then .zero neg else .fin (if neg then -(man : Int) else man) exp

/-- The value a code denotes (R196). -/
def floatVal (f : FloatFmt) (code : Nat) : Val :=
  let fw := fracBits f
  let s := code / 2 ^ (fmtWidth f - 1) % 2 = 1
  let e := code / 2 ^ fw % 2 ^ expBits f
  let fr := code % 2 ^ fw
  let top := 2 ^ expBits f - 1
  match f with
  | .e4m3 =>
    if e = 15 && fr = 7 then .nan
    else if e = 0 then mkVal s fr (1 - 7 - 3)
    else mkVal s (8 + fr) ((e : Int) - 7 - 3)
  | _ =>
    if e = top then (if fr = 0 then .inf s else .nan)
    else if e = 0 then mkVal s fr (1 - (fmtBias f : Int) - fw)
    else mkVal s (2 ^ fw + fr) ((e : Int) - fmtBias f - fw)

/-! ### Rounding (R197) -/

/-- num / den rounded to the nearest integer, a tie to the even one. -/
def rneDiv (num den : Nat) : Nat :=
  let q := num / den
  let r := num % den
  if den < 2 * r || (2 * r = den && q % 2 = 1) then q + 1 else q

/-- Floor of log2 (num / den). -/
def floorLog (num den : Nat) : Int :=
  let e : Int := (Nat.log2 num : Int) - Nat.log2 den
  if num * 2 ^ (-e).toNat < den * 2 ^ e.toNat then e - 1 else e

/-- `RNE` of the positive rational num / den, as a code without sign. -/
def rneCode (f : FloatFmt) (num den : Nat) : Nat :=
  let emin : Int := 1 - fmtBias f
  let e := max (floorLog num den) emin
  let q := e - fracBits f
  let m := rneDiv (num * 2 ^ (-q).toNat) (den * 2 ^ q.toNat)
  let code := m + (e - emin).toNat * 2 ^ fracBits f
  if (overflowAt f).1 ≤ code then (overflowAt f).2 else code

def signCode (f : FloatFmt) (neg : Bool) (code : Nat) : Nat := (if neg then 2 ^ (fmtWidth f - 1) else 0) + code

/-- `RNE` (R197). -/
def rneFloat (f : FloatFmt) (v : Val) : Nat :=
  match v with
  | .nan => canonNaN f
  | .inf n => signCode f n (infCode f)
  | .zero n => signCode f n 0
  | .fin man exp => signCode f (man < 0) (rneCode f (man.natAbs * 2 ^ exp.toNat) (2 ^ (-exp).toNat))

/-- `RNE` of a rational to the nearest integer (R73). -/
def rneInt (man exp : Int) : Int :=
  let m := rneDiv (man.natAbs * 2 ^ exp.toNat) (2 ^ (-exp).toNat)
  if man < 0 then -(m : Int) else m

/-- `RTZ` (R73). -/
def rtzInt (man exp : Int) : Int :=
  let m := man.natAbs * 2 ^ exp.toNat / 2 ^ (-exp).toNat
  if man < 0 then -(m : Int) else m

/-! ### Exact arithmetic (R227) -/

def valNeg : Val → Val
  | .fin m e => .fin (-m) e
  | .zero n => .zero !n
  | .inf n => .inf !n
  | .nan => .nan

/-- An exact sum of two terms; a zero sum of non-zero terms is +0, and −0 only of two zeros of negative sign. -/
def valAdd (a b : Val) : Val :=
  match a, b with
  | .nan, _ | _, .nan => .nan
  | .inf x, .inf y => if x = y then .inf x else .nan
  | .inf x, _ => .inf x
  | _, .inf y => .inf y
  | .zero x, .zero y => .zero (x && y)
  | .zero _, v => v
  | v, .zero _ => v
  | .fin m1 e1, .fin m2 e2 =>
    let e := min e1 e2
    let m := m1 * 2 ^ (e1 - e).toNat + m2 * 2 ^ (e2 - e).toNat
    if m = 0 then .zero false else .fin m e

def valSign : Val → Bool
  | .fin m _ => m < 0
  | .zero n => n
  | .inf n => n
  | .nan => false

def valMul (a b : Val) : Val :=
  match a, b with
  | .nan, _ | _, .nan => .nan
  | .inf x, .zero _ => let _ := x; .nan
  | .zero _, .inf _ => .nan
  | .inf x, v => .inf (x ≠ valSign v)
  | v, .inf y => .inf (valSign v ≠ y)
  | .zero x, v => .zero (x ≠ valSign v)
  | v, .zero y => .zero (valSign v ≠ y)
  | .fin m1 e1, .fin m2 e2 => .fin (m1 * m2) (e1 + e2)

/-- A value scaled by a power of two. -/
def valScale (v : Val) (k : Int) : Val :=
  match v with
  | .fin m e => .fin m (e + k)
  | v => v

def isNaN : Val → Bool
  | .nan => true
  | _ => false

def isZero : Val → Bool
  | .zero _ => true
  | _ => false

/-- a < b as numbers; zeros are equal, and a comparison with NaN is false (R228). -/
def valLt (a b : Val) : Bool :=
  match a, b with
  | .nan, _ | _, .nan => false
  | .inf x, .inf y => x && !y
  | .inf x, _ => x
  | _, .inf y => !y
  | .zero _, .zero _ => false
  | .zero _, .fin m _ => 0 < m
  | .fin m _, .zero _ => m < 0
  | .fin m1 e1, .fin m2 e2 =>
    let e := min e1 e2
    m1 * 2 ^ (e1 - e).toNat < m2 * 2 ^ (e2 - e).toNat

def valEq (a b : Val) : Bool := !isNaN a && !isNaN b && !valLt a b && !valLt b a

/-- The order of `VMIN` and `VMAX`: −0 below +0 (R227). -/
def valBelow (a b : Val) : Bool :=
  match a, b with
  | .zero x, .zero y => x && !y
  | a, b => valLt a b

/-- |a|. -/
def valAbs (v : Val) : Val := if valSign v then valNeg v else v

/-- The exact value of an integer; zero is +0 (R200). -/
def intVal (x : Int) : Val := if x = 0 then .zero false else .fin x 0

/-! ### Element types (R195, R218) -/

def floatOf (t : BitVec 4) : Option FloatFmt :=
  match t.toNat with
  | 0x8 => some .f32
  | 0x9 => some .bf16
  | 0xA => some .e4m3
  | 0xB => some .e5m2
  | _ => none

/-- `.i` types, among the integers. -/
def isSigned (t : BitVec 4) : Bool := t.toNat < 4

/-- Width in bits of a type of set B. -/
def bitsOf (t : BitVec 4) : Nat := 8 * typeWidth t

/-- Range of an integer type (R199). -/
def intRange (t : BitVec 4) : Int × Int :=
  if isSigned t then (-(2 ^ (bitsOf t - 1) : Nat), (2 ^ (bitsOf t - 1) : Nat) - 1) else (0, (2 ^ bitsOf t : Nat) - 1)

/-- The integer an element of an integer type holds. -/
def intOf (t : BitVec 4) (x : Nat) : Int :=
  if isSigned t && 2 ^ (bitsOf t - 1) ≤ x then (x : Int) - (2 ^ bitsOf t : Nat) else x

/-- An integer modulo 2^N, as an element. -/
def wrapInt (n : Nat) (x : Int) : Nat := (x % (2 ^ n : Nat)).toNat

/-- The exact value of an element of a type of set B. -/
def elemVal (t : BitVec 4) (x : Nat) : Val :=
  match floatOf t with
  | some f => floatVal f x
  | none => intVal (intOf t x)

/-- `Sat(RTZ(x), lo, hi)`; ±∞ gives hi or lo and NaN gives 0 (R200). -/
def toIntElem (t : BitVec 4) (v : Val) : Nat :=
  let (lo, hi) := intRange t
  match v with
  | .nan => 0
  | .zero _ => 0
  | .inf n => wrapInt (bitsOf t) (if n then lo else hi)
  | .fin m e => wrapInt (bitsOf t) (satInt (rtzInt m e) lo hi)

/-- A value converted to an element of a type of set B (R200). -/
def toElem (t : BitVec 4) (v : Val) : Nat :=
  match floatOf t with
  | some f => rneFloat f v
  | none => toIntElem t v

/-! ### Reciprocal and power of two (R237) -/

/-- RNE(1 / a, F), with the special cases of R237. -/
def recipCode (f : FloatFmt) (v : Val) : Nat :=
  match v with
  | .nan => canonNaN f
  | .inf n => signCode f n 0
  | .zero n => signCode f n (infCode f)
  | .fin m e => signCode f (m < 0) (rneCode f (2 ^ (-e).toNat) (m.natAbs * 2 ^ e.toNat))

/-- A lower bound of ln 2 × 2^p, from the series of 1 / (k 2^k). -/
def ln2Fix (p : Nat) : Nat := (List.range p).foldl (fun acc i => acc + 2 ^ p / ((i + 1) * 2 ^ (i + 1))) 0

/-- A lower bound of e^(t / 2^p) × 2^p by its series, `n` terms. -/
def expFix (p t : Nat) : Nat → Nat → Nat → Nat → Nat
  | 0, _, _, acc => acc
  | n + 1, k, term, acc => expFix p t n (k + 1) (term * t / (2 ^ p * (k + 1))) (acc + term)

/-- A lower bound of 2^(num / den) × 2^p, for 0 ≤ num / den < 1, short of it by less than 16 p. -/
def exp2Fix (p num den : Nat) : Nat := expFix p (num * ln2Fix p / den) p 0 (2 ^ p) 0

/-- The code of 2^(n + num / den), where both ends of an interval that holds the value round to it; wider precision is
tried while they do not. -/
def exp2Round (f : FloatFmt) (n : Int) (num den : Nat) : Nat → Nat → Nat
  | 0, p => rneCode f (exp2Fix p num den * 2 ^ n.toNat) (2 ^ p * 2 ^ (-n).toNat)
  | fuel + 1, p =>
    let lo := exp2Fix p num den
    let c := rneCode f (lo * 2 ^ n.toNat) (2 ^ p * 2 ^ (-n).toNat)
    if c = rneCode f ((lo + 16 * p) * 2 ^ n.toNat) (2 ^ p * 2 ^ (-n).toNat) then c
    else exp2Round f n num den fuel (2 * p)

/-- RNE(2^a, F), with the special cases of R237. -/
def exp2Code (f : FloatFmt) (v : Val) : Nat :=
  match v with
  | .nan => canonNaN f
  | .inf n => if n then 0 else infCode f
  | .zero _ => rneCode f 1 1
  | .fin m e =>
    if valLt (.fin 256 0) v then infCode f
    else if valLt v (.fin (-256) 0) then 0
    else
      let den : Nat := 2 ^ (-e).toNat
      let num : Int := m * 2 ^ e.toNat
      let n := num / (den : Int)
      let r := (num % (den : Int)).toNat
      if r = 0 then rneCode f (2 ^ n.toNat) (2 ^ (-n).toNat) else exp2Round f n r den 3 256

end Sys2Proof.Machine
end

