-- ==== Sys2Proof/Machine/Stipple.lean ====
section
/-! DEFINITION. Q8 and INT4X codes, the stipple offset, quantising and decoding, and stipple views (R73, R74, R201 to R217). -/

namespace Sys2Proof.Machine

/-- `Stipple` (R73, R205): the offset, an odd multiple of 1/512. -/
def stipple (seed index : Word) : Val :=
  .fin (2 * ((mix64 seed index).toNat / 2 ^ 56 : Nat) - 255) (-9)

/-! ### INT4X words (R74, R204) -/

inductive QKind where
  | code (val : Int)
  | outlier (e4m3 : Nat)
  | zero
  deriving DecidableEq, Repr

/-- The 4-bit slot of a word. -/
def slotOf (w : Nat) (i : Nat) : Nat := w / 2 ^ (4 * i) % 16

/-- `DecodeQ4X` from slot `i` on, with `fuel` slots at most. -/
def decodeSlots (w : Nat) : Nat → Nat → List QKind
  | 0, _ => []
  | fuel + 1, i =>
    if 8 ≤ i then []
    else
      let c := slotOf w i
      if c = 8 && i ≤ 5 then
        .outlier (slotOf w (i + 1) * 16 + slotOf w (i + 2)) :: .zero :: .zero :: decodeSlots w fuel (i + 3)
      else if c = 8 then .zero :: decodeSlots w fuel (i + 1)
      else .code (if c < 8 then (c : Int) else (c : Int) - 16) :: decodeSlots w fuel (i + 1)

/-- `DecodeQ4X` (R73): the eight kinds of a word. -/
def decodeQ4X (w : Nat) : List QKind := decodeSlots w 8 0

/-! ### Decoding (R208) -/

/-- `DecodeStippled` (R208): every zero it returns is +0. -/
def decodeStippled (k : QKind) (e : Nat) (seed : Word) (n : Nat) (zp : Bool) : Val :=
  if e = 255 then .nan
  else
    let d := stipple seed (BitVec.ofNat 64 n)
    let value (m : Val) : Val := valScale (valAdd m (valNeg d)) ((e : Int) - 127)
    match k with
    | .zero => .zero false
    | .code v => if zp && v = 0 then .zero false else value (intVal v)
    | .outlier x => if x = 0x7F || x = 0xFF then .nan else value (floatVal .e4m3 x)

/-! ### Quantising (R206, R207) -/

/-- What one INT4X slot stores: a code, or an escape with its E4M3 code. -/
def quantiseSlot (x : Val) (e : Nat) (d : Val) (zp : Bool) (i : Nat) : Nat ⊕ Nat :=
  if zp && isZero x then .inl 0
  else
    match x with
    | .nan => if i ≤ 5 then .inr 0x7F else .inl 0
    | x =>
      let v := valAdd (valScale x (127 - (e : Int))) d
      match v with
      | .inf n => if i ≤ 5 then .inr (rneFloat .e4m3 v) else .inl (if n then 9 else 7)
      | .fin m p =>
        let q := rneInt m p
        if -7 ≤ q && q ≤ 7 then .inl (wrapInt 4 q)
        else if i ≤ 5 then .inr (rneFloat .e4m3 v)
        else .inl (wrapInt 4 (satInt q (-7) 7))
      | _ => .inl 0

/-- `QuantiseQ4X` from slot `i` on, adding to the word so far (R206). -/
def quantiseSlots (xs : List Val) (ns : List Nat) (e : Nat) (seed : Word) (zp : Bool) : Nat → Nat → Nat → Nat
  | 0, _, w => w
  | fuel + 1, i, w =>
    if 8 ≤ i then w
    else
      let d := stipple seed (BitVec.ofNat 64 (ns.getD i 0))
      match quantiseSlot (xs.getD i .nan) e d zp i with
      | .inl c => quantiseSlots xs ns e seed zp fuel (i + 1) (w + c * 2 ^ (4 * i))
      | .inr x =>
        quantiseSlots xs ns e seed zp fuel (i + 3)
          (w + 8 * 2 ^ (4 * i) + x / 16 * 2 ^ (4 * i + 4) + x % 16 * 2 ^ (4 * i + 8))

/-- `QuantiseQ4X` (R206). -/
def quantiseQ4X (xs : List Val) (e : Nat) (seed : Word) (ns : List Nat) (zp : Bool) : Nat :=
  if e = 255 then 0 else quantiseSlots xs ns e seed zp 8 0 0

/-- `QuantiseQ8` (R207). -/
def quantiseQ8 (x : Val) (e : Nat) (seed : Word) (n : Nat) (zp : Bool) : Nat :=
  if e = 255 || isNaN x || (zp && isZero x) then 0
  else
    match valAdd (valScale x (127 - (e : Int))) (stipple seed (BitVec.ofNat 64 n)) with
    | .inf neg => if neg then 0x80 else 0x7F
    | .fin m p => wrapInt 8 (satInt (rneInt m p) (-128) 127)
    | _ => 0

/-! ### Views (R209 to R214) -/

structure ViewDesc where
  seed : Word
  fmt : BitVec 4
  zp : Bool
  skip : Nat
  cshape : List Nat
  origin : List Nat
  vext : List Nat
  vstride : List Int
  deriving DecidableEq, Repr

/-- Product of the extents. -/
def prodOf (l : List Nat) : Nat := l.foldl (· * ·) 1

/-- V of R213. -/
def viewSize (d : ViewDesc) : Nat := prodOf d.vext

/-- TCM offset of the descriptor a view register names (R209). -/
def descAddr (sv : Word) : Nat := fieldOf sv 17 7 * 128

/-- The low `n` bytes at an offset of a byte list. -/
def bytesNat (bs : List Byte) (off n : Nat) : Nat := leNat ((bs.drop off).take n)

/-- A descriptor's 128 bytes, valid for a format by R212; its place is checked by the reader. -/
def parseView (bs : List Byte) (fmt : BitVec 4) : Option ViewDesc :=
  let flags := bytesNat bs 8 8
  let cdim := flags / 2 ^ 8 % 8
  let vdim := flags / 2 ^ 12 % 8
  let words (off : Nat) := (List.range 5).map fun i => bytesNat bs (off + 4 * i) 4
  let strides := (List.range 5).map fun i => (BitVec.ofNat 64 (bytesNat bs (0x50 + 8 * i) 8)).toInt
  let cs := words 0x10
  let orig := words 0x24
  let ve := words 0x38
  if flags / 2 ^ 21 ≠ 0 || flags / 2 ^ 15 % 2 ≠ 0 || flags / 2 ^ 11 % 2 ≠ 0 || flags / 2 ^ 5 % 8 ≠ 0 ||
      bytesNat bs 0x4C 4 ≠ 0 || bytesNat bs 0x78 8 ≠ 0 || flags % 16 ≠ fmt.toNat ||
      (fmt ≠ 0xC#4 && fmt ≠ 0xD#4) || cdim = 0 || 5 < cdim || vdim = 0 || 5 < vdim ||
      (cs.drop cdim).any (· ≠ 0) || (orig.drop cdim).any (· ≠ 0) || (ve.drop vdim).any (· ≠ 0) ||
      (strides.drop vdim).any (· ≠ 0) || (cs.take cdim).any (· = 0) || (ve.take vdim).any (· = 0) ||
      2 ^ 48 < prodOf (cs.take cdim) || ((orig.zip cs).take cdim).any (fun p => p.2 ≤ p.1) then none
  else some
    { seed := BitVec.ofNat 64 (bytesNat bs 0 8), fmt := fmt, zp := flags / 16 % 2 = 1, skip := flags / 2 ^ 16 % 32,
      cshape := cs.take cdim, origin := orig.take cdim, vext := ve.take vdim, vstride := strides.take vdim }

/-- Row-major index of the origin. -/
def originIndex (d : ViewDesc) : Int := ((d.cshape.zip d.origin).foldl (fun n p => n * p.1 + p.2) 0 : Nat)

/-- Steps of a position through the view dimensions, the last fastest. -/
def viewSteps : List (Nat × Int) → Nat → Int
  | [], _ => 0
  | (ext, stride) :: rest, t => ((t % ext : Nat) : Int) * stride + viewSteps rest (t / ext)

/-- `ViewIndex` (R213): `none` is `ViewFault`, or a position beyond the view. -/
def viewIndex (d : ViewDesc) (p : Nat) : Option Nat :=
  let n := originIndex d + viewSteps (d.vext.zip d.vstride).reverse p
  if viewSize d ≤ p || n < 0 || (prodOf d.cshape : Int) ≤ n then none else some n.toNat

end Sys2Proof.Machine
end

