-- ==== Sys2Proof/Machine/Translate.lean ====
section
/-! DEFINITION. Address checks (R113 to R115), page modes (R29), atomics' targets (R126), translation (R321 to R328) and the
tiles a body holds (R339, R340). -/

namespace Sys2Proof.Machine

/-- The kinds of access of `CheckAccess` (R113). -/
inductive AccKind where
  | load
  | store
  | amo
  /-- The target of an `AMOSEQ` (R126). -/
  | amoseq
  | wait
  deriving DecidableEq, Repr

/-- Why a checked access fails: an access fault by its `SUB` of R152, misalignment, or a fault that parks. -/
inductive AccErr where
  | path
  | unmapped
  | refused
  | bounds
  | host
  | dieRange
  | misaligned
  | page (pkg : Nat) (kind lvl : Nat)
  | hostPage (pasid : BitVec 20) (page : Nat)
  deriving DecidableEq, Repr

/-- `ACC` of R151. -/
def accCode : AccKind → Nat
  | .load => 1
  | .store => 2
  | .amo | .amoseq => 3
  | .wait => 4

/-- `KIND` of a fault record (R329). -/
def recKind : AccKind → Nat
  | .load | .wait => 0
  | .store => 1
  | .amo | .amoseq => 2

/-- A strand's precise fault, or its park, for a failed access (R113, R152, R158). -/
def accStop (va : Word) (kind : AccKind) : AccErr → Stop
  | .path => .trap cAccess 0 va (accCode kind)
  | .unmapped => .trap cAccess 1 va (accCode kind)
  | .refused => .trap cAccess 2 va (accCode kind)
  | .bounds => .trap cAccess 3 va (accCode kind)
  | .host => .trap cAccess 4 va (accCode kind)
  | .dieRange => .trap cAccess 5 va (accCode kind)
  | .misaligned => .trap cMisaligned 0 va (accCode kind)
  | .page pkg k lvl => .page pkg va k lvl
  | .hostPage pasid page => .hostPage pasid page va

/-- Who makes a translated access: a core (on behalf of one of its strands), a plan of its NI (R29), or a lock manager,
which the TX refusal does not concern (R454). -/
structure Requester where
  core : Nat
  strand : Fin 4
  plan : Bool
  /-- `TXPEEK` (R365) and the pushes and home writes of R454: the TX refusal is waived. -/
  peek : Bool
  /-- The 64 KiB page and the fault generation the access has parked with (R331). -/
  since : Option (Nat × BitVec 32)
  /-- The page of host memory it has asked for and waited on (R328). -/
  asked : Option Nat
  /-- `TCMGUARD_LO` and `TCMGUARD_HI` as an engine command captured them (R174); else they are the core's own. -/
  guard : Option (Word × Word)
  deriving DecidableEq, Repr

def asStrand (core : Nat) (n : Fin 4) : Requester :=
  { core := core, strand := n, plan := false, peek := false, since := none, asked := none, guard := none }

/-- A strand's own access, which may be one that has parked (R158). -/
def asMe (s : State) : Requester := { asStrand s.ctx.core s.ctx.strand with since := (me s).parkedAt, asked := (me s).asked }

/-! ### Tiles (R338, R339) -/

/-- The image of the region's launch. -/
def imageOf (r : Region) : Image := (r.launch.map (·.image)).getD Image.empty

/-- The tile space that holds an address of a path: device memory for 0x4 and 0x8, die SRAM for 0x2. -/
def tileSpaceOf (img : Image) (die : Bool) (addr : Nat) : Option TileSpace :=
  img.tiles.find? fun t =>
    let code := fieldOf t.base 63 60
    let lo := if die then fieldOf t.base 25 0 else fieldOf t.base 47 0
    code = (if die then 2 else 4) && lo ≤ addr && addr < lo + t.len

/-- The tile whose bytes an address names, by its identity (R339): `none` outside every tile space of the path. -/
def tileAt (s : State) (core : Nat) (va : Word) : Option Tile :=
  let img := imageOf (regionOf s core)
  let p := fieldOf va 63 60
  if p = 2 then
    let o := fieldOf va 25 0
    (tileSpaceOf img true o).map fun t => { die := true, home := dieOf core, addr := o / 2 ^ t.log * 2 ^ t.log, size := 2 ^ t.log }
  else if p = 4 || p = 8 then
    let v := fieldOf va 47 0
    let home := if p = 8 then fieldOf va 53 48 else pkgOfCore core
    (tileSpaceOf img false v).map fun t => { die := false, home := home, addr := v / 2 ^ t.log * 2 ^ t.log, size := 2 ^ t.log }
  else none

/-- The transaction a strand's body runs. -/
def bodyTxn (s : State) (core : Nat) (n : Fin 4) : Option Txn :=
  match (getStrand s core n).body with
  | none => none
  | some b => (regionOf s core).txns.find? fun t => t.num = b.num

/-- The strand's body holds the tile, under a write lock where one is needed (R29, R340). -/
def holdsTile (s : State) (q : Requester) (t : Tile) (write : Bool) : Bool :=
  match bodyTxn s q.core q.strand with
  | none => false
  | some x => x.reqs.any fun r => r.tile = t && (r.excl || !write) && r.status ≠ .removed

/-! ### The walk (R322 to R325) -/

/-- Firmware has marked the page unmapped for the region at a flush since the access parked (R331, step 4). -/
def unmappedSince (p : Package) (region page : Nat) (since : Option (Nat × BitVec 32)) : Bool :=
  match since with
  | none => false
  | some g => g.1 = page && p.unmapped.any fun u => u.1 = region && u.2.1 = page && 0 < (u.2.2 - g.2).toNat && (u.2.2 - g.2).toNat < 2 ^ 31

/-- The walk of an access (R325, R331). -/
def walk (s : State) (pkg region : Nat) (v : Nat) (kind : AccKind) (since : Option (Nat × BitVec 32)) (root : Nat) : Except AccErr Leaf :=
  match findLeaf s pkg v 4 root with
  | .leaf l => .ok l
  | .refused => .error .refused
  | .missing lvl =>
    .error (if unmappedSince (getPackage s pkg) region (v / 65536) since then .unmapped else .page pkg (recKind kind) lvl)

/-- R29 and R126: the mode admits the access. The X phase's plan accesses have their own column. -/
def modeAdmits (s : State) (q : Requester) (pkg : Nat) (c : Word) (v : Nat) (kind : AccKind) (readOnly : Bool) : Bool :=
  let write := kind = .store
  if q.plan then
    match modeOf c with
    | .ro => !write || c.getLsbD 0
    | .ex => !write
    | _ => true
  else
    match modeOf c with
    | .ro => kind = .load
    | .sw => q.core = pkg * 65536 + fieldOf c 31 16 && kind ≠ .amoseq
    | .tx =>
      if q.peek then true
      else if readOnly then false
      else
        match tileSpaceOf (imageOf (regionOf s q.core)) false v with
        | none => false
        | some ts =>
          kind ≠ .amoseq && holdsTile s q
            { die := false, home := pkg, addr := v / 2 ^ ts.log * 2 ^ ts.log, size := 2 ^ ts.log } (kind ≠ .load)
    | .ex => kind = .load || kind = .store
    | .red => kind = .amo || kind = .amoseq
    | .host => kind ≠ .amoseq
    | .untranslated => true

/-- `Translate` (R325) for path 0x4, 0x5, 0x6 or 0x8 at package `pkg`. A path 0x8 address reaches device memory (R32; log
entry 14). -/
def translate (s : State) (q : Requester) (pkg : Nat) (va : Word) (path : Nat) (kind : AccKind) : Except AccErr Place :=
  let r := regionOf s q.core
  let v := fieldOf va 47 0
  match walk s pkg r.rcb.id v kind q.since r.rcb.root with
  | .error e => .error e
  | .ok l =>
    let pa := leafPa l v
    let dev := pa / 2 ^ 46 = 0
    let group := q.core % 65536 / 16 / 128
    if (path ≠ 6) ≠ dev then .error .refused
    else if !l.comp.getLsbD (32 + group) && !(q.plan && modeOf l.comp = .ro) then .error .refused
    else if !modeAdmits s q pkg l.comp v kind (path = 5) then .error .refused
    else .ok
      { key := if dev then devKey pkg (pa % 2 ^ 46) else tier2Key pkg (pa % 2 ^ 46), mode := modeOf l.comp,
        readOnly := path = 5, leaf := some l.key, va := va }

/-- Path 0x7 (R328): the cached completion of the host's translation; no entry parks the access. A refusal answers the accesses that have
asked; another access asks anew. -/
def hostAccess (s : State) (q : Requester) (va : Word) (kind : AccKind) : Except AccErr Place :=
  let pasid := (regionOf s q.core).rcb.pasid
  let a := fieldOf va 56 0
  match (getPackage s (pkgOfCore q.core)).ats.find? fun e => e.pasid = pasid && e.page = a / 4096 with
  | none => .error (.hostPage pasid (a / 4096))
  | some e =>
    if !e.granted && q.asked ≠ some (a / 4096) then .error (.hostPage pasid (a / 4096))
    else if e.granted && (if kind = .load then e.read else e.write) then
      .ok { key := hostKey a, mode := .host, readOnly := false, leaf := none, va := va }
    else .error .host

/-! ### `CheckAccess` (R113) -/

/-- Bits that R32 requires zero, for each path. -/
def zeroBitsOk (va : Word) : Bool :=
  match fieldOf va 63 60 with
  | 0x0 => fieldOf va 59 18 = 0
  | 0x1 => fieldOf va 59 19 = 0
  | 0x2 => fieldOf va 59 26 = 0
  | 0x4 | 0x5 | 0x6 => fieldOf va 59 48 = 0
  | 0x7 => fieldOf va 59 57 = 0
  | 0x8 => fieldOf va 59 54 = 0
  | _ => false

/-- The core with the bounds that hold for the access. -/
def guardedBy (x : Core) (g : Option (Word × Word)) : Core :=
  match g with
  | none => x
  | some b => { x with guardLo := b.1, guardHi := b.2 }

/-- Path 0x0: bounds and the uniform area (R114, R115). -/
def checkTcm (s : State) (q : Requester) (va : Word) (n : Nat) (kind : AccKind) : Except AccErr Place :=
  let o := fieldOf va 17 0
  let x := guardedBy (getCore s q.core) q.guard
  if kind ≠ .load && o < 0x1000 then .error .bounds
  else if !inBounds x o n && !(kind = .load && o + n ≤ 0x1000) then .error .bounds
  else if kind = .amoseq then .error .refused
  else .ok { key := tcmKey q.core o, mode := .untranslated, readOnly := false, leaf := none, va := va }

/-- Path 0x2: the region's range (R34), and tile spaces (R340). -/
def checkDie (s : State) (q : Requester) (va : Word) (n : Nat) (kind : AccKind) : Except AccErr Place :=
  let o := fieldOf va 25 0
  let r := regionOf s q.core
  if o < r.rcb.dsBase || r.rcb.dsBase + r.rcb.dsLen < o + n then .error .dieRange
  else
    match tileAt s q.core va with
    | some t =>
      if q.peek || holdsTile s q t (kind ≠ .load) then
        .ok { key := dieKey (dieOf q.core) o, mode := .untranslated, readOnly := false, leaf := none, va := va }
      else .error .refused
    | none => .ok { key := dieKey (dieOf q.core) o, mode := .untranslated, readOnly := false, leaf := none, va := va }

/-- `CheckAccess` of `n` bytes that must be aligned to `al` (R113). An access that runs past the end of the scratchpad, which R113 does not
name, is refused with `SUB` 0: the model's choice (log entry 15). -/
def checkAccess (s : State) (q : Requester) (va : Word) (n al : Nat) (kind : AccKind) : Except AccErr Place :=
  let p := fieldOf va 63 60
  if !zeroBitsOk va then .error .path
  else if va.toNat % al ≠ 0 then .error .misaligned
  else
    match p with
    | 0x0 => checkTcm s q va n kind
    | 0x1 =>
      if 2 ^ 19 < fieldOf va 18 0 + n then .error .path
      else .ok { key := spadKey (clusterOf q.core) (fieldOf va 18 0), mode := .untranslated, readOnly := false, leaf := none, va := va }
    | 0x2 => checkDie s q va n kind
    | 0x4 | 0x6 => translate s q (pkgOfCore q.core) va p kind
    | 0x5 => if kind = .load then translate s q (pkgOfCore q.core) va p kind else .error .path
    | 0x7 => hostAccess s q va kind
    | 0x8 =>
      if (getCore s q.core).pkgId.toNat / 256 % 64 < fieldOf va 53 48 then .error .path
      else translate s q (fieldOf va 53 48) va p kind
    | _ => .error .path

/-- A strand's `CheckAccess`, failing as the strand does. -/
def strandCheck (s : State) (va : Word) (n al : Nat) (kind : AccKind) : Except Stop Place :=
  match checkAccess s (asMe s) va n al kind with
  | .ok p => .ok p
  | .error e => .error (accStop va kind e)

end Sys2Proof.Machine
end

