-- ==== Sys2Proof/Machine/Footprint.lean ====
section
/-! DEFINITION. The TCM bytes that a queued or in-flight engine command will read and write: the interlocks of R36, R138 and
R286, with the shapes of the commands' operands (R252, R254, R276, R280, R281, R381). A range may be wider than the bytes
accessed, never narrower (log entry 16). -/

namespace Sys2Proof.Machine

/-- TCM byte ranges [lo, hi) a command reads, and writes. -/
structure Foot where
  reads : List (Nat × Nat)
  writes : List (Nat × Nat)
  deriving DecidableEq, Repr

def Foot.none : Foot := { reads := [], writes := [] }

/-- The TCM part of `n` bytes at an address: a range on path 0x0. -/
def tcmPiece (va : Word) (n : Nat) : List (Nat × Nat) :=
  if fieldOf va 63 60 = 0 && n ≠ 0 then [(fieldOf va 17 0, fieldOf va 17 0 + n)] else []

/-! ### Geometry groups (R276, R280) -/

/-- A loop level: destination stride, source stride, iterations. -/
structure Level where
  dstr : Int
  sstr : Int
  cnt : Nat
  deriving DecidableEq, Repr

def levelOf (x : Word) : Level :=
  { dstr := (x.extractLsb' 40 24).toInt, sstr := (x.extractLsb' 16 24).toInt, cnt := fieldOf x 15 0 }

/-- `fn` of a copy instruction (R273). -/
def copyFn : Instr → Nat
  | .cpy .. => 0
  | .cpyd .. => 1
  | .cpyg .. => 2
  | .cpys .. => 3
  | .cpyf .. => 4
  | .cpyr .. => 5
  | .cpyho .. => 6
  | _ => 7

/-- Element size and loop levels, innermost first, of a geometry command (R276, R280). -/
def copyShape (i : Instr) (eb : Vector Word 16) : Nat × List Level :=
  match i with
  | .cpyd _ _ _ n =>
    (8, [{ dstr := 1, sstr := 1, cnt := (n.toNat + 1) * 8 }] ++ List.replicate 4 { dstr := 0, sstr := 0, cnt := 1 })
  | .cpy _ _ _ g e | .cpyg _ _ _ g e | .cpys _ _ _ g e | .cpyf _ _ _ g e | .cpyho _ _ _ g e =>
    (2 ^ e.toNat, (List.range 5).map fun j => levelOf (eb.toList.getD (5 * g.toNat + j) 0#64))
  | _ => (1, [])

/-- The least and the greatest sum of strides over the iteration vectors from one on, in the order of R280 (level 0 fastest): those that
leave some level above its index, with every lower level free and every higher one as it is, and the vector itself. -/
def strideSpan : List (Int × Nat × Nat) → (Int × Int)
  | [] => (0, 0)
  | (st, cnt, i) :: rest =>
    let whole (l : List (Int × Nat × Nat)) : Int × Int :=
      l.foldl (fun acc d => (acc.1 + min 0 (d.1 * (d.2.1 - 1 : Int)), acc.2 + max 0 (d.1 * (d.2.1 - 1 : Int)))) (0, 0)
    let here : Int := st * i + (rest.map fun d => d.1 * (d.2.2 : Int)).sum
    let far : Int := st * (cnt - 1 : Int) + (rest.map fun d => d.1 * (d.2.2 : Int)).sum
    let own := (min here far, max here far)
    let above : List (Int × Int) := (List.range rest.length).filterMap fun j =>
      match rest[j]? with
      | some (s', c', i') =>
        if i' + 1 < c' then
          let low := whole ((st, cnt, i) :: rest.take j)
          let fixed : Int := ((rest.drop (j + 1)).map fun d => d.1 * (d.2.2 : Int)).sum
          let p : Int := s' * (i' + 1 : Int)
          let q : Int := s' * (c' - 1 : Int)
          some (low.1 + min p q + fixed, low.2 + max p q + fixed)
        else none
      | none => none
    above.foldl (fun acc r => (min acc.1 r.1, max acc.2 r.2)) own

/-- The smallest TCM range that holds every byte at an address plus `e` times a sum of strides over the iteration vectors from the last of
the triples (stride, count, index) on. -/
def hull (va : Word) (e : Nat) (dims : List (Int × Nat × Nat)) : List (Nat × Nat) :=
  let (lo, hi) := strideSpan dims
  let a : Int := va.toNat + e * lo
  let b : Int := va.toNat + e * hi + e
  let top : Int := 2 ^ 18
  let wrap : Int := 2 ^ 64
  if a < top && 0 < b then [((max a 0).toNat, (min b top).toNat)]
  else if wrap < b && a < wrap + top then [((max (a - wrap) 0).toNat, (min (b - wrap) top).toNat)]
  else []

def wholeTcm : Nat × Nat := (0, 2 ^ 18)

/-- The completion word of a completion operand (R275). -/
def completionPiece (c : Word) : List (Nat × Nat) :=
  if fieldOf c 31 0 = 0 || fieldOf c 31 28 ≠ 0 then [] else [(fieldOf c 18 0, fieldOf c 18 0 + 8)]

/-- TCM offset of the descriptor a command's view register names. -/
def descOff (c : Cmd) (k : Nat) : Nat := fieldOf (c.sv.toList.getD (k % 8) 0#64) 17 7 * 128

def descRange (c : Cmd) (k : Nat) : Nat × Nat := (descOff c k, descOff c k + 128)

/-- A stippled operand of view positions p to n − 1: code units of `q4` words or bytes, and scale bytes (R202, R282). -/
def viewPieces (skip p n : Nat) (q4 : Bool) (codes scales : Word) : List (Nat × Nat) × List (Nat × Nat) :=
  if n ≤ p then ([], [])
  else
    let lo := skip + p
    let hi := skip + n - 1
    let scale := tcmPiece (scales + BitVec.ofNat 64 (lo / 32)) (hi / 32 + 1 - lo / 32)
    if q4 then (tcmPiece (codes + BitVec.ofNat 64 (4 * (lo / 8))) (4 * (hi / 8 + 1 - lo / 8)), scale)
    else (tcmPiece (codes + BitVec.ofNat 64 lo) (hi + 1 - lo), scale)

/-- The view of the command's `i`-th descriptor, as it has read it or else as memory holds it, where it is valid for its own format. -/
def heldView (s : State) (core : Nat) (c : Cmd) (i k : Nat) : Option ViewDesc :=
  let bs := (c.read.bind fun l => l[i]?).getD (readBytes s.mem (tcmKey core (descOff c k)) 128)
  parseView bs (BitVec.ofNat 4 (bytesNat bs 8 1 % 16))

/-- A `CPYR`'s footprint from its start on (R282, R286). -/
def recodeFoot (s : State) (core : Nat) (c : Cmd) : Foot :=
  let ctl := c.eb[14]
  let n := fieldOf ctl 47 16
  let sf := fieldOf ctl 11 8
  let p := c.start[0]
  let done := completionPiece c.c
  let dk := fieldOf ctl 6 4
  let sk := fieldOf ctl 2 0
  let views := if c.read.isSome then [] else descRange c dk :: (if sf = 0xC || sf = 0xD then [descRange c sk] else [])
  match heldView s core c 0 dk with
  | none => { reads := views, writes := done }
  | some d =>
    let (codes, scales) := viewPieces d.skip p n (d.fmt = 0xC#4) c.a c.eb[13]
    let source :=
      if sf = 0xC || sf = 0xD then
        match heldView s core c 1 sk with
        | none => []
        | some g =>
          let r := viewPieces g.skip p n (sf = 0xC) c.b c.eb[12]
          r.1 ++ r.2
      else
        let w := if sf = 8 then 4 else if sf = 9 then 2 else 1
        tcmPiece (c.b + BitVec.ofNat 64 (p * w)) ((n - p) * w)
    { reads := views ++ source ++ scales, writes := codes ++ done }

/-- A copy command's footprint, from the iteration it stands at: the indexed side of a `CPYG` or `CPYS` in TCM covers all of it (R286). -/
def copyFoot (s : State) (core : Nat) (c : Cmd) : Foot :=
  let (e, lv) := copyShape c.instr c.eb
  let empty := lv.any fun l => l.cnt = 0
  let dims (st : Level → Int) := (lv.zip c.start.toList).map fun l => (st l.1, l.1.cnt, l.2)
  let src := hull c.b e (dims (·.sstr))
  let dst := hull c.a e (dims (·.dstr))
  let rows := match lv with
    | _ :: l1 :: _ => l1.cnt
    | _ => 0
  let row := c.start[1]
  let index := tcmPiece (c.eb[15] + BitVec.ofNat 64 (4 * row)) (4 * (rows - row))
  let side (va : Word) := if fieldOf va 63 60 = 0 then [wholeTcm] else []
  let done := completionPiece c.c
  match copyFn c.instr with
  | 2 => if empty then { reads := [], writes := done } else { reads := side c.b ++ index, writes := dst ++ done }
  | 3 => if empty then { reads := [], writes := done } else { reads := src ++ index, writes := side c.a ++ done }
  | 4 => { reads := [], writes := (if empty then [] else dst) ++ done }
  | 5 => recodeFoot s core c
  | _ => if empty then { reads := [], writes := done } else { reads := src, writes := dst ++ done }

/-! ### Matrix commands (R244, R252, R254) -/

def classOf (fmt : Nat) : MClass :=
  match fmt with
  | 0x9 => .h
  | 0xA | 0xB | 0xD => .e
  | 0x0 => .i
  | 0xC => .q
  | _ => .none

/-- K of a class. -/
def classK : MClass → Nat
  | .none => 0
  | .h => 32
  | .e | .i => 64
  | .q => 128

/-- Element width in bytes of an unstippled operand format. -/
def fmtBytes (fmt : Nat) : Nat := if fmt = 0x9 then 2 else 1

def isStippled (fmt : Nat) : Bool := fmt = 0xC || fmt = 0xD

/-- The byte ranges of an operand tile: rows of `len` elements, or packed rows, scale bytes and descriptor (R254). -/
def tileFoot (fmt : Nat) (rows len : Nat) (packed : Bool) (a b scale sv : Word) : List (Nat × Nat) :=
  if isStippled fmt then
    tcmPiece a 1024 ++ tcmPiece (scale + b) (rows * len / 32) ++ [(fieldOf sv 17 7 * 128, fieldOf sv 17 7 * 128 + 128)]
  else
    let w := fmtBytes fmt
    let sp := if packed then len * w else b.toNat
    (List.range rows).flatMap fun r => tcmPiece (a + BitVec.ofNat 64 (r * sp)) (len * w)

/-- The control registers of the unit as a command finds them, after the `MCFG`s queued before it (R247). -/
def applyMcfg (m : Matrix) (i : Instr) : Matrix :=
  match i with
  | .mcfg w a b y x =>
    let m1 := if w.getLsbD 0 then { m with fmtA := x.setWidth 64, stipA := a.setWidth 64 } else m
    if w.getLsbD 1 then { m1 with fmtB := y.setWidth 64, stipB := b.setWidth 64 } else m1
  | _ => m

def svOf (c : Cmd) (k : Nat) : Word := c.sv.toList.getD (k % 8) 0#64

/-- A matrix command's footprint, with the control registers it finds. -/
def matrixFoot (m : Matrix) (c : Cmd) : Foot :=
  match c.instr with
  | .mma _ _ rb | .mmaz _ _ rb =>
    let f := fieldOf m.fmtA 3 0
    { reads := tileFoot f 16 (classK (classOf f)) (rb = 0#5) c.a c.b m.scaleA (svOf c (fieldOf m.stipA 2 0)), writes := [] }
  | .mldb _ rb =>
    let f := fieldOf m.fmtB 3 0
    { reads := tileFoot f (classK (classOf f)) 16 (rb = 0#5) c.a c.b m.scaleB (svOf c (fieldOf m.stipB 2 0)), writes := [] }
  | .mldbt _ rb =>
    let f := fieldOf m.fmtB 3 0
    { reads := tileFoot f 16 (classK (classOf f)) (rb = 0#5) c.a c.b m.scaleB (svOf c (fieldOf m.stipB 2 0)), writes := [] }
  | .mldacc .. => { reads := tcmPiece c.a 1024, writes := [] }
  | .mstacc .. => { reads := [], writes := tcmPiece c.a 1024 }
  | .mstaccq _ _ _ g t =>
    if inQ t then
      let d := fieldOf (svOf c g.toNat) 17 7 * 128
      { reads := (d, d + 128) :: tcmPiece c.b 8, writes := tcmPiece c.a (if t = 0xC#4 then 128 else 256) }
    else { reads := [], writes := tcmPiece c.a (256 * typeWidth t) }
  | _ => Foot.none

/-! ### Selvedge commands (R380, R381) -/

/-- A dword of the command block, as the command has read it or else as memory holds it. -/
def blockWord (s : State) (core : Nat) (c : Cmd) (off : Nat) : Word :=
  match c.read.bind List.head? with
  | some bs => BitVec.ofNat 64 (bytesNat bs off 8)
  | none => BitVec.ofNat 64 (memNat s.mem (tcmKey core (fieldOf c.a 17 0 + off)) 8)

/-- A selvedge command's footprint: its block, its context and its arrays. -/
def selvedgeFoot (s : State) (core : Nat) (c : Cmd) : Foot :=
  let w := blockWord s core c
  let ctx := tcmPiece (w 0) 2112
  let n := fieldOf (w 0x18) 14 0
  let block := if c.read.isSome then [] else tcmPiece c.a 64
  let done := tcmPiece (c.a + 0x38#64) 8 ++ completionPiece c.b
  match c.instr with
  | .pdainit _ _ r =>
    { reads := block ++ (if r = 1#1 then tcmPiece (w 8) 2112 else []), writes := ctx ++ done }
  | .pdamask .. => { reads := block ++ ctx, writes := tcmPiece (w 8) (n / 8 + 8) ++ done }
  | .pdastep .. => { reads := block ++ ctx, writes := ctx ++ done }
  | .samplep .. =>
    { reads := block ++ tcmPiece (w 0) (4 * n) ++ tcmPiece (w 8) (n / 8 + 8), writes := tcmPiece (w 0x30) 536 ++ done }
  | .samplef .. =>
    let recs := (List.range (fieldOf (w 8) 6 0)).flatMap fun j =>
      tcmPiece (w 0 + BitVec.ofNat 64 (j * fieldOf (w 0x10) 47 32)) 536
    { reads := block ++ recs, writes := done }
  | _ => { reads := block ++ ctx, writes := tcmPiece (w 8) 2120 ++ done }

/-! ### The interlock -/

/-- The footprints of the matrix queue, in command order. -/
def matrixFeet (m : Matrix) : List Cmd → List Foot
  | [] => []
  | c :: cs => matrixFoot m c :: matrixFeet (applyMcfg m c.instr) cs

/-- The footprints of every queued or in-flight command of a core. -/
def coreFeet (s : State) (core : Nat) : List Foot :=
  let x := getCore s core
  matrixFeet x.mx x.mq ++ x.cq.map (copyFoot s core) ++ x.sq.map (selvedgeFoot s core)

def overlaps (lo hi : Nat) (l : List (Nat × Nat)) : Bool := l.any fun r => r.1 < hi && lo < r.2

/-- An access by a strand of the core to TCM bytes [o, o + n) waits for a command: a load for its writes, a store for its reads
too (R36, R138). -/
def interlocked (s : State) (core : Nat) (o n : Nat) (write : Bool) : Bool :=
  (coreFeet s core).any fun f => overlaps o (o + n) f.writes || (write && overlaps o (o + n) f.reads)

/-- The descriptors the matrix queue will read, with each command's stamp. -/
def matrixViews (m : Matrix) : List Cmd → List (Nat × Nat × Nat)
  | [] => []
  | c :: cs =>
    let own : List (Nat × Nat) := match c.instr with
      | .mma .. | .mmaz .. => if isStippled (fieldOf m.fmtA 3 0) then [descRange c (fieldOf m.stipA 2 0)] else []
      | .mldb .. | .mldbt .. => if isStippled (fieldOf m.fmtB 3 0) then [descRange c (fieldOf m.stipB 2 0)] else []
      | .mstaccq _ _ _ g t => if inQ t then [descRange c g.toNat] else []
      | _ => []
    own.map (fun r => (c.stamp, r)) ++ matrixViews (applyMcfg m c.instr) cs

/-- The descriptors, and the selvedge blocks, that a core's queued commands will read. -/
def heldViews (x : Core) : List (Nat × Nat × Nat) :=
  matrixViews x.mx x.mq ++ ((x.cq.filter fun c => c.read.isNone).flatMap fun c =>
    match c.instr with
    | .cpyr .. =>
      let ctl := c.eb[14]
      let sf := fieldOf ctl 11 8
      (descRange c (fieldOf ctl 6 4) :: (if sf = 0xC || sf = 0xD then [descRange c (fieldOf ctl 2 0)] else [])).map fun r => (c.stamp, r)
    | _ => []) ++
    (x.sq.filter fun c => c.read.isNone).flatMap fun c => (tcmPiece c.a 64).map fun r => (c.stamp, r)

/-- A queued command waits while one issued before it has a descriptor, or a block, to read where it will write: each uses them as they
stood at issue (R212, R380). -/
def keepsViews (s : State) (core : Nat) (c : Cmd) (writes : List (Nat × Nat)) : Bool :=
  (heldViews (getCore s core)).all fun v => c.stamp ≤ v.1 || !overlaps v.2.1 v.2.2 writes

/-- The cores of a running region that is not being pre-empted work (R167, R261). -/
def enginesRun (s : State) (core : Nat) : Bool :=
  let r := regionOf s core
  (getCore s core).region.isSome && r.state = .running && !(getCore s core).taken

/-- A vector instruction dispatched, and a selvedge command in flight, are finished at a pre-emption too (R167, R402). -/
def finishesRun (s : State) (core : Nat) : Bool := (getCore s core).region.isSome && (regionOf s core).state = .running

/-! ### The order of a strand's accesses (R145, R146) -/

/-- The path of an address, and the package index of path 0x8, which with the issuing package's own index is path 0x4 (R33, R146). -/
def pathOf (core : Nat) (va : Word) : Nat × Nat :=
  let path := fieldOf va 63 60
  if path = 8 then (if fieldOf va 53 48 = pkgOfCore core then (4, 0) else (8, fieldOf va 53 48)) else (path, 0)

/-- A no-return atomic of the strand is kept before its later access of `n` bytes (R145 item 1, R146 with the atomic as a store): on the
same path by a common byte or by the path's row, and on another path where it is on 0x0 or 0x1. -/
def keptAfter (a : AtomReq) (va : Word) (key n : Nat) (write : Bool) : Bool :=
  let path := pathOf a.core a.va
  let common := a.key < key + n && key < a.key + (if a.wide then 8 else 4)
  path.1 ≤ 1 || (path = pathOf a.core va &&
    (common ||
      match path.1 with
      | 0x7 => true
      | 0x2 => write
      | _ => write && a.key / 256 = key / 256))

/-- An atomic of the strand that is kept before its access of `n` bytes is not performed. -/
def behindAtomic (s : State) (core : Nat) (n : Fin 4) (va : Word) (key len : Nat) (write : Bool) : Bool :=
  (regionOf s core).atoms.any fun a => a.core = core && a.strand = n.val && keptAfter a va key len write

/-- The stores of a trap entry wait, as any store of the strand, for the commands of its core that read or will write those bytes, for
the strand's own vector accesses and for its atomics that are kept before them (R36, R138, R145, R156, R223). -/
def entryWaits (s : State) (core : Nat) (n : Fin 4) (late : Bool) : Bool :=
  let x := getCore s core
  let blk := saveBlock x (strandNo (coreStrand x n))
  interlocked s core (blk + 8) 24 true || (late && interlocked s core (blk + 0x5A0) 256 true) || (x.vq.any fun d => d.strand = n.val) ||
    behindAtomic s core n (BitVec.ofNat 64 (blk + 8)) (tcmKey core (blk + 8)) 24 true ||
    (late && behindAtomic s core n (BitVec.ofNat 64 (blk + 0x5A0)) (tcmKey core (blk + 0x5A0)) 256 true)

end Sys2Proof.Machine
end

