-- ==== Sys2Proof/Machine/Engine.lean ====
section
/-! DEFINITION. What the engines of a core share: issuing a command through a two-entry queue (R36), the accesses of a command
(R136, R138), its completion word (R275, R284), and how it settles, faults, parks or is cancelled (R158 to R160). -/

namespace Sys2Proof.Machine

/-- Why an engine command, or a vector instruction, does not complete. -/
inductive EngErr where
  /-- A late fault: `SUB`, `FAULTADDR` and `ACC`. -/
  | late (sub : Nat) (faddr : Word) (acc : Nat)
  /-- No valid leaf: the access parks (R158). -/
  | page (pkg : Nat) (va : Word) (kind lvl : Nat)
  | hostPage (pasid : BitVec 20) (page : Nat)
  /-- An interlock: tried again (R36). -/
  | stall
  deriving DecidableEq, Repr

/-- An engine's failed access: a late fault with the engine's own subcode, or a park. -/
def engStop (sub : AccErr → Nat) (va : Word) (acc : Nat) : AccErr → EngErr
  | .page pkg k lvl => .page pkg va k lvl
  | .hostPage pasid page => .hostPage pasid page
  | e => .late (sub e) va acc

/-- A result of an engine's work: what stops it comes with the state that its accesses so far have left, since they are accesses under the
checker also where the work faults (R136, R212, R332). -/
abbrev Eng (α : Type) := Except (EngErr × State) α

/-- The state a stopped engine goes on from: after its accesses where it faults, as it was where it is to try again. -/
def stoppedAt (s : State) (e : EngErr × State) : State :=
  match e.1 with
  | .late .. => e.2
  | _ => s

/-! ### Per-core registers (R86) -/

/-- `REGSEL` of R151, and of R248 for the matrix unit's own state. -/
def selEb (n : Nat) : Nat := 0xE00 + n
def selSv (n : Nat) : Nat := 0xE10 + n
def selAcc (n : Nat) : Nat := 0xE18 + n
def selLatch : Nat := 0xE1C
def selKeeper : Nat := 0xE1D

/-- An operand register in conflict holds an undefined value until it is next written (R86). -/
def spoilReg (s : State) (core sel : Nat) : State :=
  let (v, s1) := freshV s
  modCore s1 core fun x =>
    if 0xE00 ≤ sel && sel < 0xE10 then { x with eb := x.eb.set (sel % 16) (v.setWidth 64) (Nat.mod_lt _ (by decide)) }
    else if 0xE10 ≤ sel && sel < 0xE18 then
      { x with sv := x.sv.set (sel % 8) (v.setWidth 64 &&& 0x3FF80#64) (Nat.mod_lt _ (by decide)) }
    else if sel < 0xE00 then putCoreCr x sel (v.setWidth 64 &&& crMask sel)
    else x

/-- Accesses of the issuing strand to per-core registers, with each register in conflict spoilt. -/
def noteRegs (s : State) (sels : List (Nat × Bool)) : State :=
  sels.foldl (fun s e =>
    match noteReg s e.1 e.2 with
    | (s1, true) => spoilReg s1 s.ctx.core e.1
    | (s1, false) => s1) s

/-! ### Issue -/

def queueOf (x : Core) : Engine → List Cmd
  | .matrix => x.mq
  | .copy => x.cq
  | .selvedge => x.sq
  | .vector => []

def putQueue (x : Core) (e : Engine) (q : List Cmd) : Core :=
  match e with
  | .matrix => { x with mq := q }
  | .copy => { x with cq := q }
  | .selvedge => { x with sq := q }
  | .vector => x

/-- Issue of a queued command (R36, R159, R160): it waits while the queue or the ring entry is taken, or earlier accesses of the
strand are not performed (R147); behind a late fault of the engine it is cancelled. -/
def issueCommand (s : State) (e : Engine) (i : Instr) (sels : List (Nat × Bool)) (a b c : Word) (start : Vector Nat 5)
    (resumed : Bool) :
    Except Stop State :=
  if vqBusy s || atomsPending s || !ringFree (me s) then .error (.wait .stall)
  else
    let s1 := noteRegs s sels
    if (lateOf (me s) e).isSome then
      let (q, s2) := dispatch s1 e .cancelled
      .ok (retire (if e = .matrix then modMe s2 fun t => { t with mseq := BitVec.ofNat 64 (2 ^ 63 + q.toNat) } else s2))
    else if 2 ≤ (queueOf (myCore s) e).length then .error (.wait (.engine (myCore s).settled))
    else
      let (q, s2) := dispatch s1 e .inFlight
      let (o, s3) := nextOrder s2 s.ctx.core s.ctx.strand
      let x := myCore s3
      let cmd : Cmd :=
        { strand := s.ctx.strand, seq := q, instr := i, a := a, b := b, c := c, eb := x.eb, sv := x.sv,
          guard := (x.guardLo, x.guardHi), tphase := (myRegion s).phase = .t, order := o, start := start, resumed := resumed
          index := none, read := none, parked := .ready, waiting := false,
          stamp := x.settled + x.mq.length + x.cq.length + x.sq.length, ended := none, started := false, outputs := [], clock := (me s3).clock, threads := [] }
      .ok (retire (modMyCore s3 fun x => putQueue x e (queueOf x e ++ [cmd])))

def noStart : Vector Nat 5 := Vector.replicate 5 0

/-! ### A command's accesses -/

/-- On whose behalf a command's accesses are made. -/
def cmdWho (core : Nat) (c : Cmd) : Who := { core := core, strand := ⟨c.strand % 4, Nat.mod_lt _ (by decide)⟩, cmd := some c.clock }

def cmdStrand (c : Cmd) : Fin 4 := ⟨c.strand % 4, Nat.mod_lt _ (by decide)⟩

/-- The threads of accesses made since the checker's count was `t0`. -/
def threadsSince (s : State) (t0 : Nat) : List Nat := (List.range (s.thread - t0)).map fun i => cmdThread0 + t0 + i

/-- The clock a command's completion carries: its issue, and its own accesses. -/
def cmdClock (c : Cmd) (own : List Nat) : Clock := (c.threads ++ own).foldl (fun k t => mapSet k t 1) c.clock

/-- The page and the generation the command has parked with (R331). -/
def cmdSince (c : Cmd) : Option (Nat × BitVec 32) :=
  match c.parked with
  | .page _ page gen => some (page, gen)
  | _ => none

/-- The page of host memory the command has asked for (R328). -/
def cmdAsked (c : Cmd) : Option Nat :=
  match c.parked with
  | .hostPage _ page => some page
  | _ => none

/-- `CheckAccess` for a command (R113), within the guard bounds that held for its instruction (R174; log entry 76). -/
def cmdCheck (s : State) (core : Nat) (c : Cmd) (va : Word) (n al : Nat) (write : Bool) : Except AccErr Place :=
  checkAccess s { asStrand core (cmdStrand c) with since := cmdSince c, asked := cmdAsked c, guard := some c.guard } va n al (if write then .store else .load)

/-- A checked read by a command. -/
def cmdRead (sub : AccErr → Nat) (core : Nat) (c : Cmd) (va : Word) (n al : Nat) (s : State) : Eng (List Byte × State) :=
  match cmdCheck s core c va n al false with
  | .error e => .error (engStop sub va 5 e, s)
  | .ok p => .ok (loadAt s (cmdWho core c) p n)

/-- A checked write by a command; deferred on an EX page, in the command's place in core program order (R286). -/
def cmdWrite (sub : AccErr → Nat) (limit : Nat) (core : Nat) (c : Cmd) (k : Nat) (va : Word) (bs : List Byte) (al : Nat) (s : State) :
    Eng State :=
  match cmdCheck s core c va bs.length al true with
  | .error e => .error (engStop sub va 6 e, s)
  | .ok p =>
    match p.mode with
    | .ex =>
      match deferStore s core (cmdStrand c) { c.order with sub := k } p bs with
      | some s1 => .ok s1
      | none => .error (.late limit va 6, s)
    | _ => .ok (storeAt s (cmdWho core c) p bs false)

/-! ### The completion word (R275, R284) -/

/-- A completion operand keeps R275: none named, or a sync word of TCM or scratchpad within the bounds that hold for the command. One in the
uniform area does not (R115): that it fails with the operand, before the write is made, is the model's choice (log entry 87). -/
def completionOk (s : State) (core : Nat) (g : Word × Word) (c : Word) : Bool :=
  if fieldOf c 31 0 = 0 then true
  else
    let o := fieldOf c 18 0
    let path := fieldOf c 31 28
    fieldOf c 27 19 = 0 && o % 8 = 0 &&
      (if path = 0 then o < 2 ^ 18 && 0x1000 ≤ o && inBounds (guardedBy (getCore s core) (some g)) o 8 && classAt (regionOf s core) (tcmKey core o) = 1
       else path = 1 && classAt (regionOf s core) (spadKey (clusterOf core) o) = 1)

def completionKey (core : Nat) (c : Word) : Nat :=
  if fieldOf c 31 28 = 0 then tcmKey core (fieldOf c 18 0) else spadKey (clusterOf core) (fieldOf c 18 0)

/-- The completion write: a handoff write, which orders any waiter only for `CPYHO` (R138, R285). -/
def completionWrite (s : State) (core : Nat) (c : Cmd) (operand : Word) (clock : Clock) (any : Bool) : State :=
  if fieldOf operand 31 0 = 0 then s
  else
    let key := completionKey core operand
    let v := BitVec.ofNat 64 (fieldOf operand 63 32)
    let va := BitVec.ofNat 64 (fieldOf operand 31 28 * 2 ^ 60 + fieldOf operand 18 0)
    let p : Place := { key := key, mode := .untranslated, readOnly := false, leaf := none, va := va }
    let t0 := s.thread
    let s1 := storeAt s (cmdWho core { c with clock := clock }) p (leBytes 8 v.toNat) true
    let k := (threadsSince s1 t0).foldl (fun k t => mapSet k t 1) clock
    noteHandoff s1 core { key := key, value := v, clock := k, any := any, core := core, strand := c.strand }

/-! ### Settling -/

def sameCmd (a b : Cmd) : Bool := a.strand = b.strand && a.seq = b.seq

/-- `MSEQ` of a strand whose matrix command has settled (R246). -/
def noteMseq (e : Engine) (q : BitVec 8) (t : Strand) : Strand :=
  if e = .matrix then { t with mseq := BitVec.ofNat 64 (2 ^ 63 + q.toNat) } else t

/-- A command leaves its queue with its ring entry settled. -/
def settleCmd (s : State) (core : Nat) (e : Engine) (c : Cmd) (st : RingState) (sub : Nat) : State :=
  let s1 := modCore s core fun x =>
    { putQueue x e ((queueOf x e).filter fun d => !sameCmd c d) with settled := x.settled + 1 }
  modStrand s1 core (cmdStrand c) fun t => noteMseq e c.seq (settleRing t c.seq st (BitVec.ofNat 8 sub))

/-- A command completes. -/
def completeCmd (s : State) (core : Nat) (e : Engine) (c : Cmd) : State := settleCmd s core e c .completed 0

/-- A command faults: every queued command of its strand behind it is cancelled (R160). Its accesses are ordered before what follows the
fault's delivery (R289). -/
def faultCmd (s : State) (core : Nat) (e : Engine) (c : Cmd) (sub : Nat) (faddr : Word) (acc : Nat) : State :=
  let behind := (queueOf (getCore s core) e).filter fun d => d.strand = c.strand && !sameCmd c d
  let s1 := settleCmd s core e c .faulted sub
  let s2 := behind.foldl (fun s d => settleCmd s core e d .cancelled 0) s1
  let lf : LateFault :=
    { eng := e, seq := c.seq, sub := BitVec.ofNat 8 sub, acc := BitVec.ofNat 3 acc, faddr := faddr, cancelled := behind.length
      clock := cmdClock c [] }
  modStrand s2 core (cmdStrand c) fun t =>
    { t with
      late := t.late ++ [lf]
      mfaultSeq := if e = .matrix then BitVec.ofNat 64 (2 ^ 63 + sub % 256 * 256 + c.seq.toNat) else t.mfaultSeq }

/-- Agent codes of a fault record (R329). -/
def recAgent : Engine → Nat
  | .vector => 1
  | .matrix => 2
  | .copy => 3
  | .selvedge => 4

/-- The head of the queue replaced. -/
def putHead (x : Core) (e : Engine) (c : Cmd) : Core :=
  putQueue x e ((queueOf x e).map fun d => if sameCmd c d then c else d)

/-- The record of a page fault posted (R329, R331). -/
def postRecord (s : State) (pkg core agent region kind lvl : Nat) (va : Word) : State :=
  modPackage s pkg fun p =>
    { p with inflight := p.inflight ++
        [{ va := va, core := core, agent := agent, region := region, kind := kind, lvl := lvl, gen := p.faultGen }] }

/-- The page request sent to the host (R328). -/
def postPri (s : State) (core : Nat) (pasid : BitVec 20) (page : Nat) : State :=
  modPackage s (pkgOfCore core) fun p => askHost p pasid page

/-- A command stops short: it faults, or parks with the work done so far. -/
def stopCmd (s : State) (core : Nat) (e : Engine) (c : Cmd) : EngErr → State
  | .late sub faddr acc => faultCmd s core e c sub faddr acc
  | .page pkg va kind lvl =>
    let g := (getPackage s pkg).faultGen
    modCore (postRecord s pkg core (recAgent e) (regionOf s core).rcb.id kind lvl va) core fun x =>
      putHead x e { c with parked := .page pkg (fieldOf va 47 16) g }
  | .hostPage pasid page =>
    modCore (postPri s core pasid page) core fun x => putHead x e { c with parked := .hostPage pasid page }
  | .stall => modCore s core fun x => putHead x e { c with parked := .ready }

end Sys2Proof.Machine
end

