-- ==== Sys2Proof/Machine/LoadStore.lean ====
section
/-! DEFINITION. Loads and stores (R116, R117), bit-granular access and the transposing load (R122 to R124). -/

namespace Sys2Proof.Machine

/-- A strand's access that passed its checks goes ahead: not while a command of the core will touch the TCM bytes (R36, R138),
nor while an atomic of the strand that is kept before it is not performed (R145, R146). -/
def accessReady (s : State) (p : Place) (n : Nat) (write : Bool) : Except Stop Unit :=
  if spaceOf p.key = 0 && interlocked s s.ctx.core (p.key % 2 ^ 18) n write then .error (.wait .stall)
  else if behindAtomic s s.ctx.core s.ctx.strand p.va p.key n write then .error (.wait .stall)
  else .ok ()

/-- A memory word waits for the strand's dispatched vector instructions (R223). -/
def vectorsDone (s : State) : Except Stop Unit := if vqBusy s then .error (.wait .stall) else .ok ()

/-- A checked load of `n` bytes, which is one access. -/
def strandLoad (s : State) (va : Word) (n al : Nat) : Except Stop (List Byte × State) := do
  let p ← strandCheck s va n al .load
  accessReady s p n false
  pure (loadAt s (whoMe s) p n)

/-- Sign or zero extension of the low 8n bits by the type code: bit 2 clears the sign (R116). -/
def extendLoad (t : BitVec 3) (x : Nat) : Word :=
  let w := 8 * 2 ^ (t.toNat % 4)
  if t.getLsbD 2 then BitVec.ofNat 64 x else (BitVec.ofNat w x).signExtend 64

/-- `LD` (R116). -/
def execLd (d b : BitVec 5) (t : BitVec 3) (o : BitVec 11) (s : State) : Out State :=
  issueWord (.ld d b t o) s fun s => do
    vectorsDone s
    let n := 2 ^ (t.toNat % 4)
    let (bs, s1) ← strandLoad s (scaledAddr (readS s b) o n) n n
    pure (retire (writeS s1 d (extendLoad t (leNat bs))))

/-- A store of the bytes at a place that passed its checks: deferred on an EX page (R119, R120), once the strand's earlier copies, whose
own deferred stores count before it, have settled (R26, R286). -/
def putStore (s : State) (p : Place) (bs : List Byte) : Except Stop State :=
  match p.mode with
  | .ex =>
    if copiesOut s then .error (.wait .stall) else
    let (o, s1) := nextOrder s s.ctx.core s.ctx.strand
    match deferStore s1 s.ctx.core s.ctx.strand o p bs with
    | some s2 => .ok s2
    | none => .error (programTrap 1)
  | _ => .ok (storeAt s (whoMe s) p bs false)

/-- `ST` (R117). -/
def execSt (d b : BitVec 5) (z : BitVec 2) (o : BitVec 11) (s : State) : Out State :=
  issueWord (.st d b z o) s fun s => do
    vectorsDone s
    let n := 2 ^ z.toNat
    let p ← strandCheck s (scaledAddr (readS s b) o n) n n .store
    accessReady s p n true
    let s1 ← putStore s p (leBytes n (readS s d).toNat)
    pure (retire s1)

/-- `ST.h` (R117): a store to a sync word of TCM or scratchpad, a release and a handoff point: it orders the accesses before it, its own
store not among them (R138). -/
def execStH (d b : BitVec 5) (o : BitVec 11) (s : State) : Out State :=
  issueWord (.stH d b o) s fun s => do
    vectorsDone s
    let va := scaledAddr (readS s b) o 8
    let p ← strandCheck s va 8 8 .store
    if spaceOf p.key > 1 || classAt (myRegion s) p.key ≠ 1 then .error (.trap cSyncClass 0 va 2)
    else
      accessReady s p 8 true
      if atomsPending s then .error (.wait .stall)
      else
        let s1 := storeAt s (whoMe s) p (leBytes 8 (readS s d).toNat) true
        let h : Handoff := { key := p.key, value := readS s d, clock := (me s).clock, any := true, core := s.ctx.core, strand := s.ctx.strand }
        pure (retire (noteHandoff s1 s.ctx.core h))

/-! ### Bit addresses (R122, R123) -/

/-- The bit offset a bit address names, and the address of its first word. -/
def bitAddress (ba : Word) : Option (Nat × Word) :=
  let path := fieldOf ba 63 60
  if 1 < path || fieldOf ba 59 22 ≠ 0 || (path = 0 && ba.getLsbD 21) then none
  else
    let q := fieldOf ba 21 0
    some (q, BitVec.ofNat 64 (path * 2 ^ 60 + q / 64 * 8))

/-- The one or two words of a field are checked, each before any effect; the first is the place of the access. -/
def bitCheck (s : State) (ba : Word) (w : Nat) (kind : AccKind) : Except Stop (Nat × Nat × Place) :=
  match bitAddress ba with
  | none => .error (.trap cAccess 0 ba (accCode kind))
  | some (q, wa) => do
    let o := q % 64
    let k := if 64 < o + w then 2 else 1
    let p ← strandCheck s wa 8 8 kind
    let _ ← if k = 2 then strandCheck s (wa + 8#64) 8 8 kind else .ok p
    accessReady s p (8 * k) (kind = .store)
    pure (o, k, p)

/-- `LDBIT` (R123). -/
def execLdbit (d a : BitVec 5) (b : BitVec 1) (w : BitVec 6) (s : State) : Out State :=
  issueWord (.ldbit d a b w) s fun s => do
    vectorsDone s
    let wd := w.toNat + 1
    let (o, k, p) ← bitCheck s (readS s a) wd .load
    let (bs, s1) := loadAt s (whoMe s) p (8 * k)
    let f := leNat bs / 2 ^ o % 2 ^ wd
    let v := if b = 1#1 then (BitVec.ofNat wd f).signExtend 64 else BitVec.ofNat 64 f
    pure (retire (writeS s1 d v))

/-- `STBIT` (R123): one indivisible access. The word's other bits are written with what they held. -/
def execStbit (a b : BitVec 5) (w : BitVec 6) (s : State) : Out State :=
  issueWord (.stbit a b w) s fun s => do
    vectorsDone s
    let wd := w.toNat + 1
    let (o, k, p) ← bitCheck s (readS s a) wd .store
    let t := memNat s.mem p.key (8 * k)
    let t1 := t - t / 2 ^ o % 2 ^ wd * 2 ^ o + (readS s b).toNat % 2 ^ wd * 2 ^ o
    pure (retire (storeAt s (whoMe s) p (leBytes (8 * k) t1) false))

/-! ### `LDT` (R124) -/

/-- The rows of a transposing load, all checked before any is read. -/
def ldtRows (s : State) (base stride : Word) : Nat → Nat → Except Stop (List Place)
  | 0, _ => .ok []
  | fuel + 1, i => do
    let p ← strandCheck s (base + BitVec.ofNat 64 i * stride) 32 32 .load
    accessReady s p 32 false
    let ps ← ldtRows s base stride fuel (i + 1)
    pure (p :: ps)

/-- The rows' bytes, in order. -/
def ldtLoad (s : State) : List Place → List (List Byte) × State
  | [] => ([], s)
  | p :: ps =>
    let (bs, s1) := loadAt s (whoMe s) p 32
    let (rest, s2) := ldtLoad s1 ps
    (bs :: rest, s2)

/-- Column `j` of `e`-byte elements, row by row. -/
def ldtColumn (rows : List (List Byte)) (e j : Nat) : VWord :=
  BitVec.ofNat 256 (leNat (rows.flatMap fun r => (r.drop (e * j)).take e))

/-- `LDT` (R124). It writes vector registers and waits for the strand's own dispatched vector instructions. A misaligned stride reports the
base in `FAULTADDR`, the model's choice (log entry 73). -/
def execLdt (d a b : BitVec 5) (e : BitVec 2) (s : State) : Out State :=
  issueWord (.ldt d a b e) s fun s => do
    vectorsDone s
    let sz := 2 ^ e.toNat
    let n := 32 / sz
    let base := readS s a
    let stride := readS s b
    if 1 < fieldOf base 63 60 then .error (.trap cAccess 0 base 1)
    else if base.toNat % 32 ≠ 0 || stride.toNat % 32 ≠ 0 then .error (.trap cMisaligned 0 base 1)
    else
      let ps ← ldtRows s base stride n 0
      let (rows, s1) := ldtLoad s ps
      pure (retire ((List.range n).foldl (fun s j => writeV s (d + BitVec.ofNat 5 j) (ldtColumn rows sz j)) s1))

end Sys2Proof.Machine
end

