-- ==== Sys2Proof/Machine/Messages.lean ====
section
/-! DEFINITION. Receive queues and message delivery (R165, R295, R318 to R320). -/

namespace Sys2Proof.Machine

/-- Slots of the receive queue (R295). -/
def rqSlots (x : Core) : Nat := fieldOf x.rqLimit 17 6 - fieldOf x.rqBase 17 6

/-- The queue is usable (R295). -/
def rqUsable (x : Core) : Bool :=
  let n := rqSlots x
  fieldOf x.rqBase 17 6 ≤ fieldOf x.rqLimit 17 6 && 2 ≤ n && fieldOf x.rqHead 11 0 < n &&
    inBounds x (fieldOf x.rqBase 17 6 * 64) (n * 64) && 0x1000 ≤ fieldOf x.rqBase 17 6 * 64

/-- A slot's 64 bytes (R318). -/
def slotBytes (m : Msg) : List Byte :=
  leBytes 4 (m.src % 2 ^ 22) ++ leBytes 4 m.index ++ leBytes 4 m.tag.toNat ++ leBytes 1 (8 * m.payload.length) ++
    leBytes 3 0 ++ (m.payload.flatMap fun w => leBytes 8 w.toNat) ++ leBytes (48 - 8 * m.payload.length) 0

/-- The slot the next message goes to: `RQTAIL.INDEX`, modulo N where a handler has left it past the end of a smaller queue (R8; log entry
75). -/
def rqNext (x : Core) : Nat := fieldOf x.rqTail 11 0 % rqSlots x

/-- Messages written to the queue in order, but for slots in a guard granule (R141); from the first that finds it full, all are held (R318). -/
def deliverTo (s : State) (core : Nat) : List Msg → State × List Msg
  | [] => (s, [])
  | m :: ms =>
    let x := getCore s core
    let n := rqSlots x
    let tail := rqNext x
    if !rqUsable x || (tail + 1) % n = fieldOf x.rqHead 11 0 then (s, m :: ms)
    else
      let o := (fieldOf x.rqBase 17 6 + tail) * 64
      let r := regionOf s core
      let p : Place := { key := tcmKey core o, mode := .untranslated, readOnly := false, leaf := none, va := BitVec.ofNat 64 o }
      let s1 := { s with mem := writeGuarded s.mem r p (slotBytes m) }
      let s2 := if classAt r p.key = 2 then modRegionOf s1 core fun r => { r with guards := (core, p.key / 256, 0, 1#3) :: r.guards } else s1
      deliverTo (modCore s2 core fun x => { x with rqTail := BitVec.ofNat 64 ((tail + 1) % n) }) core ms

/-- Messages held for a core are appended while space remains; any still held raise rq-overflow again (R165). -/
def appendHeld (s : State) (core : Nat) : State :=
  match deliverTo s core (getCore s core).heldMsgs with
  | (s1, held) => modCore s1 core fun x => { x with heldMsgs := held, rqPending := !held.isEmpty }

/-- `RECV` (R319). -/
def recvSlot (s : State) (d : BitVec 5) : State :=
  let x := myCore s
  let head := fieldOf x.rqHead 11 0
  if !rqUsable x || head = fieldOf x.rqTail 11 0 then writeS s d 0#64
  else
    let s1 := modMyCore s fun x => { x with rqHead := BitVec.ofNat 64 ((head + 1) % rqSlots x) }
    writeS s1 d (BitVec.ofNat 64 (fieldOf x.rqBase 17 6 * 64 + 64 * head))

end Sys2Proof.Machine
end

