-- ==== Sys2Proof/Machine/Atomic.lean ====
section
/-! DEFINITION. No-return atomics, sequenced atomics, fences, waiting on a sync word, posting and receiving messages (R125 to
R135, R316 to R319), and the events of an atomic's home (R128). -/

namespace Sys2Proof.Machine

/-! ### No-return atomics (R125 to R128) -/

/-- An NI holds at most 256 unacknowledged atomics (R128). -/
def atomsFull (s : State) : Bool := 256 ≤ ((myRegion s).atoms.countP fun a => a.core = s.ctx.core)

/-- A no-return atomic leaves for its home with the next request id. One on a guard granule is discarded (R141). On path 0x7 only the
64-bit `AMOADD` is admitted (R126, R434). -/
def noReturn (i : Instr) (op : BitVec 3) (a b : BitVec 5) (w : BitVec 1) (s : State) : Out State :=
  issueWord i s fun s => do
    vectorsDone s
    let wide := w = 1#1
    let n := if wide then 8 else 4
    let va := readS s a
    let p ← strandCheck s va n n .amo
    if spaceOf p.key = 5 && (op ≠ 0#3 || !wide) then .error (.trap cAccess 2 va 3)
    else
      accessReady s p n true
      if atomsFull s then .error (.wait .stall)
      else
        let r := myRegion s
        let x := BitVec.ofNat 64 ((readS s b).toNat % 2 ^ (8 * n))
        let s1 := (noteAccess (markLeaf s p true) (whoMe s) p n true (some (op, wide)) false false).1
        if classAt r p.key = 2 && (watchCode p).isSome then pure (retire s1)
        else
          let req : AtomReq :=
            { core := s.ctx.core, strand := s.ctx.strand, count := (myCore s).atomCount, op := op, wide := wide, key := p.key, va := va, operand := x }
          let s2 := modMyCore s1 fun x => { x with atomCount := x.atomCount + 1#16 }
          pure (retire (modRegionOf s2 s.ctx.core fun r => { r with atoms := r.atoms ++ [req] }))

/-- `AMOADD` (R125). -/
def execAmoadd (a b : BitVec 5) (w : BitVec 1) (s : State) : Out State := noReturn (.amoadd a b w) 0#3 a b w s

/-- `AMOAND` (R125). -/
def execAmoand (a b : BitVec 5) (w : BitVec 1) (s : State) : Out State := noReturn (.amoand a b w) 1#3 a b w s

/-- `AMOOR` (R125). -/
def execAmoor (a b : BitVec 5) (w : BitVec 1) (s : State) : Out State := noReturn (.amoor a b w) 2#3 a b w s

/-- `AMOXOR` (R125). -/
def execAmoxor (a b : BitVec 5) (w : BitVec 1) (s : State) : Out State := noReturn (.amoxor a b w) 3#3 a b w s

/-- `AMOMIN` (R125): signed. -/
def execAmomin (a b : BitVec 5) (w : BitVec 1) (s : State) : Out State := noReturn (.amomin a b w) 4#3 a b w s

/-- `AMOMAX` (R125): signed. -/
def execAmomax (a b : BitVec 5) (w : BitVec 1) (s : State) : Out State := noReturn (.amomax a b w) 5#3 a b w s

/-- `AMOMINN` (R125): unsigned. -/
def execAmominn (a b : BitVec 5) (w : BitVec 1) (s : State) : Out State := noReturn (.amominn a b w) 6#3 a b w s

/-- `AMOMAXN` (R125): unsigned. -/
def execAmomaxn (a b : BitVec 5) (w : BitVec 1) (s : State) : Out State := noReturn (.amomaxn a b w) 7#3 a b w s

/-- The new content of the target (R125), on `8n`-bit values. -/
def atomResult (op : BitVec 3) (n old x : Nat) : Nat :=
  let m := 2 ^ (8 * n)
  let sgn (v : Nat) : Int := if m / 2 ≤ v then (v : Int) - m else v
  match op.toNat with
  | 0 => (old + x) % m
  | 1 => old &&& x
  | 2 => old ||| x
  | 3 => old ^^^ x
  | 4 => if sgn x < sgn old then x else old
  | 5 => if sgn old < sgn x then x else old
  | 6 => min old x
  | _ => max old x

/-- Package that holds a memory key: the home of an atomic (R128). -/
def homePkg (a : AtomReq) : Nat :=
  match spaceOf a.key with
  | 0 => a.key / 2 ^ 18 / 65536
  | 1 => (a.key - 2 ^ 60) / 2 ^ 19 / 4096
  | 2 => (a.key - 2 * 2 ^ 60) / 2 ^ 26 / 16
  | 3 => (a.key - 3 * 2 ^ 60) / 2 ^ 46
  | 4 => (a.key - 4 * 2 ^ 60) / 2 ^ 46
  | _ => pkgOfCore a.core

/-- Every atomic in flight, with its region. -/
def allAtoms (s : State) : List (Nat × AtomReq) := s.regions.flatMap fun r => r.atoms.map fun a => (r.rcb.id, a)

/-- The home applies a request whose id it does not hold, and remembers it; it discards one it holds (R128). -/
def applyAtom (s : State) (a : AtomReq) : State :=
  let home := homePkg a
  if (getPackage s home).applied.contains (a.core, a.count) then s
  else
    let n := if a.wide then 8 else 4
    let s1 := { s with mem := memPut s.mem a.key n (atomResult a.op n (memNat s.mem a.key n) a.operand.toNat) }
    modPackage s1 home fun p =>
      let mine := (p.applied.filter fun e => e.1 = a.core).take 4095
      { p with applied := (a.core, a.count) :: mine ++ p.applied.filter fun e => e.1 ≠ a.core }

/-- No request ahead of it in the list is its strand's and kept before it (R146). -/
def mayArrive (a : AtomReq) : List AtomReq → Bool
  | [] => true
  | b :: l => b = a || (!(b.core = a.core && b.strand = a.strand && keptAfter b a.va a.key (if a.wide then 8 else 4) true) && mayArrive a l)

/-- `NO_RETURN_ATOMIC_APPLY` (R128): an arriving request, not ahead of one of its strand that is kept before it. -/
def execNoReturnAtomicApply (idx : Nat) (s : State) : Out State :=
  match (allAtoms s)[idx]? with
  | none => .next s
  | some (id, a) =>
    if mayArrive a (getRegion s id).atoms then
      .next (modRegion (applyAtom s a) id fun r => { r with atoms := r.atoms.erase a })
    else .next s

/-- The first occurrence of a request doubled, in its place. -/
def sendTwice (a : AtomReq) : List AtomReq → List AtomReq
  | [] => []
  | b :: l => if b = a then a :: b :: l else b :: sendTwice a l

/-- `ATOMIC_REPLAY` (R128): an unacknowledged request is sent a second time. -/
def execAtomicReplay (idx : Nat) (s : State) : Out State :=
  match (allAtoms s)[idx]? with
  | none => .next s
  | some (id, a) => .next (modRegion s id fun r => { r with atoms := sendTwice a r.atoms })

/-! ### `AMOSEQ` (R129) -/

/-- The allowance `AMOSEQ` and `POST` share (R129): one more, or the program fault. -/
def takeAllowance (s : State) : Except Stop State :=
  if queueLimit (me s) ≤ (me s).allowance then .error (programTrap 2)
  else .ok (modMe s fun t => { t with allowance := t.allowance + 1 })

/-- `AMOSEQ` (R129): the request is queued in the NI. That the slot's path is tested before its other checks, and the allowance last, is
the model's choice (log entry 72). -/
def execAmoseq (d a b c : BitVec 5) (w : BitVec 1) (s : State) : Out State :=
  issueWord (.amoseq d a b c w) s fun s => do
    vectorsDone s
    let n := if w = 1#1 then 8 else 4
    let va := readS s a
    let slot := readS s d
    let p ← strandCheck s va n n .amoseq
    if spaceOf p.key = 5 then .error (.trap cAccess 2 va 3)
    else if fieldOf slot 63 60 ≠ 0 then .error (.trap cAccess 0 slot 2)
    else
      let q ← strandCheck s slot 16 16 .store
      let s1 ← takeAllowance s
      let (o, s2) := nextOrder s1 s.ctx.core s.ctx.strand
      let key := readS s c
      let lim := fieldOf key 63 32
      let req : SeqReq :=
        { order := o, core := s.ctx.core, key := p.key, size := n, addend := (readS s b).toNat % 2 ^ (8 * n), prio := fieldOf key 31 0
          limit := if lim = 0xFFFFFFFF then 2 ^ (8 * n) - 1 else lim, slot := q.key, va := va }
      pure (retire (modMyCore (markLeaf s2 p true) fun x => { x with seqReqs := x.seqReqs ++ [req] }))

/-! ### Fences and waiting (R131, R133, R135) -/

/-- `FENCE` (R133): the accesses of a strand are performed in order, but for atomics on their way and posted writes whose
acknowledgement is out; `e` in `pred` is a drain point and waits for the strand's engine commands. -/
def execFence (c : BitVec 3) (p q : BitVec 4) (s : State) : Out State :=
  issueWord (.fence c p q) s fun s => do
    vectorsDone s
    if p.getLsbD 0 && !ringSettled (me s) then .error (.wait .stall)
    else if p.getLsbD 1 && atomsPending s then .error (.wait .stall)
    else if c = 6#3 && p.getLsbD 2 && (myCore s).unacked ≠ 0 then .error (.wait .stall)
    else pure (retire s)

/-- The handoff a waiter's word has received in the phase (R131). -/
def handoffOf (s : State) (key : Nat) (v : Word) : Option Handoff :=
  (myRegion s).handoffs.find? fun h => h.key = key && h.value = v

/-- `WAITW` (R131): a drain point; an acquire once a handoff write has carried the value. An ordinary completion orders its
issuing strand alone (R138). -/
def execWaitw (a b : BitVec 5) (s : State) : Out State :=
  issueWord (.waitw a b) s fun s => do
    vectorsDone s
    let va := readS s a
    let v := readS s b
    if 1 < fieldOf va 63 60 then .error (.trap cSyncClass 0 va 4)
    else
      let p ← strandCheck s va 8 8 .wait
      if classAt (myRegion s) p.key ≠ 1 then .error (.trap cSyncClass 0 va 4)
      else
        match handoffOf s p.key v with
        | none => .error (.wait (.word p.key v))
        | some h =>
          let s1 := (noteAccess s (whoMe s) p 8 false none true false).1
          let gets := h.any || (h.core = s.ctx.core && h.strand = s.ctx.strand)
          pure (retire (if gets then modMe s1 fun t => { t with clock := clockJoin t.clock h.clock } else s1))

/-! ### Messages (R316, R317, R319) -/

/-- The payload's dwords, each checked and each a load. -/
def postRead (s : State) (va : Word) : Nat → Nat → Except Stop (List Word × State)
  | 0, _ => .ok ([], s)
  | fuel + 1, i => do
    let (bs, s1) ← strandLoad s (va + BitVec.ofNat 64 (8 * i)) 8 8
    let (ws, s2) ← postRead s1 va fuel (i + 1)
    pure (BitVec.ofNat 64 (leNat bs) :: ws, s2)

/-- `POST` (R316): the payload is read now; the message is queued in the NI. -/
def execPost (a b : BitVec 5) (n : BitVec 6) (s : State) : Out State :=
  issueWord (.post a b n) s fun s => do
    vectorsDone s
    let p := readS s a
    let t := readS s b
    let dst := fieldOf t 21 0
    if fieldOf p 63 60 ≠ 0 || fieldOf t 31 22 ≠ 0 then .error (.trap cAccess 0 p 1)
    else
      let (ws, s1) ← postRead s p n.toNat 0
      if fieldOf (myCore s).pkgId 13 8 < dst / 65536 then .error (.trap cAccess 0 p 1)
      else if !inCoreSet (myRegion s).rcb dst then .error (.trap cAccess 2 p 1)
      else
        let s2 ← takeAllowance s1
        let (o, s3) := nextOrder s2 s.ctx.core s.ctx.strand
        let m : Msg := { order := o, src := s.ctx.core, index := 0, dst := dst, tag := t.extractLsb' 32 32, payload := ws }
        pure (retire (modMyCore s3 fun x => { x with msgs := x.msgs ++ [m] }))

/-- `RECV` (R319): a read of `RQBASE` and `RQLIMIT`, and an access to `RQHEAD` (R86). -/
def execRecv (d : BitVec 5) (s : State) : Out State :=
  issueWord (.recv d) s fun s => .ok (retire (recvSlot (noteRegs s [(0x022, false), (0x023, false), (0x024, true)]) d))

end Sys2Proof.Machine
end

