-- ==== Sys2Proof/Machine/Image.lean ====
section
/-! DEFINITION. Program images (R66 to R72, R338): reading the header and the tables from memory, and the checks that need no
region. -/

namespace Sys2Proof.Machine

/-- A little-endian field of the image at memory key `k`. -/
def imgNat (m : Memory) (k off n : Nat) : Nat := memNat m (k + off) n

def imgWord (m : Memory) (k off : Nat) : Word := BitVec.ofNat 64 (imgNat m k off 8)

/-- Header fields (R66). -/
def imgLength (m : Memory) (k : Nat) : Nat := imgNat m k 0x008 8
def imgSigoff (m : Memory) (k : Nat) : Nat := imgNat m k 0x074 4
def imgNuniform (m : Memory) (k : Nat) : Nat := imgNat m k 0x058 4

/-- R67: the signature block, and `DIGEST` (log entry 5). -/
def imgSigned (m : Memory) (k : Nat) : Bool :=
  let sig := imgSigoff m k
  imgLength m k = sig + 16608 && Config.signatureOk (readBytes m k sig) (readBytes m (k + sig) 16608) &&
    decide (sha384 (readBytes m (k + 0x040) (sig - 0x040)) = readBytes m (k + 0x010) 48)

/-- A table lies wholly within `LENGTH`. -/
def tableIn (m : Memory) (k off n : Nat) : Bool := off + n ≤ imgLength m k

/-- The tables' counts and offsets (R66). -/
def imgTab (m : Memory) (k off : Nat) : Nat × Nat := (imgNat m k off 4, imgNat m k (off + 4) 4)

/-- Rows of a table: the byte offset of each. -/
def tabRows (t : Nat × Nat) (size : Nat) : List Nat := (List.range t.1).map fun i => t.2 + size * i

/-- The header's own fields (R66, less `ENCVER`). -/
def headerOk (m : Memory) (k : Nat) : Bool :=
  let v := imgTab m k 0x040
  let r := imgTab m k 0x048
  let b := imgTab m k 0x050
  let u := imgTab m k 0x058
  let t := imgTab m k 0x060
  let p := imgTab m k 0x068
  imgNat m k 0 4 = 0x534B4249 && imgNat m k 6 2 < 4 && imgNat m k 0x078 136 = 0 && imgSigoff m k % 16 = 0 &&
    tableIn m k v.2 (32 * v.1) && tableIn m k r.2 (48 * r.1) && b.1 ≤ 65536 && tableIn m k b.2 (16 * b.1) && u.1 ≤ 512 &&
    tableIn m k u.2 (8 * u.1 + (u.1 + 7) / 8) && tableIn m k t.2 (32 * t.1) && tableIn m k p.2 (32 * p.1)

/-- A variant-table entry (R68). `VFLAGS` [31:1], which R68 gives no meaning, must be zero: the model's choice (log entry 69). -/
def variantOk (m : Memory) (k o : Nat) : Bool :=
  imgNat m k (o + 8) 4 < 2 && (imgNat m k (o + 8) 4 = 0 || imgNat m k o 8 = 0) &&
    tableIn m k (imgNat m k (o + 16) 4) (imgNat m k (o + 20) 4) && imgNat m k (o + 24) 8 = 0

/-- No two keyed entries of one key, and at most one generic entry (R68): pairs of (key, generic). -/
def variantsDistinct : List (Nat × Bool) → Bool
  | [] => true
  | v :: vs => !vs.contains v && (!v.2 || vs.all fun w => !w.2) && variantsDistinct vs

def variantKey (m : Memory) (k o : Nat) : Nat × Bool := (imgNat m k o 8, decide (imgNat m k (o + 8) 4 = 1))

/-- A routine-table entry's fields that need no region (R69): the code lies in the image, and the entry in the code. `RFLAGS` [31:1],
which R69 gives no meaning, must be zero: the model's choice (log entry 69). -/
def routineOk (m : Memory) (k o : Nat) : Bool :=
  tableIn m k (imgNat m k o 4) (4 * imgNat m k (o + 4) 4) && imgNat m k (o + 12) 4 < imgNat m k (o + 4) 4 &&
    imgNat m k (o + 40) 4 < 2 && imgNat m k (o + 44) 4 % 32 = 0

/-- A transaction-body entry (R70). -/
def bodyOk (m : Memory) (k o : Nat) : Bool :=
  let r := imgTab m k 0x048
  let n := imgNat m k (r.2 + 48 * imgNat m k o 2 + 4) 4
  let pro := imgNat m k (o + 8) 4
  imgNat m k o 2 < r.1 && imgNat m k (o + 2) 2 = 0 && imgNat m k (o + 4) 4 < n && (pro = 0xFFFFFFFF || pro < n) &&
    imgNat m k (o + 12) 4 = 0

/-- A tile-space entry (R72, R338). -/
def tileOk (m : Memory) (k o : Nat) : Bool :=
  let base := imgNat m k o 8
  let len := imgNat m k (o + 8) 8
  let log := imgNat m k (o + 16) 1
  let bits := if base / 2 ^ 60 = 2 then 26 else 48
  (base / 2 ^ 60 = 2 || base / 2 ^ 60 = 4) && base % 2 ^ 60 + len ≤ 2 ^ bits && 8 ≤ log && log ≤ 16 && base % 2 ^ log = 0 &&
    len % 2 ^ log = 0 && imgNat m k (o + 17) 15 = 0

/-- Tile spaces of one kind do not overlap (R338). -/
def tilesDistinct : List (Nat × Nat) → Bool
  | [] => true
  | (b, n) :: ts => (ts.all fun t => t.1 + t.2 ≤ b || b + n ≤ t.1) && tilesDistinct ts

/-- A mapping-table entry (R72): a companion word whose reserved bits are zero (R324). -/
def mapOk (m : Memory) (k o : Nat) : Bool :=
  let c := imgWord m k (o + 16)
  fieldOf c 15 12 ≤ 5 && fieldOf c 11 1 = 0 && (!c.getLsbD 0 || fieldOf c 15 12 = 0) && imgNat m k (o + 24) 8 = 0

/-- Every header check that needs no region (R66, R68 to R72, R338). -/
def imageHeaderOk (m : Memory) (k : Nat) : Bool :=
  let vs := tabRows (imgTab m k 0x040) 32
  let ts := tabRows (imgTab m k 0x060) 32
  headerOk m k && vs.all (variantOk m k) && variantsDistinct (vs.map (variantKey m k)) &&
    (tabRows (imgTab m k 0x048) 48).all (routineOk m k) && (tabRows (imgTab m k 0x050) 16).all (bodyOk m k) &&
    ts.length ≤ 256 && ts.all (tileOk m k) && tilesDistinct (ts.map fun o => (imgNat m k o 8, imgNat m k (o + 8) 8)) &&
    (tabRows (imgTab m k 0x068) 32).all (mapOk m k)

/-! ### The image as read -/

def imgRoutine (m : Memory) (k o : Nat) : Routine :=
  let f (i : Nat) := imgNat m k (o + 4 * i) 4
  { code := (List.range (f 1)).map fun i => BitVec.ofNat 32 (imgNat m k (f 0 + 4 * i) 4)
    loadAddr := f 2, entry := f 3, saveArea := f 4, landBase := f 5, rqBase := f 6, rqLimit := f 7, guardLo := f 8, guardHi := f 9,
    rflags := f 10, planAddr := f 11 }

/-- A variant, with the core table of one package of `n` cores. -/
def imgVariant (m : Memory) (k n o : Nat) : Variant :=
  let tab := imgNat m k (o + 12) 4
  { key := imgWord m k o, generic := imgNat m k (o + 8) 4 = 1
    cores := (List.range n).map fun i => (imgNat m k (tab + 8 * i) 2, imgNat m k (tab + 8 * i + 2) 4)
    plan := readBytes m (k + imgNat m k (o + 16) 4) (imgNat m k (o + 20) 4) }

/-- The core table of a variant lies in the image, its reserved bits are zero and it names routines of the image (R68). An entry that names
none refuses the image, with `HEADER`: the model's choice (log entry 49). -/
def coreTableOk (m : Memory) (k n o : Nat) : Bool :=
  let tab := imgNat m k (o + 12) 4
  tableIn m k tab (8 * n) &&
    (List.range n).all fun i => imgNat m k (tab + 8 * i + 6) 2 = 0 && imgNat m k (tab + 8 * i) 2 < (imgTab m k 0x048).1

def encverOf (n : Nat) : Option EncVer :=
  match n with
  | 1 => some .v1
  | 2 => some .v2
  | 3 => some .v3
  | _ => none

/-- The image, for packages of `n` cores, with its default uniform words. -/
def readImage (m : Memory) (k n : Nat) (v : EncVer) : Image :=
  let u := imgTab m k 0x058
  { encver := v
    flags := imgNat m k 6 2
    digest := readBytes m (k + 0x010) 48
    variants := (tabRows (imgTab m k 0x040) 32).map (imgVariant m k n)
    routines := (tabRows (imgTab m k 0x048) 48).map (imgRoutine m k)
    bodies := (tabRows (imgTab m k 0x050) 16).map fun o =>
      let pro := imgNat m k (o + 8) 4
      { routine := imgNat m k o 2, bentry := imgNat m k (o + 4) 4, prologue := if pro = 0xFFFFFFFF then none else some pro }
    uniform := (List.range u.1).map fun i => imgWord m k (u.2 + 8 * i)
    static := (List.range u.1).map fun i => (memRead m (k + u.2 + 8 * u.1 + i / 8)).getLsbD (i % 8)
    tiles := (tabRows (imgTab m k 0x060) 32).map fun o =>
      { base := imgWord m k o, len := imgNat m k (o + 8) 8, log := imgNat m k (o + 16) 1 }
    maps := (tabRows (imgTab m k 0x068) 32).map fun o =>
      { va := imgNat m k o 8, len := imgNat m k (o + 8) 8, comp := imgWord m k (o + 16) }
    xlongest := imgNat m k 0x070 4 }

end Sys2Proof.Machine
end

