-- ==== Sys2Proof/Machine/Packets.lean ====
section
/-! DEFINITION. Command-processor packets (R408, R413 to R419): their fields, the checks every type shares, issue and completion. -/

namespace Sys2Proof.Machine

/-! ### Fields (R413) -/

def pktType (p : Packet) : Nat := fieldOf p.d0 7 0
def pktIrq (p : Packet) : Bool := p.d0.getLsbD 8
def pktWait (p : Packet) : Bool := p.d0.getLsbD 9
def pktNbuf (p : Packet) : Nat := fieldOf p.d0 31 16
def pktComp (p : Packet) : Word := p.d1
def pktA0 (p : Packet) : Word := p.d3
def pktA1 (p : Packet) : Word := p.d4
def pktA2 (p : Packet) : Word := p.d5
def pktA3 (p : Packet) : Word := p.d6

/-- A command-processor address (R408). -/
def cpOk (a : Word) : Bool := (cpKey? 0 a).isSome

/-- A buffer-list entry (R419): an address, and a dword whose bits 63:51 are zero. -/
def bufEntryOk (m : Memory) (k : Nat) : Bool := cpOk (BitVec.ofNat 64 (memNat m k 8)) && memNat m (k + 8) 8 < 2 ^ 51

/-- What R413 asks of every packet. -/
def packetFormOk (m : Memory) (p : Packet) : Bool :=
  fieldOf p.d0 15 10 = 0 && pktNbuf p ≤ 64 && fieldOf p.d0 63 32 = 0 && fieldOf p.d7 63 32 = 0 &&
    (pktComp p = 0#64 || (cpOk (pktComp p) && (pktComp p).toNat % 8 = 0)) &&
    (if pktNbuf p = 0 then p.d2 = 0#64
     else
       match cpKey? p.pkg p.d2 with
       | none => false
       | some k => (List.range (pktNbuf p)).all fun i => bufEntryOk m (k + 16 * i))

/-- The packet's completion record (R417). -/
def finishPacket (p : Packet) (status : Nat) (detail : Word) (s : State) : State :=
  completePacket s p.pkg p.q p.num (pktComp p) (pktIrq p) status detail

/-- The buffer-list entries (R419): memory key, length, `ACQ` and `REL`. -/
def pktBuffers (m : Memory) (p : Packet) : List (Nat × Nat × Bool × Bool) :=
  match cpKey? p.pkg p.d2 with
  | none => []
  | some k => (List.range (pktNbuf p)).filterMap fun i =>
    let d := BitVec.ofNat 64 (memNat m (k + 16 * i + 8) 8)
    (cpKey? p.pkg (BitVec.ofNat 64 (memNat m (k + 16 * i) 8))).map fun a => (a, fieldOf d 47 0, d.getLsbD 48, d.getLsbD 49)

/-- The packet lists a host range with `REL`, which waits for the acknowledgements of R135. -/
def pktRel (m : Memory) (p : Packet) : Bool := (pktBuffers m p).any fun b => spaceOf b.1 = 5 && b.2.2.2

/-- Bytes [k, k + n) as memory holds them now. -/
def refreshBytes (old now : Memory) (k n : Nat) : Memory :=
  (now.filter fun c => k ≤ c.1 && c.1 < k + n).foldl (fun m c => memWrite m c.1 c.2) (zeroBytes old k n)

/-- `ACQ` (R419): what the dies' read-only caches hold of the listed ranges goes, so that path 0x5 next reads them as they are now. -/
def acquire (p : Packet) (s : State) : State :=
  ((pktBuffers s.mem p).filter fun b => b.2.2.1).foldl (fun s b =>
    { s with regions := s.regions.map fun r => { r with memPhase := refreshBytes r.memPhase s.mem b.1 b.2.1 } }) s

/-- The packet's issue point (R414): it is outstanding until it completes; a malformed one completes at once. -/
def issuePacket (p : Packet) (ok : Bool) (f : State → State) (s : State) : Out State :=
  let s1 := modQueue s p.pkg p.q fun qu => { qu with outstanding := qu.outstanding ++ [p.num] }
  .next (if packetFormOk s.mem p && ok then f (acquire p s1) else finishPacket p statMalformed 0#64 s1)

/-- The region registered with the block at an address: in its own package and, for a region that spans packages, in each other
package of its mask at the same place (R422, R423; log entry 23). -/
def findRcb (s : State) (pkg : Nat) (a : Word) : Option Region :=
  match cpKey? pkg a with
  | none => none
  | some k => (s.regions.find? fun r => r.rcb.key = k).or (s.regions.find? fun r => (blockKeys r.rcb).contains k)

/-- A running, pending or pre-empted launch (R427). -/
def hasLaunch (r : Region) : Bool := r.state = .running || r.state = .pending || r.state = .suspended

end Sys2Proof.Machine
end

