-- ==== Sys2Proof/Machine/Matrix.lean ====
section
/-! DEFINITION. The matrix unit (R243 to R272): its instructions at issue, the commands it executes, and exchange rounds. -/

namespace Sys2Proof.Machine

/-! ### Faults and registers (R252, R86) -/

/-- Late-matrix subcodes; a die SRAM tile the strand does not hold counts as a path not permitted (log entry 17). -/
def mxSub : AccErr → Nat
  | .bounds => 0x02
  | .misaligned => 0x03
  | _ => 0x01

def freshWords (s : State) : Vector Word32 256 × State :=
  (Vector.ofFn fun i => (Config.freeValue (s.fresh + i)).setWidth 32, { s with fresh := s.fresh + 256 })

/-- An undefined latch: a class and values of it. -/
def freshLatch (s : State) : (MClass × List Val) × State :=
  let cls : MClass := match (Config.freeValue s.fresh).toNat % 5 with
    | 0 => .none
    | 1 => .h
    | 2 => .e
    | 3 => .i
    | _ => .q
  let n := 16 * classK cls
  ((cls, (List.range n).map fun i => floatVal .f32 ((Config.freeValue (s.fresh + 1 + i)).toNat % 2 ^ 32)),
    { s with fresh := s.fresh + 1 + n })

def modMx (s : State) (core : Nat) (f : Matrix → Matrix) : State := modCore s core fun x => { x with mx := f x.mx }

/-- An accumulator left undefined. -/
def spoilAcc (s : State) (core : Nat) (n : Fin 4) : State :=
  let (v, s1) := freshWords s
  modMx s1 core fun m => { m with acc := m.acc.set n v }

/-- The latch, and the round counter that goes with it (R248), left undefined. -/
def spoilLatch (s : State) (core : Nat) : State :=
  let (l, s1) := freshLatch s
  let (v, s2) := freshV s1
  modMx s2 core fun m => { m with cls := l.1, latch := l.2, rounds := v.toNat % 2 ^ 32 }

/-- The format and view registers that `MCFG` writes in command order (R247). -/
def mcfgSels : List Nat := [0x050, 0x051, 0x054, 0x055]

/-- Accumulators, the latch, and what `MCFG` has written, that are in conflict in the phase hold undefined values (R86). -/
def spoilMatrix (s : State) (core : Nat) : State :=
  let bad (sel : Nat) := (getCore s core).regConf.any fun e => e.1 = sel
  let s1 := (List.finRange 4).foldl (fun s (n : Fin 4) => if bad (selAcc n) then spoilAcc s core n else s) s
  let s2 := if bad selLatch then spoilLatch s1 core else s1
  mcfgSels.foldl (fun s sel => if bad sel then spoilReg s core sel else s) s2

/-! ### Operand tiles (R254) -/

/-- An operand's address, row by row: permitted paths and the memory's size, alignment, and `CheckAccess` (R252). -/
def mxCheck (s : State) (core : Nat) (c : Cmd) (paths al : Nat) (va : Word) (n : Nat) (write : Bool) : Option AccErr :=
  if paths < fieldOf va 63 60 || (fieldOf va 63 60 = 0 && fieldOf va 59 18 = 0 && 2 ^ 18 < fieldOf va 17 0 + n) then some .path
  else
    match cmdCheck s core c va n 1 write with
    | .error .path => some .path
    | r => if va.toNat % al ≠ 0 then some .misaligned else
      match r with
      | .error e => some e
      | .ok _ => none

/-- Every row is checked before any is accessed; the lowest faulting row is reported (R252). -/
def mxRows (s : State) (core : Nat) (c : Cmd) (paths : Nat) (rows : List (Word × Nat × Nat)) (write : Bool) : Eng Unit :=
  let bad := rows.filterMap fun r => (mxCheck s core c paths r.2.1 r.1 r.2.2 write).map fun e => (r.1, e)
  match bad.foldl (fun best r => match best with
      | none => some r
      | some b => if r.1.toNat < b.1.toNat then some r else some b) none with
  | none => .ok ()
  | some (va, e) => .error (.late (mxSub e) va (if write then 6 else 5), s)

/-- Reads of a command in order, after their checks. -/
def mxReads (core : Nat) (c : Cmd) : List (Word × Nat) → State → Eng (List Byte × State)
  | [], s => .ok ([], s)
  | (va, n) :: rest, s => do
    let (bs, s1) ← cmdRead mxSub core c va n 1 s
    let (more, s2) ← mxReads core c rest s1
    pure (bs ++ more, s2)

/-- Writes of a command in order. -/
def mxWrites (core : Nat) (c : Cmd) : List (Word × List Byte) → State → Eng State
  | [], s => .ok s
  | (va, bs) :: rest, s => do
    let s1 ← cmdWrite mxSub 0 core c 0 va bs 1 s
    mxWrites core c rest s1

/-- A command's descriptor, read and valid for the format (R212, R252): no skip, and the positions the tile needs. A view fault is reported as
a read, `ACC` 5, also where the view serves a store: the model's choice (log entry 17). -/
def mxView (core : Nat) (c : Cmd) (sv : Word) (fmt : BitVec 4) (need : Nat) (s : State) : Eng (ViewDesc × Word × State) :=
  let da := BitVec.ofNat 64 (descAddr sv)
  match cmdRead mxSub core c da 128 128 s with
  | .error _ => .error (.late 0x04 da 5, s)
  | .ok (bs, s1) =>
    match parseView bs fmt with
    | none => .error (.late 0x04 da 5, s1)
    | some d => if d.skip ≠ 0 || viewSize d < need then .error (.late 0x04 da 5, s1) else .ok (d, da, s1)

/-- Canonical indices of view positions 0 to n − 1. -/
def mxIndices (d : ViewDesc) (da : Word) (n : Nat) (s : State) : Eng (List Nat) :=
  ((List.range n).mapM (viewIndex d)).elim (.error (.late 0x04 da 5, s)) .ok

/-- The elements of unstippled bytes (R196, R244). -/
def plainElems (fmt : Nat) : List Byte → List Val
  | [] => []
  | b :: bs =>
    match fmt with
    | 0x0 => intVal b.toInt :: plainElems fmt bs
    | 0xA => floatVal .e4m3 b.toNat :: plainElems fmt bs
    | 0xB => floatVal .e5m2 b.toNat :: plainElems fmt bs
    | _ =>
      match bs with
      | [] => []
      | h :: rest => floatVal .bf16 (b.toNat + 256 * h.toNat) :: plainElems fmt rest

/-- The kinds of packed stippled codes, by storage position. -/
def stippledKinds (fmt : Nat) : List Byte → List QKind
  | [] => []
  | b :: bs =>
    if fmt = 0xD then .code b.toInt :: stippledKinds fmt bs
    else
      match bs with
      | b1 :: b2 :: b3 :: rest => decodeQ4X (leNat [b, b1, b2, b3]) ++ stippledKinds fmt rest
      | _ => []

/-- A stored tile of `rows` rows of `len` elements, in row-major order (R254). Descriptor, rows, then scale bytes are read
(R251). -/
def mxTile (core : Nat) (c : Cmd) (fmt rows len al : Nat) (packed : Bool) (scale sv : Word) (s : State) :
    Eng (List Val × State) :=
  let total := rows * len
  if isStippled fmt then do
    let (d, da, s1) ← mxView core c sv (BitVec.ofNat 4 fmt) total s
    let codeRows := (List.range 16).map fun r => c.a + BitVec.ofNat 64 (64 * r)
    let scales := (List.range (total / 32)).map fun i => scale + c.b + BitVec.ofNat 64 i
    mxRows s1 core c 1 (codeRows.map fun a => (a, 64, 64)) false
    mxRows s1 core c 1 (scales.map fun a => (a, 1, 1)) false
    let ns ← mxIndices d da total s1
    let (code, s2) ← mxReads core c (codeRows.map fun a => (a, 64)) s1
    let (es, s3) ← mxReads core c (scales.map fun a => (a, 1)) s2
    let ea := es.toArray
    let vals := ((stippledKinds fmt code).zip ns).zipIdx.map fun k =>
      decodeStippled k.1.1 (ea.getD (k.2 / 32) 0#8).toNat d.seed k.1.2 d.zp
    pure (vals, s3)
  else do
    let w := fmtBytes fmt
    let sp : Word := if packed then BitVec.ofNat 64 (len * w) else c.b
    let addrs := (List.range rows).map fun r => c.a + BitVec.ofNat 64 r * sp
    mxRows s core c 1 (addrs.zipIdx.map fun a => (a.1, if a.2 = 0 then 64 else al, len * w)) false
    let (bs, s1) ← mxReads core c (addrs.map fun a => (a, len * w)) s
    pure (plainElems fmt bs, s1)

/-! ### Multiplication (R255, R256) -/

/-- `GroupSum` of eight products (R256). -/
def groupSum (ps : List (Val × Val)) (gs : Int) : Val :=
  match ps.map fun p => valScale (valMul p.1 p.2) gs with
  | [] => .zero false
  | v :: vs => vs.foldl valAdd v

/-- The FP32 accumulation of one element, groups of eight in ascending k. -/
def accFloat (gs : Int) : Nat → List (Val × Val) → Nat → Nat
  | 0, _, y => y
  | g + 1, ps, y =>
    let t := rneFloat .f32 (groupSum (ps.take 8) gs)
    accFloat gs g (ps.drop 8) (rneFloat .f32 (valAdd (floatVal .f32 y) (floatVal .f32 t)))

def valInt : Val → Int
  | .fin m e => rtzInt m e
  | _ => 0

/-- The accumulator after a multiplication (R255). -/
def mmaAcc (cls : MClass) (gs : Int) (a latch : Array Val) (acc : Vector Word32 256) (zero : Bool) : Vector Word32 256 :=
  let k := classK cls
  Vector.ofFn fun i =>
    let m := i.val / 16
    let n := i.val % 16
    let ps := (List.range k).map fun j => (a.getD (m * k + j) .nan, latch.getD (16 * j + n) .nan)
    let old : Word32 := if zero then 0#32 else acc[i]
    if cls = .i then BitVec.ofInt 32 (old.toInt + (ps.map fun p => valInt p.1 * valInt p.2).sum)
    else BitVec.ofNat 32 (accFloat gs (k / 8) ps old.toNat)

/-- `GS` of the link latch (R266). -/
def scaleSum (l : Scale) : Int := l.ga.toInt + l.gb.toInt

def putAcc (s : State) (core : Nat) (n : BitVec 2) (v : Vector Word32 256) : State :=
  modMx s core fun m => { m with acc := m.acc.set n.toNat v n.isLt }

def accOf (m : Matrix) (n : BitVec 2) : Vector Word32 256 := m.acc[n.toNat]'n.isLt

/-- `MMA` and `MMAZ` as executed (R255). -/
def runMma (core : Nat) (c : Cmd) (n : BitVec 2) (packed zero : Bool) (s : State) : Eng State :=
  let mx := (getCore s core).mx
  let f := fieldOf mx.fmtA 3 0
  let cls := classOf f
  if cls = .none || cls ≠ mx.cls then .error (.late 0x05 0 7, s)
  else do
    let (vals, s1) ← mxTile core c f 16 (classK cls) 64 packed mx.scaleA (svOf c (fieldOf mx.stipA 2 0)) s
    pure (putAcc s1 core n (mmaAcc cls (scaleSum mx.link) vals.toArray mx.latch.toArray (accOf mx n) zero))

/-- `MLDB` and `MLDBT` as executed (R257). -/
def runMldb (core : Nat) (c : Cmd) (packed transposed : Bool) (s : State) : Eng State :=
  let mx := (getCore s core).mx
  let f := fieldOf mx.fmtB 3 0
  let cls := classOf f
  let k := classK cls
  if cls = .none then .error (.late 0x05 0 7, s)
  else do
    let sv := svOf c (fieldOf mx.stipB 2 0)
    let (vals, s1) ← if transposed then mxTile core c f 16 k 64 packed mx.scaleB sv s else mxTile core c f k 16 16 packed mx.scaleB sv s
    let a := vals.toArray
    let latch := if transposed then (List.range (16 * k)).map fun i => a.getD (i % 16 * k + i / 16) .nan else vals
    pure (modMx s1 core fun m => { m with latch := latch, cls := cls })

/-! ### Accumulator commands (R262 to R264) -/

def accRowAddrs (c : Cmd) : List Word := (List.range 16).map fun m => c.a + BitVec.ofNat 64 (64 * m)

/-- `MLDACC` (R262). -/
def runMldacc (core : Nat) (c : Cmd) (n : BitVec 2) (s : State) : Eng State := do
  mxRows s core c 2 ((accRowAddrs c).map fun a => (a, 64, 64)) false
  let (bs, s1) ← mxReads core c ((accRowAddrs c).map fun a => (a, 64)) s
  let b := bs.toArray
  let word (i : Nat) : Word32 := BitVec.ofNat 32 (leNat ((List.range 4).map fun j => b.getD (4 * i + j) 0#8))
  pure (putAcc s1 core n (Vector.ofFn fun i => word i))

/-- `MSTACC` (R262). -/
def runMstacc (core : Nat) (c : Cmd) (n : BitVec 2) (s : State) : Eng State := do
  mxRows s core c 2 ((accRowAddrs c).map fun a => (a, 64, 64)) true
  let acc := (accOf (getCore s core).mx n).toList
  mxWrites core c ((accRowAddrs c).zipIdx.map fun a => (a.1, ((acc.drop (16 * a.2)).take 16).flatMap fun x => leBytes 4 x.toNat)) s

/-- The bytes of an unstippled narrow accumulator store (R263). -/
def narrowBytes (t : BitVec 4) (acc : List Word32) : List Byte :=
  acc.flatMap fun x =>
    match floatOf t with
    | some f => leBytes (fmtWidth f / 8) (rneFloat f (floatVal .f32 x.toNat))
    | none => leBytes 1 (wrapInt 8 (satInt x.toInt (-128) 127))

/-- The bytes of a stippled accumulator store (R263). -/
def stippledBytes (q4 : Bool) (d : ViewDesc) (xs : List Val) (ns es : List Nat) : List Byte :=
  if q4 then
    (List.range 32).flatMap fun j =>
      leBytes 4 (quantiseQ4X ((xs.drop (8 * j)).take 8) (es.getD (j / 4) 0) d.seed ((ns.drop (8 * j)).take 8) d.zp)
  else (xs.zip ns).zipIdx.flatMap fun x => leBytes 1 (quantiseQ8 x.1.1 (es.getD (x.2 / 32) 0) d.seed x.1.2 d.zp)

/-- Bytes cut into 64-byte rows from an address. -/
def rowsOf (a : Word) (bs : List Byte) : List (Word × List Byte) :=
  (List.range ((bs.length + 63) / 64)).map fun r => (a + BitVec.ofNat 64 (64 * r), (bs.drop (64 * r)).take 64)

/-- `MSTACCQ` (R263): every check precedes the first write. Of several faults, that of an invalid descriptor comes first, then those of the
scale and code addresses, then `ViewFault`: the model's choice (log entry 58). -/
def runMstaccq (core : Nat) (c : Cmd) (n : BitVec 2) (g : BitVec 3) (t : BitVec 4) (s : State) : Eng State := do
  let acc := (accOf (getCore s core).mx n).toList
  let size := if t = 0xC#4 then 128 else if t = 0xD#4 then 256 else 256 * typeWidth t
  let outRows := rowsOf c.a (List.replicate size 0#8)
  let rowChecks := outRows.map fun r => (r.1, 64, r.2.length)
  if inQ t then
    let (d, da, s1) ← mxView core c (svOf c g.toNat) t 256 s
    let scales := (List.range 8).map fun i => c.b + BitVec.ofNat 64 i
    mxRows s1 core c 1 (scales.map fun a => (a, 1, 1)) false
    mxRows s1 core c 2 rowChecks true
    let ns ← mxIndices d da 256 s1
    let (es, s2) ← mxReads core c (scales.map fun a => (a, 1)) s1
    let xs := acc.map fun x => floatVal .f32 x.toNat
    mxWrites core c (rowsOf c.a (stippledBytes (t = 0xC#4) d xs ns (es.map (·.toNat)))) s2
  else
    mxRows s core c 2 rowChecks true
    mxWrites core c (rowsOf c.a (narrowBytes t acc)) s

/-- `MACCADD` (R264): the elements as before the command. -/
def maccadd (int : Bool) (d x : Vector Word32 256) : Vector Word32 256 :=
  Vector.ofFn fun i =>
    if int then d[i] + x[i]
    else BitVec.ofNat 32 (rneFloat .f32 (valAdd (floatVal .f32 d[i].toNat) (floatVal .f32 x[i].toNat)))

/-- A command other than an exchange command, executed. -/
def runMatrix (core : Nat) (c : Cmd) (s : State) : Eng State :=
  match c.instr with
  | .mma n _ b => runMma core c n (b = 0#5) false s
  | .mmaz n _ b => runMma core c n (b = 0#5) true s
  | .mldb _ b => runMldb core c (b = 0#5) false s
  | .mldbt _ b => runMldb core c (b = 0#5) true s
  | .mzero n => .ok (putAcc s core n (Vector.replicate 256 0#32))
  | .mldacc n _ => runMldacc core c n s
  | .mstacc n _ => runMstacc core c n s
  | .mstaccq n _ _ g t => runMstaccq core c n g t s
  | .maccadd n p x => .ok (putAcc s core n (maccadd (p = 1#1) (accOf (getCore s core).mx n) (accOf (getCore s core).mx x)))
  | i => .ok (modMx s core fun m => applyMcfg m i)

/-! ### Exchange rounds (R258 to R261) -/

def isExchange : Instr → Bool
  | .mring _ | .mswap _ => true
  | _ => false

/-- Another core of the cluster has reported C done with fewer exchange commands executed than this one's next (R260). -/
def unmatched (s : State) (core : Nat) : Bool :=
  let k := (getCore s core).mx.rounds
  (List.range 16).any fun i =>
    let x := getCore s (clusterOf core * 16 + i)
    x.cdone && x.mx.rounds ≤ k

/-- An exchange command faults, by no access (`ACC` 7, R151); it counts as executed. -/
def faultExchange (sub : Nat) (s : State) (core : Nat) : State :=
  match (getCore s core).mq with
  | [] => s
  | c :: _ => modMx (faultCmd s core .matrix c sub 0#64 7) core fun m => { m with rounds := m.rounds + 1 }

/-- `MATRIX_COMMAND_START` (R250): the next command of the core, executed whole; an exchange command waits for its round. None starts while a
pre-emption runs (R167). -/
def execMatrixCommandStart (core : Nat) (s : State) : Out State :=
  match (getCore s core).mq with
  | [] => .next s
  | c :: _ =>
    if !enginesRun s core || !keepsViews s core c (matrixFoot (getCore s core).mx c).writes then .next s
    else if isExchange c.instr then
      if unmatched s core then .next (faultExchange 0x06 s core)
      else .next (modCore s core fun x => putHead x .matrix { c with waiting := true })
    else
      let t0 := s.thread
      match runMatrix core c (spoilMatrix s core) with
      | .error e =>
        let s1 := stoppedAt s e
        .next (stopCmd s1 core .matrix { c with threads := threadsSince s1 t0 } e.1)
      | .ok s1 =>
        let s2 := spoilMatrix s1 core
        let k := cmdClock c (threadsSince s2 t0)
        .next (modStrand (completeCmd s2 core .matrix c) core (cmdStrand c) fun t => { t with mxClock := clockJoin t.mxClock k })

/-- The cluster's ring order (R259): positions y, x in order. -/
def ringOrder : List Nat := [0, 1, 2, 3, 7, 6, 5, 4, 8, 9, 10, 11, 15, 14, 13, 12]

/-- The position whose latch a position receives (R259). -/
def ringSource (kind : BitVec 2) (p : Nat) : Nat :=
  match kind.toNat with
  | 0 => ringOrder.getD ((ringOrder.idxOf p + 15) % 16) 0
  | 1 => p / 4 * 4 + (p % 4 + 3) % 4
  | _ => (p / 4 + 3) % 4 * 4 + p % 4

/-- The quadrant of latch element i, at (k, n) = (i / 16, i mod 16). -/
def quadrant (cls : MClass) (i : Nat) : Nat := (if i / 16 < classK cls / 2 then 0 else 2) + (if i % 16 < 8 then 0 else 1)

/-- Two latches of one class exchange the quadrants of the mask: what the first becomes. -/
def swapLatch (cls : MClass) (mask : BitVec 4) (mine theirs : List Val) : List Val :=
  (mine.zip theirs).zipIdx.map fun e => if mask.getLsbD (quadrant cls e.2) then e.1.2 else e.1.1

/-- A member of a round gets its latch, and its command completes. -/
def finishRound (s : State) (core : Nat) (c : Cmd) (cls : MClass) (latch : List Val) : State :=
  spoilMatrix (modMx (completeCmd s core .matrix c) core fun m => { m with cls := cls, latch := latch, rounds := m.rounds + 1 }) core

/-- One member of a complete round, with the latches as they stood when it began. -/
def roundMember (cluster : Nat) (old : List (MClass × List Val)) (s : State) (p : Nat) : State :=
  let core := cluster * 16 + p
  let latch (q : Nat) := old.getD q (.none, [])
  match (getCore s core).mq with
  | [] => s
  | c :: _ =>
    match c.instr with
    | .mring kind => finishRound s core c (latch (ringSource kind p)).1 (latch (ringSource kind p)).2
    | .mswap mask =>
      let q := p % 4 * 4 + p / 4
      if (latch p).1 ≠ (latch q).1 then faultExchange 0x07 s core
      else finishRound s core c (latch p).1 (swapLatch (latch p).1 mask (latch p).2 (latch q).2)
    | _ => s

/-- `EXCHANGE_ROUND` (R258, R260): once all 16 units have started their k-th exchange command, the latches move together, or
every one faults; a round that can no longer be matched faults where it has started. None begins while a pre-emption runs (R261). -/
def execExchangeRound (cluster : Nat) (s : State) : Out State :=
  if !((List.range 16).all fun i => enginesRun s (cluster * 16 + i)) then .next s else
  let cores := (List.range 16).map fun i => cluster * 16 + i
  let head (core : Nat) : Option Cmd := match (getCore s core).mq with
    | c :: _ => if c.waiting then some c else none
    | [] => none
  let heads := cores.filterMap head
  if heads.length = 16 then
    let instrs := heads.map (·.instr)
    if instrs.all fun i => some i = instrs.head? then
      let s1 := cores.foldl spoilMatrix s
      let old := cores.map fun c => ((getCore s1 c).mx.cls, (getCore s1 c).mx.latch)
      .next ((List.range 16).foldl (roundMember cluster old) s1)
    else .next (cores.foldl (faultExchange 0x07) s)
  else .next ((cores.filter fun c => (head c).isSome && unmatched s c).foldl (faultExchange 0x06) s)

/-! ### Issue (R247 to R249) -/

/-- The unit's control registers as a command issued now will find them. -/
def mxAtIssue (s : State) : Matrix := (myCore s).mq.foldl (fun m c => applyMcfg m c.instr) (myCore s).mx

/-- The registers a command that reads A, or B, accesses (R247). -/
def operandSels (fmt stip : Word) (fmtSel scaleSel stipSel : Nat) : List (Nat × Bool) :=
  (fmtSel, false) :: (if isStippled (fieldOf fmt 3 0) then
    [(scaleSel, false), (stipSel, false), (selSv (fieldOf stip 2 0), false)] else [])

/-- A queued matrix command; exchange commands only in the C phase (R249). -/
def mxIssue (i : Instr) (sels : State → List (Nat × Bool)) (a b : BitVec 5) (cOnly : Bool) (s : State) : Out State :=
  issueWord i s fun s =>
    if cOnly && (myRegion s).phase = .t then .error (illegal s)
    else issueCommand s .matrix i (sels s) (readS s a) (readS s b) 0#64 noStart false

def selsA (s : State) : List (Nat × Bool) := operandSels (mxAtIssue s).fmtA (mxAtIssue s).stipA 0x050 0x052 0x054

def selsB (s : State) : List (Nat × Bool) := operandSels (mxAtIssue s).fmtB (mxAtIssue s).stipB 0x051 0x053 0x055

/-- What every command that reads or writes the latch, and every exchange command, accesses: the latch and the round counter, which one strand
alone may use in a phase, and the keeper state (R248). -/
def latchSels : List (Nat × Bool) := [(selLatch, true), (selKeeper, false)]

/-- `MMA` (R255). -/
def execMma (c : BitVec 2) (a b : BitVec 5) (s : State) : Out State :=
  mxIssue (.mma c a b) (fun s => (selAcc c.toNat, true) :: latchSels ++ selsA s) a b false s

/-- `MMAZ` (R255). -/
def execMmaz (c : BitVec 2) (a b : BitVec 5) (s : State) : Out State :=
  mxIssue (.mmaz c a b) (fun s => (selAcc c.toNat, true) :: latchSels ++ selsA s) a b false s

/-- `MLDB` (R257). -/
def execMldb (a b : BitVec 5) (s : State) : Out State := mxIssue (.mldb a b) (fun s => latchSels ++ selsB s) a b false s

/-- `MLDBT` (R257). -/
def execMldbt (a b : BitVec 5) (s : State) : Out State := mxIssue (.mldbt a b) (fun s => latchSels ++ selsB s) a b false s

/-- `MRING` (R259). -/
def execMring (k : BitVec 2) (s : State) : Out State := mxIssue (.mring k) (fun _ => latchSels) 0 0 true s

/-- `MSWAP` (R259). -/
def execMswap (q : BitVec 4) (s : State) : Out State := mxIssue (.mswap q) (fun _ => latchSels) 0 0 true s

/-- `MZERO` (R262). -/
def execMzero (c : BitVec 2) (s : State) : Out State := mxIssue (.mzero c) (fun _ => [(selAcc c.toNat, true)]) 0 0 false s

/-- `MLDACC` (R262). -/
def execMldacc (c : BitVec 2) (a : BitVec 5) (s : State) : Out State :=
  mxIssue (.mldacc c a) (fun _ => [(selAcc c.toNat, true)]) a 0 false s

/-- `MSTACC` (R262). -/
def execMstacc (c : BitVec 2) (a : BitVec 5) (s : State) : Out State :=
  mxIssue (.mstacc c a) (fun _ => [(selAcc c.toNat, false)]) a 0 false s

/-- `MSTACCQ` (R263). -/
def execMstaccq (c : BitVec 2) (a b : BitVec 5) (g : BitVec 3) (t : BitVec 4) (s : State) : Out State :=
  mxIssue (.mstaccq c a b g t) (fun _ => (selAcc c.toNat, false) :: (if inQ t then [(selSv g.toNat, false)] else [])) a b false s

/-- `MACCADD` (R264). -/
def execMaccadd (c : BitVec 2) (p : BitVec 1) (x : BitVec 2) (s : State) : Out State :=
  mxIssue (.maccadd c p x) (fun _ => [(selAcc x.toNat, false), (selAcc c.toNat, true)]) 0 0 false s

/-- `MCFG` (R265). -/
def execMcfg (w : BitVec 2) (a b : BitVec 3) (y x : BitVec 4) (s : State) : Out State :=
  mxIssue (.mcfg w a b y x) (fun _ =>
    (if w.getLsbD 0 then [(0x050, true), (0x054, true)] else []) ++ (if w.getLsbD 1 then [(0x051, true), (0x055, true)] else []))
    0 0 false s

/-! ### The scale keeper (R266 to R269), and waiting (R271) -/

/-- The core stands at the keeper position of its link latch. -/
def isKeeper (s : State) : Bool :=
  let l := (myCore s).mx.link
  s.ctx.core % 16 = 4 * l.ky.toNat + l.kx.toNat

/-- A write of the pending values, in the keeper core and the C phase (R249); in conflict, they are undefined (R86). -/
def keeperWord (i : Instr) (f : State → Scale → Scale) (s : State) : Out State :=
  issueWord i s fun s =>
    if (myRegion s).phase = .t || !isKeeper s then .error (illegal s)
    else
      match noteReg s selKeeper true with
      | (s1, false) => .ok (retire (modMx s1 s.ctx.core fun m => { m with pending := f s m.pending }))
      | (s1, true) =>
        let (v, s2) := freshV s1
        let p : Scale := { ga := v.extractLsb' 0 8, gb := v.extractLsb' 8 8, ky := v.extractLsb' 16 2, kx := v.extractLsb' 18 2 }
        .ok (retire (modMx s2 s.ctx.core fun m => { m with pending := p }))

/-- `MSKSET` (R267). -/
def execMskset (a b : BitVec 5) (w : BitVec 2) (s : State) : Out State :=
  keeperWord (.mskset a b w) (fun s p =>
    let p1 := if w.getLsbD 0 then { p with ga := (readS s a).setWidth 8 } else p
    if w.getLsbD 1 then { p1 with gb := (readS s b).setWidth 8 } else p1) s

/-- `MKEEP` (R268). -/
def execMkeep (y x : BitVec 2) (s : State) : Out State := keeperWord (.mkeep y x) (fun _ p => { p with ky := y, kx := x }) s

/-- `MSKGET` (R269). -/
def execMskget (a : BitVec 5) (s : State) : Out State :=
  issueWord (.mskget a) s fun s =>
    let l := (myCore s).mx.link
    let gs := BitVec.ofInt 9 (scaleSum l)
    .ok (retire (writeS s a ((l.ky ++ l.kx ++ 0#7 ++ gs ++ l.gb ++ l.ga).setWidth 64)))

/-- `MWAIT` (R271): a drain point; then every matrix command the strand issued has settled, and orders its accesses (R251). -/
def execMwait (s : State) : Out State :=
  issueWord .mwait s fun s => do
    if (myCore s).mq.any fun c => c.strand = s.ctx.strand then .error (.wait (.engine (myCore s).settled))
    else pure (retire (modMe s fun t => { t with clock := clockJoin t.clock t.mxClock }))

end Sys2Proof.Machine
end

