-- ==== Sys2Proof/Machine/Checker.lean ====
section
/-! DEFINITION. The access checker at the end of a phase (R136 to R142), register conflicts (R86), X-phase conflicts (R24, R130,
R302), and the barrier reports they become (R151, R162 to R164). -/

namespace Sys2Proof.Machine

/-! ### Agents and granules -/

def agentCore : Agent → Nat
  | .strand c _ => c
  | .ni c _ => c

/-- `OKIND`:`OWNER` of an agent (R143, R151); the target of a sequenced atomic counts as the writer of its results. -/
def agentCode : Agent → Nat
  | .strand c n => 64 + c % 16 * 4 + n % 4
  | .ni _ 4 => 129
  | .ni _ k => 128 + k % 4

/-- Address of a granule's first byte in the form the core's agents issue it (R142): path 0x4 for device memory of the core's own
package, which paths 0x5 and 0x8 also reach (R33, R121). -/
def granAddr (core : Nat) (va : Word) : Word :=
  let path := fieldOf va 63 60
  (if path = 5 || (path = 8 && fieldOf va 53 48 = pkgOfCore core) then (va &&& 0xFFFFFFFFFFFF#64) ||| 0x4000000000000000#64 else va) &&&
    ~~~0xFF#64

/-- The lowest of the addresses by which a core's agents accessed one granule. -/
def lowestAddr (core : Nat) (vas : List Word) : Word :=
  match vas.map (granAddr core) with
  | [] => 0#64
  | a :: l => l.foldl (fun m x => if x.toNat < m.toNat then x else m) a

/-- `BANK` of R151: a granule's first byte lies in bank 0 of TCM and scratchpad (R118). -/
def granBank (gran : Nat) : Nat := if spaceOf (gran * 256) = 2 then gran % 64 else 0

/-- A granule of TCM or scratchpad as its core's agents address it. -/
def untranslatedAddr (gran : Nat) : Word :=
  if spaceOf (gran * 256) = 0 then BitVec.ofNat 64 (gran * 256 % 2 ^ 18)
  else BitVec.ofNat 64 (2 ^ 60 + (gran * 256 - 2 ^ 60) % 2 ^ 19)

/-! ### The granule's tag (R143) -/

/-- The tag of a TCM or scratchpad granule for the debugger: `OWNER` is the agent of its first access in the phase, in the X
phase one of the NI's. No command of R432
reads it; it is a view of the checker's record, which pre-emption keeps with the region (R167). -/
def granuleTag (r : Region) (gran : Nat) : BitVec 16 :=
  let here := r.log.filter fun a => a.lo / 256 = gran
  let cls := BitVec.ofNat 16 (classAt r (gran * 256) % 4)
  let inX := r.xlog.filter fun a => a.lo / 256 = gran
  match here.getLast?, inX.getLast? with
  | none, none => cls
  | none, some first =>
    let shared := inX.any fun a => !a.write && a.agent ≠ first.agent
    BitVec.ofNat 16 ((if shared then 2048 else 0) + (if inX.any (·.write) then 1024 else 0) + 4 * agentCode first.agent) ||| cls
  | some first, _ =>
    let mine := here.filter fun a => a.agent = first.agent
    let shared := here.any fun a => !a.write && a.agent ≠ first.agent && mine.any fun b => !(orderedBefore a b || orderedBefore b a)
    BitVec.ofNat 16 ((if shared then 2048 else 0) + (if here.any (·.write) then 1024 else 0) + 4 * agentCode first.agent) ||| cls

/-! ### Conflicts of the C and T phases (R139) -/

/-- Granules in which two accesses of the list conflict. -/
def conflictGranules : List Access → List Nat
  | [] => []
  | a :: l => if l.any (conflicting a) then (a.lo / 256) :: conflictGranules l else conflictGranules l

/-- What a core reports of a granule in conflict (R142): another agent in conflict with one of its own, where there is one. -/
def granConflict (r : Region) (gran : Nat) (core : Nat) : Conflict :=
  let here := r.log.filter fun a => a.lo / 256 = gran
  let mine := here.filter fun a => agentCore a.agent = core
  let foes := here.filter fun b => mine.any fun a => a ≠ b && conflicting a b
  let mem := (mine.head?.map (·.mem.toNat)).getD 0
  { guard := false, mem := mem, faddr := lowestAddr core (mine.map (·.va)), regsel := 0, bank := granBank gran
    other := ((foes.map fun b => agentCode b.agent).min?).getD 0 }

def addConflict (c : Conflict) (s : State) (core : Nat) : State := modCore s core fun x => { x with conflicts := x.conflicts ++ [c] }

/-- One conflicted granule: every core whose agents accessed it gathers it, and its content is undefined. -/
def settleGranule (r : Region) (s : State) (gran : Nat) : State :=
  let cores := dedup ((r.log.filter fun a => a.lo / 256 = gran).map fun a => agentCore a.agent)
  spoilBytes (cores.foldl (fun s c => addConflict (granConflict r gran c) s c) s) (gran * 256) 256

/-- One guard fault (R141). -/
def settleGuard (s : State) (g : Nat × Nat × Nat × BitVec 3) : State :=
  addConflict
    { guard := true, mem := spaceOf (g.2.1 * 256), faddr := untranslatedAddr g.2.1, regsel := 0, bank := granBank g.2.1, other := 0 } s g.1

/-- The lowest strand with an access to the register that conflicts with another strand's (R86, R151): the order of the accesses, which is
timing (R26, R78), does not enter. Two accesses are in conflict only where one of them writes, those of two bodies among them: the model's
reading of R86 (log entry 83). -/
def regFoe (acc : List (Nat × Nat × Bool)) (sel : Nat) : Nat :=
  let l := acc.filter fun a => a.1 = sel
  (((l.filter fun a => l.any fun b => a.2.1 ≠ b.2.1 && (a.2.2 || b.2.2)).map fun a => a.2.1).min?).getD 0

/-- The keeper's pending values left undefined. -/
def spoilKeeper (s : State) (core : Nat) : State :=
  let (v, s1) := freshV s
  modMx s1 core fun m =>
    { m with pending := { ga := v.extractLsb' 0 8, gb := v.extractLsb' 8 8, ky := v.extractLsb' 16 2, kx := v.extractLsb' 18 2 } }

/-- A core's register conflicts (R86): gathered, and the registers left undefined. -/
def settleRegs (s : State) (core : Nat) : State :=
  let confs := (getCore s core).regConf
  let c (e : Nat × Nat) : Conflict :=
    { guard := false, mem := 4, faddr := 0, regsel := e.1, bank := 0, other := 64 + core % 16 * 4 + regFoe (getCore s core).regAcc e.1 % 4 }
  let s1 := confs.foldl (fun s e => addConflict (c e) s core) s
  let s2 := confs.foldl (fun s e => spoilReg s core e.1) (spoilMatrix s1 core)
  let s3 := if confs.any fun e => e.1 = selKeeper then spoilKeeper s2 core else s2
  modCore s3 core fun x => { x with regAcc := [], regConf := [] }

/-- The clocks of a strand at a phase start: every access of the phase before is ordered before (R138). -/
def resetClocks (t : Strand) : Strand := { t with clock := [], copyClock := [], mxClock := [] }

/-- The end of a phase (R138, R142): conflicts are settled and the record cleared. -/
def endPhase (s : State) (id : Nat) : State :=
  let r := getRegion s id
  let cores := heldCores s id
  let s1 := (dedup (conflictGranules r.log)).foldl (settleGranule r) s
  let s2 := (dedup r.guards).foldl settleGuard s1
  let s3 := cores.foldl settleRegs s2
  let s4 := cores.foldl (fun s c => modCore s c fun x => { x with strands := x.strands.map resetClocks }) s3
  modRegion s4 id fun r => { r with log := [], guards := [], handoffs := [], tileClocks := [], permClocks := [] }

/-! ### Conflicts of the X phase -/

/-- Kinds of `XAccess.agent` beyond the NI writers of R136: a sequenced atomic's target and a deferred store. -/
def niSeqTarget : Nat := 4
def niDeferred : Nat := 5

def xKind (a : XAccess) : Nat :=
  match a.agent with
  | .ni _ k => k
  | .strand _ _ => 0

/-- A read or write of memory by an agent of the X phase, in each granule. -/
def noteX (s : State) (id : Nat) (agent : Agent) (key n : Nat) (write : Bool) (src entry : Nat) (count : Bool) (va : Word) (mem : Nat) : State :=
  modRegion s id fun r =>
    { r with xlog := ((granParts key n).map fun q =>
        { agent := agent, lo := q.1, hi := q.2, write := write, src := src, entry := entry, count := count,
          va := va + BitVec.ofNat 64 (q.1 - key), mem := mem }) ++ r.xlog }

/-- An entry waits, directly or through a chain of `AFTER`s, for the entry `e` of its segment (R301, R302). -/
def waitsFor (plan : List PlanEntry) (e : Nat) : Nat → Nat → Bool
  | 0, _ => false
  | fuel + 1, i =>
    match plan[i]? with
    | none => false
    | some p => let a := fieldOf p.w0 19 8
      a ≠ 0xFFF && (a = e || waitsFor plan e fuel a)

/-- A plan read is made by an entry that waits for the `REDUCE` that makes the write (R302). -/
def readExempt (s : State) (rd wr : XAccess) : Bool :=
  rd.src = wr.src && waitsFor (getCore s rd.src).plan wr.entry 1024 rd.entry

/-- Two X-phase accesses conflict (R24, R130, R302). -/
def xConflicting (s : State) (a b : XAccess) : Bool :=
  if a.lo / 256 ≠ b.lo / 256 then false
  else
    let ka := xKind a
    let kb := xKind b
    if ka ≤ 3 && kb ≤ 3 then
      if a.write && b.write then
        if ka ≠ kb then true
        else ka = 0 && (a.src, a.entry) ≠ (b.src, b.entry) && a.lo < b.hi && b.lo < a.hi && !(a.count && b.count)
      else if a.write then !readExempt s b a
      else if b.write then !readExempt s a b
      else false
    else (ka = 0 && 4 ≤ kb) || (kb = 0 && 4 ≤ ka)

def xGranules (s : State) : List XAccess → List Nat
  | [] => []
  | a :: l => if l.any (xConflicting s a) then (a.lo / 256) :: xGranules s l else xGranules s l

/-- One granule in conflict in the X phase. -/
def settleX (r : Region) (s0 : State) (s : State) (gran : Nat) : State :=
  let here := r.xlog.filter fun a => a.lo / 256 = gran
  let one (s : State) (core : Nat) : State :=
    let mine := here.filter fun a => agentCore a.agent = core
    let foes := here.filter fun b => mine.any fun a => a ≠ b && xConflicting s0 a b
    addConflict
      { guard := false, mem := (mine.head?.map (·.mem)).getD 0, faddr := lowestAddr core (mine.map (·.va)), regsel := 0,
        bank := granBank gran, other := ((foes.map fun b => agentCode b.agent).min?).getD 0 } s core
  spoilBytes ((dedup (here.map fun a => agentCore a.agent)).foldl one s) (gran * 256) 256

/-- The X phase's conflicts and guard faults settled. -/
def endXPhase (s : State) (id : Nat) : State :=
  let r := getRegion s id
  let s1 := (dedup (xGranules s r.xlog)).foldl (settleX r s) s
  let s2 := (dedup r.guards).foldl settleGuard s1
  modRegion s2 id fun r => { r with xlog := [], guards := [] }

/-- A write to TCM by an agent of the NI, outside guard granules (R141), recorded as an X-phase write. -/
def niWrite (s : State) (id core kind off : Nat) (bs : List Byte) (src entry : Nat) (count : Bool) : State :=
  let r := getRegion s id
  let key := tcmKey core off
  let p : Place := { key := key, mode := .untranslated, readOnly := false, leaf := none, va := BitVec.ofNat 64 off }
  let s1 := noteX s id (.ni core kind) key bs.length true src entry count (BitVec.ofNat 64 off) 0
  let guarded := ((granParts key bs.length).filter fun q => classAt r q.1 = 2).map fun q => (core, q.1 / 256, 0, 1#3)
  modRegion { s1 with mem := writeGuarded s1.mem r p bs } id fun r => { r with guards := guarded ++ r.guards }

/-! ### Reports (R151, R162) -/

/-- Order of R142 and R162: TCM, scratchpad, die SRAM, SW pages, RED pages, registers; then by address or `REGSEL`. -/
def conflictRank (c : Conflict) : Nat × Nat :=
  (if c.mem = 4 then 5 else if c.mem = 5 then 4 else c.mem, if c.mem = 4 then c.regsel else c.faddr.toNat)

def sameFault (a b : Conflict) : Bool := a.guard = b.guard && conflictRank a = conflictRank b

/-- Each granule or register once. -/
def distinctFaults : List Conflict → List Conflict
  | [] => []
  | c :: l => if l.any (sameFault c) then distinctFaults l else c :: distinctFaults l

def rankLe (a b : Conflict) : Bool :=
  let x := conflictRank a
  let y := conflictRank b
  x.1 < y.1 || (x.1 = y.1 && x.2 ≤ y.2)

/-- `FAULTINFO` of a barrier report. -/
def barrierInfo (count sub mem bank regsel other : Nat) : Word :=
  BitVec.ofNat 64 (min count 255 * 2 ^ 48 + sub % 256 * 2 ^ 40 + mem % 16 * 2 ^ 36 + bank % 64 * 2 ^ 30 + regsel % 4096 * 2 ^ 12 +
    other % 256 * 2 ^ 4 + 7)

/-- The report of a core's conflicts, or of its guard faults. -/
def conflictReport (cs : List Conflict) (guard : Bool) (superstep : Word) : Option Report :=
  match sortBy rankLe (distinctFaults (cs.filter fun c => c.guard = guard)) with
  | [] => none
  | c :: l => some
      { cause := BitVec.ofNat 8 (if guard then cGuard else cConflict), faddr := c.faddr,
        info := barrierInfo l.length 0 c.mem c.bank c.regsel c.other, superstep := superstep }

/-- A report is held, in code order; one of a cause already held adds to that report's `COUNT` (R162). -/
def addReport (r : Report) : List Report → List Report
  | [] => [r]
  | h :: l =>
    if h.cause = r.cause then
      let n := min 255 (fieldOf h.info 55 48 + 1 + fieldOf r.info 55 48)
      { h with info := (h.info &&& 0xFF00FFFFFFFFFFFF#64) ||| BitVec.ofNat 64 (n * 2 ^ 48) } :: l
    else if r.cause.toNat < h.cause.toNat then r :: h :: l
    else h :: addReport r l

def xfaultLe (a b : XFault) : Bool := a.src < b.src || (a.src = b.src && a.entry ≤ b.entry)

/-- The exchange report of a core (R315): the lowest sender, then the lowest entry. It carries R315's subcode, where R152 lists none for its
cause (log entry 74). -/
def exchangeReport (fs : List XFault) (superstep : Word) : Option Report :=
  match sortBy xfaultLe fs with
  | [] => none
  | f :: l => some
      { cause := BitVec.ofNat 8 cExchange, faddr := f.faddr, info := barrierInfo l.length f.sub.toNat 0 0 0 0, superstep := superstep }

/-- What the superstep adds to a core's held reports. -/
def superstepReports (r : Region) (core : Nat) (x : Core) (mismatch : Bool) : List Report :=
  let lost := (r.noLanding.filter fun e => e.1 = core).foldl (fun n e => n + e.2) 0
  let all : List (Option Report) :=
    [conflictReport x.conflicts false r.superstep, conflictReport x.conflicts true r.superstep,
     if mismatch then some { cause := BitVec.ofNat 8 cEndMismatch, faddr := 0, info := barrierInfo 0 0 0 0 0 0, superstep := r.superstep } else none,
     exchangeReport x.xfaults r.superstep,
     if lost = 0 then none else
       some { cause := BitVec.ofNat 8 cNoLanding, faddr := 0, info := barrierInfo (lost - 1) 0 0 0 0 0, superstep := r.superstep }]
  (all.filterMap id).foldl (fun l r => addReport r l) x.reports

end Sys2Proof.Machine
end

