-- ==== Sys2Proof/Machine/Vector.lean ====
section
/-! DEFINITION. The vector unit's arithmetic (R218, R219, R226 to R237): one effect per instruction on the registers of the
strand that issued it. -/

namespace Sys2Proof.Machine

/-! ### Elements and lanes (R218, R219) -/

/-- Elements of width `w` bytes in a register. -/
def lanes (w : Nat) : Nat := 32 / w

/-- Element e of a register value, as a number. -/
def elemOf (v : VWord) (w e : Nat) : Nat := v.toNat / 2 ^ (8 * w * e) % 2 ^ (8 * w)

def vElem (s : State) (r : BitVec 5) (w e : Nat) : Nat := elemOf (readV s r) w e

/-- Element e is active: `m` = 0, or bit e·w of the mask register. -/
def laneOn (s : State) (m : BitVec 3) (w e : Nat) : Bool := m = 0#3 || (readK s m).getLsbD (e * w)

/-- A register value from its elements. -/
def buildV (w : Nat) (f : Nat → Nat) : VWord :=
  BitVec.ofNat 256 ((List.range (lanes w)).foldl (fun acc e => acc + f e % 2 ^ (8 * w) * 2 ^ (8 * w * e)) 0)

/-- The active elements of the destination replaced. -/
def vPick (s : State) (d : BitVec 5) (m : BitVec 3) (t : BitVec 4) (f : Nat → Nat) : State :=
  let w := typeWidth t
  writeV s d (buildV w fun e => if laneOn s m w e then f e else vElem s d w e)

/-- An operation on the elements of `V[a]`, `V[b]` and the old destination. -/
def vMap3 (s : State) (d a b : BitVec 5) (m : BitVec 3) (t : BitVec 4) (f : Nat → Nat → Nat → Nat) : State :=
  let w := typeWidth t
  vPick s d m t fun e => f (vElem s a w e) (vElem s b w e) (vElem s d w e)

/-! ### Element arithmetic (R226, R227) -/

/-- An operation exact on integers, reduced modulo 2^N, or on values, rounded once to the element's format. -/
def elemOp (t : BitVec 4) (fi : Int → Int → Int → Int) (ff : Val → Val → Val → Val) (x y z : Nat) : Nat :=
  match floatOf t with
  | some f => rneFloat f (ff (floatVal f x) (floatVal f y) (floatVal f z))
  | none => wrapInt (bitsOf t) (fi (intOf t x) (intOf t y) (intOf t z))

/-- The smaller value; the first of equal ones (R227). -/
def valMin (x y : Val) : Val := if isNaN x || isNaN y then .nan else if valBelow y x then y else x

/-- The larger value; the first of equal ones (R227). -/
def valMax (x y : Val) : Val := if isNaN x || isNaN y then .nan else if valBelow x y then y else x

/-- Arithmetic right shift of an `n`-bit element. -/
def sraElem (n x s : Nat) : Nat :=
  let neg := 2 ^ (n - 1) ≤ x
  if n ≤ s then (if neg then 2 ^ n - 1 else 0)
  else x / 2 ^ s + (if neg then 2 ^ n - 2 ^ (n - s) else 0)

/-- `Sat` to the range of the type. -/
def satElem (t : BitVec 4) (x : Int) : Nat := wrapInt (bitsOf t) (satInt x (intRange t).1 (intRange t).2)

/-- Sum of two elements, as `VADD` forms it. -/
def addElem (t : BitVec 4) (x y : Nat) : Nat := elemOp t (fun x y _ => x + y) (fun x y _ => valAdd x y) x y 0

/-! ### Compares, reductions, scan, conversion, block scales -/

/-- A compare (R228): all bits under an element. -/
def vCompare (s : State) (k : BitVec 3) (a b : BitVec 5) (m : BitVec 3) (t : BitVec 4) (f : Val → Val → Bool) : State :=
  let w := typeWidth t
  let bits (e : Nat) : Nat :=
    if laneOn s m w e && f (elemVal t (vElem s a w e)) (elemVal t (vElem s b w e)) then (2 ^ w - 1) * 2 ^ (e * w) else 0
  writeK s k (BitVec.ofNat 32 ((List.range (lanes w)).foldl (fun acc e => acc + bits e) 0))

/-- One level of the reduction tree (R231). -/
def reduceLevel (op : Nat → Nat → Nat) : List (Option Nat) → List (Option Nat)
  | some x :: some y :: rest => some (op x y) :: reduceLevel op rest
  | x :: y :: rest => (x <|> y) :: reduceLevel op rest
  | l => l

def reduceLevels (op : Nat → Nat → Nat) : Nat → List (Option Nat) → List (Option Nat)
  | 0, l => l
  | n + 1, l => reduceLevels op n (reduceLevel op l)

/-- `Reduce` (R231): the tree, then the carry-in. -/
def reduceTree (op : Nat → Nat → Nat) (xs : List (Option Nat)) (cin : Nat) : Nat :=
  match (reduceLevels op 5 xs).head? with
  | some (some x) => op x cin
  | _ => cin

/-- A reduction into element 0, every other bit zero. -/
def vReduce (s : State) (d a b : BitVec 5) (m : BitVec 3) (t : BitVec 4) (op : Nat → Nat → Nat) : State :=
  let w := typeWidth t
  let xs := (List.range (lanes w)).map fun e => if laneOn s m w e then some (vElem s a w e) else none
  writeV s d (BitVec.ofNat 256 (reduceTree op xs (vElem s b w 0)))

/-- Inclusive prefix sums of the active elements (R232). -/
def scanElems (op : Nat → Nat → Nat) : List (Bool × Nat) → Nat → List (Option Nat)
  | [], _ => []
  | (true, x) :: rest, y => some (op y x) :: scanElems op rest (op y x)
  | (false, _) :: rest, y => none :: scanElems op rest y

/-- Conversion of an element between types of set B (R200). -/
def convertElem (dst src : BitVec 4) (x : Nat) : Nat :=
  match floatOf dst, floatOf src with
  | none, none => satElem dst (intOf src x)
  | _, _ => toElem dst (elemVal src x)

/-- `E` of R236 for the largest magnitude M. -/
def blockScale (m : Val) (l ep : Nat) : Nat :=
  match m with
  | .nan | .inf _ => 255
  | .zero _ => if ep = 255 then 255 else ep
  | m =>
    if ep = 255 then 255
    else
      let fits (e : Nat) : Bool := !valLt (.fin (2 * l - 1 : Int) (-1)) (valScale m (127 - (e : Int)))
      max (((List.range 255).find? fits).getD 254) ep

/-! ### The instructions -/

/-- `VADD` (R226). -/
def effVadd (d a b : BitVec 5) (m : BitVec 3) (t : BitVec 4) (s : State) : State :=
  vMap3 s d a b m t (elemOp t (fun x y _ => x + y) (fun x y _ => valAdd x y))

/-- `VSUB` (R226). -/
def effVsub (d a b : BitVec 5) (m : BitVec 3) (t : BitVec 4) (s : State) : State :=
  vMap3 s d a b m t (elemOp t (fun x y _ => x - y) (fun x y _ => valAdd x (valNeg y)))

/-- `VMUL` (R226). -/
def effVmul (d a b : BitVec 5) (m : BitVec 3) (t : BitVec 4) (s : State) : State :=
  vMap3 s d a b m t (elemOp t (fun x y _ => x * y) (fun x y _ => valMul x y))

/-- `VFMA` (R226: one rounding). -/
def effVfma (d a b : BitVec 5) (m : BitVec 3) (t : BitVec 4) (s : State) : State :=
  vMap3 s d a b m t (elemOp t (fun x y z => x * y + z) (fun x y z => valAdd (valMul x y) z))

/-- `VMIN` (R226, R227). -/
def effVmin (d a b : BitVec 5) (m : BitVec 3) (t : BitVec 4) (s : State) : State :=
  vMap3 s d a b m t (elemOp t (fun x y _ => min x y) (fun x y _ => valMin x y))

/-- `VMAX` (R226, R227). -/
def effVmax (d a b : BitVec 5) (m : BitVec 3) (t : BitVec 4) (s : State) : State :=
  vMap3 s d a b m t (elemOp t (fun x y _ => max x y) (fun x y _ => valMax x y))

/-- `VABS` (R226, R227). -/
def effVabs (d a : BitVec 5) (m : BitVec 3) (t : BitVec 4) (s : State) : State :=
  vMap3 s d a a m t (elemOp t (fun x _ _ => (x.natAbs : Int)) (fun x _ _ => valAbs x))

/-- `VNEG` (R226, R227). -/
def effVneg (d a : BitVec 5) (m : BitVec 3) (t : BitVec 4) (s : State) : State :=
  vMap3 s d a a m t (elemOp t (fun x _ _ => -x) (fun x _ _ => valNeg x))

/-- `VAND` (R226). -/
def effVand (d a b : BitVec 5) (m : BitVec 3) (t : BitVec 4) (s : State) : State :=
  vMap3 s d a b m t (fun x y _ => x &&& y)

/-- `VOR` (R226). -/
def effVor (d a b : BitVec 5) (m : BitVec 3) (t : BitVec 4) (s : State) : State :=
  vMap3 s d a b m t (fun x y _ => x ||| y)

/-- `VXOR` (R226). -/
def effVxor (d a b : BitVec 5) (m : BitVec 3) (t : BitVec 4) (s : State) : State :=
  vMap3 s d a b m t (fun x y _ => x ^^^ y)

/-- `VSLL` (R226). -/
def effVsll (d a b : BitVec 5) (m : BitVec 3) (t : BitVec 4) (s : State) : State :=
  vMap3 s d a b m t (fun x y _ => if bitsOf t ≤ y then 0 else x * 2 ^ y % 2 ^ bitsOf t)

/-- `VSRL` (R226). -/
def effVsrl (d a b : BitVec 5) (m : BitVec 3) (t : BitVec 4) (s : State) : State :=
  vMap3 s d a b m t (fun x y _ => if bitsOf t ≤ y then 0 else x / 2 ^ y)

/-- `VSRA` (R226). -/
def effVsra (d a b : BitVec 5) (m : BitVec 3) (t : BitVec 4) (s : State) : State :=
  vMap3 s d a b m t (fun x y _ => sraElem (bitsOf t) x y)

/-- `VADDS` (R226). -/
def effVadds (d a b : BitVec 5) (m : BitVec 3) (t : BitVec 4) (s : State) : State :=
  vMap3 s d a b m t (fun x y _ => satElem t (intOf t x + intOf t y))

/-- `VSUBS` (R226). -/
def effVsubs (d a b : BitVec 5) (m : BitVec 3) (t : BitVec 4) (s : State) : State :=
  vMap3 s d a b m t (fun x y _ => satElem t (intOf t x - intOf t y))

/-- `VCMPEQ` (R228). -/
def effVcmpeq (k : BitVec 3) (a b : BitVec 5) (m : BitVec 3) (t : BitVec 4) (s : State) : State :=
  vCompare s k a b m t (fun x y => valEq x y)

/-- `VCMPNE` (R228). -/
def effVcmpne (k : BitVec 3) (a b : BitVec 5) (m : BitVec 3) (t : BitVec 4) (s : State) : State :=
  vCompare s k a b m t (fun x y => !valEq x y)

/-- `VCMPLT` (R228). -/
def effVcmplt (k : BitVec 3) (a b : BitVec 5) (m : BitVec 3) (t : BitVec 4) (s : State) : State :=
  vCompare s k a b m t (fun x y => valLt x y)

/-- `VCMPLE` (R228). -/
def effVcmple (k : BitVec 3) (a b : BitVec 5) (m : BitVec 3) (t : BitVec 4) (s : State) : State :=
  vCompare s k a b m t (fun x y => valLt x y || valEq x y)

/-- `VSEL` (R229): every element is written. -/
def effVsel (d a b : BitVec 5) (m : BitVec 3) (t : BitVec 4) (s : State) : State :=
  writeV s d (buildV (typeWidth t) fun e => if laneOn s m (typeWidth t) e then vElem s a (typeWidth t) e else vElem s b (typeWidth t) e)

/-- `VREDSUM` (R231): `.bf16` sums are formed, and left, in FP32. -/
def effVredsum (d a b : BitVec 5) (m : BitVec 3) (t : BitVec 4) (s : State) : State :=
  if t = 0x9#4 then
    let xs := (List.range 16).map fun e => if laneOn s m 2 e then some (rneFloat .f32 (floatVal .bf16 (vElem s a 2 e))) else none
    writeV s d (BitVec.ofNat 256 (reduceTree (addElem 0x8#4) xs (vElem s b 4 0)))
  else vReduce s d a b m t (addElem t)

/-- `VREDMAX` (R231). -/
def effVredmax (d a b : BitVec 5) (m : BitVec 3) (t : BitVec 4) (s : State) : State :=
  vReduce s d a b m t fun x y => elemOp t (fun x y _ => max x y) (fun x y _ => valMax x y) x y 0

/-- `VREDMIN` (R231). -/
def effVredmin (d a b : BitVec 5) (m : BitVec 3) (t : BitVec 4) (s : State) : State :=
  vReduce s d a b m t fun x y => elemOp t (fun x y _ => min x y) (fun x y _ => valMin x y) x y 0

/-- `VSCAN` (R232). -/
def effVscan (d a b : BitVec 5) (m : BitVec 3) (t : BitVec 4) (s : State) : State :=
  let w := typeWidth t
  let sums := scanElems (addElem t) ((List.range (lanes w)).map fun e => (laneOn s m w e, vElem s a w e)) (vElem s b w 0)
  writeV s d (buildV w fun e => (sums.getD e none).getD (vElem s d w e))

/-- `VPERM` (R233). -/
def effVperm (d a b : BitVec 5) (m : BitVec 3) (t : BitVec 4) (s : State) : State :=
  vPick s d m t fun e => vElem s a (typeWidth t) (vElem s b (typeWidth t) e % lanes (typeWidth t))

/-- `VBCAST` (R233). -/
def effVbcast (d a b : BitVec 5) (m : BitVec 3) (t : BitVec 4) (s : State) : State :=
  vPick s d m t fun _ => vElem s a (typeWidth t) (vElem s b 1 0 % lanes (typeWidth t))

/-- `VSLIDE` (R233). -/
def effVslide (d a b : BitVec 5) (m : BitVec 3) (t : BitVec 4) (s : State) : State :=
  let k : Int := ((readV s b).extractLsb' 0 16).toInt
  vPick s d m t fun e =>
    let j : Int := e + k
    if 0 ≤ j && j < lanes (typeWidth t) then vElem s a (typeWidth t) j.toNat else 0

/-- `VCVT` (R235). -/
def effVcvt (d a : BitVec 5) (u : BitVec 4) (m : BitVec 3) (t : BitVec 4) (s : State) : State :=
  let wd := typeWidth t
  let n := 32 / max wd (typeWidth u)
  writeV s d (buildV wd fun e =>
    if e < n && laneOn s m wd e then convertElem t u (vElem s a (typeWidth u) e) else vElem s d wd e)

/-- `VSCALE` (R236). -/
def effVscale (d a b : BitVec 5) (m : BitVec 3) (t : BitVec 4) (s : State) : State :=
  let w := typeWidth t
  let xs := ((List.range (lanes w)).filter (laneOn s m w)).map fun e => valAbs (elemVal t (vElem s a w e))
  let l0 := vElem s b 1 0
  let l := if l0 = 0 then 1 else min l0 127
  writeV s d (BitVec.ofNat 256 (blockScale (xs.foldl valMax (.zero false)) l (vElem s b 1 1) * 256 + l))

/-- `VEXP2` (R237). -/
def effVexp2 (d a : BitVec 5) (m : BitVec 3) (t : BitVec 4) (s : State) : State :=
  vMap3 s d a a m t (fun x _ _ => match floatOf t with
    | some f => exp2Code f (floatVal f x)
    | none => x)

/-- `VRCP` (R237). -/
def effVrcp (d a : BitVec 5) (m : BitVec 3) (t : BitVec 4) (s : State) : State :=
  vMap3 s d a a m t (fun x _ _ => match floatOf t with
    | some f => recipCode f (floatVal f x)
    | none => x)

/-- `KAND` (R230). -/
def effKand (d a b : BitVec 3) (s : State) : State :=
  writeK s d (readK s a &&& readK s b)

/-- `KOR` (R230). -/
def effKor (d a b : BitVec 3) (s : State) : State :=
  writeK s d (readK s a ||| readK s b)

/-- `KXOR` (R230). -/
def effKxor (d a b : BitVec 3) (s : State) : State :=
  writeK s d (readK s a ^^^ readK s b)

/-- `KNOT` (R230). -/
def effKnot (d a : BitVec 3) (s : State) : State :=
  writeK s d (~~~(readK s a))

/-- `VINS` (R234). -/
def effVins (d a i : BitVec 5) (t : BitVec 4) (s : State) : State :=
  let w := typeWidth t
  writeV s d (buildV w fun e => if e = i.toNat then (readS s a).toNat % 2 ^ (8 * w) else vElem s d w e)

end Sys2Proof.Machine
end

