-- ==== Sys2Proof/Machine/Exchange.lean ====
section
/-! DEFINITION. Exchange plans (R294 to R315): checking a segment, sends, receives, acknowledgements and staged collectives. -/

namespace Sys2Proof.Machine

/-! ### Entries (R297, R298) -/

def entAfter (p : PlanEntry) : Nat := fieldOf p.w0 19 8
/-- `CI`, `CW` or `INIT`. -/
def entFlag (p : PlanEntry) : Bool := p.w0.getLsbD 4
def entDi (p : PlanEntry) : Bool := p.w0.getLsbD 5
def entRed (p : PlanEntry) : Bool := p.w0.getLsbD 6
/-- `CID`, the same field of a `SENDC` and a `REDUCE`. -/
def entCid (p : PlanEntry) : Nat := fieldOf p.w3 47 32
def entOp (p : PlanEntry) : Nat := fieldOf p.w3 59 56
def entTy (p : PlanEntry) : BitVec 4 := p.w3.extractLsb' 60 4

def isReduce (p : PlanEntry) : Bool := entKind p = 4

/-- An entry of kind `END` as it stands in memory. -/
def endEntry : PlanEntry :=
  { w0 := 0, w1 := 0, w2 := 0, w3 := 0, status := .complete, applied := 0, staged := [], flits := 0 }

/-- The entry in 32 bytes, as it stands at X start: a window has nothing to do. -/
def parseEntry (bs : List Byte) : PlanEntry :=
  let w (i : Nat) := BitVec.ofNat 64 (leNat ((bs.drop (8 * i)).take 8))
  { w0 := w 0, w1 := w 1, w2 := w 2, w3 := w 3
    status := if fieldOf (w 0) 3 0 = 3 then .complete else .waiting, applied := 0, staged := [], flits := 0 }

/-! ### The check of a segment (R299, R300) -/

/-- What the check of a segment depends on: the core, the guard bounds as granules, and whether the variant is generic. -/
structure PlanEnv where
  core : Nat
  lo : Nat
  hi : Nat
  generic : Bool
  deriving DecidableEq, Repr

/-- A range of TCM the NI reads lies within the guard bounds (R300). -/
def planReadable (v : PlanEnv) (o n : Nat) : Bool :=
  o + n ≤ 2 ^ 18 && (n = 0 || (v.lo ≤ o / 256 && (o + n - 1) / 256 ≤ v.hi))

/-- One the NI writes lies outside the uniform area as well. -/
def planWritable (v : PlanEnv) (o n : Nat) : Bool := planReadable v o n && 0x1000 ≤ o

/-- A word that is a TCM offset, 8-byte aligned, of a dword. -/
def planDword (v : PlanEnv) (x : Nat) (write : Bool) : Bool :=
  x < 2 ^ 18 && x % 8 = 0 && (if write then planWritable v x 8 else planReadable v x 8)

def sendfOk (v : PlanEnv) (p : PlanEntry) : Bool :=
  let n := entLen p
  let src := p.w1.toNat
  let d := p.w2
  !v.generic && !entFlag p && !entDi p && !entRed p && n % 64 = 0 && 64 ≤ n && n ≤ 65536 && src % 64 = 0 && src < 2 ^ 18 &&
    planReadable v src n && fieldOf d 63 60 = 3 && fieldOf d 59 54 = 0 && fieldOf d 31 18 = 0 && fieldOf d 17 0 % 64 = 0 &&
    fieldOf d 53 48 * 16 + fieldOf d 47 44 = v.core / 4096 && fieldOf p.w3 63 32 = 0

def sendcOk (v : PlanEnv) (p : PlanEntry) : Bool :=
  let n := entLen p
  let srcPath := fieldOf p.w1 63 60
  let src := fieldOf p.w1 59 0
  let dstPath := fieldOf p.w2 63 60
  let srcIn := if entFlag p then src < (if srcPath = 0 then 2 ^ 18 else 2 ^ 19)
    else if srcPath = 0 then planReadable v src n else src + n ≤ 2 ^ 19
  (entFlag p || (n % 8 = 0 && n ≤ 16777216)) && srcPath ≤ 1 && src % 8 = 0 && srcIn && fieldOf p.w3 63 56 = 0 && fieldOf p.w3 31 18 = 0 &&
    (!entFlag p || planDword v (fieldOf p.w3 17 0) false) &&
    (if entDi p then !entRed p && planDword v p.w2.toNat false
     else (dstPath = 3 || dstPath = 4 || dstPath = 6 || dstPath = 8) && p.w2.toNat % 8 = 0 && (!entRed p || dstPath = 3))

def windowOk (v : PlanEnv) (p : PlanEntry) : Bool :=
  let n := entLen p
  !entDi p && !entRed p && n % 8 = 0 && 8 ≤ n && p.w1 = 0#64 && p.w2.toNat % 8 = 0 && p.w2.toNat < 2 ^ 18 &&
    planWritable v p.w2.toNat n && fieldOf p.w3 63 32 = 0 && fieldOf p.w3 31 18 = 0 &&
    (!entFlag p || planDword v (fieldOf p.w3 17 0) true)

def reduceOk (v : PlanEnv) (prev : List PlanEntry) (p : PlanEntry) : Bool :=
  let n := entLen p
  let ty := (entTy p).toNat
  !entDi p && !entRed p && n % 32 = 0 && 32 ≤ n && n ≤ 16384 && p.w1 = 0#64 && p.w2.toNat % 32 = 0 && p.w2.toNat < 2 ^ 18 &&
    planWritable v p.w2.toNat n && fieldOf p.w3 31 0 = 0 && 1 ≤ entStage p && entOp p ≤ 2 &&
    (ty = 2 || ty = 3 || ty = 8 || ty = 9) && (8 ≤ ty || entOp p = 0) &&
    prev.all fun q => !isReduce q || entCid q ≠ entCid p

/-- The range of a window or `REDUCE` destination. -/
def landing (p : PlanEntry) : Option (Nat × Nat) :=
  if entKind p = 3 || entKind p = 4 then some (p.w2.toNat, p.w2.toNat + entLen p) else none

/-- The count dword an entry names. -/
def countDword (p : PlanEntry) : Option Nat :=
  if (entKind p = 2 || entKind p = 3) && entFlag p then some (fieldOf p.w3 17 0) else none

def rangesMeet (a b : Nat × Nat) : Bool := a.1 < b.2 && b.1 < a.2

/-- No overlap with the landing ranges and count dwords of the entries before, or its own (R300). -/
def disjointOk (prev : List PlanEntry) (p : PlanEntry) : Bool :=
  let lands := prev.filterMap landing
  let counts := (p :: prev).filterMap countDword
  (match landing p with
   | none => true
   | some r => lands.all (fun q => !rangesMeet r q) && counts.all fun c => !rangesMeet r (c, c + 8)) &&
  (match countDword p with
   | none => true
   | some c => lands.all fun q => !rangesMeet q (c, c + 8))

def entryOk (v : PlanEnv) (prev : List PlanEntry) (p : PlanEntry) : Bool :=
  fieldOf p.w0 31 20 = 0 && !p.w0.getLsbD 7 &&
    (if entKind p = 0 then p.w0 = 0#64 && p.w1 = 0#64 && p.w2 = 0#64 && p.w3 = 0#64
     else
      (entAfter p = 0xFFF || (prev[entAfter p]?).any isReduce) && disjointOk prev p &&
        (match entKind p with
         | 1 => sendfOk v p
         | 2 => sendcOk v p
         | 3 => windowOk v p
         | 4 => reduceOk v prev p
         | _ => false))

/-- A segment read from its entries: the entries before `END`, or the index of the first malformed entry (R296, R300). -/
def readSegment (v : PlanEnv) (entry : Nat → Option (List Byte)) : Nat → List PlanEntry → Except Nat (List PlanEntry)
  | 0, prev => .error (prev.length - 1)
  | fuel + 1, prev =>
    match entry prev.length with
    | none => .error prev.length
    | some bs =>
      let p := parseEntry bs
      if !entryOk v prev p then .error prev.length
      else if entKind p = 0 then .ok prev
      else readSegment v entry fuel (prev ++ [p])

/-- What a plan read finds: bytes of a guard granule read zero (R141). -/
def planBytes (s : State) (id key n : Nat) : List Byte :=
  let r := getRegion s id
  (List.range n).map fun i => if classAt r (key + i) = 2 then 0#8 else memRead s.mem (key + i)

/-- A plan read recorded: an access of the X phase (R302), and a guard fault for each guard granule it touches (R141). -/
def notePlanRead (s : State) (id core entry key n : Nat) (va : Word) (mem : Nat) : State :=
  let s1 := noteX s id (.ni core 0) key n false core entry false va mem
  modRegion s1 id fun r =>
    { r with guards := (((granParts key n).filter fun q => classAt r q.1 = 2).map fun q => (core, q.1 / 256, 0, 0#3)) ++ r.guards }

/-- The 32 bytes of entry `i` of a segment in the core's TCM. -/
def tcmEntry (s : State) (id core base : Nat) (i : Nat) : Option (List Byte) :=
  if base + 32 * (i + 1) ≤ 2 ^ 18 then some (planBytes s id (tcmKey core (base + 32 * i)) 32) else none

/-- The segment as the NI reads it: undefined where the list of doubts names the read (R142). -/
def tcmSegment (s : State) (id core base : Nat) : (Nat → Option (List Byte)) × State :=
  if s.doubts.contains (2 ^ 40 + 4096 * core + 0xFFF, tcmKey core base) then
    let (bs, s1) := freshBytes s (min 32768 (2 ^ 18 - base))
    (fun i => if base + 32 * (i + 1) ≤ 2 ^ 18 then some ((bs.drop (32 * i)).take 32) else none, s1)
  else (tcmEntry s id core base, s)

/-- The variant a core's package runs is the generic one (R41). -/
def genericVariant (r : Region) (pkg : Nat) : Bool :=
  match r.launch with
  | none => false
  | some l =>
    match l.variants.find? fun e => e.1 = pkg with
    | none => false
    | some e => ((l.image.variants[e.2]?).map (·.generic)).getD false

/-- How many entries a segment in memory has (R296): up to its `END`, within 1,024 entries and TCM. -/
def segmentLen (entry : Nat → Option (List Byte)) : Nat → Nat → Nat
  | 0, i => i
  | fuel + 1, i =>
    match entry i with
    | none => i
    | some bs => if entKind (parseEntry bs) = 0 then i + 1 else segmentLen entry fuel (i + 1)

/-- X start at one core (R296): its whole segment read, by plan reads under the checker, and checked; a malformed one runs nothing and is
reported. -/
def loadPlan (s : State) (id core : Nat) : State :=
  let x := getCore s core
  let r := getRegion s id
  if !x.xplan.getLsbD 0 || r.ending then modCore s core fun x => { x with plan := [], planDone := true }
  else
    let base := fieldOf x.xplan 17 5 * 32
    let v : PlanEnv :=
      { core := core, lo := fieldOf x.guardLo 17 8, hi := fieldOf x.guardHi 17 8, generic := genericVariant r (pkgOfCore core) }
    let (entry, s1) := tcmSegment s id core base
    let n := segmentLen entry 1024 0
    let s2 := notePlanRead s1 id core 0xFFFF (tcmKey core base) (32 * n) (BitVec.ofNat 64 base) 0
    match readSegment v entry 1024 [] with
    | .ok ps => modCore s2 core fun x => { x with plan := ps, planDone := ps.isEmpty }
    | .error i =>
      modCore s2 core fun x =>
        { x with plan := [], planDone := true, xfaults := x.xfaults ++ [{ src := core, entry := i, sub := 1#8, faddr := BitVec.ofNat 64 (base + 32 * i) }] }

/-! ### Starting entries (R301, R305) -/

def setEntry (x : Core) (i : Nat) (f : PlanEntry → PlanEntry) : Core :=
  { x with plan := (x.plan.zipIdx).map fun e => if e.2 = i then f e.1 else e.1 }

def entryOf (s : State) (core i : Nat) : Option PlanEntry := (getCore s core).plan[i]?

/-- The `REDUCE` the entry waits for is complete. -/
def afterDone (x : Core) (p : PlanEntry) : Bool :=
  entAfter p = 0xFFF || ((x.plan[entAfter p]?).map fun q => decide (q.status = .complete)).getD false

def inXPhase (r : Region) : Bool := r.state = .running && (r.phase = .x1 || r.phase = .x2)

/-- Room in `PENDBYTES` (R305). -/
def pendRoom (x : Core) (n : Nat) : Bool := x.pendBytes.toNat + n < 2 ^ 28

/-- A `SENDC` or `REDUCE` that can start. -/
def canStart (s : State) (core i : Nat) : Bool :=
  let x := getCore s core
  match x.plan[i]? with
  | none => false
  | some p => inXPhase (regionOf s core) && p.status = .waiting && entKind p ≠ 1 && afterDone x p && pendRoom x (16777216 + 64)

def addXFault (s : State) (core : Nat) (f : XFault) : State := modCore s core fun x => { x with xfaults := x.xfaults ++ [f] }

/-- How `State.doubts` names a core's plan reads for one entry (R142; log entry 30): no thread has such a number. -/
def planMark (core entry : Nat) : Nat := 2 ^ 40 + 4096 * core + entry % 4096

/-- A plan read of TCM or scratchpad (R302): bytes that an X-phase agent has written in conflict are undefined, and so are those of a read
that the list of doubts names (R142). -/
def planRead (s : State) (id core entry key n : Nat) (va : Word) (mem : Nat) : List Byte × State :=
  let s1 := notePlanRead s id core entry key n va mem
  let mine := (getRegion s1 id).xlog.filter fun a => !a.write && a.src = core && a.entry = entry
  if s.doubts.contains (planMark core entry, key) || (getRegion s id).xlog.any fun b => b.write && mine.any fun a => xConflicting s1 a b then
    freshBytes s1 n
  else (planBytes s id key n, s1)

/-- The place a segment's source address names. -/
def sourceKey (core : Nat) (w1 : Word) : Nat × Nat :=
  if fieldOf w1 63 60 = 0 then (tcmKey core (fieldOf w1 17 0), 0) else (spadKey (clusterOf core) (fieldOf w1 18 0), 1)

/-- A destination keeps R32 and R33, and on path 0x3 names a core of the region. -/
def destOk (s : State) (r : Region) (core : Nat) (dst : Word) : Bool :=
  let last := fieldOf (getCore s core).pkgId 13 8
  dst.toNat % 8 = 0 &&
    (match fieldOf dst 63 60 with
     | 3 => fieldOf dst 59 54 = 0 && fieldOf dst 31 18 = 0 && fieldOf dst 53 48 ≤ last &&
         inCoreSet r.rcb (fieldOf dst 53 48 * 65536 + fieldOf dst 47 32)
     | 4 | 6 => fieldOf dst 59 48 = 0
     | 8 => fieldOf dst 59 54 = 0 && fieldOf dst 53 48 ≤ last
     | _ => false)

def stopEntry (s : State) (core i : Nat) : State := modCore s core fun x => setEntry x i fun p => { p with status := .sent }

/-- A `SENDC` runs (R305). -/
def startSendc (s : State) (id core i : Nat) (p : PlanEntry) : State :=
  let cnta := fieldOf p.w3 17 0
  let (cb, s1) := if entFlag p then planRead s id core i (tcmKey core cnta) 8 (BitVec.ofNat 64 cnta) 0 else ([], s)
  let (db, s2) := if entDi p then planRead s1 id core i (tcmKey core (fieldOf p.w2 17 0)) 8 p.w2 0 else ([], s1)
  let n := if entFlag p then leNat cb else entLen p
  let dst := if entDi p then BitVec.ofNat 64 (leNat db) else p.w2
  let x := getCore s core
  let src := fieldOf p.w1 59 0
  let inside := if fieldOf p.w1 63 60 = 0 then n = 0 || (src + n ≤ 2 ^ 18 && inBounds x src n) else src + n ≤ 2 ^ 19
  let fault (sub : Nat) (faddr : Word) := stopEntry (addXFault s2 core { src := core, entry := i, sub := BitVec.ofNat 8 sub, faddr := faddr }) core i
  let countAddr := BitVec.ofNat 64 (if entFlag p then cnta else fieldOf x.xplan 17 5 * 32 + 32 * i)
  if 16777216 < n || n % 8 ≠ 0 || !inside then fault 3 countAddr
  else if !destOk s2 (getRegion s2 id) core dst then fault 4 dst
  else
    let (key, mem) := sourceKey core p.w1
    let (bs, s3) := planRead s2 id core i key n p.w1 mem
    let t : Xfer :=
      { src := core, entry := i, dst := dst, bytes := bs, red := if entRed p then some (entCid p, entStage p) else none,
        charge := n + 64, last := true, total := n, status := .inFlight, parked := none }
    let s4 := modRegion s3 id fun r => { r with xfers := r.xfers ++ [t] }
    modCore (stopEntry s4 core i) core fun x => { x with pendBytes := x.pendBytes + BitVec.ofNat 64 (n + 64) }

/-- `PLAN_ENTRY_START` (R301): a `SENDC` sends; a `REDUCE` accepts its stages from here on. -/
def execPlanEntryStart (core idx : Nat) (s : State) : Out State :=
  match (getCore s core).region, entryOf s core idx with
  | some id, some p =>
    if !canStart s core idx then .next s
    else if isReduce p then .next (stopEntry s core idx)
    else .next (startSendc s id core idx p)
  | _, _ => .next s

/-- The next flit of a `SENDF` can be sent. -/
def canFlit (s : State) (core i flit : Nat) : Bool :=
  let x := getCore s core
  match x.plan[i]? with
  | none => false
  | some p =>
    inXPhase (regionOf s core) && p.status = .waiting && entKind p = 1 && afterDone x p && p.flits = flit && 64 * flit < entLen p &&
      pendRoom x 64

/-- `SENDF_FLIT` (R303): 64 bytes on their way. A destination that names no core of the region is refused at the sender before the first
flit (R8, R315). -/
def execSendfFlit (core idx flit : Nat) (s : State) : Out State :=
  match (getCore s core).region, entryOf s core idx with
  | some id, some p =>
    if !canFlit s core idx flit then .next s
    else if !destOk s (getRegion s id) core p.w2 then
      .next (stopEntry (addXFault s core { src := core, entry := idx, sub := 4#8, faddr := p.w2 }) core idx)
    else
      let src := p.w1.toNat + 64 * flit
      let (bs, s1) := planRead s id core idx (tcmKey core src) 64 (BitVec.ofNat 64 src) 0
      let last := entLen p ≤ 64 * (flit + 1)
      let t : Xfer :=
        { src := core, entry := idx, dst := p.w2 + BitVec.ofNat 64 (64 * flit), bytes := bs, red := none, charge := 64, last := last,
          total := entLen p, status := .inFlight, parked := none }
      let s2 := modRegion s1 id fun r => { r with xfers := r.xfers ++ [t] }
      .next (modCore s2 core fun x =>
        { setEntry x idx fun p => { p with flits := flit + 1, status := if last then .sent else .waiting } with
          pendBytes := x.pendBytes + 64#64 })
  | _, _ => .next s

/-! ### Receiving (R304, R306) -/

def setXfer (r : Region) (i : Nat) (f : Xfer → Xfer) : Region :=
  { r with xfers := (r.xfers.zipIdx).map fun e => if e.2 = i then f e.1 else e.1 }

/-- The destination address of the whole transfer that a flit belongs to. -/
def wholeDest (s : State) (t : Xfer) : Word :=
  match entryOf s t.src t.entry with
  | some p => if entKind p = 1 then p.w2 else t.dst
  | none => t.dst

/-- The addition to a window's count dword, after the transfer's last byte (R304, R306). -/
def addCount (s : State) (id core : Nat) (w : PlanEntry) (n : Nat) (src entry : Nat) : State :=
  if entFlag w then
    let o := fieldOf w.w3 17 0
    let v := BitVec.ofNat 64 (memNat s.mem (tcmKey core o) 8) + BitVec.ofNat 64 n
    niWrite s id core 0 o (leBytes 8 v.toNat) src entry true
  else s

/-- A transfer arrives at a TCM. One for a core that a kill has taken from the region is discarded (R333, R334). -/
def receiveTcm (s : State) (id i : Nat) (t : Xfer) : State :=
  let core := destCore t.dst
  let done (s : State) := modRegion s id fun r => setXfer r i fun t => { t with status := .done }
  if t.total = 0 || (getCore s core).region ≠ some id then done s
  else
    match windowOf (getCore s core) (fieldOf (wholeDest s t) 17 0) t.total with
    | none =>
      done (if t.last then addXFault s core { src := t.src, entry := t.entry, sub := 2#8, faddr := wholeDest s t } else s)
    | some w =>
      let s1 := niWrite s id core 0 (fieldOf t.dst 17 0) t.bytes t.src t.entry false
      done (if t.last then addCount s1 id core w t.total t.src t.entry else s1)

/-- A transfer's bytes cut at 64 KiB pages, each with its address. -/
def pagePieces : Nat → Word → List Byte → List (Word × List Byte)
  | 0, _, _ => []
  | fuel + 1, va, bs =>
    let n := 65536 - va.toNat % 65536
    if bs.isEmpty then []
    else if bs.length ≤ n then [(va, bs)]
    else (va, bs.take n) :: pagePieces fuel (va + BitVec.ofNat 64 n) (bs.drop n)

/-- Every piece's place, checked as a plan write (R29, R323). -/
def planPlaces (s : State) (core : Nat) (since : Option (Nat × BitVec 32)) :
    List (Word × List Byte) → Except (AccErr × Word) (List (Place × List Byte))
  | [] => .ok []
  | (va, bs) :: l =>
    let path := fieldOf va 63 60
    let pkg := if path = 8 then fieldOf va 53 48 else pkgOfCore core
    match translate s { core := core, strand := 0, plan := true, peek := false, since := since, asked := none, guard := none } pkg va path .store with
    | .error e => .error (e, va)
    | .ok p =>
      match planPlaces s core since l with
      | .error e => .error e
      | .ok ps => .ok ((p, bs) :: ps)

/-- `MEM` of a page an exchange plan writes (R151). -/
def pageMem (p : Place) : Nat := if p.mode = .red then 5 else 3

/-- A transfer arrives at a translated destination. -/
def receivePage (s : State) (id i : Nat) (t : Xfer) : State :=
  match planPlaces s t.src (t.parked.map (·.2)) (pagePieces 512 t.dst t.bytes) with
  | .error (.page pkg kind lvl, va) =>
    let g := (getPackage s pkg).faultGen
    modRegion (postRecord s pkg t.src 5 id kind lvl va) id fun r => setXfer r i fun t => { t with parked := some (pkg, fieldOf va 47 16, g) }
  | .error _ =>
    modRegion (addXFault s t.src { src := t.src, entry := t.entry, sub := 4#8, faddr := t.dst }) id fun r =>
      setXfer r i fun t => { t with status := .done }
  | .ok ps =>
    let s1 := ps.foldl (fun s e =>
      let s' := noteX s id (.ni t.src 0) e.1.key e.2.length true t.src t.entry false e.1.va (pageMem e.1)
      { markLeaf s' e.1 true with mem := writeBytes (markLeaf s' e.1 true).mem e.1.key e.2 }) s
    modRegion s1 id fun r => setXfer r i fun t => { t with status := .done }

/-- Flits of one entry arrive in the order they are sent. -/
def canReceive (s : State) (r : Region) (i : Nat) : Bool :=
  match r.xfers[i]? with
  | none => false
  | some t =>
    inXPhase r && t.status = .inFlight && t.red.isNone &&
      !((match t.parked with
         | none => false
         | some (pkg, _, gen) => decide ((getPackage s pkg).faultGen = gen))) &&
      ((r.xfers.take i).all fun u => u.src ≠ t.src || u.entry ≠ t.entry || u.status = .done)

/-- `FLIT_RECEIVE` (R306). -/
def execFlitReceive (region xfer : Nat) (s : State) : Out State :=
  let r := getRegion s region
  match r.xfers[xfer]? with
  | none => .next s
  | some t =>
    if !canReceive s r xfer then .next s
    else .next (if fieldOf t.dst 63 60 = 3 then receiveTcm s region xfer t else receivePage s region xfer t)

/-- `ACKNOWLEDGEMENT` (R307). -/
def execAcknowledgement (region xfer : Nat) (s : State) : Out State :=
  let r := getRegion s region
  match r.xfers[xfer]? with
  | none => .next s
  | some t =>
    if t.status = .done then
      let s1 := modCore s t.src fun x => { x with pendBytes := x.pendBytes - BitVec.ofNat 64 t.charge }
      .next (modRegion s1 region fun r => { r with xfers := r.xfers.eraseIdx xfer })
    else .next s

/-! ### Staged collectives (R311 to R314) -/

/-- `Combine` (R312) of two elements. -/
def combineElem (op : Nat) (ty : BitVec 4) (d c : Nat) : Nat :=
  match op with
  | 0 => addElem ty d c
  | 1 => elemOp ty (fun x y _ => max x y) (fun x y _ => valMax x y) d c 0
  | _ => elemOp ty (fun x y _ => min x y) (fun x y _ => valMin x y) d c 0

/-- The destination's bytes with a contribution combined in. -/
def combineBytes (op : Nat) (ty : BitVec 4) : Nat → List Byte → List Byte → List Byte
  | 0, _, _ => []
  | n + 1, d, c =>
    let w := typeWidth ty
    leBytes w (combineElem op ty (leNat (d.take w)) (leNat (c.take w))) ++ combineBytes op ty n (d.drop w) (c.drop w)

/-- Stage `s` applied (R311). -/
def applyStage (s : State) (id core i : Nat) (p : PlanEntry) (stage : Nat) (bs : List Byte) : State :=
  let o := p.w2.toNat
  let old := readBytes s.mem (tcmKey core o) (entLen p)
  let new := if entFlag p && stage = 0 then bs else combineBytes (entOp p) (entTy p) (entLen p / typeWidth (entTy p)) old bs
  let s1 := niWrite s id core 0 o new core i false
  modCore s1 core fun x => setEntry x i fun p =>
    { p with applied := stage + 1, status := if entStage p ≤ stage + 1 then .complete else p.status }

/-- Bytes of the staging buffer in use (R313). -/
def stagedBytes (x : Core) : Nat :=
  x.plan.foldl (fun n p => n + ((p.staged.filter fun e => p.applied ≤ e.1).foldl (fun m e => m + e.2.length) 0)) 0

/-- The `REDUCE` of a core that has a `CID`. -/
def reduceIndex (x : Core) (cid : Nat) : Option (Nat × PlanEntry) :=
  ((x.plan.zipIdx).find? fun e => isReduce e.1 && entCid e.1 = cid).map fun e => (e.2, e.1)

/-- A `REDUCE` of a core that lacks a stage. -/
def lacking (p : PlanEntry) : Bool := isReduce p && (p.status = .waiting || p.status = .sent)

/-- A contribution can be matched, staged or applied: an arrived one waits for its turn. -/
def canApply (s : State) (r : Region) (i : Nat) : Bool :=
  match r.xfers[i]? with
  | none => false
  | some t =>
    match t.red with
    | none => false
    | some (cid, stage) =>
      inXPhase r &&
        (t.status = .inFlight ||
          (t.status = .arrived &&
            (match reduceIndex (getCore s (destCore t.dst)) cid with
             | some (_, p) => p.status = .sent && p.applied = stage
             | none => false)))

/-- `CONTRIBUTION_APPLY` (R311, R313); one that comes after its `REDUCE` completed without it is discarded (R334). -/
def execContributionApply (region xfer : Nat) (s : State) : Out State :=
  let r := getRegion s region
  match r.xfers[xfer]? with
  | none => .next s
  | some t =>
    match t.red with
    | none => .next s
    | some (cid, stage) =>
      if !canApply s r xfer then .next s
      else
        let core := destCore t.dst
        let x := getCore s core
        let set (st : XferStatus) (s : State) := modRegion s region fun r => setXfer r xfer fun t => { t with status := st }
        let mismatch (faddr : Word) := set .done (addXFault s core { src := t.src, entry := t.entry, sub := 5#8, faddr := faddr })
        match reduceIndex x cid with
        | none => .next (mismatch 0#64)
        | some (i, p) =>
          if t.status = .inFlight && (t.total ≠ entLen p || fieldOf t.dst 17 0 ≠ p.w2.toNat || entStage p ≤ stage ||
              p.staged.any fun e => e.1 = stage) then .next (mismatch p.w2)
          else
            let mark (s : State) := if t.status = .inFlight then
                modCore s core fun x => setEntry x i fun p => { p with staged := p.staged ++ [(stage, t.bytes)] }
              else s
            if !lacking p then .next (set .done (mark s))
            else if p.status = .sent && p.applied = stage then .next (set .done (applyStage (mark s) region core i p stage t.bytes))
            else if stagedBytes x + t.total ≤ 16384 then .next (set .arrived (mark s))
            else .next (set .refused s)

/-- `CONTRIBUTION_RESEND` (R313). -/
def execContributionResend (region xfer : Nat) (s : State) : Out State :=
  match (getRegion s region).xfers[xfer]? with
  | none => .next s
  | some t =>
    if t.status = .refused then .next (modRegion s region fun r => setXfer r xfer fun t => { t with status := .inFlight })
    else .next s

/-- A refused contribution would be taken if it were sent again (R313). -/
def wouldTake (s : State) (t : Xfer) : Bool :=
  match t.red with
  | none => false
  | some (cid, stage) =>
    let x := getCore s (destCore t.dst)
    match reduceIndex x cid with
    | none => true
    | some (_, p) => (p.status = .sent && p.applied = stage) || stagedBytes x + t.total ≤ 16384

/-- Nothing more can be sent, applied or acknowledged (R314): every counter is zero, but for contributions that are staged, or refused
for want of room, behind a stage that cannot arrive any more, and whose acknowledgements only that stage could bring (log entry 68). -/
def xQuiet (s : State) (id : Nat) : Bool :=
  let r := getRegion s id
  (r.xfers.zipIdx.all fun e => (e.1.status = .arrived && !canApply s r e.2) || (e.1.status = .refused && !wouldTake s e.1)) &&
    (heldCores s id).all fun c =>
      let x := getCore s c
      x.plan.zipIdx.all fun e => !(canStart s c e.2) && !(canFlit s c e.2 e.1.flits)

/-- What R314 makes of one entry. -/
def abandon (p : PlanEntry) : PlanEntry :=
  if lacking p then { p with status := .incomplete }
  else if p.status = .waiting then { p with status := .abandoned }
  else p

/-- What R314 makes of one core's segment: incomplete collectives, with undefined destinations, and abandoned entries. An incomplete `REDUCE`
has no sender: the core itself and the entry's own index stand for the sender and its entry, the model's choice (log entry 88). -/
def giveUp (s : State) (core : Nat) : State :=
  let x := getCore s core
  let bad := (x.plan.zipIdx).filter fun e => lacking e.1
  let s1 := bad.foldl (fun s e =>
    let s' := spoilBytes s (tcmKey core e.1.w2.toNat) (entLen e.1)
    addXFault s' core { src := core, entry := e.2, sub := 6#8, faddr := e.1.w2 }) s
  modCore s1 core fun x => { x with plan := x.plan.map abandon }

/-- The stages a `REDUCE` still lacks. -/
def missingStages (p : PlanEntry) : List Nat := ((List.range (entStage p)).drop p.applied).filter fun n => !(p.staged.any fun e => e.1 = n)

/-- A core that the region still holds has the contribution in its segment. -/
def survivorSends (s : State) (id core cid stage : Nat) : Bool :=
  (heldCores s id).any fun c => (getCore s c).plan.any fun q =>
    entKind q = 2 && entRed q && entCid q = cid && entStage q = stage && (entDi q || destCore q.w2 = core)

/-- A `REDUCE` of a region that has lost a package lacks a stage that no surviving core sends: it waits on the lost package (R334; log
entry 79). -/
def forgone (s : State) (id core : Nat) (p : PlanEntry) : Bool :=
  (getRegion s id).abortDue && lacking p && (missingStages p).any fun n => !survivorSends s id core (entCid p) n

/-- Such a `REDUCE` completes, without subcode 0x06, and what waits for it starts (R334). -/
def forgo (s0 : State) (id : Nat) (s : State) (core : Nat) : State :=
  let s1 := ((getCore s core).plan.filter (forgone s0 id core)).foldl (fun s p => spoilBytes s (tcmKey core p.w2.toNat) (entLen p)) s
  modCore s1 core fun x => { x with plan := x.plan.map fun p => if forgone s0 id core p then { p with status := .complete } else p }

/-- A contribution whose `REDUCE` lacks no stage any more. -/
def targetOver (s : State) (t : Xfer) : Bool :=
  match t.red with
  | none => false
  | some (cid, _) => (reduceIndex (getCore s (destCore t.dst)) cid).all fun e => !lacking e.2

/-- `COLLECTIVE_INCOMPLETE` (R314): contributions staged or refused behind a stage that will not arrive are discarded. What a lost package
owes is forgone first, since entries may wait for it (R334). -/
def execCollectiveIncomplete (region : Nat) (s : State) : Out State :=
  let r := getRegion s region
  let cores := heldCores s region
  if inXPhase r && xQuiet s region && (cores.any fun c => (getCore s c).plan.any lacking) then
    let lost := cores.any fun c => (getCore s c).plan.any (forgone s region c)
    let s1 := cores.foldl (if lost then forgo s region else giveUp) s
    .next (modRegion s1 region fun r => { r with xfers := r.xfers.map fun t =>
      if (t.status = .arrived || t.status = .refused) && targetOver s1 t then { t with status := .done } else t })
  else .next s

/-- Every entry of the segment has been sent, completed or given up (R309). -/
def segmentDone (x : Core) : Bool := x.plan.all fun p => if isReduce p then !lacking p else p.status ≠ .waiting

end Sys2Proof.Machine
end

