-- ==== Sys2Proof/Machine/Sched.lean ====
section
/-! DEFINITION. Strand states and the issue slot (R75 to R82): when a wait is over, which strand issues next, starting and
awaiting helper strands. -/

namespace Sys2Proof.Machine

/-! ### When a strand can issue -/

/-- The event a strand waits for has occurred, or its stall may be over (R75). -/
def waitDone (s : State) (core : Nat) (released : Bool) (w : Wait) : Bool :=
  match w with
  | .ready | .stall => true
  | .strands set => (List.finRange 4).all fun n => !set.getLsbD n || !(getStrand s core n).live
  | .word key value => (regionOf s core).handoffs.any fun h => h.key = key && h.value = value
  | .barrier => released
  | .page pkg _ gen => (getPackage s pkg).faultGen ≠ gen
  | .hostPage pasid page => (getPackage s (pkgOfCore core)).ats.any fun e => e.pasid = pasid && e.page = page
  | .engine n => (getCore s core).settled ≠ n
  | .parked | .halted => false

def waitOver (s : State) (core : Nat) (t : Strand) : Bool := waitDone s core t.released t.wait

/-- A strand's place at a pre-emption: live strands take the pre-emption entry. -/
def liveStrands (x : Core) : List (Fin 4) := (List.finRange 4).filter fun n => (coreStrand x n).live

/-- The core is at the point of R167: no strand in handler mode, none about to retire its barrier, and none halted, since a debug halt
comes first (R157); in the T phase, no body runs. -/
def coreAtPoint (r : Region) (x : Core) : Bool :=
  !x.halted && (liveStrands x).all fun n =>
    let t := coreStrand x n
    !t.trap.status.getLsbD 0 && !t.released && t.wait ≠ .halted && (r.phase = .c || t.body.isNone)

/-- The core is to take the pre-emption that is requested, at the boundary it is at, before any strand of it issues again. -/
def heldForTake (r : Region) (x : Core) : Bool :=
  r.preemptReq && !recoveryOf r && !x.taken && r.phase = .c && coreAtPoint r x

/-- The phases a strand issues in (R19, R362), and the pauses of a recovery point (R444). In the T phase, and in the C phases of R362,
control strands are Blocked, but for one that a pre-emption has sent through its handler and back to its `SYNC` or `END` (R168). -/
def phaseAdmits (s : State) (r : Region) (x : Core) : Bool :=
  r.state = .running && (match recPointOf s r with
    | some p => p.valid
    | none => true) &&
  (x.taken || r.phase = .c || r.phase = .t) && !heldForTake r x

/-- The strand is Ready: live, its core not halted, and nothing holds it (R75, R170). -/
def canIssue (s : State) (core : Nat) (n : Fin 4) : Bool :=
  let x := getCore s core
  let t := coreStrand x n
  t.live && !x.halted && x.region.isSome && phaseAdmits s (regionOf s core) x && waitOver s core t

/-- The strand that issued last keeps the slot (R76, R77, R82): it has neither stalled, blocked nor yielded since, nor issued in 64
consecutive issue cycles. -/
def keepsSlot (x : Core) : Bool := !x.slotGone && x.slotRun < 64

/-- The strand that issues next on a core (R76, R77): the holder of the slot while it keeps it and is Ready; else the first Ready one in
rotation, the holder last. -/
def nextStrand (s : State) (core : Nat) : Option (Fin 4) :=
  let x := getCore s core
  let cur : Fin 4 := ⟨x.slot % 4, Nat.mod_lt _ (by decide)⟩
  let order := if keepsSlot x then [cur, cur + 1, cur + 2, cur + 3] else [cur + 1, cur + 2, cur + 3, cur]
  order.find? (canIssue s core)

/-- `ISSUE_SLOT_GIVE_UP` (R77): after 64 consecutive issues the slot passes, if any other strand is Ready. -/
def execIssueSlotGiveUp (core : Nat) (s : State) : Out State :=
  let x := getCore s core
  let cur : Fin 4 := ⟨x.slot % 4, Nat.mod_lt _ (by decide)⟩
  match [cur + 1, cur + 2, cur + 3].find? (canIssue s core) with
  | some n => .next (if 64 ≤ x.slotRun then modCore s core fun x => { x with slot := n, slotRun := 0, slotGone := false } else s)
  | none => .next s

/-- `YIELD` (R82): the slot passes as if the strand had stalled; with no other strand Ready it stays, and the count of R77 goes on. -/
def execYield (s : State) : Out State :=
  issueWord .yield s fun s => .ok (retire (modMyCore s fun x => { x with slotGone := true }))

/-! ### Helper strands (R79 to R83) -/

/-- `InitStrand` (R80), for a new run of the strand; its accesses follow those its clock holds. -/
def initStrand (old : Strand) (entry : TcmAddr) (clock : Clock) : Strand :=
  { Strand.idle with
    live := true, pc := entry, strandId := old.strandId, run := old.run + 1, place := old.place, deferred := old.deferred,
    allowance := old.allowance, txsubs := old.txsubs, clock := clock }

/-- The clock of a strand with what it learns from others joined in. -/
def learn (s : State) (core : Nat) (n : Fin 4) (cs : List Clock) : State :=
  modStrand s core n fun t => { t with clock := cs.foldl clockJoin t.clock }

/-- The accesses of the strand before a handoff point are performed: its vector accesses and its no-return atomics (R138, R223). -/
def performedAll (s : State) : Bool := !vqBusy s && !atomsPending s

/-- A strand begins a new run with no word fetched (log entry 31). -/
def dropFetched (s : State) (core : Nat) (n : Fin 4) : State :=
  modCore s core fun x => { x with fetched := x.fetched.filter fun f => f.1 ≠ n.val }

/-- `START` (R79): a handoff point; the target's end orders its accesses, those of its commands among them, before the issuer's next
(R136, R138). -/
def execStart (a b : BitVec 5) (n : BitVec 2) (s : State) : Out State :=
  issueWord (.start a b n) s fun s =>
    let core := s.ctx.core
    let tgt : Fin 4 := n.toFin
    let entry := readS s a
    let arg := readS s b
    if tgt = strandNo (me s) || (myRegion s).phase = .t then .error (illegal s)
    else if badTarget entry then .error (.trap cInstrAddr 0 entry 7)
    else if (getStrand s core tgt).live then .error (.wait (.strands (1#4 <<< n.toNat)))
    else if !performedAll s then .error (.wait .stall)
    else
      let old := getStrand s core tgt
      let s1 := learn s core s.ctx.strand [agentClock s core tgt]
      let t := initStrand old (entry.setWidth 18) (me s1).clock
      let g := { t.regs with s := (t.regs.s.set 1 arg).set 2 (BitVec.ofNat 64 s.ctx.strand) }
      .ok (retire (dropFetched (setStrand s1 core tgt { t with regs := g }) core tgt))

/-- The strand set of `WAITS`: bit n − 1 of the field names strand n (R81). -/
def waitSet (g : BitVec 3) : BitVec 4 := g ++ 0#1

/-- `WAITS` (R81): an acquire, so the strand's earlier vector accesses are performed first (R138, R223). -/
def execWaits (g : BitVec 3) (s : State) : Out State :=
  issueWord (.waits g) s fun s =>
    let set := waitSet g
    let core := s.ctx.core
    if set.getLsbD (strandNo (me s)) || (myRegion s).phase = .t then .error (illegal s)
    else if (List.finRange 4).any fun (n : Fin 4) => set.getLsbD n && (getStrand s core n).live then .error (.wait (.strands set))
    else if vqBusy s then .error (.wait .stall)
    else
      let ended := (List.finRange 4).filter fun (n : Fin 4) => set.getLsbD n
      .ok (retire (learn s core s.ctx.strand (ended.map (agentClock s core))))

end Sys2Proof.Machine
end

