-- ==== Sys2Proof/Machine/Tx.lean ====
section
/-! DEFINITION. The transaction instructions (R363 to R368): the submission descriptor and its checks (R341, R342), budgets
(R343), reading a tile without a lock, and the end of a body with its home writes and releases (R359, R367, R454). -/

namespace Sys2Proof.Machine

/-! ### The descriptor (R341) -/

def hdrNchk (h : Word) : Nat := fieldOf h 31 29
def hdrNwrite (h : Word) : Nat := fieldOf h 28 25
def hdrNread (h : Word) : Nat := fieldOf h 24 20
def hdrNarg (h : Word) : Nat := fieldOf h 19 16
def hdrBody (h : Word) : Nat := fieldOf h 15 0

/-- Dword `i` of the bytes. -/
def dwordAt (bs : List Byte) (i : Nat) : Word := BitVec.ofNat 64 (leNat ((bs.drop (8 * i)).take 8))

/-- The descriptor's fields as read, for counts within their ranges. -/
def parseDesc (bs : List Byte) : Desc :=
  let h := dwordAt bs 0
  { body := hdrBody h
    args := (List.range 8).map fun i => if i < hdrNarg h then dwordAt bs (1 + i) else 0#64
    rtiles := (List.range (min 16 (hdrNread h))).map fun i => dwordAt bs (9 + i)
    wtiles := (List.range (min 8 (hdrNwrite h))).map fun i => dwordAt bs (25 + i)
    chks := (List.range (min 4 (hdrNchk h))).map fun i =>
      let c := dwordAt bs (33 + 2 * i)
      (fieldOf c 4 0, fieldOf c 28 16, dwordAt bs (34 + 2 * i)) }

/-- The address a set index lists. -/
def setAddr (d : Desc) (set : Nat) : Option Word := if set < 16 then d.rtiles[set]? else d.wtiles[set - 16]?

/-- The tile an address lies in, by its identity, for the core that names it (R338, R339): within the path's address range,
and of a package of the domain. -/
def namedTile (s : State) (core : Nat) (va : Word) : Option Tile :=
  if zeroBitsOk va then
    if fieldOf va 63 60 = 8 && s.domLast.toNat < fieldOf va 53 48 then none else tileAt s core va
  else none

/-- The address is the first byte of its tile. -/
def isTileStart (va : Word) (t : Tile) : Bool :=
  (if t.die then fieldOf va 25 0 else fieldOf va 47 0) = t.addr

/-- The conditions of `SUB` 4 (R342). -/
def descShapeOk (s : State) (core routine : Nat) (bs : List Byte) : Bool :=
  let h := dwordAt bs 0
  let d := parseDesc bs
  let r := regionOf s core
  fieldOf h 63 32 = 0 && hdrNchk h ≤ 4 && hdrNwrite h ≤ 8 && hdrNread h ≤ 16 && hdrNarg h ≤ 8 &&
    (match (imageOf r).bodies[hdrBody h]? with
     | none => false
     | some b => b.routine = routine && (hdrNchk h = 0 || b.prologue.isSome)) &&
    ((List.range (min 4 (hdrNchk h))).all fun i =>
      let c := dwordAt bs (33 + 2 * i)
      fieldOf c 15 5 = 0 && fieldOf c 63 29 = 0) &&
    d.chks.all fun (set, doff, _) =>
      match setAddr d set with
      | none => false
      | some va =>
        match namedTile s core va with
        | none => true
        | some t => 8 * doff < t.size

/-- Every listed address, in set order, with whether it is a write tile. -/
def listedTiles (d : Desc) : List (Word × Bool) := (d.rtiles.map fun a => (a, false)) ++ (d.wtiles.map fun a => (a, true))

def noRepeats (l : List Tile) : Bool :=
  match l with
  | [] => true
  | t :: ts => !ts.contains t && noRepeats ts

/-- The conditions of `SUB` 5 (R342). -/
def descTilesOk (s : State) (core : Nat) (d : Desc) : Bool :=
  let ts := (listedTiles d).map fun e => (e.1, namedTile s core e.1)
  (ts.all fun e => match e.2 with
    | some t => isTileStart e.1 t
    | none => false) && noRepeats (ts.filterMap (·.2))

/-- The sum of the listed tiles' sizes. -/
def descSize (s : State) (core : Nat) (d : Desc) : Nat :=
  ((listedTiles d).filterMap fun e => namedTile s core e.1).foldl (fun n t => n + t.size) 0

/-- `CheckDescriptor` (R342): the lowest failing subcode. The landing area is that of the superstep (R352), and is not asked for
where the transaction's core is not yet fixed. -/
def checkDescriptor (s : State) (core routine : Nat) (landing : Bool) (bs : List Byte) : Option Nat :=
  if !descShapeOk s core routine bs then some 4
  else if !descTilesOk s core (parseDesc bs) then some 5
  else if 65536 < descSize s core (parseDesc bs) || (landing && fieldOf (getCore s core).landInForce 17 12 = 0) then some 6
  else none

/-- The checks of R364 on a descriptor's address, for the whole descriptor. -/
def descPlace (s : State) (da : Word) (kind : AccKind) : Except Stop Place :=
  if fieldOf da 63 60 ≠ 0 then .error (.trap cAccess 0 da (accCode kind))
  else if da.toNat % 8 ≠ 0 then .error (.trap cMisaligned 0 da (accCode kind))
  else strandCheck s da 328 8 kind

/-- A checked descriptor, read as one load of the strand (R364). -/
def readDesc (s : State) (da : Word) : Except Stop (Desc × State) := do
  let p ← descPlace s da .load
  accessReady s p 328 false
  let (bs, s1) := loadAt s (whoMe s) p 328
  match checkDescriptor s s.ctx.core (myCore s).routine true bs with
  | some sub => .error (programTrap sub)
  | none => pure (parseDesc bs, s1)

/-! ### Budgets (R343) -/

/-- The number of the region's cores in one package. -/
def coresPerPkg (b : Rcb) : Nat := (b.y1 + 1 - b.y0) * (b.x1 + 1 - b.x0) * 16

/-- A core's allowance in the superstep, less the restarts carried into it. -/
def txAllowance (b : Rcb) (x : Core) : Nat := b.txBudget / coresPerPkg b - x.carried

/-- The phases of R363 in which a form that is no `TXSUB`, `TXEND` or `TXRST` may issue. -/
def txPhaseOk (s : State) : Bool := (myRegion s).phase = .c || (me s).body.isSome

/-- `TXSUB` (R364). The strands of a core share its allowance in the order in which their `TXSUB`s issue: the model's choice (log entry 84). -/
def execTxsub (d a : BitVec 5) (s : State) : Out State :=
  issueWord (.txsub d a) s fun s => do
    if (myRegion s).phase = .c && (me s).body.isNone then .ok () else .error (illegal s)
    vectorsDone s
    let (desc, s1) ← readDesc s (readS s a)
    if txAllowance (myRegion s).rcb (myCore s) ≤ (myCore s).subs.length then .error (programTrap 3)
    else
      let (o, s2) := nextOrder s1 s.ctx.core s.ctx.strand
      let s3 := modMyCore s2 fun x => { x with subs := x.subs ++ [{ order := o, core := s.ctx.core, desc := desc }] }
      let s4 := modMe s3 fun t => { t with txsubs := t.txsubs + 1 }
      pure (retire (writeS s4 d (BitVec.ofNat 64 (me s).txsubs)))

/-! ### Reading a tile without a lock (R365) -/

/-- Offset of a tile in the landing block of the body the strand runs. -/
def heldOffset (s : State) (t : Tile) : Option (Txn × Nat) :=
  match bodyTxn s s.ctx.core s.ctx.strand with
  | none => none
  | some x => (x.reqs.find? fun r => r.tile = t && r.status ≠ .removed).map fun r => (x, r.offset)

/-- TCM offset of a transaction's landing block, in the landing area of the superstep (R353, R455). -/
def blockOffset (x : Core) (t : Txn) : Nat := fieldOf x.landInForce 17 12 * 4096 + t.permit * 4096

/-- Bytes of a landing block. A handler may have moved the landing area so that it reaches past the end of TCM; what lies there is no
memory, and reads as undefined bytes (log entry 65). -/
def landBytes (s : State) (core off n : Nat) : List Byte × State :=
  let here := min n (2 ^ 18 - off)
  if here = n then (readBytes s.mem (tcmKey core off) n, s)
  else
    let (bs, s1) := freshBytes s (n - here)
    (readBytes s.mem (tcmKey core off) here ++ bs, s1)

/-- `TXPEEK`'s value (R365): no access under the checker, but it may park and set `A`. -/
def peekTile (s : State) (va : Word) : Except Stop (Word × State) :=
  if va.toNat % 8 ≠ 0 then .error (.trap cMisaligned 0 va 1)
  else
    match namedTile s s.ctx.core va with
    | none => .error (.trap cAccess 2 va 1)
    | some t =>
      if (me s).body.isNone then
        match checkAccess s { asMe s with peek := true } va 8 8 .load with
        | .error e => .error (accStop va .load e)
        | .ok p => .ok (BitVec.ofNat 64 (memNat (memSeen s s.ctx.core p) p.key 8), markLeaf s p false)
      else
        match heldOffset s t with
        | none => .error (.trap cAccess 2 va 1)
        | some (x, off) =>
          let o := blockOffset (myCore s) x + off + ((if t.die then fieldOf va 25 0 else fieldOf va 47 0) - t.addr)
          if interlocked s s.ctx.core o 8 false then .error (.wait .stall)
          else
            let (bs, s1) := landBytes s s.ctx.core o 8
            .ok (BitVec.ofNat 64 (leNat bs), s1)

/-- `TXPEEK` (R365). -/
def execTxpeek (d a : BitVec 5) (s : State) : Out State :=
  issueWord (.txpeek d a) s fun s => do
    if txPhaseOk s then .ok () else .error (illegal s)
    vectorsDone s
    let (v, s1) ← peekTile s (readS s a)
    pure (retire (writeS s1 d v))

/-! ### Building a descriptor (R366) -/

/-- The place of a descriptor's bytes at an offset. -/
def descAt (p : Place) (off : Nat) : Place := { p with key := p.key + off, va := p.va + BitVec.ofNat 64 off }

/-- The descriptor's `HDR`, loaded by the strand. -/
def loadHdr (s : State) (p : Place) : Word × State :=
  let (bs, s1) := loadAt s (whoMe s) p 8
  (BitVec.ofNat 64 (leNat bs), s1)

/-- A doubleword of the descriptor stored by the strand. -/
def storeDesc (s : State) (p : Place) (off : Nat) (xs : List Word) : State :=
  storeAt s (whoMe s) (descAt p off) (xs.flatMap fun x => leBytes 8 x.toNat) false

/-- `TXSETS` (R366). -/
def execTxsets (d a b : BitVec 5) (k : BitVec 1) (s : State) : Out State :=
  issueWord (.txsets d a b k) s fun s => do
    if txPhaseOk s then .ok () else .error (illegal s)
    vectorsDone s
    let p ← descPlace s (readS s a) .store
    accessReady s p 328 true
    let (h, s1) := loadHdr s p
    if k = 0#1 then
      let i := hdrNread h
      if 16 ≤ i then .error (programTrap 7)
      else
        let s2 := storeDesc (storeDesc s1 p (0x48 + 8 * i) [readS s b]) p 0 [h + 0x100000#64]
        pure (retire (writeS s2 d (BitVec.ofNat 64 i)))
    else
      let i := hdrNwrite h
      if 8 ≤ i then .error (programTrap 7)
      else
        let s2 := storeDesc (storeDesc s1 p (0xC8 + 8 * i) [readS s b]) p 0 [h + 0x2000000#64]
        pure (retire (writeS s2 d (BitVec.ofNat 64 (16 + i))))

/-- Offset in the descriptor of the address a set index lists, where it lists one. -/
def setOffset (h : Word) (set : Nat) : Option Nat :=
  if set < 16 then (if set < hdrNread h then some (0x48 + 8 * set) else none)
  else if set < 24 && set - 16 < hdrNwrite h then some (0xC8 + 8 * (set - 16))
  else none

/-- `TXCHK` (R366). -/
def execTxchk (d a b : BitVec 5) (s : State) : Out State :=
  issueWord (.txchk d a b) s fun s => do
    if txPhaseOk s then .ok () else .error (illegal s)
    vectorsDone s
    let p ← descPlace s (readS s a) .store
    accessReady s p 328 true
    let (h, s1) := loadHdr s p
    let sel := readS s b
    let doff := fieldOf sel 28 16
    if fieldOf sel 15 5 ≠ 0 || fieldOf sel 63 29 ≠ 0 then .error (programTrap 4)
    else
      match setOffset h (fieldOf sel 4 0) with
      | none => .error (programTrap 4)
      | some off =>
        if 4 ≤ hdrNchk h then .error (programTrap 7)
        else
          let (bs, s2) := loadAt s1 (whoMe s) (descAt p off) 8
          let t := BitVec.ofNat 64 (leNat bs)
          match namedTile s s.ctx.core t with
          | none => .error (.trap cAccess 2 t 1)
          | some tile =>
            if tile.size ≤ 8 * doff then .error (programTrap 4)
            else
              let (v, s3) ← peekTile s2 (t + BitVec.ofNat 64 (8 * doff))
              let c := hdrNchk h
              let s4 := storeDesc (storeDesc s3 p (0x108 + 16 * c) [sel, v]) p 0 [h + 0x20000000#64]
              pure (retire (writeS s4 d v))

/-! ### Releases (R359) -/

/-- Clocks by key, the new one joined in. -/
def addClock {α : Type} [DecidableEq α] (k : α) (c : Clock) : List (α × Clock) → List (α × Clock)
  | [] => [(k, c)]
  | e :: l => if e.1 = k then (k, clockJoin e.2 c) :: l else e :: addClock k c l

def findClock {α : Type} [DecidableEq α] (k : α) (l : List (α × Clock)) : Clock := ((l.find? fun e => e.1 = k).map (·.2)).getD []

/-- Every request and permit of a transaction released, and the transaction Done (R350, R367). The first clock is that of all the body's
accesses, which a release of a tile hands on; the second that of its accesses to its landing block, which its permits hand on (R359). -/
def releaseTxn (r : Region) (num : Nat) (c blk : Clock) : Region :=
  match r.txns.find? fun t => t.num = num with
  | none => r
  | some t =>
    let tc := t.reqs.foldl (fun l q => addClock (q.tile, q.excl) c l) r.tileClocks
    let pc := (List.range t.permits).foldl (fun (l : List ((Nat × Nat) × Clock)) i => addClock (t.core, t.permit + i) blk l)
      (r.permClocks.map fun e => ((e.1, e.2.1), e.2.2))
    { r with
      tileClocks := tc
      permClocks := pc.map fun e => (e.1.1, e.1.2, e.2)
      txns := r.txns.map fun u =>
        if u.num = num then { u with reqs := u.reqs.map fun q => { q with status := .removed }, status := .done, holds := false } else u }

/-- The body's strand ends (R357, R367): it is Not live, outside handler mode. -/
def endBody (t : Strand) : Strand :=
  { t with live := false, body := none, wait := .ready, trap := { t.trap with status := t.trap.status &&& ~~~1#64 } }

/-! ### Home writes (R367, R454) -/

/-- Why an access of the device to a held tile does not go through: it parks, or no handler can take its fault, which has `SUB` 1 or 2. -/
inductive HomeErr where
  | park (pkg : Nat) (kind lvl : Nat)
  | kill (sub : Nat)
  deriving DecidableEq, Repr

/-- A held tile's home (R339, R454), for a push or a home write on behalf of the core's body. -/
def homePlace (s : State) (core : Nat) (t : Tile) (va : Word) (write : Bool) (since : Option (Nat × BitVec 32)) : Except HomeErr Place :=
  if t.die then
    .ok { key := dieKey t.home t.addr, mode := .untranslated, readOnly := false, leaf := none, va := va }
  else
    let q : Requester := { core := core, strand := 0, plan := false, peek := true, since := since, asked := none, guard := none }
    match translate s q t.home va 4 (if write then .store else .load) with
    | .ok p => if p.mode = .tx then .ok p else .error (.kill 2)
    | .error (.page pkg k lvl) => .error (.park pkg k lvl)
    | .error .unmapped => .error (.kill 1)
    | .error _ => .error (.kill 2)

/-- What became of a body's home writes: all written, or how many of the requests were dealt with before the one whose tile's home write
is in progress. -/
inductive HomeResult where
  | written (s : State)
  | parked (s : State) (homed pkg kind lvl : Nat) (va : Word)
  | killed (s : State) (homed sub : Nat) (va : Word)
  deriving DecidableEq, Repr

/-- The landing copies of the write tiles written home, in set order, from request `i` on (R367, R454). -/
def writeHome (core : Nat) (blk : Nat) : State → Nat → List LockReq → HomeResult
  | s, _, [] => .written s
  | s, i, q :: qs =>
    if q.excl then
      match homePlace s core q.tile q.va true (me s).parkedAt with
      | .error (.park pkg kind lvl) => .parked s i pkg kind lvl q.va
      | .error (.kill sub) => .killed s i sub q.va
      | .ok p =>
        let (bs, s1) := landBytes s core (blk + q.offset) q.tile.size
        writeHome core blk (storeAt s1 (whoMe s1) p bs false) (i + 1) qs
    else writeHome core blk s (i + 1) qs

/-- The transaction is Ending, its home writes held at request `i` (R350). -/
def holdHome (s : State) (num i : Nat) : State :=
  modRegionOf s s.ctx.core fun r =>
    { r with txns := r.txns.map fun u => if u.num = num then { u with status := .ending, homed := i } else u }

/-- What the body's accesses to its landing block are ordered before (R359, permits). -/
def blockClock (s : State) (t : Txn) : Clock :=
  let lo := tcmKey t.core (blockOffset (getCore s t.core) t)
  logClock s s.ctx.core s.ctx.strand (fun a => lo ≤ a.lo && a.lo < lo + t.permits * 4096) []

/-- The release and the end of the body's strand. -/
def finishBody (s : State) (t : Txn) : State :=
  let c := agentClock s s.ctx.core s.ctx.strand
  let blk := blockClock s t
  modMe (modRegionOf s s.ctx.core fun r => releaseTxn r t.num c blk) endBody

/-- The wait for the body's engine commands (R286, R367), and for its no-return atomics, which the home writes follow (R145). -/
def bodySettled (s : State) : Except Stop Unit := do
  vectorsDone s
  if ringSettled (me s) && !atomsPending s then .ok () else .error (.wait .stall)

/-- `TXEND` (R367). -/
def execTxend (s : State) : Out State :=
  issueWord .txend s fun s =>
    match (me s).body, bodyTxn s s.ctx.core s.ctx.strand with
    | some b, some t =>
      if b.restart then .error (illegal s)
      else do
        bodySettled s
        match writeHome s.ctx.core (blockOffset (myCore s) t) s t.homed (t.reqs.drop t.homed) with
        | .written s1 => pure (finishBody s1 t)
        | .parked s0 i pkg kind lvl va =>
          let g := (getPackage s pkg).faultGen
          let s1 := modMe (holdHome s0 b.num i) fun t => { t with parkedAt := some (fieldOf va 47 16, g) }
          pure (block (postRecord s1 pkg s.ctx.core 8 (myRegion s).rcb.id kind lvl va) (.page pkg (fieldOf va 47 16) g))
        | .killed s0 i sub va => pure (setEvent (killFaultDomain (holdHome s0 b.num i) s.ctx.core cAccess sub va) .trapped)
    | _, _ => .error (illegal s)

/-- `TXRST` (R368): the descriptor checked as by `TXSUB` without the allowance; a restart of the next superstep (R360). -/
def execTxrst (a : BitVec 5) (s : State) : Out State :=
  issueWord (.txrst a) s fun s =>
    match (me s).body, bodyTxn s s.ctx.core s.ctx.strand with
    | some b, some t => do
      bodySettled s
      let (desc, s1) ← readDesc s (readS s a)
      let r : Restart := { num := b.num, core := s.ctx.core, host := t.host, desc := desc }
      pure (finishBody (modRegionOf s1 s.ctx.core fun g => { g with restarts := g.restarts ++ [r] }) t)
    | _, _ => .error (illegal s)

end Sys2Proof.Machine
end

