-- ==== Sys2Proof/Machine/Sequencer.lean ====
section
/-! DEFINITION. The package sequencers and the lock managers (R343 to R358, R371, R454, R455): forming and weaving batches, lock
requests, grants, pushes and dispatch. -/

namespace Sys2Proof.Machine

/-! ### Batches and numbers (R345, R346, R455) -/

/-- A transaction as it stands in a package batch, before it has a number. -/
structure BatchItem where
  pkg : Nat
  core : Nat
  host : Bool
  desc : Desc
  deriving DecidableEq, Repr

def restartLe (a b : Restart) : Bool := a.num ≤ b.num
def hostLe (a b : HostTxn) : Bool := a.q < b.q || (a.q = b.q && a.num.toNat ≤ b.num.toNat)
def subLe (a b : Submission) : Bool := orderLe a.order b.order

/-- The host transactions of a package's front-end batch. -/
def frontBatch (r : Region) (pkg : Nat) : List HostTxn :=
  sortBy hostLe (r.hostTxns.filter fun h => h.pkg = pkg && h.superstep = r.superstep)

/-- A package's batch: restarts, front-end batch, core batch (R345). -/
def packageBatch (s : State) (r : Region) (pkg : Nat) : List BatchItem :=
  let restarts := sortBy restartLe (r.restarts.filter fun x => pkgOfCore x.core = pkg)
  let cores := (heldCores s r.rcb.id).filter fun c => pkgOfCore c = pkg
  (restarts.map fun x => { pkg := pkg, core := x.core, host := x.host, desc := x.desc }) ++
    ((frontBatch r pkg).map fun h => { pkg := pkg, core := h.core, host := true, desc := h.desc }) ++
    cores.flatMap fun c => (sortBy subLe (getCore s c).subs).map fun x => { pkg := pkg, core := c, host := false, desc := x.desc }

/-- The weave order: by position, then by package (R346). -/
def weave (batches : List (List BatchItem)) : List BatchItem :=
  let n := (batches.map List.length).foldl max 0
  (List.range n).flatMap fun j => batches.filterMap fun b => b[j]?

/-- A tile's lock manager (R73, R339): the bank of a die's SRAM, or the package's channel controller that holds the byte at the tile's
translation (log entry 19). -/
def tileManager (s : State) (r : Region) (t : Tile) : Bool × Nat × Nat :=
  if t.die then (true, t.home, t.addr / 256 % 64)
  else
    match findLeaf s t.home t.addr 4 r.rcb.root with
    | .leaf l => (false, t.home, Config.channelOf t.home (some (leafPa l t.addr)))
    | _ => (false, t.home, Config.channelOf t.home none)

/-- The lock requests of a transaction, with the tiles' places in the landing block (R347, R354). -/
def lockReqs (s : State) (core : Nat) (d : Desc) : List LockReq :=
  ((listedTiles d).foldl (fun (acc : List LockReq × Nat) e =>
    match namedTile s core e.1 with
    | none => acc
    | some t => (acc.1 ++ [{ tile := t, va := e.1, excl := e.2, offset := acc.2, status := .issued, parked := none, thread := none
                             manager := tileManager s (regionOf s core) t }], acc.2 + t.size))
    ([], 0)).1

/-- First permit of the next block (R353). -/
def nextPermit (prev : Option Txn) (m : Nat) : Nat :=
  match prev with
  | none => 0
  | some t => if 16 < t.permit + t.permits + m then 0 else t.permit + t.permits

/-- The transactions of the woven batch, in number order (R346, R353, R455). -/
def numberTxns (s : State) : List BatchItem → List Txn → List Txn
  | [], acc => acc
  | b :: l, acc =>
    let reqs := lockReqs s b.core b.desc
    let size := reqs.foldl (fun n q => n + q.tile.size) 0
    let m := (size + 4095) / 4096
    let mine := acc.filter fun t => t.core = b.core
    let lands := fieldOf (getCore s b.core).landInForce 17 12 ≠ 0
    let t : Txn :=
      { num := acc.length, pkg := b.pkg, core := b.core, host := b.host, desc := b.desc, reqs := if lands then reqs else [],
        status := if lands then (if reqs.isEmpty then .landed else .numbered) else .done
        k := mine.length, permit := nextPermit mine.getLast? m, permits := m, holds := false, failed := 0, homed := 0, clock := [] }
    numberTxns s l (acc ++ [t])

/-- Transactions without a landing area, by core (R455). -/
def lostTxns (s : State) (items : List BatchItem) : List (Nat × Nat) :=
  (items.filter fun b => fieldOf (getCore s b.core).landInForce 17 12 = 0).map fun b => (b.core, 1)

/-! ### Lock managers (R339, R344, R347, R349) -/

def findTxn (r : Region) (num : Nat) : Option Txn := r.txns.find? fun t => t.num = num

def putTxn (r : Region) (t : Txn) : Region := { r with txns := r.txns.map fun u => if u.num = t.num then t else u }

def setReq (t : Txn) (i : Nat) (f : LockReq → LockReq) : Txn :=
  { t with reqs := (t.reqs.zipIdx).map fun e => if e.2 = i then f e.1 else e.1 }

/-- Requests a manager holds that are not yet removed. -/
def queuedAt (s : State) (m : Bool × Nat × Nat) : Nat :=
  (s.regions.flatMap fun r => r.txns.flatMap fun t => t.reqs).countP fun q =>
    q.manager = m && q.status ≠ .issued && q.status ≠ .removed

/-- The manager holds every lower-numbered request addressed to it, and has room (R344, R347). -/
def canEnqueue (s : State) (r : Region) (t : Txn) (i : Nat) : Bool :=
  match t.reqs[i]? with
  | none => false
  | some q =>
    let m := q.manager
    r.state = .running && r.phase = .t && !r.preempting && q.status = .issued && queuedAt s m < 4096 &&
      r.txns.all fun u => t.num ≤ u.num || u.reqs.all fun p => p.manager ≠ m || p.status ≠ .issued

/-- The grant condition (R349). -/
def canGrant (r : Region) (t : Txn) (i : Nat) : Bool :=
  match t.reqs[i]? with
  | none => false
  | some q =>
    q.status = .queued &&
      r.txns.all fun u => t.num ≤ u.num || u.reqs.all fun p => p.tile ≠ q.tile || p.status = .removed || (!q.excl && !p.excl)

/-- `LOCK_REQUEST_ENQUEUE` (R347). -/
def execLockRequestEnqueue (region num req : Nat) (s : State) : Out State :=
  let r := getRegion s region
  match findTxn r num with
  | none => .next s
  | some t =>
    if canEnqueue s r t req then .next (modRegion s region fun r => putTxn r (setReq t req fun q => { q with status := .queued }))
    else .next s

/-- The transaction is Granting once every request is granted (R350). -/
def allGranted (t : Txn) : Txn :=
  if t.status = .numbered && t.reqs.all fun q => q.status = .granted || q.status = .pushed then { t with status := .granting } else t

/-- `LOCK_GRANT` (R349): the grant follows the releases of the tile so far; two shared holders are not ordered by it (R359). -/
def execLockGrant (region num req : Nat) (s : State) : Out State :=
  let r := getRegion s region
  match findTxn r num with
  | none => .next s
  | some t =>
    if canGrant r t req then
      let follows (k : Tile × Bool) : Bool := (t.reqs[req]?).any fun q => k.1 = q.tile && (k.2 || q.excl)
      let c := (r.tileClocks.filter fun e => follows e.1).foldl (fun c e => clockJoin c e.2) t.clock
      .next (modRegion s region fun r => putTxn r (allGranted { setReq t req fun q => { q with status := .granted } with clock := c }))
    else .next s

/-! ### Landing permits (R353) -/

/-- A permit held by a transaction of the core. -/
def permitHeld (r : Region) (core i : Nat) : Bool :=
  r.txns.any fun t => t.core = core && t.holds && t.permit ≤ i && i < t.permit + t.permits

/-- The transaction's block has taken its permits, now or earlier. -/
def hasTaken (t : Txn) : Bool := t.holds || t.permits = 0 || t.status = .done

/-- One block takes its permits once the blocks before it have and each permit is released; its pushes follow the releases. -/
def takeBlock (r : Region) (t : Txn) : Region :=
  match findTxn r t.num with
  | none => r
  | some u =>
    let before := (r.txns.filter fun x => x.core = u.core && x.num < u.num).all hasTaken
    let free := (List.range u.permits).all fun i => !permitHeld r u.core (u.permit + i)
    if !hasTaken u && before && free then
      let cs := r.permClocks.filter fun e => e.1 = u.core && u.permit ≤ e.2.1 && e.2.1 < u.permit + u.permits
      putTxn r { u with holds := true, clock := cs.foldl (fun c e => clockJoin c e.2.2) u.clock }
    else r

/-- The blocks of the core up to a transaction's take their permits in order, as far as they can. -/
def takePermits (r : Region) (t : Txn) : Region :=
  (r.txns.filter fun u => u.core = t.core && u.num ≤ t.num).foldl takeBlock r

/-! ### Pushes (R348, R349, R454) -/

/-- A push of a tile still parked on a page fault, in the package that homes the tile. -/
def stillParked (s : State) (q : LockReq) : Bool :=
  match q.parked with
  | none => false
  | some (_, gen) => (getPackage s q.tile.home).faultGen = gen

/-- The request's push can be made: it is granted and its block takes its permits. -/
def canPush (s : State) (r : Region) (t : Txn) (i : Nat) : Bool :=
  match t.reqs[i]? with
  | none => false
  | some q =>
    q.status = .granted && !stillParked s q &&
      ((findTxn (takePermits r t) t.num).map (·.holds)).getD false

/-- The landing-push write of a tile (R136, R354): recorded as an access of its own thread. Bytes past the end of TCM go nowhere (log
entry 65). -/
def pushTile (s : State) (id : Nat) (t : Txn) (q : LockReq) (p : Place) : State :=
  let r := getRegion s id
  let off := blockOffset (getCore s t.core) t + q.offset
  let bs := readBytes s.mem p.key (min q.tile.size (2 ^ 18 - off))
  let th := cmdThread0 + s.thread
  let clock := mapSet t.clock th 1
  let key := tcmKey t.core off
  let parts := granParts key bs.length
  let acc (lo hi : Nat) : Access :=
    { agent := .ni t.core 3, thread := th, time := 1, clock := clock, lo := lo, hi := hi, write := true, atomic := none,
      waitw := false, handoff := false, va := BitVec.ofNat 64 (lo % 2 ^ 18), mem := 0 }
  let kept := (parts.filter fun x => classAt r x.1 ≠ 2).map fun x => acc x.1 x.2
  let guarded := (parts.filter fun x => classAt r x.1 = 2).map fun x => (t.core, x.1 / 256, 0, 1#3)
  let dst : Place := { key := key, mode := .untranslated, readOnly := false, leaf := none, va := BitVec.ofNat 64 off }
  let s1 := markLeaf s p false
  let s2 := { s1 with mem := writeGuarded s1.mem r dst bs, thread := s1.thread + 1 }
  modRegion s2 id fun r =>
    let r1 : Region := { r with log := kept ++ r.log, guards := guarded ++ r.guards }
    match findTxn r1 t.num with
    | none => r1
    | some u =>
      let u1 : Txn := { u with
        reqs := u.reqs.map fun (x : LockReq) => if x.tile = q.tile then { x with status := .pushed, parked := none, thread := some th } else x
        clock := clock }
      putTxn r1 (if u1.reqs.all fun x => x.status = .pushed then { u1 with status := .landed } else u1)

/-- `TILE_PUSH` (R348, R353, R454). -/
def execTilePush (region num req : Nat) (s : State) : Out State :=
  let r0 := getRegion s region
  match findTxn r0 num with
  | none => .next s
  | some t0 =>
    if !canPush s r0 t0 req then .next s
    else
      let r := takePermits r0 t0
      let s1 := setRegion s r
      match findTxn r num with
      | none => .next s1
      | some t =>
        match t.reqs[req]? with
        | none => .next s1
        | some q =>
          match homePlace s1 t.core q.tile q.va false q.parked with
          | .error (.kill sub) => .next (killFaultDomain s1 t.core cAccess sub q.va)
          | .error (.park pkg kind lvl) =>
            let g := (getPackage s1 pkg).faultGen
            let s2 := postRecord s1 pkg t.core 8 region kind lvl q.va
            .next (modRegion s2 region fun r => putTxn r (setReq t req fun q => { q with parked := some (fieldOf q.va 47 16, g) }))
          | .ok p => .next (pushTile s1 region t q p)

/-! ### Dispatch (R355 to R357) -/

/-- The helper strand of a transaction. -/
def bodyStrand (t : Txn) : Fin 4 := ⟨1 + t.k % 3, by omega⟩

/-- The strand's previous transaction has ended, and this one is Landed. -/
def canDispatch (s : State) (r : Region) (t : Txn) : Bool :=
  r.state = .running && r.phase = .t && t.status = .landed && !(getStrand s t.core (bodyStrand t)).live && !r.preemptReq && !r.preempting && !r.killReq &&
    r.txns.all fun u => t.num ≤ u.num || u.core ≠ t.core || u.k % 3 ≠ t.k % 3 || u.status = .done

/-- The residual address of an original word of the core's routine (R177, R182). -/
def residualAddr (r : Region) (routine off : Nat) : TcmAddr :=
  match r.code.find? fun c => c.routine = routine with
  | none => 0
  | some c => BitVec.ofNat 18 (c.loadAddr + 4 * ((mapGet? c.entries off).getD off))

/-- The check words, read by the body's strand from the landing block (R356). -/
def evalChecks (t : Txn) (blk : Nat) : State → List (Nat × Nat × Word) → List Bool × State
  | s, [] => ([], s)
  | s, (set, doff, expect) :: l =>
    let i := if set < 16 then set else t.desc.rtiles.length + (set - 16)
    let off := ((t.reqs[i]?).map (·.offset)).getD 0
    let o := blk + off + 8 * doff
    let p : Place := { key := tcmKey t.core o, mode := .untranslated, readOnly := false, leaf := none, va := BitVec.ofNat 64 o }
    let (bs, s1) := if o + 8 ≤ 2 ^ 18 then loadAt s { core := t.core, strand := bodyStrand t, cmd := none } p 8 else landBytes s t.core o 8
    let (fs, s2) := evalChecks t blk s1 l
    (decide (BitVec.ofNat 64 (leNat bs) ≠ expect) :: fs, s2)

/-- The scalar registers a body starts with (R357). -/
def bodyRegs (t : Txn) (blk : Nat) (failed : BitVec 4) : Vector Word 32 :=
  let s2 := BitVec.ofNat 64 (t.num * 2 ^ 32 + failed.toNat * 16 + (if failed = 0#4 then 0 else 1))
  Vector.ofFn fun i =>
    if i.val = 1 then BitVec.ofNat 64 blk
    else if i.val = 2 then s2
    else if 3 ≤ i.val && i.val ≤ 10 then t.desc.args.getD (i.val - 3) 0#64
    else 0#64

def maskOf : List Bool → Nat → BitVec 4
  | [], _ => 0#4
  | f :: fs, i => (if f then 1#4 <<< i else 0#4) ||| maskOf fs (i + 1)

/-- The body's strand at dispatch: a new run, with no word fetched (log entry 31). -/
def startBody (s : State) (region : Nat) (t : Txn) : State :=
  let r := getRegion s region
  let n := bodyStrand t
  let blk := blockOffset (getCore s t.core) t
  let old := getStrand s t.core n
  let fresh : Strand :=
    { Strand.idle with
      live := true, strandId := old.strandId, run := old.run, clock := clockJoin old.clock t.clock, body := some { num := t.num, restart := false, issued := 0 } }
  let s1 := dropFetched (setStrand s t.core n fresh) t.core n
  let (fs, s2) := evalChecks t blk s1 t.desc.chks
  let failed := maskOf fs 0
  let b := (imageOf r).bodies[t.desc.body]?
  let entry := match b with
    | none => 0
    | some b => if failed = 0#4 then b.bentry else b.prologue.getD 0
  let rout := (b.map (·.routine)).getD 0
  let s3 := modStrand s2 t.core n fun u =>
    { u with
      pc := residualAddr r rout entry, regs := { u.regs with s := bodyRegs t blk failed }
      body := some { num := t.num, restart := decide (failed ≠ 0#4), issued := 0 } }
  modRegion s3 region fun r => putTxn r { t with status := .running, failed := failed }

/-- `TRANSACTION_DISPATCH` (R355). -/
def execTransactionDispatch (region num : Nat) (s : State) : Out State :=
  let r := getRegion s region
  match findTxn r num with
  | none => .next s
  | some t => if canDispatch s r t then .next (startBody s region t) else .next s

/-! ### Pre-emption (R371) -/

/-- Requests withdrawn, and permits of transactions that are not running released. -/
def withdraw (t : Txn) : Txn :=
  if t.status = .done then t
  else
    let reqs := t.reqs.map fun q => if q.status = .removed then q else { q with status := .issued, parked := none, thread := none }
    { t with reqs := reqs, holds := false, status := if t.reqs.isEmpty then .landed else .numbered, clock := [] }

/-- The region's transactions withdrawn: the pushes into their blocks are discarded, and are no accesses any more. -/
def withdrawAll (r : Region) : Region :=
  let gone := (r.txns.filter fun t => t.status ≠ .done).flatMap fun t => t.reqs.filterMap fun q => q.thread
  { r with txns := r.txns.map withdraw, log := r.log.filter fun a => !gone.contains a.thread }

end Sys2Proof.Machine
end

