-- ==== Sys2Proof/Machine/Phases.lean ====
section
/-! DEFINITION. The superstep (R19 to R24, R42, R137, R270, R308, R309, R362): C done, C close, T close, the request vote, deferred
stores, the barrier and the end of a region; and where a `KILL` acts (R416). -/

namespace Sys2Proof.Machine

/-! ### Phase starts -/

/-- The entries of a class map that are not ordinary (R137): the map's own granules always are. -/
def classEntries (m : Memory) (base mapOff n last : Nat) : List (Nat × Nat) :=
  (m.filter fun c => base + mapOff ≤ c.1 && c.1 < base + mapOff + n).flatMap fun c =>
    (List.range 4).filterMap fun j =>
      let g := 4 * (c.1 - base - mapOff) + j
      let code := c.2.toNat / 4 ^ j % 4
      if code = 0 || last ≤ g then none else some (base / 256 + g, min code 2)

/-- The granule classes in force for a superstep (R137). -/
def readClasses (s : State) (cores : List Nat) : List (Nat × Nat) :=
  (cores.flatMap fun c => classEntries s.mem (tcmKey c 0) 0x3FF00 256 1023) ++
    (dedup (cores.map clusterOf)).flatMap fun cl => classEntries s.mem (spadKey cl 0) 0x7FE00 512 2046

/-- The keeper of a cluster commits its pending values into all 16 link latches (R270). -/
def commitCluster (s : State) (cl : Nat) : State :=
  let l := (getCore s (cl * 16)).mx.link
  let keeper := cl * 16 + l.ky.toNat * 4 + l.kx.toNat
  let p := (getCore s keeper).mx.pending
  (List.range 16).foldl (fun s i => modMx s (cl * 16 + i) fun m => { m with link := p, pending := p, rounds := 0 }) s

def commitKeepers (s : State) (cores : List Nat) : State := (dedup (cores.map clusterOf)).foldl commitCluster s

/-- A strand at a superstep's start. -/
def freshCounts (t : Strand) : Strand := { t with run := 0, place := 0, deferred := 0, allowance := 0, txsubs := 0 }

/-- A core at C-phase start (R22, R343, R352, R455). -/
def coreStartC (r : Region) (n : Word) (core : Nat) (x : Core) : Core :=
  { x with
    strands := x.strands.map freshCounts, superstep := n, phase := 0, landInForce := x.landBase, cdone := false, plan := [], xfaults := [],
    conflicts := [], planDone := false, subs := [], pendBytes := 0
    carried := r.restarts.countP fun e => e.core = core && !e.host }

/-- The C phase of superstep `n` begins; in superstep 0 every granule is ordinary, whatever the launch has loaded over the maps (R40,
R137). -/
def startC (s : State) (id : Nat) (n : Word) : State :=
  let cores := heldCores s id
  let r := getRegion s id
  let s1 := cores.foldl (fun s c => modCore s c (coreStartC r n c)) s
  let s2 := commitKeepers s1 cores
  let classes := if n = 0#64 then [] else readClasses s2 cores
  modRegion s2 id fun r =>
    { r with
      phase := .c, superstep := n, closed := [], memC := s2.mem, memPhase := s2.mem, classes := classes, txns := [], xfers := [],
      noLanding := [], tileClocks := [], permClocks := [] }

/-! ### C done and C close (R20, R21, R345) -/

/-- A core can report C done: its control strand has executed `SYNC` (or voted), its helpers have ended, and every engine
command has settled. In the supersteps of R362 control strands stay in their votes, so every core can at once. -/
def canCDone (s : State) (core : Nat) : Bool :=
  let x := getCore s core
  let r := regionOf s core
  let t := coreStrand x 0
  x.region.isSome && r.state = .running && r.phase = .c && !x.taken && !x.cdone &&
    t.live && t.wait = .barrier && !t.released && ([1, 2, 3].all fun (n : Fin 4) => !(coreStrand x n).live) &&
      x.mq.isEmpty && x.cq.isEmpty && x.sq.isEmpty && x.vq.isEmpty

/-- `C_DONE` (R20). -/
def execCDone (core : Nat) (s : State) : Out State :=
  if canCDone s core then .next (modCore s core fun x => { x with cdone := true }) else .next s

def canCClose (s : State) (r : Region) (pkg : Nat) : Bool :=
  r.state = .running && r.phase = .c && !r.preempting && r.atoms.isEmpty && (livePkgs r).contains pkg && !r.closed.contains pkg &&
    (heldCores s r.rcb.id).all fun c => (getCore s c).cdone

/-- Every host transaction numbered at this C close completes (R422); a replay writes no completion twice (R448). -/
def completeNumbered (s : State) (hs : List HostTxn) : State :=
  hs.foldl (fun s h => if h.silent then s else completePacket s h.pkg h.q h.num h.comp h.irq statOk 0#64) s

/-- The T phase begins: batches formed, woven and numbered. -/
def enterT (s : State) (id : Nat) : State :=
  let s1 := endPhase s id
  let r := getRegion s1 id
  let items := weave ((livePkgs r).map (packageBatch s1 r))
  let hosts := (livePkgs r).flatMap (frontBatch r)
  let txns := numberTxns s1 items []
  let s2 := completeNumbered s1 hosts
  let cores := heldCores s2 id
  let s3 := commitKeepers (cores.foldl (fun s c => modCore s c fun x => { x with phase := 1, subs := [] }) s2) cores
  modRegion s3 id fun r =>
    { r with
      phase := .t, memPhase := s3.mem, txns := txns, noLanding := lostTxns s1 items, restarts := []
      hostTxns := r.hostTxns.filter fun h => !hosts.contains h }

/-- The front-end batch kept with the recovery point (R448). -/
def keepBatch (s : State) (id : Nat) : State :=
  let r := getRegion s id
  match recPointOf s r with
  | none => s
  | some p => putPoint s r { p with hostKept := p.hostKept ++ (livePkgs r).flatMap (frontBatch r) }

/-- C close once every package that takes part has observed it (R21). -/
def closeC (s : State) (id : Nat) : State :=
  let r := getRegion s id
  if r.state = .running && r.phase = .c && !(livePkgs r).isEmpty && (livePkgs r).all r.closed.contains then enterT (keepBatch s id) id
  else s

/-- `C_CLOSE` (R21): a package observes it; once every package has, the T phase begins. -/
def execCClose (region pkg : Nat) (s : State) : Out State :=
  let r := getRegion s region
  if canCClose s r pkg then
    .next (closeC (modRegion s region fun r =>
      { r with
        closed := r.closed ++ [pkg]
        observed := mapSet r.observed pkg (max ((mapGet? r.observed pkg).getD 0) (r.superstep.toNat + 1)) }) region)
  else .next s

/-! ### T close (R19, R296, R317) -/

def canTClose (s : State) (r : Region) : Bool :=
  r.state = .running && r.phase = .t && !r.preempting && !r.preemptReq && !r.killReq && r.atoms.isEmpty && (r.txns.all fun t => t.status = .done) &&
    (heldCores s r.rcb.id).all fun c =>
      let x := getCore s c
      let t := coreStrand x 0
      (!t.live || t.wait = .barrier) && x.mq.isEmpty && x.cq.isEmpty && x.sq.isEmpty && x.vq.isEmpty

def msgLe (a b : Msg) : Bool := orderLe a.order b.order

/-- A core's messages with their sender indexes (R317). -/
def indexMsgs (x : Core) : Core :=
  { x with msgs := ((sortBy msgLe x.msgs).zipIdx).map fun e => { e.1 with index := e.2 } }

/-- `T_CLOSE` (R19): the X phase starts, and every NI reads its segment. -/
def execTClose (region : Nat) (s : State) : Out State :=
  let r := getRegion s region
  if canTClose s r then
    let s1 := endPhase s region
    let cores := heldCores s1 region
    let s2 := cores.foldl (fun s c => modCore s c indexMsgs) s1
    let s3 := modRegion s2 region fun r => { r with phase := .x1, xlog := [], xfers := [] }
    .next (cores.foldl (fun s c => loadPlan s region c) s3)
  else .next s

/-! ### The request vote (R130, R308, R318) -/

/-- (key, core program order) of R130. -/
def seqLe (a b : SeqReq) : Bool :=
  a.prio < b.prio || (a.prio = b.prio && (a.core < b.core || (a.core = b.core && orderLe a.order b.order)))

/-- One sequenced atomic applied at its home and its result delivered (R130). In a guard granule it reads zero and stores nothing (R141). -/
def applySeq (id : Nat) (s : State) (q : SeqReq) : State :=
  let guard := classAt (getRegion s id) q.key = 2
  let old := if guard then 0 else memNat s.mem q.key q.size
  let sum := old + q.addend
  let mem := if spaceOf q.key ≤ 2 then spaceOf q.key else 5
  let s1 := noteX s id (.ni q.core niSeqTarget) q.key q.size (decide (sum ≤ q.limit)) q.core 0xFFFF false q.va mem
  let s2 := if guard then modRegion s1 id fun r => { r with guards := (q.core, q.key / 256, 0, 1#3) :: r.guards }
    else if q.limit < sum then s1 else { s1 with mem := memPut s1.mem q.key q.size (sum % 2 ^ (8 * q.size)) }
  niWrite s2 id q.core 1 (q.slot % 2 ^ 18) (leBytes 8 old ++ leBytes 8 (if q.limit < sum then 1 else 0)) q.core 0xFFFF false

def arrivalLe (a b : Msg) : Bool := a.src < b.src || (a.src = b.src && a.index ≤ b.index)

/-- Messages written to a core's queue in the X phase, as writes of the message-delivery agent; the first that finds it full, and
every one after it, is held (R318). -/
def deliverX (id core : Nat) : State → List Msg → State × List Msg
  | s, [] => (s, [])
  | s, m :: ms =>
    let x := getCore s core
    let n := rqSlots x
    let tail := rqNext x
    if !rqUsable x || (tail + 1) % n = fieldOf x.rqHead 11 0 then (s, m :: ms)
    else
      let s1 := niWrite s id core 2 ((fieldOf x.rqBase 17 6 + tail) * 64) (slotBytes m) core 0xFFFF false
      deliverX id core (modCore s1 core fun x => { x with rqTail := BitVec.ofNat 64 ((tail + 1) % n) }) ms

/-- Delivery to one core: held messages first (R318). -/
def deliverCore (id : Nat) (all : List Msg) (s : State) (core : Nat) : State :=
  let mine := sortBy arrivalLe (all.filter fun m => m.dst = core)
  match deliverX id core s ((getCore s core).heldMsgs ++ mine) with
  | (s1, held) => modCore s1 core fun x =>
    { x with
      heldSince := if x.heldMsgs.isEmpty then (getRegion s id).superstep else x.heldSince
      heldMsgs := held, rqPending := !held.isEmpty }

def canVote (r : Region) : Bool := r.state = .running && r.phase = .x1

/-- `REQUEST_VOTE` (R308): requests resolved, results and messages delivered. -/
def execRequestVote (region : Nat) (s : State) : Out State :=
  let r := getRegion s region
  if canVote r then
    let cores := heldCores s region
    let reqs := sortBy seqLe (cores.flatMap fun c => (getCore s c).seqReqs)
    let msgs := cores.flatMap fun c => (getCore s c).msgs
    let s1 := reqs.foldl (applySeq region) s
    let s2 := cores.foldl (deliverCore region msgs) s1
    let s3 := cores.foldl (fun s c => modCore s c fun x => { x with seqReqs := [], msgs := [] }) s2
    .next (modRegion s3 region fun r => { r with phase := .x2 })
  else .next s

/-! ### Deferred stores (R119, R120, R412) -/

def dstoreLe (a b : DStore) : Bool := orderLe a.order b.order

/-- The next deferred store in core program order. -/
def nextDeferred (s : State) : List Nat → Option DStore
  | [] => none
  | c :: cs =>
    match sortBy dstoreLe (getCore s c).deferred with
    | d :: _ => some d
    | [] => nextDeferred s cs

/-- Doorbell events of a performed deferred store (R412): one for each device-side queue of whose doorbell dword it writes a byte, with
the dword's bits [31:0]. -/
def ringDoorbells (s : State) (d : DStore) : State :=
  { s with packages := s.packages.map fun e =>
      let hits := e.2.queues.filter fun q =>
        q.2.cfg.getLsbD 0 && q.2.cfg.getLsbD 1 &&
          (match cpKey? e.1 q.2.door with
           | none => false
           | some k => d.key < k + 8 && k < d.key + d.bytes.length)
      (e.1, { e.2 with doorbells := e.2.doorbells ++ hits.map fun q =>
        (q.1, BitVec.ofNat 32 (memNat s.mem ((cpKey? e.1 q.2.door).getD 0) 4)) }) }

/-- `DEFERRED_STORE_PERFORM` (R119, R308). -/
def execDeferredStorePerform (region : Nat) (s : State) : Out State :=
  let r := getRegion s region
  if r.state = .running && r.phase = .x2 then
    match nextDeferred s (heldCores s region) with
    | none => .next s
    | some d =>
      let s1 := noteX s region (.ni d.core niDeferred) d.key d.bytes.length true d.core 0xFFFF false d.va 3
      let s2 := { s1 with mem := writeBytes s1.mem d.key d.bytes }
      .next (ringDoorbells (modCore s2 d.core fun x => { x with deferred := x.deferred.erase d }) d)
  else .next s

/-! ### The barrier (R22, R42, R162, R164, R334, R362, R443) -/

/-- The barrier completes: the X phase's work is done, and no core of the region is halted (R22, R170). -/
def canExit (s : State) (r : Region) : Bool :=
  r.state = .running && r.phase = .x2 && r.xfers.isEmpty && (nextDeferred s (heldCores s r.rcb.id)).isNone &&
    (heldCores s r.rcb.id).all fun c => segmentDone (getCore s c) && !(getCore s c).halted

/-- A notice in the launch's completion record, as one package's command processor reaches it (R417, R429), once the host has translated
its page; the launching queue's PASID translates it in every package, and a package that has torn that PASID down does not write a record
in host memory (R408, R430; log entry 34). -/
def writeNotice (s : State) (pkg : Nat) (l : Launch) (kind n : Nat) : State :=
  let qu := getQueue s l.pkg l.q
  let pasid := qu.cfg.extractLsb' 32 20
  let value := kind + n % 2 ^ 32 * 2 ^ 32
  if l.notice = 0#64 || (fieldOf l.notice 63 60 = 7 && (getPackage s pkg).torn.contains pasid) then s
  else if (cpMissing (getPackage s pkg) pasid [(l.notice, 32, true)]).isSome then
    { askMissing s pkg pasid [(l.notice, 32, true)] with
      waits := s.waits ++ [{ pkg := pkg, q := l.q, num := l.num, comp := l.notice, irq := false, regions := [], what := .noticed pasid value }] }
  else putNotice s pkg pasid l.notice value

/-- The first dword of each count dword and `REDUCE` destination of a core's segment poisoned (R334). -/
def poisonCore (s : State) (core : Nat) : State :=
  let x := getCore s core
  let offs := x.plan.flatMap fun p =>
    (countDword p).toList ++ (if isReduce p then [p.w2.toNat] else [])
  let s1 := offs.foldl (fun s o => { s with mem := memPut s.mem (tcmKey core o) 8 (2 ^ 64 - 1) }) s
  addXFault s1 core { src := core, entry := 0, sub := 7#8, faddr := 0 }

/-- A domain abort at the barrier (R334): what the X phase wrote is undefined; in a guard granule it wrote nothing (R141). -/
def abortSpoil (s : State) (id : Nat) : State :=
  let r := getRegion s id
  if !r.abortDue then s else (r.xlog.filter fun a => a.write && classAt r a.lo ≠ 2).foldl (fun s a => spoilBytes s a.lo (a.hi - a.lo)) s

/-- What it leaves for the survivors, once the conflicts of the phase are settled (R334, R429): the poisoned dwords, a report of every
surviving core, and the notice in each surviving package. -/
def applyAbort (s : State) (id : Nat) : State :=
  let r := getRegion s id
  if !r.abortDue then s
  else
    let s2 := (heldCores s id).foldl poisonCore s
    let s3 := match r.launch with
      | none => s2
      | some l => (livePkgs r).foldl (fun s p => writeNotice s p l 1 r.superstep.toNat) s2
    modRegion s3 id fun r => { r with abortDue := false }

/-- The held report that ends a region in a fault (R164): the lowest core, then the lowest cause. -/
def endFault (s : State) : List Nat → Option (Nat × Nat × Nat × Word)
  | [] => none
  | c :: cs =>
    let x := getCore s c
    match x.reports with
    | r :: _ => some (c, r.cause.toNat, r.superstep.toNat, r.faddr)
    | [] => if x.heldMsgs.isEmpty then endFault s cs else some (c, cRqOverflow, x.heldSince.toNat, x.rqTail)

/-- Everything a region's launch held is released. -/
def releaseRegion (s : State) (id : Nat) : State :=
  let s1 := (heldCores s id).foldl (fun s c => modCore s c releaseCore) s
  let s2 := modRegion s1 id clearRegion
  { s2 with packages := s2.packages.map fun e =>
      (e.1, { e.2 with
        cache := e.2.cache.map fun c => { c with pins := c.pins.filter (· ≠ id) }, unmapped := e.2.unmapped.filter fun u => u.1 ≠ id }) }

/-- The region ends (R42, R164): its launch completes, and host transactions still waiting are late (R422). -/
def endRegion (s : State) (id : Nat) : State :=
  let r := getRegion s id
  match r.launch with
  | none => s
  | some l =>
    let fault := endFault s (heldCores s id)
    let s1 := r.hostTxns.foldl (fun s h => if h.silent then s else completePacket s h.pkg h.q h.num h.comp h.irq statLate 0#64) (finishInvals s id)
    let s2 := match fault with
      | none => s1
      | some (core, cause, ss, faddr) =>
        noteFault s1 id (killDetail cause core ss) faddr 0
    let s3 := setRegionState (releaseRegion s2 id) id .idle
    let s4 := match fault with
      | none => completeLaunch s3 r.rcb l (coresOf s r.rcb) statOk 0#64
      | some (core, cause, ss, _) => completeLaunch s3 r.rcb l (coresOf s r.rcb) statEndFault (killDetail cause core ss)
    finishWaits s4

/-- A recovery point taken at this barrier's exit (R443, R444): writing it invalidates the one before. -/
def takePoint (s : State) (id : Nat) : State :=
  let r := getRegion s id
  match r.launch with
  | none => s
  | some l =>
    let n := r.superstep.toNat
    if !l.recovery then s
    else if n = 0 || (l.rpint ≠ 0 && n % l.rpint = 0) then
      let cores := s.cores.filter fun e => e.2.region = some id
      let p : RecPoint :=
        { num := if l.rpint = 0 then 0 else n / l.rpint, valid := false, superstep := r.superstep, mem := s.mem, cores := cores,
          restarts := r.restarts, votedEnd := r.ending, hostKept := [] }
      putPoint (modRegion s id fun r => { r with restores := 0 }) r p
    else s

/-- A strand at barrier exit: the control strand's `SYNC` or `END` retires at its next issue. -/
def exitStrand (ending : Bool) (n : Nat) (t : Strand) : Strand := if n = 0 && !ending then { t with released := true } else t

/-- A core at barrier exit (R22, R42, R162): its reports are held, and its fetched words go, but for those of the word that
retires. -/
def exitCore (r : Region) (mismatch ending : Bool) (core : Nat) (x : Core) : Core :=
  let pc := (coreStrand x 0).pc.toNat
  { x with
    reports := superstepReports r core x mismatch
    strands := Vector.ofFn fun n => exitStrand ending n (coreStrand x n)
    vote := if ending then x.vote else false
    fetched := if ending then [] else x.fetched.filter fun f => f.1 = 0 && (f.2.1 = pc || f.2.1 = pc + 4) }

/-- Host transactions of a superstep beyond a package's share of 1,024, which the restarts carried from host transactions have first, are
late (R343, R422): the last in packet order, but for those of a replay, which were within it (R448). -/
def lateHosts (r : Region) (n : Word) (pkg : Nat) : List HostTxn :=
  let carried := r.restarts.countP fun t => t.host && pkgOfCore t.core = pkg
  let mine := sortBy hostLe (r.hostTxns.filter fun h => h.pkg = pkg && h.superstep = n)
  (mine.filter fun h => !h.silent).drop (1024 - carried - mine.countP (·.silent))

def capHosts (s : State) (id : Nat) (n : Word) : State :=
  let r := getRegion s id
  let late := (livePkgs r).flatMap (lateHosts r n)
  let s1 := late.foldl (fun s h => completePacket s h.pkg h.q h.num h.comp h.irq statLate 0#64) s
  modRegion s1 id fun r => { r with hostTxns := r.hostTxns.filter fun h => !late.contains h }

/-- A `KILL` acts (R416): where the region does not run, or at the point of R167, when no strand of it outside a pre-emption handler is in
handler mode and, in the T phase, no body runs. -/
def canKill (s : State) (r : Region) : Bool :=
  r.killReq &&
    (r.state ≠ .running ||
      ((r.phase = .c || r.phase = .t) && (heldCores s r.rcb.id).all fun c =>
        let x := getCore s c
        x.taken || (liveStrands x).all fun n =>
          let t := coreStrand x n
          !t.trap.status.getLsbD 0 && (r.phase = .c || t.body.isNone)))

/-- The kill that waits for the region's point, where it is there. -/
def killAtPoint (s : State) (id : Nat) : State := if canKill s (getRegion s id) then killEach statKilled [id] s else s

/-- `BARRIER_EXIT` (R22). -/
def execBarrierExit (region : Nat) (s : State) : Out State :=
  if !canExit s (getRegion s region) then .next s
  else
    let s1 := applyAbort (endXPhase (abortSpoil s region) region) region
    let r := getRegion s1 region
    let cores := heldCores s1 region
    let all := cores.all fun c => (getCore s1 c).vote
    let mismatch := !all && cores.any fun c => (getCore s1 c).vote
    let ending := all && !r.restarts.isEmpty
    let s2 := cores.foldl (fun s c => modCore s c (exitCore r mismatch ending c)) s1
    if all && r.restarts.isEmpty then .next (endRegion s2 region)
    else
      let s3 := finishInvals (modRegion s2 region fun r => { r with ending := ending }) region
      .next (killAtPoint (takePoint (startC (capHosts s3 region (r.superstep + 1#64)) region (r.superstep + 1#64)) region) region)

end Sys2Proof.Machine
end

