-- ==== Sys2Proof/Machine/Control.lean ====
section
/-! DEFINITION. Branches, jumps and hardware loops (R96 to R104). -/

namespace Sys2Proof.Machine

/-! ### Leaving a loop body (R103) -/

def insideLoop (l : LoopLevel) (a : Word) : Bool := loopAddr l.start ≤ a.toNat / 4 && a.toNat / 4 ≤ loopAddr l.stop

/-- `LeaveCheck` at one level: an active level whose body is left is deactivated; `REMAIN` keeps its value. -/
def leaveLevel (l : LoopLevel) (p : TcmAddr) (target : Word) : LoopLevel :=
  if l.count.getLsbD 63 && insideLoop l (p.setWidth 64) && !insideLoop l target then { l with count := l.count &&& 0x7FFFFFFFFFFFFFFF#64 }
  else l

/-- `LeaveCheck` (R103). -/
def leaveCheck (s : State) (target : Word) : State :=
  modMe s fun t => { t with loop0 := leaveLevel t.loop0 s.ctx.pc target, loop1 := leaveLevel t.loop1 s.ctx.pc target }

/-- A taken branch, or a jump that is no call. -/
def leaveTo (s : State) (target : Word) : State := jumpTo (leaveCheck s target) target

/-! ### Branches (R96) -/

def branch (i : Instr) (c : Cond) (a b : BitVec 5) (o : BitVec 11) (s : State) : Out State :=
  issueWord i s fun s =>
    .ok (if compare c (readS s a) (readS s b) then leaveTo s (relTarget s.ctx.pc o.toInt) else retire s)

/-- `BEQ` (R96). -/
def execBeq (a b : BitVec 5) (o : BitVec 11) (s : State) : Out State := branch (.beq a b o) .eq a b o s

/-- `BNE` (R96). -/
def execBne (a b : BitVec 5) (o : BitVec 11) (s : State) : Out State := branch (.bne a b o) .ne a b o s

/-- `BLT` (R96): signed. -/
def execBlt (a b : BitVec 5) (o : BitVec 11) (s : State) : Out State := branch (.blt a b o) .lt a b o s

/-- `BGE` (R96): signed. -/
def execBge (a b : BitVec 5) (o : BitVec 11) (s : State) : Out State := branch (.bge a b o) .ge a b o s

/-- `BLTN` (R96): unsigned. -/
def execBltn (a b : BitVec 5) (o : BitVec 11) (s : State) : Out State := branch (.bltn a b o) .ltn a b o s

/-- `BGEN` (R96): unsigned. -/
def execBgen (a b : BitVec 5) (o : BitVec 11) (s : State) : Out State := branch (.bgen a b o) .gen a b o s

/-! ### Jumps (R97, R98) -/

/-- A jump with a link: a call unless `d` is `s0`, when `LeaveCheck` applies. -/
def jumpLink (s : State) (d : BitVec 5) (target : Word) : State :=
  let link := (nextAddr s).setWidth 64
  let s1 := if d = 0#5 then leaveCheck s target else s
  jumpTo (writeS s1 d link) target

/-- `JAL` (R97). -/
def execJal (d : BitVec 5) (i : BitVec 19) (s : State) : Out State :=
  issueWord (.jal d i) s fun s => .ok (jumpLink s d (relTarget s.ctx.pc i.toInt))

/-- `JALR` (R98): the target register is read before the link is written. -/
def execJalr (d a : BitVec 5) (i : BitVec 14) (s : State) : Out State :=
  issueWord (.jalr d a i) s fun s =>
    let target := readS s a + simm14 i
    if badTarget target then .error (.trap cInstrAddr 0 target 7)
    else .ok (jumpLink s d target)

/-! ### Loops (R101) -/

/-- A word of code at a TCM address, as memory holds it: a read by the strand under the access checker (R78, R132). It is not held to
the guard bounds (log entry 64). -/
def readCode (s : State) (core : Nat) (n : Fin 4) (a : TcmAddr) : Word32 × State :=
  let p : Place := { key := tcmKey core a.toNat, mode := .untranslated, readOnly := false, leaf := none, va := a.setWidth 64 }
  let (bs, s1) := loadAt s { core := core, strand := n, cmd := none } p 4
  (BitVec.ofNat 32 (leNat bs), s1)

def setLoop (t : Strand) (v : BitVec 1) (l : LoopLevel) : Strand :=
  if v = 0#1 then { t with loop0 := l } else { t with loop1 := l }

/-- `LOOP` and `LOOPI` with the count each takes (R101); the end check of R102 is made at the word, or with no trip at the body's
last word. The addresses of a body that would pass the end of TCM go on at its start, as every 18-bit address does (log entry 77). -/
def loopSetup (v : BitVec 1) (n : BitVec 12) (cnt : Nat) (s : State) : Except Stop State :=
  if vqStores s then .error (.wait .stall) else
  let next := nextAddr s
  let last := next + BitVec.ofNat 18 (4 * (n.toNat - 1))
  let (w, s1) := readCode s s.ctx.core s.ctx.strand last
  if w.getLsbD 31 = false && last.toNat % 8 = 0 then
    .ok (raise s1 cBundleClass 0 (s.ctx.word.setWidth 64) 7)
  else
    let lvl (c : Word) : LoopLevel := { start := next.setWidth 64, stop := last.setWidth 64, count := c }
    if cnt = 0 then .ok (modMe s1 fun t => endCheckAt (setLoop t v (lvl 0#64)) last)
    else .ok (modMe s1 fun t => endCheckAt (setLoop t v (lvl (BitVec.ofNat 64 (2 ^ 63 + cnt)))) s.ctx.last)

/-- `LOOP` (R101): the count is the register's low 32 bits. -/
def execLoop (v : BitVec 1) (a : BitVec 5) (n : BitVec 12) (s : State) : Out State :=
  issueWord (.loop v a n) s fun s => loopSetup v n ((readS s a).toNat % 2 ^ 32) s

/-- `LOOPI` (R101). -/
def execLoopi (v : BitVec 1) (c : BitVec 9) (n : BitVec 12) (s : State) : Out State :=
  issueWord (.loopi v c n) s fun s => loopSetup v n c.toNat s

end Sys2Proof.Machine
end

