-- ==== Sys2Proof/Machine/Repeat.lean ====
section
/-! DEFINITION. The repetition buffer (R105 to R110): `REP`, the staggered words of a replay and its advance. -/

namespace Sys2Proof.Machine

/-! ### `REP_STATE` (R108) -/

def repBlen (r : Word) : Nat := fieldOf r 53 50
def repPasses (r : Word) : Nat := fieldOf r 49 42
def repPass (r : Word) : Nat := fieldOf r 41 34
def repWord (r : Word) : Nat := fieldOf r 33 30
def repBody (r : Word) : TcmAddr := (r.setWidth 18) &&& ~~~3#18

/-- `REP_STATE` with its fields. -/
def repStateOf (act blen passes pass word stag stride : Nat) (body : TcmAddr) : Word :=
  BitVec.ofNat 64 (act * 2 ^ 63 + blen % 16 * 2 ^ 50 + passes % 256 * 2 ^ 42 + pass % 256 * 2 ^ 34 +
    word % 16 * 2 ^ 30 + stag % 8 * 2 ^ 27 + stride % 8 * 2 ^ 24 + body.toNat)

/-- `PASS` and `WORD` replaced. -/
def repAt (r : Word) (pass word : Nat) : Word :=
  crMerge r (BitVec.ofNat 64 (pass % 256 * 2 ^ 34 + word % 16 * 2 ^ 30)) 0x3FFC0000000#64

def repInactive (r : Word) : Word := r &&& 0x7FFFFFFFFFFFFFFF#64

/-! ### Staggering (R107) -/

/-- One field of `len` bits at `lo` advanced by `k`, modulo its range. -/
def bumpField (w : Word32) (lo len k : Nat) : Word32 :=
  let m := 2 ^ len
  let old := w.toNat / 2 ^ lo % m
  BitVec.ofNat 32 (w.toNat - old * 2 ^ lo + (old + k) % m * 2 ^ lo)

/-- Which of the fields d, a, b of an A-class word are staggered, and whether they are mask registers (R107). -/
def staggerable (w : Word32) : (Bool × Bool × Bool) × (Bool × Bool × Bool) :=
  let mj := (major w).toNat
  let sub := w.toNat % 4
  let fn := w.toNat % 64
  if mj = 0x20 then ((true, true, fn < 0x18), (false, false, false))
  else if 0x21 ≤ mj && mj ≤ 0x27 then ((true, true, false), (false, false, false))
  else if mj = 0x28 || mj = 0x29 then ((true, false, false), (false, false, false))
  else if mj = 0x30 || mj = 0x32 || mj = 0x33 || mj = 0x35 || mj = 0x36 then ((true, true, true), (false, false, false))
  else if mj = 0x31 then ((true, true, sub < 2), (false, false, false))
  else if mj = 0x37 then ((true, true, sub = 1), (false, false, false))
  else if mj = 0x34 then ((true, true, true), (true, false, false))
  else if mj = 0x38 then ((true, true, fn ≠ 3), (true, true, true))
  else if mj = 0x39 then ((true, true, false), (false, false, false))
  else ((false, false, false), (false, false, false))

/-- `Stagger` (R107). -/
def stagger (w : Word32) (j stag stride : Nat) : Word32 :=
  let ((d, a, b), (kd, ka, kb)) := staggerable w
  let k := j * stride
  let w1 := if d && stag / 4 % 2 = 1 then bumpField w 19 (if kd then 3 else 5) k else w
  let w2 := if a && stag / 2 % 2 = 1 then bumpField w1 14 (if ka then 3 else 5) k else w1
  if b && stag % 2 = 1 then bumpField w2 9 (if kb then 3 else 5) k else w2

/-! ### `REP` (R106, R110) -/

/-- `k` words of code, each read by the strand. -/
def readCodes (core : Nat) (n : Fin 4) : Nat → State → TcmAddr → List Word32 × State
  | 0, s, _ => ([], s)
  | k + 1, s, a =>
    let (w, s1) := readCode s core n a
    let (ws, s2) := readCodes core n k s1 (a + 4#18)
    (w :: ws, s2)

/-- The repetition buffer with the words of a body, which are read as `readCode` reads them (R106; log entry 64); the rest of it stays. -/
def bodyWords (s : State) (core : Nat) (n : Fin 4) (body : TcmAddr) (blen : Nat) : Vector Word32 16 × State :=
  let (ws, s1) := readCodes core n (blen + 1) s body
  let old := (getStrand s core n).repBuf
  (Vector.ofFn fun i => ws.getD i old[i], s1)

/-- A word of a `REP` body is a lone A-class word (R48). -/
def bodyWordOk (w : Word32) : Bool := w.getLsbD 31 && w.getLsbD 29

/-- The address is the end word of an active level. -/
def isLoopEnd (t : Strand) (a : TcmAddr) : Bool :=
  (t.loop0.count.getLsbD 63 && loopAddr t.loop0.stop = a.toNat / 4) ||
    (t.loop1.count.getLsbD 63 && loopAddr t.loop1.stop = a.toNat / 4)

/-- `CheckLoopEnds` (R110): the `REP` word, and every body word but the last. The A-slot partner of a `REP` in the C-slot is neither, so a
level that ends there is no ground for a trap, and no end check is made at it: the model's choice (log entry 80). -/
def loopEndsOk (s : State) (body : TcmAddr) (blen : Nat) : Bool :=
  !isLoopEnd (me s) s.ctx.pc &&
    (List.range blen).all fun w => !isLoopEnd (me s) (body + BitVec.ofNat 18 (4 * w))

/-- The strand after a replay's last pass: `ACT` clear, and the end check after the body (R106, R110). -/
def repDone (t : Strand) : Strand :=
  let t1 := { t with repState := repInactive t.repState, replaying := false }
  endCheckAt t1 (repBody t.repState + BitVec.ofNat 18 (4 * repBlen t.repState))

/-- The replay moves on to its next word, or ends (R106). -/
def repAdvance (t : Strand) : Strand :=
  let r := t.repState
  let (pass, word) := if repWord r < repBlen r then (repPass r, repWord r + 1) else (repPass r + 1, 0)
  if pass < repPasses r then
    { t with repState := repAt r pass word, pc := repBody r + BitVec.ofNat 18 (4 * word) }
  else repDone t

/-- `REP` (R106): the body is read once, at issue. -/
def execRep (b : BitVec 4) (p : BitVec 8) (g t : BitVec 3) (s : State) : Out State :=
  issueWord (.rep b p g t) s fun s =>
    if vqStores s then .error (.wait .stall) else
    let body := nextAddr s
    let (words, s1) := bodyWords s s.ctx.core s.ctx.strand body b.toNat
    if (words.toList.take (b.toNat + 1)).all bodyWordOk && loopEndsOk s body b.toNat then
      let r := repStateOf 1 b.toNat p.toNat 0 0 g.toNat t.toNat body
      .ok (modMe s1 fun t =>
        let t1 := { t with repState := r, repBuf := words, replaying := true, pc := body }
        if p = 0#8 then repDone t1 else t1)
    else .ok (stopWord s1 (illegal s))

end Sys2Proof.Machine
end

