-- ==== Sys2Proof/Machine/RegUse.lean ====
section
/-! DEFINITION. Which registers an instruction word names as sources and destinations: what the pair rule of R45 compares, and
what the specialiser tracks (R177 to R181). -/

namespace Sys2Proof.Machine

/-- A register of a strand (R84). -/
inductive RegName where
  | s (n : BitVec 5)
  | v (n : BitVec 5)
  | k (n : BitVec 3)
  deriving DecidableEq, Repr

/-- The registers a form writes; a write of `s0` is discarded and counts as none (R45). -/
def writesOf (i : Instr) : List RegName :=
  let sc (d : BitVec 5) : List RegName := if d = 0#5 then [] else [.s d]
  match i with
  | .jal d _ | .jalr d _ _ => sc d
  | .ld d _ _ _ | .ldbit d _ _ _ | .recv d => sc d
  | .ldt d _ _ e => (List.range (32 / 2 ^ e.toNat)).map fun j => .v (d + BitVec.ofNat 5 j)
  | .crr d _ | .crw d _ _ | .crs d _ _ | .crc d _ _ => sc d
  | .mskget a | .ebget a _ => sc a
  | .txsub d _ | .txpeek d _ | .txsets d _ _ _ | .txchk d _ _ | .sbmap d _ => sc d
  | .add d _ _ | .sub d _ _ | .and d _ _ | .or d _ _ | .xor d _ _ | .andn d _ _ | .sll d _ _ | .srl d _ _ | .sra d _ _
  | .rotr d _ _ | .mul d _ _ | .mulh d _ _ | .mulhn d _ _ | .div d _ _ | .divn d _ _ | .rem d _ _ | .remn d _ _
  | .min d _ _ | .max d _ _ | .minn d _ _ | .maxn d _ _ | .slt d _ _ | .sltn d _ _ | .seq d _ _ => sc d
  | .clz d _ | .ctz d _ | .popc d _ | .brev d _ | .bswap d _ => sc d
  | .addi d _ _ | .andi d _ _ | .ori d _ _ | .xori d _ _ | .slti d _ _ | .sltin d _ _ | .slli d _ _ | .srli d _ _
  | .srai d _ _ | .rotri d _ _ => sc d
  | .lui d _ | .insh d _ _ | .vmovs d _ _ _ => sc d
  | .vld v _ _ _ _ | .vgather v _ _ _ _ | .vldq v _ _ _ _ => [.v v]
  | .vadd d _ _ _ _ | .vsub d _ _ _ _ | .vmul d _ _ _ _ | .vfma d _ _ _ _ | .vmin d _ _ _ _ | .vmax d _ _ _ _
  | .vand d _ _ _ _ | .vor d _ _ _ _ | .vxor d _ _ _ _ | .vsll d _ _ _ _ | .vsrl d _ _ _ _ | .vsra d _ _ _ _
  | .vadds d _ _ _ _ | .vsubs d _ _ _ _ | .vsel d _ _ _ _ | .vredsum d _ _ _ _ | .vredmax d _ _ _ _
  | .vredmin d _ _ _ _ | .vscan d _ _ _ _ | .vperm d _ _ _ _ | .vbcast d _ _ _ _ | .vslide d _ _ _ _
  | .vcvt d _ _ _ _ | .vscale d _ _ _ _ => [.v d]
  | .vabs d _ _ _ | .vneg d _ _ _ | .vexp2 d _ _ _ | .vrcp d _ _ _ | .vins d _ _ _ => [.v d]
  | .vcmpeq k _ _ _ _ | .vcmpne k _ _ _ _ | .vcmplt k _ _ _ _ | .vcmple k _ _ _ _ => [.k k]
  | .kand d _ _ | .kor d _ _ | .kxor d _ _ | .knot d _ => [.k d]
  | _ => []

/-- The scalar registers a form reads, `s0` left out. -/
def readsOf (i : Instr) : List (BitVec 5) :=
  let l : List (BitVec 5) := match i with
    | .beq a b _ | .bne a b _ | .blt a b _ | .bge a b _ | .bltn a b _ | .bgen a b _ => [a, b]
    | .jalr _ a _ | .loop _ a _ => [a]
    | .start a b _ | .waitw a b | .post a b _ => [a, b]
    | .ld _ b _ _ => [b]
    | .st d b _ _ | .stH d b _ => [d, b]
    | .ldbit _ a _ _ => [a]
    | .stbit a b _ | .ldt _ a b _ => [a, b]
    | .amoadd a b _ | .amoand a b _ | .amoor a b _ | .amoxor a b _ | .amomin a b _ | .amomax a b _ | .amominn a b _
    | .amomaxn a b _ => [a, b]
    | .amoseq d a b c _ => [d, a, b, c]
    | .crw _ a _ | .crs _ a _ | .crc _ a _ => [a]
    | .vld _ b c _ _ | .vst _ b c _ _ => [b, c]
    | .vgather _ b _ _ _ | .vscatter _ b _ _ _ => [b]
    | .vldq _ b _ _ _ | .vstq _ b _ _ _ => [b, b + 1#5, b + 2#5]
    | .hsift _ b _ _ => [b, b + 1#5]
    | .mma _ a b | .mmaz _ a b | .mldb a b | .mldbt a b | .mskset a b _ => [a, b]
    | .mldacc _ a | .mstacc _ a => [a]
    | .mstaccq _ a b _ _ => [a, b]
    | .cpy a b c _ _ | .cpyd a b c _ | .cpyg a b c _ _ | .cpys a b c _ _ | .cpyf a b c _ _ | .cpyr a b c
    | .cpyho a b c _ _ | .cpyres a b c => [a, b, c]
    | .ebset a _ | .txsub _ a | .txpeek _ a | .txrst a | .sbmap _ a => [a]
    | .txsets _ a b _ | .txchk _ a b => [a, b]
    | .pdainit a b _ | .pdamask a b | .pdastep a b | .samplep a b _ | .samplef a b | .pdasave a b | .sassert a b _ => [a, b]
    | .add _ a b | .sub _ a b | .and _ a b | .or _ a b | .xor _ a b | .andn _ a b | .sll _ a b | .srl _ a b | .sra _ a b
    | .rotr _ a b | .mul _ a b | .mulh _ a b | .mulhn _ a b | .div _ a b | .divn _ a b | .rem _ a b | .remn _ a b
    | .min _ a b | .max _ a b | .minn _ a b | .maxn _ a b | .slt _ a b | .sltn _ a b | .seq _ a b => [a, b]
    | .clz _ a | .ctz _ a | .popc _ a | .brev _ a | .bswap _ a => [a]
    | .addi _ a _ | .andi _ a _ | .ori _ a _ | .xori _ a _ | .slti _ a _ | .sltin _ a _ | .slli _ a _ | .srli _ a _
    | .srai _ a _ | .rotri _ a _ => [a]
    | .insh d _ _ => [d]
    | .vins _ a _ _ => [a]
    | _ => []
  (l.filter fun r => r ≠ 0#5).dedup

/-- The scalar register a form writes. -/
def scalarDest (i : Instr) : Option (BitVec 5) :=
  match writesOf i with
  | .s d :: _ => some d
  | _ => none

/-- Both words of a pair write one register (R45). -/
def sameDest (c a : Instr) : Bool := (writesOf c).any fun r => (writesOf a).contains r

end Sys2Proof.Machine
end

