-- ==== Sys2Proof/Machine/Specialise.lean ====
section
/-! DEFINITION. The specialiser (R175 to R193): the static environment, evaluation and erasure of static words,
materialisation, unrolling and its growth cut, layout and the back-map. -/

namespace Sys2Proof.Machine

/-! ### The static environment (R177) -/

/-- What is known of one register: its static value if it has one, and whether the residual register holds it. -/
structure Abs where
  val : Option Word
  mat : Bool
  deriving DecidableEq, Repr

def Abs.dyn : Abs := { val := none, mat := true }

/-- Registers `s0` to `s31`. -/
abbrev SEnv := List Abs

def envDyn : SEnv := List.replicate 32 Abs.dyn

/-- `s0` is always static zero. -/
def envGet (e : SEnv) (r : BitVec 5) : Abs := if r = 0#5 then { val := some 0#64, mat := true } else e.getD r.toNat Abs.dyn

def envPut (e : SEnv) (r : BitVec 5) (a : Abs) : SEnv := if r = 0#5 then e else e.set r.toNat a

/-- Two paths meet (R177). -/
def absJoin (a b : Abs) : Abs :=
  match a.val, b.val with
  | some x, some y => if x = y then { val := some x, mat := a.mat && b.mat } else Abs.dyn
  | _, _ => Abs.dyn

def envJoin (a b : SEnv) : SEnv := List.zipWith absJoin a b

/-- Static, and not yet in its residual register. -/
def unmat (e : SEnv) (r : BitVec 5) : Bool := (envGet e r).val.isSome && !(envGet e r).mat

def scalarRegs : List (BitVec 5) := (List.range 32).map fun n => BitVec.ofNat 5 n

/-! ### Places in the specialised routine (R183) -/

/-- One unrolled construct around a word: its offset, its body, the count, the copy, and the staggering of a `REP`. -/
structure Frame where
  off : Nat
  first : Nat
  last : Nat
  count : Nat
  copy : Nat
  stag : Option (Nat × Nat)
  deriving DecidableEq, Repr

/-- A word or pair by its original offset, in one copy of the unrolled constructs around it, innermost first. -/
structure SNode where
  frames : List Frame
  off : Nat
  deriving DecidableEq, Repr

/-- A loop that stands in residual code: where it stands, its level, and its original body. -/
structure RLoop where
  at_ : SNode
  level : BitVec 1
  first : Nat
  last : Nat
  deriving DecidableEq, Repr

/-- The last residual word of a loop body that stands in residual code (R181): the place of its word or pair, the place where the body
ends, with only erased words between, and the registers to be loaded before it with the values those words give them. -/
structure LastWord where
  at_ : SNode
  end_ : SNode
  regs : List (BitVec 5 × Word)
  deriving DecidableEq, Repr

/-- One routine to be specialised. -/
structure SpecIn where
  ver : EncVer
  code : Array Word32
  loadAddr : Nat
  uniform : Array Word
  stat : Array Bool
  entries : List Nat
  /-- `SGROW` priorities by construct, and the constructs cut from U so far (R184). -/
  prio : List (Nat × Nat)
  removed : List Nat
  lasts : List LastWord

def SpecIn.size (p : SpecIn) : Nat := p.code.size

/-- The word of a place; in a copy of a `REP` body, staggered for its pass (R107, R183). -/
def nodeWord (p : SpecIn) (fs : List Frame) (o : Nat) : Word32 :=
  let w := p.code.getD o 0#32
  match fs with
  | f :: _ =>
    match f.stag with
    | some (g, t) => stagger w f.copy g t
    | none => w
  | [] => w

/-- A word's instruction, if it is one with fields its form accepts. -/
def instrOf (p : SpecIn) (w : Word32) : Option Instr :=
  match decode p.ver w with
  | .ok d => if wellFormed d.instr then some d.instr else none
  | .error _ => none

/-- The word address of an offset is even. -/
def evenOff (p : SpecIn) (o : Nat) : Bool := (p.loadAddr / 4 + o) % 2 = 0

/-- Body words of a construct at `o`, in a pair or alone: the first and last offsets (R101, R105). -/
def bodyOf (o : Nat) (pair : Bool) : Instr → Option (Nat × Nat)
  | .loop _ _ n | .loopi _ _ n => some (o + (if pair then 2 else 1), o + (if pair then 1 else 0) + n.toNat)
  | .rep b _ _ _ => some (o + (if pair then 2 else 1), o + (if pair then 2 else 1) + b.toNat)
  | _ => none

/-- A transfer stays in the copies whose bodies hold its target (R183). -/
def transferTo : List Frame → Nat → SNode
  | [], t => { frames := [], off := t }
  | f :: fs, t => if f.first ≤ t && t ≤ f.last then { frames := f :: fs, off := t } else transferTo fs t

/-- Back edges of the residual loops at one level that end with the word at `e`. -/
def backEdges (loops : List RLoop) (e : Nat) (fs : List Frame) : List SNode :=
  (loops.filter fun l => l.at_.frames = fs && l.last = e).map fun l => { frames := fs, off := l.first }

/-- Where control goes after the word at `e`: the loops of residual code it may go back to, and the word after (R102, R183). -/
def afterWord (loops : List RLoop) (e : Nat) : List Frame → List SNode × SNode
  | [] => (backEdges loops e [], { frames := [], off := e + 1 })
  | f :: rest =>
    let b := backEdges loops e (f :: rest)
    if f.last = e then
      if f.copy + 1 < f.count then (b, { frames := { f with copy := f.copy + 1 } :: rest, off := f.first })
      else
        let (b2, n) := afterWord loops e rest
        (b ++ b2, n)
    else (b, { frames := f :: rest, off := e + 1 })

/-! ### Static evaluation (R178, R179) -/

/-- The meaning of an integer word. -/
def integerMeaning : Instr → Option (State → Out State)
  | .add d a b => some (execAdd d a b)
  | .sub d a b => some (execSub d a b)
  | .and d a b => some (execAnd d a b)
  | .or d a b => some (execOr d a b)
  | .xor d a b => some (execXor d a b)
  | .andn d a b => some (execAndn d a b)
  | .sll d a b => some (execSll d a b)
  | .srl d a b => some (execSrl d a b)
  | .sra d a b => some (execSra d a b)
  | .rotr d a b => some (execRotr d a b)
  | .mul d a b => some (execMul d a b)
  | .mulh d a b => some (execMulh d a b)
  | .mulhn d a b => some (execMulhn d a b)
  | .div d a b => some (execDiv d a b)
  | .divn d a b => some (execDivn d a b)
  | .rem d a b => some (execRem d a b)
  | .remn d a b => some (execRemn d a b)
  | .min d a b => some (execMin d a b)
  | .max d a b => some (execMax d a b)
  | .minn d a b => some (execMinn d a b)
  | .maxn d a b => some (execMaxn d a b)
  | .slt d a b => some (execSlt d a b)
  | .sltn d a b => some (execSltn d a b)
  | .seq d a b => some (execSeq d a b)
  | .clz d a => some (execClz d a)
  | .ctz d a => some (execCtz d a)
  | .popc d a => some (execPopc d a)
  | .brev d a => some (execBrev d a)
  | .bswap d a => some (execBswap d a)
  | .addi d a i => some (execAddi d a i)
  | .andi d a i => some (execAndi d a i)
  | .ori d a i => some (execOri d a i)
  | .xori d a i => some (execXori d a i)
  | .slti d a i => some (execSlti d a i)
  | .sltin d a i => some (execSltin d a i)
  | .slli d a n => some (execSlli d a n)
  | .srli d a n => some (execSrli d a n)
  | .srai d a n => some (execSrai d a n)
  | .rotri d a n => some (execRotri d a n)
  | .lui d i => some (execLui d i)
  | .insh d h i => some (execInsh d h i)
  | _ => none

/-- A machine in which one strand holds the static values. -/
def scratchState (e : SEnv) : State :=
  let x := Core.idle 0#6 0
  let t := coreStrand x 0
  let g : Regs := { t.regs with s := Vector.ofFn fun n : Fin 32 => ((envGet e (BitVec.ofNat 5 n)).val).getD 0#64 }
  { State.reset with cores := [(0, setStrandOf x 0 { t with live := true, regs := g })] }

/-- An integer word's value over static sources, by its own meaning. -/
def integerValue (e : SEnv) (i : Instr) (d : BitVec 5) : Option Word :=
  match integerMeaning i with
  | none => none
  | some f =>
    match f (scratchState e) with
    | .next s => some (readS s d)
    | _ => none

/-- A static `LD` (R178): `none`, a refusal with `DYNSRC`, unless it reads static words of the uniform block. So is a load whose address is
not aligned, which R178 and R191 do not name: the model's choice (log entry 57). -/
def staticLoad (p : SpecIn) (base : Word) (t : BitVec 3) (o : BitVec 11) : Option Word :=
  let n := 2 ^ (t.toNat % 4)
  let va := (scaledAddr base o n).toNat
  if 0x1000 ≤ va || va % n ≠ 0 || !(p.stat.getD (va / 8) false) || p.uniform.size ≤ va / 8 then none
  else some (extendLoad t ((p.uniform.getD (va / 8) 0#64).toNat / 2 ^ (8 * (va % 8)) % 2 ^ (8 * n)))

def allStatic (e : SEnv) (rs : List (BitVec 5)) : Bool := rs.all fun r => (envGet e r).val.isSome

def staticVal (e : SEnv) (r : BitVec 5) : Word := ((envGet e r).val).getD 0#64

/-! ### Residual words -/

/-- What a residual word still needs once every word has its address. -/
inductive Patch where
  | none
  /-- The word offset of a branch or `JAL` to the place. -/
  | to (n : SNode)
  /-- The length of the residual body of the loop at the place. -/
  | len (n : SNode)
  /-- A load-immediate of the residual address of the place, into the register. -/
  | addr (r : BitVec 5) (n : SNode)
  deriving DecidableEq, Repr

/-- A residual word, or a pair, with the address parity it needs. -/
structure SItem where
  word : Word32
  aslot : Option Word32
  align : Option Bool
  patch : Patch
  /-- The original offset of the word, and of the A-slot word, where it is not that of the place (R187). -/
  off : Option Nat
  aoff : Option Nat
  deriving DecidableEq, Repr

def loneItem (w : Word32) : SItem := { word := w ||| 0x80000000#32, aslot := none, align := none, patch := .none, off := none, aoff := none }

/-- A pair of residual words. -/
def pairItem (c a : Word32) (off : Nat) : SItem :=
  { word := c, aslot := some a, align := some true, patch := .none, off := some off, aoff := some (off + 1) }

/-- Items that a word at an original offset required, or is (R187). -/
def SItem.of (off : Nat) (i : SItem) : SItem := { i with off := some off }

/-- The lone word of an instruction. -/
def loneWord (i : Instr) : Word32 := (encode { lone := true, smark := false, instr := i }).getD 0#32

/-- The load-immediate of R180: the first sequence that applies. -/
def loadImm (r : BitVec 5) (v : Word) : List Word32 :=
  let x := v.toInt
  if -8192 ≤ x && x ≤ 8191 then [loneWord (.addi r 0#5 (v.setWidth 14))]
  else if v.setWidth 14 = 0#14 && -(2 ^ 32 : Int) ≤ x && x < 2 ^ 32 then [loneWord (.lui r (v.extractLsb' 14 19))]
  else if -(2 ^ 32 : Int) ≤ x && x < 2 ^ 32 then
    [loneWord (.lui r (v.extractLsb' 14 19)), loneWord (.ori r r (v.setWidth 14))]
  else (List.range 4).map fun h => loneWord (.insh r (BitVec.ofNat 2 h) (v.extractLsb' (16 * h) 16))

/-- A static register put into its residual register. -/
def matReg (e : SEnv) (r : BitVec 5) : List SItem × SEnv :=
  if unmat e r then ((loadImm r (staticVal e r)).map loneItem, envPut e r { envGet e r with mat := true }) else ([], e)

def matRegs (e : SEnv) (rs : List (BitVec 5)) : List SItem × SEnv :=
  rs.foldl (fun acc r => let (l, e') := matReg acc.2 r; (acc.1 ++ l, e')) ([], e)

/-- Every static register not yet materialised, in ascending order (R181). -/
def matAll (e : SEnv) : List SItem × SEnv := matRegs e scalarRegs

/-- The immediate form of a register form whose `b` is static (R180). -/
def immForm (e : SEnv) (i : Instr) : Option Instr :=
  let s (v : Int) : Option (BitVec 14) := if -8192 ≤ v && v ≤ 8191 then some (BitVec.ofInt 14 v) else none
  let u (v : Word) : Option (BitVec 14) := if v.toNat ≤ 16383 then some (v.setWidth 14) else none
  let x (b : BitVec 5) : Word := staticVal e b
  match i with
  | .add d a b => if unmat e b then (s (x b).toInt).map (.addi d a) else none
  | .sub d a b => if unmat e b then (s (-(x b).toInt)).map (.addi d a) else none
  | .and d a b => if unmat e b then (u (x b)).map (.andi d a) else none
  | .or d a b => if unmat e b then (u (x b)).map (.ori d a) else none
  | .xor d a b => if unmat e b then (u (x b)).map (.xori d a) else none
  | .slt d a b => if unmat e b then (s (x b).toInt).map (.slti d a) else none
  | .sltn d a b => if unmat e b then (s (x b).toInt).map (.sltin d a) else none
  | .sll d a b => if unmat e b then some (.slli d a ((x b).setWidth 6)) else none
  | .srl d a b => if unmat e b then some (.srli d a ((x b).setWidth 6)) else none
  | .sra d a b => if unmat e b then some (.srai d a ((x b).setWidth 6)) else none
  | .rotr d a b => if unmat e b then some (.rotri d a ((x b).setWidth 6)) else none
  | _ => none

/-- Registers in ascending order. -/
def ascending (rs : List (BitVec 5)) : List (BitVec 5) := scalarRegs.filter rs.contains

/-- A dynamic word made ready (R180): what is inserted before it, and the word itself, unmarked. Whether it takes its immediate form, the
environment `e0` from before its pair decides (R46, R179); a register of `skip` is given a residual address instead (R182). -/
def readyWord (e0 e : SEnv) (skip : List (BitVec 5)) (w : Word32) (i : Option Instr) : List SItem × SEnv × Word32 :=
  match i with
  | none => ([], e, w)
  | some i =>
    let plain := w &&& 0xBFFFFFFF#32
    let load (i : Instr) : List SItem × SEnv := matRegs e ((ascending (readsOf i)).filter fun r => !skip.contains r)
    match immForm e0 i with
    | some j => ((load j).1, (load j).2, ((encodeForm j).getD 0#32) ||| (plain &&& 0x80000000#32))
    | none => ((load i).1, (load i).2, plain)

/-! ### One word or pair (R178 to R183) -/

/-- Subcodes of R191. -/
def spMark : Nat := 1
def spDynSrc : Nat := 2
def spAssert : Nat := 3
def spGrowth : Nat := 4
def spImageGrowth : Nat := 5
def spShape : Nat := 6
def spIllegal : Nat := 7
def spNoRoom : Nat := 8

/-- A word of a unit: its offset, its bits, and its instruction. -/
structure SWord where
  off : Nat
  word : Word32
  instr : Option Instr

/-- What one word or pair gives: residual words, the environment after them, where control goes, and what the analysis learns. -/
structure UOut where
  items : List SItem
  env : SEnv
  /-- The place laid out next if it can be. -/
  flow : Option SNode
  /-- Control reaches `flow` by a static transfer; the transfer leaves a residual loop body. -/
  taken : Bool
  jump : Bool
  /-- Every place control may go to; whether one is the start of a residual loop that ends here. -/
  succs : List SNode
  /-- A place that a taken branch reaches with an environment of its own (R179). -/
  way : Option (SNode × SEnv)
  back : Bool
  dyn : List SNode
  ents : List SNode
  loops : List RLoop
  /-- (offset, subcode). -/
  errs : List (Nat × Nat)
  /-- (construct, count, body words) of a static loop or `REP`. -/
  counts : List (Nat × Nat × Nat)

def UOut.stop (items : List SItem) (e : SEnv) : UOut :=
  { items := items, env := e, flow := none, taken := false, jump := false, succs := [], way := none, back := false, dyn := [], ents := [], loops := [],
    errs := [], counts := [] }

/-- Every place control may go to. -/
def UOut.ways (o : UOut) : List SNode := o.succs ++ (o.way.map (·.1)).toList

/-- Control goes on past the word at `last`. -/
def UOut.fall (p : SpecIn) (loops : List RLoop) (fs : List Frame) (last : Nat) (items : List SItem) (e : SEnv) : UOut :=
  let (backs, n) := afterWord loops last fs
  let inCode := n.off < p.size
  { UOut.stop items e with
    flow := if inCode then some n else none
    succs := backs ++ (if inCode then [n] else []), back := !backs.isEmpty }

/-- Scalar destinations become dynamic. -/
def killDests (e : SEnv) (is : List Instr) : SEnv :=
  is.foldl (fun e i => match scalarDest i with
    | some d => envPut e d Abs.dyn
    | none => e) e

def applyUpd (e : SEnv) (u : List (BitVec 5 × Abs)) : SEnv := u.foldl (fun e x => envPut e x.1 x.2) e

/-- A static word that is no transfer (R179): the register it defines, and a refusal. -/
def evalStatic (p : SpecIn) (e : SEnv) (off : Nat) (i : Instr) : List (BitVec 5 × Abs) × List (Nat × Nat) :=
  let dest (v : Option Word) : List (BitVec 5 × Abs) := match scalarDest i with
    | none => []
    | some d => match v with
      | some x => [(d, { val := some x, mat := false })]
      | none => [(d, Abs.dyn)]
  if !allStatic e (readsOf i) then (dest none, [(off, spDynSrc)])
  else
    match i with
    | .ld _ b t o =>
      match staticLoad p (staticVal e b) t o with
      | some v => (dest (some v), [])
      | none => (dest none, [(off, spDynSrc)])
    | .sassert a b c => ([], if compare (condOf c) (staticVal e a) (staticVal e b) then [] else [(off, spAssert)])
    | .sgrow _ => ([], [])
    | _ => (dest (integerValue e i ((scalarDest i).getD 0#5)), [])

/-- Offset of the word an original code address names. -/
def codeOff (p : SpecIn) (v : Word) : Option Nat :=
  if v.toNat % 4 = 0 && p.loadAddr ≤ v.toNat && v.toNat < p.loadAddr + 4 * p.size then some ((v.toNat - p.loadAddr) / 4) else none

def targetOff (p : SpecIn) (o : Nat) (d : Int) : Option Nat :=
  let t := (o : Int) + d
  if 0 ≤ t && t < p.size then some t.toNat else none

/-- The conditions of the branch forms (R96). -/
def branchOf : Instr → Option (Cond × BitVec 5 × BitVec 5 × BitVec 11)
  | .beq a b o => some (.eq, a, b, o)
  | .bne a b o => some (.ne, a, b, o)
  | .blt a b o => some (.lt, a, b, o)
  | .bge a b o => some (.ge, a, b, o)
  | .bltn a b o => some (.ltn, a, b, o)
  | .bgen a b o => some (.gen, a, b, o)
  | _ => none

def isControl (i : Instr) : Bool :=
  match i with
  | .jal _ _ | .jalr _ _ _ | .loop _ _ _ | .loopi _ _ _ | .rep _ _ _ _ => true
  | i => (branchOf i).isSome

/-- The sync points of R181 other than transfers and loops. -/
def isSyncForm (i : Instr) : Bool :=
  match i with
  | .sync | .endOp | .txend | .trap _ | .brk _ | .eret | .start _ _ _ | .waits _ | .waitw _ _ | .crw _ _ _ | .crs _ _ _
  | .crc _ _ _ | .sbmap _ _ => true
  | _ => false

/-- Control does not go past these. -/
def endsFlow (i : Instr) : Bool :=
  match i with
  | .endOp | .eret | .txend | .txrst _ => true
  | _ => false

/-- The place is in the body of the loop, at the loop's own level. -/
def inLoopBody (l : RLoop) (n : SNode) : Bool :=
  let g := l.at_.frames
  let k := n.frames.length - g.length
  let pos := if k = 0 then n.off else ((n.frames[k - 1]?).map (·.off)).getD 0
  g.length ≤ n.frames.length && n.frames.drop k = g && l.first ≤ pos && pos ≤ l.last

/-- What a resolved static transfer or loop does. -/
inductive Resolved where
  | goto (t : Nat)
  | fall
  | zero (last : Nat)
  | unroll (f : Frame)
  | rolled (first last c : Nat)
  deriving DecidableEq, Repr

/-- The last word of a loop body stands in a C-slot (R48). -/
def endsInCslot (p : SpecIn) (last : Nat) : Bool :=
  last < p.size && !isLone (p.code.getD last 0#32) && evenOff p last

/-- A C-slot word stands last in the body of a loop in whose copy, or residual body, the place lies: its pair is cut there. Only a static
loop's body can end so (R48, R183). -/
def cutPair (loops : List RLoop) (n : SNode) : Bool :=
  (n.frames.head?.any fun f => f.last = n.off) || loops.any fun l => l.at_.frames = n.frames && l.last = n.off

/-- The unit at a place is a pair, both of whose words belong to it. -/
def isPairAt (p : SpecIn) (loops : List RLoop) (n : SNode) : Bool :=
  !isLone (nodeWord p n.frames n.off) && evenOff p n.off && !cutPair loops n

/-- The offset of the unit's last word. -/
def unitLast (p : SpecIn) (loops : List RLoop) (n : SNode) : Nat := n.off + (if isPairAt p loops n then 1 else 0)

/-- The count, the body and the treatment of a static loop or `REP` (R183, R184), whatever words its body holds. -/
def resolveLoop (p : SpecIn) (fs : List Frame) (o : Nat) (pair : Bool) (i : Instr) (c : Nat) : Resolved × List (Nat × Nat × Nat) :=
  match bodyOf o pair i with
  | none => (.fall, [])
  | some (first, last) =>
    let rep := match i with
      | .rep _ _ g t => some (g.toNat, t.toNat)
      | _ => none
    let pr := (mapGet? p.prio o).getD 32
    let inU := 1 ≤ c && c ≤ 64 && pr ≠ 0 && !p.removed.contains o
    let cnt := [(o, c, last + 1 - first)]
    if c = 0 then (.zero last, cnt)
    else if inU && (rep.isNone || fs.length < 2) then
      (.unroll { off := o, first := first, last := last, count := c, copy := 0, stag := rep }, cnt)
    else (.rolled first last c, cnt)

/-- A static transfer or loop with static sources, resolved (R178, R179, R183). -/
def resolve (p : SpecIn) (e : SEnv) (fs : List Frame) (o : Nat) (pair : Bool) (i : Instr) :
    Option Resolved × List (Nat × Nat) × List (Nat × Nat × Nat) :=
  let goto (t : Option Nat) : Option Resolved × List (Nat × Nat) × List (Nat × Nat × Nat) := match t with
    | some t => (some (.goto t), [], [])
    | none => (none, [(o, spShape)], [])
  let loop (c : Nat) : Option Resolved × List (Nat × Nat) × List (Nat × Nat × Nat) :=
    let (r, k) := resolveLoop p fs o pair i c
    (some r, [], k)
  match i with
  | .jal d j => if d = 0#5 then goto (targetOff p o j.toInt) else (none, [(o, spShape)], [])
  | .jalr d a j => if d = 0#5 then goto (codeOff p (staticVal e a + simm14 j)) else (none, [(o, spShape)], [])
  | .loop _ a _ => loop ((staticVal e a).toNat % 2 ^ 32)
  | .loopi _ c _ => loop c.toNat
  | .rep _ q _ _ => loop q.toNat
  | i =>
    match branchOf i with
    | none => (none, [], [])
    | some (c, a, b, d) =>
      match targetOff p o d.toInt with
      | none => (none, [(o, spShape)], [])
      | some t => (some (if compare c (staticVal e a) (staticVal e b) then .goto t else .fall), [], [])

/-- A word kept as it stands, with the environment its destinations leave. -/
def rawUnit (p : SpecIn) (loops : List RLoop) (fs : List Frame) (last : Nat) (it : SItem) (is : List Instr) (e : SEnv) : UOut :=
  UOut.fall p loops fs last [it] (killDests e is)

/-- The body words of a `REP` that stands in residual code, copied, and the registers every pass writes (R183, R107). -/
def repCopy (p : SpecIn) (fs : List Frame) (i : Instr) (first last : Nat) (e : SEnv) : List SItem × SEnv :=
  match i with
  | .rep _ q g t =>
    let ws := (List.range (last + 1 - first)).map fun k => nodeWord p fs (first + k)
    let dests := ws.flatMap fun w => (List.range q.toNat).filterMap fun j => instrOf p (stagger w j g.toNat t.toNat)
    (ws.zipIdx.map fun w => { loneItem w.1 with word := w.1, off := some (first + w.2) }, killDests e dests)
  | _ => ([], e)

/-- A loop that traps (R48), with the partner that stays in its pair, so that the fault names the same word (R186): the word that its length
names again has bit 31 clear, at an address ≡ 0 mod 8, which an erased partner leaves an odd number of words after it. -/
def trapLoopItems (p : SpecIn) (n : SNode) (w : Word32) (aw : Option Word32) (erased : Bool) (len : Nat) : List SItem :=
  let head : SItem := match aw with
    | some x => pairItem w x n.off
    | none => { loneItem w with align := some (evenOff p n.off && !erased) }
  head :: (List.replicate (len - 1) (loneItem 0xA1000000#32) ++ [{ loneItem 0#32 with word := 0x21000000#32 }])

/-- The scalar registers that a transfer or loop reads as it stands in residual code: a loop that becomes `LOOPI` reads none (R183). -/
def residualReads (i : Instr) (rolled : Option (Nat × Nat × Nat)) : List (BitVec 5) :=
  match rolled with
  | some (_, _, cnt) => if cnt ≤ 511 then [] else readsOf i
  | none => readsOf i

/-- A pair of a C-slot word cut off at the end of a residual loop body and the trailing `NOP` that the body then receives (R183). -/
def cutItem (c : Word32) (off : Nat) : SItem := { pairItem c 0x21000000#32 off with aoff := some off }

/-- A signed field of `len` bits replaced; `none` where the value does not fit. -/
def putField (w : Word32) (len : Nat) (x : Int) : Option Word32 :=
  if -(2 ^ (len - 1) : Int) ≤ x && x < 2 ^ (len - 1) then
    some (BitVec.ofNat 32 (w.toNat - w.toNat % 2 ^ len + (x % (2 ^ len : Int)).toNat))
  else none

/-- A branch whose erased partner defines what the branch reads: the branch, and on the way of a taken one the loads that the edge into its
target asks for (R181), past which the way of one not taken goes. -/
def branchAround (w : Word32) (loads : List SItem) (t : SNode) : List SItem :=
  let past := (putField 0x82000000#32 19 (loads.length + 2)).getD 0#32
  loneItem ((putField w 11 2).getD 0#32) :: loneItem past :: loads ++ [{ loneItem 0x82000000#32 with patch := .to t }]

/-- A transfer or loop that stands in residual code (R181, R182, R183), with its partner: `keep` when the A-slot word is dynamic and stays in
the pair. A static one is erased, and the other emitted alone (R179): it counts before the transfer or loop, or, where that reads the
register it defines, or traps, after it. Past an unknown target, and in a loop's body, such a register can no longer be loaded where the
place does not know it: there R179 is followed, and R186 cannot be (log entry 57). A `JALR` whose known target's register it defines needs no
address in that register. -/
def controlUnit (p : SpecIn) (loops : List RLoop) (n : SNode) (e : SEnv) (c : SWord) (i : Instr) (a : Option SWord)
    (rolled : Option (Nat × Nat × Nat)) : UOut :=
  let fs := n.frames
  let cut := a.isNone && !isLone c.word && fs.head?.all fun f => f.last ≠ n.off
  let aStatic := match a with
    | some x => isMarked x.word && x.instr.isSome
    | none => false
  let (upd, errs0) := match a with
    | some x => if aStatic then evalStatic p e x.off (x.instr.getD .yield) else ([], [])
    | none => ([], [])
  let keep := a.isSome && !aStatic
  let last := n.off + (if a.isSome then 1 else 0)
  -- R182: an original code address in `a` of a dynamic `JALR`
  let jt : Option (BitVec 5 × Option Nat) := match i with
    | .jalr _ r j => if (envGet e r).val.isSome then some (r, codeOff p (staticVal e r + simm14 j)) else none
    | _ => none
  let direct : Bool := match jt with
    | some (r, some _) => r = 0#5 || upd.any fun u => u.1 = r
    | _ => false
  let traps : Bool := match i with
    | .loop _ _ _ | .loopi _ _ _ => rolled.isNone && ((bodyOf n.off a.isSome i).map fun b => endsInCslot p b.2).getD false
    | _ => false
  let after := traps || (!direct && upd.any fun u => u.1 ≠ 0#5 && (residualReads i rolled).contains u.1)
  let e0 := if after then e else applyUpd e upd
  let skip : List (BitVec 5) := match jt with
    | some (r, _) => if direct then [] else [r]
    | none => []
  let (m1, e1) := matRegs e0 (scalarRegs.filter fun r => !skip.contains r)
  let (m2, e2, aw) := match a with
    | some x =>
      if keep then
        let (l, e', w) := readyWord e1 e1 skip x.word x.instr
        (l.map (SItem.of x.off), e', w)
      else ([], e1, 0#32)
    | none => ([], e1, 0#32)
  let plain := c.word &&& 0xBFFFFFFF#32
  let asl := if keep then some aw else none
  let item (w : Word32) (q : Patch) : SItem :=
    if keep then { pairItem w aw n.off with aslot := asl, patch := q }
    else if cut then { cutItem w n.off with patch := q }
    else { loneItem w with patch := q }
  let aInstr : List Instr := match a with
    | some x => if keep then x.instr.toList else []
    | none => []
  let e3 := killDests e2 (i :: aInstr)
  let e4 := if after then applyUpd e3 upd else e3
  let base : UOut := { UOut.stop [] e4 with errs := errs0 }
  match i with
  | .jal d j =>
    match targetOff p n.off j.toInt with
    | none => { base with items := m1 ++ m2 ++ [item plain .none], errs := errs0 ++ [(n.off, spShape)] }
    | some t =>
      let tn := transferTo fs t
      let rs := transferTo fs (last + 1)
      let call := d ≠ 0#5 && decide (rs.off < p.size)
      { base with
        items := m1 ++ m2 ++ [item plain (.to tn)], dyn := [tn], ents := if call then [rs] else []
        flow := if call then some rs else none, succs := tn :: (if call then [rs] else []) }
  | .jalr d r _ =>
    let rs := transferTo fs (last + 1)
    let call := d ≠ 0#5 && decide (rs.off < p.size)
    let ret : UOut :=
      { base with
        items := m1 ++ m2 ++ [item plain .none], ents := if call then [rs] else [], flow := if call then some rs else none
        succs := if call then [rs] else [] }
    match jt with
    | none => ret
    | some (_, none) => { ret with errs := errs0 ++ [(n.off, spShape)] }
    | some (_, some t) =>
      let tn := transferTo fs t
      if direct then
        { ret with
          items := m1 ++ m2 ++ [item (((encodeForm (.jal d 0#19)).getD 0#32) ||| (plain &&& 0x80000000#32)) (.to tn)]
          ents := tn :: ret.ents, succs := tn :: ret.succs }
      else
        { ret with
          items := m1 ++ m2 ++ [{ loneItem 0#32 with patch := .addr r tn },
            item (((encodeForm (.jalr d r 0#14)).getD 0#32) ||| (plain &&& 0x80000000#32)) .none]
          env := if d = r then e4 else envPut e4 r Abs.dyn
          ents := tn :: ret.ents, succs := tn :: ret.succs }
  | .loop v _ k | .loopi v _ k =>
    match bodyOf n.off a.isSome i with
    | none => base
    | some (first, lst) =>
      if traps then
        { base with items := m1 ++ m2 ++ trapLoopItems p n plain asl (a.isSome && aStatic) (lst + 1 - first) }
      else
        let w := match rolled with
          | some (_, _, cnt) => if cnt ≤ 511 then ((encodeForm (.loopi v (BitVec.ofNat 9 cnt) k)).getD 0#32) ||| (plain &&& 0x80000000#32) else plain
          | none => plain
        let start : SNode := { frames := fs, off := first }
        let (backs, nx) := afterWord loops lst fs
        let skipped := if rolled.isSome then [] else backs ++ (if nx.off < p.size then [nx] else [])
        { base with
          items := m1 ++ m2 ++ [item w (.len n)], flow := some start, succs := start :: skipped
          loops := [{ at_ := n, level := v, first := first, last := lst }] }
  | .rep _ _ _ _ =>
    match bodyOf n.off a.isSome i with
    | none => base
    | some (first, lst) =>
      let (body, e5) := repCopy p fs i first (min lst (p.size - 1)) e4
      let f := UOut.fall p loops fs lst (m1 ++ m2 ++ [item c.word .none] ++ body) e5
      { f with errs := errs0 }
  | i =>
    match branchOf i with
    | none => base
    | some (_, _, _, d) =>
      let f := UOut.fall p loops fs last [] e4
      match targetOff p n.off d.toInt with
      | none => { f with items := m1 ++ m2 ++ [item plain .none], errs := errs0 ++ [(n.off, spShape)] }
      | some t =>
        let tn := transferTo fs t
        if after then
          let (loads, e5) := matRegs e4 (upd.map (·.1))
          { f with items := m1 ++ branchAround plain loads tn, dyn := [tn], way := some (tn, e5), errs := errs0 }
        else { f with items := m1 ++ m2 ++ [item plain (.to tn)], dyn := [tn], succs := tn :: f.succs, errs := errs0 }

/-- Words that are no transfer kept in residual code: the dynamic words of a unit (R179, R180, R181, R182). After a `START` whose `a` was
given a residual address, the register is dynamic: R182 says what it holds and not what the environment then does, and the model chooses
so (log entry 57). A word of a pair is emitted alone with bit 31 set, whatever it is (R179). -/
def plainUnit (p : SpecIn) (loops : List RLoop) (n : SNode) (e : SEnv) (paired : Bool) (ws : List SWord) : UOut :=
  let last := n.off + ws.length - 1
  let isSt (x : SWord) : Bool := isMarked x.word && x.instr.isSome
  let st := ws.filter isSt
  let dy := ws.filter fun x => !isSt x
  let ev := st.map fun x => evalStatic p e x.off (x.instr.getD .yield)
  let upd := ev.flatMap (·.1)
  let errs := ev.flatMap (·.2)
  let isEnd := !(afterWord loops last n.frames).1.isEmpty
  -- A C-slot word cut off at the end of a residual loop body.
  let cut := paired && evenOff p n.off && ws.length = 1 && n.frames.head?.all fun f => f.last ≠ n.off
  let starts : List (BitVec 5 × Option Nat × Nat) := dy.filterMap fun x => match x.instr with
    | some (.start r _ _) => if (envGet e r).val.isSome then some (r, codeOff p (staticVal e r), x.off) else none
    | _ => none
  let skip := starts.map (·.1)
  let isSync (x : SWord) : Bool := (x.instr.map isSyncForm).getD false
  let sync := dy.any isSync
  let lastHere := p.lasts.filter fun l => l.at_ = n
  let pre := lastHere.flatMap (·.regs)
  let mats := if sync || ((isEnd || !lastHere.isEmpty) && !dy.isEmpty) then
      scalarRegs.filter fun r => !skip.contains r && !pre.any fun q => q.1 = r
    else []
  let e1 := (matRegs e mats).2
  -- Required by the word that is a sync point, or the last residual word of the body (R187); in ascending order (R181).
  let needs : Nat := (((dy.find? isSync).or dy.getLast?).map (·.off)).getD n.off
  let m1 := (scalarRegs.flatMap fun r => match pre.find? fun q => q.1 = r with
    | some q => (loadImm q.1 q.2).map loneItem
    | none => if mats.contains r then (matReg e r).1 else []).map (SItem.of needs)
  let ready := dy.foldl (fun (acc : List SItem × SEnv × List Word32) x =>
    let (l, e', w) := readyWord e1 acc.2.1 skip x.word x.instr
    (acc.1 ++ l.map (SItem.of x.off), e', acc.2.2 ++ [w])) ([], e1, [])
  let addrs := starts.filterMap fun x => x.2.1.map fun t => ({ loneItem 0#32 with patch := .addr x.1 { frames := [], off := t }, off := some x.2.2 } : SItem)
  let ents : List SNode := starts.filterMap fun x => x.2.1.map fun t => { frames := [], off := t }
  let bad := (starts.filter fun x => x.2.1.isNone).map fun x => (x.2.2, spShape)
  let words : List SItem := match ready.2.2 with
    | [c, a] => [pairItem c a n.off]
    | l => (l.zip dy).map fun q =>
      if cut then cutItem q.1 q.2.off
      else
        let i : SItem := if q.2.instr.isSome || paired then loneItem q.1 else { loneItem q.1 with word := q.1 }
        i.of q.2.off
  let e2 := killDests ready.2.1 (dy.filterMap (·.instr))
  let e3 := starts.foldl (fun e x => envPut e x.1 Abs.dyn) e2
  let e4 := applyUpd e3 upd
  let items := m1 ++ ready.1 ++ addrs ++ words
  let out := if dy.any fun x => (x.instr.map endsFlow).getD false then UOut.stop items e4 else UOut.fall p loops n.frames last items e4
  { out with errs := errs ++ bad, ents := ents, succs := out.succs ++ ents }

/-- A static transfer or loop that is erased, unrolled or kept rolled, with its partner (R179, R183). -/
def staticControl (p : SpecIn) (loops : List RLoop) (n : SNode) (e : SEnv) (c : SWord) (i : Instr) (a : Option SWord) (r : Resolved) : UOut :=
  let last := n.off + (if a.isSome then 1 else 0)
  let part := match a with
    | some x => plainUnit p loops { n with off := x.off } e true [x]
    | none => UOut.stop [] e
  let base : UOut := { UOut.stop part.items part.env with errs := part.errs }
  match r with
  | .goto t =>
    let tn := transferTo n.frames t
    let leaves := loops.any fun l => inLoopBody l n && !inLoopBody l tn
    { base with flow := some tn, taken := true, jump := leaves, succs := [tn], dyn := if leaves then [tn] else [] }
  | .fall => { UOut.fall p loops n.frames last part.items part.env with errs := part.errs }
  | .zero lst => { UOut.fall p loops n.frames lst part.items part.env with errs := part.errs }
  | .unroll f =>
    let tn : SNode := { frames := f :: n.frames, off := f.first }
    if f.first < p.size then { base with flow := some tn, succs := [tn] } else base
  | .rolled first lst cnt => controlUnit p loops n e c i a (some (first, lst, cnt))

/-- The unit at a place, over the environment that reaches it. -/
def specUnit (p : SpecIn) (loops : List RLoop) (n : SNode) (e : SEnv) : UOut :=
  let fs := n.frames
  let w := nodeWord p fs n.off
  let c : SWord := { off := n.off, word := w, instr := instrOf p w }
  if p.size ≤ n.off then UOut.stop [] e
  else if !isLone w && (!evenOff p n.off || p.size ≤ n.off + 1) then
    rawUnit p loops fs n.off { loneItem w with word := w, align := some (evenOff p n.off) } [] e
  else
    let w2 := nodeWord p fs (n.off + 1)
    let x : SWord := { off := n.off + 1, word := w2, instr := instrOf p w2 }
    let pair := isPairAt p loops n
    let bad := !isLone w && (isAClass w || isLone w2 || !isAClass w2 ||
      (match c.instr, x.instr with
       | some ci, some ai => sameDest ci ai
       | _, _ => false))
    if bad then
      rawUnit p loops fs (n.off + 1) (pairItem w w2 n.off) (c.instr.toList ++ x.instr.toList) e
    else
      let a := if pair then some x else none
      match c.instr with
      | none => plainUnit p loops n e (!isLone w) (c :: a.toList)
      | some i =>
        if isControl i then
          if isMarked w then
            if !allStatic e (readsOf i) then
              let o := controlUnit p loops n e c i a none
              { o with errs := (n.off, spDynSrc) :: o.errs }
            else
              match resolve p e fs n.off pair i with
              | (some r, errs, k) =>
                let o := staticControl p loops n e c i a r
                { o with errs := errs ++ o.errs, counts := k }
              | (none, errs, _) => { UOut.stop [] e with errs := errs }
          else controlUnit p loops n e c i a none
        else plainUnit p loops n e (!isLone w) (c :: a.toList)

/-! ### The analysis (R177) -/

abbrev Envs := List (SNode × SEnv)

def envAt (es : Envs) (n : SNode) : Option SEnv := (es.find? fun x => x.1 = n).map (·.2)

/-- What the analysis holds fixed in one run: entry points and dynamic targets. -/
structure Marks where
  ents : List SNode
  dyns : List SNode
  deriving DecidableEq, Repr

/-- The registers materialised at the end of a unit (R181), but for a loop, after which its body begins: all, on an edge into an
entry point, a dynamic target or at the end of a residual loop body; and each whose value the place it reaches no longer has. -/
def tailRegs (p : SpecIn) (loops : List RLoop) (m : Marks) (es : Envs) (n : SNode) (o : UOut) : List (BitVec 5) :=
  let isEnd := o.back || !(afterWord loops (unitLast p loops n) n.frames).1.isEmpty
  if !o.loops.isEmpty then [] else
  match o.flow with
  | none => if isEnd && !o.succs.isEmpty then scalarRegs else []
  | some f =>
    if isEnd || m.ents.contains f || m.dyns.contains f then scalarRegs
    else
      match envAt es f with
      | none => []
      | some d => scalarRegs.filter fun r => unmat o.env r && (envGet d r).val.isNone

/-- Registers that were loaded before the last residual word of the body that ends here hold their values. -/
def settleLast (p : SpecIn) (n : SNode) (e : SEnv) : SEnv :=
  ((p.lasts.filter fun l => l.end_ = n).flatMap (·.regs)).foldl (fun e q =>
    if (envGet e q.1).val = some q.2 then envPut e q.1 { val := some q.2, mat := true } else e) e

/-- A unit with its tail. -/
def unitTail (p : SpecIn) (loops : List RLoop) (m : Marks) (es : Envs) (n : SNode) (e : SEnv) : UOut × List SItem × SEnv :=
  let o0 := specUnit p loops n e
  let o := { o0 with env := settleLast p n o0.env }
  let (l, e1) := matRegs o.env (tailRegs p loops m es n o)
  (o, l, e1)

/-- An environment joined into a place's. -/
def flowInto (m : Marks) (es : Envs) (n : SNode) (e : SEnv) : Envs :=
  let e' := if m.ents.contains n then envDyn else e
  match envAt es n with
  | none => es ++ [(n, e')]
  | some d => es.map fun x => if x.1 = n then (n, envJoin d e') else x

/-- One pass over every place reached so far. -/
def sweep (p : SpecIn) (m : Marks) (loops : List RLoop) (es : Envs) : Envs :=
  es.foldl (fun acc x =>
    let e := (envAt acc x.1).getD envDyn
    let (o, _, e1) := unitTail p loops m acc x.1 e
    let acc1 := o.succs.foldl (fun acc s => flowInto m acc s e1) acc
    match o.way with
    | some (t, et) => flowInto m acc1 t et
    | none => acc1) es

def loopsOf (p : SpecIn) (loops : List RLoop) (es : Envs) : List RLoop :=
  (es.flatMap fun x => (specUnit p loops x.1 x.2).loops).dedup

/-- Passes until nothing changes. -/
def settleEnvs (p : SpecIn) (m : Marks) : Nat → List RLoop → Envs → List RLoop × Envs
  | 0, loops, es => (loops, es)
  | fuel + 1, loops, es =>
    let es1 := sweep p m loops es
    let l1 := loopsOf p loops es1
    if es1 = es && l1 = loops then (loops, es) else settleEnvs p m fuel l1 es1

/-- Runs until no new entry point or dynamic target is found. -/
def settleMarks (p : SpecIn) : Nat → Marks → Marks × List RLoop × Envs
  | 0, m => (m, [], [])
  | fuel + 1, m =>
    let (loops, es) := settleEnvs p m 1000000 [] (m.ents.map fun n => (n, envDyn))
    let outs := es.map fun x => specUnit p loops x.1 x.2
    let m1 : Marks := { ents := (m.ents ++ outs.flatMap (·.ents)).dedup, dyns := (m.dyns ++ outs.flatMap (·.dyn)).dedup }
    if m1.ents.length = m.ents.length && m1.dyns.length = m.dyns.length then (m, loops, es)
    else settleMarks p fuel m1

/-! ### The last residual words of loop bodies (R181) -/

/-- The body of a residual loop ends with the unit at a place. -/
def endsBody (p : SpecIn) (loops : List RLoop) (n : SNode) : Bool :=
  !(afterWord loops (unitLast p loops n) n.frames).1.isEmpty

/-- From a place on, the one where a loop body ends, when there are only erased words up to there and no other way in. -/
def erasedEnd (p : SpecIn) (loops : List RLoop) (m : Marks) (es : Envs) : Nat → SNode → Option SNode
  | 0, _ => none
  | fuel + 1, n =>
    match envAt es n with
    | none => none
    | some e =>
      let o := specUnit p loops n e
      let ways := es.countP fun x => (specUnit p loops x.1 x.2).ways.contains n
      if !o.items.isEmpty || o.taken || ways ≠ 1 || m.ents.contains n || m.dyns.contains n then none
      else if endsBody p loops n then some n
      else o.flow.bind (erasedEnd p loops m es fuel)

/-- The residual words of the unit at a place, where none of its words is a transfer or loop. -/
def plainWords (p : SpecIn) (loops : List RLoop) (n : SNode) : Option (List Instr) :=
  let w := nodeWord p n.frames n.off
  let ws := if isPairAt p loops n then [w, nodeWord p n.frames (n.off + 1)] else [w]
  if (ws.filterMap (instrOf p)).any isControl then none else some ((ws.filter fun w => !isMarked w).filterMap (instrOf p))

/-- The last residual word at a place, if it is one: registers that the erased words after it define, and that it neither reads nor
writes, are loaded before it. -/
def lastWordAt (p : SpecIn) (loops : List RLoop) (m : Marks) (es : Envs) (n : SNode) (e : SEnv) : Option LastWord :=
  let o := specUnit p loops n e
  let stop : Option SNode :=
    if o.items.isEmpty || o.taken then none
    else if endsBody p loops n then some n
    else o.flow.bind (erasedEnd p loops m es p.size)
  match stop, plainWords p loops n with
  | some g, some is =>
    let final := (specUnit p loops g ((envAt es g).getD envDyn)).env
    let used := is.flatMap fun i => readsOf i ++ (scalarDest i).toList
    let regs := scalarRegs.filter fun r => unmat final r && !used.contains r && envGet e r ≠ envGet final r
    some { at_ := n, end_ := g, regs := regs.map fun r => (r, staticVal final r) }
  | _, _ => none

/-! ### Layout and the back-map (R184, R185, R187) -/

def keyOf (n : SNode) : List Nat := (n.frames.reverse.flatMap fun f => [f.off, f.copy]) ++ [n.off]

/-- The back-map entry of a place (R187). -/
def backEntry (n : SNode) : Word32 :=
  let copy (k : Nat) : Nat := ((n.frames[k]?).map (·.copy)).getD 0 % 64
  BitVec.ofNat 32 ((copy 0 + 64 * copy 1) * 2 ^ 20 + n.off % 2 ^ 20)

/-- The residual words in order, where each place's words begin, and where each residual loop body ends (as item counts). -/
structure Laid where
  items : List (SItem × Word32)
  starts : List (SNode × Nat)
  ends : List (SNode × Nat)
  /-- Each loop's own item. -/
  heads : List (SNode × Nat)

/-- The loops whose bodies end with a place: it is the last laid out in them. -/
def bodyEnds (loops : List RLoop) (n : SNode) (rest : List SNode) : List RLoop :=
  loops.filter fun l => inLoopBody l n && !(rest.any fun q => inLoopBody l q)

def nopItem : SItem := loneItem 0xA1000000#32

/-- Loop ends marked; an empty residual body, one that would end in a C-slot word, or one whose end must be a word of its own, receives a
`NOP` (R183). -/
def markEnds (ls : List RLoop) (need : Bool) (bm : Word32) (l : Laid) : Laid :=
  let empty (r : RLoop) : Bool := l.items.length ≤ ((l.heads.find? fun h => h.1 = r.at_).map (·.2)).getD 0 + 1
  let cslot : Bool := !ls.isEmpty && (l.items.getLast?).any fun q => q.1.aslot.isNone && q.1.align = some true && !isLone q.1.word
  let l1 := if need || cslot || ls.any empty then { l with items := l.items ++ [(nopItem, bm)] } else l
  { l1 with ends := l1.ends ++ ls.map fun r => (r.at_, l1.items.length) }

/-- What required the loads after a place (R187): the end of a loop body there, or the word that the edge leads to. -/
def tailEntry (p : SpecIn) (loops : List RLoop) (n : SNode) (o : UOut) : Word32 :=
  match o.flow with
  | some f => if o.back || endsBody p loops n then backEntry n else backEntry f
  | none => backEntry n

/-- A loop at level 1 would end with the end word of a loop at level 0 within it that originally ends elsewhere: the end check, which looks
at level 1 first, would count its passes there (R102, R186). -/
def sharesEnd (loops : List RLoop) (l : Laid) (r : RLoop) : Bool :=
  r.level = 1#1 && l.ends.any fun e =>
    e.2 = l.items.length && loops.any fun q => q.at_ = e.1 && q.level = 0#1 && q.last ≠ r.last

/-- The places laid out one after another. `ways` are the places that control goes to, each as often as it does; `prevFlow` is the place that
the one laid out before goes on to; `entered` is set where a transfer reaches the address laid out next, past the words so far. -/
def layPlaces (p : SpecIn) (loops : List RLoop) (m : Marks) (es : Envs) (ways : List SNode) : Option SNode → Bool → List SNode → Laid → Laid
  | _, _, [], l => l
  | prevFlow, entered, n :: rest, l =>
    let (o, tail, _) := unitTail p loops m es n ((envAt es n).getD envDyn)
    let bm := backEntry n
    let own := o.items ++ tail
    let marked : List (SItem × Word32) := o.items.map (fun i => (i, bm)) ++ tail.map fun i => (i, tailEntry p loops n o)
    let needJump : Bool := match o.flow with
      | none => false
      | some f => o.jump || rest.head? ≠ some f
    let jmp : List SItem := match o.flow with
      | some f => if needJump then [{ loneItem 0x82000000#32 with patch := .to f }] else []
      | none => []
    let ends := bodyEnds loops n rest
    -- A place with no word of its own at the end of a body that a transfer reaches needs one there.
    let reached := entered || m.dyns.contains n || m.ents.contains n || prevFlow ≠ some n || 1 < ways.count n
    let bare := !ends.isEmpty && own.isEmpty && reached
    let l0 : Laid := { l with starts := l.starts ++ [(n, l.items.length)] }
    let l1 : Laid :=
      { l0 with
        items := l0.items ++ marked
        heads := l0.heads ++ ((own.zipIdx).filterMap fun q => match q.1.patch with
          | .len k => some (k, l0.items.length + q.2)
          | _ => none) }
    let early := ends.filter fun r => !o.taken && o.succs.contains { frames := r.at_.frames, off := r.first }
    let late := ends.filter fun r => !early.contains r
    let l2 := markEnds early ((bare && !early.isEmpty) || early.any (sharesEnd loops l1)) bm l1
    let l3 : Laid := { l2 with items := l2.items ++ jmp.map fun i => (i, bm) }
    let l4 := markEnds late ((bare && early.isEmpty && jmp.isEmpty) || late.any (sharesEnd loops l3)) bm l3
    layPlaces p loops m es ways (if needJump then none else o.flow) (reached && l4.items.length = l.items.length) rest l4

/-- Addresses of the items, and of the end, with load-immediates of code addresses sized by the addresses `prev`. -/
def itemWords (addrOf : SNode → Nat) (i : SItem) : Nat :=
  match i.patch with
  | .addr r n => (loadImm r (BitVec.ofNat 64 (addrOf n))).length
  | _ => if i.aslot.isSome then 2 else 1

def padFor (i : SItem) (a : Nat) : Nat :=
  match i.align with
  | some true => if a % 8 = 0 then 0 else 1
  | some false => if a % 8 = 0 then 1 else 0
  | none => 0

def placeItems (addrOf : SNode → Nat) : List (SItem × Word32) → Nat → List Nat
  | [], a => [a]
  | (i, _) :: rest, a =>
    let a1 := a + 4 * padFor i a
    a1 :: placeItems addrOf rest (a1 + 4 * itemWords addrOf i)

def addrIn (l : Laid) (addrs : List Nat) (n : SNode) : Nat := addrs.getD (((l.starts.find? fun x => x.1 = n).map (·.2)).getD 0) 0

/-- Addresses until they agree with themselves. -/
def settleAddrs (l : Laid) (base : Nat) : Nat → List Nat → List Nat
  | 0, a => a
  | fuel + 1, a =>
    let a1 := placeItems (addrIn l a) l.items base
    if a1 = a then a else settleAddrs l base fuel a1

/-- The words of one item at its address. -/
def finishItem (l : Laid) (addrs : List Nat) (k : Nat) (i : SItem) : Option (List Word32) :=
  let a := addrs.getD k 0
  match i.patch with
  | .none => some (i.word :: i.aslot.toList)
  | .addr r n => some (loadImm r (BitVec.ofNat 64 (addrIn l addrs n)))
  | .to n =>
    let d : Int := ((addrIn l addrs n : Int) - a) / 4
    (putField i.word (if (major i.word).toNat = 1 then 11 else 19) d).map fun w => w :: i.aslot.toList
  | .len n =>
    let endIdx := ((l.ends.find? fun x => x.1 = n).map (·.2)).getD 0
    let e := addrs.getD (endIdx - 1) 0
    let lastSize := match l.items[endIdx - 1]? with
      | some (j, _) => itemWords (addrIn l addrs) j
      | none => 1
    let len := (e + 4 * lastSize - (a + 4 * (1 + i.aslot.toList.length))) / 4
    if 1 ≤ len && len ≤ 4095 then some ((BitVec.ofNat 32 (i.word.toNat - i.word.toNat % 2 ^ 12 + len)) :: i.aslot.toList) else none

/-- A back-map entry with the offset of one word of its place (R187). -/
def entryOff (bm : Word32) (off : Option Nat) : Word32 :=
  match off with
  | none => bm
  | some o => BitVec.ofNat 32 (bm.toNat / 2 ^ 20 * 2 ^ 20 + o % 2 ^ 20)

/-- An item's words with their entries. -/
def withEntries (i : SItem) (bm : Word32) (ws : List Word32) : List (Word32 × Word32) :=
  match i.aslot, ws with
  | some _, [c, a] => [(c, entryOff bm i.off), (a, entryOff bm i.aoff)]
  | _, ws => ws.map fun w => (w, entryOff bm i.off)

/-- Every word and its back-map entry: `none` where an offset or length does not fit (R184). -/
def finishItems (l : Laid) (addrs : List Nat) : Nat → Nat → List (SItem × Word32) → Option (List (Word32 × Word32))
  | _, _, [] => some []
  | k, a, (i, bm) :: rest =>
    match finishItem l addrs k i, finishItems l addrs (k + 1) (addrs.getD k 0 + 4 * itemWords (addrIn l addrs) i) rest with
    | some ws, some tl => some (List.replicate ((addrs.getD k 0 - a) / 4) (0xA1000000#32, entryOff bm i.off) ++ withEntries i bm ws ++ tl)
    | _, _ => none

/-- The residual code of one routine, or the refusal's (offset, subcode). -/
structure Residual where
  words : List (Word32 × Word32)
  entries : List (Nat × Nat)
  deriving DecidableEq, Repr

/-- One `SpecialiseRoutine` (R184): residual code where it fits, the constructs that may be cut, and the refusals. -/
def specialiseOnce (p0 : SpecIn) : Option Residual × List (Nat × Nat × Nat) × List (Nat × Nat) :=
  let start : Marks := { ents := p0.entries.map fun o => { frames := [], off := o }, dyns := [] }
  let (m0, loops0, es0) := settleMarks p0 1000000 start
  let p := { p0 with lasts := es0.filterMap fun x => lastWordAt p0 loops0 m0 es0 x.1 x.2 }
  let (m, loops, es) := settleMarks p 1000000 start
  let outs := es.map fun x => specUnit p loops x.1 x.2
  let order := sortBy (fun a b => decide (keyOf a ≤ keyOf b)) (es.map (·.1))
  let l := layPlaces p loops m es (outs.flatMap (·.ways)) none false order { items := [], starts := [], ends := [], heads := [] }
  let addrs := settleAddrs l p.loadAddr 64 []
  let words := finishItems l addrs 0 p.loadAddr l.items
  let fits := match words with
    | some ws => if ws.length ≤ 4 * p.size && ws.length ≤ 12288 then some ws else none
    | none => none
  (fits.map fun ws =>
     { words := ws, entries := (l.starts.filter fun x => x.1.frames.isEmpty).map fun x => (x.1.off, (addrIn l addrs x.1 - p.loadAddr) / 4) },
   outs.flatMap (·.counts), outs.flatMap (·.errs))

/-- The member of U removed next (R184). -/
def cutNext (p : SpecIn) (counts : List (Nat × Nat × Nat)) : Option Nat :=
  let few := counts.filter fun c => 1 ≤ c.2.1 && c.2.1 ≤ 64
  let us := (few.map (·.1)).dedup.filter fun o => (mapGet? p.prio o).getD 32 ≠ 0 && !p.removed.contains o
  let weight (o : Nat) : Nat := (counts.filter fun c => c.1 = o).foldl (fun k c => max k (c.2.1 * c.2.2)) 0
  let before (a b : Nat) : Bool :=
    let pa := (mapGet? p.prio a).getD 32
    let pb := (mapGet? p.prio b).getD 32
    pa < pb || (pa = pb && (weight b < weight a || (weight a = weight b && a ≤ b)))
  (sortBy before us).head?

/-- The growth cut (R184). -/
def specialiseRoutine : Nat → SpecIn → Except (List (Nat × Nat)) Residual
  | 0, _ => .error [(0, spGrowth)]
  | fuel + 1, p =>
    match specialiseOnce p with
    | (_, _, e :: errs) => .error (e :: errs)
    | (some r, _, []) => .ok r
    | (none, counts, []) =>
      match cutNext p counts with
      | some o => specialiseRoutine fuel { p with removed := o :: p.removed }
      | none => .error [(0, spGrowth)]

/-! ### The checks of the words as they stand (R183, R191 to R193) -/

/-- The own-level registers of a loop (R58, R100). -/
def levelSel (v : BitVec 1) (r : BitVec 12) : Bool := if v = 0#1 then 0x040 ≤ r.toNat && r.toNat ≤ 0x042 else 0x044 ≤ r.toNat && r.toNat ≤ 0x046

/-- A form that a static loop of level `v` must not hold (R183). -/
def ownLevel (v : BitVec 1) (i : Instr) : Bool :=
  match i with
  | .loop u _ _ | .loopi u _ _ => u = v
  | .crr _ r | .crw _ _ r | .crs _ _ r | .crc _ _ r => levelSel v r
  | _ => false

/-- Refusals one word gives wherever control goes: (offset, subcode). A word of a reserved major is copied unchanged (R57). -/
def wordErrors (p : SpecIn) (o : Nat) : List (Nat × Nat) :=
  let w := p.code.getD o 0#32
  let m := (major w).toNat
  let fn := (bits w 21 3).toNat
  let pair := !isLone w && evenOff p o
  if reservedWord p.ver w then [] else
  let body (first last : Nat) : List Word32 := (List.range (min (last + 1) p.size - first)).map fun k => p.code.getD (first + k) 0#32
  let form (x : Word32) : Option Instr := match decodeForm x with
    | .ok i => some i
    | .error _ => none
  if m = 0x15 && fn ≤ 2 then
    if isMarked w ≠ decide (fn < 2) then [(o, spMark)]
    else if (instrOf p w).isNone then [(o, spIllegal)]
    else if fn = 1 then
      match instrOf p (p.code.getD (o + 1) 0#32) with
      | some (.loop _ _ _) | some (.loopi _ _ _) =>
        if isMarked (p.code.getD (o + 1) 0#32) && o + 1 < p.size && isLone w then [] else [(o, spShape)]
      | _ => [(o, spShape)]
    else []
  else if isMarked w && !markAllowed w then [(o, spMark)]
  else
    match instrOf p w with
    | none => []
    | some i =>
      match bodyOf o pair i with
      | none => []
      | some (first, last) =>
        match i with
        | .rep _ _ _ _ => if (body first last).any isMarked then [(o, spShape)] else []
        | .loop v _ _ | .loopi v _ _ =>
          if isMarked w && (body first last).any fun x => ((form x).map (ownLevel v)).getD false then [(o, spShape)] else []
        | _ => []

/-- Priorities set by `SGROW` (R193). -/
def growPrio (p : SpecIn) : List (Nat × Nat) :=
  (List.range p.size).filterMap fun o => match instrOf p (p.code.getD o 0#32) with
    | some (.sgrow q) => some (o + 1, q.toNat)
    | _ => none

/-- A routine specialised, or the refusal at the lowest offset, then of the lowest subcode (R191). -/
def specialise (p : SpecIn) : Except (Nat × Nat) Residual :=
  let p := { p with prio := growPrio p, removed := [], lasts := [] }
  let errs := (List.range p.size).flatMap (wordErrors p)
  let least (l : List (Nat × Nat)) : Nat × Nat :=
    (sortBy (fun a b : Nat × Nat => a.1 < b.1 || (a.1 = b.1 && a.2 ≤ b.2)) l).headD (0, spGrowth)
  match specialiseRoutine (p.size + 1) p with
  | .error e =>
    .error (least (errs ++ e))
  | .ok r => if errs.isEmpty then .ok r else .error (least errs)

end Sys2Proof.Machine
end

