-- ==== Sys2Proof/Machine/Launch.lean ====
section
/-! DEFINITION. Launching (R34, R40, R41, R69, R155, R175, R189 to R191, R295, R300, R303, R338, R352, R421, R422, R426, R442): the
checks in order, the specialisation cache, and the start of a pending launch. -/

namespace Sys2Proof.Machine

/-- A refusal: its status code and `DETAIL`. -/
abbrev Checked (α : Type) := Except (Nat × Word) α

def need (ok : Bool) (status : Nat) : Checked Unit := if ok then .ok () else .error (status, 0#64)

/-! ### Step 1 (R421, R422) -/

def launchNovr (p : Packet) : Nat := fieldOf (pktA2 p) 31 16

/-- The overrides, in order: (uniform index, value). -/
def overrides (m : Memory) (p : Packet) : List (Nat × Word) :=
  match cpKey? p.pkg (pktA3 p) with
  | none => []
  | some k => (List.range (launchNovr p)).map fun i => (memNat m (k + 16 * i) 8, BitVec.ofNat 64 (memNat m (k + 16 * i + 8) 8))

def launchArgsOk (m : Memory) (p : Packet) : Bool :=
  cpOk (pktA1 p) && fieldOf (pktA2 p) 15 1 = 0 && fieldOf (pktA2 p) 63 48 = 0 && launchNovr p ≤ 512 &&
    (launchNovr p = 0 || cpOk (pktA3 p)) &&
    match cpKey? p.pkg (pktA0 p) with
    | none => false
    | some k => (overrides m p).all fun o => o.1 < imgNuniform m k

/-! ### Step 2: variants (R41) -/

def pickVariant (img : Image) (sig : Word) : Option Nat :=
  match img.variants.findIdx? fun v => !v.generic && v.key = sig with
  | some i => some i
  | none => img.variants.findIdx? fun v => v.generic

def pickVariants (s : State) (img : Image) : List Nat → Option (List (Nat × Nat))
  | [] => some []
  | p :: ps =>
    match pickVariant img (getPackage s p).defectSig, pickVariants s img ps with
    | some v, some l => some ((p, v) :: l)
    | _, _ => none

/-! ### Step 3 -/

/-- Bytes [lo, hi) are covered by ranges in ascending order of start (R338). -/
def covered (lo hi : Nat) (ranges : List (Nat × Nat)) : Bool :=
  hi ≤ ranges.foldl (fun pos r => if r.1 ≤ pos then max pos r.2 else pos) lo

/-- The header checks that need the region (R34, R338), and the core table of every variant, whose length is the region's (R66, R68). -/
def regionHeaderOk (m : Memory) (k : Nat) (b : Rcb) (img : Image) : Bool :=
  let tx := sortBy (fun a b : Nat × Nat => decide (a.1 ≤ b.1))
    ((img.maps.filter fun e => fieldOf e.comp 15 12 = 2).map fun e => (e.va % 2 ^ 48, e.va % 2 ^ 48 + e.len))
  (img.tiles.all fun t =>
    if fieldOf t.base 63 60 = 2 then
      b.dsBase ≤ fieldOf t.base 25 0 && fieldOf t.base 25 0 + t.len ≤ b.dsBase + b.dsLen
    else covered (fieldOf t.base 47 0) (fieldOf t.base 47 0 + t.len) tx) &&
    (tabRows (imgTab m k 0x040) 32).all (coreTableOk m k (coresPerPkg b))

/-- Pages whose holding is exclusive (R30). -/
def exclusiveMap (e : MapEntry) : Bool :=
  let mode := fieldOf e.comp 15 12
  (1 ≤ mode && mode ≤ 4) || (mode = 0 && e.comp.getLsbD 0)

/-- What identifies a mapped page: its physical page where the walk finds a leaf, else its table and address. -/
def pageIdentity (s : State) (b : Rcb) (pkg v : Nat) : Nat × Nat × Nat :=
  match findLeaf s pkg v 4 b.root with
  | .leaf l => (pkg, 0, leafPa l v / 65536)
  | _ => (pkg, 1 + b.root, v / 65536)

def heldPages (s : State) (b : Rcb) (img : Image) : List (Nat × Nat × Nat) :=
  (maskPkgs b.pkgMask).flatMap fun pkg => (img.maps.filter exclusiveMap).flatMap fun e =>
    (List.range ((e.va % 65536 + e.len + 65535) / 65536)).map fun i => pageIdentity s b pkg (e.va % 2 ^ 48 + 65536 * i)

/-- Pages of a launch that has ended and whose completion record is still to be written (R30, R419). -/
def waitPages (s : State) (w : PacketWait) : List (Nat × Nat × Nat) :=
  match w.what with
  | .flushed _ _ _ b img => heldPages s b img
  | _ => []

/-- R30: no other launch holds a page the image maps. -/
def pagesFree (s : State) (b : Rcb) (img : Image) : Bool :=
  let others := (s.regions.filter fun r => hasLaunch r && r.rcb.id ≠ b.id).flatMap fun r => heldPages s r.rcb (imageOf r)
  let mine := heldPages s b img
  mine.all (fun x => !others.contains x) && mine.all fun x => !(s.waits.flatMap (waitPages s)).contains x

/-- The routines the region's cores run: (variant, routine) of each logical core by package. -/
def coreEntry (img : Image) (vs : List (Nat × Nat)) (b : Rcb) (core : Nat) : Nat × Nat :=
  match vs.find? fun e => e.1 = pkgOfCore core with
  | none => (0, 0)
  | some e =>
    let i := (pkgCores b).findIdx fun c => c = core % 65536
    (((img.variants[e.2]?).bind fun v => v.cores[i]?).getD (0, 0))

def usedRoutines (img : Image) (vs : List (Nat × Nat)) (b : Rcb) : List Nat :=
  let used := (regionCores b).map fun c => (coreEntry img vs b c).1
  (List.range img.routines.length).filter used.contains

/-- A range of TCM within the routine's guard bounds. -/
def routineRange (r : Routine) (o n : Nat) : Bool :=
  o + n ≤ 2 ^ 18 && (n = 0 || (r.guardLo ≤ o / 256 && (o + n - 1) / 256 ≤ r.guardHi))

def maskTo (x sel : Nat) : Nat := ((BitVec.ofNat 64 x) &&& crMask sel).toNat

def landOf (r : Routine) : Nat := maskTo r.landBase 0x030

/-- A register image that launch can load unchanged: its reserved bits are zero (R7, R69; log entry 22). -/
def regImageOk (x sel : Nat) : Bool := maskTo x sel = x

/-- R295: a routine gives its cores no receive queue, or a usable one. -/
def queueFieldsOk (r : Routine) : Bool :=
  (r.rqBase = 0 && r.rqLimit = 0) ||
    (r.rqBase + 128 ≤ r.rqLimit && 0x1000 ≤ r.rqBase && routineRange r r.rqBase (r.rqLimit - r.rqBase))

/-- The fields of a routine that a core of the region runs (R69, R155, R352); those of a routine that none runs, its `LOADADDR` among them,
are not looked at: the model's choice (log entry 49). -/
def routineFieldsOk (r : Routine) : Bool :=
  regImageOk r.rqBase 0x022 && regImageOk r.rqLimit 0x023 && regImageOk r.landBase 0x030 &&
    r.loadAddr % 8 = 0 && 0x1000 ≤ r.loadAddr && r.loadAddr + 4 * r.code.length ≤ 2 ^ 18 && r.guardLo ≤ 1023 && r.guardHi ≤ 1023 &&
    r.saveArea % 8192 = 0 && 0x1000 ≤ r.saveArea && routineRange r r.saveArea 8192 &&
    (landOf r = 0 ||
      (0x1000 ≤ landOf r && routineRange r (landOf r) 65536 && !rangesMeet (landOf r, landOf r + 65536) (r.saveArea, r.saveArea + 8192)))

/-- The 32 bytes of entry `i` of a plan segment that begins at `off` in the variant's plan area. -/
def imageEntry (v : Variant) (off i : Nat) : Option (List Byte) :=
  if off + 32 * (i + 1) ≤ v.plan.length then some ((v.plan.drop (off + 32 * i)).take 32) else none

/-- The number of entries of a segment, its `END` included; none without one in 1,024. -/
def segmentCount (v : Variant) (off : Nat) : Option Nat :=
  ((List.range 1024).find? fun i => match imageEntry v off i with
    | some bs => entKind (parseEntry bs) = 0
    | none => true).bind fun i => (imageEntry v off i).map fun _ => i + 1

/-- The core receives a segment (R69). -/
def hasSegment (v : Variant) (r : Routine) : Bool := r.planAddr ≠ 0 && !v.plan.isEmpty

/-- A segment's place in TCM (R69). -/
def segmentPlaceOk (r : Routine) (v : Variant) (off : Nat) : Bool :=
  !hasSegment v r ||
    match segmentCount v off with
    | none => true
    | some n =>
      let x := (r.planAddr, r.planAddr + 32 * n)
      0x1000 ≤ r.planAddr && routineRange r r.planAddr (32 * n) && !rangesMeet x (r.saveArea, r.saveArea + 8192) &&
        (landOf r = 0 || !rangesMeet x (landOf r, landOf r + 65536))

/-- A destination that no mode of the mapping table lets a plan write (R29, R300), of a send that writes there for certain: the length of
one that takes it from a count dword is known only when the entry starts (R305). -/
def mappedRefusal (img : Image) (group : Nat) (p : PlanEntry) : Bool :=
  let path := fieldOf p.w2 63 60
  let v := fieldOf p.w2 47 0
  entKind p = 2 && !entDi p && !entFlag p && entLen p ≠ 0 && (path = 4 || path = 6 || path = 8) &&
    img.maps.any fun e =>
      let lo := e.va % 2 ^ 48
      let mode := fieldOf e.comp 15 12
      v < lo + e.len && lo < v + entLen p &&
        ((mode = 0 && !e.comp.getLsbD 0) || mode = 3 || (mode ≠ 0 && !e.comp.getLsbD (32 + group)))

/-- The initial segment of one core (R300, R303 apart). -/
def segmentOk (img : Image) (vs : List (Nat × Nat)) (b : Rcb) (core : Nat) : Bool :=
  let (ri, off) := coreEntry img vs b core
  match img.routines[ri]?, (vs.find? fun e => e.1 = pkgOfCore core).bind fun e => img.variants[e.2]? with
  | some r, some v =>
    !hasSegment v r ||
      match readSegment { core := core, lo := r.guardLo, hi := r.guardHi, generic := v.generic } (imageEntry v off) 1024 [] with
      | .error _ => false
      | .ok ps => !(ps.any (mappedRefusal img (core % 65536 / 16 / 128)))
  | _, _ => false

/-- The `SENDF` entries of one package's cores (R303): core id, destination, length, cycle. -/
def sendfList (img : Image) (v : Variant) (b : Rcb) (vs : List (Nat × Nat)) (pkg : Nat) : List (Nat × Word × Nat × Nat) :=
  (pkgCores b).flatMap fun c =>
    let (ri, off) := coreEntry img vs b (pkg * 65536 + c)
    match img.routines[ri]? with
    | none => []
    | some r =>
      if !hasSegment v r then []
      else
        ((List.range ((segmentCount v off).getD 0)).filterMap fun i => (imageEntry v off i).map parseEntry).filterMap fun p =>
          if entKind p = 1 then some (c, p.w2, entLen p, fieldOf p.w3 31 0) else none

/-- Every flit is sent, and so arrives, by cycle 2^32 - 1, whatever its route (R303). -/
def cyclesFit (l : List (Nat × Word × Nat × Nat)) : Bool := l.all fun e => e.2.2.2 + (e.2.2.1 + 63) / 64 ≤ 2 ^ 32

/-- The schedule of each package's variant (R303). -/
def routesFit (s : State) (img : Image) (vs : List (Nat × Nat)) (b : Rcb) : Bool :=
  vs.all fun e => match img.variants[e.2]? with
    | none => false
    | some v =>
      let l := sendfList img v b vs e.1
      v.generic || (cyclesFit l && Config.routesOk (getPackage s e.1).defectSig l)

/-! ### Step 4: specialisation (R175, R177, R189 to R191) -/

def specApplies (img : Image) (nospec : Bool) (r : Routine) : Bool :=
  img.encver ≠ .v1 && img.flags % 2 = 1 && !nospec && r.rflags % 2 = 0

/-- Entry points of a routine (R177). -/
def entryPoints (img : Image) (handlers : Word) (ri : Nat) (r : Routine) : List Nat :=
  let bodies := (img.bodies.filter fun b => b.routine = ri).flatMap fun b => b.bentry :: b.prologue.toList
  let hs := ([fieldOf handlers 15 0, fieldOf handlers 31 16, fieldOf handlers 47 32].filter fun h => h ≠ 0).filterMap fun h =>
    if r.loadAddr ≤ 4 * h && 4 * h < r.loadAddr + 4 * r.code.length then some (h - r.loadAddr / 4) else none
  (r.entry :: bodies ++ hs).dedup

def plainCode (ri : Nat) (r : Routine) : LoadedCode :=
  { routine := ri, specialised := false, loadAddr := r.loadAddr, words := r.code, backMap := [], entries := [] }

/-- The detail word of R191. -/
def specDetail (routine off sub : Nat) : Word := BitVec.ofNat 64 (sub % 256 + routine % 65536 * 2 ^ 8 + off % 2 ^ 20 * 2 ^ 24)

/-- The refusal of R191. -/
def failedLaunch (e : Nat × Nat × Nat) : Nat × Word := (statSpecialise, specDetail e.1 e.2.1 e.2.2)

/-- What the specialiser reads of a routine. -/
def specInput (img : Image) (handlers : Word) (ri : Nat) (r : Routine) : SpecIn :=
  { ver := img.encver, code := r.code.toArray, loadAddr := r.loadAddr, uniform := img.uniform.toArray, stat := img.static.toArray
    entries := entryPoints img handlers ri r, prio := [], removed := [], lasts := [] }

/-- The code a routine is loaded with (R175), or the (routine, offset, subcode) of the refusal. -/
def loadCode (img : Image) (nospec : Bool) (handlers : Word) (ri : Nat) : Except (Nat × Nat × Nat) LoadedCode :=
  match img.routines[ri]? with
  | none => .error (ri, 0, spShape)
  | some r =>
    if !specApplies img nospec r then .ok (plainCode ri r)
    else
      match specialise (specInput img handlers ri r) with
      | .error e => .error (ri, e.1, e.2)
      | .ok x =>
        .ok { routine := ri, specialised := true, loadAddr := r.loadAddr, words := x.words.map (·.1), backMap := x.words.map (·.2)
              entries := x.entries }

/-- The first word of a routine that no core runs whose `S` R49 forbids: the image is refused for it all the same, but not for one in a
routine that `RFLAGS` bit 0 keeps from being specialised, whose word traps when it is executed: the model's choice (log entry 49). -/
def forbiddenMark (img : Image) (nospec : Bool) (handlers : Word) (ri : Nat) : Option (Nat × Nat × Nat) :=
  match img.routines[ri]? with
  | none => none
  | some r =>
    if !specApplies img nospec r then none
    else
      let p := specInput img handlers ri r
      (((List.range p.size).flatMap (wordErrors p)).find? fun e => e.2 = spMark).map fun e => (ri, e.1, e.2)

/-- Routines in ascending order: the failures, and the code of each routine that a core runs; of every other, its marks (R49, R175). -/
def loadCodes (img : Image) (nospec : Bool) (handlers : Word) (used : List Nat) (rs : List Nat) : List (Nat × Nat × Nat) × List LoadedCode :=
  let here (r : Nat) : Except (Nat × Nat × Nat) (List LoadedCode) :=
    if used.contains r then (loadCode img nospec handlers r).map fun c => [c]
    else
      match forbiddenMark img nospec handlers r with
      | some e => .error e
      | none => .ok []
  rs.foldr (fun r acc => match here r with
    | .error e => (e :: acc.1, acc.2)
    | .ok c => (acc.1, c ++ acc.2)) ([], [])

/-- The failure reported of several: of the lowest routine, then at the lowest offset, then of the lowest subcode (R191). -/
def leastFailure (l : List (Nat × Nat × Nat)) : Option (Nat × Nat × Nat) :=
  (sortBy (fun a b : Nat × Nat × Nat => decide ([a.1, a.2.1, a.2.2] ≤ [b.1, b.2.1, b.2.2])) l).head?

/-- The whole launch's residual code is at most 4 MiB (R184). -/
def residualFits (cs : List LoadedCode) : Bool :=
  ((cs.filter (·.specialised)).map fun c => 4 * c.words.length).sum ≤ 2 ^ 22

def encverNat : EncVer → Nat
  | .v1 => 1
  | .v2 => 2
  | .v3 => 3

def staticWords (img : Image) : List (Nat × Word) :=
  ((img.uniform.zip img.static).zipIdx).filterMap fun e => if e.1.2 then some (e.2, e.1.1) else none

/-- `CacheKey` (R189). -/
def cacheKey (img : Image) (v r : Nat) : Word :=
  let k0 := mix64 0#64 (BitVec.ofNat 64 (encverNat img.encver))
  let k1 := (List.range 6).foldl (fun k i => mix64 k (BitVec.ofNat 64 (leNat ((img.digest.drop (8 * i)).take 8)))) k0
  let k2 := mix64 (mix64 k1 (BitVec.ofNat 64 v)) (BitVec.ofNat 64 r)
  (staticWords img).foldl (fun k e => mix64 (mix64 k (BitVec.ofNat 64 e.1)) e.2) k2

/-- Residency slots of an entry (R190). -/
def entrySlots (img : Image) (c : LoadedCode) : Nat :=
  (Config.cacheHeader + 8 * (staticWords img).length + 8 * c.words.length + 4095) / 4096

/-- The first run of `n` free slots of a die. -/
def freeRun (cache : List CacheEntry) (die n : Nat) : Option Nat :=
  (List.range (2049 - n)).find? fun st =>
    n ≤ 2048 && (cache.filter fun e => e.die = die).all fun e => e.slot + e.slots ≤ st || st + n ≤ e.slot

/-- Room for `n` slots, evicting unpinned entries, least recently used first (R190). -/
def makeRoom (die n : Nat) : Nat → List CacheEntry → Option (Nat × List CacheEntry)
  | 0, _ => none
  | fuel + 1, cache =>
    match freeRun cache die n with
    | some st => some (st, cache)
    | none =>
      let old := cache.filter fun e => e.die = die && e.pins.isEmpty
      match sortBy (fun a b : CacheEntry => a.used < b.used || (a.used = b.used && a.slot ≤ b.slot)) old with
      | [] => none
      | e :: _ => makeRoom die n fuel (cache.filter fun x => !(x.die = die && x.slot = e.slot))

/-- One routine made resident and pinned on one die; `none`: no room. -/
def pinEntry (img : Image) (region v : Nat) (c : LoadedCode) (die : Nat) (p : Package) : Option Package :=
  let statics := (staticWords img).map (·.2)
  let mine (e : CacheEntry) : Bool :=
    e.die = die && e.key = cacheKey img v c.routine && e.digest = img.digest && e.variant = v && e.routine = c.routine &&
      e.encver = img.encver && e.statics = statics
  let clock := p.cacheClock + 1
  if p.cache.any mine then
    let mark (e : CacheEntry) : CacheEntry := if mine e then { e with pins := (region :: e.pins).dedup, used := clock } else e
    some { p with cacheClock := clock, cache := p.cache.map mark }
  else
    let n := entrySlots img c
    match makeRoom die n (p.cache.length + 1) p.cache with
    | none => none
    | some (st, cache) =>
      some { p with
        cacheClock := clock
        cache := cache ++
          [{ die := die, key := cacheKey img v c.routine, digest := img.digest, variant := v, routine := c.routine, encver := img.encver,
             statics := statics, code := c, slot := st, slots := n, pins := [region], used := clock }] }

/-- The dies of a region's package, by their global numbers. -/
def diesOf (b : Rcb) (pkg : Nat) : List Nat :=
  (List.range 16).filterMap fun d =>
    if (rectClusters b).any fun cl => cl / 256 = d then some (16 * pkg + d) else none

/-- Every specialised routine made resident on every die that runs it, or the routine that found no room. -/
def pinAll (img : Image) (b : Rcb) (vs : List (Nat × Nat)) : List (LoadedCode × Nat × Nat) → State → Except Nat State
  | [], s => .ok s
  | (c, pkg, die) :: l, s =>
    let v := ((vs.find? fun e => e.1 = pkg).map (·.2)).getD 0
    let runs := (pkgCores b).any fun x => x / 4096 = die % 16 && (coreEntry img vs b (pkg * 65536 + x)).1 = c.routine
    if c.specialised && runs then
      match pinEntry img b.id v c die (getPackage s pkg) with
      | none => .error c.routine
      | some p => pinAll img b vs l (modPackage s pkg fun _ => p)
    else pinAll img b vs l s

/-- The cache's work for a launch: each code, on each die of each package. -/
def pinJobs (b : Rcb) (codes : List LoadedCode) : List (LoadedCode × Nat × Nat) :=
  codes.flatMap fun c => (maskPkgs b.pkgMask).flatMap fun q => (diesOf b q).map fun d => (c, q, d)

/-- The region's entries are pinned no longer. -/
def unpin (s : State) (id : Nat) : State :=
  { s with packages := s.packages.map fun e =>
      (e.1, { e.2 with cache := e.2.cache.map fun c => { c with pins := c.pins.filter (· ≠ id) } }) }

/-! ### `LAUNCH` (R421, R422) -/

/-- The steps of R40 up to the code, in order: the launch, its code and the caches that hold it, pinned only once it runs (R190), or the
refusal. -/
def checkLaunch (s : State) (p : Packet) : Checked (Nat × Launch × List LoadedCode × State) := do
  let m := s.mem
  let k := (cpKey? p.pkg (pktA0 p)).getD 0
  need (imgSigned m k) statSignature
  need (imageHeaderOk m k) statHeader
  match encverOf (imgNat m k 4 2) with
  | none => .error (statEncver, 0#64)
  | some ver =>
    let region := findRcb s p.pkg (pktA1 p)
    let b := (region.map (·.rcb)).getD { Rcb.zero with pkgMask := 1#64 <<< p.pkg }
    let img0 := readImage m k (coresPerPkg b) ver
    let img := { img0 with uniform := (overrides m p).foldl (fun u o => u.set o.1 o.2) img0.uniform }
    match pickVariants s img (maskPkgs b.pkgMask), region with
    | none, _ => .error (statNoVariant, 0#64)
    | some _, none => .error (statRegion, 0#64)
    | some vs, some r =>
      need (!hasLaunch r) statRegion
      need (regionHeaderOk m k b img) statHeader
      let recovery := decide (img.flags / 2 % 2 = 1)
      need (!recovery || (maskPkgs b.pkgMask).all fun q => (getPackage s q).module_) statNoRecovery
      need (pagesFree s b img) statPageHeld
      need (decide ((img.maps.map (·.len)).sum ≤ b.memBudget)) statBudget
      let used := usedRoutines img vs b
      need (img.routines.all queueFieldsOk && used.all fun i => ((img.routines[i]?).map routineFieldsOk).getD false) statRoutine
      need ((regionCores b).all fun c =>
        let (ri, off) := coreEntry img vs b c
        match img.routines[ri]?, (vs.find? fun e => e.1 = pkgOfCore c).bind fun e => img.variants[e.2]? with
        | some x, some v => segmentPlaceOk x v off
        | _, _ => false) statRoutine
      need ((regionCores b).all (segmentOk img vs b) && routesFit s img vs b) statPlan
      let nospec := (pktA2 p).getLsbD 0
      let (errs, codes) := loadCodes img nospec b.handlers used (List.range img.routines.length)
      let big := if residualFits codes then [] else [(0, 0, spImageGrowth)]
      match pinAll img b vs (pinJobs b codes) s with
      | .error ri => .error (failedLaunch ((leastFailure (errs ++ big ++ [(ri, 0, spNoRoom)])).getD (ri, 0, spNoRoom)))
      | .ok s1 =>
        match leastFailure (errs ++ big) with
        | some e => .error (failedLaunch e)
        | none =>
          pure (b.id,
            { pkg := p.pkg, q := p.q, num := p.num, comp := pktComp p, notice := pktComp p, irq := pktIrq p, image := img, variants := vs, nospec := nospec
              rpint := fieldOf (pktA2 p) 47 32, recovery := recovery, rel := pktRel m p },
            codes, unpin s1 b.id)

/-- `LAUNCH` (R421, R426): a launch whose checks pass is pending. -/
def execLaunch (p : Packet) (s : State) : Out State :=
  issuePacket p (launchArgsOk s.mem p) (fun s =>
    match checkLaunch s p with
    | .error (st, detail) => finishPacket p st detail s
    | .ok (id, l, codes, s1) =>
      setRegionState (modRegion s1 id fun r =>
        { Region.idle r.rcb with launch := some l, code := codes, breakpoints := r.breakpoints, fault := r.fault, faultSub := r.faultSub }) id
        .pending) s

/-! ### `LAUNCH_START` (R40, R426, R442) -/

def rectsMeet (a b : Rcb) : Bool := a.y0 ≤ b.y1 && b.y0 ≤ a.y1 && a.x0 ≤ b.x1 && b.x0 ≤ a.x1

/-- Two regions share a core. -/
def coresMeet (a b : Rcb) : Bool := (a.pkgMask &&& b.pkgMask) ≠ 0#64 && rectsMeet a b

/-- Their die SRAM ranges overlap in a die of both (R34). -/
def diesMeet (a b : Rcb) : Bool :=
  a.dsLen ≠ 0 && b.dsLen ≠ 0 && (a.pkgMask &&& b.pkgMask) ≠ 0#64 && a.y0 / 16 ≤ b.y1 / 16 && b.y0 / 16 ≤ a.y1 / 16 && a.x0 / 16 ≤ b.x1 / 16 &&
    b.x0 / 16 ≤ a.x1 / 16 && a.dsBase < b.dsBase + b.dsLen && b.dsBase < a.dsBase + a.dsLen

/-- The order of pending launches (R426). -/
def launchBefore (a b : Region) : Bool :=
  match a.launch, b.launch with
  | some x, some y =>
    b.rcb.prio < a.rcb.prio ||
      (a.rcb.prio = b.rcb.prio && (x.q < y.q || (x.q = y.q && x.num.toNat < y.num.toNat)))
  | _, _ => false

/-- Regions running, other than one. -/
def othersRunning (s : State) (r : Region) : List Region := s.regions.filter fun q => q.state = .running && q.rcb.id ≠ r.rcb.id

/-- No package of the core set has stopped its compute dies (R438). -/
def diesRun (s : State) (r : Region) : Bool := (maskPkgs r.rcb.pkgMask).all fun p => !(getPackage s p).stopped

/-- The two may not run together: one of them has recovery points, and they share a package (R442). -/
def excludes (a b : Region) : Bool := (recoveryOf a || recoveryOf b) && (a.rcb.pkgMask &&& b.rcb.pkgMask) ≠ 0#64

/-- No running region of equal or higher priority holds a core of the region, and none with recovery points stands in its way (R426,
R442). -/
def coresOpen (s : State) (r : Region) : Bool :=
  (othersRunning s r).all fun q =>
    !(coresMeet q.rcb r.rcb && (r.rcb.prio ≤ q.rcb.prio || recoveryOf q)) &&
      !excludes q r

/-- A pre-empted region whose cores no region of equal or higher priority holds (R426, R427). -/
def coresFree (s : State) (r : Region) : Bool := r.state = .suspended && !r.suspendReq && diesRun s r && coresOpen s r

/-- Nothing but a running launch of lower priority keeps a pending launch back (R34, R426, R442): pending launches that cannot run together
start in their order, and a pre-empted region of its own priority that can resume goes ahead of it. -/
def mayStart (s : State) (r : Region) : Bool :=
  r.state = .pending && diesRun s r && coresOpen s r &&
    (s.regions.all fun q => q.rcb.id = r.rcb.id || !(q.state = .running || q.state = .suspended) || !diesMeet q.rcb r.rcb) &&
    (s.regions.all fun q => q.rcb.id = r.rcb.id || q.state ≠ .pending ||
      !(coresMeet q.rcb r.rcb || diesMeet q.rcb r.rcb || excludes q r) || !launchBefore q r) &&
    s.regions.all fun q => !coresFree s q || !(coresMeet q.rcb r.rcb || excludes q r) || q.rcb.prio ≠ r.rcb.prio

/-- Nothing but running launches of lower priority keeps a pre-empted region from resuming: a pending launch of higher priority that can
start now goes ahead of it (R426; log entry 46). -/
def mayResume (s : State) (r : Region) : Bool :=
  coresFree s r && s.regions.all fun q => !mayStart s q || !(coresMeet q.rcb r.rcb || excludes q r) || q.rcb.prio ≤ r.rcb.prio

/-- Running regions that hold cores of the region. -/
def inTheWay (s : State) (r : Region) : List Region := (othersRunning s r).filter fun q => coresMeet q.rcb r.rcb

/-- Running regions that the region asks to give way: those of lower priority that hold some of its cores (R426), but for one with
recovery points, which is never pre-empted (R442). -/
def displaced (s : State) (r : Region) : List Region := (inTheWay s r).filter fun q => q.rcb.prio < r.rcb.prio && !recoveryOf q

/-- They are asked (R167). -/
def askWay (s : State) (r : Region) : State :=
  (displaced s r).foldl (fun s q => modRegion s q.rcb.id fun q => { q with preemptReq := true }) s

/-- The region has someone to ask. -/
def hasToAsk (s : State) (r : Region) : Bool := (displaced s r).any fun q => !q.preemptReq

def canLaunchStart (s : State) (r : Region) : Bool :=
  r.state = .pending && ((mayStart s r && (inTheWay s r).isEmpty) || hasToAsk s r)

/-- The bytes zeroed by a launch (R40, step 5). -/
def zeroRegion (s : State) (b : Rcb) : State :=
  let s1 := (maskPkgs b.pkgMask).foldl (fun s p =>
    (rectClusters b).foldl (fun s cl => { s with mem := zeroBytes s.mem (spadKey (p * 4096 + cl) 0) (2 ^ 19) }) s) s
  let s2 := (regionCores b).foldl (fun s c => { s with mem := zeroBytes s.mem (tcmKey c 0) (2 ^ 18) }) s1
  (maskPkgs b.pkgMask).foldl (fun s p =>
    (diesOf b p).foldl (fun s d => { s with mem := zeroBytes s.mem (dieKey d b.dsBase) b.dsLen }) s) s2

/-- A handler's word address as launch writes it (R155, R177). -/
def handlerWord (c : LoadedCode) (r : Routine) (h : Nat) : Nat :=
  if c.specialised && r.loadAddr ≤ 4 * h && 4 * h < r.loadAddr + 4 * r.code.length then
    c.loadAddr / 4 + (mapGet? c.entries (h - r.loadAddr / 4)).getD (h - r.loadAddr / 4)
  else h

/-- A core as the launch barrier's exit leaves it (R40, R69, R85). Request ids of no-return atomics go on (R128), and so do the writes to
the host still to be acknowledged. -/
def launchCore (s : State) (id core routine : Nat) (handlers : Word) (r : Routine) (c : LoadedCode) (plan : Bool) : Core :=
  let x := Core.idle s.domLast core
  let h (hi lo : Nat) : Nat := handlerWord c r (fieldOf handlers hi lo)
  let t : Strand := { coreStrand x 0 with live := true, pc := BitVec.ofNat 18 (c.loadAddr + 4 * (mapGet? c.entries r.entry).getD r.entry) }
  { setStrandOf x 0 t with
    region := some id, routine := routine, handler := BitVec.ofNat 64 (h 15 0 + 2 ^ 16 * h 31 16 + 2 ^ 32 * h 47 32)
    saveArea := BitVec.ofNat 64 (maskTo r.saveArea 0x008), landBase := BitVec.ofNat 64 (landOf r)
    landInForce := BitVec.ofNat 64 (landOf r), rqBase := BitVec.ofNat 64 (maskTo r.rqBase 0x022)
    rqLimit := BitVec.ofNat 64 (maskTo r.rqLimit 0x023), guardLo := BitVec.ofNat 64 (256 * (r.guardLo % 1024))
    guardHi := BitVec.ofNat 64 (256 * (r.guardHi % 1024)), xplan := if plan then BitVec.ofNat 64 (r.planAddr % 2 ^ 18 + 1) else 0#64
    atomCount := (getCore s core).atomCount, unacked := (getCore s core).unacked }

/-- One core loaded and started. Residual words past the end of TCM are not written: the spec has no place for them (log entry 78). -/
def startCore (r : Region) (l : Launch) (s : State) (core : Nat) : State :=
  let (ri, off) := coreEntry l.image l.variants r.rcb core
  match l.image.routines[ri]?, r.code.find? (fun c => c.routine = ri),
      (l.variants.find? fun e => e.1 = pkgOfCore core).bind fun e => l.image.variants[e.2]? with
  | some x, some c, some v =>
    let plan := hasSegment v x
    let m1 := writeBytes s.mem (tcmKey core 0) (l.image.uniform.flatMap fun u => leBytes 8 u.toNat)
    let m2 := writeBytes m1 (tcmKey core c.loadAddr) ((c.words.flatMap wordBytes).take (2 ^ 18 - c.loadAddr))
    let m3 := if plan then writeBytes m2 (tcmKey core x.planAddr) ((v.plan.drop off).take (32 * (segmentCount v off).getD 0)) else m2
    setCore { s with mem := m3 } core (launchCore s r.rcb.id core ri r.rcb.handlers x c plan)
  | _, _, _ => s

/-- A pending launch that the cache can no longer hold is refused (R190). -/
def refuseStart (s : State) (r : Region) (l : Launch) (detail : Word) : State :=
  let id := r.rcb.id
  let s1 := r.hostTxns.foldl (fun s h => completePacket s h.pkg h.q h.num h.comp h.irq statLate 0#64) (finishInvals s id)
  finishWaits (completePacket (setRegionState (releaseRegion s1 id) id .idle) l.pkg l.q l.num l.comp l.irq statSpecialise detail)

/-- R40, steps 5 to 7, with the cache entries the launch uses pinned from now on, and filled again where they have been evicted (R190).
-/
def startLaunch (s : State) (r : Region) (l : Launch) : State :=
  match pinAll l.image r.rcb l.variants (pinJobs r.rcb r.code) s with
  | .error ri => refuseStart s r l (specDetail ri 0 spNoRoom)
  | .ok s0 =>
    let s1 := (regionCores r.rcb).foldl (startCore r l) (zeroRegion s0 r.rcb)
    takePoint (startC (setRegionState s1 r.rcb.id .running) r.rcb.id 0#64) r.rcb.id

/-- `LAUNCH_START` (R426): the launch starts, or the regions of lower priority that hold its cores are asked to give way. -/
def execLaunchStart (region : Nat) (s : State) : Out State :=
  let r := getRegion s region
  match r.launch with
  | none => .next s
  | some l =>
    if r.state ≠ .pending then .next s
    else if mayStart s r && (inTheWay s r).isEmpty then .next (startLaunch s r l)
    else .next (askWay s r)

end Sys2Proof.Machine
end

