-- ==== Sys2Proof/Machine/CmdProc.lean ====
section
/-! DEFINITION. The command processor (R404 to R430, R448): queues, tails, claims and doorbells, the issue of packets, and every packet
type but `LAUNCH`. -/

namespace Sys2Proof.Machine

/-! ### Queue registers (R406, R407, R410, R411) -/

def qcfgMask : Word := 0x000FFFFF00001F03#64

def qEn (q : Queue) : Bool := q.cfg.getLsbD 0
def qDev (q : Queue) : Bool := q.cfg.getLsbD 1
/-- Slots of the ring, N. -/
def qSlots (q : Queue) : Nat := 2 ^ fieldOf q.cfg 12 8
def qPasid (q : Queue) : BitVec 20 := q.cfg.extractLsb' 32 20

/-- The checks of R407: a ring size from 2^3 to 2^16, and an aligned base in a space of R408. -/
def queueOk (cfg base : Word) : Bool :=
  3 ≤ fieldOf cfg 12 8 && fieldOf cfg 12 8 ≤ 16 && cpOk base && base.toNat % 4096 = 0

/-- What the mirror needs of host memory. -/
def mirrorNeed (q : Queue) : List CpNeed := if q.mirror = 0#64 then [] else [(q.mirror, 8, true)]

/-- `HEAD` copied to the mirror as a dword (R65, R406), unless the host refuses it. -/
def writeMirror (s : State) (pkg : Nat) (q : Queue) : State :=
  if q.mirror = 0#64 || cpRefused (getPackage s pkg) (qPasid q) (mirrorNeed q) then s
  else
    match cpKey? pkg q.mirror with
    | none => s
    | some k => { s with mem := memPut s.mem k 8 q.head.toNat }

/-- A queue or region uses a PASID again whose teardown is over (R430). -/
def reusePasid (s : State) (pkg : Nat) (pasid : BitVec 20) : State := modPackage s pkg fun p => { p with torn := p.torn.erase pasid }

/-- `EN` goes from 0 to 1, with the configuration written (R407); the command processor of a package whose firmware is not verified is
not enabled (R449). The zero of a mirror whose page the host has not translated is written, before any packet is handled, once it has
(log entry 34). -/
def enableQueue (s : State) (pkg q : Nat) (c : Word) : State :=
  let qu := getQueue s pkg q
  if queueOk c qu.base && (getPackage s pkg).enabled then
    let q0 : Queue :=
      { qu with cfg := c, head := 0, tail := 0, claim := 0, stale := 0, status := 0x01#8, held := none, stopping := false, indirect := none }
    let due := (cpMissing (getPackage s pkg) (qPasid q0) (mirrorNeed q0)).isSome
    let q1 := { q0 with mirrorDue := due }
    let s1 := modQueue (reusePasid s pkg (qPasid q1)) pkg q fun _ => q1
    if due then askMissing s1 pkg (qPasid q1) (mirrorNeed q1) else writeMirror s1 pkg q1
  else modQueue s pkg q fun qu => { qu with cfg := c &&& ~~~1#64, status := 0x00#8 }

/-- `QUEUE_ENABLE` (R407): a write of `EN` from 0 to 1. -/
def execQueueEnable (pkg q : Nat) (cfg : Word) (s : State) : Out State :=
  if 256 ≤ q || qEn (getQueue s pkg q) || !cfg.getLsbD 0 then .next s else .next (enableQueue s pkg q (cfg &&& qcfgMask))

/-- The queue stops (R407, R414). -/
def stopQueue (s : State) (pkg q : Nat) (code : BitVec 8) : State :=
  modQueue s pkg q fun qu => { qu with cfg := qu.cfg &&& ~~~1#64, status := code, indirect := none, held := none, stopping := false, mirrorDue := false }

/-- A write of `EN` from 1 to 0 (R407): the queue stops once the packet being handled has issued, an `INDIRECT` with every packet of
its buffer; a packet that waits for its stamp is not being handled and does not issue. Until then `EN` and `CODE` keep their values (log
entry 70). -/
def disableQueue (s : State) (pkg q : Nat) : State :=
  let qu := getQueue s pkg q
  if qu.held.isSome || qu.indirect.isSome then modQueue s pkg q fun qu => { qu with stopping := true } else stopQueue s pkg q 0x00#8

/-- `QUEUE_DISABLE` (R407). -/
def execQueueDisable (pkg q : Nat) (cfg : Word) (s : State) : Out State :=
  if qEn (getQueue s pkg q) && !cfg.getLsbD 0 then .next (disableQueue s pkg q) else .next s

/-- `TailWrite` (R410), the monotonic-maximum rule. -/
def tailRule (q : Queue) (v : BitVec 32) : Queue :=
  let a := (v - q.tail).toNat
  let b := (v - q.head).toNat
  if !qEn q then q
  else if a = 0 || qSlots q < a || qSlots q < b then { q with stale := if q.stale = BitVec.allOnes 32 then q.stale else q.stale + 1#32 }
  else { q with tail := v }

/-- `QTAIL_WRITE` (R410): the host's write; ignored on a device-side queue (R406). -/
def execQtailWrite (pkg q : Nat) (value : Word) (s : State) : Out State :=
  let qu := getQueue s pkg q
  if 256 ≤ q || qDev qu then .next s else .next (modQueue s pkg q fun qu => tailRule qu (value.setWidth 32))

/-- The answer to an AtomicOp on `QCLAIM`. -/
def answer (s : State) (pkg : Nat) (x : Word) : State := modPackage s pkg fun p => { p with response := x, unsupported := false }

/-- `QCLAIM_FETCHADD` (R411): any AtomicOp but the 64-bit FetchAdd completes with Unsupported Request. -/
def execQclaimFetchadd (pkg q : Nat) (op : HostAtomic) (s : State) : Out State :=
  let qu := getQueue s pkg q
  let c := qu.claim
  if 256 ≤ q then .next s
  else
    match op with
    | .other => .next (modPackage s pkg fun p => { p with unsupported := true })
    | .fetchAdd64 k =>
      if (((c + k).setWidth 32) - qu.head).toNat ≤ qSlots qu then .next (answer (modQueue s pkg q fun qu => { qu with claim := c + k }) pkg c)
      else .next (answer s pkg (BitVec.allOnes 64))

/-- `DOORBELL_EVENT` (R412): the oldest event of the package's doorbells. -/
def execDoorbellEvent (pkg : Nat) (s : State) : Out State :=
  match (getPackage s pkg).doorbells with
  | [] => .next s
  | (q, v) :: rest =>
    .next (modQueue (modPackage s pkg fun p => { p with doorbells := rest }) pkg q fun qu => tailRule qu v)

/-! ### Packet types (R414) -/

def zeroArgs (l : List Word) : Bool := l.all fun x => x = 0#64

/-- `NOP`. -/
def execNop (p : Packet) (s : State) : Out State :=
  issuePacket p (zeroArgs [p.d3, p.d4, p.d5, p.d6]) (finishPacket p statOk 0#64) s

/-! ### `REGION` (R37, R38, R423 to R425) -/

/-- The region registered in a package under an `RCBID` (R423). -/
def regionIn (s : State) (pkg rcbid : Nat) : Option Region :=
  s.regions.find? fun r => r.rcb.id % 65536 = rcbid && r.rcb.pkgMask.getLsbD pkg

/-- The registered parent. -/
def parentOf (s : State) (pkg rcbid : Nat) : Option Region := if rcbid = 0xFFFF then none else regionIn s pkg rcbid

/-- A region's number in the domain (log entry 27). -/
def regionNumber (rcbid : Nat) (mask : Word) : Nat := rcbid + 65536 * ((maskPkgs mask).head?).getD 0

/-- A control block as memory holds it at a key, with the effective fields of R425. -/
def readRcb (m : Memory) (k : Nat) (parent : Option Rcb) : Rcb :=
  let f (off n : Nat) : Nat := memNat m (k + off) n
  let set := BitVec.ofNat 5 (f 4 1)
  let up := parent.getD Rcb.zero
  let own (i : Nat) : Bool := set.getLsbD i
  let rect := f 0x10 4
  let mask := if own 0 then BitVec.ofNat 64 (f 8 8) else up.pkgMask
  { id := regionNumber (f 0 2) mask, parent := (parent.map (·.id)).getD 0xFFFF, setMask := set, prio := if own 3 then f 5 1 % 8 else up.prio, fdom := f 6 1
    pkgMask := mask
    y0 := if own 0 then rect % 64 else up.y0, x0 := if own 0 then rect / 2 ^ 8 % 64 else up.x0
    y1 := if own 0 then rect / 2 ^ 16 % 64 else up.y1, x1 := if own 0 then rect / 2 ^ 24 % 64 else up.x1
    txBudget := if own 2 then f 0x14 4 else up.txBudget, memBudget := if own 1 then f 0x18 8 else up.memBudget
    handlers := if own 4 then BitVec.ofNat 64 (f 0x20 8) else up.handlers
    root := f 0x28 8, pasid := BitVec.ofNat 20 (f 0x30 4), ctxBuf := f 0x38 8, ctxLen := f 0x40 8
    dsBase := if own 0 then f 0x60 8 else up.dsBase, dsLen := if own 0 then f 0x68 8 else up.dsLen, key := k }

/-- Reserved fields of the block (R423). -/
def rcbReservedOk (m : Memory) (k : Nat) : Bool :=
  let f (off n : Nat) : Nat := memNat m (k + off) n
  f 4 1 < 32 && f 5 1 < 8 && f 7 1 = 0 && f 0x10 4 &&& 0xC0C0C0C0 = 0 && f 0x30 4 < 2 ^ 20 && f 0x34 4 = 0 && f 0x60 8 < 2 ^ 26 &&
    f 0x20 8 < 2 ^ 48 && f 0x70 0x90 = 0

/-- R38, and the die SRAM range of a child (R424). -/
def withinParent (b up : Rcb) : Bool :=
  b.pkgMask &&& ~~~up.pkgMask = 0#64 && up.y0 ≤ b.y0 && up.x0 ≤ b.x0 && b.y1 ≤ up.y1 && b.x1 ≤ up.x1 && b.txBudget ≤ up.txBudget &&
    b.memBudget ≤ up.memBudget && (b.dsLen = 0 || (up.dsBase ≤ b.dsBase && b.dsBase + b.dsLen ≤ up.dsBase + up.dsLen))

/-- The conditions of R424 on the effective block. -/
def rcbOk (s : State) (b : Rcb) (parent : Option Rcb) (levels : Nat) : Bool :=
  levels ≤ 8 && b.txBudget ≤ 64512 && b.y0 ≤ b.y1 && b.x0 ≤ b.x1 && b.dsBase % 65536 = 0 && b.dsLen % 65536 = 0 &&
    b.dsBase + b.dsLen ≤ 0x3800000 && b.fdom < levels && b.pkgMask ≠ 0#64 && b.pkgMask.toNat < 2 ^ (s.domLast.toNat + 1) &&
    b.root % 8192 = 0 && b.root + 8192 ≤ Config.hbmBytes &&
    (let clusters := (maskPkgs b.pkgMask).length * ((b.y1 + 1 - b.y0) * (b.x1 + 1 - b.x0))
     clusters * (16 * (272 * 1024) + 512 * 1024) ≤ b.ctxLen) &&
    b.ctxBuf % 4096 = 0 &&
    (match parent with
     | none => b.setMask = 0x1F#5
     | some up => withinParent b up)

/-- No other region has the block's `RCBID` in a package of its mask (R423). -/
def idFree (s : State) (b : Rcb) (old : Option Nat) : Bool :=
  s.regions.all fun r => some r.rcb.id = old || r.rcb.id % 65536 ≠ b.id % 65536 || (r.rcb.pkgMask &&& b.pkgMask) = 0#64

/-- How many levels a region lies below another. -/
def depthBelow (s : State) (root id : Nat) : Nat := (ancestors s 9 id).findIdx fun a => a = root

/-- A block registered again (R424): the region is idle, its parent is none of its own subtree, and below it the tree still keeps the 8
levels, R38 and `FDOM`. -/
def againOk (s : State) (b : Rcb) (levels : Nat) (r : Region) : Bool :=
  !hasLaunch r && (b.parent = 0xFFFF || !(subtree s r.rcb.id).contains b.parent) &&
    (s.regions.all fun q => !(subtree s r.rcb.id).contains q.rcb.id || q.rcb.id = r.rcb.id ||
      (levels + depthBelow s r.rcb.id q.rcb.id ≤ 8 && q.rcb.fdom < levels + depthBelow s r.rcb.id q.rcb.id)) &&
    s.regions.all fun q => q.rcb.parent = 0xFFFF || q.rcb.parent ≠ r.rcb.id || withinParent q.rcb b

/-- The block registered, in place of what it held before: its children follow it to its number, and it keeps what `BRKEN` last set (R432). -/
def register (s : State) (b : Rcb) (old : Option Nat) : State :=
  let rest := (s.regions.filter fun r => some r.rcb.id ≠ old).map fun r =>
    if some r.rcb.parent = old && r.rcb.parent ≠ 0xFFFF then { r with rcb := { r.rcb with parent := b.id } } else r
  let idle := { Region.idle b with breakpoints := ((old.bind (getRegion? s)).map (·.breakpoints)).getD false }
  setRegionState ((maskPkgs b.pkgMask).foldl (fun s p => reusePasid s p b.pasid) { s with regions := rest ++ [idle] }) b.id .idle

/-- `REGION` (R424). -/
def execRegion (p : Packet) (s : State) : Out State :=
  issuePacket p (cpOk p.d3 && zeroArgs [p.d4, p.d5, p.d6]) (fun s =>
    let k := (cpKey? p.pkg p.d3).getD 0
    let pid := memNat s.mem (k + 2) 2
    let parent := (parentOf s p.pkg pid).map (·.rcb)
    let b := readRcb s.mem k parent
    let levels := match parent with
      | none => 1
      | some up => (ancestors s 9 up.id).length + 1
    let old := findRcb s p.pkg p.d3
    if fieldOf p.d3 63 60 = 4 && p.d3.toNat % 256 = 0 && rcbReservedOk s.mem k && (pid = 0xFFFF || parent.isSome) &&
        rcbOk s b parent levels && idFree s b (old.map (·.rcb.id)) && (old.all (againOk s b levels)) then
      finishPacket p statOk 0#64 (register s b (old.map (·.rcb.id)))
    else finishPacket p statRegion 0#64 s) s

/-! ### `HOSTTX` (R422) -/

/-- A state in which the named core is the region's, with the landing area it has now: what the descriptor's check looks at. -/
def asHeld (s : State) (r : Region) (core : Nat) : State :=
  let x := (mapGet? r.spill core).getD (getCore s core)
  setCore s core { x with region := some r.rcb.id, landInForce := x.landBase }

/-- This package has observed C close of the superstep (R21), if only before a rollback (R448). -/
def hosttxLate (r : Region) (pkg : Nat) (superstep : Word) : Bool := superstep.toNat < (mapGet? r.observed pkg).getD 0

/-- The share of the front-end batch that is taken (R422): by host transactions, and by the host restarts known so far, which belong to
this superstep in its C phase and to the next one after it. -/
def frontShare (r : Region) (pkg : Nat) (superstep : Word) : Nat :=
  (r.hostTxns.countP fun h => h.pkg = pkg && h.superstep = superstep) +
    (if superstep.toNat = r.superstep.toNat + (if r.phase = .c then 0 else 1) then r.restarts.countP fun t => t.host && pkgOfCore t.core = pkg
     else 0)

/-- `HOSTTX` (R422). -/
def execHosttx (p : Packet) (s : State) : Out State :=
  issuePacket p (cpOk p.d3 && cpOk p.d4 && fieldOf p.d5 31 16 = 0 && p.d6 = 0#64) (fun s =>
    let core := p.pkg * 65536 + fieldOf p.d5 15 0
    let superstep := BitVec.ofNat 64 (fieldOf p.d5 63 32)
    match findRcb s p.pkg p.d3 with
    | none => finishPacket p statRegion 0#64 s
    | some r =>
      match r.launch with
      | none => finishPacket p statRegion 0#64 s
      | some l =>
        if !hasLaunch r || !inCoreSet r.rcb core || r.abortedPkgs.contains p.pkg then finishPacket p statRegion 0#64 s
        else
          let bs := readBytes s.mem ((cpKey? p.pkg p.d4).getD 0) 328
          let routine := (coreEntry l.image l.variants r.rcb core).1
          match checkDescriptor (asHeld s r core) core routine true bs with
          | some sub => finishPacket p statDescriptor (BitVec.ofNat 64 sub) s
          | none =>
            if hosttxLate r p.pkg superstep || 1024 ≤ frontShare r p.pkg superstep then finishPacket p statLate 0#64 s
            else
              let h : HostTxn :=
                { pkg := p.pkg, q := p.q, num := p.num, comp := pktComp p, irq := pktIrq p, superstep := superstep, core := core
                  desc := parseDesc bs, silent := false }
              modRegion s r.rcb.id fun r => { r with hostTxns := r.hostTxns ++ [h] }) s

/-! ### `KILL`, `SUSPEND`, `RESUME`, `INVAL` (R414, R427) -/

/-- The launches of a subtree. -/
def subtreeLaunches (s : State) (root : Nat) : List Region := (s.regions.filter fun r => (subtree s root).contains r.rcb.id && hasLaunch r)

/-- The packet completes once what it waits for has come about (R414). -/
def waitFor (p : Packet) (regions : List Nat) (what : WaitFor) (s : State) : State :=
  finishWaits { s with waits := s.waits ++
    [{ pkg := p.pkg, q := p.q, num := p.num, comp := pktComp p, irq := pktIrq p, regions := regions, what := what }] }

def regionPacket (p : Packet) (f : Region → State → State) (s : State) : Out State :=
  issuePacket p (cpOk p.d3 && zeroArgs [p.d4, p.d5, p.d6]) (fun s =>
    match findRcb s p.pkg p.d3 with
    | none => finishPacket p statRegion 0#64 s
    | some r => f r s) s

/-- `KILL` (R416, R427): each region of the subtree is killed at its next point of R167. -/
def execKill (p : Packet) (s : State) : Out State :=
  regionPacket p (fun r s =>
    let ids := (subtreeLaunches s r.rcb.id).map fun q => q.rcb.id
    let s1 := ids.foldl (fun s id => modRegion s id fun q => { q with killReq := true }) s
    waitFor p ids .stopped (ids.foldl killAtPoint s1)) s

/-- `SUSPEND` (R427): every running region of the subtree is pre-empted, and stays so until `RESUME`. -/
def execSuspend (p : Packet) (s : State) : Out State :=
  regionPacket p (fun r s =>
    let ls := subtreeLaunches s r.rcb.id
    if ls.any fun q => q.state = .running && recoveryOf q then finishPacket p statRegion 0#64 s
    else
      let ids := (ls.filter fun q => q.state = .running || q.state = .suspended).map fun q => q.rcb.id
      let s1 := ids.foldl (fun s id => modRegion s id fun q => { q with suspendReq := true, preemptReq := decide (q.state = .running) }) s
      waitFor p ids .released s1) s

/-- `RESUME` (R414, R427): the subtree is eligible again, and the packet completes once none of it is pre-empted. -/
def execResume (p : Packet) (s : State) : Out State :=
  regionPacket p (fun r s =>
    let ids := (subtreeLaunches s r.rcb.id).map fun q => q.rcb.id
    waitFor p ids .resumed (ids.foldl (fun s id => modRegion s id fun q => { q with suspendReq := false }) s)) s

/-- `INVAL` (R414, R327): applied at the region's next barrier exit, or at once if it is not running. -/
def execInval (p : Packet) (s : State) : Out State :=
  issuePacket p (cpOk p.d3 && p.d4.toNat % 65536 = 0 && p.d5.toNat % 65536 = 0 && p.d6 = 0#64) (fun s =>
    match findRcb s p.pkg p.d3 with
    | none => finishPacket p statRegion 0#64 s
    | some r =>
      if r.state = .running then
        modRegion s r.rcb.id fun r => { r with invals := r.invals ++ [(p.pkg, p.q, p.d4.toNat, p.num, pktComp p, pktIrq p)] }
      else finishPacket p statOk 0#64 s) s

/-! ### `EVICT`, `SIGNAL`, `DESTROY`, `INDIRECT` (R414, R420) -/

/-- `EVICT` (R190, R414). -/
def execEvict (p : Packet) (s : State) : Out State :=
  issuePacket p ((p.d3 = 0#64 || cpOk p.d3) && zeroArgs [p.d4, p.d5, p.d6]) (fun s =>
    let digest := if p.d3 = 0#64 then [] else readBytes s.mem ((cpKey? p.pkg p.d3).getD 0) 48
    let gone (e : CacheEntry) : Bool := e.pins.isEmpty && (p.d3 = 0#64 || e.digest = digest)
    finishPacket p statOk 0#64 (modPackage s p.pkg fun k => { k with cache := k.cache.filter fun e => !gone e })) s

/-- `SIGNAL` (R414): the value written as 8 bytes. -/
def execSignal (p : Packet) (s : State) : Out State :=
  issuePacket p (cpOk p.d3 && p.d3.toNat % 8 = 0 && zeroArgs [p.d5, p.d6]) (fun s =>
    finishPacket p statOk 0#64 { s with mem := memPut s.mem ((cpKey? p.pkg p.d3).getD 0) 8 p.d4.toNat }) s

/-- `DESTROY` (R414); malformed inside an indirect buffer (R420). -/
def execDestroy (p : Packet) (s : State) : Out State :=
  issuePacket p (!p.indirect && zeroArgs [p.d3, p.d4, p.d5, p.d6]) (fun s =>
    finishPacket p statOk 0#64 (stopQueue s p.pkg p.q 0x10#8)) s

/-- `INDIRECT` (R420): the buffer's packets issue next; malformed inside an indirect buffer. -/
def execIndirect (p : Packet) (s : State) : Out State :=
  issuePacket p (!p.indirect && cpOk p.d3 && p.d3.toNat % 64 = 0 && p.d4.toNat % 64 = 0 && p.d4.toNat ≤ 2 ^ 20 && zeroArgs [p.d5, p.d6]) (fun s =>
    if p.d4 = 0#64 then finishPacket p statOk 0#64 s
    else
      modQueue s p.pkg p.q fun qu =>
        { qu with
          outstanding := qu.outstanding.erase p.num
          indirect := some { num := p.num, comp := pktComp p, irq := pktIrq p, next := p.d3, left := p.d4.toNat } }) s

/-! ### Issue (R409, R415, R420) -/

/-- The packet of 64 bytes; inside an indirect buffer `STAMP` is ignored (R413). -/
def readPacket (m : Memory) (k pkg q : Nat) (num : BitVec 32) (indirect : Bool) : Packet :=
  let d (i : Nat) : Word := BitVec.ofNat 64 (memNat m (k + 8 * i) 8)
  { pkg := pkg, q := q, num := num, indirect := indirect, d0 := d 0, d1 := d 1, d2 := d 2, d3 := d 3, d4 := d 4, d5 := d 5, d6 := d 6
    d7 := if indirect then d 7 &&& 0xFFFFFFFF00000000#64 else d 7 }

/-- A packet issues by its type (R414); reserved types are malformed. -/
def runPacket (p : Packet) (s : State) : Out State :=
  match pktType p with
  | 0x00 => execNop p s
  | 0x01 => execLaunch p s
  | 0x02 => execHosttx p s
  | 0x03 => execIndirect p s
  | 0x04 => execRegion p s
  | 0x05 => execKill p s
  | 0x06 => execSuspend p s
  | 0x07 => execResume p s
  | 0x08 => execInval p s
  | 0x09 => execEvict p s
  | 0x0A => execSignal p s
  | 0x0B => execDestroy p s
  | _ => issuePacket p false id s

/-- Every earlier packet of the queue has completed, where the packet waits for that (R413, R414). -/
def mayIssue (q : Queue) (p : Packet) : Bool := !(pktWait p || pktType p = 0x0A) || q.outstanding.isEmpty

/-! ### What a packet needs of host memory (R408; log entry 34) -/

/-- The completion record and the buffer list. -/
def formNeeds (p : Packet) : List CpNeed :=
  (if pktComp p = 0#64 then [] else [(pktComp p, 32, true)]) ++ [(p.d2, 16 * pktNbuf p, false)]

/-- How many bytes of an image are read: the header, and with a `LENGTH` that R67 admits, the whole. -/
def imageBytes (m : Memory) (pkg : Nat) (a : Word) : Nat :=
  match cpKey? pkg a with
  | none => 0
  | some k => if imgLength m k = imgSigoff m k + 16608 then max 256 (imgLength m k) else 256

/-- What a packet of each type reads and writes. -/
def typeNeeds (m : Memory) (p : Packet) : List CpNeed :=
  match pktType p with
  | 0x01 => [(p.d3, imageBytes m p.pkg p.d3, false), (p.d6, 16 * launchNovr p, false)]
  | 0x02 => [(p.d4, 328, false)]
  | 0x03 => [(p.d3, p.d4.toNat, false)]
  | 0x09 => [(p.d3, 48, false)]
  | 0x0A => [(p.d3, 8, true)]
  | _ => []

/-- Everything a packet needs of host memory. -/
def packetNeeds (m : Memory) (p : Packet) : List CpNeed := formNeeds p ++ (if packetFormOk m p then typeNeeds m p else [])

/-! ### Fetching and issuing (R409, R415, R420) -/

/-- What a queue does next. -/
inductive Fetched where
  /-- Nothing: it is empty or stopped, or its stamp is not valid yet. -/
  | none
  /-- It asks the host for a page. -/
  | ask (page : Nat)
  /-- The line of its indirect buffer cannot be read. -/
  | broken
  /-- It writes the mirror's zero, which was waiting for the host. -/
  | mirror
  /-- It handles a packet, read once after its stamp. -/
  | packet (p : Packet)
  deriving DecidableEq, Repr

/-- The 64 bytes at an address. -/
def fetchLine (s : State) (pkg q : Nat) (a : Word) (num : BitVec 32) (indirect : Bool) : Fetched :=
  let qu := getQueue s pkg q
  match cpKey? pkg a, cpMissing (getPackage s pkg) (qPasid qu) [(a, 64, false)] with
  | none, _ => if indirect then .broken else .none
  | _, some g => .ask g
  | some k, none =>
    let p := readPacket s.mem k pkg q num indirect
    if cpRefused (getPackage s pkg) (qPasid qu) [(a, 64, false)] then (if indirect then .broken else .none)
    else if indirect || fieldOf p.d7 31 0 = (num + 1#32).toNat then .packet p
    else .none

/-- The next packet of a queue: the one it holds, the next line of its indirect buffer, or the slot at `HEAD` (R409, R420). -/
def fetchPacket (s : State) (pkg q : Nat) : Fetched :=
  let qu := getQueue s pkg q
  if !qEn qu || !(getPackage s pkg).enabled || qTorn (getPackage s pkg) qu then .none
  else if qu.mirrorDue then
    match cpMissing (getPackage s pkg) (qPasid qu) (mirrorNeed qu) with
    | some page => .ask page
    | none => .mirror
  else
    match qu.held, qu.indirect with
    | some p, _ => .packet p
    | none, some b => fetchLine s pkg q b.next b.num true
    | none, none =>
      if qu.stopping || qu.head = qu.tail then .none
      else fetchLine s pkg q (qu.base + BitVec.ofNat 64 (64 * (qu.head.toNat % qSlots qu))) qu.head false

/-- The `INDIRECT` completes (R414), once the page of its record is translated (R408): until then it is the queue's latest outstanding packet,
whose number its own packets share. -/
def endIndirect (s : State) (pkg q status : Nat) : State :=
  match (getQueue s pkg q).indirect with
  | none => s
  | some b =>
    completePacket (modQueue s pkg q fun qu => { qu with indirect := none, outstanding := b.num :: qu.outstanding }) pkg q b.num b.comp b.irq status 0#64

/-- A line of an indirect buffer is behind; the last one completes the `INDIRECT` (R414, R420). -/
def stepIndirect (s : State) (pkg q : Nat) : State :=
  match (getQueue s pkg q).indirect with
  | none => s
  | some b =>
    if b.left ≤ 64 then endIndirect s pkg q statOk
    else modQueue s pkg q fun qu => { qu with indirect := some { b with next := b.next + 64#64, left := b.left - 64 } }

/-- A packet whose host addresses are answered for issues: one that the host refuses an access is malformed. -/
def issueHeld (p : Packet) (s : State) : Out State :=
  let pk := getPackage s p.pkg
  let pasid := qPasid (getQueue s p.pkg p.q)
  if !cpRefused pk pasid (packetNeeds s.mem p) then runPacket p s
  else issuePacket (if cpRefused pk pasid [(pktComp p, 32, true)] then { p with d1 := 0 } else p) false id s

/-- What follows an issue: the next line, or `HEAD` and its mirror; then a queue that was to stop stops (R407, R409). -/
def afterIssued (p : Packet) (s : State) : State :=
  let s1 := if p.indirect then stepIndirect s p.pkg p.q
    else
      let s2 := modQueue s p.pkg p.q fun qu => { qu with head := qu.head + 1#32 }
      writeMirror s2 p.pkg (getQueue s2 p.pkg p.q)
  let qu := getQueue s1 p.pkg p.q
  if qu.stopping && qu.indirect.isNone then stopQueue s1 p.pkg p.q 0x00#8 else s1

/-- `STAMP_RECHECK` (R409): the stamp is read, and where it is valid the packet is read once, waits for what it has to wait for, and
issues. -/
def execStampRecheck (pkg q : Nat) (s : State) : Out State :=
  let qu := getQueue s pkg q
  match fetchPacket s pkg q with
  | .none => .next s
  | .ask page => .next (askPage s pkg (qPasid qu) page)
  | .broken => .next (endIndirect s pkg q statMalformed)
  | .mirror =>
    let q1 := { qu with mirrorDue := false }
    .next (writeMirror (modQueue s pkg q fun _ => q1) pkg q1)
  | .packet p =>
    let s1 := modQueue s pkg q fun qu => { qu with held := some p }
    if !mayIssue qu p then .next s1
    else
      match cpMissing (getPackage s pkg) (qPasid qu) (packetNeeds s.mem p ++ if p.indirect then [] else mirrorNeed qu) with
      | some page => .next (askPage s1 pkg (qPasid qu) page)
      | none =>
        match issueHeld p (modQueue s pkg q fun qu => { qu with held := none }) with
        | .next s2 => .next (afterIssued p s2)
        | .fault f => .fault f
        | .refused r => .refused r

/-! ### PASID teardown (R430) -/

/-- A packet of a torn-down queue that has not completed: its record holds `QDESTROYED` where it is in device memory, and its interrupt
follows the record (R413, R430). -/
def destroyRecord (s : State) (pkg q : Nat) (num : BitVec 32) (comp : Word) (irq : Bool) : State :=
  if comp = 0#64 || fieldOf comp 63 60 = 7 then s else writeRecord s pkg q num comp irq statQDestroyed 0#64

/-- The queue is one of those torn down. -/
def tornQueue (pkg : Nat) (qs : List Nat) (p q : Nat) : Bool := p = pkg && qs.contains q

/-- A wait of a packet, and not of a notice. -/
def isPacketWait (w : PacketWait) : Bool :=
  match w.what with
  | .noticed _ _ => false
  | _ => true

/-- Every packet of the queues that is past its issue point and has not completed: number, queue, record and interrupt. -/
def unfinished (s : State) (pkg : Nat) (qs : List Nat) : List (BitVec 32 × Nat × Word × Bool) :=
  (s.regions.flatMap fun r =>
    ((r.launch.toList.filter fun l => tornQueue pkg qs l.pkg l.q).map fun l => (l.num, l.q, l.comp, l.irq)) ++
      ((r.hostTxns.filter fun h => tornQueue pkg qs h.pkg h.q && !h.silent).map fun h => (h.num, h.q, h.comp, h.irq)) ++
      ((r.invals.filter fun e => tornQueue pkg qs e.1 e.2.1).map fun e => (e.2.2.2.1, e.2.1, e.2.2.2.2.1, e.2.2.2.2.2))) ++
    ((s.waits.filter fun w => tornQueue pkg qs w.pkg w.q && isPacketWait w).map fun w => (w.num, w.q, w.comp, w.irq)) ++
    qs.flatMap fun q => ((getQueue s pkg q).indirect.toList).map fun b => (b.num, q, b.comp, b.irq)

/-- Their completions are discarded: the packets run on, and nothing more is written for them. -/
def muteQueues (s : State) (pkg : Nat) (qs : List Nat) : State :=
  let torn := tornQueue pkg qs
  { s with
    regions := s.regions.map fun r =>
      { r with
        launch := r.launch.map fun l => if torn l.pkg l.q then { l with comp := 0, irq := false } else l
        hostTxns := r.hostTxns.map fun h => if torn h.pkg h.q then { h with comp := 0, irq := false } else h
        invals := r.invals.map fun e => if torn e.1 e.2.1 then (e.1, e.2.1, e.2.2.1, e.2.2.2.1, 0#64, false) else e }
    waits := s.waits.map fun w => if torn w.pkg w.q && isPacketWait w then { w with comp := 0, irq := false } else w }

/-- A transaction of the killed part: its requests, and the permits it holds, go. -/
def dropTxn (pkg : Nat) (t : Txn) : Txn :=
  if t.pkg = pkg then { t with status := .done, holds := false, reqs := t.reqs.map fun q => { q with status := .removed } } else t

/-- What the rest of the region keeps when a package's part is killed (R333, R334): what it sent is forgone, and what was sent to it is
discarded and acknowledged. -/
def dropPart (pkg : Nat) (r : Region) : Region :=
  { r with
    abortedPkgs := dedup (pkg :: r.abortedPkgs), abortDue := true, txns := r.txns.map (dropTxn pkg)
    restarts := r.restarts.filter fun e => pkgOfCore e.core ≠ pkg, hostTxns := r.hostTxns.filter fun h => h.pkg ≠ pkg
    atoms := r.atoms.filter fun a => pkgOfCore a.core ≠ pkg, spill := r.spill.filter fun e => pkgOfCore e.1 ≠ pkg
    xfers := (r.xfers.filter fun t => pkgOfCore t.src ≠ pkg).map fun t =>
      if fieldOf t.dst 63 60 = 3 && pkgOfCore (destCore t.dst) = pkg then { t with status := .done } else t }

/-- A contribution of the killed part that is staged and not applied is discarded with it, and its `REDUCE` lacks the stage again (R333,
R334). -/
def unstage (pkg : Nat) (s : State) (t : Xfer) : State :=
  match t.red with
  | none => s
  | some (cid, stage) =>
    if pkgOfCore t.src ≠ pkg || t.status ≠ .arrived then s
    else
      modCore s (destCore t.dst) fun x =>
        { x with plan := x.plan.map fun p =>
            if isReduce p && entCid p = cid then { p with staged := p.staged.filter fun e => e.1 ≠ stage } else p }

/-- The part of a region in one package killed (R334): its host transactions complete as killed, and C close, if it waited for that package
alone, comes about. -/
def killPart (pkg : Nat) (s : State) (r : Region) : State :=
  let id := r.rcb.id
  let s1 := spoilAll s (brokenWrites s id fun p => p = pkg)
  let gone := r.hostTxns.filter fun h => h.pkg = pkg && !h.silent
  let s2 := gone.foldl (fun s h => completePacket s h.pkg h.q h.num h.comp h.irq statKilled (killDetail 0 0x3FFFFF r.superstep.toNat)) s1
  let s3 := ((heldCores s id).filter fun c => pkgOfCore c = pkg).foldl (fun s c => modCore s c releaseCore) s2
  closeC (modRegion (r.xfers.foldl (unstage pkg) s3) id (dropPart pkg)) id

/-- `PASID_TEARDOWN` (R430, R334), with the handshake last. -/
def execPasidTeardown (pkg : Nat) (pasid : BitVec 20) (s : State) : Out State :=
  let s1 := modPackage s pkg fun p =>
    { p with
      torn := if p.torn.contains pasid then p.torn else p.torn ++ [pasid]
      ats := p.ats.filter fun e => e.pasid ≠ pasid, pri := p.pri.filter fun e => e.1 ≠ pasid }
  let qs := (List.range 256).filter fun q => qPasid (getQueue s1 pkg q) = pasid
  let s2 := muteQueues ((unfinished s1 pkg qs).foldl (fun s e => destroyRecord s pkg e.2.1 e.1 e.2.2.1 e.2.2.2) s1) pkg qs
  let hit := s2.regions.filter fun r => hasLaunch r && r.rcb.pasid = pasid && r.rcb.pkgMask.getLsbD pkg && !r.abortedPkgs.contains pkg
  let spans (r : Region) : Bool := (r.state = .running || r.state = .suspended) && 1 < (livePkgs r).length
  let s3 := (hit.filter spans).foldl (killPart pkg) s2
  let s4 := killEach statKilled ((hit.filter fun r => !spans r).map fun r => r.rcb.id) s3
  let s5 := qs.foldl (fun s q => stopQueue s pkg q 0x10#8) s4
  .next (modPackage (finishWaits s5) pkg fun p => { p with handshakes := p.handshakes ++ [pasid] })

end Sys2Proof.Machine
end

