-- ==== Sys2Proof/Machine/Copy.lean ====
section
/-! DEFINITION. The copy engine (R273 to R292): its instructions at issue, and the commands it executes. -/

namespace Sys2Proof.Machine

/-- Late-copy subcodes (R288); die SRAM outside the region's range is 0x01 (R34). -/
def cpySub : AccErr → Nat
  | .bounds => 0x02
  | .misaligned => 0x03
  | .unmapped => 0x06
  | .refused => 0x07
  | .host => 0x09
  | _ => 0x01

/-- `imm5` of a copy instruction (R273). -/
def copyImm : Instr → Nat
  | .cpyd _ _ _ n => n.toNat
  | .cpy _ _ _ g e | .cpyg _ _ _ g e | .cpys _ _ _ g e | .cpyf _ _ _ g e | .cpyho _ _ _ g e => 4 * g.toNat + e.toNat
  | _ => 0

/-- The copy command of an `fn` and `imm5` (R292): none where the word so formed is illegal. -/
def copyOf (fn m : Nat) : Option Instr :=
  let g := BitVec.ofNat 1 (m / 4)
  let e := BitVec.ofNat 2 m
  match fn with
  | 1 => some (.cpyd 0 0 0 (BitVec.ofNat 5 m))
  | 5 => if m = 0 then some (.cpyr 0 0 0) else none
  | _ =>
    if 8 ≤ m then none
    else
      match fn with
      | 0 => some (.cpy 0 0 0 g e)
      | 2 => some (.cpyg 0 0 0 g e)
      | 3 => some (.cpys 0 0 0 g e)
      | 4 => some (.cpyf 0 0 0 g e)
      | 6 => some (.cpyho 0 0 0 g e)
      | _ => none

/-! ### A copy command's operands (R276, R277) -/

/-- Bits [hi:lo] of the recode control. -/
def recode (c : Cmd) (hi lo : Nat) : Nat := fieldOf c.eb[14] hi lo

def floatWidth (f : Nat) : Nat :=
  match f with
  | 0x8 => 4
  | 0x9 => 2
  | _ => 1

def recodeBad (ctl : Word) : Bool :=
  fieldOf ctl 63 48 ≠ 0 || fieldOf ctl 15 12 ≠ 0 || ctl.getLsbD 7 || ctl.getLsbD 3 || fieldOf ctl 11 8 < 0x8 ||
    0xD < fieldOf ctl 11 8

/-- Alignment of stippled codes (R202). -/
def blockBytes (fmt : Nat) : Nat := if fmt = 0xC then 16 else 32

/-- The views of a `CPYR`: destination, and source where it is stippled, with their descriptor addresses. -/
structure CopyViews where
  dst : ViewDesc
  dstAt : Word
  src : Option (ViewDesc × Word)
  deriving DecidableEq, Repr

/-- A fault or park of a copy command, with its iteration vector. -/
abbrev CopyStop := Vector Nat 5 × EngErr

def copyFail (v : Vector Nat 5) (sub : Nat) (faddr : Word) (acc : Nat) : CopyStop := (v, .late sub faddr acc)

/-- A stop with the state the command's reads have left (R212). -/
abbrev Cpy (α : Type) := Except (CopyStop × State) α

/-- Where a command's view register points. -/
def viewAt (c : Cmd) (k : Nat) : Word := BitVec.ofNat 64 (descAddr (svOf c k))

/-- A descriptor read by the command: of the format asked for, or of its own where none is. An invalid one of either view is reported as a
read, `ACC` 5: the model's choice (log entry 17). -/
def copyView (core : Nat) (c : Cmd) (k : Nat) (fmt : Option Nat) (s : State) : Cpy ((ViewDesc × List Byte) × State) :=
  let da := viewAt c k
  match cmdRead cpySub core c da 128 128 s with
  | .error _ => .error (copyFail noStart 0x04 da 5, s)
  | .ok (bs, s1) =>
    match parseView bs (BitVec.ofNat 4 (fmt.getD (bytesNat bs 8 1 % 16))) with
    | none => .error (copyFail noStart 0x04 da 5, s1)
    | some d => .ok ((d, bs), s1)

/-- The views of the descriptors a `CPYR` has read. -/
def viewsOf (c : Cmd) (l : List (List Byte)) : Option CopyViews :=
  let view (i : Nat) : Option ViewDesc := (l[i]?).bind fun bs => parseView bs (BitVec.ofNat 4 (bytesNat bs 8 1 % 16))
  let at_ (lo : Nat) : Word := viewAt c (recode c (lo + 2) lo)
  (view 0).map fun d => { dst := d, dstAt := at_ 4, src := (view 1).map fun g => (g, at_ 0) }

/-- The view and coverage checks of a `CPYR`, and the alignment of its codes (R287): the descriptors it has read. An INT4X destination covers
view positions only (R217). Which of several failing checks is reported is the model's choice (log entry 85), and so is `ACC`: 5 for an
invalid descriptor, which is read, and 6 for the destination's coverage (log entry 17). -/
def precheckRecode (core : Nat) (c : Cmd) (s : State) : Cpy (List (List Byte) × State) :=
  let sf := recode c 11 8
  if recodeBad c.eb[14] then .error (copyFail noStart 0x05 0 7, s)
  else do
    let ((d, db), s1) ← copyView core c (recode c 6 4) none s
    let (src, s2) ← if isStippled sf then do
        let (x, s2) ← copyView core c (recode c 2 0) (some sf) s1
        pure ([x.2], s2)
      else pure ([], s1)
    let q4 := d.fmt = 0xC#4
    if q4 && (d.skip % 8 ≠ 0 || recode c 47 16 % 8 ≠ 0 || viewSize d < recode c 47 16) then .error (copyFail noStart 0x04 (viewAt c (recode c 6 4)) 6, s2)
    else if c.a.toNat % blockBytes d.fmt.toNat ≠ 0 then .error (copyFail noStart 0x03 c.a 6, s2)
    else if c.b.toNat % (if isStippled sf then blockBytes sf else floatWidth sf) ≠ 0 then .error (copyFail noStart 0x03 c.b 5, s2)
    else if c.resumed && (c.start[0] % (if q4 then 8 else 1) ≠ 0 || recode c 47 16 ≤ c.start[0]) then
      .error (copyFail noStart 0x05 0 7, s2)
    else pure (db :: src, s2)

/-- `Precheck` (R287) but for what concerns `CPYR` alone. Which of several failing checks is reported is the model's choice (log entry 85). -/
def precheckGeometry (c : Cmd) : Except CopyStop Unit :=
  let fn := copyFn c.instr
  let (e, lv) := copyShape c.instr c.eb
  if fn = 6 && fieldOf c.c 31 0 = 0 then .error (copyFail noStart 0x05 0 7)
  else if c.a.toNat % e ≠ 0 then .error (copyFail noStart 0x03 c.a 6)
  else if fn ≠ 4 && c.b.toNat % e ≠ 0 then .error (copyFail noStart 0x03 c.b 5)
  else if (fn = 2 || fn = 3) && (1 < fieldOf c.eb[15] 63 60 || c.eb[15].toNat % 4 ≠ 0) then .error (copyFail noStart 0x05 0 7)
  else if (fn = 2 || fn = 3) && (lv.drop 2).any fun l => l.cnt ≠ 1 then .error (copyFail noStart 0x05 0 7)
  else if c.resumed && (lv.zip c.start.toList).any fun p => p.1.cnt ≤ p.2 then .error (copyFail noStart 0x05 0 7)
  else .ok ()

/-! ### Elements (R280, R281) -/

/-- A sum of strides over an iteration vector. -/
def strideSum (st : List Int) (v : List Nat) : Int := ((st.zip v).map fun p => p.1 * (p.2 : Int)).sum

/-- The next iteration vector, level 0 fastest. -/
def nextVec : List Nat → List Nat → Option (List Nat)
  | n :: ns, i :: is => if i + 1 < n then some ((i + 1) :: is) else (nextVec ns is).map fun r => 0 :: r
  | _, _ => none

/-- The place of a vector in the iteration order: the sub-order of its deferred stores (R286). -/
def vecPlace : List Nat → List Nat → Nat
  | n :: ns, i :: is => i + n * vecPlace ns is
  | _, _ => 0

def vec5 (l : List Nat) : Vector Nat 5 := Vector.ofFn fun i => l.getD i 0

/-- One element moved: its load, if any, then its store; a failure leaves nothing done. -/
def moveElem (core : Nat) (c : Cmd) (e k : Nat) (src : Option Word) (fill : List Byte) (dst : Word) (s : State) : Eng State := do
  let (x, s1) ← match src with
    | some ea => cmdRead cpySub core c ea e e s
    | none => .ok (fill, s)
  cmdWrite cpySub 0x08 core c k dst x e s1

/-- One element of a geometry command, and the index its row goes on with (R280, R281). -/
def geometryElem (core : Nat) (c : Cmd) (e : Nat) (lv : List Level) (v : List Nat) (index : Option Nat) (s : State) :
    Except CopyStop (Option Nat × State) :=
  let fn := copyFn c.instr
  let ds := lv.map (·.dstr)
  let ss := lv.map (·.sstr)
  let place := vecPlace (lv.map (·.cnt)) v
  let at_ (base : Word) (st : List Int) (w : List Nat) : Word := base + BitVec.ofInt 64 (e * strideSum st w)
  let go (src : Option Word) (fill : List Byte) (dst : Word) (s : State) (ix : Option Nat) : Except CopyStop (Option Nat × State) :=
    match moveElem core c e place src fill dst s with
    | .ok s1 => .ok (ix, s1)
    | .error x => .error (vec5 v, x.1)
  if fn = 2 || fn = 3 then
    let row := v.getD 1 0
    let withRow (x : Nat) := [v.getD 0 0, x]
    let begin_ : Except CopyStop (Nat × State) :=
      match (if v.getD 0 0 = 0 then none else index) with
      | some x => .ok (x, s)
      | none =>
        match cmdRead cpySub core c (c.eb[15] + BitVec.ofNat 64 (4 * row)) 4 4 s with
        | .ok (bs, s1) => .ok (leNat bs, s1)
        | .error x => .error (vec5 (0 :: v.drop 1), x.1)
    match begin_ with
    | .error x => .error x
    | .ok (x, s1) =>
      if fn = 2 then
        if x = 0xFFFFFFFF then go none (leBytes e 0) (at_ c.a ds (withRow row)) s1 (some x)
        else go (some (at_ c.b ss (withRow x))) [] (at_ c.a ds (withRow row)) s1 (some x)
      else if x = 0xFFFFFFFF then .ok (some x, s1)
      else go (some (at_ c.b ss (withRow row))) [] (at_ c.a ds (withRow x)) s1 (some x)
  else
    go (if fn = 4 then none else some (at_ c.b ss v)) (leBytes e c.b.toNat) (at_ c.a ds v) s none

/-- A run of at most so many elements from a vector on; at a failure, or where the count is used up, the vector and the row's index, with
every earlier element done. -/
def geometryRun (core : Nat) (c : Cmd) (e : Nat) (lv : List Level) : Nat → List Nat → Option Nat → State → State × Option (CopyStop × Option Nat)
  | 0, v, ix, s => (s, some ((vec5 v, .stall), ix))
  | fuel + 1, v, ix, s =>
    match geometryElem core c e lv v ix s with
    | .error x => (s, some (x, ix))
    | .ok (ix1, s1) =>
      match nextVec (lv.map (·.cnt)) v with
      | none => (s1, none)
      | some v1 => geometryRun core c e lv fuel v1 ix1 s1

/-! ### Recoding (R282) -/

/-- The source value of a view position; a `ViewFault` of the source is reported as a read (log entry 17). -/
def recodeSource (core : Nat) (c : Cmd) (w : CopyViews) (p : Nat) (s : State) : Eng (Val × State) :=
  let sf := recode c 11 8
  match w.src with
  | none => do
    let n := floatWidth sf
    let (bs, s1) ← cmdRead cpySub core c (c.b + BitVec.ofNat 64 (p * n)) n n s
    pure (elemVal (BitVec.ofNat 4 sf) (leNat bs), s1)
  | some (d, da) =>
    match viewIndex d p with
    | none => .error (.late 0x04 da 5, s)
    | some n => do
      let st := d.skip + p
      let (eb, s1) ← cmdRead cpySub core c (c.eb[12] + BitVec.ofNat 64 (st / 32)) 1 1 s
      let (kind, s2) ← if sf = 0xD then do
          let (bs, s2) ← cmdRead cpySub core c (c.b + BitVec.ofNat 64 st) 1 1 s1
          pure (QKind.code (BitVec.ofNat 8 (leNat bs)).toInt, s2)
        else do
          let (bs, s2) ← cmdRead cpySub core c (c.b + BitVec.ofNat 64 (4 * (st / 8))) 4 4 s1
          pure ((decodeQ4X (leNat bs)).getD (st % 8) .zero, s2)
      pure (decodeStippled kind (leNat eb) d.seed n d.zp, s2)

/-- The source values of positions p to p + n − 1. -/
def recodeSources (core : Nat) (c : Cmd) (w : CopyViews) (p : Nat) : Nat → State → Eng (List Val × State)
  | 0, s => .ok ([], s)
  | n + 1, s => do
    let (vs, s1) ← recodeSources core c w p n s
    let (v, s2) ← recodeSource core c w (p + n) s1
    pure (vs ++ [v], s2)

/-- One unit recoded: its reads, then its single store. A position of a Q8 destination beyond its view faults as `ViewFault` does, at its own
unit, with `ACC` 6; the destination's index is taken after the source reads and before the scale's: the model's choices (log entries 17, 85). -/
def recodeUnit (core : Nat) (c : Cmd) (w : CopyViews) (unit p : Nat) (s : State) : Eng State := do
  let (ys, s1) ← recodeSources core c w p unit s
  let ns ← ((List.range unit).mapM fun i => viewIndex w.dst (p + i)).elim (.error (.late 0x04 w.dstAt 6, s1)) .ok
  let st := w.dst.skip + p
  let (eb, s2) ← cmdRead cpySub core c (c.eb[13] + BitVec.ofNat 64 (st / 32)) 1 1 s1
  if unit = 1 then
    let q := quantiseQ8 (ys.headD .nan) (leNat eb) w.dst.seed (ns.headD 0) w.dst.zp
    cmdWrite cpySub 0x08 core c p (c.a + BitVec.ofNat 64 st) (leBytes 1 q) 1 s2
  else
    let q := quantiseQ4X ys (leNat eb) w.dst.seed ns w.dst.zp
    cmdWrite cpySub 0x08 core c p (c.a + BitVec.ofNat 64 (4 * (st / 8))) (leBytes 4 q) 4 s2

def recodeRun (core : Nat) (c : Cmd) (w : CopyViews) (unit : Nat) : Nat → Nat → State → State × Option (CopyStop × Option Nat)
  | 0, p, s => (s, if recode c 47 16 ≤ p then none else some ((vec5 [p], .stall), none))
  | fuel + 1, p, s =>
    if recode c 47 16 ≤ p then (s, none)
    else
      match recodeUnit core c w unit p s with
      | .error x => (stoppedAt s x, some ((vec5 [p], x.1), none))
      | .ok s1 => recodeRun core c w unit fuel (p + unit) s1

/-! ### Execution (R279 to R291) -/

/-- The elements or units a run may perform: all that are left, or those of a slice (R283; log entry 10). -/
def sliceOf (s : State) (core all : Nat) : Nat := if (getCore s core).slice = 0 then all else min all (getCore s core).slice

/-- The start of a command: `Precheck`, once and before any other access, and the descriptors a `CPYR` reads (R212, R287). A command that
goes on after a park or a pre-emption has started. -/
def startCopy (core : Nat) (c : Cmd) (s : State) : Cpy (List (List Byte) × State) :=
  match c.read with
  | some l => .ok (l, s)
  | none =>
    if !completionOk s core c.guard c.c then .error (copyFail noStart 0x05 0 7, s)
    else if copyFn c.instr = 5 then precheckRecode core c s
    else
      match precheckGeometry c with
      | .error x => .error (x, s)
      | .ok _ => .ok ([], s)

/-- The command run from where it stands, with the descriptors it has read: the state reached, and the stop with its vector and row
index. -/
def runCopy (core : Nat) (c : Cmd) (l : List (List Byte)) (s : State) : State × Option (CopyStop × Option Nat) :=
  if copyFn c.instr = 5 then
    match viewsOf c l with
    | none => (s, none)
    | some w => recodeRun core c w (if w.dst.fmt = 0xC#4 then 8 else 1) (sliceOf s core (recode c 47 16)) c.start[0] s
  else
    let (e, lv) := copyShape c.instr c.eb
    if lv.any fun l => l.cnt = 0 then (s, none)
    else geometryRun core c e lv (sliceOf s core (prodOf (lv.map (·.cnt)))) c.start.toList c.index s

/-- `CE_STATE` as the engine writes it at a fault (R291). -/
def ceStateOf (c : Cmd) (sub : Nat) : Word :=
  BitVec.ofNat 64 (2 ^ 63 + sub % 256 * 2 ^ 48 + c.seq.toNat * 2 ^ 40 + copyFn c.instr * 2 ^ 36 + copyImm c.instr * 2 ^ 31 +
    c.strand % 4 * 2 ^ 29 + (if c.tphase then 2 ^ 28 else 0))

def ceSels : List Nat := [0x060, 0x061, 0x062, 0x063, 0x064, 0x065]

/-- The engine's writes at a fault (R289 to R291): accesses of the strand that issued the command (R274). -/
def recordFault (s : State) (core : Nat) (c : Cmd) (sub : Nat) (v : Vector Nat 5) : State :=
  let s1 := modCore s core fun x =>
    { x with ceIdx := v.map fun i => BitVec.ofNat 64 (i % 2 ^ 32), ceState := ceStateOf c sub }
  ceSels.foldl (fun s sel =>
    match noteRegAs s core c.strand sel true with
    | (s1, true) => spoilReg s1 core sel
    | (s1, false) => s1) s1

/-- The command at the head of the queue may run: its core works, and no earlier command has a descriptor to read where it writes. -/
def copyMayRun (s : State) (core : Nat) (c : Cmd) : Bool := enginesRun s core && keepsViews s core c (copyFoot s core c).writes

/-- The command has done its work: its completion write (R284, R285), or its fault with the vector it stopped at (R289). -/
def endCopy (s : State) (core : Nat) (c : Cmd) (r : Option (BitVec 8 × Word × BitVec 3)) : State :=
  match r with
  | some (sub, faddr, acc) => faultCmd (recordFault s core c sub.toNat c.start) core .copy c sub.toNat faddr acc.toNat
  | none =>
    let k := cmdClock c []
    let earlier := (getStrand s core (cmdStrand c)).copyClock
    let any := copyFn c.instr = 6
    let s1 := completionWrite s core c c.c (if any then clockJoin k earlier else k) any
    modStrand (completeCmd s1 core .copy c) core (cmdStrand c) fun t => { t with copyClock := clockJoin t.copyClock k }

/-- The end of the work: at once, or once the acknowledgements of what it has written to the host have returned (R135, R284). -/
def settleCopy (s : State) (core : Nat) (c : Cmd) (r : Option (BitVec 8 × Word × BitVec 3)) (posted : Bool) : State :=
  if posted && (getCore s core).unacked ≠ 0 then modCore s core fun x => putHead x .copy { c with ended := some r }
  else endCopy s core c r

/-- A command stops at a vector: it faults, or goes on from there later. -/
def stopCopy (s : State) (core : Nat) (c : Cmd) (v : Vector Nat 5) (ix : Option Nat) (e : EngErr) (posted : Bool) : State :=
  match e with
  | .late sub faddr acc => settleCopy s core { c with start := v } (some (BitVec.ofNat 8 sub, faddr, BitVec.ofNat 3 acc)) posted
  | e => stopCmd s core .copy { c with start := v, index := ix } e

/-- `COPY_COMMAND_START` (R279): the next command of the core, to completion, a fault, a park or the end of its slice; or the settling of
one whose writes have been acknowledged. -/
def execCopyCommandStart (core : Nat) (s : State) : Out State :=
  match (getCore s core).cq with
  | [] => .next s
  | c0 :: _ =>
    if !copyMayRun s core c0 then .next s
    else
      match c0.ended with
      | some r => .next (if (getCore s core).unacked = 0 then endCopy s core c0 r else s)
      | none =>
        let t0 := s.thread
        match startCopy core c0 s with
        | .error ((v, e), s1) =>
          let s2 := stoppedAt s (e, s1)
          .next (stopCopy s2 core { c0 with parked := .ready, threads := c0.threads ++ threadsSince s2 t0 } v c0.index e false)
        | .ok (l, s1) =>
          let (s2, res) := runCopy core c0 l s1
          let c := { c0 with parked := .ready, read := some l, threads := c0.threads ++ threadsSince s2 t0 }
          let posted := fieldOf c.a 63 60 = 7 || (getCore s core).unacked ≠ (getCore s2 core).unacked
          match res with
          | some ((v, e), ix) => .next (stopCopy s2 core c v ix e posted)
          | none => .next (settleCopy s2 core c none posted)

/-! ### Issue (R273, R274) -/

/-- The bound and view registers a command captures (R274, R276, R277). -/
def copySels (i : Instr) (eb : Vector Word 16) : List (Nat × Bool) :=
  let group (g : Nat) := (List.range 5).map fun j => (selEb (5 * g + j), false)
  match i with
  | .cpy _ _ _ g _ | .cpyf _ _ _ g _ | .cpyho _ _ _ g _ => group g.toNat
  | .cpyg _ _ _ g _ | .cpys _ _ _ g _ => group g.toNat ++ [(selEb 15, false)]
  | .cpyr .. =>
    let ctl := eb[14]
    [(selEb 14, false), (selEb 13, false), (selSv (fieldOf ctl 6 4), false)] ++
      (if isStippled (fieldOf ctl 11 8) then [(selEb 12, false), (selSv (fieldOf ctl 2 0), false)] else [])
  | _ => []

def copyIssue (i : Instr) (a b c : BitVec 5) (s : State) : Out State :=
  issueWord i s fun s =>
    issueCommand s .copy i (copySels i (myCore s).eb) (readS s a) (readS s b) (readS s c) noStart false

/-- `CPY` (R280). -/
def execCpy (a b c : BitVec 5) (g : BitVec 1) (e : BitVec 2) (s : State) : Out State := copyIssue (.cpy a b c g e) a b c s

/-- `CPYD` (R280). -/
def execCpyd (a b c n : BitVec 5) (s : State) : Out State := copyIssue (.cpyd a b c n) a b c s

/-- `CPYG` (R281). -/
def execCpyg (a b c : BitVec 5) (g : BitVec 1) (e : BitVec 2) (s : State) : Out State := copyIssue (.cpyg a b c g e) a b c s

/-- `CPYS` (R281). -/
def execCpys (a b c : BitVec 5) (g : BitVec 1) (e : BitVec 2) (s : State) : Out State := copyIssue (.cpys a b c g e) a b c s

/-- `CPYF` (R280). -/
def execCpyf (a b c : BitVec 5) (g : BitVec 1) (e : BitVec 2) (s : State) : Out State := copyIssue (.cpyf a b c g e) a b c s

/-- `CPYR` (R282). -/
def execCpyr (a b c : BitVec 5) (s : State) : Out State := copyIssue (.cpyr a b c) a b c s

/-- `CPYHO` (R285). -/
def execCpyho (a b c : BitVec 5) (g : BitVec 1) (e : BitVec 2) (s : State) : Out State := copyIssue (.cpyho a b c g e) a b c s

/-- `CPYRES` (R292): the command `CE_STATE` records, queued again from `CE_IDX0` to `CE_IDX4`; it reads them once the strand's
earlier copies have settled (R26; log entry 39). -/
def execCpyres (a b c : BitVec 5) (s : State) : Out State :=
  issueWord (.cpyres a b c) s fun s =>
    if copiesOut s then .error (.wait .stall)
    else
    let s1 := noteRegs s (ceSels.map fun sel => (sel, sel = 0x065))
    let x := myCore s1
    match (if x.ceState.getLsbD 63 then copyOf (fieldOf x.ceState 39 36) (fieldOf x.ceState 35 31) else none) with
    | none => .error (illegal s)
    | some i =>
      let start := x.ceIdx.map fun v => fieldOf v 31 0
      let s2 := if (lateOf (me s) .copy).isSome then s1
        else modMyCore s1 fun x => { x with ceState := x.ceState &&& 0x7FFFFFFFFFFFFFFF#64 }
      issueCommand s2 .copy i (copySels i x.eb) (readS s a) (readS s b) (readS s c) start true

/-- The register an `EBSET` or `EBGET` names: its selector of R151. -/
def ebSel (r : BitVec 5) : Nat := if r.toNat < 16 then selEb r.toNat else selSv (r.toNat % 8)

/-- `EBSET` (R278). -/
def execEbset (a : BitVec 5) (r : BitVec 5) (s : State) : Out State :=
  issueWord (.ebset a r) s fun s =>
    let v := readS s a
    match noteReg s (ebSel r) true with
    | (s1, true) => .ok (retire (spoilReg s1 s.ctx.core (ebSel r)))
    | (s1, false) =>
      .ok (retire (modMyCore s1 fun x =>
        if r.toNat < 16 then { x with eb := x.eb.set (r.toNat % 16) v (Nat.mod_lt _ (by decide)) }
        else { x with sv := x.sv.set (r.toNat % 8) (v &&& 0x3FF80#64) (Nat.mod_lt _ (by decide)) }))

/-- The fields of a bound register: the recode control's reserved ones read as zero (R7, R277), though a command that finds them set
faults (R277). -/
def ebRead (r : Nat) (v : Word) : Word := if r = 14 then v &&& 0x0000FFFFFFFF0F77#64 else v

/-- `EBGET` (R278). -/
def execEbget (a : BitVec 5) (r : BitVec 5) (s : State) : Out State :=
  issueWord (.ebget a r) s fun s =>
    let s1 := noteRegs s [(ebSel r, false)]
    let x := myCore s1
    let v := if r.toNat < 16 then ebRead r.toNat (x.eb[r.toNat % 16]'(Nat.mod_lt _ (by decide))) else x.sv[r.toNat % 8]'(Nat.mod_lt _ (by decide))
    .ok (retire (writeS s1 a v))

end Sys2Proof.Machine
end

