-- ==== Sys2Proof/Machine/Faults.lean ====
section
/-! DEFINITION. What the outside world does to translation (R327 to R331, R404, R434): the fault buffer and firmware's flush, the
host's translation services, PCIe completions, and the window onto device memory. -/

namespace Sys2Proof.Machine

/-! ### The fault buffer (R329, R331, R431) -/

/-- Records the buffer holds: 2^`LOG`, with `LOG` from 7 to 20; none while firmware has set no such size. -/
def fbSlots (p : Package) : Nat :=
  let n := fieldOf p.fbSize 4 0
  if 7 ≤ n && n ≤ 20 then 2 ^ n else 0

/-- Records firmware has not read, with both pointers counting modulo 2^32. -/
def fbUsed (p : Package) : Nat := (p.fbTail.setWidth 32 - p.fbHead.setWidth 32 : BitVec 32).toNat

/-- The 64 KiB page a record names. -/
def recPage (f : FaultRec) : Nat := fieldOf f.va 47 16

/-- The bytes of a record (R329). -/
def recBytes (f : FaultRec) : List Byte :=
  leBytes 8 f.va.toNat ++ leBytes 4 (f.core % 2 ^ 22 + f.agent % 16 * 2 ^ 22) ++ leBytes 2 f.region ++ leBytes 1 f.kind ++ leBytes 1 f.lvl ++
    leBytes 4 f.gen.toNat ++ leBytes 12 0

/-- The buffer keeps a record of the present generation whose page no kept record names (R331, step 2). -/
def keepsRecord (p : Package) (f : FaultRec) : Bool := f.gen = p.faultGen && !p.kept.contains (f.region, recPage f)

/-- A record can leave its NI: it is to be discarded, or the buffer has room (R329). -/
def canRecord (p : Package) : Bool :=
  match p.inflight with
  | [] => false
  | f :: _ => !keepsRecord p f || fbUsed p < fbSlots p

/-- Where the next record goes. -/
def fbKey (pkg : Nat) (p : Package) : Nat := devKey pkg (fieldOf p.fbBase 45 0 + 32 * (p.fbTail.toNat % fbSlots p))

/-- `FAULT_RECORD` (R331): the oldest record on its way is kept or discarded; with the buffer full it waits (R329). -/
def execFaultRecord (pkg : Nat) (s : State) : Out State :=
  let p := getPackage s pkg
  match p.inflight with
  | [] => .next s
  | f :: rest =>
    if !keepsRecord p f then .next (modPackage s pkg fun p => { p with inflight := rest })
    else if fbUsed p < fbSlots p then
      let s1 := { s with mem := writeBytes s.mem (fbKey pkg p) (recBytes f) }
      .next (modPackage s1 pkg fun p =>
        { p with
          inflight := rest, kept := (f.region, recPage f) :: p.kept
          fbTail := (p.fbTail.setWidth 32 + 1#32 : BitVec 32).setWidth 64 })
    else .next s

/-- A doubleword of device memory written by firmware. -/
def firmwareWrite (pkg : Nat) (s : State) (w : Nat × Word) : State :=
  if w.1 + 8 ≤ Config.hbmBytes then { s with mem := memPut s.mem (devKey pkg w.1) 8 w.2.toNat } else s

/-- The number of the region that a package knows by an `RCBID` (R329, R423). -/
def numberIn (s : State) (pkg rcbid : Nat) : Nat := ((regionIn s pkg rcbid).map fun r => r.rcb.id).getD rcbid

/-- `FIRMWARE_FLUSH` (R331, steps 3 and 4): firmware writes leaves, marks pages unmapped for a region, and advances
`FAULTGEN.GEN`; every access parked under another generation walks again. Firmware that was not verified does not run (R449). -/
def execFirmwareFlush (pkg : Nat) (writes : List (Nat × Word)) (unmapped : List (Nat × Nat)) (s : State) : Out State :=
  let s1 := writes.foldl (firmwareWrite pkg) s
  .next (if (getPackage s pkg).enabled then
    modPackage s1 pkg fun p =>
      { p with
        unmapped := p.unmapped ++ unmapped.map fun u => (numberIn s1 pkg u.1, u.2, p.faultGen + 1#32)
        fbHead := p.fbTail, kept := [], faultGen := p.faultGen + 1#32 }
    else s)

/-! ### The host's translation (R328) -/

/-- `ATS_INVALIDATION`: cached completions of the range go. -/
def execAtsInvalidation (pkg : Nat) (pasid : BitVec 20) (start len : Nat) (s : State) : Out State :=
  .next (modPackage s pkg fun p =>
    { p with ats := p.ats.filter fun e => e.pasid ≠ pasid || start + len ≤ e.page * 4096 || (e.page + 1) * 4096 ≤ start })

/-- A completion cached in place of any earlier one for its page. -/
def putAts (p : Package) (e : AtsEntry) : Package :=
  { p with
    ats := (p.ats.filter fun x => x.pasid ≠ e.pasid || x.page ≠ e.page) ++ [e]
    pri := p.pri.filter fun x => x ≠ (e.pasid, e.page) }

/-- `PAGE_REQUEST_RESPONSE`: a refusal lets the parked access fault with `SUB` 4; a grant leaves it waiting for the translation. -/
def execPageRequestResponse (pkg : Nat) (pasid : BitVec 20) (page : Nat) (granted : Bool) (s : State) : Out State :=
  if !(getPackage s pkg).pri.contains (pasid, page) then .next s
  else if granted then .next (modPackage s pkg fun p => { p with pri := p.pri.filter fun x => x ≠ (pasid, page) })
  else
    .next (finishWaits (modPackage s pkg fun p =>
      putAts p { pasid := pasid, page := page, read := false, write := false, granted := false }))

/-- `PCIE_COMPLETION` (R404): a translation (R328), the acknowledgement of a core's posted writes (R135), or host data as read. -/
def execPcieCompletion (pkg : Nat) (what : Completion) (s : State) : Out State :=
  match what with
  | .atsTranslation pasid page read write present =>
    if (getPackage s pkg).torn.contains pasid then .next s
    else if present then
      .next (finishWaits (modPackage s pkg fun p =>
        putAts p { pasid := pasid, page := page, read := read, write := write, granted := true }))
    else
      .next (modPackage s pkg fun p =>
        if p.pri.contains (pasid, page) then p else { p with pri := p.pri ++ [(pasid, page)] })
  | .postedAck core =>
    if pkgOfCore core = pkg then .next (finishWaits (modCore s core fun x => { x with unacked := 0 })) else .next s
  | .hostData addr bytes =>
    if addr + bytes.length ≤ 2 ^ 57 then .next { s with mem := writeBytes s.mem (hostKey addr) bytes } else .next s

/-! ### The window onto device memory (R434) -/

/-- `HOST_WINDOW_WRITE`. -/
def execHostWindowWrite (pkg addr : Nat) (bytes : List Byte) (s : State) : Out State :=
  if addr + bytes.length ≤ Config.hbmBytes then .next { s with mem := writeBytes s.mem (devKey pkg addr) bytes } else .next s

end Sys2Proof.Machine
end

