-- ==== Sys2Proof/Machine/Debug.lean ====
section
/-! DEFINITION. The debug port (R169 to R171, R432): the mailbox and its commands. -/

namespace Sys2Proof.Machine

/-- The bits of a control register that are not reserved, RO fields among them: the debugger writes them all (R169). -/
def crFields (sel : Nat) : Word :=
  match sel with
  | 0x000 => 0x3D#64
  | 0x010 => 0x3#64
  | 0x011 => 0xFFFF#64
  | 0x012 => 0x3F3F#64
  | 0x013 => BitVec.allOnes 64
  | 0x014 => 0x3#64
  | 0x021 => 0xFFFFFFF#64
  | 0x025 => 0xFFF#64
  | 0x056 => 0x80000000000000FF#64
  | 0x057 => 0x800000000000FFFF#64
  | _ => crMask sel

/-- The core and strand of `DBGARG0`. -/
def dbgCore (pkg : Nat) (p : Package) : Nat := pkg * 65536 + fieldOf p.dbgArg0 15 0
def dbgStrand (p : Package) : Fin 4 := ⟨fieldOf p.dbgArg0 17 16 % 4, Nat.mod_lt _ (by decide)⟩

/-- A command ends: `DBGSTAT` [15:8] tells whether it named something unknown. -/
def dbgEnd (s : State) (pkg : Nat) (cmd : Nat) (known : Bool) : State :=
  modPackage s pkg fun p => { p with dbgCmd := BitVec.ofNat 64 cmd, dbgStat := if known then 0#64 else 0x100#64 }

/-- A register as the debugger names it (R432, R151). -/
inductive DbgReg where
  | cr (sel : Nat)
  | s (n : Nat)
  | eb (n : Nat)
  | sv (n : Nat)
  /-- A matrix register, by its code from 0xE18: the accumulators, the latch and the keeper, none of which a doubleword holds. -/
  | mx (code : Nat)
  | unknown
  deriving DecidableEq, Repr

def dbgReg (arg : Word) : DbgReg :=
  let a := arg.toNat
  if a < 0x800 then (if selKnown (BitVec.ofNat 12 a) then .cr a else .unknown)
  else if a < 0x820 then .s (a - 0x800)
  else if 0xE00 ≤ a && a < 0xE10 then .eb (a - 0xE00)
  else if 0xE10 ≤ a && a < 0xE18 then .sv (a - 0xE10)
  else if 0xE18 ≤ a && a < 0xE1E then .mx a
  else .unknown

/-- The strand is halted (R170, R171). -/
def isHalted (x : Core) (n : Fin 4) : Bool := (coreStrand x n).live && (x.halted || (coreStrand x n).wait = .halted)

/-- `PENDBYTES` as it counts in the X phase (R307): messages and sequenced-atomic requests are sent as it begins and acknowledged at the
request vote (log entry 67). -/
def pendView (s : State) (core : Nat) : Word :=
  let x := getCore s core
  if (regionOf s core).phase = .x1 then x.pendBytes + BitVec.ofNat 64 (64 * x.msgs.length + Config.requestBytes * x.seqReqs.length) else x.pendBytes

/-- A register read by the debugger, which alone reads the count of `FAULTGEN` (R330), and sees a halt as cause 0x3F (R150). -/
def dbgRead (s : State) (core : Nat) (n : Fin 4) (r : DbgReg) : Word :=
  let x := getCore s core
  match r with
  | .cr 0x001 => if isHalted x n then 0x3F#64 else (coreStrand x n).trap.cause
  | .cr 0x021 => pendView s core
  | .cr 0x071 => (getPackage s (pkgOfCore core)).faultGen.setWidth 64
  | .cr sel => crValue s core n sel
  | .s i => if i = 0 then 0#64 else (coreStrand x n).regs.s[i % 32]'(Nat.mod_lt _ (by decide))
  | .eb i => ebRead i (x.eb[i % 16]'(Nat.mod_lt _ (by decide)))
  | .sv i => x.sv[i % 8]'(Nat.mod_lt _ (by decide))
  | .mx _ | .unknown => 0#64

/-- A matrix register left undefined by a doubleword written to it, whose place in it the spec does not give (log entry 54). -/
def spoilMx (s : State) (core code : Nat) : State :=
  if code = selLatch then spoilLatch s core
  else if code = selKeeper then spoilKeeper s core
  else spoilAcc s core ⟨(code - selAcc 0) % 4, Nat.mod_lt _ (by decide)⟩

/-- A register written by the debugger; `s0` keeps its value. -/
def dbgWrite (s : State) (core : Nat) (n : Fin 4) (r : DbgReg) (v : Word) : State :=
  match r with
  | .cr 0x070 => modPackage s (pkgOfCore core) fun p => { p with defectSig := v }
  | .cr 0x071 => modPackage s (pkgOfCore core) fun p => { p with faultGen := v.setWidth 32 }
  | .cr sel => crPut s core n sel (crMerge (crValue s core n sel) v (crFields sel))
  | .s i => modStrand s core n fun t => { t with regs := putS t.regs (BitVec.ofNat 5 i) v }
  | .eb i => modCore s core fun x => { x with eb := x.eb.set (i % 16) v (Nat.mod_lt _ (by decide)) }
  | .sv i => modCore s core fun x => { x with sv := x.sv.set (i % 8) (v &&& 0x3FF80#64) (Nat.mod_lt _ (by decide)) }
  | .mx code => spoilMx s core code
  | .unknown => s

/-- The TCM dword of `DBGARG1`. -/
def dbgTcm (pkg : Nat) (p : Package) : Nat := tcmKey (dbgCore pkg p) (8 * fieldOf p.dbgArg1 17 3)

/-- HALT (R170): each strand stops at its next boundary; queued commands go on. -/
def dbgHalt (pkg : Nat) (s : State) : State :=
  dbgEnd (modCore s (dbgCore pkg (getPackage s pkg)) fun x => { x with halted := true }) pkg 1 true

/-- RESUME: the core goes on, single-stepped strands included. -/
def dbgGo (pkg : Nat) (s : State) : State :=
  dbgEnd (modCore s (dbgCore pkg (getPackage s pkg)) fun x =>
    { x with halted := false, strands := x.strands.map fun t => { t with wait := if t.wait = .halted then .ready else t.wait } }) pkg 2 true

/-- STEP (R171): `STATUS.SSTEP` of the strand. -/
def dbgSetStep (pkg : Nat) (s : State) : State :=
  let p := getPackage s pkg
  dbgEnd (modStrand s (dbgCore pkg p) (dbgStrand p) fun t =>
    { t with trap := { t.trap with status := crMerge t.trap.status (if p.dbgArg1.getLsbD 0 then 0x20#64 else 0#64) 0x20#64 } }) pkg 3 true

def isMx (r : DbgReg) : Bool :=
  match r with
  | .mx _ => true
  | _ => false

/-- RDREG. What a doubleword shows of a matrix register the spec does not say: a free value (log entry 54). -/
def dbgRdreg (pkg : Nat) (s : State) : State :=
  let p := getPackage s pkg
  let r := dbgReg p.dbgArg1
  if r = .unknown then dbgEnd s pkg 4 false
  else if isMx r then
    let (v, s1) := freshV s
    dbgEnd (modPackage s1 pkg fun p => { p with dbgData := v.setWidth 64 }) pkg 4 true
  else dbgEnd (modPackage s pkg fun p => { p with dbgData := dbgRead s (dbgCore pkg p) (dbgStrand p) r }) pkg 4 true

/-- WRREG. -/
def dbgWrreg (pkg : Nat) (s : State) : State :=
  let p := getPackage s pkg
  let r := dbgReg p.dbgArg1
  if r = .unknown then dbgEnd s pkg 5 false else dbgEnd (dbgWrite s (dbgCore pkg p) (dbgStrand p) r p.dbgData) pkg 5 true

/-- RDTCM: not seen by the access checker (R169). -/
def dbgRdtcm (pkg : Nat) (s : State) : State :=
  dbgEnd (modPackage s pkg fun p => { p with dbgData := BitVec.ofNat 64 (memNat s.mem (dbgTcm pkg p) 8) }) pkg 6 true

/-- WRTCM. -/
def dbgWrtcm (pkg : Nat) (s : State) : State :=
  let p := getPackage s pkg
  dbgEnd { s with mem := memPut s.mem (dbgTcm pkg p) 8 p.dbgData.toNat } pkg 7 true

/-- BRKEN (R171): for the region whose `RCBID` is `DBGARG1` [15:0]. -/
def dbgBrken (pkg : Nat) (s : State) : State :=
  let p := getPackage s pkg
  match regionIn s pkg (fieldOf p.dbgArg1 15 0) with
  | some r => dbgEnd (modRegion s r.rcb.id fun r => { r with breakpoints := !p.dbgArg1.getLsbD 16 }) pkg 8 true
  | none => dbgEnd s pkg 8 false

/-- A mailbox command is an event of the command processor (R404): firmware that was not verified does not run it (R449). -/
def ifFirmware (pkg : Nat) (f : Nat → State → State) (s : State) : State := if (getPackage s pkg).enabled then f pkg s else s

/-- `HALT` (R170, R432). -/
def execHalt (pkg : Nat) (s : State) : Out State := .next (ifFirmware pkg dbgHalt s)

/-- `DBG_RESUME` (R432). -/
def execDbgResume (pkg : Nat) (s : State) : Out State := .next (ifFirmware pkg dbgGo s)

/-- `STEP` (R171, R432). -/
def execDbgStep (pkg : Nat) (s : State) : Out State := .next (ifFirmware pkg dbgSetStep s)

/-- `RDREG` (R432). -/
def execRdreg (pkg : Nat) (s : State) : Out State := .next (ifFirmware pkg dbgRdreg s)

/-- `WRREG` (R432). -/
def execWrreg (pkg : Nat) (s : State) : Out State := .next (ifFirmware pkg dbgWrreg s)

/-- `RDTCM` (R432). -/
def execRdtcm (pkg : Nat) (s : State) : Out State := .next (ifFirmware pkg dbgRdtcm s)

/-- `WRTCM` (R432). -/
def execWrtcm (pkg : Nat) (s : State) : Out State := .next (ifFirmware pkg dbgWrtcm s)

/-- `BRKEN` (R171, R432). -/
def execBrken (pkg : Nat) (s : State) : Out State := .next (ifFirmware pkg dbgBrken s)

/-- The command of a code (R432). -/
def dbgOf (cmd pkg : Nat) (s : State) : State :=
  match cmd with
  | 1 => dbgHalt pkg s
  | 2 => dbgGo pkg s
  | 3 => dbgSetStep pkg s
  | 4 => dbgRdreg pkg s
  | 5 => dbgWrreg pkg s
  | 6 => dbgRdtcm pkg s
  | 7 => dbgWrtcm pkg s
  | 8 => dbgBrken pkg s
  | n => dbgEnd s pkg n false

/-- A write to `DBGCMD` starts the command it names (R432). -/
def dbgCommand (pkg : Nat) (cmd : Word) (s : State) : State := ifFirmware pkg (dbgOf cmd.toNat) s

end Sys2Proof.Machine
end

