-- ==== Sys2Proof/Machine/Preempt.lean ====
section
/-! DEFINITION. Pre-emption (R166 to R168, R371, R426, R428): taking it, the spill, resumption, and its two time-outs. -/

namespace Sys2Proof.Machine

/-! ### Taking (R167) -/

/-- Every live strand of the core can enter the pre-emption handler: no command of the core still holds the bytes its entry writes. -/
def entriesReady (s : State) (core : Nat) : Bool := (liveStrands (getCore s core)).all fun n => !entryWaits s core n false

/-- A core that can take the pre-emption in the C phase, at its own point. -/
def canTakeCore (s : State) (r : Region) (core : Nat) : Bool := heldForTake r (getCore s core) && entriesReady s core

/-- The region can take the pre-emption in the T phase, when every dispatched body has ended: its cores take it together. -/
def canTakeT (s : State) (r : Region) : Bool :=
  r.preemptReq && !r.preempting && !recoveryOf r && r.phase = .t &&
    (heldCores s r.rcb.id).all fun c => coreAtPoint r (getCore s c) && entriesReady s c

/-- The cores that can take the pre-emption now. -/
def takers (s : State) (r : Region) : List Nat :=
  if r.state ≠ .running then []
  else if canTakeT s r then heldCores s r.rcb.id
  else (heldCores s r.rcb.id).filter (canTakeCore s r)

/-- The core has taken the pre-emption and every live strand of it has parked. -/
def coreParked (x : Core) : Bool := x.taken && (liveStrands x).all fun n => (coreStrand x n).wait = .parked

/-- Every core of the region has. -/
def allParked (s : State) (id : Nat) : Bool := (heldCores s id).all fun c => coreParked (getCore s c)

/-- The units that finish what is in flight have done so (R167): no vector instruction is dispatched, and no selvedge command started. -/
def unitsStopped (x : Core) : Bool := x.vq.isEmpty && x.sq.head?.all fun k => !(k.started || k.parked ≠ .ready)

def canSpill (s : State) (r : Region) : Bool :=
  r.state = .running && r.preempting && allParked s r.rcb.id && (heldCores s r.rcb.id).all fun c => unitsStopped (getCore s c)

/-- Pre-emption entry of one strand (R167, step 1), at the address it would issue next. -/
def preemptStrand (core : Nat) (s : State) (n : Fin 4) : State :=
  let t := getStrand s core n
  if t.live then trapEntry s core n cPreempt 1 t.pc 0#64 (preciseInfo 0 false 7) else s

/-- One core's strands enter the pre-emption handler; a core that had reported C done has yet to do so again, and an exchange command that
was waiting for its round has yet to start again (R261). An entry that kills the region (R39) leaves nothing to mark. -/
def preemptCore (s : State) (core : Nat) : State :=
  let s1 := (List.finRange 4).foldl (preemptStrand core) s
  modCore s1 core fun x =>
    if x.region.isNone then x
    else
      { x with
        taken := true, cdone := decide (x.phase = 1#64) && x.cdone
        mq := x.mq.map fun c => { c with waiting := false } }

/-! ### The spill (R166, R167) -/

/-- The per-core block of the save area (R166); its reserved bytes 0x1CF0 to 0x1CFF are written zero, the model's choice (log entry 71).
-/
def perCoreBlock (x : Core) : List Byte :=
  let w (v : Word) : List Byte := leBytes 8 v.toNat
  x.eb.toList.flatMap w ++ x.sv.toList.flatMap w ++
    ([x.mx.fmtA, x.mx.fmtB, x.mx.scaleA, x.mx.scaleB, x.mx.stipA, x.mx.stipB].flatMap w) ++ leBytes 16 0 ++
    x.ceIdx.toList.flatMap w ++ w x.ceState ++ w x.rqHead ++ w x.rqTail

def perCoreKey (x : Core) (core : Nat) : Nat := tcmKey core (fieldOf x.saveArea 17 13 * 8192 + 0x1C00)

/-- The key lies in TCM or scratchpad of one of the cores. -/
def ofCores (cores : List Nat) (k : Nat) : Bool :=
  if k < 2 ^ 60 then cores.contains (k / 2 ^ 18)
  else if k < 2 * 2 ^ 60 then cores.any fun c => clusterOf c = (k - 2 ^ 60) / 2 ^ 19
  else false

/-- The region's context buffer, in each package the region still has. What the NI writes there, and where, the spec does not lay out: after a
spill its bytes are free values (log entry 46). -/
def contextBuffers (r : Region) : List (Nat × Nat) := (livePkgs r).map fun p => (devKey p r.rcb.ctxBuf, r.rcb.ctxLen)

/-- The region's cores are spilled and released (R167, steps 3 to 5). -/
def spillRegion (s : State) (id : Nat) : State :=
  let cores := heldCores s id
  let s1 := cores.foldl (fun s c => { s with mem := writeBytes s.mem (perCoreKey (getCore s c) c) (perCoreBlock (getCore s c)) }) s
  let kept := s1.mem.filter fun e => ofCores cores e.1
  let spill : NatMap Core := cores.foldl (fun m c => mapSet m c (getCore s1 c)) []
  let s2 := cores.foldl (fun s c => modCore s c releaseCore) s1
  let s3 := modRegion s2 id fun r => { r with spill := spill, spillMem := kept, preemptReq := false, preempting := false }
  finishWaits (setRegionState (spoilAll s3 (contextBuffers (getRegion s id))) id .suspended)

/-- `PREEMPTION_TAKE` (R167, R371): the entry of every live strand of each core that is at its point; once all have parked, the spill. The
points of R167 are also where a `KILL` that waits acts (R416). -/
def execPreemptionTake (region : Nat) (s : State) : Out State :=
  let r := getRegion s region
  if canKill s r then .next (killAtPoint s region)
  else if canSpill s r then .next (spillRegion s region)
  else
    match takers s r with
    | [] => .next s
    | cores =>
      let s1 := modRegion s region fun r => { (if r.phase = .t then withdrawAll r else r) with preempting := true }
      .next (cores.foldl preemptCore s1)

/-! ### Resumption (R168, R426) -/

def canResume (s : State) (r : Region) : Bool := mayResume s r && ((inTheWay s r).isEmpty || hasToAsk s r)

/-- A strand that was live, in the pre-emption handler with `RSM` set. -/
def resumeStrand (x : Core) (n : Fin 4) (t : Strand) : Strand :=
  if t.live then
    let g : Regs := { Regs.zero with s := Regs.zero.s.set 1 (BitVec.ofNat 64 (saveBlock x n)) }
    { t with
      pc := BitVec.ofNat 18 (4 * handlerAddr x 1), regs := g, loop0 := LoopLevel.zero, loop1 := LoopLevel.zero, repState := 0
      repBuf := Vector.replicate 16 0, replaying := false
      trap := { TrapRegs.zero with status := 0x15#64, cause := BitVec.ofNat 64 cPreempt }, wait := .ready }
  else t

/-- The per-core block restored from the save area. -/
def restoreBlock (m : Memory) (core : Nat) (x : Core) : Core :=
  let w (i : Nat) : Word := BitVec.ofNat 64 (memNat m (perCoreKey x core + 8 * i) 8)
  let r (sel i : Nat) : Word := w i &&& crMask sel
  { x with
    eb := Vector.ofFn fun n => w n
    sv := Vector.ofFn fun n => w (16 + n) &&& 0x3FF80#64
    mx := { x.mx with fmtA := r 0x050 24, fmtB := r 0x051 25, scaleA := r 0x052 26, scaleB := r 0x053 27, stipA := r 0x054 28, stipB := r 0x055 29 }
    ceIdx := Vector.ofFn fun n => r 0x060 (32 + n)
    ceState := r 0x065 37, rqHead := r 0x024 38, rqTail := w 39 &&& 0xFFF#64 }

/-- One core restored; request ids of no-return atomics go on (R128), and so do the writes to the host still to be acknowledged. -/
def resumeCore (m : Memory) (s : State) (e : Nat × Core) : State :=
  let x := restoreBlock m e.1 e.2
  setCore s e.1 { x with
    taken := false, unacked := (getCore s e.1).unacked
    strands := Vector.ofFn fun n => resumeStrand x n (coreStrand x n), atomCount := (getCore s e.1).atomCount }

/-- `PREEMPTION_RESUME` (R168, R426): the region resumes, or the regions of lower priority that hold its cores are asked to give way. -/
def execPreemptionResume (region : Nat) (s : State) : Out State :=
  let r := getRegion s region
  if !mayResume s r then .next s
  else if (inTheWay s r).isEmpty then
    let cores := r.spill.map (·.1)
    let clear := s.mem.filter fun e => !ofCores cores e.1
    let m := r.spillMem.foldl (fun m e => memWrite m e.1 e.2) clear
    let s1 := r.spill.foldl (resumeCore m) { s with mem := m }
    .next (finishWaits (setRegionState (modRegion s1 region fun r => { r with spill := [], spillMem := [] }) region .running))
  else .next (askWay s r)

/-! ### Time-outs (R428) -/

/-- `PREEMPT_TIMEOUT` (R428): a region that has not released its cores within B after the request. -/
def execPreemptTimeout (region : Nat) (s : State) : Out State :=
  let r := getRegion s region
  if r.state = .running && r.preemptReq then .next (killEach statPreemptTimeout [region] s) else .next s

/-- `PARK_TIMEOUT` (R428): pre-emption handlers that have not all parked within 10 µs of the taking. -/
def execParkTimeout (region : Nat) (s : State) : Out State :=
  let r := getRegion s region
  if r.state = .running && r.preempting && !allParked s region then .next (killEach statPreemptTimeout [region] s) else .next s

end Sys2Proof.Machine
end

