-- ==== Sys2Proof/Machine/Registers.lean ====
section
/-! DEFINITION. Writes to the registers of the register window and of firmware (R6, R406, R407, R431, R432, R437). -/

namespace Sys2Proof.Machine

/-- `PWRCAP` (R437): values act as if within 2,000 to 14,000; the register holds what was written. -/
def wattsOf (p : Package) : Nat := max 2000 (min 14000 (fieldOf p.pwrCap 15 0))

/-- A queue register written while `EN` = 0 (R406, R407). -/
def putQueueReg (q : Queue) (reg : Nat) (v : Word) : Queue :=
  match reg with
  | 0 => { q with cfg := v &&& qcfgMask &&& ~~~1#64 }
  | 1 => { q with base := v }
  | 4 => { q with claim := v }
  | 7 => { q with door := v }
  | 8 => { q with mirror := v }
  | _ => q

/-- A write to a register of queue `q`: `EN` by R407, `TAIL` by R410, the rest only while `EN` = 0; RO registers ignore it. -/
def writeQueueReg (s : State) (pkg q reg : Nat) (v : Word) : State :=
  let qu := getQueue s pkg q
  match reg with
  | 0 =>
    if qEn qu then (if v.getLsbD 0 then s else disableQueue s pkg q)
    else if v.getLsbD 0 then enableQueue s pkg q (v &&& qcfgMask)
    else modQueue s pkg q fun qu => putQueueReg qu 0 v
  | 2 => if qDev qu then s else modQueue s pkg q fun qu => tailRule qu (v.setWidth 32)
  | n => if qEn qu then s else modQueue s pkg q fun qu => putQueueReg qu n v

/-- Firmware's registers lie at no address the spec gives: the model numbers them from 2^32 (log entry 20). -/
def firmwareRegs : Nat := 2 ^ 32

/-- A register of the power controller, the debug mailbox or, where firmware was verified and runs (R449), the fault buffer. -/
def putPackageReg (p : Package) (off : Nat) (v : Word) : Package :=
  if off = 0x2008 then { p with dbgArg0 := v }
  else if off = 0x2010 then { p with dbgArg1 := v }
  else if off = 0x2018 then { p with dbgData := v }
  else if off = 0x3000 then { p with pwrCap := v &&& 0xFFFF#64 }
  else if !p.enabled then p
  else if off = firmwareRegs then { p with fbBase := v }
  else if off = firmwareRegs + 8 then { p with fbSize := v &&& 0x1F#64 }
  else if off = firmwareRegs + 16 then { p with fbHead := v &&& 0xFFFFFFFF#64 }
  else p

/-- `REGISTER_WRITE` (R6): a host or firmware write; one to an RO register, or where no register lies, is ignored. -/
def execRegisterWrite (pkg off : Nat) (value : Word) (s : State) : Out State :=
  if 0x10000 ≤ off && off < 0x18000 then
    .next (if off % 8 = 0 then writeQueueReg s pkg ((off - 0x10000) / 128) (off % 128 / 8) value else s)
  else if off = 0x2000 then .next (dbgCommand pkg value s)
  else .next (modPackage s pkg fun p => putPackageReg p off value)

end Sys2Proof.Machine
end

