-- ==== Sys2Proof/Machine/Power.lean ====
section
/-! DEFINITION. Power, integrity and recovery (R310, R435 to R448, R451 to R453): bubbles, corrections, uncorrectable errors, rollback
and device reset. -/

namespace Sys2Proof.Machine

/-- `PWRSTAT` as the power controller writes it (R437): its RES bits are zero, and what it measures and decides is undetermined (log entry
61). -/
def pwrStatOf (v : VWord) : Word := v.setWidth 64 &&& 0xFFBF#64

/-- `THROTTLE_BUBBLE` (R310, R437): a stall cycle of the whole package changes timing and `PWRSTAT` only; the power
controller's firmware, where it was not verified, does not run (R449). -/
def execThrottleBubble (pkg : Nat) (s : State) : Out State :=
  let (v, s1) := freshV s
  .next (if (getPackage s pkg).enabled then modPackage s1 pkg fun p => { p with bubbles := p.bubbles + 1, pwrStat := pwrStatOf v } else s)

/-- `ECC_CORRECTION` (R439): corrected in place and counted. -/
def execEccCorrection (pkg : Nat) (s : State) : Out State := .next (modPackage s pkg fun p => { p with eccCount := p.eccCount + 1 })

/-! ### What a recovery point holds of memory (R444, R445) -/

/-- Entries of a page table that are valid, by index, in ascending order. -/
def validEntries (m : Memory) (base n : Nat) : List Nat :=
  (m.filter fun c => base ≤ c.1 && c.1 < base + 16 * n && (c.1 - base) % 16 = 0 && c.2.getLsbD 0).map fun c => (c.1 - base) / 16

/-- The device-memory ranges of pages mapped HOST below a table: (key, bytes). -/
def hostRanges (m : Memory) (pkg : Nat) : Nat → Nat → List (Nat × Nat)
  | 0, _ => []
  | fuel + 1, t =>
    let lvl := 4 - fuel
    let base := devKey pkg t
    (validEntries m base (if lvl = 4 then 32 else 512)).flatMap fun i =>
      let f := BitVec.ofNat 64 (memNat m (base + 16 * i) 8)
      let c := BitVec.ofNat 64 (memNat m (base + 16 * i + 8) 8)
      if !f.getLsbD 1 then hostRanges m pkg fuel (fieldOf f 47 9 * 512)
      else if modeOf c = .host && fieldOf f 47 46 = 0 then [(devKey pkg (fieldOf f 45 16 * 65536), 2 ^ pageLog lvl)]
      else []

/-- The key is of memory the region's recovery point captures. -/
def capturedKey (b : Rcb) (host : List (Nat × Nat)) (k : Nat) : Bool :=
  match spaceOf k with
  | 0 => inCoreSet b (k / 2 ^ 18)
  | 1 => inCoreSet b ((k - 2 ^ 60) / 2 ^ 19 * 16)
  | 2 =>
    let die := (k - 2 * 2 ^ 60) / 2 ^ 26
    (diesOf b (die / 16)).contains die && b.pkgMask.getLsbD (die / 16)
  | 3 => b.pkgMask.getLsbD ((k - 3 * 2 ^ 60) / 2 ^ 46) && !host.any fun r => r.1 ≤ k && k < r.1 + r.2
  | _ => false

/-- Memory with what the point captured put back. -/
def restoreMemory (b : Rcb) (point cur : Memory) : Memory :=
  let host := (maskPkgs b.pkgMask).flatMap fun p => hostRanges point p 4 b.root
  let kept := cur.filter fun c => !capturedKey b host c.1
  (point.filter fun c => capturedKey b host c.1).foldl (fun m c => memWrite m c.1 c.2) kept

/-! ### Rollback (R446 to R448) -/

/-- A core as the point saved it; request ids of no-return atomics go on (R128). -/
def restoreCore (s : State) (e : Nat × Core) : State := setCore s e.1 { e.2 with atomCount := (getCore s e.1).atomCount }

/-- Host transactions numbered since the point are submitted again, silently (R448). -/
def resubmit (h : HostTxn) : HostTxn := { h with silent := true }

/-- A recovery point without what it holds of packages whose part has been killed since (R334). -/
def livePoint (r : Region) (p : RecPoint) : RecPoint :=
  let live (k : Nat) : Bool := !r.abortedPkgs.contains k
  { p with
    cores := p.cores.filter fun e => live (pkgOfCore e.1), restarts := p.restarts.filter fun e => live (pkgOfCore e.core)
    hostKept := p.hostKept.filter fun h => live h.pkg }

/-- The region's part of the restored state: at the point's barrier exit, with nothing in flight. A package lost since the point is lost to
the replay as well, whose first barrier aborts (R334; log entry 21). -/
def restoreRegion (p0 p : RecPoint) (r : Region) : Region :=
  { Region.idle r.rcb with
    state := .running, launch := r.launch, code := r.code, restarts := p.restarts, ending := p.votedEnd, hostTxns := p.hostKept.map resubmit ++ r.hostTxns,
    breakpoints := r.breakpoints, invals := r.invals, abortedPkgs := r.abortedPkgs
    abortDue := r.abortDue || p0.cores.any fun e => r.abortedPkgs.contains (pkgOfCore e.1), killReq := r.killReq, observed := r.observed
    restores := r.restores + 1, fault := r.fault, faultSub := r.faultSub }

/-- The steps of R446 for one region, in the packages that still take part. -/
def rollback (s : State) (r : Region) (l : Launch) (p0 : RecPoint) : State :=
  let id := r.rcb.id
  let p := livePoint r p0
  let s1 := writeNotice s (if (livePkgs r).contains l.pkg then l.pkg else (livePkgs r).headD l.pkg) l 2 p.num
  let s2 := { s1 with mem := restoreMemory (liveRcb r) p.mem s1.mem }
  let s3 := p.cores.foldl restoreCore s2
  let s4 := modRegion s3 id (restoreRegion p0 p)
  let s5 := (livePkgs r).foldl (fun s k => modPackage s k fun q =>
    { q with stopped := false, inflight := q.inflight.filter fun f => f.region ≠ id }) s4
  startC (putPoint s5 r { p0 with hostKept := [] }) id p.superstep

/-- The point a region can roll back to: valid, and restored fewer than three times (R446). -/
def rollbackPoint (s : State) (r : Region) : Option RecPoint :=
  match recPointOf s r with
  | some p => if p.valid && r.restores < 3 then some p else none
  | none => none

/-- One affected region rolls back, or is killed (R440). -/
def recoverRegion (s : State) (r : Region) : State :=
  match r.launch, rollbackPoint s r with
  | some l, some p => rollback s r l p
  | _, _ => killEach statKilled [r.rcb.id] s

/-- An uncorrectable error of a package can affect every region that has begun to run on it, and still has a part there (R440; log entry
21). -/
def affected (s : State) (pkgs : List Nat) : List Region :=
  s.regions.filter fun r => (r.state = .running || r.state = .suspended) && pkgs.any (livePkgs r).contains

def uncorrectable (s : State) (pkgs : List Nat) : State := (affected s pkgs).foldl recoverRegion s

/-- `UNCORRECTABLE_ERROR` (R440, R446). -/
def execUncorrectableError (pkg : Nat) (s : State) : Out State := .next (uncorrectable s [pkg])

/-- `THERMAL_TRIP` (R438): the compute dies stop, at the critical temperature of 110 °C, which the power controller's firmware, where it was
verified, reports in `PWRSTAT` (R437, R449). -/
def execThermalTrip (pkg : Nat) (s : State) : Out State :=
  let (v, s1) := freshV s
  .next (uncorrectable (modPackage s1 pkg fun p =>
    { p with stopped := true, pwrStat := if p.enabled then (pwrStatOf v &&& ~~~0xFF00#64) ||| BitVec.ofNat 64 (256 * 110) else p.pwrStat }) [pkg])

/-- `LINK_REPLAY` (R435): a replay changes timing only; the eighth failure, or a lost port, is an uncorrectable error at both ends.
-/
def execLinkReplay (pkg _port peer : Nat) (failed : Bool) (s : State) : Out State :=
  let s1 := modPackage s pkg fun p => { p with replays := p.replays + 1 }
  .next (if failed then uncorrectable s1 [pkg, peer] else s1)

/-- `RECOVERY_POINT_VALID` (R444): the point is complete and the region issues again. -/
def execRecoveryPointValid (region : Nat) (s : State) : Out State :=
  let r := getRegion s region
  match recPointOf s r with
  | none => .next s
  | some p => .next (putPoint s r { p with valid := true })

/-! ### Attestation (R450) -/

/-- An attestation report: what it covers, and the two signatures over it. -/
structure Attestation where
  digests : List (List Byte)
  version : Nat
  defectSig : Word
  nonce : List Byte
  signatures : List Byte × List Byte
  deriving DecidableEq, Repr

/-- The report of a package for a verifier's nonce of at most 64 bytes; no operation of the part asks for one (log entry 5). -/
def attest (s : State) (pkg : Nat) (nonce : List Byte) : Option Attestation :=
  if 64 < nonce.length then none
  else
    let digests := Config.firmwareDigests pkg
    let version := Config.securityVersion pkg
    let sig := (getPackage s pkg).defectSig
    some { digests := digests, version := version, defectSig := sig, nonce := nonce
           signatures := Config.attestSign pkg digests version sig nonce }

/-! ### Device reset (R453) -/

/-- Regions the package has a part in: they, and their launches, are gone with its front end. -/
def regionsOf (s : State) (pkg : Nat) : List Region := s.regions.filter fun r => r.rcb.pkgMask.getLsbD pkg

/-- A memory of the package that a device reset leaves as at power-on: all but the second tier and the host's. -/
def lostKey (pkg k : Nat) : Bool :=
  match spaceOf k with
  | 0 => k / 2 ^ 18 / 65536 = pkg
  | 1 => (k - 2 ^ 60) / 2 ^ 19 / 4096 = pkg
  | 2 => (k - 2 * 2 ^ 60) / 2 ^ 26 / 16 = pkg
  | 3 => (k - 3 * 2 ^ 60) / 2 ^ 46 = pkg
  | 4 => (k - 4 * 2 ^ 60) / 2 ^ 46 = pkg
  | _ => false

/-- The 256 skipped rows after the test (R451): each from 0 to 16. A column whose spare row is in use keeps it, so that `DEFECTSIG` changes
only where a cluster has failed since (R453); the operand says where one has. -/
def skipsOf (old failed : List Nat) : List Nat :=
  (List.range 256).map fun i => if old.getD i 16 = 16 then min 16 (failed.getD i 16) else old.getD i 16

/-- Firmware runs: its signatures verify, and its security version is not below the fused minimum (R449). -/
def firmwareRuns (pkg : Nat) : Bool := Config.firmwareOk pkg && Config.minimumVersion pkg ≤ Config.securityVersion pkg

/-- The package after bring-up: with refused firmware its command processor is not enabled and nothing runs (R449). The safe tier keeps
what it holds (R2). -/
def bringUp (p : Package) (pkg : Nat) (failed : List Nat) : Package :=
  let k := skipsOf p.skips failed
  { Package.reset (defectSig k) with
    module_ := p.module_, skips := k, stopped := !firmwareRuns pkg, enabled := firmwareRuns pkg, safe := p.safe }

/-- What the package's own front end would have written to the host is lost with it. -/
def muteLaunch (pkg : Nat) (l : Launch) : Launch := if l.pkg = pkg then { l with comp := 0, irq := false } else l

def muteRegion (pkg : Nat) (r : Region) : Region :=
  { r with
    launch := r.launch.map (muteLaunch pkg), hostTxns := r.hostTxns.filter fun h => h.pkg ≠ pkg
    invals := r.invals.filter fun e => e.1 ≠ pkg }

/-- `DEVICE_RESET` (R453, R373): launches that ran on the package end as killed where another package's queue holds them. -/
def execDeviceReset (pkg : Nat) (skips : List Nat) (s : State) : Out State :=
  let gone := (regionsOf s pkg).map fun r => r.rcb.id
  let s0 := { s with regions := s.regions.map (muteRegion pkg), waits := s.waits.filter fun w => w.pkg ≠ pkg }
  let s1 := killEach statKilled gone s0
  let s2 := { s1 with
    regions := s1.regions.filter fun r => !r.rcb.pkgMask.getLsbD pkg
    cores := s1.cores.filter fun e => pkgOfCore e.1 ≠ pkg
    mem := s1.mem.filter fun c => !lostKey pkg c.1 }
  .next (modPackage s2 pkg fun p => bringUp p pkg skips)

end Sys2Proof.Machine
end

