-- ==== Sys2Proof/Machine/Selvedge.lean ====
section
/-! DEFINITION. The selvedge unit (R378 to R402): automaton contexts and masks, sampling, and its commands at issue. -/

namespace Sys2Proof.Machine

/-- Late-selvedge subcodes (R400); die SRAM outside the region's range is 0x01 (R34). -/
def svSub : AccErr → Nat
  | .bounds => 0x02
  | .misaligned => 0x03
  | .unmapped => 0x09
  | .refused => 0x0A
  | _ => 0x01

/-- A command's reads and checks: the state with its accesses noted, or a fault or park with that state. -/
abbrev Sv (α : Type) := StateT State (Except (EngErr × State)) α

def svThrow {α : Type} (e : EngErr) : Sv α := do throw (e, ← get)

def svFail {α : Type} (sub : Nat) (faddr : Word) : Sv α := svThrow (.late sub faddr 5)

/-- Whose command it is. -/
structure SvCmd where
  core : Nat
  c : Cmd

/-- A checked read. -/
def svRead (k : SvCmd) (va : Word) (n al : Nat) : Sv Nat := do
  let (bs, s) ← cmdRead svSub k.core k.c va n al (← get)
  set s
  pure (leNat bs)

/-- Words of `w` bytes from an address on, in ascending order. -/
def svReads (k : SvCmd) (va : Word) (w : Nat) : Nat → Sv (List Nat)
  | 0 => pure []
  | n + 1 => do
    let x ← svRead k va w w
    let xs ← svReads k (va + BitVec.ofNat 64 w) w n
    pure (x :: xs)

/-- An address field's path, required-zero bits and alignment (R381), in the order of R113. -/
def svAddr (va : Word) (paths : List Nat) (al : Nat) (write : Bool) : Sv Unit :=
  if !(paths.contains (fieldOf va 63 60) && zeroBitsOk va) then svThrow (.late 0x01 va (if write then 6 else 5))
  else if va.toNat % al ≠ 0 then svThrow (.late 0x03 va (if write then 6 else 5))
  else pure ()

def svNeed (k : SvCmd) (ok : Bool) : Sv Unit := if ok then pure () else svFail 0x04 k.c.a

/-! ### Tables (R384 to R388) -/

structure PdaTable where
  vocab : Nat
  nstate : Nat
  nsym : Nat
  start : Nat
  init : List Nat
  stateTab : Word
  rowIdx : Word
  rangeTab : Word
  actTab : Word
  deriving DecidableEq, Repr

def onTablePath (x : Nat) : Bool := x / 2 ^ 60 = 4 || x / 2 ^ 60 = 5

/-- A header's eight dwords keep R384. -/
def tableOk (w : List Nat) : Bool :=
  let g (i : Nat) := w.getD i 0
  g 0 % 2 ^ 32 = 0x53454C56 && 1 ≤ g 0 / 2 ^ 32 && g 0 / 2 ^ 32 ≤ 2 ^ 19 &&
    1 ≤ g 1 % 2 ^ 32 && g 1 % 2 ^ 32 ≤ 2 ^ 20 && 2 ≤ g 1 / 2 ^ 32 && g 1 / 2 ^ 32 ≤ 4096 &&
    g 2 / 2 ^ 32 ≤ 4 &&
    onTablePath (g 4) && g 4 % 16 = 0 && onTablePath (g 5) && g 5 % 8 = 0 && onTablePath (g 6) && g 6 % 8 = 0 &&
    onTablePath (g 7) && g 7 % 16 = 0

/-- The header at an address, malformed with the subcode and address given. -/
def readTable (k : SvCmd) (ha : Word) (sub : Nat) (faddr : Word) : Sv PdaTable :=
  if !onTablePath ha.toNat || ha.toNat % 64 ≠ 0 then svFail sub faddr
  else do
    let w ← svReads k ha 8 8
    let g (i : Nat) := w.getD i 0
    if tableOk w then
      pure { vocab := g 0 / 2 ^ 32, nstate := g 1 % 2 ^ 32, nsym := g 1 / 2 ^ 32, start := g 2 % 2 ^ 32
             init := ((List.range 4).map fun j => g 3 / 2 ^ (16 * j) % 2 ^ 16).take (g 2 / 2 ^ 32)
             stateTab := BitVec.ofNat 64 (g 4), rowIdx := BitVec.ofNat 64 (g 5), rangeTab := BitVec.ofNat 64 (g 6)
             actTab := BitVec.ofNat 64 (g 7) }
    else svFail sub faddr

structure PdaState where
  rowBase : Nat
  dep : Nat
  accept : Bool
  dead : Bool
  rangeBase : Nat
  nrange : Nat
  deriving DecidableEq, Repr

def stateAddr (h : PdaTable) (q : Nat) : Word := h.stateTab + BitVec.ofNat 64 (16 * q)

/-- `StateEntry` (R385). -/
def stateEntry (k : SvCmd) (h : PdaTable) (q : Nat) : Sv PdaState :=
  let a := stateAddr h q
  if h.nstate ≤ q then svFail 0x05 a
  else do
    let x ← svRead k a 8 8
    let y ← svRead k (a + 8#64) 8 8
    let f := x / 2 ^ 32
    if 16 ≤ f || f % 4 = 3 then svFail 0x05 a
    else
      pure { rowBase := x % 2 ^ 32, dep := f % 4, accept := f / 4 % 2 = 1, dead := f / 8 % 2 = 1, rangeBase := y % 2 ^ 32
             nrange := y / 2 ^ 32 }

/-- A context (R389). -/
structure PdaCtx where
  table : Word
  state : Nat
  steps : Nat
  /-- Live symbols, the bottom first. -/
  stack : List Nat
  deriving DecidableEq, Repr

def symOk (h : PdaTable) (x : Nat) : Bool := 1 ≤ x && x < h.nsym

/-- The context, or saved record, at an address, checked by R389. -/
def readCtx (k : SvCmd) (ca : Word) : Sv (PdaCtx × PdaTable) := do
  let w ← svReads k ca 8 8
  let g (i : Nat) := w.getD i 0
  let depth := g 1 / 2 ^ 32
  if 1024 < depth || (w.drop 3).any (· ≠ 0) then svFail 0x06 ca
  else
    let h ← readTable k (BitVec.ofNat 64 (g 0)) 0x06 ca
    let stack ← svReads k (ca + 0x40#64) 2 depth
    if h.nstate ≤ g 1 % 2 ^ 32 || stack.any (fun x => !symOk h x) then svFail 0x06 ca
    else pure ({ table := BitVec.ofNat 64 (g 0), state := g 1 % 2 ^ 32, steps := g 2, stack := stack }, h)

/-- `Row` (R388). -/
def rowOf (k : SvCmd) (h : PdaTable) (x : PdaCtx) : Sv Nat := do
  let se ← stateEntry k h x.state
  let top := x.stack.reverse
  let t1 := top.getD 0 0
  let t2 := top.getD 1 0
  let i := se.rowBase + (if se.dep = 0 then 0 else if se.dep = 1 then t1 else t1 * h.nsym + t2)
  let a := h.rowIdx + BitVec.ofNat 64 (8 * i)
  let row ← svRead k a 8 8
  if row ≠ 0 && (row % 8 ≠ 0 || !onTablePath row) then svFail 0x05 a else pure row

/-- Code of a block of a mask row; 3 is malformed (R386). -/
def blockCode (k : SvCmd) (row b : Nat) : Sv Nat := do
  let a := BitVec.ofNat 64 (row + 8 * (b / 32))
  let w ← svRead k a 8 8
  let c := w / 2 ^ (2 * (b % 32)) % 4
  if c = 3 then svFail 0x05 a else pure c

/-- Explicit blocks among the first `n`. -/
def explicitBelow (k : SvCmd) (row : Nat) : Nat → Sv Nat
  | 0 => pure 0
  | n + 1 => do
    let x ← explicitBelow k row n
    let c ← blockCode k row n
    pure (if c = 2 then x + 1 else x)

/-- `MaskBit` (R388). -/
def maskBit (k : SvCmd) (h : PdaTable) (row t : Nat) : Sv Bool :=
  if row = 0 || h.vocab ≤ t then pure false
  else do
    let b := t / 256
    let c ← blockCode k row b
    if c ≠ 2 then pure (c = 1)
    else
      let x ← explicitBelow k row b
      let nb := (h.vocab + 255) / 256
      let byte ← svRead k (BitVec.ofNat 64 (row + 8 * ((nb + 31) / 32) + 32 * x + t % 256 / 8)) 1 1
      pure (byte / 2 ^ (t % 8) % 2 = 1)

/-- `RangeLookup` (R388): bounds [lo, hi), halving at least each turn. -/
def rangeLookup (k : SvCmd) (h : PdaTable) (se : PdaState) (t : Nat) : Nat → Nat → Nat → Sv (Option Nat)
  | 0, _, _ => pure none
  | fuel + 1, lo, hi =>
    if hi ≤ lo then pure none
    else do
      let mid := (lo + hi - 1) / 2
      let a := h.rangeTab + BitVec.ofNat 64 (8 * (se.rangeBase + mid))
      let e ← svRead k a 8 8
      let first := e % 2 ^ 20
      let last := e / 2 ^ 20 % 2 ^ 20
      if last < first then svFail 0x05 a
      else if t < first then rangeLookup k h se t fuel lo mid
      else if last < t then rangeLookup k h se t fuel (mid + 1) hi
      else pure (some (e / 2 ^ 40))

/-- An action entry (R387): symbols popped, symbols pushed, next state. -/
def readAction (k : SvCmd) (h : PdaTable) (i : Nat) : Sv (Nat × List Nat × Nat) := do
  let a := h.actTab + BitVec.ofNat 64 (16 * i)
  let x ← svRead k a 8 8
  let y ← svRead k (a + 8#64) 8 8
  let npush := x / 2 ^ 23 % 8
  let npop := x / 2 ^ 20 % 8
  let push := (List.range npush).map fun j => y / 2 ^ (16 * j) % 2 ^ 16
  if x / 2 ^ 26 ≠ 0 || 4 < npush || 4 < npop || push.any (fun s => !symOk h s) then svFail 0x05 a
  else pure (npop, push, x % 2 ^ 20)

/-! ### Results -/

/-- What a command leaves once every check has passed: its writes, in order, and its `STATUS`. -/
structure SvResult where
  writes : List (Word × List Byte)
  status : Nat
  deriving DecidableEq, Repr

/-- `STATUS` (R382). -/
def statusOf (code value retain : Nat) (acc : Bool) : Nat :=
  value % 2 ^ 32 * 2 ^ 32 + retain * 2 ^ 16 + (if acc then 256 else 0) + code

/-- A context's header, 64 bytes (R389). -/
def ctxHeader (x : PdaCtx) : List Byte :=
  leBytes 8 x.table.toNat ++ leBytes 4 x.state ++ leBytes 4 x.stack.length ++ leBytes 8 x.steps ++ leBytes 40 0

/-- Stack entries from `lo` up, then the header in one write (R390, R392). -/
def ctxWrites (ca : Word) (x : PdaCtx) (lo : Nat) : List (Word × List Byte) :=
  ((x.stack.zipIdx).drop lo).map (fun e => (ca + BitVec.ofNat 64 (0x40 + 2 * e.2), leBytes 2 e.1)) ++ [(ca, ctxHeader x)]

/-- Bytes as ascending dwords. -/
def dwordWrites (a : Word) (bs : List Byte) : List (Word × List Byte) :=
  (List.range (bs.length / 8)).map fun j => (a + BitVec.ofNat 64 (8 * j), (bs.drop (8 * j)).take 8)

/-! ### Automaton commands (R390 to R393) -/

def blockZero (k : SvCmd) (b : List Nat) (ds : List Nat) : Sv Unit := svNeed k (ds.all fun i => b.getD i 0 = 0)

/-- `PDAINIT` (R390). -/
def runPdainit (k : SvCmd) (restore : Bool) (b : List Nat) : Sv SvResult := do
  let ctx := BitVec.ofNat 64 (b.getD 0 0)
  let tbl := BitVec.ofNat 64 (b.getD 1 0)
  blockZero k b [2, 3, 4, 5, 6]
  svAddr ctx [0] 64 true
  let (x, h) ← if restore then do
      svAddr tbl [0, 1, 2, 4, 5, 6, 8] 8 false
      readCtx k tbl
    else do
      svAddr tbl [4, 5] 64 false
      let h ← readTable k tbl 0x05 tbl
      if h.init.any fun s => !symOk h s then svFail 0x05 tbl
      else
        let se ← stateEntry k h h.start
        if se.dead then svFail 0x05 (stateAddr h h.start)
        else pure ({ table := tbl, state := h.start, steps := 0, stack := h.init : PdaCtx }, h)
  let se ← stateEntry k h x.state
  pure { writes := ctxWrites ctx x 0, status := statusOf 0 x.state 0 se.accept }

/-- The mask bits of tokens t0 to t0 + n − 1. -/
def maskBits (k : SvCmd) (h : PdaTable) (row t0 : Nat) : Nat → Sv (List Bool)
  | 0 => pure []
  | n + 1 => do
    let b ← maskBit k h row t0
    let bs ← maskBits k h row (t0 + 1) n
    pure (b :: bs)

/-- Bits as bytes, the first at bit 0. -/
def packBits : Nat → List Bool → List Byte
  | 0, _ => []
  | n + 1, l => BitVec.ofNat 8 (((l.take 8).zipIdx).foldl (fun acc e => acc + (if e.1 then 2 ^ e.2 else 0)) 0) :: packBits n (l.drop 8)

/-- `PDAMASK` (R391). -/
def runPdamask (k : SvCmd) (b : List Nat) : Sv SvResult := do
  let ctx := BitVec.ofNat 64 (b.getD 0 0)
  let dst := BitVec.ofNat 64 (b.getD 1 0)
  let t0 := b.getD 2 0
  let n := b.getD 3 0
  blockZero k b [4, 5, 6]
  svNeed k (1 ≤ n && n ≤ 16384 && t0 + n ≤ 2 ^ 19)
  svAddr ctx [0] 64 false
  svAddr dst [0, 1] 8 true
  let (x, h) ← readCtx k ctx
  let row ← rowOf k h x
  let bits ← maskBits k h row t0 n
  pure { writes := dwordWrites dst (packBits ((n + 63) / 64 * 8) bits), status := statusOf 0 (bits.countP id) 0 false }

/-- `PDASTEP` (R392): the first check that holds decides the code. -/
def runPdastep (k : SvCmd) (b : List Nat) : Sv SvResult := do
  let ctx := BitVec.ofNat 64 (b.getD 0 0)
  let t := b.getD 2 0
  blockZero k b [1, 3, 4, 5, 6]
  svNeed k (t < 2 ^ 32)
  svAddr ctx [0] 64 true
  let (x, h) ← readCtx k ctx
  let se ← stateEntry k h x.state
  let stop (code : Nat) : SvResult := { writes := [], status := statusOf code x.state 0 se.accept }
  let row ← rowOf k h x
  if !(← maskBit k h row t) then pure (stop 1)
  else
    match ← rangeLookup k h se t 33 0 se.nrange with
    | none => pure (stop 1)
    | some i =>
      let (npop, push, next) ← readAction k h i
      let depth := x.stack.length
      if depth < npop then pure (stop 2)
      else if 1024 < depth - npop + push.length then pure (stop 3)
      else
        let ne ← stateEntry k h next
        if ne.dead then pure (stop 4)
        else
          let y : PdaCtx := { x with state := next, steps := (x.steps + 1) % 2 ^ 64, stack := x.stack.take (depth - npop) ++ push }
          pure { writes := ctxWrites ctx y (depth - npop), status := statusOf 0 next 0 ne.accept }

/-- `PDASAVE` (R393). -/
def runPdasave (k : SvCmd) (b : List Nat) : Sv SvResult := do
  let ctx := BitVec.ofNat 64 (b.getD 0 0)
  let dst := BitVec.ofNat 64 (b.getD 1 0)
  blockZero k b [2, 3, 4, 5, 6]
  svAddr ctx [0] 64 false
  svAddr dst [0, 1, 2, 4, 6, 8] 8 true
  let (x, _) ← readCtx k ctx
  let raw := ctxHeader x ++ x.stack.flatMap fun s => leBytes 2 s
  let out := raw ++ leBytes ((8 - raw.length % 8) % 8) 0
  pure { writes := dwordWrites dst out, status := statusOf 0 out.length 0 false }

/-! ### Sampling (R394 to R397) -/

/-- The weight table's entry (R394). -/
def weightOf (j : Nat) : Nat := if j = 0 then 0xFFFFFFFF else rneDiv (exp2Fix 128 (256 - j) 256) (2 ^ 97)

/-- ⌊(gmax − z) × L32 / 2^23⌋ for gmax ≥ z. -/
def weightStep (gmax z : Val) : Nat :=
  match valAdd gmax (valNeg z) with
  | .fin m e => (m.toNat * 0xB8AA3B29 * 2 ^ e.toNat) / (2 ^ 23 * 2 ^ (-e).toNat)
  | _ => 0

def sampleWeight (gmax z : Val) : Nat :=
  let u := weightStep gmax z
  if 8192 ≤ u then 0 else weightOf (u % 256) / 2 ^ (u / 256)

/-- z of a token (R396): none where it is excluded. -/
def sampleZ (logit tau : Nat) : Option Nat :=
  let z := rneFloat .f32 (valMul (floatVal .f32 logit) (floatVal .f32 tau))
  match floatVal .f32 z with
  | .nan => none
  | .inf true => none
  | .inf false => some 0x7F7FFFFF
  | _ => some z

/-- The included tokens of a chunk: token, z as a code, and logit address. -/
def sampleTokens (k : SvCmd) (logits mask : Word) (t0 tau : Nat) : Nat → Nat → Sv (List (Nat × Nat × Word))
  | 0, _ => pure []
  | n + 1, i => do
    let legal ← if mask = 0#64 then pure true else do
        let w ← svRead k (mask + BitVec.ofNat 64 (8 * (i / 64))) 8 8
        pure (w / 2 ^ (i % 64) % 2 = 1)
    let la := logits + BitVec.ofNat 64 (4 * i)
    let x ← svRead k la 4 4
    let rest ← sampleTokens k logits mask t0 tau n (i + 1)
    match (if legal then sampleZ x tau else none) with
    | some z => pure ((t0 + i, z, la) :: rest)
    | none => pure rest

/-- Descending weight, then ascending token. -/
def candLe (a b : Nat × Nat) : Bool := b.2 < a.2 || (a.2 = b.2 && a.1 ≤ b.1)

/-- A chunk record's 536 bytes (R395). -/
def chunkRecord (sum legal maxz kp : Nat) (cands : List (Nat × Nat)) : List Byte :=
  leBytes 8 sum ++ leBytes 4 legal ++ leBytes 4 maxz ++ leBytes 1 cands.length ++ leBytes 1 kp ++ leBytes 6 0 ++
    (cands.flatMap fun c => leBytes 4 c.2 ++ leBytes 4 c.1) ++ leBytes (8 * (64 - cands.length)) 0

/-- `SAMPLEP` (R396). -/
def runSamplep (k : SvCmd) (scan : Bool) (b : List Nat) : Sv SvResult := do
  let logits := BitVec.ofNat 64 (b.getD 0 0)
  let mask := BitVec.ofNat 64 (b.getD 1 0)
  let t0 := b.getD 2 0
  let n := b.getD 3 0
  let tau := b.getD 4 0 % 2 ^ 32
  let gm := b.getD 4 0 / 2 ^ 32
  let kk := b.getD 5 0
  let rec_ := BitVec.ofNat 64 (b.getD 6 0)
  let tauOk := match floatVal .f32 tau with
    | .fin m _ => decide (0 < m)
    | _ => false
  svNeed k (1 ≤ n && n ≤ 16384 && t0 + n ≤ 2 ^ 19 && 1 ≤ kk && kk ≤ 64 && tauOk)
  svAddr logits [0, 1] 4 false
  if mask ≠ 0#64 then svAddr mask [0, 1] 8 false else pure ()
  svAddr rec_ [0, 1] 8 true
  let toks ← sampleTokens k logits mask t0 tau n 0
  let value (z : Nat) := floatVal .f32 z
  let maxz := toks.foldl (fun best t => if valBelow (value best) (value t.2.1) then t.2.1 else best) 0xFF800000
  if scan then
    pure { writes := dwordWrites rec_ (chunkRecord 0 toks.length maxz kk []), status := statusOf 0 toks.length 0 false }
  else
    let gmax := value gm
    if isNaN gmax || gmax = .inf false then svFail 0x07 logits
    else
      match toks.find? fun t => valLt gmax (value t.2.1) with
      | some t => svFail 0x07 t.2.2
      | none =>
        let ws := toks.map fun t => (t.1, sampleWeight gmax (value t.2.1))
        let cands := (sortBy candLe (ws.filter fun w => w.2 ≠ 0)).take kk
        pure { writes := dwordWrites rec_ (chunkRecord ((ws.map (·.2)).sum) toks.length maxz kk cands)
               status := statusOf 0 toks.length 0 false }

/-- The candidates of a record: (token, weight). -/
def readCands (k : SvCmd) (ra : Word) : Nat → Nat → Sv (List (Nat × Nat))
  | 0, _ => pure []
  | n + 1, i => do
    let w ← svRead k (ra + BitVec.ofNat 64 (0x18 + 8 * i)) 4 4
    let t ← svRead k (ra + BitVec.ofNat 64 (0x1C + 8 * i)) 4 4
    let rest ← readCands k ra n (i + 1)
    pure ((t, w) :: rest)

/-- The chunk records, in ascending order: `SUM`, `LEGAL`, candidates, address (R397). -/
def readRecords (k : SvCmd) (kk : Nat) (stride : Nat) : Nat → Word → Sv (List (Nat × Nat × List (Nat × Nat) × Word))
  | 0, _ => pure []
  | n + 1, ra => do
    let sum ← svRead k ra 8 8
    let lm ← svRead k (ra + 8#64) 8 8
    let ck ← svRead k (ra + 0x10#64) 8 8
    let count := ck % 256
    let kp := ck / 256 % 256
    if kp < kk || kp < count || 64 < kp then svFail 0x08 ra
    else
      let cs ← readCands k ra count 0
      if cs.any fun c => c.2 = 0 then svFail 0x08 ra
      else
        let rest ← readRecords k kk stride n (ra + BitVec.ofNat 64 stride)
        pure ((sum, lm % 2 ^ 32, cs, ra) :: rest)

/-- The record at which a token appears for the second time. -/
def duplicateAt : List (Nat × Word) → List Nat → Option Word
  | [], _ => none
  | (t, ra) :: rest, seen => if seen.contains t then some ra else duplicateAt rest (t :: seen)

/-- The least number of leading candidates whose weight reaches the top-p share, or all of them (R397). -/
def retained (topp s : Nat) : List Nat → Nat → Nat → Nat
  | [], m, _ => m
  | w :: ws, m, acc => if topp * s ≤ 65536 * (acc + w) then m + 1 else retained topp s ws (m + 1) (acc + w)

/-- The first token whose running weight sum exceeds h. -/
def drawToken (h : Nat) : List (Nat × Nat) → Nat → Nat
  | [], _ => 0xFFFFFFFF
  | (t, w) :: rest, acc => if h < acc + w then t else drawToken h rest (acc + w)

/-- `SAMPLEF` (R397). -/
def runSamplef (k : SvCmd) (b : List Nat) : Sv SvResult := do
  let recs := BitVec.ofNat 64 (b.getD 0 0)
  let nrec := b.getD 1 0
  let kk := b.getD 2 0 % 2 ^ 32
  let stride := b.getD 2 0 / 2 ^ 32
  let topp := b.getD 3 0
  svNeed k (1 ≤ nrec && nrec ≤ 64 && 1 ≤ kk && kk ≤ 64 && 536 ≤ stride && stride < 2 ^ 16 && 1 ≤ topp && topp ≤ 65536)
  svAddr recs [0, 1] 8 false
  if stride % 8 ≠ 0 then svFail 0x03 recs else pure ()
  let rs ← readRecords k kk stride nrec recs
  match duplicateAt (rs.flatMap fun r => r.2.2.1.map fun c => (c.1, r.2.2.2)) [] with
  | some ra => svFail 0x08 ra
  | none =>
    let s := (rs.map (·.1)).sum
    let legal : Nat := (rs.map fun r => r.2.1).sum
    let cs := (sortBy candLe (rs.flatMap fun r => r.2.2.1)).take kk
    if legal = 0 then pure { writes := [], status := statusOf 5 0xFFFFFFFF 0 false }
    else if cs.isEmpty then pure { writes := [], status := statusOf 6 0xFFFFFFFF 0 false }
    else
      let r := retained topp s (cs.map (·.2)) 0 0
      let kept := sortBy (fun a b => decide (a.1 ≤ b.1)) (cs.take r)
      let w := (kept.map (·.2)).sum
      let u := mix64 (mix64 (BitVec.ofNat 64 (b.getD 4 0)) (BitVec.ofNat 64 (b.getD 5 0))) (BitVec.ofNat 64 (b.getD 6 0))
      pure { writes := [], status := statusOf 0 (drawToken (u.toNat * w / 2 ^ 64) kept 0) r false }

/-! ### Execution (R378, R380, R400) -/

/-- The writes' places, each checked before the first is made; a page in EX mode counts towards the limit (R393). -/
def svCheckWrites (k : SvCmd) : List (Word × List Byte) → Sv Nat
  | [] => pure 0
  | (va, bs) :: rest => do
    match cmdCheck (← get) k.core k.c va bs.length (min bs.length 8) true with
    | .error e => svThrow (engStop svSub va 6 e)
    | .ok p =>
      let n ← svCheckWrites k rest
      pure (n + if p.mode = .ex then 1 else 0)

/-- The writes made in order, deferred ones in that order (R393). -/
def svWrites (k : SvCmd) : List (Word × List Byte) → Nat → Sv Unit
  | [], _ => pure ()
  | (va, bs) :: rest, i => do
    let s ← cmdWrite svSub 0x0B k.core k.c i va bs (min bs.length 8) (← get)
    set s
    svWrites k rest (i + 1)

/-- The start of a command (R380): its completion operand checked, and its block read. A command that goes on after a park has started.
-/
def svStart (k : SvCmd) : Sv (List Byte) := do
  match k.c.read.bind List.head? with
  | some bs => pure bs
  | none =>
    if !completionOk (← get) k.core k.c.guard k.c.b then svThrow (.late 0x0C 0#64 7) else pure ()
    svAddr k.c.a [0] 64 false
    let (bs, s) ← cmdRead svSub k.core k.c k.c.a 64 64 (← get)
    set s
    pure bs

/-- A command's part before its first write, with its block (R400): reads and checks; then the writes it will make, `STATUS` the last. -/
def svPlan (k : SvCmd) (bs : List Byte) : Sv (List (Word × List Byte)) := do
  let b := (List.range 8).map fun i => bytesNat bs (8 * i) 8
  let r ← match k.c.instr with
    | .pdainit _ _ x => runPdainit k (x = 1#1) b
    | .pdamask .. => runPdamask k b
    | .pdastep .. => runPdastep k b
    | .samplep _ _ x => runSamplep k (x = 1#1) b
    | .samplef .. => runSamplef k b
    | _ => runPdasave k b
  let all := r.writes ++ [(k.c.a + 0x38#64, leBytes 8 r.status)]
  let n ← svCheckWrites k all
  let t := getStrand (← get) k.core (cmdStrand k.c)
  if n ≠ 0 && queueLimit t < t.deferred + n then svThrow (.late 0x0B ((r.writes.headD (0#64, [])).1) 6) else pure ()
  pure all

/-- A command: its reads and checks, then its writes. -/
def runSelvedge (k : SvCmd) (bs : List Byte) : Sv Unit := do
  let all ← svPlan k bs
  svWrites k all 0

/-- The bytes a command is about to write, by key and count. -/
def svOutputs (k : SvCmd) (bs : List Byte) (s : State) : List (Nat × Nat) :=
  match (svPlan k bs).run s with
  | .error _ => []
  | .ok (all, s1) => all.filterMap fun w =>
    match cmdCheck s1 k.core k.c w.1 w.2.length (min w.2.length 8) true with
    | .ok p => if p.mode = .ex then none else some (p.key, w.2.length)
    | .error _ => none

/-- The unit works on the command: its core works, or a pre-emption lets the command in flight finish (R402); and no earlier command has a
descriptor to read where it writes. -/
def svMayRun (s : State) (core : Nat) (c : Cmd) : Bool :=
  (enginesRun s core || (finishesRun s core && (c.started || c.parked ≠ .ready))) && keepsViews s core c (selvedgeFoot s core c).writes

/-- `SELVEDGE_COMMAND_START` (R378): the core's next command, executed whole; where the core's units can be stopped in flight, it is in flight
first (R402; log entry 10). -/
def execSelvedgeCommandStart (core : Nat) (s : State) : Out State :=
  match (getCore s core).sq with
  | [] => .next s
  | c0 :: _ =>
    if !svMayRun s core c0 then .next s
    else
      let t0 := s.thread
      match (svStart { core := core, c := c0 }).run s with
      | .error e =>
        let s1 := stoppedAt s e
        .next (stopCmd s1 core .selvedge { c0 with threads := c0.threads ++ threadsSince s1 t0 } e.1)
      | .ok (bs, s1) =>
        let c := { c0 with read := some [bs], threads := c0.threads ++ threadsSince s1 t0 }
        let k : SvCmd := { core := core, c := c }
        if (getCore s core).slice ≠ 0 && !c0.started then
          .next (modCore s1 core fun x => putHead x .selvedge { c with started := true, outputs := svOutputs k bs s1 })
        else
          match (runSelvedge k bs).run s1 with
          | .error e =>
            let s2 := stoppedAt s1 e
            .next (stopCmd s2 core .selvedge { c with threads := c0.threads ++ threadsSince s2 t0 } e.1)
          | .ok (_, s2) =>
            let s3 := completionWrite s2 core c c.b (cmdClock c0 (threadsSince s2 t0)) false
            .next (completeCmd s3 core .selvedge c)

/-! ### Issue (R379) -/

def svIssue (i : Instr) (a b : BitVec 5) (s : State) : Out State :=
  issueWord i s fun s => issueCommand s .selvedge i [] (readS s a) (readS s b) 0#64 noStart false

/-- `PDAINIT` (R390). -/
def execPdainit (a b : BitVec 5) (r : BitVec 1) (s : State) : Out State := svIssue (.pdainit a b r) a b s

/-- `PDAMASK` (R391). -/
def execPdamask (a b : BitVec 5) (s : State) : Out State := svIssue (.pdamask a b) a b s

/-- `PDASTEP` (R392). -/
def execPdastep (a b : BitVec 5) (s : State) : Out State := svIssue (.pdastep a b) a b s

/-- `SAMPLEP` (R396). -/
def execSamplep (a b : BitVec 5) (k : BitVec 1) (s : State) : Out State := svIssue (.samplep a b k) a b s

/-- `SAMPLEF` (R397). -/
def execSamplef (a b : BitVec 5) (s : State) : Out State := svIssue (.samplef a b) a b s

/-- `PDASAVE` (R393). -/
def execPdasave (a b : BitVec 5) (s : State) : Out State := svIssue (.pdasave a b) a b s

end Sys2Proof.Machine
end

