-- ==== Sys2Proof/Machine/SpecInstr.lean ====
section
/-! DEFINITION. The specialiser's instruction forms as unspecialised and residual code executes them (R192 to R194). -/

namespace Sys2Proof.Machine

/-- `SASSERT` (R192): no effect under unspecialised execution; condition codes 6 and 7 are no fields of the form. -/
def execSassert (a b : BitVec 5) (c : BitVec 3) (s : State) : Out State :=
  issueWord (.sassert a b c) s fun s => .ok (retire s)

/-- `SGROW` (R193): no effect under unspecialised execution. -/
def execSgrow (p : BitVec 6) (s : State) : Out State := issueWord (.sgrow p) s fun s => .ok (retire s)

/-- The back-map's answer for a register value (R194). -/
def sbmapValue (s : State) (x : Word) : Word :=
  if x.extractLsb' 18 46 ≠ 0#46 then 0x0000FFFF00000000#64
  else
    let (rt, off, idx) := backMap s s.ctx.core ((x.setWidth 18) &&& ~~~3#18)
    BitVec.ofNat 64 (rt % 2 ^ 16 * 2 ^ 32 + idx % 2 ^ 12 * 2 ^ 20 + off % 2 ^ 20)

/-- `SBMAP` (R194). -/
def execSbmap (d a : BitVec 5) (s : State) : Out State :=
  issueWord (.sbmap d a) s fun s => .ok (retire (writeS s d (sbmapValue s (readS s a))))

end Sys2Proof.Machine
end

