-- ==== Sys2Proof/Machine/System.lean ====
section
/-! DEFINITION. System instructions (R172), `SYNC` (R20), `IFENCE` (R132), the control-register instructions (R173, R174) and
the trap of a word that is no instruction (R45, R47, R57). -/

namespace Sys2Proof.Machine

/-- `TRAP` (R172): entry with the next word's address. -/
def execTrap (n : BitVec 6) (s : State) : Out State :=
  issueWord (.trap n) s fun s =>
    .ok (setEvent (trapEntry s s.ctx.core s.ctx.strand cTrap 0 (nextAddr s) 0#64 (preciseInfo n.toNat false 7)) .trapped)

/-- `BRK` (R171, R172): halts the core where breakpoints are enabled for the region, else raises breakpoint. -/
def execBrk (n : BitVec 6) (s : State) : Out State :=
  issueWord (.brk n) s fun s =>
    if (myRegion s).breakpoints then .ok (modMyCore (jumpTo s ((nextAddr s).setWidth 64)) fun x => { x with halted := true })
    else
      .ok (setEvent (trapEntry s s.ctx.core s.ctx.strand cBreak 0 (nextAddr s) 0#64 (preciseInfo n.toNat false 7)) .trapped)

/-- The replay an `ERET` resumes: the buffer reloaded from `BODY`, at the word `REP_STATE` names (R109, R172). -/
def resumeReplay (s : State) : State :=
  let t := me s
  if t.replaying then
    let (words, s1) := bodyWords s s.ctx.core s.ctx.strand (repBody t.repState) (repBlen t.repState)
    modMe s1 fun t => { t with repBuf := words, pc := repBody t.repState + BitVec.ofNat 18 (4 * repWord t.repState) }
  else s

/-- `ERET` (R172); from the receive-queue-overflow handler, held messages are appended (R165). A replay's body is read once the vector stores
dispatched before are performed (R145, R223; log entry 8). -/
def execEret (s : State) : Out State :=
  issueWord .eret s fun s =>
    let t := me s
    if !t.trap.status.getLsbD 0 then .error (illegal s)
    else if (returnFrom t).replaying && vqStores s then .error (.wait .stall)
    else
      let s1 := resumeReplay (modMe s returnFrom)
      .ok (if fieldOf t.trap.status 3 2 = 2 then appendHeld s1 s.ctx.core else s1)

/-- `END` (R172): parks a pre-empted strand, ends a helper strand, or votes to end the region and waits as `SYNC`. A handoff point (R138). In
the T phase it is illegal but for a control strand that has voted, whose own `END` a pre-emption runs again (R167). -/
def execEndOp (s : State) : Out State :=
  issueWord .endOp s fun s =>
    let t := me s
    if t.trap.status.getLsbD 0 then
      if fieldOf t.trap.status 3 2 = 1 && !t.trap.status.getLsbD 4 then .error (.wait .parked)
      else .error (illegal s)
    else
      if (myRegion s).phase = .t && !(s.ctx.strand = 0 && (myCore s).vote) then .error (illegal s)
      else if strandNo t ≠ 0 then
        if performedAll s then .ok (modMe s fun t => { t with live := false }) else .error (.wait .stall)
      else if t.released then .ok (retire (modMe s fun t => { t with released := false }))
      else .ok (block (modMyCore s fun x => { x with vote := true }) .barrier)

/-- `SYNC` (R20): the control strand stalls until the barrier completes; a drain point. -/
def execSync (s : State) : Out State :=
  issueWord .sync s fun s =>
    if s.ctx.strand ≠ 0 then .error (illegal s)
    else if (me s).released then .ok (retire (modMe s fun t => { t with released := false }))
    else .error (.wait .barrier)

/-- `IFENCE` (R132): the strand's fetched words are discarded; its vector stores before it are performed, so that a later fetch observes
them (R145, R223). -/
def execIfence (s : State) : Out State :=
  issueWord .ifence s fun s =>
    if vqBusy s then .error (.wait .stall)
    else .ok (retire (modMyCore s fun x => { x with fetched := x.fetched.filter fun f => f.1 ≠ s.ctx.strand }))

/-! ### Control registers (R173, R174) -/

/-- The rights of R174 to write a register. -/
inductive CrRight where
  | never
  | handler
  | always
  | ignored
  deriving DecidableEq, Repr

def crRight (sel : Nat) : CrRight :=
  if sel = 0x000 then .never
  else if sel ≤ 0x008 then .handler
  else if 0x010 ≤ sel && sel ≤ 0x014 then .ignored
  else if sel = 0x021 || sel = 0x025 || sel = 0x056 || sel = 0x057 || sel = 0x070 || sel = 0x071 then .ignored
  else if sel = 0x020 || sel = 0x022 || sel = 0x023 || (0x030 ≤ sel && sel ≤ 0x032) || (0x060 ≤ sel && sel ≤ 0x065) then
    .handler
  else .always

/-- The waits of R246 and R247: the matrix unit's registers are read and written between its commands. The registers that a faulting copy
writes are read and written between the strand's own copies, so that timing does not show (R26, R28; log entry 39). -/
def crWaits (s : State) (sel : Nat) : Bool :=
  (0x050 ≤ sel && sel ≤ 0x055 && !(myCore s).mq.isEmpty) ||
    ((sel = 0x056 || sel = 0x057) && (myCore s).mq.any fun c => c.strand = s.ctx.strand) ||
    (0x060 ≤ sel && sel ≤ 0x065 && copiesOut s)

/-- A control-register access: the old value into `sD`, and the new one, where it is written, into the RW fields. A register
in conflict holds an undefined value until it is next written (R86). -/
def crAccess (i : Instr) (d : BitVec 5) (r : BitVec 12) (new : Option (Word → Word)) (s : State) : Out State :=
  issueWord i s fun s =>
    let sel := r.toNat
    let hm := (me s).trap.status.getLsbD 0
    let right := crRight sel
    if new.isSome && (right = .never || (right = .handler && !hm)) then .error (illegal s)
    else if crWaits s sel then .error (.wait .stall)
    else
      let writes := new.isSome && right ≠ .ignored
      let (s1, bad) := if crPerStrand sel || crPerPackage sel then (s, false) else noteReg s sel writes
      let (v, s2) :=
        if bad then
          let (x, s') := freshV s1
          (crMerge (crValue s s.ctx.core s.ctx.strand sel) (x.setWidth 64) (crMask sel), s')
        else (crValue s s.ctx.core s.ctx.strand sel, s1)
      let v' := match new with
        | some f => if writes && !bad then crMerge v (f v) (crMask sel) else v
        | none => v
      let s3 := if writes || bad then crPut s2 s.ctx.core s.ctx.strand sel v' else s2
      .ok (retire (writeS s3 d v))

/-- `CRR` (R173). -/
def execCrr (d : BitVec 5) (r : BitVec 12) (s : State) : Out State := crAccess (.crr d r) d r none s

/-- `CRW` (R173). -/
def execCrw (d a : BitVec 5) (r : BitVec 12) (s : State) : Out State :=
  crAccess (.crw d a r) d r (some fun _ => readS s a) s

/-- `CRS` (R173). -/
def execCrs (d a : BitVec 5) (r : BitVec 12) (s : State) : Out State :=
  crAccess (.crs d a r) d r (some fun v => v ||| readS s a) s

/-- `CRC` (R173). -/
def execCrc (d a : BitVec 5) (r : BitVec 12) (s : State) : Out State :=
  crAccess (.crc d a r) d r (some fun v => v &&& ~~~(readS s a)) s

/-! ### Words that are no instruction (R45, R47, R57) -/

/-- `ILLEGAL_INSTRUCTION` (R57), and the placement and fetch-bound faults of R47: taken before any effect. -/
def execIllegalInstruction (why : FetchFault) (s : State) : Out State :=
  if (me s).live then
    .next (match why with
      | .instructionAddress target => raise s cInstrAddr 0 target 7
      | .fetchBounds addr => raise s cAccess 3 addr 0
      | .misalignedBundle w => raise s cMisalignedBundle 0 (w.setWidth 64) 7
      | .bundleClass w => raise s cBundleClass 0 (w.setWidth 64) 7
      | .illegal w => raise s cIllegal 0 (w.setWidth 64) 7)
  else .fault .noStrand

end Sys2Proof.Machine
end

