-- ==== Sys2Proof/Machine/VecMem.lean ====
section
/-! DEFINITION. The vector unit's loads and stores (R238 to R242), the dispatch of every vector instruction and the execution of
one left dispatched (R222 to R224). -/

namespace Sys2Proof.Machine

/-! ### Accesses (R223, R224) -/

/-- Late-vector subcodes; a die SRAM access outside the region's range, or to a tile not held, is 0x01 (R34; log entry 17). -/
def vecSub : AccErr → Nat
  | .bounds => 0x02
  | .misaligned => 0x03
  | _ => 0x01

def vLate (sub : Nat) (va : Word) (write : Bool) : EngErr := .late sub va (if write then 6 else 5)

/-- `CheckAccess` as a late fault; on path 0x0 it also waits for a command of the core (R36). -/
def vCheck (s : State) (va : Word) (n al : Nat) (write : Bool) : Eng Place :=
  match checkAccess s (asMe s) va n al (if write then .store else .load) with
  | .error e => .error (engStop vecSub va (if write then 6 else 5) e, s)
  | .ok p =>
    match accessReady s p n write with
    | .error _ => .error (.stall, s)
    | .ok _ => .ok p

/-- Every element address is checked, lowest-numbered first: those beyond the base's memory are range faults (R224, R239). -/
def vChecks (s : State) (path w : Nat) (write : Bool) : List (Nat × Word) → Eng (List (Nat × Place))
  | [] => .ok []
  | (e, va) :: rest =>
    if fieldOf va 63 60 ≠ path then .error (vLate 0x01 va write, s)
    else do
      let p ← vCheck s va w w write
      let ps ← vChecks s path w write rest
      pure ((e, p) :: ps)

/-- The elements loaded, in ascending order. -/
def vLoads (w : Nat) : List (Nat × Place) → State → List (Nat × Nat) × State
  | [], s => ([], s)
  | (e, p) :: rest, s =>
    let (bs, s1) := loadAt s (whoMe s) p w
    let (more, s2) := vLoads w rest s1
    ((e, leNat bs) :: more, s2)

/-- The elements stored, in ascending order. -/
def vStores (w : Nat) (x : Nat → Nat) (l : List (Nat × Place)) (s : State) : State :=
  l.foldl (fun s ep => storeAt s (whoMe s) ep.2 (leBytes w (x ep.1)) false) s

/-- Loaded elements put into a register. -/
def vFill (s : State) (d : BitVec 5) (w : Nat) (xs : List (Nat × Nat)) : State :=
  writeV s d (buildV w fun e => (mapGet? xs e).getD (vElem s d w e))

/-- The addresses of the active elements. -/
def vAddrs (s : State) (m : BitVec 3) (w : Nat) (f : Nat → Word) : List (Nat × Word) :=
  ((List.range (lanes w)).filter (laneOn s m w)).map fun e => (e, f e)

/-- The first active element's address, which a fault of the whole access names (R224); the address itself where none is active. -/
def firstActive (va : Word) (addrs : List (Nat × Word)) : Word := (addrs.head?.map (·.2)).getD va

/-- The size of the memory of paths 0x0 to 0x2 (R238). -/
def memorySize (path : Nat) : Nat := if path = 0 then 2 ^ 18 else if path = 1 then 2 ^ 19 else 2 ^ 26

/-- The lowest-numbered of the elements, active or not, that lies beyond the memory's size. -/
def beyondSize (va : Word) (w : Nat) : Option Word :=
  ((List.range (lanes w)).find? fun e => memorySize (fieldOf va 63 60) < fieldOf va 59 0 + e * w + w).map fun e =>
    va + BitVec.ofNat 64 (e * w)

/-- The contiguous form of `VLD` and `VST` (R238): element places, every active one checked; then the 32 bytes, all of which lie within the
memory's size whatever the mask. -/
def vContiguous (s : State) (b c : BitVec 5) (m : BitVec 3) (t : BitVec 4) (write : Bool) : Eng (List (Nat × Place)) :=
  let w := typeWidth t
  let va := readS s b + readS s c
  let addrs := vAddrs s m w fun e => va + BitVec.ofNat 64 (e * w)
  if 2 < fieldOf va 63 60 then .error (vLate 0x01 (firstActive va addrs) write, s)
  else if va.toNat % w ≠ 0 then .error (vLate 0x03 (firstActive va addrs) write, s)
  else
    match vChecks s (fieldOf va 63 60) w write addrs, beyondSize va w with
    | .ok _, some a => .error (vLate 0x01 a write, s)
    | r, _ => r

/-- `VLD` (R238). -/
def effVld (v b c : BitVec 5) (m : BitVec 3) (t : BitVec 4) (s : State) : Eng State := do
  let ps ← vContiguous s b c m t false
  let (xs, s1) := vLoads (typeWidth t) ps s
  pure (vFill s1 v (typeWidth t) xs)

/-- `VST` (R238). -/
def effVst (v b c : BitVec 5) (m : BitVec 3) (t : BitVec 4) (s : State) : Eng State := do
  let ps ← vContiguous s b c m t true
  pure (vStores (typeWidth t) (vElem s v (typeWidth t)) ps s)

/-- The indexed form (R239). -/
def vIndexed (s : State) (b c : BitVec 5) (m : BitVec 3) (t : BitVec 4) (write : Bool) : Eng (List (Nat × Place)) :=
  let w := typeWidth t
  let base := readS s b
  let addrs := vAddrs s m w fun e => base + BitVec.ofNat 64 (vElem s c w e * w)
  if 1 < fieldOf base 63 60 then .error (vLate 0x01 (firstActive base addrs) write, s)
  else
    let beyond := addrs.filter fun a => 2 ^ 64 ≤ base.toNat + vElem s c w a.1 * w
    match beyond with
    | a :: _ => if (addrs.head?.map (·.1)) = some a.1 then .error (vLate 0x01 a.2 write, s)
                else (vChecks s (fieldOf base 63 60) w write (addrs.takeWhile fun x => x.1 ≠ a.1)).bind fun _ => .error (vLate 0x01 a.2 write, s)
    | [] => vChecks s (fieldOf base 63 60) w write addrs

/-- `VGATHER` (R239). -/
def effVgather (v b c : BitVec 5) (m : BitVec 3) (t : BitVec 4) (s : State) : Eng State := do
  let ps ← vIndexed s b c m t false
  let (xs, s1) := vLoads (typeWidth t) ps s
  pure (vFill s1 v (typeWidth t) xs)

/-- `VSCATTER` (R239): of two elements at one address, the higher-numbered stays. -/
def effVscatter (v b c : BitVec 5) (m : BitVec 3) (t : BitVec 4) (s : State) : Eng State := do
  let ps ← vIndexed s b c m t true
  pure (vStores (typeWidth t) (vElem s v (typeWidth t)) ps s)

/-! ### Stippled forms (R240, R241) -/

/-- The view, its address, the code, scale and position operands of a stippled form, checked in order (R240). -/
structure QOperands where
  d : ViewDesc
  da : Word
  ca : Word
  sa : Word
  p0 : Nat
  deriving DecidableEq, Repr

/-- The operands of a stippled access of the active elements: its descriptor, and the addresses as a whole, whose faults are reported at the
lowest-numbered element (R224), or, where no element is active, at the array's address: the model's choice (log entry 86). -/
def qOperands (sv : Vector Word 8) (b : BitVec 5) (g : BitVec 3) (t : BitVec 4) (write : Bool) (act : List Nat) (s : State) :
    Eng (QOperands × State) :=
  let da := BitVec.ofNat 64 (descAddr (sv[g.toNat]'g.isLt))
  let ca := readS s b
  let sa := readS s (b + 1#5)
  match vCheck s da 128 128 false with
  | .error (.stall, _) => .error (.stall, s)
  | .error _ => .error (.late 0x04 da 5, s)
  | .ok p =>
    let (bs, s1) := loadAt s (whoMe s) p 128
    match parseView bs t with
    | none => .error (.late 0x04 da 5, s1)
    | some d =>
      let p0 := (readS s (b + 2#5)).toNat
      let st := (act.head?.map fun e => d.skip + p0 + e).getD 0
      let code := ca + BitVec.ofNat 64 (if t = 0xC#4 then 4 * (st / 8) else st)
      if 1 < fieldOf ca 63 60 then .error (vLate 0x01 code write, s1)
      else if 1 < fieldOf sa 63 60 then .error (vLate 0x01 (sa + BitVec.ofNat 64 (st / 32)) false, s1)
      else if ca.toNat % (if t = 0xC#4 then 16 else 32) ≠ 0 then .error (vLate 0x03 code write, s1)
      else .ok ({ d := d, da := da, ca := ca, sa := sa, p0 := p0 }, s1)

/-- One stippled element's place: position, index, scale byte and code unit (R213, R202). -/
structure QElem where
  e : Nat
  n : Nat
  st : Nat
  scale : Place
  code : Place
  deriving DecidableEq, Repr

/-- The active elements, each checked before any is accessed. `ACC` of a view fault (R224, which gives 5 for a read and 6 for a write) is 5 for
an invalid descriptor, a `ViewFault` or a position beyond the view, and 6 for the coverage of an INT4X store (log entry 81). -/
def qElems (s : State) (o : QOperands) (q4 write : Bool) : List Nat → Eng (List QElem)
  | [] => .ok []
  | e :: rest =>
    match viewIndex o.d (o.p0 + e) with
    | none => .error (.late 0x04 o.da 5, s)
    | some n => do
      let st := o.d.skip + o.p0 + e
      let ea := o.sa + BitVec.ofNat 64 (st / 32)
      let ca := o.ca + BitVec.ofNat 64 (if q4 then 4 * (st / 8) else st)
      if fieldOf ea 63 60 ≠ fieldOf o.sa 63 60 then .error (vLate 0x01 ea false, s)
      let sp ← vCheck s ea 1 1 false
      if fieldOf ca 63 60 ≠ fieldOf o.ca 63 60 then .error (vLate 0x01 ca write, s)
      let cp ← vCheck s ca (if q4 then 4 else 1) (if q4 then 4 else 1) write
      let more ← qElems s o q4 write rest
      pure ({ e := e, n := n, st := st, scale := sp, code := cp } :: more)

/-- The values of stippled elements, as FP32 codes. -/
def qLoads (o : QOperands) (q4 : Bool) : List QElem → State → List (Nat × Nat) × State
  | [], s => ([], s)
  | x :: rest, s =>
    let (eb, s1) := loadAt s (whoMe s) x.scale 1
    let (cb, s2) := loadAt s1 (whoMe s1) x.code (if q4 then 4 else 1)
    let kind := if q4 then (decodeQ4X (leNat cb)).getD (x.st % 8) .zero else .code (BitVec.ofNat 8 (leNat cb)).toInt
    let y := rneFloat .f32 (decodeStippled kind (leNat eb) o.d.seed x.n o.d.zp)
    let (more, s3) := qLoads o q4 rest s2
    ((x.e, y) :: more, s3)

def activeFloats (s : State) (m : BitVec 3) : List Nat := (List.range 8).filter (laneOn s m 4)

/-- `VLDQ` (R240). -/
def effVldq (v b : BitVec 5) (g m : BitVec 3) (t : BitVec 4) (sv : Vector Word 8) (s : State) : Eng State := do
  let (o, s1) ← qOperands sv b g t false (activeFloats s m) s
  let xs ← qElems s1 o (t = 0xC#4) false (activeFloats s m)
  let (ys, s2) := qLoads o (t = 0xC#4) xs s1
  pure (vFill s2 v 4 ys)

/-- The Q8 codes of the elements: every scale byte is read before any code is stored (R223). -/
def q8Codes (o : QOperands) (val : Nat → Val) : List QElem → State → List (Place × Nat) × State
  | [], s => ([], s)
  | x :: rest, s =>
    let (eb, s1) := loadAt s (whoMe s) x.scale 1
    let (more, s2) := q8Codes o val rest s1
    ((x.code, quantiseQ8 (val x.e) (leNat eb) o.d.seed x.n o.d.zp) :: more, s2)

/-- `VSTQ` (R241): the codes are one store, after every scale read. A view whose `SKIP` is no multiple of 8 is refused for `.q4x` (R217). -/
def effVstq (v b : BitVec 5) (g m : BitVec 3) (t : BitVec 4) (sv : Vector Word 8) (s : State) : Eng State := do
  let act := activeFloats s m
  let (o, s1) ← qOperands sv b g t true act s
  let val (e : Nat) := floatVal .f32 (vElem s v 4 e)
  if t = 0xC#4 then
    if o.d.skip % 8 ≠ 0 || (o.d.skip + o.p0) % 8 ≠ 0 then .error (.late 0x04 o.da 6, s1)
    else if act.isEmpty then pure s1
    else if act.length ≠ 8 then .error (.late 0x04 o.da 6, s1)
    else
      let xs ← qElems s1 o true true act
      match xs with
      | [] => pure s1
      | x :: _ =>
        let (eb, s2) := loadAt s1 (whoMe s1) x.scale 1
        let w := quantiseQ4X ((List.range 8).map val) (leNat eb) o.d.seed (xs.map (·.n)) o.d.zp
        pure (storeAt s2 (whoMe s2) x.code (leBytes 4 w) false)
  else
    let xs ← qElems s1 o false true act
    let (codes, s2) := q8Codes o val xs s1
    pure (codes.foldl (fun s x => storeAt s (whoMe s) x.1 (leBytes 1 x.2) false) s2)

/-! ### `HSIFT` (R242) -/

def scoreNaN (t : BitVec 4) (x : Nat) : Bool := isNaN (elemVal t x)

/-- The first of two (score, index) pairs ranks above the second, or they tie. -/
def ranksAbove (t : BitVec 4) (a b : Nat × Nat) : Bool :=
  let x := elemVal t a.1
  let y := elemVal t b.1
  valLt y x || (valEq x y && a.2 ≤ b.2)

/-- `HSIFT` (R242): one load and one store of the 72 bytes. Two pairs of one index whose scores are zeros of either sign tie; the heap's
entries keep their place before the new one (log entry 82). `ACC` of an invalid header is 5: the header is read (log entry 81). -/
def effHsift (v b : BitVec 5) (m : BitVec 3) (t : BitVec 4) (s : State) : Eng State := do
  let h := readS s b
  let ib := (readS s (b + 1#5)).toNat % 2 ^ 32
  if fieldOf h 63 60 ≠ 0 then .error (vLate 0x01 h true, s)
  else if h.toNat % 8 ≠ 0 then .error (vLate 0x03 h true, s)
  else if fieldOf h 59 18 = 0 && 2 ^ 18 < fieldOf h 17 0 + 72 then .error (vLate 0x01 h true, s)
  else
    let p ← vCheck s h 72 8 true
    let (bs, s1) := loadAt s (whoMe s) p 72
    let k := bytesNat bs 0 1
    let n := bytesNat bs 1 1
    if k = 0 || 8 < k || k < n || bytesNat bs 2 6 ≠ 0 then .error (.late 0x05 h 5, s1)
    else
      let old := (List.range n).map fun j => (bytesNat bs (8 + 8 * j) 4, bytesNat bs (12 + 8 * j) 4)
      let new := (activeFloats s m).map fun e => (vElem s v 4 e, (ib + e) % 2 ^ 32)
      let l := (sortBy (ranksAbove t) ((old ++ new).filter fun x => !scoreNaN t x.1)).take k
      let out := leBytes 1 k ++ leBytes 1 l.length ++ leBytes 6 0 ++ (l.flatMap fun x => leBytes 4 x.1 ++ leBytes 4 x.2) ++
        leBytes (8 * (8 - l.length)) 0
      pure (storeAt s1 (whoMe s1) p out false)

/-! ### Dispatch (R222, R160) -/

/-- A faulting vector instruction's late fault. -/
def vectorFault (t : Strand) (q : BitVec 8) (sub : Nat) (faddr : Word) (acc : Nat) : Strand :=
  { t with late := t.late ++
      [{ eng := .vector, seq := q, sub := BitVec.ofNat 8 sub, acc := BitVec.ofNat 3 acc, faddr := faddr, cancelled := 0, clock := [] }] }

/-- A vector instruction at issue: it takes a sequence number and a ring entry. The unit executes it then, or leaves it
dispatched (log entry 8); behind a late vector fault it is cancelled. -/
def vectorWord (i : Instr) (sels : List (Nat × Bool)) (eff : Vector Word 8 → State → Eng State) (s : State) : Out State :=
  issueWord i s fun s =>
    let paired := s.ctx.slot = .cslot || s.ctx.slot = .aslot
    if !ringFree (me s) || (vqBusy s && paired) then .error (.wait .stall)
    else
      let s1 := noteRegs s sels
      if (lateOf (me s) .vector).isSome then .ok (retire (dispatch s1 .vector .cancelled).2)
      else if vqBusy s || ((myCore s).vhold && !paired) then
        let (q, s2) := dispatch s1 .vector .inFlight
        let d : VDispatch :=
          { strand := s.ctx.strand, seq := q, instr := i, scalars := (srcRegs s).s, sv := (myCore s1).sv,
            guard := ((myCore s1).guardLo, (myCore s1).guardHi) }
        .ok (retire (modMyCore s2 fun x => { x with vq := x.vq ++ [d] }))
      else
        match eff (myCore s1).sv s1 with
        | .ok s2 => .ok (retire (dispatch s2 .vector .completed).2)
        | .error (.late sub faddr acc, se) =>
          let (q, s2) := dispatch se .vector .faulted
          .ok (retire (modMe s2 fun t => vectorFault (settleRing t q .faulted (BitVec.ofNat 8 sub)) q sub faddr acc))
        | .error _ => .error (.wait .stall)

/-- `VADD` (R226) as dispatched (R222). -/
def execVadd (d a b : BitVec 5) (m : BitVec 3) (t : BitVec 4) (s : State) : Out State :=
  vectorWord (.vadd d a b m t) [] (fun _ s => .ok (effVadd d a b m t s)) s

/-- `VSUB` (R226) as dispatched (R222). -/
def execVsub (d a b : BitVec 5) (m : BitVec 3) (t : BitVec 4) (s : State) : Out State :=
  vectorWord (.vsub d a b m t) [] (fun _ s => .ok (effVsub d a b m t s)) s

/-- `VMUL` (R226) as dispatched (R222). -/
def execVmul (d a b : BitVec 5) (m : BitVec 3) (t : BitVec 4) (s : State) : Out State :=
  vectorWord (.vmul d a b m t) [] (fun _ s => .ok (effVmul d a b m t s)) s

/-- `VFMA` (R226: one rounding) as dispatched (R222). -/
def execVfma (d a b : BitVec 5) (m : BitVec 3) (t : BitVec 4) (s : State) : Out State :=
  vectorWord (.vfma d a b m t) [] (fun _ s => .ok (effVfma d a b m t s)) s

/-- `VMIN` (R226, R227) as dispatched (R222). -/
def execVmin (d a b : BitVec 5) (m : BitVec 3) (t : BitVec 4) (s : State) : Out State :=
  vectorWord (.vmin d a b m t) [] (fun _ s => .ok (effVmin d a b m t s)) s

/-- `VMAX` (R226, R227) as dispatched (R222). -/
def execVmax (d a b : BitVec 5) (m : BitVec 3) (t : BitVec 4) (s : State) : Out State :=
  vectorWord (.vmax d a b m t) [] (fun _ s => .ok (effVmax d a b m t s)) s

/-- `VABS` (R226, R227) as dispatched (R222). -/
def execVabs (d a : BitVec 5) (m : BitVec 3) (t : BitVec 4) (s : State) : Out State :=
  vectorWord (.vabs d a m t) [] (fun _ s => .ok (effVabs d a m t s)) s

/-- `VNEG` (R226, R227) as dispatched (R222). -/
def execVneg (d a : BitVec 5) (m : BitVec 3) (t : BitVec 4) (s : State) : Out State :=
  vectorWord (.vneg d a m t) [] (fun _ s => .ok (effVneg d a m t s)) s

/-- `VAND` (R226) as dispatched (R222). -/
def execVand (d a b : BitVec 5) (m : BitVec 3) (t : BitVec 4) (s : State) : Out State :=
  vectorWord (.vand d a b m t) [] (fun _ s => .ok (effVand d a b m t s)) s

/-- `VOR` (R226) as dispatched (R222). -/
def execVor (d a b : BitVec 5) (m : BitVec 3) (t : BitVec 4) (s : State) : Out State :=
  vectorWord (.vor d a b m t) [] (fun _ s => .ok (effVor d a b m t s)) s

/-- `VXOR` (R226) as dispatched (R222). -/
def execVxor (d a b : BitVec 5) (m : BitVec 3) (t : BitVec 4) (s : State) : Out State :=
  vectorWord (.vxor d a b m t) [] (fun _ s => .ok (effVxor d a b m t s)) s

/-- `VSLL` (R226) as dispatched (R222). -/
def execVsll (d a b : BitVec 5) (m : BitVec 3) (t : BitVec 4) (s : State) : Out State :=
  vectorWord (.vsll d a b m t) [] (fun _ s => .ok (effVsll d a b m t s)) s

/-- `VSRL` (R226) as dispatched (R222). -/
def execVsrl (d a b : BitVec 5) (m : BitVec 3) (t : BitVec 4) (s : State) : Out State :=
  vectorWord (.vsrl d a b m t) [] (fun _ s => .ok (effVsrl d a b m t s)) s

/-- `VSRA` (R226) as dispatched (R222). -/
def execVsra (d a b : BitVec 5) (m : BitVec 3) (t : BitVec 4) (s : State) : Out State :=
  vectorWord (.vsra d a b m t) [] (fun _ s => .ok (effVsra d a b m t s)) s

/-- `VADDS` (R226) as dispatched (R222). -/
def execVadds (d a b : BitVec 5) (m : BitVec 3) (t : BitVec 4) (s : State) : Out State :=
  vectorWord (.vadds d a b m t) [] (fun _ s => .ok (effVadds d a b m t s)) s

/-- `VSUBS` (R226) as dispatched (R222). -/
def execVsubs (d a b : BitVec 5) (m : BitVec 3) (t : BitVec 4) (s : State) : Out State :=
  vectorWord (.vsubs d a b m t) [] (fun _ s => .ok (effVsubs d a b m t s)) s

/-- `VCMPEQ` (R228) as dispatched (R222). -/
def execVcmpeq (k : BitVec 3) (a b : BitVec 5) (m : BitVec 3) (t : BitVec 4) (s : State) : Out State :=
  vectorWord (.vcmpeq k a b m t) [] (fun _ s => .ok (effVcmpeq k a b m t s)) s

/-- `VCMPNE` (R228) as dispatched (R222). -/
def execVcmpne (k : BitVec 3) (a b : BitVec 5) (m : BitVec 3) (t : BitVec 4) (s : State) : Out State :=
  vectorWord (.vcmpne k a b m t) [] (fun _ s => .ok (effVcmpne k a b m t s)) s

/-- `VCMPLT` (R228) as dispatched (R222). -/
def execVcmplt (k : BitVec 3) (a b : BitVec 5) (m : BitVec 3) (t : BitVec 4) (s : State) : Out State :=
  vectorWord (.vcmplt k a b m t) [] (fun _ s => .ok (effVcmplt k a b m t s)) s

/-- `VCMPLE` (R228) as dispatched (R222). -/
def execVcmple (k : BitVec 3) (a b : BitVec 5) (m : BitVec 3) (t : BitVec 4) (s : State) : Out State :=
  vectorWord (.vcmple k a b m t) [] (fun _ s => .ok (effVcmple k a b m t s)) s

/-- `VSEL` (R229): every element is written: the dispatch (R222). -/
def execVsel (d a b : BitVec 5) (m : BitVec 3) (t : BitVec 4) (s : State) : Out State :=
  vectorWord (.vsel d a b m t) [] (fun _ s => .ok (effVsel d a b m t s)) s

/-- `VREDSUM` (R231): `.bf16` sums are formed, and left, in FP32: the dispatch (R222). -/
def execVredsum (d a b : BitVec 5) (m : BitVec 3) (t : BitVec 4) (s : State) : Out State :=
  vectorWord (.vredsum d a b m t) [] (fun _ s => .ok (effVredsum d a b m t s)) s

/-- `VREDMAX` (R231) as dispatched (R222). -/
def execVredmax (d a b : BitVec 5) (m : BitVec 3) (t : BitVec 4) (s : State) : Out State :=
  vectorWord (.vredmax d a b m t) [] (fun _ s => .ok (effVredmax d a b m t s)) s

/-- `VREDMIN` (R231) as dispatched (R222). -/
def execVredmin (d a b : BitVec 5) (m : BitVec 3) (t : BitVec 4) (s : State) : Out State :=
  vectorWord (.vredmin d a b m t) [] (fun _ s => .ok (effVredmin d a b m t s)) s

/-- `VSCAN` (R232) as dispatched (R222). -/
def execVscan (d a b : BitVec 5) (m : BitVec 3) (t : BitVec 4) (s : State) : Out State :=
  vectorWord (.vscan d a b m t) [] (fun _ s => .ok (effVscan d a b m t s)) s

/-- `VPERM` (R233) as dispatched (R222). -/
def execVperm (d a b : BitVec 5) (m : BitVec 3) (t : BitVec 4) (s : State) : Out State :=
  vectorWord (.vperm d a b m t) [] (fun _ s => .ok (effVperm d a b m t s)) s

/-- `VBCAST` (R233) as dispatched (R222). -/
def execVbcast (d a b : BitVec 5) (m : BitVec 3) (t : BitVec 4) (s : State) : Out State :=
  vectorWord (.vbcast d a b m t) [] (fun _ s => .ok (effVbcast d a b m t s)) s

/-- `VSLIDE` (R233) as dispatched (R222). -/
def execVslide (d a b : BitVec 5) (m : BitVec 3) (t : BitVec 4) (s : State) : Out State :=
  vectorWord (.vslide d a b m t) [] (fun _ s => .ok (effVslide d a b m t s)) s

/-- `VCVT` (R235) as dispatched (R222). -/
def execVcvt (d a : BitVec 5) (u : BitVec 4) (m : BitVec 3) (t : BitVec 4) (s : State) : Out State :=
  vectorWord (.vcvt d a u m t) [] (fun _ s => .ok (effVcvt d a u m t s)) s

/-- `VSCALE` (R236) as dispatched (R222). -/
def execVscale (d a b : BitVec 5) (m : BitVec 3) (t : BitVec 4) (s : State) : Out State :=
  vectorWord (.vscale d a b m t) [] (fun _ s => .ok (effVscale d a b m t s)) s

/-- `VEXP2` (R237) as dispatched (R222). -/
def execVexp2 (d a : BitVec 5) (m : BitVec 3) (t : BitVec 4) (s : State) : Out State :=
  vectorWord (.vexp2 d a m t) [] (fun _ s => .ok (effVexp2 d a m t s)) s

/-- `VRCP` (R237) as dispatched (R222). -/
def execVrcp (d a : BitVec 5) (m : BitVec 3) (t : BitVec 4) (s : State) : Out State :=
  vectorWord (.vrcp d a m t) [] (fun _ s => .ok (effVrcp d a m t s)) s

/-- `KAND` (R230) as dispatched (R222). -/
def execKand (d a b : BitVec 3) (s : State) : Out State :=
  vectorWord (.kand d a b) [] (fun _ s => .ok (effKand d a b s)) s

/-- `KOR` (R230) as dispatched (R222). -/
def execKor (d a b : BitVec 3) (s : State) : Out State :=
  vectorWord (.kor d a b) [] (fun _ s => .ok (effKor d a b s)) s

/-- `KXOR` (R230) as dispatched (R222). -/
def execKxor (d a b : BitVec 3) (s : State) : Out State :=
  vectorWord (.kxor d a b) [] (fun _ s => .ok (effKxor d a b s)) s

/-- `KNOT` (R230) as dispatched (R222). -/
def execKnot (d a : BitVec 3) (s : State) : Out State :=
  vectorWord (.knot d a) [] (fun _ s => .ok (effKnot d a s)) s

/-- `VINS` (R234) as dispatched (R222). -/
def execVins (d a i : BitVec 5) (t : BitVec 4) (s : State) : Out State :=
  vectorWord (.vins d a i t) [] (fun _ s => .ok (effVins d a i t s)) s

/-- `VLD` (R238) as dispatched (R222). -/
def execVld (v b c : BitVec 5) (m : BitVec 3) (t : BitVec 4) (s : State) : Out State :=
  vectorWord (.vld v b c m t) [] (fun _ s => effVld v b c m t s) s

/-- `VST` (R238) as dispatched (R222). -/
def execVst (v b c : BitVec 5) (m : BitVec 3) (t : BitVec 4) (s : State) : Out State :=
  vectorWord (.vst v b c m t) [] (fun _ s => effVst v b c m t s) s

/-- `VGATHER` (R239) as dispatched (R222). -/
def execVgather (v b c : BitVec 5) (m : BitVec 3) (t : BitVec 4) (s : State) : Out State :=
  vectorWord (.vgather v b c m t) [] (fun _ s => effVgather v b c m t s) s

/-- `VSCATTER` (R239) as dispatched (R222). -/
def execVscatter (v b c : BitVec 5) (m : BitVec 3) (t : BitVec 4) (s : State) : Out State :=
  vectorWord (.vscatter v b c m t) [] (fun _ s => effVscatter v b c m t s) s

/-- `VLDQ` (R240) as dispatched; its view register is read at issue (R212). -/
def execVldq (v b : BitVec 5) (g m : BitVec 3) (t : BitVec 4) (s : State) : Out State :=
  vectorWord (.vldq v b g m t) [(selSv g.toNat, false)] (fun sv s => effVldq v b g m t sv s) s

/-- `VSTQ` (R241) as dispatched; its view register is read at issue (R212). -/
def execVstq (v b : BitVec 5) (g m : BitVec 3) (t : BitVec 4) (s : State) : Out State :=
  vectorWord (.vstq v b g m t) [(selSv g.toNat, false)] (fun sv s => effVstq v b g m t sv s) s

/-- `HSIFT` (R242) as dispatched (R222). -/
def execHsift (v b : BitVec 5) (m : BitVec 3) (t : BitVec 4) (s : State) : Out State :=
  vectorWord (.hsift v b m t) [] (fun _ s => effHsift v b m t s) s

/-- `VMOVS` (R234): it writes a scalar register, so it waits for the strand's vector instructions and is a drain point for
vector faults (R161). -/
def execVmovs (d a i : BitVec 5) (t : BitVec 4) (s : State) : Out State :=
  issueWord (.vmovs d a i t) s fun s =>
    if vqBusy s || !ringFree (me s) then .error (.wait .stall)
    else if (lateOf (me s) .vector).isSome then .ok (retire (dispatch s .vector .cancelled).2)
    else
      let x := vElem s a (typeWidth t) i.toNat
      let v : Word := if isSigned t then (BitVec.ofNat (bitsOf t) x).signExtend 64 else BitVec.ofNat 64 x
      .ok (retire (dispatch (writeS s d v) .vector .completed).2)

/-! ### Execution of a dispatched instruction (R222) -/

/-- The effect of a vector instruction, by its form. -/
def vecEffect (i : Instr) (sv : Vector Word 8) (s : State) : Eng State :=
  match i with
  | .vadd d a b m t => .ok (effVadd d a b m t s)
  | .vsub d a b m t => .ok (effVsub d a b m t s)
  | .vmul d a b m t => .ok (effVmul d a b m t s)
  | .vfma d a b m t => .ok (effVfma d a b m t s)
  | .vmin d a b m t => .ok (effVmin d a b m t s)
  | .vmax d a b m t => .ok (effVmax d a b m t s)
  | .vabs d a m t => .ok (effVabs d a m t s)
  | .vneg d a m t => .ok (effVneg d a m t s)
  | .vand d a b m t => .ok (effVand d a b m t s)
  | .vor d a b m t => .ok (effVor d a b m t s)
  | .vxor d a b m t => .ok (effVxor d a b m t s)
  | .vsll d a b m t => .ok (effVsll d a b m t s)
  | .vsrl d a b m t => .ok (effVsrl d a b m t s)
  | .vsra d a b m t => .ok (effVsra d a b m t s)
  | .vadds d a b m t => .ok (effVadds d a b m t s)
  | .vsubs d a b m t => .ok (effVsubs d a b m t s)
  | .vcmpeq k a b m t => .ok (effVcmpeq k a b m t s)
  | .vcmpne k a b m t => .ok (effVcmpne k a b m t s)
  | .vcmplt k a b m t => .ok (effVcmplt k a b m t s)
  | .vcmple k a b m t => .ok (effVcmple k a b m t s)
  | .vsel d a b m t => .ok (effVsel d a b m t s)
  | .vredsum d a b m t => .ok (effVredsum d a b m t s)
  | .vredmax d a b m t => .ok (effVredmax d a b m t s)
  | .vredmin d a b m t => .ok (effVredmin d a b m t s)
  | .vscan d a b m t => .ok (effVscan d a b m t s)
  | .vperm d a b m t => .ok (effVperm d a b m t s)
  | .vbcast d a b m t => .ok (effVbcast d a b m t s)
  | .vslide d a b m t => .ok (effVslide d a b m t s)
  | .vcvt d a u m t => .ok (effVcvt d a u m t s)
  | .vscale d a b m t => .ok (effVscale d a b m t s)
  | .vexp2 d a m t => .ok (effVexp2 d a m t s)
  | .vrcp d a m t => .ok (effVrcp d a m t s)
  | .kand d a b => .ok (effKand d a b s)
  | .kor d a b => .ok (effKor d a b s)
  | .kxor d a b => .ok (effKxor d a b s)
  | .knot d a => .ok (effKnot d a s)
  | .vins d a i t => .ok (effVins d a i t s)
  | .vld v b c m t => effVld v b c m t s
  | .vst v b c m t => effVst v b c m t s
  | .vgather v b c m t => effVgather v b c m t s
  | .vscatter v b c m t => effVscatter v b c m t s
  | .vldq v b g m t => effVldq v b g m t sv s
  | .vstq v b g m t => effVstq v b g m t sv s
  | .hsift v b m t => effHsift v b m t s
  | _ => .ok s

/-- The guard bounds of a core put in place. -/
def putGuard (s : State) (core : Nat) (g : Word × Word) : State := modCore s core fun x => { x with guardLo := g.1, guardHi := g.2 }

/-- The context of a dispatched instruction: its strand, with the scalar registers and the guard bounds it captured (R174, R222). -/
def vecCtx (s : State) (core : Nat) (d : VDispatch) : State :=
  let n : Fin 4 := ⟨d.strand % 4, Nat.mod_lt _ (by decide)⟩
  let g : Regs := { (getStrand s core n).regs with s := d.scalars }
  { putGuard s core d.guard with ctx := { Ctx.none with core := core, strand := n, snap := some g } }

/-- After it, the context and the bounds are as before. -/
def vecBack (s0 s : State) (core : Nat) : State :=
  let x := getCore s0 core
  { putGuard s core (x.guardLo, x.guardHi) with ctx := s0.ctx }

/-- `VECTOR_EXECUTE` (R222): the oldest dispatched instruction of the core; a fault cancels the strand's later ones (R160). -/
def execVectorExecute (core : Nat) (s : State) : Out State :=
  match (getCore s core).vq with
  | [] => .next s
  | d :: rest =>
    let n : Fin 4 := ⟨d.strand % 4, Nat.mod_lt _ (by decide)⟩
    match vecEffect d.instr d.sv (vecCtx s core d) with
    | .ok s1 =>
      let s2 := modCore (vecBack s s1 core) core fun x => { x with vq := rest }
      .next (modStrand s2 core n fun t => settleRing t d.seq .completed 0)
    | .error (.late sub faddr acc, se) =>
      let behind := rest.filter fun e => e.strand = d.strand
      let s1 := modCore (vecBack s se core) core fun x => { x with vq := rest.filter fun e => e.strand ≠ d.strand }
      .next (modStrand s1 core n fun t =>
        let t1 := vectorFault (settleRing t d.seq .faulted (BitVec.ofNat 8 sub)) d.seq sub faddr acc
        let t2 := behind.foldl (fun t e => settleRing t e.seq .cancelled 0) t1
        { t2 with late := t2.late.map fun f =>
            if f.eng = .vector && f.seq = d.seq then { f with cancelled := f.cancelled + behind.length } else f })
    | .error _ => .next s

end Sys2Proof.Machine
end

