-- ==== Sys2Proof/Machine/Dispatch.lean ====
section
/-! DEFINITION. One arm per constructor of `Instr`: a call of its meaning, or a refusal by name. -/

namespace Sys2Proof.Machine

def exec (i : Instr) (s : State) : Host.Outcome State Fault Refusal :=
  match i with
  | .beq a b o => Sys2Proof.Machine.execBeq a b o s
  | .bne a b o => Sys2Proof.Machine.execBne a b o s
  | .blt a b o => Sys2Proof.Machine.execBlt a b o s
  | .bge a b o => Sys2Proof.Machine.execBge a b o s
  | .bltn a b o => Sys2Proof.Machine.execBltn a b o s
  | .bgen a b o => Sys2Proof.Machine.execBgen a b o s
  | .jal d n => Sys2Proof.Machine.execJal d n s
  | .jalr d a n => Sys2Proof.Machine.execJalr d a n s
  | .loop v a n => Sys2Proof.Machine.execLoop v a n s
  | .loopi v c n => Sys2Proof.Machine.execLoopi v c n s
  | .rep b p g t => Sys2Proof.Machine.execRep b p g t s
  | .start a b n => Sys2Proof.Machine.execStart a b n s
  | .waits g => Sys2Proof.Machine.execWaits g s
  | .yield => Sys2Proof.Machine.execYield s
  | .ld d b t o => Sys2Proof.Machine.execLd d b t o s
  | .st d b z o => Sys2Proof.Machine.execSt d b z o s
  | .stH d b o => Sys2Proof.Machine.execStH d b o s
  | .ldbit d a b w => Sys2Proof.Machine.execLdbit d a b w s
  | .stbit a b w => Sys2Proof.Machine.execStbit a b w s
  | .ldt d a b e => Sys2Proof.Machine.execLdt d a b e s
  | .amoadd a b w => Sys2Proof.Machine.execAmoadd a b w s
  | .amoand a b w => Sys2Proof.Machine.execAmoand a b w s
  | .amoor a b w => Sys2Proof.Machine.execAmoor a b w s
  | .amoxor a b w => Sys2Proof.Machine.execAmoxor a b w s
  | .amomin a b w => Sys2Proof.Machine.execAmomin a b w s
  | .amomax a b w => Sys2Proof.Machine.execAmomax a b w s
  | .amominn a b w => Sys2Proof.Machine.execAmominn a b w s
  | .amomaxn a b w => Sys2Proof.Machine.execAmomaxn a b w s
  | .amoseq d a b c w => Sys2Proof.Machine.execAmoseq d a b c w s
  | .fence c p q => Sys2Proof.Machine.execFence c p q s
  | .waitw a b => Sys2Proof.Machine.execWaitw a b s
  | .ifence => Sys2Proof.Machine.execIfence s
  | .sync => Sys2Proof.Machine.execSync s
  | .post a b n => Sys2Proof.Machine.execPost a b n s
  | .recv d => Sys2Proof.Machine.execRecv d s
  | .trap n => Sys2Proof.Machine.execTrap n s
  | .eret => Sys2Proof.Machine.execEret s
  | .endOp => Sys2Proof.Machine.execEndOp s
  | .brk n => Sys2Proof.Machine.execBrk n s
  | .crr d r => Sys2Proof.Machine.execCrr d r s
  | .crw d a r => Sys2Proof.Machine.execCrw d a r s
  | .crs d a r => Sys2Proof.Machine.execCrs d a r s
  | .crc d a r => Sys2Proof.Machine.execCrc d a r s
  | .vld v b c m t => Sys2Proof.Machine.execVld v b c m t s
  | .vst v b c m t => Sys2Proof.Machine.execVst v b c m t s
  | .vgather v b c m t => Sys2Proof.Machine.execVgather v b c m t s
  | .vscatter v b c m t => Sys2Proof.Machine.execVscatter v b c m t s
  | .vldq v b g m t => Sys2Proof.Machine.execVldq v b g m t s
  | .vstq v b g m t => Sys2Proof.Machine.execVstq v b g m t s
  | .hsift v b m t => Sys2Proof.Machine.execHsift v b m t s
  | .mma c a b => Sys2Proof.Machine.execMma c a b s
  | .mmaz c a b => Sys2Proof.Machine.execMmaz c a b s
  | .mldb a b => Sys2Proof.Machine.execMldb a b s
  | .mldbt a b => Sys2Proof.Machine.execMldbt a b s
  | .mring k => Sys2Proof.Machine.execMring k s
  | .mswap q => Sys2Proof.Machine.execMswap q s
  | .mzero c => Sys2Proof.Machine.execMzero c s
  | .mldacc c a => Sys2Proof.Machine.execMldacc c a s
  | .mstacc c a => Sys2Proof.Machine.execMstacc c a s
  | .mstaccq c a b g t => Sys2Proof.Machine.execMstaccq c a b g t s
  | .maccadd c p sg => Sys2Proof.Machine.execMaccadd c p sg s
  | .mcfg w a b y x => Sys2Proof.Machine.execMcfg w a b y x s
  | .mskset a b w => Sys2Proof.Machine.execMskset a b w s
  | .mskget a => Sys2Proof.Machine.execMskget a s
  | .mkeep y x => Sys2Proof.Machine.execMkeep y x s
  | .mwait => Sys2Proof.Machine.execMwait s
  | .cpy a b c g e => Sys2Proof.Machine.execCpy a b c g e s
  | .cpyd a b c n => Sys2Proof.Machine.execCpyd a b c n s
  | .cpyg a b c g e => Sys2Proof.Machine.execCpyg a b c g e s
  | .cpys a b c g e => Sys2Proof.Machine.execCpys a b c g e s
  | .cpyf a b c g e => Sys2Proof.Machine.execCpyf a b c g e s
  | .cpyr a b c => Sys2Proof.Machine.execCpyr a b c s
  | .cpyho a b c g e => Sys2Proof.Machine.execCpyho a b c g e s
  | .cpyres a b c => Sys2Proof.Machine.execCpyres a b c s
  | .ebset a r => Sys2Proof.Machine.execEbset a r s
  | .ebget a r => Sys2Proof.Machine.execEbget a r s
  | .txsub d a => Sys2Proof.Machine.execTxsub d a s
  | .txpeek d a => Sys2Proof.Machine.execTxpeek d a s
  | .txsets d a b k => Sys2Proof.Machine.execTxsets d a b k s
  | .txchk d a b => Sys2Proof.Machine.execTxchk d a b s
  | .txend => Sys2Proof.Machine.execTxend s
  | .txrst a => Sys2Proof.Machine.execTxrst a s
  | .pdainit a b r => Sys2Proof.Machine.execPdainit a b r s
  | .pdamask a b => Sys2Proof.Machine.execPdamask a b s
  | .pdastep a b => Sys2Proof.Machine.execPdastep a b s
  | .samplep a b k => Sys2Proof.Machine.execSamplep a b k s
  | .samplef a b => Sys2Proof.Machine.execSamplef a b s
  | .pdasave a b => Sys2Proof.Machine.execPdasave a b s
  | .sassert a b c => Sys2Proof.Machine.execSassert a b c s
  | .sgrow p => Sys2Proof.Machine.execSgrow p s
  | .sbmap d a => Sys2Proof.Machine.execSbmap d a s
  | .add d a b => Sys2Proof.Machine.execAdd d a b s
  | .sub d a b => Sys2Proof.Machine.execSub d a b s
  | .and d a b => Sys2Proof.Machine.execAnd d a b s
  | .or d a b => Sys2Proof.Machine.execOr d a b s
  | .xor d a b => Sys2Proof.Machine.execXor d a b s
  | .andn d a b => Sys2Proof.Machine.execAndn d a b s
  | .sll d a b => Sys2Proof.Machine.execSll d a b s
  | .srl d a b => Sys2Proof.Machine.execSrl d a b s
  | .sra d a b => Sys2Proof.Machine.execSra d a b s
  | .rotr d a b => Sys2Proof.Machine.execRotr d a b s
  | .mul d a b => Sys2Proof.Machine.execMul d a b s
  | .mulh d a b => Sys2Proof.Machine.execMulh d a b s
  | .mulhn d a b => Sys2Proof.Machine.execMulhn d a b s
  | .div d a b => Sys2Proof.Machine.execDiv d a b s
  | .divn d a b => Sys2Proof.Machine.execDivn d a b s
  | .rem d a b => Sys2Proof.Machine.execRem d a b s
  | .remn d a b => Sys2Proof.Machine.execRemn d a b s
  | .min d a b => Sys2Proof.Machine.execMin d a b s
  | .max d a b => Sys2Proof.Machine.execMax d a b s
  | .minn d a b => Sys2Proof.Machine.execMinn d a b s
  | .maxn d a b => Sys2Proof.Machine.execMaxn d a b s
  | .slt d a b => Sys2Proof.Machine.execSlt d a b s
  | .sltn d a b => Sys2Proof.Machine.execSltn d a b s
  | .seq d a b => Sys2Proof.Machine.execSeq d a b s
  | .clz d a => Sys2Proof.Machine.execClz d a s
  | .ctz d a => Sys2Proof.Machine.execCtz d a s
  | .popc d a => Sys2Proof.Machine.execPopc d a s
  | .brev d a => Sys2Proof.Machine.execBrev d a s
  | .bswap d a => Sys2Proof.Machine.execBswap d a s
  | .addi d a n => Sys2Proof.Machine.execAddi d a n s
  | .andi d a n => Sys2Proof.Machine.execAndi d a n s
  | .ori d a n => Sys2Proof.Machine.execOri d a n s
  | .xori d a n => Sys2Proof.Machine.execXori d a n s
  | .slti d a n => Sys2Proof.Machine.execSlti d a n s
  | .sltin d a n => Sys2Proof.Machine.execSltin d a n s
  | .slli d a n => Sys2Proof.Machine.execSlli d a n s
  | .srli d a n => Sys2Proof.Machine.execSrli d a n s
  | .srai d a n => Sys2Proof.Machine.execSrai d a n s
  | .rotri d a n => Sys2Proof.Machine.execRotri d a n s
  | .lui d n => Sys2Proof.Machine.execLui d n s
  | .insh d h n => Sys2Proof.Machine.execInsh d h n s
  | .vadd d a b m t => Sys2Proof.Machine.execVadd d a b m t s
  | .vsub d a b m t => Sys2Proof.Machine.execVsub d a b m t s
  | .vmul d a b m t => Sys2Proof.Machine.execVmul d a b m t s
  | .vfma d a b m t => Sys2Proof.Machine.execVfma d a b m t s
  | .vmin d a b m t => Sys2Proof.Machine.execVmin d a b m t s
  | .vmax d a b m t => Sys2Proof.Machine.execVmax d a b m t s
  | .vabs d a m t => Sys2Proof.Machine.execVabs d a m t s
  | .vneg d a m t => Sys2Proof.Machine.execVneg d a m t s
  | .vand d a b m t => Sys2Proof.Machine.execVand d a b m t s
  | .vor d a b m t => Sys2Proof.Machine.execVor d a b m t s
  | .vxor d a b m t => Sys2Proof.Machine.execVxor d a b m t s
  | .vsll d a b m t => Sys2Proof.Machine.execVsll d a b m t s
  | .vsrl d a b m t => Sys2Proof.Machine.execVsrl d a b m t s
  | .vsra d a b m t => Sys2Proof.Machine.execVsra d a b m t s
  | .vadds d a b m t => Sys2Proof.Machine.execVadds d a b m t s
  | .vsubs d a b m t => Sys2Proof.Machine.execVsubs d a b m t s
  | .vcmpeq k a b m t => Sys2Proof.Machine.execVcmpeq k a b m t s
  | .vcmpne k a b m t => Sys2Proof.Machine.execVcmpne k a b m t s
  | .vcmplt k a b m t => Sys2Proof.Machine.execVcmplt k a b m t s
  | .vcmple k a b m t => Sys2Proof.Machine.execVcmple k a b m t s
  | .vsel d a b m t => Sys2Proof.Machine.execVsel d a b m t s
  | .vredsum d a b m t => Sys2Proof.Machine.execVredsum d a b m t s
  | .vredmax d a b m t => Sys2Proof.Machine.execVredmax d a b m t s
  | .vredmin d a b m t => Sys2Proof.Machine.execVredmin d a b m t s
  | .vscan d a b m t => Sys2Proof.Machine.execVscan d a b m t s
  | .vperm d a b m t => Sys2Proof.Machine.execVperm d a b m t s
  | .vbcast d a b m t => Sys2Proof.Machine.execVbcast d a b m t s
  | .vslide d a b m t => Sys2Proof.Machine.execVslide d a b m t s
  | .vcvt d a u m t => Sys2Proof.Machine.execVcvt d a u m t s
  | .vscale d a b m t => Sys2Proof.Machine.execVscale d a b m t s
  | .vexp2 d a m t => Sys2Proof.Machine.execVexp2 d a m t s
  | .vrcp d a m t => Sys2Proof.Machine.execVrcp d a m t s
  | .kand d a b => Sys2Proof.Machine.execKand d a b s
  | .kor d a b => Sys2Proof.Machine.execKor d a b s
  | .kxor d a b => Sys2Proof.Machine.execKxor d a b s
  | .knot d a => Sys2Proof.Machine.execKnot d a s
  | .vins d a n t => Sys2Proof.Machine.execVins d a n t s
  | .vmovs d a n t => Sys2Proof.Machine.execVmovs d a n t s
  | .issueSlotGiveUp core => Sys2Proof.Machine.execIssueSlotGiveUp core s
  | .faultRecord pkg => Sys2Proof.Machine.execFaultRecord pkg s
  | .firmwareFlush pkg writes unmapped => Sys2Proof.Machine.execFirmwareFlush pkg writes unmapped s
  | .cDone core => Sys2Proof.Machine.execCDone core s
  | .cClose region pkg => Sys2Proof.Machine.execCClose region pkg s
  | .lockRequestEnqueue region num req => Sys2Proof.Machine.execLockRequestEnqueue region num req s
  | .lockGrant region num req => Sys2Proof.Machine.execLockGrant region num req s
  | .tilePush region num req => Sys2Proof.Machine.execTilePush region num req s
  | .transactionDispatch region num => Sys2Proof.Machine.execTransactionDispatch region num s
  | .tClose region => Sys2Proof.Machine.execTClose region s
  | .planEntryStart core idx => Sys2Proof.Machine.execPlanEntryStart core idx s
  | .sendfFlit core idx flit => Sys2Proof.Machine.execSendfFlit core idx flit s
  | .flitReceive region xfer => Sys2Proof.Machine.execFlitReceive region xfer s
  | .contributionApply region xfer => Sys2Proof.Machine.execContributionApply region xfer s
  | .contributionResend region xfer => Sys2Proof.Machine.execContributionResend region xfer s
  | .collectiveIncomplete region => Sys2Proof.Machine.execCollectiveIncomplete region s
  | .acknowledgement region xfer => Sys2Proof.Machine.execAcknowledgement region xfer s
  | .requestVote region => Sys2Proof.Machine.execRequestVote region s
  | .deferredStorePerform region => Sys2Proof.Machine.execDeferredStorePerform region s
  | .barrierExit region => Sys2Proof.Machine.execBarrierExit region s
  | .exchangeRound cluster => Sys2Proof.Machine.execExchangeRound cluster s
  | .vectorExecute core => Sys2Proof.Machine.execVectorExecute core s
  | .matrixCommandStart core => Sys2Proof.Machine.execMatrixCommandStart core s
  | .copyCommandStart core => Sys2Proof.Machine.execCopyCommandStart core s
  | .selvedgeCommandStart core => Sys2Proof.Machine.execSelvedgeCommandStart core s
  | .noReturnAtomicApply idx => Sys2Proof.Machine.execNoReturnAtomicApply idx s
  | .atomicReplay idx => Sys2Proof.Machine.execAtomicReplay idx s
  | .throttleBubble pkg => Sys2Proof.Machine.execThrottleBubble pkg s
  | .preemptionTake region => Sys2Proof.Machine.execPreemptionTake region s
  | .preemptionResume region => Sys2Proof.Machine.execPreemptionResume region s
  | .preemptTimeout region => Sys2Proof.Machine.execPreemptTimeout region s
  | .parkTimeout region => Sys2Proof.Machine.execParkTimeout region s
  | .launchStart region => Sys2Proof.Machine.execLaunchStart region s
  | .queueEnable pkg q cfg => Sys2Proof.Machine.execQueueEnable pkg q cfg s
  | .queueDisable pkg q cfg => Sys2Proof.Machine.execQueueDisable pkg q cfg s
  | .qtailWrite pkg q value => Sys2Proof.Machine.execQtailWrite pkg q value s
  | .qclaimFetchadd pkg q op => Sys2Proof.Machine.execQclaimFetchadd pkg q op s
  | .doorbellEvent pkg => Sys2Proof.Machine.execDoorbellEvent pkg s
  | .stampRecheck pkg q => Sys2Proof.Machine.execStampRecheck pkg q s
  | .nop p => Sys2Proof.Machine.execNop p s
  | .launch p => Sys2Proof.Machine.execLaunch p s
  | .hosttx p => Sys2Proof.Machine.execHosttx p s
  | .indirect p => Sys2Proof.Machine.execIndirect p s
  | .region p => Sys2Proof.Machine.execRegion p s
  | .kill p => Sys2Proof.Machine.execKill p s
  | .suspend p => Sys2Proof.Machine.execSuspend p s
  | .resume p => Sys2Proof.Machine.execResume p s
  | .inval p => Sys2Proof.Machine.execInval p s
  | .evict p => Sys2Proof.Machine.execEvict p s
  | .signal p => Sys2Proof.Machine.execSignal p s
  | .destroy p => Sys2Proof.Machine.execDestroy p s
  | .pasidTeardown pkg pasid => Sys2Proof.Machine.execPasidTeardown pkg pasid s
  | .atsInvalidation pkg pasid start len => Sys2Proof.Machine.execAtsInvalidation pkg pasid start len s
  | .pageRequestResponse pkg pasid page granted => Sys2Proof.Machine.execPageRequestResponse pkg pasid page granted s
  | .halt pkg => Sys2Proof.Machine.execHalt pkg s
  | .dbgResume pkg => Sys2Proof.Machine.execDbgResume pkg s
  | .dbgStep pkg => Sys2Proof.Machine.execDbgStep pkg s
  | .rdreg pkg => Sys2Proof.Machine.execRdreg pkg s
  | .wrreg pkg => Sys2Proof.Machine.execWrreg pkg s
  | .rdtcm pkg => Sys2Proof.Machine.execRdtcm pkg s
  | .wrtcm pkg => Sys2Proof.Machine.execWrtcm pkg s
  | .brken pkg => Sys2Proof.Machine.execBrken pkg s
  | .registerWrite pkg off value => Sys2Proof.Machine.execRegisterWrite pkg off value s
  | .thermalTrip pkg => Sys2Proof.Machine.execThermalTrip pkg s
  | .eccCorrection pkg => Sys2Proof.Machine.execEccCorrection pkg s
  | .linkReplay pkg port peer failed => Sys2Proof.Machine.execLinkReplay pkg port peer failed s
  | .uncorrectableError pkg => Sys2Proof.Machine.execUncorrectableError pkg s
  | .deviceReset pkg skips => Sys2Proof.Machine.execDeviceReset pkg skips s
  | .illegalInstruction why => Sys2Proof.Machine.execIllegalInstruction why s
  | .pcieCompletion pkg what => Sys2Proof.Machine.execPcieCompletion pkg what s
  | .hostWindowWrite pkg addr bytes => Sys2Proof.Machine.execHostWindowWrite pkg addr bytes s
  | .recoveryPointValid region => Sys2Proof.Machine.execRecoveryPointValid region s

end Sys2Proof.Machine
end

