-- ==== Sys2Proof/Machine/Issue.lean ====
section
/-! DEFINITION. Issue: what a strand does at its next boundary (R43 to R47, R106, R109, R157, R163, R171, R358), and which event or
core moves next where the spec leaves the order to timing (log entry 3). -/

namespace Sys2Proof.Machine

/-! ### Fetch (R22, R43, R47, R132) -/

/-- The encoding version of the code a core runs (R59, R66). -/
def encverAt (s : State) (core : Nat) : EncVer :=
  match (regionOf s core).launch with
  | some l => l.image.encver
  | none => .v3

/-- The word at a TCM address: the decoded copy the strand holds, or memory, read as an access by the strand. -/
def fetchWord (s : State) (core : Nat) (n : Fin 4) (a : Nat) : Word32 × State :=
  match (getCore s core).fetched.find? fun f => f.1 = n.val && f.2.1 = a with
  | some f => (f.2.2, s)
  | none =>
    let p : Place := { key := tcmKey core a, mode := .untranslated, readOnly := false, leaf := none, va := BitVec.ofNat 64 a }
    let (bs, s1) := loadAt s { core := core, strand := n, cmd := none } p 4
    let w := BitVec.ofNat 32 (leNat bs)
    (w, modCore s1 core fun x => { x with fetched := (n.val, a, w) :: x.fetched })

/-- The context for a word at the strand's pc. -/
def setCtx (s : State) (slot : Slot) (pc last : TcmAddr) (w : Word32) (snap : Option Regs) : State :=
  { s with ctx := { s.ctx with pc := pc, last := last, slot := slot, word := w, snap := snap, event := .done } }

/-- The destination rule of R45 for the words of a pair. It comes before the checks of their fields (R47), so a word counts by the form
it has whatever its zero fields and its `S` bit hold. -/
def samePairDest (v : EncVer) (c a : Word32) : Bool :=
  match formOf v c, formOf v a with
  | some ic, some ia => sameDest ic ia
  | _, _ => false

/-- What issues: a lone word, a pair, or the first fault of R47 with the slot that is reported. -/
inductive Issued where
  | lone (w : Word32) (i : Instr)
  | pair (c a : Word32) (ic ia : Instr)
  | bad (why : FetchFault) (slotA : Bool)
  deriving DecidableEq, Repr

/-- A lone word, as the checks of R47 leave it; the fields that a form does not accept are refused where the word executes. -/
def loneIssued (v : EncVer) (w : Word32) : Issued :=
  match decode v w with
  | .ok d => .lone w d.instr
  | .error _ => .bad (.illegal w) false

/-- A pair, as the checks of R47 leave it: of two words that do not decode the C-slot word is reported, but a word that does not decode
comes before one whose fields its form does not accept, which is found only as the pair executes (log entry 33). -/
def pairIssued (v : EncVer) (c a : Word32) : Issued :=
  if isAClass c then .bad (.bundleClass c) false
  else if isLone a || !isAClass a then .bad (.bundleClass a) true
  else if samePairDest v c a then .bad (.bundleClass c) false
  else
    match decode v c, decode v a with
    | .ok dc, .ok da => .pair c a dc.instr da.instr
    | .error _, _ => .bad (.illegal c) false
    | _, .error _ => .bad (.illegal a) true

/-- Fetch at the strand's pc, or at a target beyond TCM, which lies outside every bound (R99), with the checks of R47 in order. -/
def fetchIssue (s : State) (core : Nat) (n : Fin 4) : Issued × State :=
  let x := getCore s core
  let t := coreStrand x n
  let a := t.pc.toNat
  let v := encverAt s core
  if t.beyond.isSome then (.bad (.fetchBounds (t.beyond.getD 0#64)) false, s)
  else if !inBounds x a 4 then (.bad (.fetchBounds (BitVec.ofNat 64 a)) false, s)
  else
    let (w, s1) := fetchWord s core n a
    if isLone w then (loneIssued v w, s1)
    else if a % 8 ≠ 0 then (.bad (.misalignedBundle w) false, s1)
    else if !inBounds x (a + 4) 4 then (.bad (.fetchBounds (BitVec.ofNat 64 (a + 4))) true, s1)
    else
      let (w2, s2) := fetchWord s1 core n (a + 4)
      (pairIssued v w w2, s2)

/-! ### Execution of what was fetched -/

/-- Registers an A-slot word wrote, copied from the state it ran in alone. -/
def copyReg (src : Regs) (g : Regs) (r : RegName) : Regs :=
  match r with
  | .s n => putS g n (src.s[n.toNat]'n.isLt)
  | .v n => putV g n (src.v[n.toNat]'n.isLt)
  | .k n => putK g n (src.k[n.toNat]'n.isLt)

/-- A pair (R44, R46): both words read the registers as before it; a trap or a wait of either suppresses both. The C-slot word acts
first; where it only makes the A-slot word wait, the pair waits, and where it makes a late fault known, the A-slot word, which drains
what was dispatched before the pair, is not concerned. Where the C-slot word ends the body (R367, R368), what the A-slot word writes
is lost with the strand's registers (log entry 32). Where the C-slot word, a vector memory access, ends in a late fault, the A-slot word,
a `VMOVS`, is a later instruction of the unit, and cancelled (R160, R222). -/
def runPairWords (s : State) (pc : TcmAddr) (c a : Word32) (ic ia : Instr) : Out State :=
  let snap := some (me s).regs
  let last := pc + 4#18
  let sA := setCtx s .aslot pc last a snap
  match exec ic (setCtx s .cslot pc last c snap), exec ia sA with
  | .next s1, .next s2 =>
    if s1.ctx.event ≠ .done then .next s1
    else if s2.ctx.event ≠ .done then .next s2
    else if !(me s1).live then .next s1
    else
      match exec ia (setCtx s1 .aslot pc last a snap) with
      | .next s3 =>
        match s3.ctx.event with
        | .done => .next s3
        | .blocked => .next (block sA .stall)
        | .trapped =>
          if !ringFree (me s1) then .next (block sA .stall)
          else
            .next (dispatch (setCtx s1 .aslot pc last a snap) .vector .cancelled).2
      | o => o
  | .next _, o => o
  | o, _ => o

/-- A pair: a late fault that either word drains, then the fields that either form does not accept (R47), then its effect. -/
def runPair (s : State) (pc : TcmAddr) (c a : Word32) (ic ia : Instr) : Out State :=
  let sC := setCtx s .cslot pc (pc + 4#18) c none
  let sA := setCtx s .aslot pc (pc + 4#18) a none
  match drainPoint ic sC, drainPoint ia sA with
  | .error e, _ => .next (stopWord sC e)
  | _, .error e => .next (stopWord sA e)
  | _, _ =>
    if !wellFormed ic then .next (stopWord sC (illegal sC))
    else if !wellFormed ia then .next (stopWord sA (illegal sA))
    else runPairWords s pc c a ic ia

/-- The word of a replay that comes next, staggered for its pass (R107). -/
def replayWord (s : State) : Word32 :=
  let t := me s
  let r := t.repState
  stagger (t.repBuf[repWord r % 16]'(Nat.mod_lt _ (by decide))) (repPass r) (fieldOf r 29 27) (fieldOf r 26 24)

/-- The context it executes in. -/
def replayCtx (s : State) : State :=
  let r := (me s).repState
  let pc := repBody r + BitVec.ofNat 18 (4 * repWord r)
  setCtx s .rep pc pc (replayWord s) none

/-- A word of a replay (R106, R107, R109): it must be an instruction once staggered. -/
def runReplay (s : State) : Out State :=
  match decode (encverAt s s.ctx.core) (replayWord s) with
  | .error _ => exec (.illegalInstruction (.illegal (replayWord s))) (replayCtx s)
  | .ok d =>
    match exec d.instr (replayCtx s) with
    | .next s1 => .next (if s1.ctx.event = .done then modMe s1 repAdvance else s1)
    | o => o

/-- The instruction or pair at the strand's pc. -/
def runFetched (s : State) : Out State :=
  let pc := (me s).pc
  match fetchIssue s s.ctx.core s.ctx.strand with
  | (.lone w i, s1) => exec i (setCtx s1 .lone pc pc w none)
  | (.pair c a ic ia, s1) => runPair s1 pc c a ic ia
  | (.bad why slotA, s1) => exec (.illegalInstruction why) (setCtx s1 (if slotA then .aslot else .lone) pc pc 0 none)

/-! ### Boundaries (R157, R163, R165) -/

/-- The report or overflow to be delivered to the control strand before it issues: outside handler mode, once its `SYNC` or `END`
has retired; in the supersteps of R362 they are held. -/
def pendingReport (r : Region) (x : Core) (n : Fin 4) : Bool :=
  let t := coreStrand x n
  n = 0 && !r.ending && !t.released && !t.trap.status.getLsbD 0 && (!x.reports.isEmpty || x.rqPending)

/-- One trap entry for a report, in code order, then for the overflow (R163, R165). -/
def deliverReport (s : State) (core : Nat) : State :=
  let x := getCore s core
  let pc := (coreStrand x 0).pc
  match x.reports with
  | r :: rest => trapEntry (modCore s core fun x => { x with reports := rest }) core 0 r.cause.toNat 0 pc r.faddr r.info
  | [] => trapEntry (modCore s core fun x => { x with rqPending := false }) core 0 cRqOverflow 2 pc x.rqTail (preciseInfo 0 false 7)

/-- The transaction body has issued all it may (R358). -/
def budgetSpent (t : Strand) : Bool :=
  match t.body with
  | some b => !t.trap.status.getLsbD 0 && 65536 ≤ b.issued
  | none => false

/-- The count of a body's issues (R358). -/
def countIssue (hm : Bool) (t : Strand) : Strand :=
  if hm then t else { t with body := t.body.map fun b => { b with issued := b.issued + 1 } }

/-- What follows an issue: the body's count, the park that is over (R331), the single step (R171), the issue slot (R76, R77), and the
fetched words of the word that retired at a barrier (R22). A strand that stalls or blocks gives the slot up, and its count begins
again. -/
def afterIssue (n : Fin 4) (hm released : Bool) (s : State) : State :=
  if s.ctx.event = .blocked then modMyCore s fun x => { x with slot := n, slotRun := 0, slotGone := true }
  else
    let s1 := modMe s fun t => { countIssue hm t with parkedAt := none, asked := none }
    let s2 := if (me s1).trap.status.getLsbD 5 && (me s1).live then modMe s1 fun t => { t with wait := .halted } else s1
    modMyCore s2 fun x =>
      { x with
        slotRun := if x.slot = n.val then x.slotRun + 1 else 1, slot := n
        fetched := if released then x.fetched.filter fun f => f.1 ≠ 0 else x.fetched }

/-- The end of a body's budget at a word: after a late fault that the word drains, and after the faults of R47 (R157, R358). -/
def spendWord (i : Instr) (s : State) : Out State :=
  match drainPoint i s with
  | .error e => .next (stopWord s e)
  | .ok _ => .next (if wellFormed i then raise s cTxBudget 0 0#64 7 else stopWord s (illegal s))

/-- The end of a body's budget (R358), at the next instruction, or the next word of a replay. Of a pair neither word is at fault, so `SLOT`
is zero (R151). -/
def spendOver (s : State) : Out State :=
  let pc := (me s).pc
  if (me s).replaying then
    match decode (encverAt s s.ctx.core) (replayWord s) with
    | .error _ => runReplay s
    | .ok d => spendWord d.instr (replayCtx s)
  else
    match fetchIssue s s.ctx.core s.ctx.strand with
    | (.lone w i, s1) => spendWord i (setCtx s1 .lone pc pc w none)
    | (.pair c a ic ia, s1) =>
      let sC := setCtx s1 .cslot pc (pc + 4#18) c none
      let sA := setCtx s1 .aslot pc (pc + 4#18) a none
      match drainPoint ic sC, drainPoint ia sA with
      | .error e, _ => .next (stopWord sC e)
      | _, .error e => .next (stopWord sA e)
      | _, _ =>
        if !wellFormed ic then .next (stopWord sC (illegal sC))
        else if !wellFormed ia then .next (stopWord sA (illegal sA))
        else .next (raise sC cTxBudget 0 0#64 7)
    | (.bad ..,  _) => runFetched s

/-- An issue that ended in a trap entry whose stores have to wait is tried again when they need not. -/
def entryReady (s0 s1 : State) : State :=
  if s1.ctx.event = .trapped && (me s1).live && entryWaits s0 s0.ctx.core s0.ctx.strand (lateCode (me s1).trap.cause.toNat) then
    block s0 .stall
  else s1

/-- A fetch of a word the strand does not hold waits for its dispatched vector stores (R145, R223; log entry 8). -/
def fetchWaits (s : State) : Bool :=
  let t := me s
  let held (a : Nat) : Bool := (myCore s).fetched.any fun f => f.1 = s.ctx.strand.val && f.2.1 = a
  !t.replaying && t.beyond.isNone && vqStores s && !(held t.pc.toNat && held (t.pc.toNat + 4))

/-- The strand at its boundary: a report, the budget's end, or its next word or pair. -/
def issueAt (s : State) (core : Nat) (n : Fin 4) : Out State :=
  let x := getCore s core
  let t := coreStrand x n
  let s0 := { modCore (modStrand s core n fun t => { t with wait := .ready }) core fun x => { x with slotGone := false } with
    ctx := { Ctx.none with core := core, strand := n, pc := t.pc, last := t.pc }, turn := core }
  if pendingReport (regionOf s core) x n then
    .next (if entryWaits s core n false then afterIssue n false false (block s0 .stall) else deliverReport s0 core)
  else if fetchWaits s0 then .next (afterIssue n false false (block s0 .stall))
  else
    let o := if budgetSpent t then spendOver s0 else if t.replaying then runReplay s0 else runFetched s0
    match o with
    | .next s1 => .next (afterIssue n (t.trap.status.getLsbD 0) t.released (entryReady s0 s1))
    | o => o

/-! ### Which core issues next (log entry 3) -/

/-- The core after the last one to issue, in rotation, that has a strand to issue. -/
def nextIssue (s : State) : Option (Nat × Fin 4) :=
  let try' (e : Nat × Core) : Option (Nat × Fin 4) := (nextStrand s e.1).map fun n => (e.1, n)
  match (s.cores.filter fun e => s.turn < e.1).findSome? try' with
  | some r => some r
  | none => s.cores.findSome? try'

/-! ### Which event moves next (log entry 3) -/

/-- An event, where it can move. -/
def offer (can : Bool) (i : Instr) : List Instr := if can then [i] else []

/-- Events of a package's front end. -/
def packageEvents (s : State) (e : Nat × Package) : List Instr :=
  List.flatten
    [offer (canRecord e.2) (.faultRecord e.1), offer (!e.2.doorbells.isEmpty) (.doorbellEvent e.1),
     e.2.queues.flatMap fun q => offer (fetchPacket s e.1 q.1 ≠ .none) (.stampRecheck e.1 q.1)]

/-- Events of one lock request. -/
def requestEvents (s : State) (r : Region) (t : Txn) (i : Nat) : List Instr :=
  let id := r.rcb.id
  List.flatten
    [offer (canEnqueue s r t i) (.lockRequestEnqueue id t.num i), offer (canGrant r t i) (.lockGrant id t.num i),
     offer (canPush s r t i) (.tilePush id t.num i)]

/-- Events of one transaction. -/
def txnEvents (s : State) (r : Region) (t : Txn) : List Instr :=
  List.flatten
    [(List.range t.reqs.length).flatMap (requestEvents s r t), offer (canDispatch s r t) (.transactionDispatch r.rcb.id t.num)]

/-- Events of the T phase. -/
def tEvents (s : State) (r : Region) : List Instr :=
  List.flatten [r.txns.flatMap (txnEvents s r), offer (canTClose s r) (.tClose r.rcb.id)]

/-- Events of one plan entry. -/
def entryEvents (s : State) (core : Nat) (e : PlanEntry × Nat) : List Instr :=
  List.flatten [offer (canStart s core e.2) (.planEntryStart core e.2), offer (canFlit s core e.2 e.1.flits) (.sendfFlit core e.2 e.1.flits)]

/-- Events of one transfer. -/
def xferEvents (s : State) (r : Region) (e : Xfer × Nat) : List Instr :=
  let id := r.rcb.id
  List.flatten
    [offer (canReceive s r e.2) (.flitReceive id e.2), offer (canApply s r e.2) (.contributionApply id e.2),
     offer (e.1.status = .done) (.acknowledgement id e.2)]

/-- Events of the X phase. -/
def xEvents (s : State) (r : Region) : List Instr :=
  let id := r.rcb.id
  List.flatten
    [(heldCores s id).flatMap fun c => ((getCore s c).plan.zipIdx).flatMap (entryEvents s c),
     (r.xfers.zipIdx).flatMap (xferEvents s r),
     (r.xfers.zipIdx).flatMap fun e => offer (e.1.status = .refused && wouldTake s e.1) (.contributionResend id e.2),
     [.collectiveIncomplete id], [if canVote r then .requestVote id else .deferredStorePerform id], offer (canExit s r) (.barrierExit id)]

/-- Events of the phase a running region is in. -/
def phaseEvents (s : State) (r : Region) : List Instr :=
  match r.phase with
  | .c => (livePkgs r).flatMap fun p => offer (canCClose s r p) (.cClose r.rcb.id p)
  | .t => tEvents s r
  | _ => xEvents s r

/-- A recovery point is being written (R444). -/
def pointPending (s : State) (r : Region) : Bool := r.state = .running && ((recPointOf s r).map fun p => !p.valid).getD false

/-- A pre-emption, or a kill, has something to do (R167, R416). -/
def takeReady (s : State) (r : Region) : Bool := canKill s r || canSpill s r || !(takers s r).isEmpty

/-- Events of a region. -/
def regionEvents (s : State) (r : Region) : List Instr :=
  let id := r.rcb.id
  List.flatten
    [offer (canLaunchStart s r) (.launchStart id), offer (takeReady s r) (.preemptionTake id),
     offer (canResume s r) (.preemptionResume id), offer (pointPending s r) (.recoveryPointValid id),
     if r.state = .running then phaseEvents s r else []]

/-- A queued command can start, or go on after a park. -/
def cmdReady (s : State) (core : Nat) (q : List Cmd) : Bool :=
  match q with
  | [] => false
  | c :: _ => !c.waiting && waitDone s core false c.parked

/-- Events of a core's engines. -/
def engineEvents (s : State) (c : Nat) : List Instr :=
  let x := getCore s c
  List.flatten
    [offer (cmdReady s c x.mq) (.matrixCommandStart c), offer (x.mq.head?.any fun k => k.waiting) (.exchangeRound (clusterOf c)),
     offer (cmdReady s c x.cq) (.copyCommandStart c)]

/-- Events of a core's engines that go on at a pre-emption as long as something of theirs is in flight (R167, R402). -/
def finishEvents (s : State) (c : Nat) : List Instr :=
  let x := getCore s c
  List.flatten [offer (!x.vq.isEmpty && !x.vhold) (.vectorExecute c), offer (cmdReady s c x.sq) (.selvedgeCommandStart c)]

/-- Events of a core: its posted writes, its engines, its C done. -/
def coreEvents (s : State) (e : Nat × Core) : List Instr :=
  List.flatten
    [offer (e.2.unacked ≠ 0) (.pcieCompletion (pkgOfCore e.1) (.postedAck e.1)), if enginesRun s e.1 then engineEvents s e.1 else [],
     if finishesRun s e.1 then finishEvents s e.1 else [], offer (canCDone s e.1) (.cDone e.1)]

/-- The oldest no-return atomic arrives at its home. -/
def atomEvents (s : State) : List Instr := if (allAtoms s).isEmpty then [] else [.noReturnAtomicApply 0]

/-- Vector units told to hold their instructions execute them when nothing else moves. -/
def heldEvents (s : State) : List Instr :=
  s.cores.filterMap fun e => if e.2.vhold && !e.2.vq.isEmpty && finishesRun s e.1 then some (.vectorExecute e.1) else none

/-- The event changes the state. -/
def progresses (s : State) (i : Instr) : Bool :=
  match exec i s with
  | .next s' => s' ≠ s
  | _ => false

/-- The first event that can move and changes the state. -/
def nextEvent (s : State) : Option Instr :=
  (s.packages.flatMap (packageEvents s) ++ s.regions.flatMap (regionEvents s) ++ atomEvents s ++ s.cores.flatMap (coreEvents s)).find?
    (progresses s)

/-- A step that is not an instruction word: the only kind a move can name. -/
def isEvent (i : Instr) : Bool :=
  match i with
  | .illegalInstruction _ => false
  | _ => (encodeForm i).isNone

/-- A move that the outside world or a chosen interleaving makes. -/
def runMove (s : State) (m : Move) : Out State :=
  match m with
  | .event i => if isEvent i then exec i s else .next s
  | .issue core =>
    match nextStrand s core with
    | some n => issueAt s core n
    | none => .next s
  | .hold core on => .next (modCore s core fun x => { x with vhold := on })
  | .slice core elements => .next (modCore s core fun x => { x with slice := elements })

/-- A held vector unit, where one can go on; else the state as given. -/
def runHeld (s s1 : State) : Out State :=
  match (heldEvents s).find? (progresses s) with
  | some i => exec i s
  | none => .next s1

/-- What moves by itself: an event, else the next core's word, else a held vector unit; else nothing. -/
def runNext (s : State) : Out State :=
  match nextEvent s with
  | some i => exec i s
  | none =>
    match nextIssue s with
    | some (core, n) =>
      match issueAt s core n with
      | .next s1 => if s1.ctx.event = .blocked then runHeld s s1 else .next s1
      | o => o
    | none => runHeld s s

end Sys2Proof.Machine
end

