-- ==== Sys2Proof/Machine/Step.lean ====
section
/-! DEFINITION. One step of the machine, and the placing of an instruction where the next step fetches. -/

namespace Sys2Proof.Machine

/-- One step (log entry 3): the next move the outside world has put in the script, else what moves by itself. -/
def step (s : State) : Host.Outcome State Fault Refusal :=
  match s.script with
  | m :: rest => runMove { s with script := rest } m
  | [] => runNext s

/-! ### A program placed for the next step (log entry 3) -/

/-- Where the placed instruction lies in TCM of package 0, core 0. -/
def placeAt : Nat := 0x1000

/-- The control block of the region that `withFetchWord` runs: one cluster of package 0. -/
def placedRcb : Rcb := { Rcb.zero with pkgMask := 1#64 }

/-- Core 0 as a launch leaves it, in the placed region, about to issue from `placeAt`. -/
def placedCore (s : State) : Core :=
  let x := Core.idle s.domLast 0
  let t : Strand := { coreStrand x 0 with live := true, pc := BitVec.ofNat 18 placeAt }
  { setStrandOf x 0 t with region := some 0, guardLo := 0x1000#64, guardHi := 0x3FF00#64 }

/-- The launch that `withFetchWord` stands for: version 3 code, not specialised, no completion record. -/
def placedLaunch : Launch :=
  { pkg := 0, q := 0, num := 0, comp := 0, notice := 0, irq := false, image := Image.empty, variants := [(0, 0)], nospec := true, rpint := 0, recovery := false,
    rel := false }

/-- The region, running its first C phase. -/
def placedRegion : Region := { Region.idle placedRcb with state := .running, launch := some placedLaunch }

/-- The words that make the table's word the next to execute: alone where its `L` bit is set; in the C-slot beside a `NOP`; in the
A-slot behind a branch that is not taken (R43, R44). -/
def placedWords (w : Word32) : List Word32 :=
  if isLone w then [w] else if isAClass w then [0x01000800#32, w] else [w, 0x21000000#32]

/-- The state with the table's word where the next step fetches it: a region runs on core 0 and holds it. -/
def State.withFetchWord (s : State) (nbits w : Nat) : State :=
  if nbits = 0 ∨ 32 < nbits then s
  else
    let bs := (placedWords (BitVec.ofNat 32 w)).flatMap wordBytes
    { s with
      script := [], turn := 0
      mem := writeBytes s.mem (tcmKey 0 placeAt) bs
      cores := mapSet s.cores 0 (placedCore s)
      regions := [placedRegion] }

end Sys2Proof.Machine
end

