-- ==== Sys2Proof/Safety.lean ====
section
/-! DEFINITION. What the statements speak of: when a word can issue, that a word completed, what stays as it was, the canonical form
of every memory the state holds, and that a machine's stops are the named ones. -/

namespace Sys2Proof.Safety

open Sys2Proof.Machine

/-! ### Words that issue and complete -/

/-- The word's strand is live, the form accepts its fields (R47), and at a drain point nothing is left to drain (R161). -/
def Issuable (i : Instr) (s : State) : Prop :=
  (me s).live = true ∧ drainPoint i s = .ok () ∧ wellFormed i = true

/-- The word took effect: it neither trapped nor waits (R46, R75). -/
def Completed (t : State) : Prop := t.ctx.event = .done

/-- The instruction is a word of R56, not one of the part's other steps. -/
def IsWord (i : Instr) : Prop := (encodeForm i).isSome = true

/-! ### The strand that issues next -/

/-- The state without the move it makes. -/
def scriptPopped (s : State) : State := { s with script := s.script.tail }

/-- The next step is an issue by this strand of this core: the script says so of the core, or no event can move and the core is
next in rotation (log entry 3). -/
def IssuesNext (s : State) (core : Nat) (n : Fin 4) : Prop :=
  (s.script.head? = some (.issue core) ∧ nextStrand (scriptPopped s) core = some n) ∨
    (s.script = [] ∧ nextEvent s = none ∧ nextIssue s = some (core, n))

/-- The state at the strand's boundary: ready, with the issue's context. -/
def atBoundary (s : State) (core : Nat) (n : Fin 4) : State :=
  { modCore (modStrand s core n fun t => { t with wait := .ready }) core (fun x => { x with slotGone := false }) with
    ctx := { Ctx.none with core := core, strand := n, pc := (getStrand s core n).pc, last := (getStrand s core n).pc }
    turn := core }

/-- What a step makes of an issue (log entry 8): where the word waited and the script names no move, a held vector unit moves if one can. -/
def settled (s : State) (o : Out State) : Out State :=
  match o with
  | .next u => if s.script = [] ∧ u.ctx.event = .blocked then runHeld s u else .next u
  | o => o

/-- A TCM address as a place. -/
def tcmPlace (core a : Nat) : Place :=
  { key := tcmKey core a, mode := .untranslated, readOnly := false, leaf := none, va := BitVec.ofNat 64 a }

/-! ### What stays as it was -/

/-- Every byte of every memory reads as before. -/
def SameMemory (s t : State) : Prop := ∀ a, memRead t.mem a = memRead s.mem a

/-- Every byte of every memory outside [lo, lo + n) reads as before. -/
def SameMemoryBut (lo n : Nat) (s t : State) : Prop := ∀ a, a < lo ∨ lo + n ≤ a → memRead t.mem a = memRead s.mem a

/-- Every core but one is as it was. -/
def OtherCoresSame (c : Nat) (s t : State) : Prop := ∀ c', c' ≠ c → getCore t c' = getCore s c'

/-- The other strands of the issuing core are as they were. -/
def OtherStrandsSame (s t : State) : Prop :=
  ∀ n : Fin 4, n ≠ s.ctx.strand → getStrand t s.ctx.core n = getStrand s s.ctx.core n

/-- A core with its strands blanked. -/
def restOf (x : Core) : Core := { x with strands := Vector.replicate 4 Strand.idle }

/-- The issuing core apart from its strands is as it was: its control registers, accumulators, latch, scale keeper, operand
registers, engine queues and queued network work. -/
def CoreRegistersSame (s t : State) : Prop := restOf (getCore t s.ctx.core) = restOf (getCore s s.ctx.core)

/-- Everything of the domain but the cores, the memories and the regions is as it was. -/
def DomainSame (s t : State) : Prop := t.packages = s.packages ∧ t.waits = s.waits ∧ t.domLast = s.domLast

/-- Nothing but the issuing strand's own registers can differ. -/
def OnlyMyStrand (s t : State) : Prop :=
  SameMemory s t ∧ t.regions = s.regions ∧ DomainSame s t ∧ OtherCoresSame s.ctx.core s t ∧ OtherStrandsSame s t ∧
    CoreRegistersSame s t

/-- The strand's scalar registers but `d` are as they were. -/
def ScalarsSameBut (d : BitVec 5) (s t : State) : Prop :=
  ∀ r : Fin 32, r.val ≠ d.toNat → (me t).regs.s[r] = (me s).regs.s[r]

def ScalarsSame (s t : State) : Prop := (me t).regs.s = (me s).regs.s
def VectorsSame (s t : State) : Prop := (me t).regs.v = (me s).regs.v
def MasksSame (s t : State) : Prop := (me t).regs.k = (me s).regs.k

/-- The strand's vector registers but `d` are as they were. -/
def VectorsSameBut (d : BitVec 5) (s t : State) : Prop :=
  ∀ r : Fin 32, r.val ≠ d.toNat → (me t).regs.v[r] = (me s).regs.v[r]

/-- The strand's mask registers but `d` are as they were. -/
def MasksSameBut (d : BitVec 3) (s t : State) : Prop :=
  ∀ r : Fin 8, r.val ≠ d.toNat → (me t).regs.k[r] = (me s).regs.k[r]

/-- The strand's trap registers (R153, R154): status, cause, saved pc, fault address and information, original pc, unroll index. -/
def TrapRegsSame (s t : State) : Prop := (me t).trap = (me s).trap

/-- Loop bounds; the end check may change the counts (R102). -/
def LoopBoundsSame (s t : State) : Prop :=
  (me t).loop0.start = (me s).loop0.start ∧ (me t).loop0.stop = (me s).loop0.stop ∧
    (me t).loop1.start = (me s).loop1.start ∧ (me t).loop1.stop = (me s).loop1.stop

/-- A strand with its register files, its pc (a target beyond TCM included, R99) and its loop levels blanked. -/
def strandRest (t : Strand) : Strand := { t with regs := Regs.zero, pc := 0, beyond := none, loop0 := LoopLevel.zero, loop1 := LoopLevel.zero }

/-- Everything of the issuing strand but its register files, its pc and its loop levels is as it was: trap registers, replay state and
buffer, sequence number and dispatch ring, late faults, `MSEQ` and `MFAULTSEQ`, wait, body, allowances and clocks. -/
def StrandStateSame (s t : State) : Prop := strandRest (me t) = strandRest (me s)

/-! ### The canonical form of memory (log entry 2) -/

/-- The copies of memory that a region keeps are canonical (R119, R121, R167). -/
def RegionMemoryOk (r : Region) : Prop :=
  Memory.wf r.memC = true ∧ Memory.wf r.memPhase = true ∧ Memory.wf r.spillMem = true

/-- The copy of memory that a package's safe tier keeps is canonical (R2, R444). -/
def PackageMemoryOk (p : Package) : Prop := ∀ q, p.safe = some q → Memory.wf q.2.mem = true

/-- Every memory the state holds is in canonical form: equal memories are equal data. -/
def MemoryOk (s : State) : Prop :=
  Memory.wf s.mem = true ∧ (∀ r ∈ s.regions, RegionMemoryOk r) ∧ ∀ e ∈ s.packages, PackageMemoryOk e.2

/-! ### What the spec's tables say, on exact integers -/

/-- `sh` of R90. -/
def amount (b : Word) : Nat := b.toNat % 64

/-- 1 or 0. -/
def oneIf (p : Prop) [Decidable p] : Word := if p then 1#64 else 0#64

/-- A left shift, zeros entering. -/
def shiftedLeft (a : Word) (n : Nat) : Word := BitVec.ofNat 64 (a.toNat * 2 ^ n)

/-- A right shift, zeros entering. -/
def shiftedRight (a : Word) (n : Nat) : Word := BitVec.ofNat 64 (a.toNat / 2 ^ n)

/-- A right shift, copies of bit 63 entering: the floor of the signed value over 2^n. -/
def shiftedSigned (a : Word) (n : Nat) : Word := BitVec.ofInt 64 (a.toInt / (2 : Int) ^ n)

/-- A rotation right. -/
def rotated (a : Word) (n : Nat) : Word := BitVec.ofNat 64 (a.toNat / 2 ^ n + a.toNat % 2 ^ n * 2 ^ (64 - n))

/-- `DIV` (R90, R91). -/
def quotientS (a b : Word) : Word :=
  if b.toNat = 0 then BitVec.ofInt 64 (-1)
  else if a.toInt = -(2 : Int) ^ 63 ∧ b.toInt = -1 then BitVec.ofInt 64 (-(2 : Int) ^ 63)
  else BitVec.ofInt 64 (a.toInt.tdiv b.toInt)

/-- `DIVN` (R90, R91). -/
def quotientU (a b : Word) : Word := if b.toNat = 0 then BitVec.ofInt 64 (-1) else BitVec.ofNat 64 (a.toNat / b.toNat)

/-- `REM` (R90, R91): a less b times the quotient. -/
def remainderS (a b : Word) : Word :=
  if b.toNat = 0 then a
  else if a.toInt = -(2 : Int) ^ 63 ∧ b.toInt = -1 then 0#64
  else BitVec.ofInt 64 (a.toInt - b.toInt * a.toInt.tdiv b.toInt)

/-- `REMN` (R90, R91). -/
def remainderU (a b : Word) : Word :=
  if b.toNat = 0 then a else BitVec.ofNat 64 (a.toNat - b.toNat * (a.toNat / b.toNat))

/-- The register-register forms of R90 on the registers' values: destination, and result. -/
def registerResult (i : Instr) (S : BitVec 5 → Word) : Option (BitVec 5 × Word) :=
  match i with
  | .add d a b => some (d, BitVec.ofNat 64 ((S a).toNat + (S b).toNat))
  | .sub d a b => some (d, BitVec.ofInt 64 ((S a).toNat - (S b).toNat))
  | .and d a b => some (d, S a &&& S b)
  | .or d a b => some (d, S a ||| S b)
  | .xor d a b => some (d, S a ^^^ S b)
  | .andn d a b => some (d, S a &&& ~~~S b)
  | .sll d a b => some (d, shiftedLeft (S a) (amount (S b)))
  | .srl d a b => some (d, shiftedRight (S a) (amount (S b)))
  | .sra d a b => some (d, shiftedSigned (S a) (amount (S b)))
  | .rotr d a b => some (d, rotated (S a) (amount (S b)))
  | .mul d a b => some (d, BitVec.ofInt 64 ((S a).toInt * (S b).toInt))
  | .mulh d a b => some (d, BitVec.ofInt 64 ((S a).toInt * (S b).toInt / (2 : Int) ^ 64))
  | .mulhn d a b => some (d, BitVec.ofNat 64 ((S a).toNat * (S b).toNat / 2 ^ 64))
  | .div d a b => some (d, quotientS (S a) (S b))
  | .divn d a b => some (d, quotientU (S a) (S b))
  | .rem d a b => some (d, remainderS (S a) (S b))
  | .remn d a b => some (d, remainderU (S a) (S b))
  | .min d a b => some (d, if (S a).toInt ≤ (S b).toInt then S a else S b)
  | .max d a b => some (d, if (S a).toInt ≥ (S b).toInt then S a else S b)
  | .minn d a b => some (d, if (S a).toNat ≤ (S b).toNat then S a else S b)
  | .maxn d a b => some (d, if (S a).toNat ≥ (S b).toNat then S a else S b)
  | .slt d a b => some (d, oneIf ((S a).toInt < (S b).toInt))
  | .sltn d a b => some (d, oneIf ((S a).toNat < (S b).toNat))
  | .seq d a b => some (d, oneIf (S a = S b))
  | _ => none

/-- The immediate forms of R92 to R95. -/
def immediateResult (i : Instr) (S : BitVec 5 → Word) : Option (BitVec 5 × Word) :=
  match i with
  | .addi d a n => some (d, BitVec.ofInt 64 ((S a).toNat + n.toInt))
  | .andi d a n => some (d, S a &&& BitVec.ofNat 64 n.toNat)
  | .ori d a n => some (d, S a ||| BitVec.ofNat 64 n.toNat)
  | .xori d a n => some (d, S a ^^^ BitVec.ofNat 64 n.toNat)
  | .slti d a n => some (d, oneIf ((S a).toInt < n.toInt))
  | .sltin d a n => some (d, oneIf ((S a).toNat < (BitVec.ofInt 64 n.toInt).toNat))
  | .slli d a n => some (d, shiftedLeft (S a) n.toNat)
  | .srli d a n => some (d, shiftedRight (S a) n.toNat)
  | .srai d a n => some (d, shiftedSigned (S a) n.toNat)
  | .rotri d a n => some (d, rotated (S a) n.toNat)
  | .lui d n => some (d, BitVec.ofInt 64 (n.toInt * 2 ^ 14))
  | _ => none

/-- The conditions of R96 on two values: the six branches, with their registers and offset. -/
def branchOf (i : Instr) (S : BitVec 5 → Word) : Option (Bool × BitVec 11) :=
  match i with
  | .beq a b o => some (decide (S a = S b), o)
  | .bne a b o => some (decide (S a ≠ S b), o)
  | .blt a b o => some (decide ((S a).toInt < (S b).toInt), o)
  | .bge a b o => some (decide ((S a).toInt ≥ (S b).toInt), o)
  | .bltn a b o => some (decide ((S a).toNat < (S b).toNat), o)
  | .bgen a b o => some (decide ((S a).toNat ≥ (S b).toNat), o)
  | _ => none

/-- The register a word writes whose one effect, with the end of the word, is that register; `s0` where it writes none. -/
def plainDest (i : Instr) : Option (BitVec 5) :=
  match i with
  | .add d _ _ | .sub d _ _ | .and d _ _ | .or d _ _ | .xor d _ _ | .andn d _ _ | .sll d _ _ | .srl d _ _ | .sra d _ _ => some d
  | .rotr d _ _ | .mul d _ _ | .mulh d _ _ | .mulhn d _ _ | .div d _ _ | .divn d _ _ | .rem d _ _ | .remn d _ _ => some d
  | .min d _ _ | .max d _ _ | .minn d _ _ | .maxn d _ _ | .slt d _ _ | .sltn d _ _ | .seq d _ _ => some d
  | .clz d _ | .ctz d _ | .popc d _ | .brev d _ | .bswap d _ => some d
  | .addi d _ _ | .andi d _ _ | .ori d _ _ | .xori d _ _ | .slti d _ _ | .sltin d _ _ => some d
  | .slli d _ _ | .srli d _ _ | .srai d _ _ | .rotri d _ _ | .lui d _ | .insh d _ _ => some d
  | .beq _ _ _ | .bne _ _ _ | .blt _ _ _ | .bge _ _ _ | .bltn _ _ _ | .bgen _ _ _ => some 0#5
  | .jal d _ | .jalr d _ _ => some d
  | .loop _ _ _ | .loopi _ _ _ | .fence _ _ _ | .sassert _ _ _ | .sgrow _ => some 0#5
  | .mskget d | .sbmap d _ => some d
  | _ => none

/-- A hardware loop, which reads a word of code as it is set up. -/
def IsLoop (i : Instr) : Prop := (∃ v a n, i = .loop v a n) ∨ ∃ v c n, i = .loopi v c n

/-! ### What the vector words' tables say (R218, R219, R226 to R228) -/

/-- N of R226: bits of an element. -/
def laneBits (t : BitVec 4) : Nat := 8 * typeWidth t

/-- The element is active (R219). -/
def LaneActive (s : State) (m : BitVec 3) (w e : Nat) : Prop := m = 0#3 ∨ (readK s m).getLsbD (e * w) = true

/-- An element's bits as a two's complement integer. -/
def laneSigned (t : BitVec 4) (x : Nat) : Int := if 2 ^ (laneBits t - 1) ≤ x then (x : Int) - 2 ^ laneBits t else x

/-- The integer an element holds: signed for `.i` types, unsigned for `.n` types (R221). -/
def laneInt (t : BitVec 4) (x : Nat) : Int := if t.toNat < 4 then laneSigned t x else x

/-- An integer modulo 2^N. -/
def laneMod (t : BitVec 4) (x : Int) : Nat := (x % 2 ^ laneBits t).toNat

/-- `Sat` to the type's range, as an element. -/
def laneClamp (t : BitVec 4) (x : Int) : Nat :=
  if t.toNat < 4 then laneMod t (max (-(2 : Int) ^ (laneBits t - 1)) (min ((2 : Int) ^ (laneBits t - 1) - 1) x))
  else laneMod t (max 0 (min ((2 : Int) ^ laneBits t - 1) x))

/-- The integer result modulo 2^N, or the value rounded once to the element's format. -/
def laneArith (t : BitVec 4) (x y z : Nat) (fi : Int → Int → Int → Int) (ff : Val → Val → Val → Val) : Nat :=
  match floatOf t with
  | some f => rneFloat f (ff (floatVal f x) (floatVal f y) (floatVal f z))
  | none => laneMod t (fi (laneInt t x) (laneInt t y) (laneInt t z))

/-- The table of R226: destination, operands, mask, type, and an element from a, b and the old c. -/
def laneResult (i : Instr) : Option (BitVec 5 × BitVec 5 × BitVec 5 × BitVec 3 × BitVec 4 × (Nat → Nat → Nat → Nat)) :=
  match i with
  | .vadd d a b m t => some (d, a, b, m, t, fun x y z => laneArith t x y z (fun a b _ => a + b) fun a b _ => valAdd a b)
  | .vsub d a b m t => some (d, a, b, m, t, fun x y z => laneArith t x y z (fun a b _ => a - b) fun a b _ => valAdd a (valNeg b))
  | .vmul d a b m t => some (d, a, b, m, t, fun x y z => laneArith t x y z (fun a b _ => a * b) fun a b _ => valMul a b)
  | .vfma d a b m t =>
    some (d, a, b, m, t, fun x y z => laneArith t x y z (fun a b c => a * b + c) fun a b c => valAdd (valMul a b) c)
  | .vmin d a b m t =>
    some (d, a, b, m, t, fun x y z => laneArith t x y z (fun a b _ => min a b)
      fun a b _ => if isNaN a || isNaN b then .nan else if valBelow b a then b else a)
  | .vmax d a b m t =>
    some (d, a, b, m, t, fun x y z => laneArith t x y z (fun a b _ => max a b)
      fun a b _ => if isNaN a || isNaN b then .nan else if valBelow a b then b else a)
  | .vabs d a m t => some (d, a, a, m, t, fun x y z => laneArith t x y z (fun a _ _ => |a|) fun a _ _ => valAbs a)
  | .vneg d a m t => some (d, a, a, m, t, fun x y z => laneArith t x y z (fun a _ _ => -a) fun a _ _ => valNeg a)
  | .vand d a b m t => some (d, a, b, m, t, fun x y _ => x &&& y)
  | .vor d a b m t => some (d, a, b, m, t, fun x y _ => x ||| y)
  | .vxor d a b m t => some (d, a, b, m, t, fun x y _ => x ^^^ y)
  | .vsll d a b m t => some (d, a, b, m, t, fun x y _ => if laneBits t ≤ y then 0 else x * 2 ^ y)
  | .vsrl d a b m t => some (d, a, b, m, t, fun x y _ => if laneBits t ≤ y then 0 else x / 2 ^ y)
  | .vsra d a b m t =>
    some (d, a, b, m, t, fun x y _ => laneMod t (if laneBits t ≤ y then (if laneSigned t x < 0 then -1 else 0) else laneSigned t x / 2 ^ y))
  | .vadds d a b m t => some (d, a, b, m, t, fun x y _ => laneClamp t (laneInt t x + laneInt t y))
  | .vsubs d a b m t => some (d, a, b, m, t, fun x y _ => laneClamp t (laneInt t x - laneInt t y))
  | _ => none

/-- The compares of R228: mask register written, operands, mask, type and condition. -/
def laneCompare (i : Instr) : Option (BitVec 3 × BitVec 5 × BitVec 5 × BitVec 3 × BitVec 4 × (Val → Val → Bool)) :=
  match i with
  | .vcmpeq k a b m t => some (k, a, b, m, t, valEq)
  | .vcmpne k a b m t => some (k, a, b, m, t, fun x y => !valEq x y)
  | .vcmplt k a b m t => some (k, a, b, m, t, valLt)
  | .vcmple k a b m t => some (k, a, b, m, t, fun x y => valLt x y || valEq x y)
  | _ => none

/-- The sum of two elements of R231 and R232. -/
def laneSum (t : BitVec 4) (x y : Nat) : Nat := laneArith t x y 0 (fun a b _ => a + b) fun a b _ => valAdd a b

/-- The larger of two elements (R226, R227). -/
def laneMax (t : BitVec 4) (x y : Nat) : Nat :=
  laneArith t x y 0 (fun a b _ => max a b) fun a b _ => if isNaN a || isNaN b then .nan else if valBelow a b then b else a

/-- The smaller of two elements (R226, R227). -/
def laneMin (t : BitVec 4) (x y : Nat) : Nat :=
  laneArith t x y 0 (fun a b _ => min a b) fun a b _ => if isNaN a || isNaN b then .nan else if valBelow b a then b else a

/-- Entry j of the tree of R231 after `k` levels; none where every element below it is absent. -/
def treeAt (op : Nat → Nat → Nat) (x : Nat → Option Nat) : Nat → Nat → Option Nat
  | 0, j => x j
  | k + 1, j =>
    match treeAt op x k (2 * j), treeAt op x k (2 * j + 1) with
    | some a, some b => some (op a b)
    | some a, none => some a
    | none, r => r

/-- `Reduce` of R231 over 2^k elements: the tree first, then the carry-in. -/
def reduced (op : Nat → Nat → Nat) (x : Nat → Option Nat) (k cin : Nat) : Nat :=
  match treeAt op x k 0 with
  | some v => op v cin
  | none => cin

/-- y of R232 before element e. -/
def running (op : Nat → Nat → Nat) (on : Nat → Bool) (x : Nat → Nat) (cin : Nat) : Nat → Nat
  | 0 => cin
  | e + 1 => if on e then op (running op on x cin e) (x e) else running op on x cin e

/-- The magnitude of a finite value. -/
def magnitude : Val → ℚ
  | .fin m e => |(m : ℚ)| * (2 : ℚ) ^ e
  | _ => 0

/-- NaN or an infinity. -/
def NotFinite (v : Val) : Prop := v = .nan ∨ ∃ n, v = .inf n

/-- A value as an element of another type, by the table of R200. -/
def converted (t v : BitVec 4) (x : Nat) : Nat :=
  match floatOf t, floatOf v with
  | some f, some g => rneFloat f (floatVal g x)
  | some f, none => rneFloat f (if laneInt v x = 0 then .zero false else .fin (laneInt v x) 0)
  | none, none => laneClamp t (laneInt v x)
  | none, some g =>
    match floatVal g x with
    | .nan | .zero _ => 0
    | .inf neg => laneClamp t (if neg then -(2 : Int) ^ 64 else 2 ^ 64)
    | .fin m e => laneClamp t ((m * (2 : Int) ^ e.toNat).tdiv (2 ^ (-e).toNat))

/-- A vector word that can issue executes now: no vector instruction of the strand is outstanding, its ring entry is free, no late
vector fault is pending, and the unit does not leave it dispatched (R159, R160, R222; log entry 8). -/
def VectorReady (i : Instr) (s : State) : Prop :=
  Issuable i s ∧ vqBusy s = false ∧ ringFree (me s) = true ∧ lateOf (me s) .vector = none ∧
    ((myCore s).vhold = false ∨ s.ctx.slot = .cslot ∨ s.ctx.slot = .aslot)

/-- The registers after a word. -/
def newS (u : State) (d : BitVec 5) : Word := (me u).regs.s[d.toNat]'d.isLt
def newV (u : State) (d : BitVec 5) : VWord := (me u).regs.v[d.toNat]'d.isLt
def newK (u : State) (d : BitVec 3) : KWord := (me u).regs.k[d.toNat]'d.isLt

/-- A vector word's dispatch: one sequence number; trap registers as before. -/
def OneDispatch (s u : State) : Prop := (me u).seq = (me s).seq + 1#8 ∧ TrapRegsSame s u

/-! ### When nothing else is in the way -/

/-- The issuing core is held by a listed region. -/
def Held (s : State) : Prop := ∃ id r, (myCore s).region = some id ∧ getRegion? s id = some r

/-- The phase log of the core's region holds accesses of the issuing strand alone: nothing can conflict. -/
def LogQuiet (s : State) : Prop := ∀ e ∈ (myRegion s).log, e.agent = .strand s.ctx.core s.ctx.strand

/-- No access of the strand can conflict: nothing else is in the log, and none of its own accesses is in doubt. -/
def Quiet (s : State) : Prop := LogQuiet s ∧ s.doubts = []

/-- No other strand of the core has accessed one of its per-core registers in the phase (R86). -/
def RegistersQuiet (s : State) : Prop := ∀ r ∈ (myCore s).regAcc, r.2.1 = (s.ctx.strand : Nat)

/-- No byte of the range lies in a guard granule (R137). -/
def Unguarded (s : State) (key n : Nat) : Prop := ∀ j, j < n → classAt (myRegion s) (key + j) ≠ 2

/-- The strand's registers of all three files are as they were. -/
def RegsSame (s t : State) : Prop := ScalarsSame s t ∧ VectorsSame s t ∧ MasksSame s t

/-- Only the issuing strand, its core and its region can differ; memory and the rest of the domain are as they were. -/
def OutsideSame (s t : State) : Prop := DomainSame s t ∧ OtherCoresSame s.ctx.core s t ∧ OtherStrandsSame s t

/-- What a read of code by the issuing strand may have changed: its clock, and the phase log, the guard faults and the free values the
access checker counts (R78, R141, R142). -/
def CodeRead (s t : State) : Prop :=
  SameMemory s t ∧ OutsideSame s t ∧ CoreRegistersSame s t ∧ t.ctx = s.ctx ∧ me t = { me s with clock := (me t).clock } ∧
    t.regions.map (fun r => { r with log := [], guards := [] }) = s.regions.map fun r => { r with log := [], guards := [] }

/-! ### What the other tables say -/

/-- The no-return atomics of R125: operation code, address and operand registers, width. -/
def atomicForm (i : Instr) : Option (BitVec 3 × BitVec 5 × BitVec 5 × BitVec 1) :=
  match i with
  | .amoadd a b w => some (0#3, a, b, w)
  | .amoand a b w => some (1#3, a, b, w)
  | .amoor a b w => some (2#3, a, b, w)
  | .amoxor a b w => some (3#3, a, b, w)
  | .amomin a b w => some (4#3, a, b, w)
  | .amomax a b w => some (5#3, a, b, w)
  | .amominn a b w => some (6#3, a, b, w)
  | .amomaxn a b w => some (7#3, a, b, w)
  | _ => none

/-- What an atomic of R125 leaves at its target. -/
def atomicResult (op : BitVec 3) (bits old x : Nat) : Nat :=
  let o := BitVec.ofNat bits old
  let y := BitVec.ofNat bits x
  match op.toNat with
  | 0 => (o + y).toNat
  | 1 => (o &&& y).toNat
  | 2 => (o ||| y).toNat
  | 3 => (o ^^^ y).toNat
  | 4 => if y.toInt < o.toInt then x else old
  | 5 => if o.toInt < y.toInt then x else old
  | 6 => if x < old then x else old
  | _ => if old < x then x else old

/-- The words that queue a command of an engine as they stand: the engine, and the three captured operands (R36, R249, R274, R379). -/
def queuedForm (i : Instr) (S : BitVec 5 → Word) : Option (Engine × Word × Word × Word) :=
  match i with
  | .mma _ a b | .mmaz _ a b | .mldb a b | .mldbt a b | .mstaccq _ a b _ _ => some (.matrix, S a, S b, 0#64)
  | .mldacc _ a | .mstacc _ a => some (.matrix, S a, 0#64, 0#64)
  | .mring _ | .mswap _ | .mzero _ | .maccadd _ _ _ | .mcfg _ _ _ _ _ => some (.matrix, 0#64, 0#64, 0#64)
  | .cpy a b c _ _ | .cpyd a b c _ | .cpyg a b c _ _ | .cpys a b c _ _ => some (.copy, S a, S b, S c)
  | .cpyf a b c _ _ | .cpyr a b c | .cpyho a b c _ _ => some (.copy, S a, S b, S c)
  | .pdainit a b _ | .pdamask a b | .pdastep a b | .samplep a b _ | .samplef a b | .pdasave a b => some (.selvedge, S a, S b, 0#64)
  | _ => none

/-- An instruction sent over the exchange links of the cluster. -/
def ringExchange (i : Instr) : Prop := (∃ k, i = .mring k) ∨ ∃ q, i = .mswap q

/-! ### What a queued command finds (R136, R250, R279, R378) -/

/-- Nothing in the phase's log is another agent's, and no access is in doubt: no access of the command conflicts. -/
def CmdQuiet (s : State) (core : Nat) (c : Cmd) : Prop :=
  (∀ e ∈ (regionOf s core).log, e.agent = .strand core (cmdStrand c)) ∧ s.doubts = []

/-- No byte of the range lies in a guard granule of the core's region (R137). -/
def Open (s : State) (core key n : Nat) : Prop := ∀ j, j < n → classAt (regionOf s core) (key + j) ≠ 2

/-- The command reaches `n` bytes at an address of a memory without translation: TCM, scratchpad or die SRAM. -/
def CmdReaches (s : State) (core : Nat) (c : Cmd) (va : Word) (n al : Nat) (write : Bool) (p : Place) : Prop :=
  fieldOf va 63 60 ≤ 2 ∧ cmdCheck s core c va n al write = .ok p ∧ Open s core p.key n

/-- The command reads a value of `w` bytes at an address: memory as it stands, or through path 0x5 as at the start of the phase (R121), with
the page's `A` set already. -/
def CmdReads (s : State) (core : Nat) (c : Cmd) (va : Word) (w v : Nat) : Prop :=
  ∃ p, cmdCheck s core c va w w false = .ok p ∧ p.mode ≠ .ex ∧ (∀ k, p.leaf = some k → memRead s.mem k &&& 0x04#8 = 0x04#8) ∧
    Open s core p.key w ∧ memNat (if p.readOnly then (regionOf s core).memPhase else s.mem) p.key w = v

/-- The command writes `n` bytes in pieces of `w` from an address on, at a run of memory from a key on. -/
def CmdWrites (s : State) (core : Nat) (c : Cmd) (va : Word) (n w key : Nat) : Prop :=
  ∀ j, j * w < n → ∃ p, CmdReaches s core c (va + BitVec.ofNat 64 (j * w)) w w true p ∧ p.key = key + j * w

/-- The command finds `n` bytes at an address, and still finds them there whatever the bytes of `W`, which it writes, come to hold: no
page table is among them. -/
def CmdFinds (s : State) (core : Nat) (c : Cmd) (W : Nat → Prop) (va : Word) (n al : Nat) (write : Bool) (p : Place) : Prop :=
  Open s core p.key n ∧ p.mode ≠ .ex ∧ (∀ k, p.leaf = some k → ¬W k ∧ memRead s.mem k &&& (if write then 0x0C#8 else 0x04#8) = if write then 0x0C#8 else 0x04#8) ∧
    ∀ m, (∀ a, ¬W a → memRead m a = memRead s.mem a) → cmdCheck { s with mem := m } core c va n al write = .ok p

/-- The command reads `n` bytes, none of which it writes, at a place: memory as it stands, or through path 0x5 as at the start of the phase
(R121). -/
def CmdSource (s : State) (core : Nat) (c : Cmd) (W : Nat → Prop) (va : Word) (n : Nat) (p : Place) : Prop :=
  CmdFinds s core c W va n n false p ∧ (p.readOnly = false → ∀ a, p.key ≤ a → a < p.key + n → ¬W a)

/-- The bytes such a read gives. -/
def sourceBytes (s : State) (core : Nat) (p : Place) (n : Nat) : List Byte :=
  readBytes (if p.readOnly then (regionOf s core).memPhase else s.mem) p.key n

/-- The command writes `n` bytes at a place that is not host memory, whose page has `A` and `D` set. -/
def CmdTarget (s : State) (core : Nat) (c : Cmd) (W : Nat → Prop) (va : Word) (n al : Nat) (p : Place) : Prop :=
  CmdFinds s core c W va n al true p ∧ spaceOf p.key ≠ 5

/-- The completion word of a completion operand (R275): key and size, where it names one. -/
def completionBytes (core : Nat) (x : Word) : List (Nat × Nat) := if fieldOf x 31 0 = 0 then [] else [(completionKey core x, 8)]

/-- Bytes outside every range of a list. -/
def Apart (key n : Nat) (l : List (Nat × Nat)) : Prop := ∀ r ∈ l, key + n ≤ r.1 ∨ r.1 + r.2 ≤ key

/-- The completion write has been made: the word, and its handoff, which orders any waiter or the issuing strand alone (R138, R284, R285,
R401). -/
def CompletionMade (u : State) (core : Nat) (x : Word) (any : Bool) : Prop :=
  fieldOf x 31 0 ≠ 0 →
    memNat u.mem (completionKey core x) 8 = fieldOf x 63 32 ∧
      ∃ h ∈ (regionOf u core).handoffs, h.key = completionKey core x ∧ h.value = BitVec.ofNat 64 (fieldOf x 63 32) ∧ h.any = any

/-- The command is queued no longer. -/
def Gone (l : List Cmd) (c : Cmd) : Prop := ∀ q ∈ l, ¬(q.strand = c.strand ∧ q.seq = c.seq)

/-! ### Matrix tiles (R244, R254 to R256) -/

/-- `K` of an operand format's class. -/
def tileK (fmt : Nat) : Nat := if fmt = 0x9 then 32 else if fmt = 0xC then 128 else 64

/-- The element of a stored tile at row r, column k (R254), of rows and scale bytes at their places. -/
def tileElem (m : Memory) (fmt : Nat) (row scale : Nat → Place) (D : ViewDesc) (ix : Nat → Nat) (len r k : Nat) : Val :=
  if fmt = 0xC ∨ fmt = 0xD then
    let p := len * r + k
    let byte (b n : Nat) := memNat m ((row (b / 64)).key + b % 64) n
    let kind : QKind := if fmt = 0xD then .code (BitVec.ofNat 8 (byte p 1)).toInt else (decodeQ4X (byte (4 * (p / 8)) 4)).getD (p % 8) .zero
    decodeStippled kind (memNat m (scale (p / 32)).key 1) D.seed (ix p) D.zp
  else elemVal (BitVec.ofNat 4 fmt) (memNat m ((row r).key + k * fmtBytes fmt) (fmtBytes fmt))

/-- The command reaches a stored tile of `rows` rows of `len` elements (R252, R254): its rows; for a stippled format its descriptor, the
indices of the view and the scale bytes. -/
def TileReached (s : State) (core : Nat) (c : Cmd) (fmt rows len al : Nat) (packed : Bool) (scaleBase sv : Word) (row scale : Nat → Place)
    (D : ViewDesc) (ix : Nat → Nat) : Prop :=
  if fmt = 0xC ∨ fmt = 0xD then
    (∃ dp, CmdReaches s core c (BitVec.ofNat 64 (descAddr sv)) 128 128 false dp ∧
      parseView (readBytes s.mem dp.key 128) (BitVec.ofNat 4 fmt) = some D) ∧
      D.skip = 0 ∧ rows * len ≤ viewSize D ∧ (∀ p, p < rows * len → viewIndex D p = some (ix p)) ∧ c.a.toNat % 64 = 0 ∧
      (∀ r, r < 16 → fieldOf (c.a + BitVec.ofNat 64 (64 * r)) 63 60 ≤ 1 ∧
        CmdReaches s core c (c.a + BitVec.ofNat 64 (64 * r)) 64 1 false (row r)) ∧
      ∀ i, i < rows * len / 32 → fieldOf (scaleBase + c.b + BitVec.ofNat 64 i) 63 60 ≤ 1 ∧
        CmdReaches s core c (scaleBase + c.b + BitVec.ofNat 64 i) 1 1 false (scale i)
  else
    ∀ r, r < rows →
      (let va := c.a + BitVec.ofNat 64 r * (if packed then BitVec.ofNat 64 (len * fmtBytes fmt) else c.b)
       fieldOf va 63 60 ≤ 1 ∧ va.toNat % (if r = 0 then 64 else al) = 0 ∧ CmdReaches s core c va (len * fmtBytes fmt) 1 false (row r))

/-- The exact sum of products, from the first on (R256). -/
def productSum (l : List Val) : Val :=
  match l with
  | [] => .zero false
  | v :: vs => vs.foldl valAdd v

/-- The FP32 accumulator after so many groups of eight (R255). -/
def accumulated (group : Nat → Val) (y : Nat) : Nat → Nat
  | 0 => y
  | g + 1 => rneFloat .f32 (valAdd (floatVal .f32 (accumulated group y g)) (floatVal .f32 (rneFloat .f32 (group g))))

/-- The order of `MRING cluster` (R259): positions (y, x). -/
def ringPositions : List (Nat × Nat) :=
  [(0, 0), (0, 1), (0, 2), (0, 3), (1, 3), (1, 2), (1, 1), (1, 0), (2, 0), (2, 1), (2, 2), (2, 3), (3, 3), (3, 2), (3, 1), (3, 0)]

/-! ### Copies (R280, R281) -/

/-- The element an iteration vector (i0 first) moves: destination, and source, where there is one; none where the row is skipped. `x` gives
the indices of the rows. -/
def copyMove (c : Cmd) (e : Nat) (lv : List Level) (x : Nat → Nat) (i : List Nat) : Option (Word × Option Word) :=
  let at_ (base : Word) (st : List Int) (i : List Nat) : Word := base + BitVec.ofInt 64 (e * ((st.zip i).map fun p => p.1 * (p.2 : Int)).sum)
  let ds := lv.map fun l => l.dstr
  let ss := lv.map fun l => l.sstr
  let indexed := x (i.getD 1 0)
  match copyFn c.instr with
  | 2 => some (at_ c.a ds i, if indexed = 0xFFFFFFFF then none else some (at_ c.b ss (i.set 1 indexed)))
  | 3 => if indexed = 0xFFFFFFFF then none else some (at_ c.a ds (i.set 1 indexed), some (at_ c.b ss i))
  | 4 => some (at_ c.a ds i, none)
  | _ => some (at_ c.a ds i, some (at_ c.b ss i))

/-- The iteration vectors of some counts, i0 first in each and fastest from one to the next. -/
def vectorsOf : List Nat → List (List Nat)
  | [] => [[]]
  | n :: ns => (vectorsOf ns).flatMap fun r => (List.range n).map fun i => i :: r

/-- Memory after elements of `e` bytes have been stored in order, each at a key with the bytes it takes from memory as the ones before it
have left it. -/
def stored (e : Nat) : List (Nat × ((Nat → Byte) → Nat → Byte)) → (Nat → Byte) → Nat → Byte
  | [], m => m
  | x :: rest, m => stored e rest fun a => if x.1 ≤ a ∧ a < x.1 + e then x.2 m (a - x.1) else m a

/-- The value of a view position that a `CPYR` recodes (R282): an element of the source, or a stippled code and its scale byte through the
source view. -/
def RecodeSource (s : State) (core : Nat) (c : Cmd) (W : Nat → Prop) (g : ViewDesc) (p : Nat) (v : Val) : Prop :=
  let sf := recode c 11 8
  let size := if sf = 0xC then 4 else if sf = 0xD then 1 else if sf = 0x8 then 4 else if sf = 0x9 then 2 else 1
  if sf = 0xC ∨ sf = 0xD then
    let st := g.skip + p
    ∃ (ep cp : Place) (n : Nat), viewIndex g p = some n ∧ CmdSource s core c W (c.eb[12] + BitVec.ofNat 64 (st / 32)) 1 ep ∧
      CmdSource s core c W (c.b + BitVec.ofNat 64 (if sf = 0xC then 4 * (st / 8) else st)) size cp ∧
      (let code := leNat (sourceBytes s core cp size)
       v = decodeStippled (if sf = 0xD then .code (BitVec.ofNat 8 code).toInt else (decodeQ4X code).getD (st % 8) .zero)
         (leNat (sourceBytes s core ep 1)) g.seed n g.zp)
  else
    ∃ cp : Place, CmdSource s core c W (c.b + BitVec.ofNat 64 (p * size)) size cp ∧
      v = elemVal (BitVec.ofNat 4 sf) (leNat (sourceBytes s core cp size))

/-- A copy command that is to start: at the head of its queue, from its first element, with nothing to hold it back. -/
def CopyStarts (s : State) (core : Nat) (c : Cmd) (rest : List Cmd) : Prop :=
  (getCore s core).cq = c :: rest ∧ copyMayRun s core c = true ∧ c.ended = none ∧ c.read = none ∧ c.resumed = false ∧ c.start = noStart ∧
    c.index = none ∧ (getCore s core).slice = 0 ∧ completionOk s core c.guard c.c = true ∧ CmdQuiet s core c ∧ Memory.wf s.mem = true

/-- A selvedge command that is to start, with its block read at one place and its `STATUS` written there (R380, R381). -/
def SelvedgeStarts (s : State) (core : Nat) (c : Cmd) (rest : List Cmd) (bp : Place) : Prop :=
  (getCore s core).sq = c :: rest ∧ svMayRun s core c = true ∧ (getCore s core).slice = 0 ∧ c.read = none ∧ completionOk s core c.guard c.b = true ∧
    CmdQuiet s core c ∧ Memory.wf s.mem = true ∧ fieldOf c.a 63 60 = 0 ∧ CmdReaches s core c c.a 64 64 false bp ∧
    CmdWrites s core c (c.a + 0x38#64) 8 8 (bp.key + 0x38)

/-- A selvedge command has completed: its `STATUS`, its completion write, and no byte written but those and the ranges given (R382, R401). -/
def SelvedgeEnds (s u : State) (core : Nat) (c : Cmd) (bp : Place) (status : Nat) (out : List (Nat × Nat)) : Prop :=
  Gone (getCore u core).sq c ∧ CompletionMade u core c.b false ∧
    (Apart (bp.key + 0x38) 8 (completionBytes core c.b) → memNat u.mem (bp.key + 0x38) 8 = status) ∧
    ∀ a, (∀ r ∈ (bp.key + 0x38, 8) :: completionBytes core c.b ++ out, a < r.1 ∨ r.1 + r.2 ≤ a) → memRead u.mem a = memRead s.mem a

/-! ### The automaton's tables (R384 to R389) -/

/-- A table header that R384 admits, of eight dwords. -/
def HeaderAt (s : State) (core : Nat) (c : Cmd) (ha : Word) (g : Nat → Nat) : Prop :=
  onTablePath ha.toNat = true ∧ ha.toNat % 64 = 0 ∧ (∀ i, i < 8 → CmdReads s core c (ha + BitVec.ofNat 64 (8 * i)) 8 (g i)) ∧
    tableOk ((List.range 8).map g) = true

/-- A context, or a saved record, that R389 admits: its eight dwords, its live symbols, and its table's header. -/
def ContextAt (s : State) (core : Nat) (c : Cmd) (ca : Word) (w st g : Nat → Nat) : Prop :=
  (∀ i, i < 8 → CmdReads s core c (ca + BitVec.ofNat 64 (8 * i)) 8 (w i)) ∧ w 1 / 2 ^ 32 ≤ 1024 ∧ (∀ i, 3 ≤ i → i < 8 → w i = 0) ∧
    HeaderAt s core c (BitVec.ofNat 64 (w 0)) g ∧ w 1 % 2 ^ 32 < g 1 % 2 ^ 32 ∧
    ∀ j, j < w 1 / 2 ^ 32 → CmdReads s core c (ca + BitVec.ofNat 64 (0x40 + 2 * j)) 2 (st j) ∧ 1 ≤ st j ∧ st j < g 1 / 2 ^ 32

/-- A state's entry that R385 admits: its two dwords. -/
def StateAt (s : State) (core : Nat) (c : Cmd) (g : Nat → Nat) (q : Nat) (lo hi : Nat) : Prop :=
  q < g 1 % 2 ^ 32 ∧ CmdReads s core c (BitVec.ofNat 64 (g 4 + 16 * q)) 8 lo ∧ CmdReads s core c (BitVec.ofNat 64 (g 4 + 16 * q + 8)) 8 hi ∧
    lo / 2 ^ 36 = 0 ∧ lo / 2 ^ 32 % 4 ≠ 3

/-- The row of a context's state, which names none or lies where R384 admits (R386, R388). -/
def RowAt (s : State) (core : Nat) (c : Cmd) (g w st : Nat → Nat) (lo row : Nat) : Prop :=
  let depth := w 1 / 2 ^ 32
  let t1 := if 1 ≤ depth then st (depth - 1) else 0
  let t2 := if 2 ≤ depth then st (depth - 2) else 0
  let dep := lo / 2 ^ 32 % 4
  let i := lo % 2 ^ 32 + if dep = 0 then 0 else if dep = 1 then t1 else t1 * (g 1 / 2 ^ 32) + t2
  CmdReads s core c (BitVec.ofNat 64 (g 5 + 8 * i)) 8 row ∧ (row = 0 ∨ (row % 8 = 0 ∧ onTablePath row = true))

/-- Blocks of a row below one that are explicit, by their codes. -/
def explicitBlocks (code : Nat → Nat) (b : Nat) : Nat := (List.range b).countP fun k => code k = 2

/-- The mask bit of a token (R386, R388): the codes of its block and of those below, and the byte of an explicit block, are what the command
reads. -/
def MaskBitIs (s : State) (core : Nat) (c : Cmd) (g : Nat → Nat) (row t : Nat) (bit : Prop) : Prop :=
  let v := g 0 / 2 ^ 32
  if row = 0 ∨ v ≤ t then ¬bit
  else
    ∃ code : Nat → Nat, ∃ byte : Nat,
      (∀ b, b ≤ t / 256 → ∃ d, CmdReads s core c (BitVec.ofNat 64 (row + 8 * (b / 32))) 8 d ∧ code b = d / 2 ^ (2 * (b % 32)) % 4) ∧
        (if code (t / 256) = 2 then
          (∀ b, b < t / 256 → code b ≠ 3) ∧
            CmdReads s core c (BitVec.ofNat 64 (row + 8 * (((v + 255) / 256 + 31) / 32) + 32 * explicitBlocks code (t / 256) + t % 256 / 8)) 1 byte ∧
            (bit ↔ byte / 2 ^ (t % 8) % 2 = 1)
        else code (t / 256) ≠ 3 ∧ (bit ↔ code (t / 256) = 1))

/-- The search of R388 among entries `e`, in at most so many turns, between signed bounds: the action index found. -/
def searched (e : Nat → Nat) (t : Nat) : Nat → Int → Int → Option Nat
  | 0, _, _ => none
  | k + 1, lo, hi =>
    if hi < lo then none
    else
      let x := e ((lo + hi) / 2).toNat
      if t < x % 2 ^ 20 then searched e t k lo ((lo + hi) / 2 - 1)
      else if x / 2 ^ 20 % 2 ^ 20 < t then searched e t k ((lo + hi) / 2 + 1) hi
      else some (x / 2 ^ 40)

/-- A value as a rational, where it is finite. -/
def valRat : Val → ℚ
  | .fin m e => (m : ℚ) * (2 : ℚ) ^ e
  | _ => 0

/-- T of R394: 2^32 − 1, then 2^(32 − j/256) rounded to the nearest integer. -/
def IsWeightTable (T : Nat → Nat) : Prop :=
  T 0 = 0xFFFFFFFF ∧ ∀ j, 1 ≤ j → j < 256 → (2 * T j - 1) ^ 256 < 2 ^ (8448 - j) ∧ 2 ^ (8448 - j) < (2 * T j + 1) ^ 256

end Sys2Proof.Safety
end

