-- ==== Sys2Proof/Certificates/Slice0/Obligations.lean ====
section
/-! DEFINITION. The statements for the provers: what decoding, the step, every instruction word and every other step of the part do, and
what they leave alone. -/

open Sys2Proof Sys2Proof.Machine Sys2Proof.Safety

/-- Twelve example words that the rules on START, WAITS, LD, ST.h, LDBIT, LDT, AMOSEQ, FENCE, VFMA, VCMPLT, KAND and POST print
decode, as lone words, to the instruction and operands each rule gives. -/
def Obligations.DecodesSpecExamples : Prop :=
  decode .v3 0x85002142#32 = .ok { lone := true, smark := false, instr := .start 4 5 2 } ∧
  decode .v3 0x8520000A#32 = .ok { lone := true, smark := false, instr := .waits 5 } ∧
  decode .v3 0x86491FFD#32 = .ok { lone := true, smark := false, instr := .ld 9 4 3 (-3) } ∧
  decode .v3 0x873A7802#32 = .ok { lone := true, smark := false, instr := .stH 7 9 2 } ∧
  decode .v3 0x88032005#32 = .ok { lone := true, smark := false, instr := .ldbit 3 4 0 5 } ∧
  decode .v3 0x88482142#32 = .ok { lone := true, smark := false, instr := .ldt 8 4 5 2 } ∧
  decode .v3 0x8A52D8D0#32 = .ok { lone := true, smark := false, instr := .amoseq 10 11 12 13 0 } ∧
  decode .v3 0x8BD88000#32 = .ok { lone := true, smark := false, instr := .fence 6 12 4 } ∧
  decode .v3 0xB0190A23#32 = .ok { lone := true, smark := false, instr := .vfma 3 4 5 0 8 } ∧
  decode .v3 0xB4110A62#32 = .ok { lone := true, smark := false, instr := .vcmplt 2 4 5 1 8 } ∧
  decode .v3 0xB8184400#32 = .ok { lone := true, smark := false, instr := .kand 3 1 2 } ∧
  decode .v3 0x8C602142#32 = .ok { lone := true, smark := false, instr := .post 4 5 2 }

/-- For every instruction word form of R56, with every operand at every value its field admits and with L and S as the placement
rules admit them, the decoder gives back from the encoded word exactly that instruction, L and S. -/
def Obligations.EncodedWordsDecode : Prop :=
  ∀ (d : DecodedWord) (w : Word32), encode d = some w →
    (d.smark = true → markAllowed w = true) → (markRequired w = true → d.smark = true) → (loneOnly w = true → d.lone = true) →
    decode .v3 w = .ok d

/-- A word that the decoder accepts is, bit for bit, the encoding of the instruction, L and S it decodes to: no bit of an accepted
word is ignored, so no two words stand for one instruction. -/
def Obligations.DecodedWordsEncode : Prop :=
  ∀ (d : DecodedWord) (w : Word32), decode .v3 w = .ok d → encode d = some w

/-- Under every encoding version a word whose major code is 0x00, 0x16 to 0x1F, 0x2A to 0x2F or 0x3A to 0x3F is refused by the
decoder, whatever its other bits are. -/
def Obligations.ReservedMajorsRefused : Prop :=
  ∀ (v : EncVer) (w : Word32),
    (let m := (w.toNat / 2 ^ 24) % 64
     m = 0x00 ∨ (0x16 ≤ m ∧ m ≤ 0x1F) ∨ (0x2A ≤ m ∧ m ≤ 0x2F) ∨ 0x3A ≤ m) →
    ∃ e, decode v w = .error e

/-- The step of a live strand at a word that matches no form, a misaligned bundle, a pair that breaks the class rule, a bad target
or a fetch outside the bounds is the precise trap entry with the cause of that check, FAULTADDR holding the word or the address,
and no other effect; so is, with nothing left to drain, every word form whose fields it does not accept (an element type, a
scope, a length, a selector). The model reports ACC as none for causes without an access (log entry 25, DEDUCED). -/
def Obligations.IllegalWordsTrap : Prop :=
  (∀ (s : State) (w : Word32) (a : Word), (me s).live = true →
    exec (.illegalInstruction (.illegal w)) s = .next (raise s 0x01 0 (w.setWidth 64) 7) ∧
    exec (.illegalInstruction (.misalignedBundle w)) s = .next (raise s 0x02 0 (w.setWidth 64) 7) ∧
    exec (.illegalInstruction (.bundleClass w)) s = .next (raise s 0x03 0 (w.setWidth 64) 7) ∧
    exec (.illegalInstruction (.instructionAddress a)) s = .next (raise s 0x04 0 a 7) ∧
    exec (.illegalInstruction (.fetchBounds a)) s = .next (raise s 0x05 3 a 0)) ∧
  (∀ (i : Instr) (s : State), IsWord i → (me s).live = true → drainPoint i s = .ok () → wellFormed i = false →
    exec i s = .next (raise s 0x01 0 (s.ctx.word.setWidth 64) 7))

/-- Every instruction word executed by a live strand, and every other step of the part whatever the state, answers a next state:
nothing the spec gives an effect is refused. A word for a strand that is Not live is the machine's one fault. From every state
whatever, one step of the machine answers a next state. -/
def Obligations.NoStepStops : Prop :=
  (∀ (i : Instr) (s : State), ((me s).live = true ∨ isEvent i = true → ∃ t, exec i s = .next t) ∧
    (IsWord i → (me s).live = false → exec i s = .fault .noStrand)) ∧
  (∀ s : State, ∃ t, Machine.step s = .next t)

/-- After reset and bring-up every core is held by no region, every strand of every core is Not live with every scalar register
zero, every queue reads EN = 0, no region is registered and the domain is one package; that the registers of a core no region
has held yet are zero, and that the package is an SKB-16P, are the model's choices (log entries 1 and 26, DESIGN CHOICE). Every
memory the state holds is in canonical form, the model's own (log entry 2, DESIGN CHOICE): the invariant of
StepKeepsMemoryCanonical holds at reset. -/
def Obligations.ResetLeavesNothingRunning : Prop :=
  (∀ c, (getCore State.reset c).region = none) ∧
  (∀ c (n : Fin 4), (getStrand State.reset c n).live = false) ∧
  (∀ c (n : Fin 4) (r : Fin 32), (getStrand State.reset c n).regs.s[r] = 0#64) ∧
  (∀ p q, (getQueue State.reset p q).cfg.getLsbD 0 = false) ∧
  State.reset.regions = [] ∧ State.reset.domLast = 0#6 ∧ MemoryOk State.reset

/-- If every memory of the state (the flat memory, the copies a region keeps of a phase start and of its spilled cores, and the
recovery point a package's safe tier keeps) is in canonical form, then so is every memory of the state after any step; the form
is the model's own (log entry 2, DESIGN CHOICE). -/
def Obligations.StepKeepsMemoryCanonical : Prop :=
  ∀ s t : State, MemoryOk s → Machine.step s = .next t → MemoryOk t

/-- Register s0 reads zero and a write to it changes no register; a write to another register is what a later read of that register
gives, and every other scalar, vector and mask register keeps its value; inside a pair a read gives the value from before the
pair. -/
def Obligations.ScalarFile : Prop :=
  ∀ (s : State) (r q : BitVec 5) (x : Word),
    readS s 0#5 = 0#64 ∧
    (me (writeS s 0#5 x)).regs = (me s).regs ∧
    (r ≠ 0#5 → (me (writeS s r x)).regs.s[r.toNat]'r.isLt = x) ∧
    (q ≠ r → (me (writeS s r x)).regs.s[q.toNat]'q.isLt = (me s).regs.s[q.toNat]'q.isLt) ∧
    (me (writeS s r x)).regs.v = (me s).regs.v ∧ (me (writeS s r x)).regs.k = (me s).regs.k ∧
    (∀ g, s.ctx.snap = some g → r ≠ 0#5 → readS s r = g.s[r.toNat]'r.isLt) ∧
    (s.ctx.snap = none → r ≠ 0#5 → readS s r = (me s).regs.s[r.toNat]'r.isLt)

/-- When a core is to issue (by the script, or because no event moves and it is next in rotation) and its next strand stands at a
lone word inside the fetch bounds that decodes to an instruction, with no report, replay or spent budget in the way, the step is
that instruction executed at that strand, pc and word, followed by what the model does after every issue: a trap entry whose
stores an engine command holds up is tried again (entryReady), then the body's count, the single step and the issue slot
(afterIssue); where the word waited and no script is left, a held vector unit moves (settled; log entry 8). A strand in a replay
executes the replay's next word instead, and the replay moves on where that word completes. A strand that has to fetch while a
vector store of its own is dispatched waits (fetchWaits; log entry 8). When the next move of the script is a step of the part
that is no instruction word, the machine's step is that step; the script is the model's own way to let the outside world and a
chosen interleaving decide (log entry 3, DESIGN CHOICE). -/
def Obligations.LoneWordRuns : Prop :=
  (∀ (s : State) (core : Nat) (n : Fin 4),
    IssuesNext s core n →
    (let s0 := atBoundary (scriptPopped s) core n
     let x := getCore s core
     let t := coreStrand x n
     let w := (fetchWord s0 core n t.pc.toNat).1
     let s1 := (fetchWord s0 core n t.pc.toNat).2
     pendingReport (regionOf s core) x n = false →
     (fetchWaits s0 = true → Machine.step s = settled s (.next (afterIssue n false false (block s0 .stall)))) ∧
     (∀ d : DecodedWord, fetchWaits s0 = false → budgetSpent t = false → t.replaying = false → t.beyond = none →
       inBounds (getCore s0 core) t.pc.toNat 4 = true → isLone w = true → decode (encverAt s0 core) w = .ok d →
       Machine.step s = settled s
         (match exec d.instr (setCtx s1 .lone t.pc t.pc w none) with
          | .next u => .next (afterIssue n (t.trap.status.getLsbD 0) t.released (entryReady s0 u))
          | o => o)) ∧
     (∀ d : DecodedWord, budgetSpent t = false → t.replaying = true → decode (encverAt s0 core) (replayWord s0) = .ok d →
       Machine.step s = settled s
         (match exec d.instr (replayCtx s0) with
          | .next u =>
            .next (afterIssue n (t.trap.status.getLsbD 0) t.released
              (entryReady s0 (if u.ctx.event = .done then modMe u repAdvance else u)))
          | o => o)))) ∧
  (∀ (s : State) (i : Instr) (rest : List Move), s.script = .event i :: rest → isEvent i = true →
    Machine.step s = exec i { s with script := rest })

/-- A fetch gives the copy the strand holds; with no copy held, and when the fetch is not a conflict and touches no guard granule,
it gives the little-endian word of TCM at the address, and the strand then holds that copy. A word of code that LOOP, REP or a
resumed replay reads is that word too, under the same conditions. At a target beyond TCM a fetch is the access fault at that
target. That a strand keeps and uses again every copy it has fetched is the model's choice (log entry 31, DESIGN CHOICE), and so
is the read of code without a check of the bounds (log entry 64, DESIGN CHOICE); that the fault of a target beyond TCM is the
fetch's is read from R99 (log entry 13, DEDUCED). -/
def Obligations.FetchReadsMemory : Prop :=
  ∀ (s : State) (core : Nat) (n : Fin 4) (a : Nat),
    (∀ f, ((getCore s core).fetched.find? fun f => f.1 = n.val && f.2.1 = a) = some f → (fetchWord s core n a).1 = f.2.2) ∧
    (((getCore s core).fetched.find? fun f => f.1 = n.val && f.2.1 = a) = none →
      (noteAccess s { core := core, strand := n, cmd := none } (tcmPlace core a) 4 false none false false).2 = false →
      (∀ j, j < 4 → classAt (regionOf s core) (tcmKey core a + j) ≠ 2) →
      (fetchWord s core n a).1 = BitVec.ofNat 32 (memNat s.mem (tcmKey core a) 4) ∧
      (n.val, a, BitVec.ofNat 32 (memNat s.mem (tcmKey core a) 4)) ∈ (getCore (fetchWord s core n a).2 core).fetched) ∧
    (∀ b : TcmAddr, b.toNat = a →
      (noteAccess s { core := core, strand := n, cmd := none } (tcmPlace core a) 4 false none false false).2 = false →
      (∀ j, j < 4 → classAt (regionOf s core) (tcmKey core a + j) ≠ 2) →
      (readCode s core n b).1 = BitVec.ofNat 32 (memNat s.mem (tcmKey core a) 4)) ∧
    (∀ t, (getStrand s core n).beyond = some t → (fetchIssue s core n).1 = .bad (.fetchBounds t) false)

/-- When the strand to issue stands at a pair of a C-class word and an A-class word whose destinations differ and whose fields are
accepted, and nothing is left to drain, the step executes both words with the registers from before the pair, the C-slot word
first. When the C-slot word traps or waits, the A-slot word has no effect; when the A-slot word, run alone, traps or waits, the
C-slot word has none. When the C-slot word ends the strand's run the pair's result is the C-slot word's (log entry 32, DEDUCED).
Where the C-slot word only makes the A-slot word wait, the pair waits; where it, a vector access, faults late, an A-slot word
that would drain that fault is dispatched as cancelled (R160). -/
def Obligations.PairRuns : Prop :=
  ∀ (s : State) (core : Nat) (n : Fin 4) (dc da : DecodedWord),
    IssuesNext s core n →
    (let s0 := atBoundary (scriptPopped s) core n
     let x := getCore s core
     let t := coreStrand x n
     let a := t.pc.toNat
     let w := (fetchWord s0 core n a).1
     let s1 := (fetchWord s0 core n a).2
     let w2 := (fetchWord s1 core n (a + 4)).1
     let s2 := (fetchWord s1 core n (a + 4)).2
     let v := encverAt s0 core
     let last := t.pc + 4#18
     let sC := setCtx s2 .cslot t.pc last w (some (me s2).regs)
     let sA := setCtx s2 .aslot t.pc last w2 (some (me s2).regs)
     pendingReport (regionOf s core) x n = false → fetchWaits s0 = false → budgetSpent t = false → t.replaying = false →
     t.beyond = none → inBounds (getCore s0 core) a 4 = true → inBounds (getCore s0 core) (a + 4) 4 = true → a % 8 = 0 →
     isLone w = false → isLone w2 = false → isAClass w = false → isAClass w2 = true →
     decode v w = .ok dc → decode v w2 = .ok da → sameDest dc.instr da.instr = false →
     drainPoint dc.instr (setCtx s2 .cslot t.pc last w none) = .ok () → drainPoint da.instr (setCtx s2 .aslot t.pc last w2 none) = .ok () →
     wellFormed dc.instr = true → wellFormed da.instr = true →
     (let ends (u : State) : Prop :=
        Machine.step s = settled s (.next (afterIssue n (t.trap.status.getLsbD 0) t.released (entryReady s0 u)))
      (∀ u, exec dc.instr sC = .next u → u.ctx.event ≠ .done → (∃ u', exec da.instr sA = .next u') → ends u) ∧
      (∀ u v', exec dc.instr sC = .next u → u.ctx.event = .done → exec da.instr sA = .next v' → v'.ctx.event ≠ .done → ends v') ∧
      (∀ u v', exec dc.instr sC = .next u → u.ctx.event = .done → exec da.instr sA = .next v' → v'.ctx.event = .done →
        ((me u).live = false → ends u) ∧
        (∀ r, (me u).live = true → exec da.instr (setCtx u .aslot t.pc last w2 (some (me s2).regs)) = .next r →
          (r.ctx.event = .done → ends r) ∧
          (r.ctx.event = .blocked → ends (block sA .stall)) ∧
          (r.ctx.event = .trapped → ringFree (me u) = true →
            ends (dispatch (setCtx u .aslot t.pc last w2 (some (me s2).regs)) .vector .cancelled).2)))))

/-- For ADD, SUB, AND, OR, XOR, ANDN, SLL, SRL, SRA, ROTR, MUL, MULH, MULHN, DIV, DIVN, REM, REMN, MIN, MAX, MINN, MAXN, SLT, SLTN
and SEQ, and for ADDI, ANDI, ORI, XORI, SLTI, SLTIN, SLLI, SRLI, SRAI, ROTRI and LUI, on every live strand and all operands,
including division by zero and signed overflow: the instruction completes with the table's result, computed on exact integers
and narrowed, in its destination register, and nothing else but the end of the word (end check, pc). SLTIN sign-extends its
immediate before it compares as unsigned, and LUI writes the sign-extended immediate times 2^14. -/
def Obligations.IntegerFormsCompute : Prop :=
  ∀ (i : Instr) (s : State) (d : BitVec 5) (v : Word), (me s).live = true →
    (registerResult i (readS s) = some (d, v) ∨ immediateResult i (readS s) = some (d, v)) →
    exec i s = .next (retire (writeS s d v))

/-- CLZ writes the number of leading zero bits (64 for zero), CTZ the number of trailing zero bits (64 for zero), POPC the number of
one bits, BREV bit 63 - i in bit i, BSWAP byte 7 - i in byte i, and INSH replaces one halfword of its destination and keeps the
rest; each completes on every live strand. -/
def Obligations.CountAndPermuteFormsCompute : Prop :=
  ∀ (d a : BitVec 5) (h : BitVec 2) (n : BitVec 16) (s : State), (me s).live = true →
    (∃ c : Nat, exec (.clz d a) s = .next (retire (writeS s d (BitVec.ofNat 64 c))) ∧ c ≤ 64 ∧
      (∀ j, j < c → (readS s a).getLsbD (63 - j) = false) ∧ (c < 64 → (readS s a).getLsbD (63 - c) = true)) ∧
    (∃ c : Nat, exec (.ctz d a) s = .next (retire (writeS s d (BitVec.ofNat 64 c))) ∧ c ≤ 64 ∧
      (∀ j, j < c → (readS s a).getLsbD j = false) ∧ (c < 64 → (readS s a).getLsbD c = true)) ∧
    exec (.popc d a) s = .next (retire (writeS s d (BitVec.ofNat 64
      (((List.range 64).map fun j => if (readS s a).getLsbD j then 1 else 0).sum)))) ∧
    (∃ v : Word, exec (.brev d a) s = .next (retire (writeS s d v)) ∧
      ∀ j, j < 64 → v.getLsbD j = (readS s a).getLsbD (63 - j)) ∧
    (∃ v : Word, exec (.bswap d a) s = .next (retire (writeS s d v)) ∧
      ∀ k j, k < 8 → j < 8 → v.getLsbD (8 * k + j) = (readS s a).getLsbD (8 * (7 - k) + j)) ∧
    (∃ v : Word, exec (.insh d h n) s = .next (retire (writeS s d v)) ∧
      ∀ j, j < 64 → v.getLsbD j =
        if 16 * h.toNat ≤ j ∧ j < 16 * h.toNat + 16 then n.getLsbD (j - 16 * h.toNat) else (readS s d).getLsbD j)

/-- When a lone word or a pair completes without a taken transfer at address e, the end check acts: an active level whose end word
is e loops back to its start with REMAIN one less while REMAIN is more than 1, and otherwise exits with ACT and REMAIN zero;
level 1 is checked first, a loop back leaves the other level unchecked, and with no loop back the pc is e + 4. A word in the
A-slot or in a replay makes no end check. Nothing of the strand but its pc and the two counts changes. -/
def Obligations.EndCheckCountsPasses : Prop :=
  ∀ s : State,
    ((s.ctx.slot = .aslot ∨ s.ctx.slot = .rep) → retire s = s) ∧
    ((s.ctx.slot = .lone ∨ s.ctx.slot = .cslot) →
      (let t := me s
       let u := me (retire s)
       let e := s.ctx.last
       let hit (l : LoopLevel) : Prop := l.count.getLsbD 63 = true ∧ l.stop.toNat / 4 % 2 ^ 16 = e.toNat / 4
       let more (l : LoopLevel) : Prop := 1 < l.count.toNat % 2 ^ 32
       (hit t.loop1 ∧ more t.loop1 →
         u = { t with loop1 := { t.loop1 with count := t.loop1.count - 1#64 }, pc := (t.loop1.start.setWidth 18) &&& ~~~3#18 }) ∧
       (¬(hit t.loop1 ∧ more t.loop1) →
         ∃ l1 : LoopLevel, l1 = (if t.loop1.count.getLsbD 63 = true ∧ t.loop1.stop.toNat / 4 % 2 ^ 16 = e.toNat / 4 then { t.loop1 with count := 0#64 }
              else t.loop1) ∧
           (hit t.loop0 ∧ more t.loop0 →
             u = { t with
                   loop1 := l1, loop0 := { t.loop0 with count := t.loop0.count - 1#64 }
                   pc := (t.loop0.start.setWidth 18) &&& ~~~3#18 }) ∧
           (hit t.loop0 ∧ ¬more t.loop0 → u = { t with loop1 := l1, loop0 := { t.loop0 with count := 0#64 }, pc := e + 4#18 }) ∧
           (¬hit t.loop0 → u = { t with loop1 := l1, pc := e + 4#18 }))))

/-- BEQ, BNE, BLT, BGE, BLTN and BGEN complete on every live strand and all operands: with the condition true on the registers'
values (signed for BLT and BGE, unsigned for BLTN and BGEN) the word transfers to the address of the branch or its pair plus the
signed offset times 4, after LeaveCheck; with it false the word completes to the next word. A transfer sets the pc to the
target's low 18 bits, and keeps a target of 2^18 or more whole for the fetch to refuse (log entry 13). -/
def Obligations.BranchesTransferOrFallThrough : Prop :=
  ∀ (i : Instr) (s : State) (taken : Bool) (o : BitVec 11), (me s).live = true → branchOf i (readS s) = some (taken, o) →
    (let target : Word := s.ctx.pc.setWidth 64 + BitVec.ofInt 64 (o.toInt * 4)
     exec i s = .next (if taken then jumpTo (leaveCheck s target) target else retire s) ∧
       (me (jumpTo s target)).pc = target.setWidth 18 ∧ (me (jumpTo s target)).regs = (me s).regs ∧
       (me (jumpTo s target)).beyond = if 2 ^ 18 ≤ target.toNat then some target else none)

/-- LeaveCheck(P, target) clears ACT of each active level whose body holds P and not target, keeps REMAIN, and changes nothing else
of the strand; a JAL or JALR that completes and whose d is not s0 changes neither level. -/
def Obligations.LoopsLeftByTransfers : Prop :=
  ∀ (s : State) (target : Word),
    (let inside (l : LoopLevel) (a : Word) : Prop :=
       l.start.toNat / 4 % 2 ^ 16 ≤ a.toNat / 4 ∧ a.toNat / 4 ≤ l.stop.toNat / 4 % 2 ^ 16
     let left (l : LoopLevel) : Prop := l.count.getLsbD 63 = true ∧ inside l (s.ctx.pc.setWidth 64) ∧ ¬inside l target
     let t := me s
     let u := me (leaveCheck s target)
     (left t.loop0 → u.loop0.count.getLsbD 63 = false ∧ (∀ j, j < 63 → u.loop0.count.getLsbD j = t.loop0.count.getLsbD j)) ∧
     (¬left t.loop0 → u.loop0 = t.loop0) ∧
     (left t.loop1 → u.loop1.count.getLsbD 63 = false ∧ (∀ j, j < 63 → u.loop1.count.getLsbD j = t.loop1.count.getLsbD j)) ∧
     (¬left t.loop1 → u.loop1 = t.loop1) ∧
     u.loop0.start = t.loop0.start ∧ u.loop0.stop = t.loop0.stop ∧ u.loop1.start = t.loop1.start ∧ u.loop1.stop = t.loop1.stop ∧
     u = { t with loop0 := u.loop0, loop1 := u.loop1 }) ∧
    (∀ (d a : BitVec 5) (n : BitVec 19) (m : BitVec 14) (i : Instr) (v : State), d ≠ 0#5 → (i = .jal d n ∨ i = .jalr d a m) →
      exec i s = .next v → Completed v → (me v).loop0 = (me s).loop0 ∧ (me v).loop1 = (me s).loop1)

/-- JAL, and JALR with a target whose bits [63:18] and [1:0] are zero, complete on every live strand: the destination register gets
the address of the word after the jump or its pair, the word transfers to the target (JALR reads its base before it writes the
link), and LeaveCheck is applied when d is s0. JALR to any other value is the instruction-address trap with that value in
FAULTADDR; that its ACC is none is read from R151 (log entry 25, DEDUCED). A JAL to 2^18 or beyond completes too, and keeps its
whole target for the fetch to refuse (log entry 13, DEDUCED). -/
def Obligations.JumpsLinkAndTransfer : Prop :=
  ∀ (d a : BitVec 5) (n : BitVec 19) (m : BitVec 14) (s : State), (me s).live = true →
    (let link : Word := BitVec.ofNat 64 ((s.ctx.last.toNat + 4) % 2 ^ 18)
     let t1 : Word := s.ctx.pc.setWidth 64 + BitVec.ofInt 64 (n.toInt * 4)
     let t2 := readS s a + BitVec.ofInt 64 m.toInt
     exec (.jal d n) s = .next (jumpTo (writeS (if d = 0#5 then leaveCheck s t1 else s) d link) t1) ∧
     (t2.toNat < 2 ^ 18 ∧ t2.toNat % 4 = 0 →
       exec (.jalr d a m) s = .next (jumpTo (writeS (if d = 0#5 then leaveCheck s t2 else s) d link) t2)) ∧
     (¬(t2.toNat < 2 ^ 18 ∧ t2.toNat % 4 = 0) → exec (.jalr d a m) s = .next (raise s 0x04 0 t2 7)))

/-- LOOP (count from the low 32 bits of its register) and LOOPI (count from its field) with a non-zero length complete on every live
strand that has no dispatched vector store, and wait for such a store (log entry 8): the level gets the addresses of the first
and last word of the body and, with a count, ACT set and REMAIN the count; with no trip the count is zero and the end check is
made at the body's last word. Where the last word has bit 31 clear at an address that is 0 mod 8 the instruction is the bundle-
class trap. The last word is read as code; that read changes no memory byte and nothing of the strand but its clock. With a
count the end check at the loop instruction itself is made as for any word (log entry 59, DEDUCED). That the read of code is
held to no bounds is log entry 64 (DESIGN CHOICE), that a body beyond the end of TCM goes on at its start log entry 77 (DESIGN
CHOICE), and that the trap's ACC is none log entry 25 (DEDUCED). -/
def Obligations.LoopsAreSetUp : Prop :=
  ∀ (lv : BitVec 1) (a : BitVec 5) (c : BitVec 9) (n : BitVec 12) (s : State) (i : Instr) (cnt : Nat),
    (me s).live = true → n ≠ 0#12 →
    ((i = .loop lv a n ∧ cnt = (readS s a).toNat % 2 ^ 32) ∨ (i = .loopi lv c n ∧ cnt = c.toNat)) →
    (let next := s.ctx.last + 4#18
     let last := next + BitVec.ofNat 18 (4 * (n.toNat - 1))
     let level (x : Word) : LoopLevel := { start := next.setWidth 64, stop := last.setWidth 64, count := x }
     let put (t : Strand) (l : LoopLevel) : Strand := if lv = 0#1 then { t with loop0 := l } else { t with loop1 := l }
     let w := (readCode s s.ctx.core s.ctx.strand last).1
     let s1 := (readCode s s.ctx.core s.ctx.strand last).2
     let badEnd : Prop := w.getLsbD 31 = false ∧ last.toNat % 8 = 0
     CodeRead s s1 ∧
     (vqStores s = true → exec i s = .next (block s .stall)) ∧
     (vqStores s = false →
     (badEnd → exec i s = .next (raise s1 0x03 0 (s.ctx.word.setWidth 64) 7)) ∧
     (¬badEnd → cnt = 0 → exec i s = .next (modMe s1 fun t => endCheckAt (put t (level 0#64)) last)) ∧
     (¬badEnd → cnt ≠ 0 →
       exec i s = .next (modMe s1 fun t => endCheckAt (put t (level (BitVec.ofNat 64 (2 ^ 63 + cnt)))) s.ctx.last))))

/-- REP on a live strand with no dispatched vector store (it waits for one: log entry 8) whose body words are lone A-class words,
with neither the REP word nor a body word but the last the end of an active level, completes: with passes the strand replays,
REP_STATE holds ACT and its fields, pass and word zero, the buffer holds the body's words as the strand reads them as code, and
the pc is the body's first word; with no pass the replay is over at once: the pc is the word after the body, and the end check
is made at the body's last word. Otherwise it is the illegal-instruction trap. With no other agent's access in the phase and no
guard granule those words are memory's. After a word of a replay the replay goes on to the next word, else to the first word of
the next pass while passes remain, with PASS, WORD and the pc there; after the last word of the last pass ACT is clear and the
end check at the body's last word sets the pc. A replayed word executes as the buffer's word with j times the stride added,
modulo 32, to each of the fields d, a and b that the mask names and the table of R107 lists for the word's form: for the
integer, immediate and vector majors the three are bits 23:19, 18:14 and 13:9, for the mask operations their low three bits
modulo 8; no other bit changes. The read of code without bounds is log entry 64 (DESIGN CHOICE), and ACC none log entry 25
(DEDUCED). -/
def Obligations.ReplaysRun : Prop :=
  (∀ (b : BitVec 4) (p : BitVec 8) (g k : BitVec 3) (s : State), (me s).live = true →
    (let body := s.ctx.last + 4#18
     let read := readCodes s.ctx.core s.ctx.strand (b.toNat + 1) s body
     let at_ (j : Nat) : Word32 := read.1.getD j 0#32
     let ok : Prop := (∀ j, j ≤ b.toNat → (at_ j).getLsbD 31 = true ∧ (at_ j).getLsbD 29 = true) ∧
       isLoopEnd (me s) s.ctx.pc = false ∧ ∀ j, j < b.toNat → isLoopEnd (me s) (body + BitVec.ofNat 18 (4 * j)) = false
     CodeRead s read.2 ∧ read.1.length = b.toNat + 1 ∧
     (vqStores s = true → exec (.rep b p g k) s = .next (block s .stall)) ∧
     (vqStores s = false →
     (LogQuiet s → s.doubts = [] → (∀ j, j ≤ b.toNat → Unguarded s (tcmKey s.ctx.core (body + BitVec.ofNat 18 (4 * j)).toNat) 4) →
       ∀ j, j ≤ b.toNat → at_ j = BitVec.ofNat 32 (memNat s.mem (tcmKey s.ctx.core (body + BitVec.ofNat 18 (4 * j)).toNat) 4)) ∧
     (ok → ∃ t, exec (.rep b p g k) s = .next t ∧ SameMemory s t ∧ OutsideSame s t ∧ CoreRegistersSame s t ∧ (me t).regs = (me s).regs ∧ (me t).trap = (me s).trap ∧
       (p ≠ 0#8 → (me t).replaying = true ∧ (me t).pc = body ∧ (me t).repState.getLsbD 63 = true ∧
         repBlen (me t).repState = b.toNat ∧ repPasses (me t).repState = p.toNat ∧ repPass (me t).repState = 0 ∧
         repWord (me t).repState = 0 ∧ repBody (me t).repState = body &&& ~~~3#18 ∧
         fieldOf (me t).repState 29 27 = g.toNat ∧ fieldOf (me t).repState 26 24 = k.toNat ∧
         ∀ j : Fin 16, j.val ≤ b.toNat → (me t).repBuf[j] = at_ j.val) ∧
       (p = 0#8 → (me t).replaying = false ∧ (me t).repState.getLsbD 63 = false ∧
         (let last := (body &&& ~~~3#18) + BitVec.ofNat 18 (4 * b.toNat)
          let e := endCheckAt (me s) last
          (me t).pc = e.pc ∧ (me t).loop0 = e.loop0 ∧ (me t).loop1 = e.loop1 ∧
            (isLoopEnd (me s) last = false → (me t).pc = last + 4#18)))) ∧
     (¬ok → exec (.rep b p g k) s = .next (raise read.2 0x01 0 (s.ctx.word.setWidth 64) 7))))) ∧
  (∀ t : Strand,
    (let r := t.repState
     let u := repAdvance t
     let go (pass word : Nat) : Prop :=
       u.replaying = t.replaying ∧ repPass u.repState = pass % 256 ∧ repWord u.repState = word % 16 ∧
         u.pc = repBody r + BitVec.ofNat 18 (4 * word) ∧ repBlen u.repState = repBlen r ∧ repPasses u.repState = repPasses r ∧
         repBody u.repState = repBody r
     (repWord r < repBlen r → repPass r < repPasses r → go (repPass r) (repWord r + 1)) ∧
     (repBlen r ≤ repWord r → repPass r + 1 < repPasses r → go (repPass r + 1) 0) ∧
     (repBlen r ≤ repWord r → repPasses r ≤ repPass r + 1 → u.replaying = false ∧ u.repState.getLsbD 63 = false ∧
       (let last := repBody r + BitVec.ofNat 18 (4 * repBlen r)
        let e := endCheckAt t last
        u.pc = e.pc ∧ u.loop0 = e.loop0 ∧ u.loop1 = e.loop1 ∧ (isLoopEnd t last = false → u.pc = last + 4#18))) ∧
     u.regs = t.regs ∧ u.trap = t.trap)) ∧
  (∀ s : State,
    (let t := me s
     let w := replayWord s
     let old := t.repBuf[repWord t.repState % 16]'(Nat.mod_lt _ (by decide))
     let up := repPass t.repState * fieldOf t.repState 26 24
     let major := old.toNat / 2 ^ 24 % 2 ^ 6
     let sub := old.toNat % 4
     let fn := old.toNat % 2 ^ 6
     let field (x : Word32) (lo : Nat) : Nat := x.toNat / 2 ^ lo % 2 ^ 5
     let on (j : Nat) : Prop := fieldOf t.repState 29 27 / 2 ^ j % 2 = 1
     let plain : Prop := (0x20 ≤ major ∧ major ≤ 0x29) ∨ (0x30 ≤ major ∧ major ≤ 0x37) ∨ major = 0x39
     let hasA : Prop := major ≠ 0x28 ∧ major ≠ 0x29
     let hasB : Prop := (major = 0x20 ∧ fn < 0x18) ∨ (major = 0x31 ∧ sub < 2) ∨ (major = 0x37 ∧ sub = 1) ∨ major = 0x30 ∨ major = 0x32 ∨
       major = 0x33 ∨ major = 0x34 ∨ major = 0x35 ∨ major = 0x36 ∨ (major = 0x38 ∧ fn ≠ 3)
     let narrow (lo : Nat) : Prop := major = 0x38 ∨ (major = 0x34 ∧ lo = 19)
     let moved (lo : Nat) (named : Prop) : Prop :=
       (named ∧ (plain ∨ major = 0x38) → ¬narrow lo → field w lo = (field old lo + up) % 32) ∧
         (named ∧ (plain ∨ major = 0x38) → narrow lo → field w lo = (field old lo % 8 + up) % 8 + field old lo / 8 * 8) ∧
         (¬(named ∧ (plain ∨ major = 0x38)) → field w lo = field old lo)
     moved 19 (on 2) ∧ moved 14 (on 1 ∧ hasA) ∧ moved 9 (on 0 ∧ hasB) ∧
       w.toNat / 2 ^ 24 = old.toNat / 2 ^ 24 ∧ w.toNat % 2 ^ 9 = old.toNat % 2 ^ 9))

/-- When an integer instruction, a branch, JAL, JALR, FENCE, MSKGET, SASSERT, SGROW or SBMAP completes, every byte of every memory,
every region, package, other core and other strand, the core's control registers and engines, every vector and mask register,
every trap register and the strand's other state are as before, and so is every scalar register but the destination (none for
branches, FENCE, SASSERT and SGROW); the pc, which a transfer to 2^18 or beyond keeps whole, and the loop levels may change.
When LOOP or LOOPI completes the same holds with no register changed, but that its read of the body's last word enters the phase
log of the access checker and the strand's clock. -/
def Obligations.PlainWordsTouchOnlyTheirResult : Prop :=
  ∀ (i : Instr) (d : BitVec 5) (s t : State), plainDest i = some d → exec i s = .next t → Completed t →
    (¬IsLoop i → OnlyMyStrand s t ∧ ScalarsSameBut d s t ∧ VectorsSame s t ∧ MasksSame s t ∧ StrandStateSame s t) ∧
    (IsLoop i → SameMemory s t ∧ OutsideSame s t ∧ CoreRegistersSame s t ∧ RegsSame s t ∧
      ∃ c, strandRest { me t with clock := c } = strandRest { me s with clock := c })

/-- Outside the T phase START of another strand that is Not live, at an entry that is a code address, with the strand's vector
accesses and atomics performed, completes: the target is live at the entry with the argument in s1, the issuer's number in s2,
every other register, both loop levels and STATUS zero, its number kept and no word fetched. WAITS completes once every strand
of its set is Not live and the strand's own vector instructions are executed. YIELD completes, changes no register and gives the
slot up. END of a helper outside handler mode, with its vector accesses and atomics performed, makes it Not live. -/
def Obligations.HelpersStartAndEnd : Prop :=
  ∀ (a b : BitVec 5) (n : BitVec 2) (g : BitVec 3) (s : State),
    (Issuable (.start a b n) s → n.toFin ≠ strandNo (me s) → (myRegion s).phase ≠ .t →
      (readS s a).toNat < 2 ^ 18 → (readS s a).toNat % 4 = 0 → (getStrand s s.ctx.core n.toFin).live = false → performedAll s = true →
      ∃ t, exec (.start a b n) s = .next t ∧ SameMemory s t ∧ (me t).regs = (me s).regs ∧
        (let u := getStrand t s.ctx.core n.toFin
         u.live = true ∧ u.pc = (readS s a).setWidth 18 ∧ u.regs.s[1] = readS s b ∧
         u.regs.s[2] = BitVec.ofNat 64 s.ctx.strand.val ∧ (∀ r : Fin 32, r.val ≠ 1 → r.val ≠ 2 → u.regs.s[r] = 0#64) ∧
         u.regs.v = Vector.replicate 32 0 ∧ u.regs.k = Vector.replicate 8 0 ∧ u.loop0 = LoopLevel.zero ∧ u.loop1 = LoopLevel.zero ∧
         u.repState = 0#64 ∧ u.trap = TrapRegs.zero ∧ u.strandId = (getStrand s s.ctx.core n.toFin).strandId ∧
         ∀ f ∈ (myCore t).fetched, f.1 ≠ n.toNat)) ∧
    (Issuable (.start a b n) s → n.toFin ≠ strandNo (me s) → (myRegion s).phase ≠ .t →
      (readS s a).toNat < 2 ^ 18 → (readS s a).toNat % 4 = 0 → (getStrand s s.ctx.core n.toFin).live = true →
      exec (.start a b n) s = .next (block s (.strands (1#4 <<< n.toNat)))) ∧
    (Issuable (.waits g) s → (waitSet g).getLsbD (strandNo (me s)) = false → (myRegion s).phase ≠ .t →
      (∀ k : Fin 4, (waitSet g).getLsbD k = true → (getStrand s s.ctx.core k).live = false) → vqBusy s = false →
      ∃ t, exec (.waits g) s = .next t ∧ OnlyMyStrand s t ∧ (me t).regs = (me s).regs ∧ (me t).trap = (me s).trap) ∧
    (Issuable .yield s → ∃ t, exec .yield s = .next t ∧ SameMemory s t ∧ (me t).regs = (me s).regs ∧ (myCore t).slotGone = true) ∧
    (Issuable .endOp s → (me s).trap.status.getLsbD 0 = false → strandNo (me s) ≠ 0 → (myRegion s).phase ≠ .t →
      performedAll s = true → ∃ t, exec .endOp s = .next t ∧ OnlyMyStrand s t ∧ me t = { me s with live := false })

/-- For a strand outside handler mode whose core has a handler of the kind and whose save-area block takes the stores of entry:
entry sets s1 to the strand's save-area block and keeps every other register, writes CAUSE, EPC, FAULTADDR, FAULTINFO and the
back-mapped ORIGPC and UNROLLIDX, sets HM and KIND and clears RSM in STATUS (the single-step bit stays), goes to the handler,
keeps the loops, REP_STATE and the ring, changes no byte outside the strand's block, and in a block with no guard granule stores
the old s1, s2 and s3. In handler mode, or with no handler, it kills the fault domain instead; so it does, as an access fault,
where a store of entry lies outside the guard bounds or in the uniform area (log entry 62, DEDUCED). -/
def Obligations.TrapEntrySavesAndEnters : Prop :=
  ∀ (s : State) (core : Nat) (n : Fin 4) (code kind : Nat) (epc : TcmAddr) (faddr finfo : Word),
    code < 2 ^ 64 → kind < 3 → Memory.wf s.mem = true →
    (let x := getCore s core
     let t := coreStrand x n
     let u := trapEntry s core n code kind epc faddr finfo
     let t' := getStrand u core n
     let blk := saveBlock x (strandNo t)
     let h := handlerAddr x kind
     (t.trap.status.getLsbD 0 = false → h ≠ 0 → entryFits x t code = true →
       t'.regs.s[1] = BitVec.ofNat 64 blk ∧ (∀ r : Fin 32, r.val ≠ 1 → t'.regs.s[r] = t.regs.s[r]) ∧
       t'.regs.v = t.regs.v ∧ t'.regs.k = t.regs.k ∧ t'.pc = BitVec.ofNat 18 (4 * h) ∧
       t'.trap.cause.toNat = code ∧ t'.trap.epc = (epc &&& ~~~3#18).setWidth 64 ∧ t'.trap.faultAddr = faddr ∧
       t'.trap.faultInfo = finfo ∧ t'.beyond = none ∧
       (t.beyond = none → t'.trap.origPc.toNat / 2 ^ 32 = (backMap s core epc).1 % 2 ^ 16 ∧
         t'.trap.origPc.toNat % 2 ^ 32 = (backMap s core epc).2.1 % 2 ^ 20 ∧ t'.trap.unrollIdx.toNat = (backMap s core epc).2.2 % 2 ^ 12) ∧
       t'.trap.status = (t.trap.status &&& 0x20#64) ||| BitVec.ofNat 64 (1 + 4 * kind) ∧
       t'.loop0 = t.loop0 ∧ t'.loop1 = t.loop1 ∧ t'.repState = t.repState ∧ t'.ring = t.ring ∧ t'.seq = t.seq ∧
       SameMemoryBut (tcmKey core blk) 0x700 s u ∧
       ((∀ j, j < 0x700 → classAt (regionOf s core) (tcmKey core (blk + j)) ≠ 2) →
         memNat u.mem (tcmKey core (blk + 0x08)) 8 = t.regs.s[1].toNat ∧
         memNat u.mem (tcmKey core (blk + 0x10)) 8 = t.regs.s[2].toNat ∧
         memNat u.mem (tcmKey core (blk + 0x18)) 8 = t.regs.s[3].toNat)) ∧
     ((t.trap.status.getLsbD 0 = true ∨ h = 0) → u = killFaultDomain s core code (fieldOf finfo 47 40) faddr) ∧
     (t.trap.status.getLsbD 0 = false → h ≠ 0 → entryFits x t code = false →
       u = killFaultDomain s core 0x05 3 (BitVec.ofNat 64 (blk + 8))) ∧
     (entryFits x t code = true ↔ 0x1000 ≤ blk + 8 ∧ inBounds x (blk + 8) 24 = true ∧
       (0x20 ≤ code ∧ code ≤ 0x23 → 0x1000 ≤ blk + 0x5A0 ∧ inBounds x (blk + 0x5A0) 256 = true)))

/-- TRAP n enters the handler with cause 0x0B, and BRK n with cause 0x0C, with SUB n, and EPC the word after the instruction; with
breakpoints enabled for the region BRK halts the core with the pc at the next word instead. ERET in handler mode completes: HM,
KIND and RSM are clear, no register and no loop register changes, and the pc is EPC, or with REP_STATE active the word its
fields name, with the buffer read from the body as code once no vector store of the strand is outstanding, which it waits for;
from the receive-queue-overflow handler the held messages are then appended. Outside handler mode it is illegal. That
FAULTINFO.ACC is none for these causes is read from R151 (log entry 25, DEDUCED), and that the buffer's words are read without a
check of the bounds is log entry 64 (DESIGN CHOICE). -/
def Obligations.SystemWordsTrapAndReturn : Prop :=
  ∀ (n : BitVec 6) (s : State), (me s).live = true →
    (let next := s.ctx.last + 4#18
     let info : Word := BitVec.ofNat 64 (n.toNat * 2 ^ 40 + 7)
     exec (.trap n) s = .next (setEvent (trapEntry s s.ctx.core s.ctx.strand 0x0B 0 next 0#64 info) .trapped) ∧
     ((myRegion s).breakpoints = false →
       exec (.brk n) s = .next (setEvent (trapEntry s s.ctx.core s.ctx.strand 0x0C 0 next 0#64 info) .trapped)) ∧
     ((myRegion s).breakpoints = true → ∃ t, exec (.brk n) s = .next t ∧ SameMemory s t ∧ (myCore t).halted = true ∧
       me t = { me s with pc := next, beyond := none }) ∧
     (let held : Prop := (me s).repState.getLsbD 63 = true ∧ vqStores s = true
      ((me s).trap.status.getLsbD 0 = true → held → exec .eret s = .next (block s .stall)) ∧
      ((me s).trap.status.getLsbD 0 = true → ¬held → fieldOf (me s).trap.status 3 2 ≠ 2 →
       ∃ t, exec .eret s = .next t ∧ SameMemory s t ∧ OutsideSame s t ∧ CoreRegistersSame s t ∧ (me t).regs = (me s).regs ∧
         (me t).trap = { (me s).trap with status := (me s).trap.status &&& 0x20#64 } ∧
         (me t).loop0 = (me s).loop0 ∧ (me t).loop1 = (me s).loop1 ∧ (me t).replaying = (me s).repState.getLsbD 63 ∧
         ((me s).repState.getLsbD 63 = false → OnlyMyStrand s t ∧ (me t).pc = ((me s).trap.epc.setWidth 18) &&& ~~~3#18) ∧
         ((me s).repState.getLsbD 63 = true →
           (let rs := (me s).repState
            (me t).pc = repBody rs + BitVec.ofNat 18 (4 * repWord rs) ∧ ∀ j : Fin 16, j.val ≤ repBlen rs →
              (me t).repBuf[j] =
                (readCodes s.ctx.core s.ctx.strand (repBlen rs + 1) (modMe s returnFrom) (repBody rs)).1.getD j.val 0#32))) ∧
      ((me s).trap.status.getLsbD 0 = true → ¬held → fieldOf (me s).trap.status 3 2 = 2 →
       exec .eret s = .next (appendHeld (resumeReplay (modMe s returnFrom)) s.ctx.core))) ∧
     ((me s).trap.status.getLsbD 0 = false → exec .eret s = .next (raise s 0x01 0 (s.ctx.word.setWidth 64) 7)))

/-- On the control strand outside handler mode, with nothing left to drain: SYNC waits for the barrier, END casts the core's vote
and waits for it, and either, once the barrier has completed, retires as an ordinary word. END in the T phase is illegal but on
a control strand that has voted, whose own END a pre-emption runs again. SYNC on a helper strand is the illegal-instruction
trap. In handler mode END parks the strand of a pre-emption handler that is not resuming, and is illegal in any other. That a
completed barrier is recorded on the strand and consumed at its next issue is the model's own bookkeeping (log entry 3), that a
voted END runs again in the T phase is log entry 51 (DEDUCED), and that the trap's ACC is none log entry 25 (DEDUCED). -/
def Obligations.BarrierWordsWaitAndRetire : Prop :=
  ∀ s : State,
    (Issuable .sync s → s.ctx.strand = 0 → (me s).released = false → exec .sync s = .next (block s .barrier)) ∧
    (Issuable .sync s → s.ctx.strand = 0 → (me s).released = true →
      exec .sync s = .next (retire (modMe s fun t => { t with released := false }))) ∧
    (Issuable .sync s → s.ctx.strand ≠ 0 → exec .sync s = .next (raise s 0x01 0 (s.ctx.word.setWidth 64) 7)) ∧
    (Issuable .endOp s → (me s).trap.status.getLsbD 0 = false → (myRegion s).phase = .t → (s.ctx.strand ≠ 0 ∨ (myCore s).vote = false) →
      exec .endOp s = .next (raise s 0x01 0 (s.ctx.word.setWidth 64) 7)) ∧
    (Issuable .endOp s → (me s).trap.status.getLsbD 0 = false → s.ctx.strand = 0 → strandNo (me s) = 0 →
      ((myRegion s).phase ≠ .t ∨ (myCore s).vote = true) → (me s).released = false →
      ∃ t, exec .endOp s = .next t ∧ (myCore t).vote = true ∧ (me t).wait = .barrier ∧ (me t).regs = (me s).regs ∧ SameMemory s t) ∧
    (Issuable .endOp s → (me s).trap.status.getLsbD 0 = false → s.ctx.strand = 0 → strandNo (me s) = 0 →
      ((myRegion s).phase ≠ .t ∨ (myCore s).vote = true) → (me s).released = true →
      exec .endOp s = .next (retire (modMe s fun t => { t with released := false }))) ∧
    (Issuable .endOp s → (me s).trap.status.getLsbD 0 = true →
      exec .endOp s = .next (if fieldOf (me s).trap.status 3 2 = 1 ∧ (me s).trap.status.getLsbD 4 = false then block s .parked
        else raise s 0x01 0 (s.ctx.word.setWidth 64) 7))

/-- For every selector with a writable field: after its register is set, it reads as the value set, and every other selector that
names a register of the strand or the core reads as before, in this and every other core and strand; in another strand of the
same core the per-strand selectors, the one set among them, read as before. -/
def Obligations.ControlRegistersHold : Prop :=
  ∀ (s : State) (core : Nat) (n : Fin 4) (sel other : Nat) (v : Word), crMask sel ≠ 0#64 →
    crValue (crPut s core n sel v) core n sel = v ∧
    (other ≠ sel → crValue (crPut s core n sel v) core n other = crValue s core n other) ∧
    (∀ m : Fin 4, m ≠ n → (other ≠ sel ∨ crPerStrand other = true) →
      crValue (crPut s core n sel v) core m other = crValue s core m other) ∧
    (∀ (c : Nat) (m : Fin 4), c ≠ core → crValue (crPut s core n sel v) c m other = crValue s c m other) ∧
    SameMemory s (crPut s core n sel v)

/-- On a live strand, for every register of R58 that the strand may access, with no matrix command in the way, no copy of the strand
unsettled for CE_IDX0 to CE_IDX4 and CE_STATE (log entry 39), and no other strand of the core in conflict over it: CRR writes
its value to the destination; CRW, CRS and CRC write the old value to the destination and the new one into the RW fields alone,
where the table lets this strand write; where writes are ignored they only read; where a command is in the way they wait. CRW,
CRS or CRC of STATUS, in any mode, and of CAUSE, EPC, FAULTADDR, FAULTINFO, ORIGPC, UNROLLIDX, HANDLER, SAVEAREA, XPLAN, RQBASE,
RQLIMIT, LANDBASE, TCMGUARD_LO, TCMGUARD_HI, CE_IDX0 to CE_IDX4 or CE_STATE outside handler mode, is the illegal-instruction
trap; that its ACC is none is log entry 25 (DEDUCED). -/
def Obligations.ControlRegisterAccess : Prop :=
  (∀ (d a : BitVec 5) (r : BitVec 12) (s : State), (me s).live = true → selKnown r = true →
    (let sel := r.toNat
     let hm := (me s).trap.status.getLsbD 0
     let local_ := crPerStrand sel || crPerPackage sel
     let s1 (w : Bool) := if local_ then s else (noteReg s sel w).1
     let quiet (w : Bool) : Prop := local_ = true ∨ (noteReg s sel w).2 = false
     let v := crValue s s.ctx.core s.ctx.strand sel
     let may : Prop := crRight sel = .always ∨ (crRight sel = .handler ∧ hm = true)
     let done (x : Word) : Out State :=
       .next (retire (writeS (crPut (s1 true) s.ctx.core s.ctx.strand sel (crMerge v x (crMask sel))) d v))
     let waits : Prop :=
       (0x050 ≤ sel ∧ sel ≤ 0x055 ∧ (myCore s).mq ≠ []) ∨
         ((sel = 0x056 ∨ sel = 0x057) ∧ ∃ c ∈ (myCore s).mq, c.strand = (s.ctx.strand : Nat)) ∨
         (0x060 ≤ sel ∧ sel ≤ 0x065 ∧ ∃ c ∈ (myCore s).cq, c.strand = (s.ctx.strand : Nat))
     (waits → exec (.crr d r) s = .next (block s .stall)) ∧
     (¬waits →
     (quiet false → exec (.crr d r) s = .next (retire (writeS (s1 false) d v))) ∧
     (quiet true → may → exec (.crw d a r) s = done (readS s a)) ∧
     (quiet true → may → exec (.crs d a r) s = done (v ||| readS s a)) ∧
     (quiet true → may → exec (.crc d a r) s = done (v &&& ~~~(readS s a))) ∧
     (quiet false → crRight sel = .ignored →
       exec (.crw d a r) s = .next (retire (writeS (s1 false) d v)) ∧
       exec (.crs d a r) s = .next (retire (writeS (s1 false) d v)) ∧
       exec (.crc d a r) s = .next (retire (writeS (s1 false) d v)))))) ∧
  (∀ (d a : BitVec 5) (r : BitVec 12) (s : State) (i : Instr), (me s).live = true →
    (i = .crw d a r ∨ i = .crs d a r ∨ i = .crc d a r) →
    (r = 0x000#12 ∨ ((me s).trap.status.getLsbD 0 = false ∧
      ((0x001 ≤ r.toNat ∧ r.toNat ≤ 0x008) ∨ r = 0x020#12 ∨ r = 0x022#12 ∨ r = 0x023#12 ∨
        (0x030 ≤ r.toNat ∧ r.toNat ≤ 0x032) ∨ (0x060 ≤ r.toNat ∧ r.toNat ≤ 0x065)))) →
    exec i s = .next (raise s 0x01 0 (s.ctx.word.setWidth 64) 7))

/-- When CRR, CRW, CRS or CRC completes, every byte of memory, every package and other core and strand, every vector and mask
register and every scalar register but the destination are as before, and so is every control register of the core and the
strand but the one named, the accumulators, latches and keeper, the bound and view registers, the engines' queues, the held
vector instructions, the queued stores, requests, messages and submissions, the fetched words, the plan, and the strand's
repetition buffer, dispatch ring, sequence number, late faults and body; the loop counts may also change by the end check. -/
def Obligations.ControlRegisterFrame : Prop :=
  ∀ (d a : BitVec 5) (r : BitVec 12) (s t : State) (i : Instr),
    (i = .crr d r ∨ i = .crw d a r ∨ i = .crs d a r ∨ i = .crc d a r) → exec i s = .next t → Completed t →
    SameMemory s t ∧ t.regions = s.regions ∧ DomainSame s t ∧ OtherCoresSame s.ctx.core s t ∧ OtherStrandsSame s t ∧
      ScalarsSameBut d s t ∧ VectorsSame s t ∧ MasksSame s t ∧
      (∀ sel, sel ≠ r.toNat → sel ≠ 0x042 → sel ≠ 0x046 →
        crValue t s.ctx.core s.ctx.strand sel = crValue s s.ctx.core s.ctx.strand sel) ∧
      (let x := myCore s
       let y := myCore t
       y.mx.acc = x.mx.acc ∧ y.mx.cls = x.mx.cls ∧ y.mx.latch = x.mx.latch ∧ y.mx.link = x.mx.link ∧ y.mx.pending = x.mx.pending ∧
         y.mx.rounds = x.mx.rounds ∧ y.eb = x.eb ∧ y.sv = x.sv ∧ y.mq = x.mq ∧ y.cq = x.cq ∧ y.sq = x.sq ∧ y.vq = x.vq ∧
         y.deferred = x.deferred ∧ y.seqReqs = x.seqReqs ∧ y.msgs = x.msgs ∧ y.heldMsgs = x.heldMsgs ∧ y.subs = x.subs ∧
         y.fetched = x.fetched ∧ y.plan = x.plan ∧ y.reports = x.reports ∧ y.unacked = x.unacked ∧ y.region = x.region) ∧
      (me t).repBuf = (me s).repBuf ∧ (me t).replaying = (me s).replaying ∧ (me t).ring = (me s).ring ∧ (me t).seq = (me s).seq ∧
      (me t).late = (me s).late ∧ (me t).body = (me s).body ∧ (me t).wait = (me s).wait

/-- LD on a live strand with no vector instruction of the strand outstanding, at an address that passes CheckAccess, not held up by
an engine command or an atomic of the strand, and not in conflict, on memory that is not EX, not path 0x5 and no guard granule:
it completes with the little-endian value of the 1, 2, 4 or 8 bytes at base plus the scaled signed offset in the destination,
sign-extended when bit 2 of the type is clear and zero-extended when it is set. -/
def Obligations.LoadsComplete : Prop :=
  ∀ (d b : BitVec 5) (ty : BitVec 3) (o : BitVec 11) (s : State) (p : Place), (me s).live = true →
    (let n : Nat := 2 ^ (ty.toNat % 4)
     let va := readS s b + BitVec.ofInt 64 (o.toInt * (n : Int))
     let x := memNat s.mem p.key n
     vqBusy s = false → strandCheck s va n n .load = .ok p → accessReady s p n false = .ok () →
     (noteAccess (markLeaf s p false) (whoMe s) p n false none false false).2 = false →
     p.mode ≠ .ex → p.readOnly = false → (∀ j, j < n → classAt (myRegion s) (p.key + j) ≠ 2) →
     ∃ t, exec (.ld d b ty o) s = .next t ∧
       (d ≠ 0#5 → (me t).regs.s[d.toNat]'d.isLt =
         if ty.toNat < 4 then BitVec.ofInt 64 (if 2 ^ (8 * n - 1) ≤ x then (x : Int) - 2 ^ (8 * n) else x) else BitVec.ofNat 64 x) ∧
       ScalarsSameBut d s t ∧ VectorsSame s t ∧ MasksSame s t ∧ TrapRegsSame s t ∧ DomainSame s t ∧
       OtherCoresSame s.ctx.core s t ∧ OtherStrandsSame s t ∧ CoreRegistersSame s t ∧
       (∀ a, p.leaf ≠ some a → memRead t.mem a = memRead s.mem a))

/-- A load that is not in conflict returns on an EX page the memory as at the start of the C phase, through path 0x5 the memory as
at the start of the phase, for a byte of a guard granule of a watched memory zero, and otherwise the memory as it is. -/
def Obligations.SpecialLoadsReadOldContent : Prop :=
  ∀ (s : State) (w : Who) (p : Place) (n j : Nat), j < n →
    (noteAccess (markLeaf s p false) w p n false none false false).2 = false →
    (let r := regionOf s w.core
     let seen : Memory := if p.mode = .ex then r.memC else if p.readOnly then r.memPhase else s.mem
     (loadAt s w p n).1[j]? = some (if classAt r (p.key + j) = 2 ∧ (watchCode p).isSome then 0#8 else memRead seen (p.key + j)))

/-- ST, and ST.h to a sync word of TCM or scratchpad, on a live strand with no vector instruction outstanding, at an address that
passes CheckAccess and is not held up, complete: with no guard granule in the way each byte stored reads back, every byte
outside the stored ones and the page's leaf is as before, no register changes, and ST.h records its handoff. ST to a page of
mode EX under the strand's limit waits while a copy of the strand has not settled, and then completes with no byte changed but
the leaf's and one more deferred store queued for those bytes. ST.h to a word that is no sync word is the sync-class trap. -/
def Obligations.StoresComplete : Prop :=
  ∀ (d b : BitVec 5) (z : BitVec 2) (o : BitVec 11) (s : State) (p : Place), (me s).live = true → Memory.wf s.mem = true →
    (let n : Nat := 2 ^ z.toNat
     let va := readS s b + BitVec.ofInt 64 (o.toInt * (n : Int))
     let vh := readS s b + BitVec.ofInt 64 (o.toInt * 8)
     let x := (readS s d).toNat
     let kept (k : Nat) (t : State) : Prop :=
       (∀ a, (a < p.key ∨ p.key + k ≤ a) → p.leaf ≠ some a → memRead t.mem a = memRead s.mem a) ∧ ScalarsSame s t ∧ VectorsSame s t ∧
         MasksSame s t ∧ TrapRegsSame s t ∧ DomainSame s t ∧ OtherCoresSame s.ctx.core s t ∧ OtherStrandsSame s t
     let free (k : Nat) : Prop := ∀ j, j < k → classAt (myRegion s) (p.key + j) ≠ 2
     vqBusy s = false →
     (strandCheck s va n n .store = .ok p → accessReady s p n true = .ok () → p.mode ≠ .ex → free n →
       ∃ t, exec (.st d b z o) s = .next t ∧ memNat t.mem p.key n = x % 2 ^ (8 * n) ∧ kept n t) ∧
     (strandCheck s va n n .store = .ok p → accessReady s p n true = .ok () → p.mode = .ex → copiesOut s = true →
       exec (.st d b z o) s = .next (block s .stall)) ∧
     (strandCheck s va n n .store = .ok p → accessReady s p n true = .ok () → p.mode = .ex → copiesOut s = false →
       (me s).deferred < queueLimit (me s) →
       ∃ t, exec (.st d b z o) s = .next t ∧ kept 0 t ∧
         ∃ q, (myCore t).deferred = (myCore s).deferred ++ [q] ∧ q.key = p.key ∧ q.bytes = leBytes n x) ∧
     (strandCheck s vh 8 8 .store = .ok p → spaceOf p.key ≤ 1 → classAt (myRegion s) p.key = 1 → accessReady s p 8 true = .ok () →
       atomsPending s = false → free 8 →
       ∃ t, exec (.stH d b o) s = .next t ∧ memNat t.mem p.key 8 = x ∧ kept 8 t ∧
         ((myCore s).region.isSome → (getRegion? s ((myCore s).region.getD 0)).isSome →
           ∃ h ∈ (myRegion t).handoffs, h.key = p.key ∧ h.value = readS s d ∧ h.any = true)) ∧
     (strandCheck s vh 8 8 .store = .ok p → (1 < spaceOf p.key ∨ classAt (myRegion s) p.key ≠ 1) →
       exec (.stH d b o) s = .next (raise s 0x08 0 vh 2)))

/-- When ST, ST.h or STBIT completes, for every place that its address check gives, every byte outside the bytes stored there (the
size of ST; 8 bytes of ST.h; the one or two words of STBIT) and outside the leaf of the page reads as before; no scalar, vector
or mask register, trap register, package, other core or other strand changes. -/
def Obligations.StoreFrame : Prop :=
  ∀ (d b : BitVec 5) (z : BitVec 2) (o : BitVec 11) (w : BitVec 6) (s t : State), Completed t →
    (let kept (lo n : Nat) (leaf : Option Nat) : Prop :=
       (∀ a, (a < lo ∨ lo + n ≤ a) → leaf ≠ some a → memRead t.mem a = memRead s.mem a) ∧
         ScalarsSame s t ∧ VectorsSame s t ∧ MasksSame s t ∧ TrapRegsSame s t ∧ DomainSame s t ∧ OtherCoresSame s.ctx.core s t ∧
         OtherStrandsSame s t
     (exec (.st d b z o) s = .next t →
       ∃ p, strandCheck s (scaledAddr (readS s b) o (2 ^ z.toNat)) (2 ^ z.toNat) (2 ^ z.toNat) .store = .ok p ∧
         kept p.key (2 ^ z.toNat) p.leaf) ∧
     (exec (.stH d b o) s = .next t →
       ∃ p, strandCheck s (scaledAddr (readS s b) o 8) 8 8 .store = .ok p ∧ kept p.key 8 p.leaf) ∧
     (exec (.stbit d b w) s = .next t →
       ∃ q, bitCheck s (readS s d) (w.toNat + 1) .store = .ok q ∧ kept q.2.2.key (8 * q.2.1) q.2.2.leaf))

/-- On a live strand with no vector instruction outstanding: LD and ST at an address whose path and zero bits are ones R32 gives but
which is not a multiple of the access size trap with misaligned-access, the address and the access kind, and at an address on no
path, or with a bit set that must be zero, with access SUB 0; memory outside the save area is not touched by either. A path 0x0
access of an aligned address passes the check exactly when it lies within the guard bounds and, for a store or another access
that is no load, at or above 0x1000, or is a load wholly below 0x1000; it then names those bytes of the core's own TCM. An
AMOSEQ target in TCM never passes. -/
def Obligations.AccessesAreChecked : Prop :=
  (∀ (d b : BitVec 5) (ty : BitVec 3) (z : BitVec 2) (o : BitVec 11) (s : State), (me s).live = true → vqBusy s = false →
    (let nl := 2 ^ (ty.toNat % 4)
     let ns := 2 ^ z.toNat
     let vl := scaledAddr (readS s b) o nl
     let vs := scaledAddr (readS s b) o ns
     (zeroBitsOk vl = true → vl.toNat % nl ≠ 0 → exec (.ld d b ty o) s = .next (raise s 0x06 0 vl 1)) ∧
     (zeroBitsOk vl = false → exec (.ld d b ty o) s = .next (raise s 0x05 0 vl 1)) ∧
     (zeroBitsOk vs = true → vs.toNat % ns ≠ 0 → exec (.st d b z o) s = .next (raise s 0x06 0 vs 2)) ∧
     (zeroBitsOk vs = false → exec (.st d b z o) s = .next (raise s 0x05 0 vs 2)))) ∧
  (∀ (s : State) (va : Word) (n : Nat) (kind : AccKind), va.toNat < 2 ^ 18 → 0 < n → va.toNat % n = 0 → kind ≠ .amoseq →
    (let x := getCore s s.ctx.core
     let o := va.toNat
     let inside : Prop := x.guardLo.toNat / 256 % 1024 ≤ o / 256 ∧ (o + n - 1) / 256 ≤ x.guardHi.toNat / 256 % 1024
     (∃ p, strandCheck s va n n kind = .ok p) ↔ ((kind = .load ∨ 0x1000 ≤ o) ∧ (inside ∨ (kind = .load ∧ o + n ≤ 0x1000)))) ∧
    (∀ m al : Nat, ¬∃ p, strandCheck s va m al .amoseq = .ok p) ∧
    (∀ p, strandCheck s va n n kind = .ok p → p.key = tcmKey s.ctx.core va.toNat ∧ p.mode = .untranslated ∧ p.leaf = none))

/-- On a live strand with no vector instruction outstanding, at a bit address whose words pass their checks: STBIT completes with
the low w bits of its data in the w bits from the bit offset of the one or two words and every other bit of memory as before;
LDBIT, not in conflict and with no guard granule in the way, completes with those w bits in its destination, zero- or sign-
extended. -/
def Obligations.BitFieldsComplete : Prop :=
  ∀ (d a b : BitVec 5) (e : BitVec 1) (w : BitVec 6) (s : State) (o k : Nat) (p : Place), (me s).live = true →
    Memory.wf s.mem = true → vqBusy s = false →
    (let wd := w.toNat + 1
     let free : Prop := ∀ j, j < 8 * k → classAt (myRegion s) (p.key + j) ≠ 2
     let old := memNat s.mem p.key (8 * k)
     (bitCheck s (readS s a) wd .load = .ok (o, k, p) → free →
       (noteAccess (markLeaf s p false) (whoMe s) p (8 * k) false none false false).2 = false →
       ∃ t, exec (.ldbit d a e w) s = .next t ∧ SameMemory s t ∧ ScalarsSameBut d s t ∧ VectorsSame s t ∧ MasksSame s t ∧
         (d ≠ 0#5 → (me t).regs.s[d.toNat]'d.isLt =
           (let f := old / 2 ^ o % 2 ^ wd
            if e = 1#1 then BitVec.ofInt 64 (if 2 ^ (wd - 1) ≤ f then (f : Int) - 2 ^ wd else f) else BitVec.ofNat 64 f))) ∧
     (bitCheck s (readS s a) wd .store = .ok (o, k, p) → free →
       ∃ t, exec (.stbit a b w) s = .next t ∧ SameMemoryBut p.key (8 * k) s t ∧
         (let new := memNat t.mem p.key (8 * k)
          new / 2 ^ o % 2 ^ wd = (readS s b).toNat % 2 ^ wd ∧ new % 2 ^ o = old % 2 ^ o ∧ new / 2 ^ (o + wd) = old / 2 ^ (o + wd))))

/-- LDT on a live strand with no vector instruction outstanding, with a TCM or scratchpad base and both base and stride multiples of
32, each of whose rows of 32 bytes passes CheckAccess and is not held up, completes. With no other agent's access in the phase,
no guard granule in the rows and the rows in memory without translation, element i of register d + j is the little-endian
element j of row i, as memory holds it. No byte of memory but a page's leaf, no scalar or mask register, no vector register but
d to d + n - 1, no trap register, package, other core or other strand changes. -/
def Obligations.TransposingLoadCompletes : Prop :=
  ∀ (d a b : BitVec 5) (e : BitVec 2) (s : State) (row : Nat → Place), Issuable (.ldt d a b e) s → vqBusy s = false →
    (let sz := 2 ^ e.toNat
     let n := 32 / sz
     let va (i : Nat) : Word := readS s a + BitVec.ofNat 64 i * readS s b
     (readS s a).toNat / 2 ^ 60 ≤ 1 → (readS s a).toNat % 32 = 0 → (readS s b).toNat % 32 = 0 →
     (∀ i, i < n → strandCheck s (va i) 32 32 .load = .ok (row i) ∧ accessReady s (row i) 32 false = .ok ()) →
     ∃ t, exec (.ldt d a b e) s = .next t ∧ (∀ k, (∀ i, i < n → (row i).leaf ≠ some k) → memRead t.mem k = memRead s.mem k) ∧
       ScalarsSame s t ∧ MasksSame s t ∧ TrapRegsSame s t ∧ OutsideSame s t ∧ CoreRegistersSame s t ∧ (∀ r : Fin 32, (r.val < d.toNat ∨ d.toNat + n ≤ r.val) → (me t).regs.v[r] = (me s).regs.v[r]) ∧
       (LogQuiet s → s.doubts = [] →
         (∀ i, i < n → Unguarded s (row i).key 32 ∧ (row i).leaf = none ∧ (row i).readOnly = false ∧ (row i).mode ≠ .ex) →
         ∀ j, j < n → ∀ i, i < n → ∀ hj : d.toNat + j < 32,
           elemOf ((me t).regs.v[d.toNat + j]) sz i = memNat s.mem ((row i).key + sz * j) sz))

/-- AMOADD, AMOAND, AMOOR, AMOXOR, AMOMIN, AMOMAX, AMOMINN and AMOMAXN on a live strand with no vector instruction outstanding, at
an address that passes its check, is not held up and whose core holds fewer than 256 unacknowledged atomics: the word completes,
one request with the next request id, the operation, width, place and truncated operand joins the core's, and no memory byte but
the page's leaf and no register changes; on a guard granule no request is made; on host memory every one but the 64-bit AMOADD
traps. AMOSEQ queues its request with addend, priority, limit and slot, counts against the allowance, and past the allowance is
the program fault SUB 2. That the 32-bit AMOADD traps on host memory as the other operations do is read from R434, which gives
the host the 64-bit FetchAdd alone; that the program fault's ACC is none is log entry 25 (DEDUCED). -/
def Obligations.AtomicsLeaveForTheirHomes : Prop :=
  ∀ (i : Instr) (op : BitVec 3) (d a b c : BitVec 5) (w : BitVec 1) (s : State) (p q : Place),
    (me s).live = true → vqBusy s = false → Held s →
    (let n : Nat := if w = 1#1 then 8 else 4
     let va := readS s a
     let kept (t : State) : Prop :=
       (∀ k, p.leaf ≠ some k → memRead t.mem k = memRead s.mem k) ∧ RegsSame s t ∧ TrapRegsSame s t ∧ OutsideSame s t
     (atomicForm i = some (op, a, b, w) → strandCheck s va n n .amo = .ok p →
       (spaceOf p.key = 5 → (op ≠ 0#3 ∨ w = 0#1) → exec i s = .next (raise s 0x05 2 va 3)) ∧
       (¬(spaceOf p.key = 5 ∧ (op ≠ 0#3 ∨ w = 0#1)) → accessReady s p n true = .ok () →
         ((myRegion s).atoms.countP fun r => r.core = s.ctx.core) < 256 →
         ∃ t, exec i s = .next t ∧ kept t ∧
           (classAt (myRegion s) p.key = 2 → (watchCode p).isSome → (myRegion t).atoms = (myRegion s).atoms) ∧
           (classAt (myRegion s) p.key ≠ 2 →
             (myCore t).atomCount = (myCore s).atomCount + 1#16 ∧
             (myRegion t).atoms = (myRegion s).atoms ++
               [{ core := s.ctx.core, strand := s.ctx.strand, count := (myCore s).atomCount, op := op, wide := decide (w = 1#1),
                  key := p.key, va := va, operand := BitVec.ofNat 64 ((readS s b).toNat % 2 ^ (8 * n)) }]))) ∧
     (strandCheck s va n n .amoseq = .ok p → spaceOf p.key ≠ 5 → fieldOf (readS s d) 63 60 = 0 →
       strandCheck s (readS s d) 16 16 .store = .ok q →
       ((me s).allowance < queueLimit (me s) →
         ∃ t r, exec (.amoseq d a b c w) s = .next t ∧ kept t ∧ (me t).allowance = (me s).allowance + 1 ∧
           (myCore t).seqReqs = (myCore s).seqReqs ++ [r] ∧ r.core = s.ctx.core ∧ r.key = p.key ∧ r.size = n ∧
           r.addend = (readS s b).toNat % 2 ^ (8 * n) ∧ r.prio = (readS s c).toNat % 2 ^ 32 ∧ r.slot = q.key ∧
           r.limit = if (readS s c).toNat / 2 ^ 32 = 2 ^ 32 - 1 then 2 ^ (8 * n) - 1 else (readS s c).toNat / 2 ^ 32) ∧
       (queueLimit (me s) ≤ (me s).allowance → exec (.amoseq d a b c w) s = .next (raise s 0x09 2 0#64 7))))

/-- POST on a live strand with no vector instruction outstanding, whose payload loads pass, to a core of the region and within the
allowance, completes: one message with its tag, destination and payload joins the core's queue, and no byte of memory and no
register changes; with no other agent's access in the phase and no guard granule, the payload is the little-endian dwords at the
address. RECV completes on every live strand where no other strand of the core has accessed a per-core register in the phase
(left out: a RECV in such a conflict, whose value and head are undefined by R86): with a usable queue that is not empty the
destination gets the TCM address of the slot at the head, which advances modulo the slots; otherwise it gets zero and the head
stays. -/
def Obligations.MessagesPostedAndTaken : Prop :=
  ∀ (a b d : BitVec 5) (n : BitVec 6) (s s1 : State) (ws : List Word),
    (let p := readS s a
     let dst := (readS s b).toNat % 2 ^ 22
     Issuable (.post a b n) s → vqBusy s = false → p.toNat < 2 ^ 60 → (readS s b).toNat / 2 ^ 22 % 2 ^ 10 = 0 →
     postRead s p n.toNat 0 = .ok (ws, s1) → dst / 65536 ≤ fieldOf (myCore s).pkgId 13 8 → inCoreSet (myRegion s).rcb dst = true →
     (me s).allowance < queueLimit (me s) →
     ∃ t m, exec (.post a b n) s = .next t ∧ (myCore t).msgs = (myCore s).msgs ++ [m] ∧ m.src = s.ctx.core ∧ m.dst = dst ∧
       m.tag = (readS s b).extractLsb' 32 32 ∧ m.payload = ws ∧ ws.length = n.toNat ∧
       (me t).allowance = (me s).allowance + 1 ∧ SameMemory s t ∧ RegsSame s t ∧ TrapRegsSame s t ∧ OutsideSame s t ∧
       (LogQuiet s → s.doubts = [] → Unguarded s (tcmKey s.ctx.core p.toNat) (8 * n.toNat) →
         ∀ j, j < n.toNat → ws[j]? = some (BitVec.ofNat 64 (memNat s.mem (tcmKey s.ctx.core (p.toNat + 8 * j)) 8)))) ∧
    ((me s).live = true → RegistersQuiet s →
     (let x := myCore s
      let head := fieldOf x.rqHead 11 0
      ∃ t, exec (.recv d) s = .next t ∧ SameMemory s t ∧ ScalarsSameBut d s t ∧ VectorsSame s t ∧ MasksSame s t ∧ TrapRegsSame s t ∧
        OutsideSame s t ∧
        (rqUsable x = true → head ≠ fieldOf x.rqTail 11 0 →
          (d ≠ 0#5 → newS t d = BitVec.ofNat 64 (64 * (fieldOf x.rqBase 17 6 + head))) ∧
          (myCore t).rqHead = BitVec.ofNat 64 ((head + 1) % rqSlots x)) ∧
        (rqUsable x = false ∨ head = fieldOf x.rqTail 11 0 → (d ≠ 0#5 → newS t d = 0#64) ∧ (myCore t).rqHead = x.rqHead)))

/-- With nothing left to drain and no vector instruction of the strand outstanding: FENCE completes with no effect but the end of
the word when none of the classes it names has anything outstanding, and else waits with no effect. WAITW at a sync word of TCM
or scratchpad completes, with no register or byte of memory changed, once a handoff write of the value to the word has been made
in the phase, and waits for one before; elsewhere it is the sync-class trap. IFENCE completes once no vector instruction of the
strand is outstanding, waits before (R145), leaves the strand no fetched word, and changes nothing else of the core. -/
def Obligations.OrderingWordsComplete : Prop :=
  ∀ (c : BitVec 3) (p q : BitVec 4) (a b : BitVec 5) (s : State) (pl : Place),
    (Issuable (.fence c p q) s → vqBusy s = false →
      (let waits : Prop :=
         (p.getLsbD 0 = true ∧ ringSettled (me s) = false) ∨ (p.getLsbD 1 = true ∧ atomsPending s = true) ∨
           (c = 6#3 ∧ p.getLsbD 2 = true ∧ (myCore s).unacked ≠ 0)
       (¬waits → exec (.fence c p q) s = .next (retire s)) ∧ (waits → exec (.fence c p q) s = .next (block s .stall)))) ∧
    (Issuable (.waitw a b) s → vqBusy s = false →
      (let va := readS s a
       let v := readS s b
       (1 < va.toNat / 2 ^ 60 → exec (.waitw a b) s = .next (raise s 0x08 0 va 4)) ∧
       (va.toNat / 2 ^ 60 ≤ 1 → strandCheck s va 8 8 .wait = .ok pl →
         (classAt (myRegion s) pl.key ≠ 1 → exec (.waitw a b) s = .next (raise s 0x08 0 va 4)) ∧
         (classAt (myRegion s) pl.key = 1 →
           ((∀ h ∈ (myRegion s).handoffs, ¬(h.key = pl.key ∧ h.value = v)) →
             exec (.waitw a b) s = .next (block s (.word pl.key v))) ∧
           ((∃ h ∈ (myRegion s).handoffs, h.key = pl.key ∧ h.value = v) →
             ∃ t, exec (.waitw a b) s = .next t ∧ SameMemory s t ∧ RegsSame s t ∧ TrapRegsSame s t ∧ OutsideSame s t ∧
               CoreRegistersSame s t ∧
               ∃ h ∈ (myRegion s).handoffs, h.key = pl.key ∧ h.value = v ∧
                 (h.any = true → ∀ e, clockGet h.clock e ≤ clockGet (me t).clock e)))))) ∧
    (Issuable .ifence s → vqBusy s = true → exec .ifence s = .next (block s .stall)) ∧
    (Issuable .ifence s → vqBusy s = false →
      ∃ t, exec .ifence s = .next t ∧ SameMemory s t ∧ t.regions = s.regions ∧ RegsSame s t ∧ TrapRegsSame s t ∧ OutsideSame s t ∧
        (∀ f ∈ (myCore t).fetched, f.1 ≠ (s.ctx.strand : Nat)) ∧
        restOf { myCore t with fetched := [] } = restOf { myCore s with fetched := [] })

/-- VADD, VSUB, VMUL, VFMA, VMIN, VMAX, VABS, VNEG, VAND, VOR, VXOR, VSLL, VSRL, VSRA, VADDS and VSUBS, where the word can issue and
the unit executes at once: the word completes; each active element of the destination becomes the table's result, exact on
integers and reduced modulo 2^N or saturated, or rounded once in the element's format; each inactive one keeps its value; no
other register, no byte of memory and nothing of any other strand or core changes. -/
def Obligations.VectorElementResults : Prop :=
  ∀ (i : Instr) (d a b : BitVec 5) (m : BitVec 3) (t : BitVec 4) (f : Nat → Nat → Nat → Nat) (s : State),
    laneResult i = some (d, a, b, m, t, f) → VectorReady i s →
    ∃ u, exec i s = .next u ∧ OnlyMyStrand s u ∧ OneDispatch s u ∧ VectorsSameBut d s u ∧ ScalarsSame s u ∧ MasksSame s u ∧
      ∀ e, e < 32 / typeWidth t →
        (LaneActive s m (typeWidth t) e →
          elemOf (newV u d) (typeWidth t) e =
            f (elemOf (readV s a) (typeWidth t) e) (elemOf (readV s b) (typeWidth t) e) (elemOf (readV s d) (typeWidth t) e) %
              2 ^ laneBits t) ∧
        (¬LaneActive s m (typeWidth t) e → elemOf (newV u d) (typeWidth t) e = elemOf (readV s d) (typeWidth t) e)

/-- Where the word can issue and the unit executes at once: a compare sets all bits of its mask under each active element that meets
the condition and clears every other; VSEL takes the element of its first operand where active and of its second elsewhere;
VPERM, VBCAST and VSLIDE write to each active element the element they select, or zero beyond the ends; VINS replaces one
element by the low bits of the scalar; VMOVS writes one element, sign- or zero-extended, to the scalar register. Nothing else
changes. -/
def Obligations.LanesComparedMovedAndInserted : Prop :=
  (∀ (i : Instr) (k : BitVec 3) (a b : BitVec 5) (m : BitVec 3) (t : BitVec 4) (c : Val → Val → Bool) (s : State),
    laneCompare i = some (k, a, b, m, t, c) → VectorReady i s →
    ∃ u, exec i s = .next u ∧ OnlyMyStrand s u ∧ OneDispatch s u ∧ ScalarsSame s u ∧ VectorsSame s u ∧ MasksSameBut k s u ∧
      ∀ e, e < 32 / typeWidth t → ∀ j, j < typeWidth t →
        ((newK u k).getLsbD (e * typeWidth t + j) = true ↔
          LaneActive s m (typeWidth t) e ∧
            c (elemVal t (elemOf (readV s a) (typeWidth t) e)) (elemVal t (elemOf (readV s b) (typeWidth t) e)) = true)) ∧
  (∀ (i : Instr) (d a b n : BitVec 5) (m : BitVec 3) (t : BitVec 4) (s : State), VectorReady i s →
    (let w := typeWidth t
     let cnt := 32 / w
     let x (e : Nat) := elemOf (readV s a) w e
     let y (e : Nat) := elemOf (readV s b) w e
     let old (e : Nat) := elemOf (readV s d) w e
     let gives (f : Nat → Nat) : Prop :=
       ∃ u, exec i s = .next u ∧ OnlyMyStrand s u ∧ OneDispatch s u ∧ VectorsSameBut d s u ∧ ScalarsSame s u ∧ MasksSame s u ∧
         ∀ e, e < cnt → elemOf (newV u d) w e = f e
     let masked (f : Nat → Nat) : Prop :=
       ∃ u, exec i s = .next u ∧ OnlyMyStrand s u ∧ OneDispatch s u ∧ VectorsSameBut d s u ∧ ScalarsSame s u ∧ MasksSame s u ∧
         ∀ e, e < cnt → (LaneActive s m w e → elemOf (newV u d) w e = f e) ∧ (¬LaneActive s m w e → elemOf (newV u d) w e = old e)
     let k : Int := ((readV s b).extractLsb' 0 16).toInt
     (i = .vsel d a b m t →
       ∃ u, exec i s = .next u ∧ OnlyMyStrand s u ∧ OneDispatch s u ∧ VectorsSameBut d s u ∧ ScalarsSame s u ∧ MasksSame s u ∧
         ∀ e, e < cnt → (LaneActive s m w e → elemOf (newV u d) w e = x e) ∧ (¬LaneActive s m w e → elemOf (newV u d) w e = y e)) ∧
     (i = .vperm d a b m t → masked fun e => x (y e % cnt)) ∧
     (i = .vbcast d a b m t → masked fun _ => x ((readV s b).toNat % 256 % cnt)) ∧
     (i = .vslide d a b m t → masked fun e => if 0 ≤ (e : Int) + k ∧ (e : Int) + k < cnt then x ((e : Int) + k).toNat else 0) ∧
     (i = .vins d a n t → gives fun e => if e = n.toNat then (readS s a).toNat % 2 ^ (8 * w) else old e))) ∧
  (∀ (d a n : BitVec 5) (t : BitVec 4) (s : State), Issuable (.vmovs d a n t) s → vqBusy s = false → ringFree (me s) = true →
    lateOf (me s) .vector = none →
    ∃ u, exec (.vmovs d a n t) s = .next u ∧ OnlyMyStrand s u ∧ OneDispatch s u ∧ ScalarsSameBut d s u ∧ VectorsSame s u ∧
      MasksSame s u ∧
      (d ≠ 0#5 → newS u d = BitVec.ofInt 64 (laneInt t (elemOf (readV s a) (typeWidth t) n.toNat))))

/-- The mask operations are majors 0x38 with subcodes 0 to 3 and the register numbers in the fields of R51; where the word can issue
and the unit executes at once, each completes for any registers, k0 included, with the AND, OR, XOR or NOT of all 32 bits in the
destination, and no other register, no byte of memory and nothing of another strand or core changes. KAND k3, k1, k2 as a lone
word is 0xB818_4400, and a KNOT whose kb field is not zero is no instruction. -/
def Obligations.MaskOperations : Prop :=
  (∀ (d a b : BitVec 3) (s : State),
    (let gives (i : Instr) (x : KWord) : Prop :=
       VectorReady i s →
         ∃ u, exec i s = .next u ∧ newK u d = x ∧ OnlyMyStrand s u ∧ OneDispatch s u ∧ MasksSameBut d s u ∧ ScalarsSame s u ∧
           VectorsSame s u
     gives (.kand d a b) (readK s a &&& readK s b) ∧ gives (.kor d a b) (readK s a ||| readK s b) ∧
       gives (.kxor d a b) (readK s a ^^^ readK s b) ∧ gives (.knot d a) (~~~(readK s a)))) ∧
  (∀ d a b : BitVec 3,
    (let word (sub : Nat) : Word32 := BitVec.ofNat 32 (0xB8000000 + d.toNat * 2 ^ 19 + a.toNat * 2 ^ 14 + b.toNat * 2 ^ 9 + sub)
     decode .v3 (word 0) = .ok { lone := true, smark := false, instr := .kand d a b } ∧
     decode .v3 (word 1) = .ok { lone := true, smark := false, instr := .kor d a b } ∧
     decode .v3 (word 2) = .ok { lone := true, smark := false, instr := .kxor d a b } ∧
     (b = 0#3 → decode .v3 (word 3) = .ok { lone := true, smark := false, instr := .knot d a }) ∧
     (b ≠ 0#3 → ∃ e, decode .v3 (word 3) = .error e))) ∧
  decode .v3 0xB8184400#32 = .ok { lone := true, smark := false, instr := .kand 3#3 1#3 2#3 }

/-- Where the word can issue and the unit executes at once. VREDSUM, VREDMAX and VREDMIN leave in element 0 the tree of R231 over
the active elements combined with the carry-in, a .bf16 sum in FP32, and every other bit zero; on integers that is the sum
modulo 2^N, the largest and the smallest. VSCAN writes the running sums to the active elements. VCVT converts each active
element among those both types have by the table of R200. VSCALE leaves L and the E of R236, and zeros. VRCP gives each active
element the special case of R237 or its rounded exact reciprocal. VEXP2 gives the special cases, the rounded power of two of an
integer, and what R237 says above 256 and below -256; of other operands the statement says only that the word completes.
Inactive elements stay, and only the destination and the dispatch change. -/
def Obligations.VectorReductionsComplete : Prop :=
  (∀ (i : Instr) (d a b : BitVec 5) (m : BitVec 3) (t : BitVec 4) (s : State), VectorReady i s →
    (i = .vredsum d a b m t ∨ i = .vredmax d a b m t ∨ i = .vredmin d a b m t ∨ i = .vscan d a b m t ∨ i = .vscale d a b m t) →
    ∃ u, exec i s = .next u ∧ OnlyMyStrand s u ∧ OneDispatch s u ∧ VectorsSameBut d s u ∧ ScalarsSame s u ∧ MasksSame s u ∧
      (let w := typeWidth t
       let cnt := 32 / w
       let code (e : Nat) := elemOf (readV s a) w e
       let c0 := elemOf (readV s b) w 0
       let active (e : Nat) : Option Nat := if laneOn s m w e then some (code e) else none
       let wide (e : Nat) : Option Nat := if laneOn s m w e then some (rneFloat .f32 (floatVal .bf16 (code e))) else none
       let gives (op : Nat → Nat → Nat) : Prop :=
         newV u d = BitVec.ofNat 256 (reduced op active (Nat.log2 cnt) c0) ∧ (newV u d).toNat < 2 ^ laneBits t
       let x (e : Nat) : Int := laneInt t (code e)
       let cin : Int := laneInt t c0
       let r := elemOf (newV u d) w 0
       (i = .vredsum d a b m t →
         (t ≠ 0x9#4 → gives (laneSum t)) ∧
         (t = 0x9#4 → newV u d = BitVec.ofNat 256 (reduced (laneSum 0x8#4) wide 4 (elemOf (readV s b) 4 0)) ∧
           (newV u d).toNat < 2 ^ 32)) ∧
       (i = .vredmax d a b m t → gives (laneMax t)) ∧
       (i = .vredmin d a b m t → gives (laneMin t)) ∧
       (floatOf t = none → ∀ l : List Nat, (∀ e, e ∈ l ↔ e < cnt ∧ LaneActive s m w e) → l.Nodup →
         (i = .vredsum d a b m t → r = laneMod t ((l.map x).sum + cin)) ∧
         (i = .vredmax d a b m t → laneInt t r ∈ cin :: l.map x ∧ ∀ v ∈ cin :: l.map x, v ≤ laneInt t r) ∧
         (i = .vredmin d a b m t → laneInt t r ∈ cin :: l.map x ∧ ∀ v ∈ cin :: l.map x, laneInt t r ≤ v)) ∧
       (i = .vscan d a b m t → ∀ e, e < cnt →
         (¬LaneActive s m w e → elemOf (newV u d) w e = elemOf (readV s d) w e) ∧
         (LaneActive s m w e → elemOf (newV u d) w e = running (laneSum t) (laneOn s m w) code c0 (e + 1))) ∧
       (i = .vscale d a b m t →
         (let l0 := elemOf (readV s b) 1 0
          let l := if l0 = 0 then 1 else min l0 127
          let ep := elemOf (readV s b) 1 1
          let v (e : Nat) := elemVal t (code e)
          let on (e : Nat) : Prop := e < cnt ∧ LaneActive s m w e
          let fits (n : Nat) : Prop := ∀ e, on e → magnitude (v e) * (2 : ℚ) ^ (127 - (n : Int)) ≤ (l : ℚ) - 1 / 2
          let holds (n : Nat) : Prop := newV u d = BitVec.ofNat 256 (n * 256 + l)
          ((ep = 255 ∨ ∃ e, on e ∧ NotFinite (v e)) → holds 255) ∧
          (ep ≠ 255 → (∀ e, on e → ∃ n, v e = .zero n) → holds ep) ∧
          (ep ≠ 255 → (∀ e, on e → ¬NotFinite (v e)) → (∃ e man p, on e ∧ v e = .fin man p) →
            ∃ n, n ≤ 254 ∧ holds (max n ep) ∧ (∀ k, k < n → ¬fits k) ∧ (n = 254 ∨ fits n)))))) ∧
  (∀ (i : Instr) (d a : BitVec 5) (v : BitVec 4) (m : BitVec 3) (t : BitVec 4) (s : State), VectorReady i s →
    (i = .vcvt d a v m t ∨ i = .vexp2 d a m t ∨ i = .vrcp d a m t) →
    ∃ u, exec i s = .next u ∧ OnlyMyStrand s u ∧ OneDispatch s u ∧ VectorsSameBut d s u ∧ ScalarsSame s u ∧ MasksSame s u ∧
      ∀ e, e < 32 / typeWidth t →
        (let y := elemOf (newV u d) (typeWidth t) e
         let x := elemOf (readV s a) (typeWidth t) e
         (¬LaneActive s m (typeWidth t) e → y = elemOf (readV s d) (typeWidth t) e) ∧
         (i = .vcvt d a v m t → LaneActive s m (typeWidth t) e → e < 32 / typeWidth v →
           y = converted t v (elemOf (readV s a) (typeWidth v) e)) ∧
         (i = .vcvt d a v m t → 32 / typeWidth v ≤ e → y = elemOf (readV s d) (typeWidth t) e) ∧
         (∀ f, floatOf t = some f → LaneActive s m (typeWidth t) e →
           (i = .vrcp d a m t →
             (floatVal f x = .nan → y = canonNaN f) ∧
             (∀ n, floatVal f x = .inf n → y = signCode f n 0) ∧
             (∀ n, floatVal f x = .zero n → y = signCode f n (infCode f)) ∧
             (∀ man p, floatVal f x = .fin man p →
               y = signCode f (decide (man < 0)) (rneCode f (2 ^ (-p).toNat) (man.natAbs * 2 ^ p.toNat)))) ∧
           (i = .vexp2 d a m t →
             (floatVal f x = .nan → y = canonNaN f) ∧
             (floatVal f x = .inf false → y = infCode f) ∧
             (floatVal f x = .inf true → y = 0) ∧
             (∀ n, floatVal f x = .zero n → y = rneCode f 1 1) ∧
             (∀ man p, floatVal f x = .fin man p →
               (∀ n : Int, -256 ≤ n → n ≤ 256 → man * 2 ^ p.toNat = n * 2 ^ (-p).toNat →
                 y = rneCode f (2 ^ n.toNat) (2 ^ (-n).toNat)) ∧
               (256 * 2 ^ (-p).toNat < man * 2 ^ p.toNat → y = infCode f) ∧
               (man * 2 ^ p.toNat < -256 * 2 ^ (-p).toNat → y = 0))))))

/-- Where the word can issue and the unit executes at once, no other agent has accessed anything in the phase, no guard granule is
touched and the operands and every active element's address pass the checks: VLD and VGATHER give each active element the
little-endian bytes at its address and keep the others; VST and VSCATTER store each active element at its place, where no later
one is stored over it, and no other byte; VLDQ gives each active element the decoded value of its code at its view index,
rounded to FP32; VSTQ stores the quantised codes, or for .q4x the one quantised word where all eight elements are active and
nothing where none is, and no other byte; HSIFT leaves in its 72 bytes the best K of the heap's entries and the active elements,
in rank order, and zeros, and no other byte. No other register, strand or core changes. -/
def Obligations.VectorMemoryWordsComplete : Prop :=
  (∀ (v b c : BitVec 5) (m : BitVec 3) (t : BitVec 4) (s : State) (i : Instr) (va : Nat → Word) (p : Nat → Place),
    VectorReady i s → Quiet s → Memory.wf s.mem = true →
    (let w := typeWidth t
     let on (e : Nat) : Prop := e < 32 / w ∧ LaneActive s m w e
     let base := readS s b
     let start := base + readS s c
     let index (e : Nat) := elemOf (readV s c) w e
     let load : Prop := i = .vld v b c m t ∨ i = .vgather v b c m t
     let store : Prop := i = .vst v b c m t ∨ i = .vscatter v b c m t
     load ∨ store →
     ((i = .vld v b c m t ∨ i = .vst v b c m t) →
       fieldOf start 63 60 ≤ 2 ∧ start.toNat % w = 0 ∧ fieldOf start 59 0 + 32 ≤ memorySize (fieldOf start 63 60) ∧
         ∀ e, va e = start + BitVec.ofNat 64 (e * w)) →
     ((i = .vgather v b c m t ∨ i = .vscatter v b c m t) →
       fieldOf base 63 60 ≤ 1 ∧ (∀ e, va e = base + BitVec.ofNat 64 (index e * w)) ∧
         ∀ e, on e → base.toNat + index e * w < 2 ^ 64 ∧ fieldOf (va e) 63 60 = fieldOf base 63 60) →
     (∀ e, on e → checkAccess s (asMe s) (va e) w w (if load then .load else .store) = .ok (p e) ∧
       accessReady s (p e) w (decide store) = .ok () ∧ Unguarded s (p e).key w) →
     ∃ u, exec i s = .next u ∧ OneDispatch s u ∧ ScalarsSame s u ∧ MasksSame s u ∧ VectorsSameBut v s u ∧ OutsideSame s u ∧
       (load → SameMemory s u ∧ CoreRegistersSame s u ∧ ∀ e, e < 32 / w →
         (¬LaneActive s m w e → elemOf (newV u v) w e = elemOf (readV s v) w e) ∧
         (LaneActive s m w e → elemOf (newV u v) w e = memNat s.mem (p e).key w)) ∧
       (store → VectorsSame s u ∧
         (∀ a, (∀ e, on e → a < (p e).key ∨ (p e).key + w ≤ a) → memRead u.mem a = memRead s.mem a) ∧
         ∀ e, on e → (∀ f, on f → e < f → (p f).key + w ≤ (p e).key ∨ (p e).key + w ≤ (p f).key) →
           memNat u.mem (p e).key w = elemOf (readV s v) w e))) ∧
  (∀ (v b : BitVec 5) (g m : BitVec 3) (t : BitVec 4) (s : State) (i : Instr) (dp : Place) (D : ViewDesc) (n : Nat → Nat)
    (sp cp : Nat → Place), VectorReady i s → Quiet s → RegistersQuiet s → Memory.wf s.mem = true →
    (let q4 : Bool := decide (t = 0xC#4)
     let size : Nat := if q4 then 4 else 1
     let on (e : Nat) : Prop := e < 8 ∧ LaneActive s m 4 e
     let ca := readS s b
     let sa := readS s (b + 1#5)
     let p0 := (readS s (b + 2#5)).toNat
     let st (e : Nat) : Nat := D.skip + p0 + e
     let ea (e : Nat) : Word := sa + BitVec.ofNat 64 (st e / 32)
     let ua (e : Nat) : Word := ca + BitVec.ofNat 64 (if q4 then 4 * (st e / 8) else st e)
     let load : Prop := i = .vldq v b g m t
     let scale (e : Nat) : Nat := memNat s.mem (sp e).key 1
     let code (e : Nat) : Nat := memNat s.mem (cp e).key size
     let kind (e : Nat) : QKind :=
       if q4 then (decodeQ4X (code e)).getD (st e % 8) .zero else .code (BitVec.ofNat 8 (code e)).toInt
     let x (e : Nat) : Val := floatVal .f32 (elemOf (readV s v) 4 e)
     i = .vldq v b g m t ∨ i = .vstq v b g m t →
     checkAccess s (asMe s) (BitVec.ofNat 64 (descAddr ((myCore s).sv[g.toNat]'g.isLt))) 128 128 .load = .ok dp →
     accessReady s dp 128 false = .ok () → Unguarded s dp.key 128 → parseView (readBytes s.mem dp.key 128) t = some D →
     fieldOf ca 63 60 ≤ 1 → fieldOf sa 63 60 ≤ 1 → ca.toNat % (if q4 then 16 else 32) = 0 →
     (i = .vstq v b g m t → q4 = true →
       D.skip % 8 = 0 ∧ (D.skip + p0) % 8 = 0 ∧ ((∀ e, e < 8 → LaneActive s m 4 e) ∨ ∀ e, e < 8 → ¬LaneActive s m 4 e)) →
     (∀ e, on e → viewIndex D (p0 + e) = some (n e) ∧
       fieldOf (ea e) 63 60 = fieldOf sa 63 60 ∧ checkAccess s (asMe s) (ea e) 1 1 .load = .ok (sp e) ∧
       accessReady s (sp e) 1 false = .ok () ∧ Unguarded s (sp e).key 1 ∧
       fieldOf (ua e) 63 60 = fieldOf ca 63 60 ∧
       checkAccess s (asMe s) (ua e) size size (if load then .load else .store) = .ok (cp e) ∧
       accessReady s (cp e) size (decide (¬load)) = .ok () ∧ Unguarded s (cp e).key size) →
     ∃ u, exec i s = .next u ∧ OneDispatch s u ∧ ScalarsSame s u ∧ MasksSame s u ∧ VectorsSameBut v s u ∧ OutsideSame s u ∧
       (load → SameMemory s u ∧ ∀ e, e < 8 →
         (¬LaneActive s m 4 e → elemOf (newV u v) 4 e = elemOf (readV s v) 4 e) ∧
         (LaneActive s m 4 e → elemOf (newV u v) 4 e = rneFloat .f32 (decodeStippled (kind e) (scale e) D.seed (n e) D.zp))) ∧
       (i = .vstq v b g m t → VectorsSame s u ∧
         (∀ a, (∀ e, on e → a < (cp e).key ∨ (cp e).key + size ≤ a) → memRead u.mem a = memRead s.mem a) ∧
         (q4 = false → ∀ e, on e → (∀ f, on f → e < f → (cp f).key ≠ (cp e).key) →
           memNat u.mem (cp e).key 1 = quantiseQ8 (x e) (scale e) D.seed (n e) D.zp) ∧
         (q4 = true → on 0 →
           memNat u.mem (cp 0).key 4 = quantiseQ4X ((List.range 8).map x) (scale 0) D.seed ((List.range 8).map n) D.zp)))) ∧
  (∀ (v b : BitVec 5) (m : BitVec 3) (t : BitVec 4) (s : State) (p : Place),
    VectorReady (.hsift v b m t) s → Quiet s → Memory.wf s.mem = true →
    (let h := readS s b
     let ib := (readS s (b + 1#5)).toNat % 2 ^ 32
     let k := memNat s.mem p.key 1
     let cnt := memNat s.mem (p.key + 1) 1
     let number (x : Nat × Nat) : Bool := !isNaN (elemVal t x.1)
     let entry (j : Nat) : Nat × Nat := (memNat s.mem (p.key + 8 + 8 * j) 4, memNat s.mem (p.key + 12 + 8 * j) 4)
     let cand : List (Nat × Nat) :=
       ((List.range cnt).map entry ++
         ((List.range 8).filter (laneOn s m 4)).map fun e => (elemOf (readV s v) 4 e, (ib + e) % 2 ^ 32)).filter number
     let above (x y : Nat × Nat) : Prop :=
       valLt (elemVal t y.1) (elemVal t x.1) = true ∨ (valEq (elemVal t x.1) (elemVal t y.1) = true ∧ x.2 ≤ y.2)
     fieldOf h 63 60 = 0 → h.toNat % 8 = 0 → fieldOf h 17 0 + 72 ≤ 2 ^ 18 →
     checkAccess s (asMe s) h 72 8 .store = .ok p → accessReady s p 72 true = .ok () → Unguarded s p.key 72 →
     1 ≤ k → k ≤ 8 → cnt ≤ k → memNat s.mem (p.key + 2) 6 = 0 →
     ∃ u, exec (.hsift v b m t) s = .next u ∧ OneDispatch s u ∧ RegsSame s u ∧ OutsideSame s u ∧ SameMemoryBut p.key 72 s u ∧
       ∃ l rest : List (Nat × Nat), (l ++ rest).Perm cand ∧ (l ++ rest).Pairwise above ∧ l.length = min k cand.length ∧
         memNat u.mem p.key 1 = k ∧ memNat u.mem (p.key + 1) 1 = l.length ∧ memNat u.mem (p.key + 2) 6 = 0 ∧
         (∀ j (hj : j < l.length), memNat u.mem (p.key + 8 + 8 * j) 4 = l[j].1 ∧ memNat u.mem (p.key + 12 + 8 * j) 4 = l[j].2) ∧
         ∀ j, l.length ≤ j → j < 8 → memNat u.mem (p.key + 8 + 8 * j) 8 = 0))

/-- MMA, MMAZ, MLDB, MLDBT, MZERO, MLDACC, MSTACC, MSTACCQ, MACCADD and MCFG, MRING and MSWAP in the C phase, CPY, CPYD, CPYG, CPYS,
CPYF, CPYR and CPYHO, and PDAINIT, PDAMASK, PDASTEP, SAMPLEP, SAMPLEF and PDASAVE, on a live strand with accepted fields, no
vector instruction or atomic of the strand outstanding, a free ring entry, no late fault of the engine and fewer than two
commands queued: the word completes, and its command, with the captured registers, is the last of the queue. MRING and MSWAP in
the T phase are illegal. CPYRES, once no copy of the strand is queued (log entry 39) and where no other strand has accessed a
per-core register in the phase (left out: a CPYRES in such a conflict, which reads undefined values by R86), does the same with
the command CE_STATE records, from the iteration CE_IDX0 to CE_IDX4 hold, and clears CE_STATE.V; with V clear it is illegal.
That the trap's ACC is none is log entry 25 (DEDUCED). -/
def Obligations.EngineCommandsAreQueued : Prop :=
  (∀ (i : Instr) (s : State) (e : Engine) (va vb vc : Word), queuedForm i (readS s) = some (e, va, vb, vc) → Issuable i s →
    (ringExchange i → (myRegion s).phase = .t → exec i s = .next (raise s 0x01 0 (s.ctx.word.setWidth 64) 7)) ∧
    (¬(ringExchange i ∧ (myRegion s).phase = .t) → vqBusy s = false → atomsPending s = false → ringFree (me s) = true →
      lateOf (me s) e = none → (queueOf (myCore s) e).length < 2 →
      ∃ u c, exec i s = .next u ∧ queueOf (myCore u) e = queueOf (myCore s) e ++ [c] ∧ c.instr = i ∧ c.a = va ∧ c.b = vb ∧ c.c = vc ∧
        c.strand = (s.ctx.strand : Nat) ∧ c.seq = (me s).seq ∧ (RegistersQuiet s → c.eb = (myCore s).eb ∧ c.sv = (myCore s).sv) ∧
        (∀ f, f ≠ e → queueOf (myCore u) f = queueOf (myCore s) f) ∧ (myCore u).mx.acc = (myCore s).mx.acc ∧
        OneDispatch s u ∧ SameMemory s u ∧ RegsSame s u ∧ OutsideSame s u)) ∧
  (∀ (a b c : BitVec 5) (s : State) (i : Instr), (me s).live = true → RegistersQuiet s →
    (let x := myCore s
     copiesOut s = false → x.ceState.getLsbD 63 = true → copyOf (fieldOf x.ceState 39 36) (fieldOf x.ceState 35 31) = some i →
     vqBusy s = false → atomsPending s = false → ringFree (me s) = true → lateOf (me s) .copy = none → x.cq.length < 2 →
     ∃ u q, exec (.cpyres a b c) s = .next u ∧ (myCore u).cq = x.cq ++ [q] ∧ q.instr = i ∧ q.a = readS s a ∧ q.b = readS s b ∧
       q.c = readS s c ∧ (∀ j : Fin 5, q.start[j] = x.ceIdx[j].toNat % 2 ^ 32) ∧
       (myCore u).ceState = x.ceState &&& 0x7FFFFFFFFFFFFFFF#64 ∧ OneDispatch s u ∧ SameMemory s u ∧ RegsSame s u ∧ OutsideSame s u)) ∧
  (∀ (a b c : BitVec 5) (s : State), (me s).live = true →
    (copiesOut s = true → exec (.cpyres a b c) s = .next (block s .stall)) ∧
    (RegistersQuiet s → copiesOut s = false → (myCore s).ceState.getLsbD 63 = false →
      exec (.cpyres a b c) s = .next (raise s 0x01 0 (s.ctx.word.setWidth 64) 7)))

/-- Where no other strand of the core has accessed a per-core register in the phase (left out: a word in such a conflict, which
gives undefined values by R86): MSKSET and MKEEP in the keeper core in the C phase write the named pending values alone, and are
illegal elsewhere or in the T phase; MSKGET writes the link latch's GA, GB, their nine-bit sum and the keeper position; MWAIT
waits, outside handler mode, while a command of the strand to any engine is in flight, and in any mode while one of its matrix
commands is queued, and completes with the strand's accesses ordered after its settled matrix commands'; EBSET writes one bound
or view register and EBGET reads one, the reserved fields of eb14 as zero; SASSERT and SGROW only end; SBMAP writes the back-
map's answer, in a region with one loaded code for the core's routine (left out: the value with several). That the trap's ACC is
none is log entry 25 (DEDUCED). No byte of memory and nothing of any other strand or core changes. -/
def Obligations.CoreRegisterWordsComplete : Prop :=
  ∀ (a b d : BitVec 5) (w : BitVec 2) (y x : BitVec 2) (r : BitVec 5) (cnd : BitVec 3) (pr : BitVec 6) (s : State), (me s).live = true →
    (let l := (myCore s).mx.link
     let old := (myCore s).mx.pending
     let keeper : Prop := s.ctx.core % 16 = 4 * l.ky.toNat + l.kx.toNat
     let kept (t : State) : Prop := SameMemory s t ∧ TrapRegsSame s t ∧ OutsideSame s t ∧ VectorsSame s t ∧ MasksSame s t
     let pending (i : Instr) (p : Scale) : Prop :=
       ∃ t, exec i s = .next t ∧ (myCore t).mx = { (myCore s).mx with pending := p } ∧ kept t ∧ ScalarsSame s t
     (wellFormed (.mskset a b w) = true → RegistersQuiet s → (myRegion s).phase ≠ .t → keeper →
       pending (.mskset a b w)
         { old with ga := if w.getLsbD 0 then (readS s a).setWidth 8 else old.ga, gb := if w.getLsbD 1 then (readS s b).setWidth 8 else old.gb }) ∧
     (RegistersQuiet s → (myRegion s).phase ≠ .t → keeper → pending (.mkeep y x) { old with ky := y, kx := x }) ∧
     ((myRegion s).phase = .t ∨ ¬keeper →
       exec (.mkeep y x) s = .next (raise s 0x01 0 (s.ctx.word.setWidth 64) 7) ∧
       exec (.mskset a b w) s = .next (raise s 0x01 0 (s.ctx.word.setWidth 64) 7)) ∧
     exec (.mskget d) s = .next (retire (writeS s d (BitVec.ofNat 64
       (l.ga.toNat + 2 ^ 8 * l.gb.toNat + 2 ^ 16 * ((l.ga.toInt + l.gb.toInt) % 2 ^ 9).toNat + 2 ^ 32 * (4 * l.ky.toNat + l.kx.toNat))))) ∧
     ((me s).trap.status.getLsbD 0 = false → inFlightOf (me s) none = true → exec .mwait s = .next (block s .stall)) ∧
     (drainPoint .mwait s = .ok () →
       ((∃ c ∈ (myCore s).mq, c.strand = (s.ctx.strand : Nat)) →
         exec .mwait s = .next (block s (.engine (myCore s).settled))) ∧
       ((∀ c ∈ (myCore s).mq, c.strand ≠ (s.ctx.strand : Nat)) →
         ∃ t, exec .mwait s = .next t ∧ kept t ∧ ScalarsSame s t ∧ CoreRegistersSame s t ∧
           ∀ e, clockGet (me s).mxClock e ≤ clockGet (me t).clock e)) ∧
     (r.toNat < 24 → RegistersQuiet s →
       (∃ t, exec (.ebset a r) s = .next t ∧ kept t ∧ ScalarsSame s t ∧
         (∀ k : Fin 16, (myCore t).eb[k] = if r.toNat = k then readS s a else (myCore s).eb[k]) ∧
         (∀ k : Fin 8, (myCore t).sv[k] = if r.toNat = 16 + k then readS s a &&& 0x3FF80#64 else (myCore s).sv[k])) ∧
       (∃ t, exec (.ebget d r) s = .next t ∧ kept t ∧ ScalarsSameBut d s t ∧
         (∀ k : Fin 16, r.toNat = k → d ≠ 0#5 →
           newS t d = if r.toNat = 14 then (myCore s).eb[k] &&& 0x0000FFFFFFFF0F77#64 else (myCore s).eb[k]) ∧
         (∀ k : Fin 8, r.toNat = 16 + k → d ≠ 0#5 → newS t d = (myCore s).sv[k]) ∧
         (myCore t).eb = (myCore s).eb ∧ (myCore t).sv = (myCore s).sv)) ∧
     (cnd.toNat ≤ 5 → exec (.sassert a b cnd) s = .next (retire s)) ∧
     exec (.sgrow pr) s = .next (retire s) ∧
     (∃ v, exec (.sbmap d a) s = .next (retire (writeS s d v)) ∧
       (let z := readS s a
        let off := z.toNat / 4 * 4
        let here (c : LoadedCode) : Prop := c.routine = (myCore s).routine ∧ c.loadAddr ≤ off ∧ off < c.loadAddr + 4 * c.words.length
        let answer (rout idx o : Nat) : Word := BitVec.ofNat 64 (rout % 2 ^ 16 * 2 ^ 32 + idx % 2 ^ 12 * 2 ^ 20 + o % 2 ^ 20)
        (2 ^ 18 ≤ z.toNat → v = 0x0000FFFF00000000#64) ∧
        (z.toNat < 2 ^ 18 → (∀ c ∈ (myRegion s).code, ¬here c) → v = answer 0xFFFF 0 (off / 4)) ∧
        (∀ c, (myRegion s).code = [c] → here c → z.toNat < 2 ^ 18 →
          (c.specialised = false → v = answer c.routine 0 ((off - c.loadAddr) / 4)) ∧
          (∀ e, c.specialised = true → c.backMap[(off - c.loadAddr) / 4]? = some e →
            v = answer c.routine (e.toNat / 2 ^ 20) (e.toNat % 2 ^ 20))))))

/-- TXSUB in the C phase with a valid descriptor and allowance left appends the submission and writes its index; past the allowance
it is the program fault SUB 3. TXPEEK writes the doubleword of the tile: at home outside a body, in the landing copy inside one.
TXSETS appends an address to the read or the write set of the descriptor, counts it in HDR and writes its set index; a full set
is the program fault SUB 7. TXCHK appends the word peeked and writes it. TXEND, once the body's engine commands and atomics are
over and its home writes go through, ends the body's strand, and every request of the transaction is removed; TXRST does so with
memory as it was and records a restart with the descriptor. That the ACC of the program faults and of the illegal TXEND is none
is log entry 25 (DEDUCED). -/
def Obligations.TransactionWordsComplete : Prop :=
  ∀ (d a b : BitVec 5) (s : State), (me s).live = true → vqBusy s = false →
    (let da := readS s a
     let phaseOk : Prop := (myRegion s).phase = .c ∨ (me s).body.isSome
     let kept (t : State) : Prop := ScalarsSameBut d s t ∧ VectorsSame s t ∧ MasksSame s t ∧ TrapRegsSame s t ∧ OutsideSame s t
     (∀ desc s1, (myRegion s).phase = .c → (me s).body = none → readDesc s da = .ok (desc, s1) →
       ((myCore s).subs.length < txAllowance (myRegion s).rcb (myCore s) →
         ∃ t q, exec (.txsub d a) s = .next t ∧ (myCore t).subs = (myCore s).subs ++ [q] ∧ q.core = s.ctx.core ∧ q.desc = desc ∧
           (d ≠ 0#5 → newS t d = BitVec.ofNat 64 (me s).txsubs) ∧ (me t).txsubs = (me s).txsubs + 1 ∧ SameMemory s t ∧ kept t) ∧
       (txAllowance (myRegion s).rcb (myCore s) ≤ (myCore s).subs.length →
         exec (.txsub d a) s = .next (raise s 0x09 3 0#64 7))) ∧
     (phaseOk → da.toNat % 8 = 0 → ∀ tile, namedTile s s.ctx.core da = some tile →
       ((me s).body = none → ∀ p, checkAccess s { asMe s with peek := true } da 8 8 .load = .ok p →
         p.mode ≠ .ex → p.readOnly = false →
         ∃ t, exec (.txpeek d a) s = .next t ∧ kept t ∧ (d ≠ 0#5 → newS t d = BitVec.ofNat 64 (memNat s.mem p.key 8)) ∧
           ∀ k, p.leaf ≠ some k → memRead t.mem k = memRead s.mem k) ∧
       (∀ x off, heldOffset s tile = some (x, off) → (me s).body.isSome →
         (let o := blockOffset (myCore s) x + off + ((if tile.die then fieldOf da 25 0 else fieldOf da 47 0) - tile.addr)
          interlocked s s.ctx.core o 8 false = false → o + 8 ≤ 2 ^ 18 →
          ∃ t, exec (.txpeek d a) s = .next t ∧ kept t ∧ SameMemory s t ∧
            (d ≠ 0#5 → newS t d = BitVec.ofNat 64 (memNat s.mem (tcmKey s.ctx.core o) 8))))) ∧
     (∀ (k : BitVec 1) (p : Place), phaseOk → descPlace s da .store = .ok p → accessReady s p 328 true = .ok () → Quiet s →
       Unguarded s p.key 328 → Memory.wf s.mem = true →
       (let h := memNat s.mem p.key 8
        let n := if k = 0#1 then h / 2 ^ 20 % 2 ^ 5 else h / 2 ^ 25 % 2 ^ 4
        let cap := if k = 0#1 then 16 else 8
        let at_ := p.key + (if k = 0#1 then 0x48 else 0xC8) + 8 * n
        (cap ≤ n → exec (.txsets d a b k) s = .next (raise s 0x09 7 0#64 7)) ∧
        (n < cap →
          ∃ t, exec (.txsets d a b k) s = .next t ∧ kept t ∧
            (d ≠ 0#5 → newS t d = BitVec.ofNat 64 (n + if k = 0#1 then 0 else 16)) ∧ memNat t.mem at_ 8 = (readS s b).toNat ∧
            memNat t.mem p.key 8 = (h + if k = 0#1 then 2 ^ 20 else 2 ^ 25) % 2 ^ 64 ∧
            ∀ j, (j < p.key ∨ p.key + 8 ≤ j) → (j < at_ ∨ at_ + 8 ≤ j) → memRead t.mem j = memRead s.mem j))) ∧
     (∀ (p : Place) (off : Nat) (tile : Tile) (v : Word) (s3 : State), phaseOk → descPlace s da .store = .ok p →
       accessReady s p 328 true = .ok () → Quiet s → Unguarded s p.key 328 → Memory.wf s.mem = true →
       (let h := BitVec.ofNat 64 (memNat s.mem p.key 8)
        let sel := readS s b
        let n := h.toNat / 2 ^ 29 % 2 ^ 3
        let s2 := (loadAt (loadHdr s p).2 (whoMe s) (descAt p off) 8).2
        let va := BitVec.ofNat 64 (memNat s.mem (p.key + off) 8)
        let doff := fieldOf sel 28 16
        fieldOf sel 15 5 = 0 → fieldOf sel 63 29 = 0 → setOffset h (fieldOf sel 4 0) = some off → n < 4 →
        namedTile s s.ctx.core va = some tile → 8 * doff < tile.size → peekTile s2 (va + BitVec.ofNat 64 (8 * doff)) = .ok (v, s3) →
        ∃ t, exec (.txchk d a b) s = .next t ∧ kept t ∧ (d ≠ 0#5 → newS t d = v) ∧
          (SameMemory s s3 → Memory.wf s3.mem = true →
            memNat t.mem (p.key + 0x108 + 16 * n) 8 = sel.toNat ∧ memNat t.mem (p.key + 0x110 + 16 * n) 8 = v.toNat ∧
              memNat t.mem p.key 8 = (h.toNat + 2 ^ 29) % 2 ^ 64))) ∧
     (∀ (c : BodyCtx) (x : Txn), (me s).body = some c → bodyTxn s s.ctx.core s.ctx.strand = some x → Held s →
       ringSettled (me s) = true → atomsPending s = false →
       (let ended (t : State) : Prop :=
          (me t).live = false ∧ (me t).body = none ∧ RegsSame s t ∧ OutsideSame s t ∧
            ∀ u ∈ (myRegion t).txns, u.num = c.num → (findTxn (myRegion s) c.num).isSome → u.status = .done ∧ ∀ q ∈ u.reqs, q.status = .removed
        (drainPoint .txend s = .ok () → c.restart = true → exec .txend s = .next (raise s 0x01 0 (s.ctx.word.setWidth 64) 7)) ∧
        (∀ s1, drainPoint .txend s = .ok () → c.restart = false →
          writeHome s.ctx.core (blockOffset (myCore s) x) s x.homed (x.reqs.drop x.homed) = .written s1 →
          ∃ t, exec .txend s = .next t ∧ ended t ∧ t.mem = s1.mem ∧ ((∀ q ∈ x.reqs, q.excl = false) → SameMemory s t)) ∧
        (∀ desc s1, drainPoint (.txrst a) s = .ok () → readDesc s da = .ok (desc, s1) →
          ∃ t, exec (.txrst a) s = .next t ∧ ended t ∧ SameMemory s t ∧
            (myRegion t).restarts = (myRegion s).restarts ++ [{ num := c.num, core := s.ctx.core, host := x.host, desc := desc }]))))

/-- When the matrix command at the head of a core's queue is a MACCADD, the core's region runs and is not being pre-empted, and no
accumulator is in conflict, starting it completes it: each element of accumulator D becomes RNE(d + s, FP32) under the rules of
R227 in the FP32 form, and (SInt(d) + SInt(s)) mod 2^32 in the integer form, of the elements as before the command, also where D
and S are one accumulator. The other accumulators, the latch and every byte of memory keep their values. -/
def Obligations.AccumulatorsAdd : Prop :=
  ∀ (s : State) (core : Nat) (c : Cmd) (rest : List Cmd) (n x : BitVec 2) (p : BitVec 1),
    (getCore s core).mq = c :: rest → c.instr = .maccadd n p x → (getCore s core).regConf = [] →
    enginesRun s core = true → keepsViews s core c (matrixFoot (getCore s core).mx c).writes = true →
    ∃ u, exec (.matrixCommandStart core) s = .next u ∧ SameMemory s u ∧
      (let old := (getCore s core).mx
       let new := (getCore u core).mx
       (∀ k : BitVec 2, k ≠ n → accOf new k = accOf old k) ∧ new.latch = old.latch ∧ new.cls = old.cls ∧
       ∀ i : Fin 256,
         (let d := (accOf old n)[i]
          let y := (accOf old x)[i]
          (accOf new n)[i] =
            if p = 1#1 then BitVec.ofInt 32 (d.toInt + y.toInt)
            else BitVec.ofNat 32 (rneFloat .f32 (valAdd (floatVal .f32 d.toNat) (floatVal .f32 y.toNat)))))

/-- A vector instruction left dispatched is executed from the head of its core's queue on the registers it captured: one of the
element arithmetic leaves the table's results in its active elements and nothing else of the strand's files changes, and any
other leaves what its effect on those registers is. A matrix command is taken where the core's region runs, no pre-emption holds
its units and no earlier command has a descriptor to read where it writes: MZERO leaves zeros, MCFG the named formats and views,
and a late fault, as that of a multiplication whose format has no class or not the latch's, takes the command from the queue,
with the memory and the unit as its accesses left them, and is recorded. An exchange command waits for its round. Once all
sixteen cores of a cluster wait in exchange commands, one MRING moves every latch with its class to the next position, along the
row, down the column, or along the order (0,0) (0,1) (0,2) (0,3) (1,3) (1,2) (1,1) (1,0) (2,0) (2,1) (2,2) (2,3) (3,3) (3,2)
(3,1) (3,0) and round; one MSWAP exchanges the quadrants of its mask between the cores (y, x) and (x, y), where their classes
agree, and else leaves both latches and faults with subcode 0x07, as does every core where the sixteen commands differ; no
accumulator changes, and every command is queued no longer. A fault of the copy engine, as that of a misaligned destination with
the vector zero, is recorded with CE_IDX and CE_STATE. A request sent twice stands twice in its region's list, and a no-return
atomic that may arrive is applied once. -/
def Obligations.EngineStepsRun : Prop :=
  (∀ (s : State) (core : Nat) (v : VDispatch) (rest : List VDispatch), (getCore s core).vq = v :: rest →
    (let n : Fin 4 := ⟨v.strand % 4, Nat.mod_lt _ (by decide)⟩
     let regs (t : State) : Regs := (getStrand t core n).regs
     (∀ (d a b : BitVec 5) (m : BitVec 3) (t : BitVec 4) (f : Nat → Nat → Nat → Nat), wellFormed v.instr = true →
       laneResult v.instr = some (d, a, b, m, t, f) →
       ∃ u, exec (.vectorExecute core) s = .next u ∧ SameMemory s u ∧ OtherCoresSame core s u ∧ (getCore u core).vq = rest ∧
         (∀ k, k ≠ n → getStrand u core k = getStrand s core k) ∧ (regs u).s = (regs s).s ∧ (regs u).k = (regs s).k ∧
         (∀ r : Fin 32, r.val ≠ d.toNat → (regs u).v[r] = (regs s).v[r]) ∧
         (let w := typeWidth t
          let at_ (x : State) (r : BitVec 5) (e : Nat) := elemOf ((regs x).v[r.toNat]'r.isLt) w e
          let on (e : Nat) : Prop := m = 0#3 ∨ ((regs s).k[m.toNat]'m.isLt).getLsbD (e * w) = true
          ∀ e, e < 32 / w → (on e → at_ u d e = f (at_ s a e) (at_ s b e) (at_ s d e) % 2 ^ laneBits t) ∧ (¬on e → at_ u d e = at_ s d e))) ∧
     (∀ s1, vecEffect v.instr v.sv (vecCtx s core v) = .ok s1 →
       ∃ u, exec (.vectorExecute core) s = .next u ∧ u.mem = s1.mem ∧ (getCore u core).vq = rest ∧ regs u = regs s1))) ∧
  (∀ (s : State) (core : Nat) (c : Cmd) (rest : List Cmd), (getCore s core).mq = c :: rest → (getCore s core).regConf = [] →
    enginesRun s core = true → keepsViews s core c (matrixFoot (getCore s core).mx c).writes = true →
    (let mx := (getCore s core).mx
     let faulted (u : State) (sub : BitVec 8) (faddr : Word) : Prop :=
       ∃ f ∈ (getStrand u core (cmdStrand c)).late, f.eng = .matrix ∧ f.seq = c.seq ∧ f.sub = sub ∧ f.faddr = faddr
     (∀ n, c.instr = .mzero n → ∃ u, exec (.matrixCommandStart core) s = .next u ∧ Gone (getCore u core).mq c ∧ SameMemory s u ∧
       accOf (getCore u core).mx n = Vector.replicate 256 0#32 ∧ ∀ k, k ≠ n → accOf (getCore u core).mx k = accOf mx k) ∧
     (∀ w a b y x, c.instr = .mcfg w a b y x → ∃ u, exec (.matrixCommandStart core) s = .next u ∧ Gone (getCore u core).mq c ∧
       SameMemory s u ∧
       (getCore u core).mx =
         { mx with
           fmtA := if w.getLsbD 0 then x.setWidth 64 else mx.fmtA, stipA := if w.getLsbD 0 then a.setWidth 64 else mx.stipA
           fmtB := if w.getLsbD 1 then y.setWidth 64 else mx.fmtB, stipB := if w.getLsbD 1 then b.setWidth 64 else mx.stipB }) ∧
     (∀ n a b, c.instr = .mma n a b ∨ c.instr = .mmaz n a b →
       (let cls := classOf (fieldOf mx.fmtA 3 0)
        cls = .none ∨ cls ≠ mx.cls →
        ∃ u, exec (.matrixCommandStart core) s = .next u ∧ Gone (getCore u core).mq c ∧ SameMemory s u ∧ (getCore u core).mx = mx ∧
          faulted u 0x05#8 0#64)) ∧
     (¬ringExchange c.instr → ∀ sub faddr acc s1, runMatrix core c s = .error (.late sub faddr acc, s1) →
       ∃ u, exec (.matrixCommandStart core) s = .next u ∧ Gone (getCore u core).mq c ∧ u.mem = s1.mem ∧
         (getCore u core).mx = (getCore s1 core).mx ∧ faulted u (BitVec.ofNat 8 sub) faddr) ∧
     (ringExchange c.instr → unmatched s core = false →
       ∃ u c1 l, exec (.matrixCommandStart core) s = .next u ∧ (getCore u core).mq = c1 :: l ∧ c1 = { c with waiting := true } ∧
         SameMemory s u ∧ (getCore u core).mx = mx))) ∧
  (∀ (s : State) (cluster : Nat) (h : Nat → Cmd),
    (∀ p, p < 16 → (getCore s (cluster * 16 + p)).regConf = [] ∧ enginesRun s (cluster * 16 + p) = true ∧
      (h p).waiting = true ∧ ringExchange (h p).instr ∧ ∃ rest, (getCore s (cluster * 16 + p)).mq = h p :: rest) →
    (let at_ (y x : Nat) : Nat := cluster * 16 + 4 * y + x
     let mx (t : State) (y x : Nat) : Matrix := (getCore t (at_ y x)).mx
     let moved (t u : State) (y x y' x' : Nat) : Prop := (mx u y' x').latch = (mx t y x).latch ∧ (mx u y' x').cls = (mx t y x).cls
     let faulted (u : State) (y x : Nat) : Prop :=
       ∃ f ∈ (getStrand u (at_ y x) (cmdStrand (h (4 * y + x)))).late,
         f.eng = .matrix ∧ f.seq = (h (4 * y + x)).seq ∧ f.sub = 0x07#8 ∧ f.faddr = 0#64
     let round (u : State) : Prop := exec (.exchangeRound cluster) s = .next u ∧ SameMemory s u ∧
       ∀ y x, y < 4 → x < 4 → (mx u y x).acc = (mx s y x).acc ∧ Gone (getCore u (at_ y x)).mq (h (4 * y + x))
     (∀ k : BitVec 2, k ≠ 3#2 → (∀ p, p < 16 → (h p).instr = .mring k) →
       ∃ u, round u ∧
         (k = 1#2 → ∀ y x, y < 4 → x < 4 → moved s u y ((x + 3) % 4) y x) ∧
         (k = 2#2 → ∀ y x, y < 4 → x < 4 → moved s u ((y + 3) % 4) x y x) ∧
         (k = 0#2 → ∀ i, i < 16 →
           moved s u (ringPositions.getD i (0, 0)).1 (ringPositions.getD i (0, 0)).2 (ringPositions.getD ((i + 1) % 16) (0, 0)).1
             (ringPositions.getD ((i + 1) % 16) (0, 0)).2)) ∧
     (∀ q : BitVec 4, (∀ p, p < 16 → (h p).instr = .mswap q) →
       ∃ u, round u ∧ ∀ y x, y < 4 → x < 4 →
         ((mx s y x).cls ≠ (mx s x y).cls → moved s u y x y x ∧ faulted u y x) ∧
         ((mx s y x).cls = (mx s x y).cls → (mx u y x).cls = (mx s y x).cls ∧
           ∀ K, ((mx s y x).cls, K) ∈ [(MClass.none, 0), (.h, 32), (.e, 64), (.i, 64), (.q, 128)] →
             (mx s y x).latch.length = 16 * K → (mx s x y).latch.length = 16 * K →
             (mx u y x).latch.length = 16 * K ∧ ∀ k n, k < K → n < 16 →
               (mx u y x).latch[16 * k + n]? =
                 if q.getLsbD ((if k < K / 2 then 0 else 2) + if n < 8 then 0 else 1) then (mx s x y).latch[16 * k + n]?
                 else (mx s y x).latch[16 * k + n]?)) ∧
     ((∃ p r, p < 16 ∧ r < 16 ∧ (h p).instr ≠ (h r).instr) →
       ∃ u, round u ∧ ∀ y x, y < 4 → x < 4 → moved s u y x y x ∧ faulted u y x))) ∧
  (∀ (s : State) (core : Nat) (c : Cmd) (rest : List Cmd), (getCore s core).cq = c :: rest → copyMayRun s core c = true →
    c.ended = none → fieldOf c.a 63 60 ≠ 7 → c.read = none →
    (let stopped (u : State) (v : Nat → Nat) (sub : BitVec 8) (faddr : Word) : Prop :=
       Gone (getCore u core).cq c ∧ (getCore u core).ceState.getLsbD 63 = true ∧ fieldOf (getCore u core).ceState 55 48 = sub.toNat ∧
         (∀ j : Fin 5, (getCore u core).ceIdx[j] = BitVec.ofNat 64 (v j % 2 ^ 32)) ∧
         ∃ f ∈ (getStrand u core (cmdStrand c)).late, f.eng = .copy ∧ f.seq = c.seq ∧ f.sub = sub ∧ f.faddr = faddr
     (copyFn c.instr < 5 ∨ copyFn c.instr = 6 → completionOk s core c.guard c.c = true → (copyFn c.instr = 6 → fieldOf c.c 31 0 ≠ 0) →
       c.a.toNat % (copyShape c.instr c.eb).1 ≠ 0 → (∀ r ∈ (getCore s core).regAcc, r.2.1 = c.strand) →
       ∃ u, exec (.copyCommandStart core) s = .next u ∧ SameMemory s u ∧ stopped u (fun _ => 0) 0x03#8 c.a) ∧
     (∀ l s1 s2 v sub faddr acc ix, startCopy core c s = .ok (l, s1) → runCopy core c l s1 = (s2, some ((v, .late sub faddr acc), ix)) →
       (getCore s2 core).unacked = (getCore s core).unacked → (∀ r ∈ (getCore s2 core).regAcc, r.2.1 = c.strand) →
       ∃ u, exec (.copyCommandStart core) s = .next u ∧ u.mem = s2.mem ∧ stopped u (fun j => v.toList.getD j 0) (BitVec.ofNat 8 sub) faddr))) ∧
  (∀ (s : State) (idx id : Nat) (a : AtomReq), (allAtoms s)[idx]? = some (id, a) →
    (∃ u, exec (.atomicReplay idx) s = .next u ∧ SameMemory s u ∧
      ((getRegion? s id).isSome → (getRegion u id).atoms.length = (getRegion s id).atoms.length + 1 ∨ a ∉ (getRegion s id).atoms)) ∧
    (mayArrive a (getRegion s id).atoms = true → Memory.wf s.mem = true →
      (let n : Nat := if a.wide then 8 else 4
       let seen : Prop := (a.core, a.count) ∈ (getPackage s (homePkg a)).applied
       a.operand.toNat < 2 ^ (8 * n) →
       ∃ u, exec (.noReturnAtomicApply idx) s = .next u ∧ (getRegion u id).atoms = (getRegion s id).atoms.erase a ∧
         (seen → SameMemory s u) ∧
         (¬seen → SameMemoryBut a.key n s u ∧
           memNat u.mem a.key n = atomicResult a.op (8 * n) (memNat s.mem a.key n) a.operand.toNat ∧
           (a.core, a.count) ∈ (getPackage u (homePkg a)).applied))))

/-- A matrix command at the head of its queue, whose core works and whose accesses no other access conflicts with, completes where
its format has a class and it reaches its bytes; it is queued no longer, and nothing of the unit or of memory changes but what
is named. MMA and MMAZ set every element of their accumulator: for INT8 to the old one, or zero, plus the exact sum of the 64
products of signed integers, modulo 2^32; for the other classes to the FP32 value reached from the old one, or +0, by adding in
ascending k the exact sum of each eight products, scaled by 2^GS and rounded once, with one rounding each. MLDB latches B(k, n)
from row k of a stored tile and MLDBT from row n, with the class of the format. The elements are those of the stored tile, plain
or stippled with the scale bytes and the view named. MLDACC and MSTACC move 256 words bit for bit. MSTACCQ stores the
accumulator saturated to INT8, or rounded once, or quantised for the view's positions in words of eight or byte by byte. -/
def Obligations.MatrixCommandsCompute : Prop :=
  ∀ (s : State) (core : Nat) (c : Cmd) (rest : List Cmd), (getCore s core).mq = c :: rest → (getCore s core).regConf = [] →
    enginesRun s core = true → keepsViews s core c (matrixFoot (getCore s core).mx c).writes = true → CmdQuiet s core c →
    Memory.wf s.mem = true →
    (let mx := (getCore s core).mx
     let classes : List (Nat × MClass) := [(0x9, .h), (0xA, .e), (0xB, .e), (0xD, .e), (0x0, .i), (0xC, .q)]
     let done (u : State) : Prop := exec (.matrixCommandStart core) s = .next u ∧ Gone (getCore u core).mq c
     let accSet (u : State) (n : BitVec 2) (v : Vector Word32 256) : Prop := (getCore u core).mx = { mx with acc := mx.acc.set n.toNat v n.isLt }
     (∀ (n : BitVec 2) (a b : BitVec 5) (zero : Bool) (f : Nat) (row scale : Nat → Place) (D : ViewDesc) (ix : Nat → Nat) (L : Nat → Nat → Val),
       c.instr = (if zero then .mmaz n a b else .mma n a b) → fieldOf mx.fmtA 3 0 = f → (f, mx.cls) ∈ classes →
       TileReached s core c f 16 (tileK f) 64 (b = 0#5) mx.scaleA (svOf c (fieldOf mx.stipA 2 0)) row scale D ix →
       (∀ k j, k < tileK f → j < 16 → mx.latch[16 * k + j]? = some (L k j)) →
       ∃ u v, done u ∧ SameMemory s u ∧ accSet u n v ∧
         ∀ (i j : Nat) (hk : 16 * i + j < 256), i < 16 → j < 16 →
           (let old : Word32 := if zero then 0#32 else (accOf mx n)[16 * i + j]
            let A (k : Nat) : Val := tileElem s.mem f row scale D ix (tileK f) i k
            (f = 0 → ∀ bl : Nat → Int, (∀ k, k < 64 → L k j = intVal (bl k)) →
              v[16 * i + j] = BitVec.ofInt 32 (old.toInt +
                ((List.range 64).map fun k => (BitVec.ofNat 8 (memNat s.mem ((row i).key + k) 1)).toInt * bl k).sum)) ∧
            (f ≠ 0 → v[16 * i + j] = BitVec.ofNat 32 (accumulated (fun g => productSum ((List.range 8).map fun k =>
              valScale (valMul (A (8 * g + k)) (L (8 * g + k) j)) (mx.link.ga.toInt + mx.link.gb.toInt))) old.toNat (tileK f / 8))))) ∧
     (∀ (a b : BitVec 5) (transposed : Bool) (f : Nat) (cls : MClass) (row scale : Nat → Place) (D : ViewDesc) (ix : Nat → Nat),
       c.instr = (if transposed then .mldbt a b else .mldb a b) → fieldOf mx.fmtB 3 0 = f → (f, cls) ∈ classes →
       (let K := tileK f
        let sv := svOf c (fieldOf mx.stipB 2 0)
        (if transposed then TileReached s core c f 16 K 64 (b = 0#5) mx.scaleB sv row scale D ix
         else TileReached s core c f K 16 16 (b = 0#5) mx.scaleB sv row scale D ix) →
        ∃ u l, done u ∧ SameMemory s u ∧ (getCore u core).mx = { mx with latch := l, cls := cls } ∧ l.length = 16 * K ∧
          ∀ k n, k < K → n < 16 →
            l[16 * k + n]? = some (if transposed then tileElem s.mem f row scale D ix K n k else tileElem s.mem f row scale D ix 16 k n))) ∧
     (∀ (n : BitVec 2) (a : BitVec 5) (row : Nat → Place), c.instr = .mldacc n a →
       (∀ r, r < 16 → CmdReaches s core c (c.a + BitVec.ofNat 64 (64 * r)) 64 64 false (row r)) →
       ∃ u v, done u ∧ SameMemory s u ∧ accSet u n v ∧
         ∀ i j (hk : 16 * i + j < 256), i < 16 → j < 16 → v[16 * i + j].toNat = memNat s.mem ((row i).key + 4 * j) 4) ∧
     (∀ (n : BitVec 2) (a : BitVec 5) (key : Nat), c.instr = .mstacc n a → CmdWrites s core c c.a 1024 64 key →
       ∃ u, done u ∧ SameMemoryBut key 1024 s u ∧ (getCore u core).mx = mx ∧
         ∀ i : Fin 256, memNat u.mem (key + 4 * i) 4 = ((accOf mx n)[i]).toNat) ∧
     (∀ (n : BitVec 2) (a b : BitVec 5) (g : BitVec 3) (t : BitVec 4) (key : Nat), c.instr = .mstaccq n a b g t →
       t ∈ [0x0#4, 0x9#4, 0xA#4, 0xB#4] → CmdWrites s core c c.a (256 * typeWidth t) 64 key →
       ∃ u, done u ∧ SameMemoryBut key (256 * typeWidth t) s u ∧ (getCore u core).mx = mx ∧
         ∀ i : Fin 256,
           (t = 0x0#4 → memNat u.mem (key + i) 1 = (max (-128) (min 127 ((accOf mx n)[i]).toInt) % 256).toNat) ∧
           (∀ f, floatOf t = some f →
             memNat u.mem (key + typeWidth t * i) (typeWidth t) = rneFloat f (floatVal .f32 ((accOf mx n)[i]).toNat))) ∧
     (∀ (n : BitVec 2) (a b : BitVec 5) (g : BitVec 3) (t : BitVec 4) (dp : Place) (D : ViewDesc) (ix : Nat → Nat) (scale : Nat → Place) (key : Nat),
       c.instr = .mstaccq n a b g t → t ∈ [0xC#4, 0xD#4] → CmdReaches s core c (BitVec.ofNat 64 (descAddr (svOf c g.toNat))) 128 128 false dp →
       parseView (readBytes s.mem dp.key 128) t = some D → D.skip = 0 → 256 ≤ viewSize D → (∀ p, p < 256 → viewIndex D p = some (ix p)) →
       (∀ i, i < 8 → fieldOf (c.b + BitVec.ofNat 64 i) 63 60 ≤ 1 ∧ CmdReaches s core c (c.b + BitVec.ofNat 64 i) 1 1 false (scale i)) →
       (let size := if t = 0xC#4 then 128 else 256
        let x (i : Nat) : Val := floatVal .f32 (((accOf mx n).toList.getD i 0#32).toNat)
        let e (i : Nat) : Nat := memNat s.mem (scale (i / 32)).key 1
        CmdWrites s core c c.a size 64 key →
        ∃ u, done u ∧ SameMemoryBut key size s u ∧ (getCore u core).mx = mx ∧
          (t = 0xD#4 → ∀ i, i < 256 → memNat u.mem (key + i) 1 = quantiseQ8 (x i) (e i) D.seed (ix i) D.zp % 256) ∧
          (t = 0xC#4 → ∀ j, j < 32 → memNat u.mem (key + 4 * j) 4 =
            quantiseQ4X ((List.range 8).map fun k => x (8 * j + k)) (e (8 * j)) D.seed ((List.range 8).map fun k => ix (8 * j + k)) D.zp %
              2 ^ 32))))

/-- A copy command that is to start, whose operands pass the check of R287 and whose accesses find their bytes, conflict with no
other access and write no host memory and no page table they go through, completes: CPY, CPYD and CPYHO store at each iteration
vector, level 0 fastest, the element its strides name in the source, CPYG and CPYS take the source or destination row from the
index list, with zeros or nothing where the index is 0xFFFFFFFF, and CPYF stores its fill value; each element is read as the
ones before it have left memory; CPYR stores for each unit of its destination view the source values quantised with the scale
byte of the unit. No other byte changes but the completion word, which holds CVAL where one is named, as a handoff that orders
any waiter only for CPYHO; a group with a zero count moves nothing and completes. -/
def Obligations.CopyCommandsMove : Prop :=
  (∀ (s : State) (core : Nat) (c : Cmd) (rest : List Cmd) (x : Nat → Nat) (dst src row : List Nat → Place), CopyStarts s core c rest →
    copyFn c.instr < 5 ∨ copyFn c.instr = 6 → fieldOf c.a 63 60 ≠ 7 →
    (let fn := copyFn c.instr
     let e := (copyShape c.instr c.eb).1
     let lv := (copyShape c.instr c.eb).2
     let vs := vectorsOf (lv.map fun l => l.cnt)
     let W (a : Nat) : Prop := ∃ i ∈ vs, (copyMove c e lv x i).isSome = true ∧ (dst i).key ≤ a ∧ a < (dst i).key + e
     let element (i : List Nat) (m : Word × Option Word) : Nat × ((Nat → Byte) → Nat → Byte) :=
       ((dst i).key, fun mem j =>
         match m.2 with
         | none => if fn = 4 then BitVec.ofNat 8 (c.b.toNat / 256 ^ j) else 0#8
         | some _ => if (src i).readOnly then memRead (regionOf s core).memPhase ((src i).key + j) else mem ((src i).key + j))
     (fn = 6 → fieldOf c.c 31 0 ≠ 0) → c.a.toNat % e = 0 → (fn ≠ 4 → c.b.toNat % e = 0) →
     (fn = 2 ∨ fn = 3 → fieldOf c.eb[15] 63 60 ≤ 1 ∧ c.eb[15].toNat % 4 = 0 ∧ (∀ l ∈ lv.drop 2, l.cnt = 1) ∧
       ∀ i ∈ vs, CmdSource s core c W (c.eb[15] + BitVec.ofNat 64 (4 * i.getD 1 0)) 4 (row i) ∧
         leNat (sourceBytes s core (row i) 4) = x (i.getD 1 0)) →
     (∀ i ∈ vs, ∀ m, copyMove c e lv x i = some m →
       CmdTarget s core c W m.1 e e (dst i) ∧ ∀ va, m.2 = some va → CmdFinds s core c W va e e false (src i)) →
     ∃ u, exec (.copyCommandStart core) s = .next u ∧ Gone (getCore u core).cq c ∧ CompletionMade u core c.c (decide (fn = 6)) ∧
       ∀ a, (∀ r ∈ completionBytes core c.c, a < r.1 ∨ r.1 + r.2 ≤ a) →
         memRead u.mem a = stored e (vs.filterMap fun i => (copyMove c e lv x i).map (element i)) (memRead s.mem) a)) ∧
  (∀ (s : State) (core : Nat) (c : Cmd) (rest : List Cmd) (dp sp : Place) (d g : ViewDesc) (ix : Nat → Nat) (y : Nat → Val)
     (scale dst : Nat → Place), CopyStarts s core c rest → copyFn c.instr = 5 → fieldOf c.a 63 60 ≠ 7 →
    (let sf := recode c 11 8
     let n := recode c 47 16
     let q4 : Prop := d.fmt = 0xC#4
     let unit := if d.fmt = 0xC#4 then 8 else 1
     let size := if d.fmt = 0xC#4 then 4 else 1
     let W (a : Nat) : Prop := ∃ p, p < n ∧ p % unit = 0 ∧ (dst p).key ≤ a ∧ a < (dst p).key + size
     recodeBad c.eb[14] = false →
     CmdReaches s core c (viewAt c (recode c 6 4)) 128 128 false dp →
     (∃ fmt : BitVec 4, fmt.toNat = memNat s.mem (dp.key + 8) 1 % 16 ∧ parseView (readBytes s.mem dp.key 128) fmt = some d) →
     (sf = 0xC ∨ sf = 0xD → CmdReaches s core c (viewAt c (recode c 2 0)) 128 128 false sp ∧
       parseView (readBytes s.mem sp.key 128) (BitVec.ofNat 4 sf) = some g) →
     (q4 → d.skip % 8 = 0 ∧ n % 8 = 0) → c.a.toNat % (if d.fmt = 0xC#4 then 16 else 32) = 0 →
     c.b.toNat % (if sf = 0xC then 16 else if sf = 0xD then 32 else if sf = 0x8 then 4 else if sf = 0x9 then 2 else 1) = 0 →
     (∀ p, p < n → viewIndex d p = some (ix p) ∧ RecodeSource s core c W g p (y p)) →
     (∀ p, p < n → p % unit = 0 → CmdSource s core c W (c.eb[13] + BitVec.ofNat 64 ((d.skip + p) / 32)) 1 (scale p) ∧
       CmdTarget s core c W (c.a + BitVec.ofNat 64 (if d.fmt = 0xC#4 then 4 * ((d.skip + p) / 8) else d.skip + p)) size size (dst p)) →
     ∃ u, exec (.copyCommandStart core) s = .next u ∧ Gone (getCore u core).cq c ∧ CompletionMade u core c.c false ∧
       ∀ a, (∀ r ∈ completionBytes core c.c, a < r.1 ∨ r.1 + r.2 ≤ a) →
         memRead u.mem a = stored size (((List.range n).filter fun p => p % unit = 0).map fun p =>
           ((dst p).key, fun _ j =>
             let e := leNat (sourceBytes s core (scale p) 1)
             let code := if d.fmt = 0xC#4 then
                 quantiseQ4X ((List.range 8).map fun k => y (p + k)) e d.seed ((List.range 8).map fun k => ix (p + k)) d.zp
               else quantiseQ8 (y p) e d.seed (ix p) d.zp
             BitVec.ofNat 8 (code / 256 ^ j))) (memRead s.mem) a))

/-- A selvedge command that is to start, whose block, context and tables it can read and are as R381 and R384 to R389 admit and
whose accesses conflict with no other, completes, with its completion write (R401) and no byte changed but those named. PDAINIT
writes the context of the start state with the initial symbols, or the one of a saved record, and its state and accept bit in
STATUS; PDAMASK the mask bits of its tokens, zeros to the end of the last dword, and their number; PDASAVE the record, padded to
a dword, and its length, where the record goes to paths 0x0 to 0x2; PDASTEP, by the first check that holds, code 1 where the
token is not legal, 2 where the stack has too few symbols, 3 where it would exceed 1,024, 4 where the next state is dead, each
with nothing written but STATUS, and else the next context with its pushed symbols. -/
def Obligations.AutomatonCommandsWrite : Prop :=
  ∀ (s : State) (core : Nat) (c : Cmd) (rest : List Cmd) (bp : Place), SelvedgeStarts s core c rest bp →
    (let B (i : Nat) : Nat := memNat s.mem (bp.key + 8 * i) 8
     let va (i : Nat) : Word := BitVec.ofNat 64 (B i)
     let kept : List (Nat × Nat) := (bp.key + 0x38, 8) :: completionBytes core c.b
     let ends (status : Nat) (out : List (Nat × Nat)) (Q : State → Prop) : Prop :=
       ∃ u, exec (.selvedgeCommandStart core) s = .next u ∧ SelvedgeEnds s u core c bp status out ∧ Q u
     let header (u : State) (key table state depth steps : Nat) : Prop := Apart key 64 kept →
       memNat u.mem key 8 = table ∧ memNat u.mem (key + 8) 4 = state ∧ memNat u.mem (key + 12) 4 = depth ∧ memNat u.mem (key + 16) 8 = steps ∧
         memNat u.mem (key + 24) 40 = 0
     let symbol (u : State) (key j x : Nat) : Prop := Apart (key + 0x40 + 2 * j) 2 kept → memNat u.mem (key + 0x40 + 2 * j) 2 = x
     let accept (lo : Nat) : Nat := lo / 2 ^ 34 % 2
     let dead (lo : Nat) : Prop := lo / 2 ^ 35 % 2 = 1
     (∀ (a b : BitVec 5) (g : Nat → Nat) (lo hi key : Nat), c.instr = .pdainit a b 0#1 → (∀ i, 2 ≤ i → i ≤ 6 → B i = 0) →
       fieldOf (va 0) 63 60 = 0 → HeaderAt s core c (va 1) g →
       (let n := g 2 / 2 ^ 32
        let sym (j : Nat) : Nat := g 3 / 2 ^ (16 * j) % 2 ^ 16
        (∀ j, j < n → 1 ≤ sym j ∧ sym j < g 1 / 2 ^ 32) → StateAt s core c g (g 2 % 2 ^ 32) lo hi → ¬dead lo →
        CmdWrites s core c (va 0) 64 64 key → CmdWrites s core c (va 0 + 0x40#64) (2 * n) 2 (key + 0x40) →
        ends (g 2 % 2 ^ 32 * 2 ^ 32 + accept lo * 256) [(key, 64 + 2 * n)] fun u =>
          header u key (B 1) (g 2 % 2 ^ 32) n 0 ∧ ∀ j, j < n → symbol u key j (sym j))) ∧
     (∀ (a b : BitVec 5) (w st g : Nat → Nat) (lo hi key : Nat), c.instr = .pdainit a b 1#1 → (∀ i, 2 ≤ i → i ≤ 6 → B i = 0) →
       fieldOf (va 0) 63 60 = 0 → fieldOf (va 1) 63 60 ≠ 7 → B 1 % 8 = 0 → ContextAt s core c (va 1) w st g →
       StateAt s core c g (w 1 % 2 ^ 32) lo hi →
       (let n := w 1 / 2 ^ 32
        CmdWrites s core c (va 0) 64 64 key → CmdWrites s core c (va 0 + 0x40#64) (2 * n) 2 (key + 0x40) →
        ends (w 1 % 2 ^ 32 * 2 ^ 32 + accept lo * 256) [(key, 64 + 2 * n)] fun u =>
          header u key (w 0) (w 1 % 2 ^ 32) n (w 2) ∧ ∀ j, j < n → symbol u key j (st j))) ∧
     (∀ (a b : BitVec 5) (w st g : Nat → Nat) (key : Nat), c.instr = .pdasave a b → (∀ i, 2 ≤ i → i ≤ 6 → B i = 0) →
       fieldOf (va 0) 63 60 = 0 → B 0 % 64 = 0 → ContextAt s core c (va 0) w st g →
       (let n := w 1 / 2 ^ 32
        let len := 64 + (2 * n + 7) / 8 * 8
        CmdWrites s core c (va 1) len 8 key →
        ends (len * 2 ^ 32) [(key, len)] fun u =>
          header u key (w 0) (w 1 % 2 ^ 32) n (w 2) ∧ (∀ j, j < n → symbol u key j (st j)) ∧
            ∀ j, n ≤ j → 2 * j < len - 64 → symbol u key j 0)) ∧
     (∀ (a b : BitVec 5) (w st g : Nat → Nat) (lo hi row key : Nat) (bit : Nat → Bool), c.instr = .pdamask a b →
       (∀ i, 4 ≤ i → i ≤ 6 → B i = 0) → 1 ≤ B 3 → B 3 ≤ 16384 → B 2 + B 3 ≤ 2 ^ 19 → fieldOf (va 0) 63 60 = 0 → B 0 % 64 = 0 →
       fieldOf (va 1) 63 60 ≤ 1 → ContextAt s core c (va 0) w st g → StateAt s core c g (w 1 % 2 ^ 32) lo hi →
       RowAt s core c g w st lo row → (∀ i, i < B 3 → MaskBitIs s core c g row (B 2 + i) (bit i = true)) →
       (let len := (B 3 + 63) / 64 * 8
        CmdWrites s core c (va 1) len 8 key →
        ends ((List.range (B 3)).countP bit * 2 ^ 32) [(key, len)] fun u =>
          Apart key len kept → ∀ i, i < 8 * len → (memRead u.mem (key + i / 8)).getLsbD (i % 8) = (decide (i < B 3) && bit i))) ∧
     (∀ (a b : BitVec 5) (w st g : Nat → Nat) (lo hi row : Nat) (bit : Bool) (e : Nat → Nat), c.instr = .pdastep a b → B 1 = 0 →
       (∀ i, 3 ≤ i → i ≤ 6 → B i = 0) → B 2 < 2 ^ 32 → fieldOf (va 0) 63 60 = 0 → B 0 % 64 = 0 → ContextAt s core c (va 0) w st g →
       StateAt s core c g (w 1 % 2 ^ 32) lo hi → RowAt s core c g w st lo row → MaskBitIs s core c g row (B 2) (bit = true) →
       (bit = true → ∀ i, i < hi / 2 ^ 32 →
         CmdReads s core c (BitVec.ofNat 64 (g 6 + 8 * (hi % 2 ^ 32 + i))) 8 (e i) ∧ e i % 2 ^ 20 ≤ e i / 2 ^ 20 % 2 ^ 20) →
       (let found : Option Nat := if bit then searched e (B 2) 33 0 ((hi / 2 ^ 32 : Nat) - 1 : Int) else none
        let stop (code : Nat) : Prop := ends (w 1 % 2 ^ 32 * 2 ^ 32 + accept lo * 256 + code) [] fun _ => True
        (found = none → stop 1) ∧
        (∀ i p q, found = some i → CmdReads s core c (BitVec.ofNat 64 (g 7 + 16 * i)) 8 p →
          CmdReads s core c (BitVec.ofNat 64 (g 7 + 16 * i + 8)) 8 q → p / 2 ^ 26 = 0 →
          (let npush := p / 2 ^ 23 % 8
           let npop := p / 2 ^ 20 % 8
           let sym (j : Nat) : Nat := q / 2 ^ (16 * j) % 2 ^ 16
           let n := w 1 / 2 ^ 32
           npush ≤ 4 → npop ≤ 4 → (∀ j, j < npush → 1 ≤ sym j ∧ sym j < g 1 / 2 ^ 32) →
           (n < npop → stop 2) ∧ (npop ≤ n → 1024 < n - npop + npush → stop 3) ∧
           (npop ≤ n → n - npop + npush ≤ 1024 → ∀ lo' hi', StateAt s core c g (p % 2 ^ 20) lo' hi' →
             (dead lo' → stop 4) ∧
             (¬dead lo' → ∀ key, CmdWrites s core c (va 0) 64 64 key →
               CmdWrites s core c (va 0 + BitVec.ofNat 64 (0x40 + 2 * (n - npop))) (2 * npush) 2 (key + 0x40 + 2 * (n - npop)) →
               ends (p % 2 ^ 20 * 2 ^ 32 + accept lo' * 256) [(key, 64), (key + 0x40 + 2 * (n - npop), 2 * npush)] fun u =>
                 header u key (w 0) (p % 2 ^ 20) (n - npop + npush) ((w 2 + 1) % 2 ^ 64) ∧
                   ∀ j, j < npush → symbol u key (n - npop + j) (sym j))))))))

/-- A sampling command that is to start, whose operands are as R381 admits, whose arrays it can read and whose accesses conflict
with no other, completes, with its completion write and no byte changed but those named. SAMPLEP includes the tokens whose mask
bit is set, or all without a mask, and whose logit times TAU, rounded once, is neither NaN nor -infinity, with +infinity as the
largest finite value; its record holds their number, the largest of those values or -infinity, K, and, but for a scan, the sum
of their weights and the first K of those of weight above zero by weight, then token, where no value exceeds GMAX; the weight is
an entry of the table of rounded powers of two, shifted, or zero. SAMPLEF orders the candidates of all its records by weight,
then token, keeps the first K, of these the least number whose weight reaches the share TOPP, and draws in the order of tokens
with the number mixed from SEED, STREAM and STEP; code 5 where no token was legal and 6 where there is no candidate. -/
def Obligations.SamplingCommandsWrite : Prop :=
  ∀ (s : State) (core : Nat) (c : Cmd) (rest : List Cmd) (bp : Place), SelvedgeStarts s core c rest bp →
    (let B (i : Nat) : Nat := memNat s.mem (bp.key + 8 * i) 8
     let va (i : Nat) : Word := BitVec.ofNat 64 (B i)
     let kept : List (Nat × Nat) := (bp.key + 0x38, 8) :: completionBytes core c.b
     let ends (status : Nat) (out : List (Nat × Nat)) (Q : State → Prop) : Prop :=
       ∃ u, exec (.selvedgeCommandStart core) s = .next u ∧ SelvedgeEnds s u core c bp status out ∧ Q u
     let before (a b : Nat × Nat) : Prop := b.2 < a.2 ∨ a.2 = b.2 ∧ a.1 < b.1
     let weights (l : List (Nat × Nat)) : Nat := (l.map fun x => x.2).sum
     (∀ (a b : BitVec 5) (scan : BitVec 1) (x mw : Nat → Nat) (key : Nat), c.instr = .samplep a b scan →
       (let n := B 3
        let tau := B 4 % 2 ^ 32
        let kk := B 5
        let f (z : Nat) : Val := floatVal .f32 z
        let z (i : Nat) : Option Nat :=
          if B 1 = 0 ∨ mw (i / 64) / 2 ^ (i % 64) % 2 = 1 then
            match f (rneFloat .f32 (valMul (f (x i)) (f tau))) with
            | .nan => none
            | .inf true => none
            | .inf false => some 0x7F7FFFFF
            | _ => some (rneFloat .f32 (valMul (f (x i)) (f tau)))
          else none
        let legal := (List.range n).countP fun i => (z i).isSome
        let record (u : State) (sum maxz : Nat) (cands : List (Nat × Nat)) : Prop := Apart key 536 kept →
          memNat u.mem key 8 = sum ∧ memNat u.mem (key + 8) 4 = legal ∧ memNat u.mem (key + 12) 4 = maxz ∧
            memNat u.mem (key + 16) 1 = cands.length ∧ memNat u.mem (key + 17) 1 = kk ∧ memNat u.mem (key + 18) 6 = 0 ∧
            (∀ j t w, cands[j]? = some (t, w) → memNat u.mem (key + 24 + 8 * j) 4 = w ∧ memNat u.mem (key + 28 + 8 * j) 4 = t) ∧
            ∀ j, cands.length ≤ j → j < 64 → memNat u.mem (key + 24 + 8 * j) 8 = 0
        1 ≤ n → n ≤ 16384 → B 2 + n ≤ 2 ^ 19 → 1 ≤ kk → kk ≤ 64 → (∃ m p, f tau = .fin m p ∧ 0 < m) →
        fieldOf (va 0) 63 60 ≤ 1 → B 0 % 4 = 0 → fieldOf (va 1) 63 60 ≤ 1 → B 1 % 8 = 0 → fieldOf (va 6) 63 60 ≤ 1 →
        (∀ i, i < n → CmdReads s core c (va 0 + BitVec.ofNat 64 (4 * i)) 4 (x i) ∧
          (B 1 ≠ 0 → CmdReads s core c (va 1 + BitVec.ofNat 64 (8 * (i / 64))) 8 (mw (i / 64)))) →
        CmdWrites s core c (va 6) 536 8 key →
        ∀ maxz, (legal = 0 → maxz = 0xFF800000) →
          (legal ≠ 0 → (∃ i, i < n ∧ z i = some maxz) ∧ ∀ i y, i < n → z i = some y → valBelow (f maxz) (f y) = false) →
          (scan = 1#1 → ends (legal * 2 ^ 32) [(key, 536)] fun u => record u 0 maxz []) ∧
          (scan = 0#1 → isNaN (f (B 4 / 2 ^ 32)) = false → f (B 4 / 2 ^ 32) ≠ .inf false →
            (∀ i y, i < n → z i = some y → valLt (f (B 4 / 2 ^ 32)) (f y) = false) → ∀ T, IsWeightTable T →
            (let wt (i : Nat) : Nat :=
               match z i with
               | none => 0
               | some y =>
                 let v := (Int.floor ((valRat (f (B 4 / 2 ^ 32)) - valRat (f y)) * 0xB8AA3B29 / 2 ^ 23)).toNat
                 if 8192 ≤ v then 0 else T (v % 256) / 2 ^ (v / 256)
             ∀ all : List (Nat × Nat), all.Pairwise before →
               (∀ p, p ∈ all ↔ ∃ i, i < n ∧ 0 < wt i ∧ p = (B 2 + i, wt i)) →
               ends (legal * 2 ^ 32) [(key, 536)] fun u => record u ((List.range n).map wt).sum maxz (all.take kk))))) ∧
     (∀ (a b : BitVec 5) (sum lm ck : Nat → Nat) (tok wt : Nat → Nat → Nat), c.instr = .samplef a b →
       (let nrec := B 1
        let kk := B 2 % 2 ^ 32
        let stride := B 2 / 2 ^ 32
        let topp := B 3
        let at_ (r off : Nat) : Word := va 0 + BitVec.ofNat 64 (r * stride + off)
        let count (r : Nat) : Nat := ck r % 256
        let legal := ((List.range nrec).map fun r => lm r % 2 ^ 32).sum
        let mass := ((List.range nrec).map sum).sum
        1 ≤ nrec → nrec ≤ 64 → 1 ≤ kk → kk ≤ 64 → 536 ≤ stride → stride < 2 ^ 16 → stride % 8 = 0 → 1 ≤ topp → topp ≤ 65536 →
        fieldOf (va 0) 63 60 ≤ 1 → B 0 % 8 = 0 →
        (∀ r, r < nrec → CmdReads s core c (at_ r 0) 8 (sum r) ∧ CmdReads s core c (at_ r 8) 8 (lm r) ∧ CmdReads s core c (at_ r 0x10) 8 (ck r) ∧
          kk ≤ ck r / 256 % 256 ∧ count r ≤ ck r / 256 % 256 ∧ ck r / 256 % 256 ≤ 64 ∧
          ∀ j, j < count r → CmdReads s core c (at_ r (0x18 + 8 * j)) 4 (wt r j) ∧ CmdReads s core c (at_ r (0x1C + 8 * j)) 4 (tok r j) ∧
            0 < wt r j) →
        (∀ r j r' j', r < nrec → j < count r → r' < nrec → j' < count r' → tok r j = tok r' j' → r = r' ∧ j = j') →
        (let none_ (code : Nat) : Prop := ends (0xFFFFFFFF * 2 ^ 32 + code) [] fun _ => True
         (legal = 0 → none_ 5) ∧ (legal ≠ 0 → (∀ r, r < nrec → count r = 0) → none_ 6) ∧
         (legal ≠ 0 → ∀ all : List (Nat × Nat), all ≠ [] → all.Pairwise before →
           (∀ p, p ∈ all ↔ ∃ r j, r < nrec ∧ j < count r ∧ p = (tok r j, wt r j)) →
           (let cs := all.take kk
            ∀ m, 1 ≤ m → m ≤ cs.length → (topp * mass ≤ 65536 * weights (cs.take m) ∨ m = cs.length) →
              (∀ k, 1 ≤ k → k < m → 65536 * weights (cs.take k) < topp * mass) →
              ∀ pre post t w, (pre ++ (t, w) :: post).Perm (cs.take m) → (pre ++ (t, w) :: post).Pairwise (fun p q => p.1 < q.1) →
                (let h := (mix64 (mix64 (va 4) (va 5)) (va 6)).toNat * weights (cs.take m) / 2 ^ 64
                 weights pre ≤ h → h < weights pre + w → ends (t * 2 ^ 32 + m * 2 ^ 16) [] fun _ => True)))))))

/-- Where the conditions of the step hold: C done is recorded; C close is observed package by package, and at the last the T phase
begins with the transactions numbered from 0; T close begins the X phase; the request vote leaves no request or message queued;
a deferred store puts its bytes in memory and leaves the queue; with nothing to abort, kill or report, the barrier begins the
next superstep, or ends the region when every control strand voted and no restart is pending. A lock request is queued; it is
granted exactly when every lower-numbered request for the tile is removed or both are shared; the push of a die SRAM tile copies
it into a landing block that lies in TCM and in no guard granule; a dispatched body without check words starts with its block,
number and arguments in its registers. That the T phase begins for the whole region with the last package is the model's reading
(log entry 42), and so is that a deferred store reaches the place its address had at issue (log entry 44). Pushes of device-
memory tiles and bodies with check words are not stated. -/
def Obligations.PhaseAndLockSteps : Prop :=
  (∀ (s : State) (core id : Nat), (getCore s core).region = some id →
    (let x := getCore s core
     let r := getRegion s id
     let t := coreStrand x 0
     r.state = .running → r.phase = .c → x.taken = false → x.cdone = false →
     t.live = true → t.wait = .barrier → t.released = false →
     (coreStrand x 1).live = false → (coreStrand x 2).live = false → (coreStrand x 3).live = false →
     x.mq = [] → x.cq = [] → x.sq = [] → x.vq = [] →
     ∃ u, exec (.cDone core) s = .next u ∧ (getCore u core).cdone = true ∧ SameMemory s u ∧ u.regions = s.regions ∧
       OtherCoresSame core s u)) ∧
  (∀ (s : State) (id pkg : Nat),
    (let r := getRegion s id
     (canCClose s r pkg = true → (∃ p ∈ livePkgs r, p ≠ pkg ∧ p ∉ r.closed) →
       ∃ u, exec (.cClose id pkg) s = .next u ∧ (getRegion u id).closed = r.closed ++ [pkg] ∧ (getRegion u id).phase = .c ∧
         SameMemory s u ∧ u.cores = s.cores) ∧
     (canCClose s r pkg = true → (∀ p ∈ livePkgs r, p = pkg ∨ p ∈ r.closed) →
       ∃ u, exec (.cClose id pkg) s = .next u ∧ (getRegion u id).phase = .t ∧ (getRegion u id).restarts = [] ∧
         ∀ (i : Nat) (t : Txn), (getRegion u id).txns[i]? = some t → t.num = i) ∧
     (canTClose s r = true → ∃ u, exec (.tClose id) s = .next u ∧ (getRegion u id).phase = .x1 ∧ (getRegion u id).xfers = []) ∧
     (r.state = .running → r.phase = .x1 →
       ∃ u, exec (.requestVote id) s = .next u ∧ (getRegion u id).phase = .x2 ∧
         ∀ c ∈ heldCores s id, (getCore u c).seqReqs = [] ∧ (getCore u c).msgs = []) ∧
     (∀ d, r.state = .running → r.phase = .x2 → nextDeferred s (heldCores s id) = some d → Memory.wf s.mem = true →
       ∃ u, exec (.deferredStorePerform id) s = .next u ∧ readBytes u.mem d.key d.bytes.length = d.bytes ∧
         SameMemoryBut d.key d.bytes.length s u ∧ (getCore u d.core).deferred = (getCore s d.core).deferred.erase d) ∧
     (canExit s r = true → r.abortDue = false → r.killReq = false → r.xlog = [] → r.guards = [] →
       ((∀ c ∈ heldCores s id, (getCore s c).vote = true) → r.restarts = [] → r.launch.isSome →
         ∃ u, exec (.barrierExit id) s = .next u ∧ (getRegion u id).state = .idle ∧ (getRegion u id).launch = none) ∧
       (¬((∀ c ∈ heldCores s id, (getCore s c).vote = true) ∧ r.restarts = []) →
         ∃ u, exec (.barrierExit id) s = .next u ∧ (getRegion u id).superstep = r.superstep + 1#64 ∧ (getRegion u id).phase = .c)))) ∧
  (∀ (s : State) (id num i : Nat) (t : Txn) (q : LockReq), findTxn (getRegion s id) num = some t → t.reqs[i]? = some q →
    (let r := getRegion s id
     let becomes (u : State) (st : ReqStatus) : Prop :=
       ∃ t', findTxn (getRegion u id) num = some t' ∧ ∀ j, t'.reqs[j]? = if j = i then some { q with status := st } else t.reqs[j]?
     (canEnqueue s r t i = true → ∃ u, exec (.lockRequestEnqueue id num i) s = .next u ∧ becomes u .queued ∧ SameMemory s u) ∧
     (q.status = .queued →
       (let clear : Prop := ∀ v ∈ r.txns, v.num < t.num → ∀ p ∈ v.reqs, p.tile = q.tile → p.status = .removed ∨ (q.excl = false ∧ p.excl = false)
        (clear → ∃ u, exec (.lockGrant id num i) s = .next u ∧ becomes u .granted ∧ SameMemory s u) ∧
        (¬clear → exec (.lockGrant id num i) s = .next s))) ∧
     (canPush s r t i = true → q.tile.die = true → Memory.wf s.mem = true →
       (let key := tcmKey t.core (blockOffset (getCore s t.core) t + q.offset)
        blockOffset (getCore s t.core) t + q.offset + q.tile.size ≤ 2 ^ 18 →
        (∀ j, j < q.tile.size → classAt r (key + j) ≠ 2) →
        ∃ u, exec (.tilePush id num i) s = .next u ∧
          readBytes u.mem key q.tile.size = readBytes s.mem (dieKey q.tile.home q.tile.addr) q.tile.size ∧
          SameMemoryBut key q.tile.size s u ∧
          ∃ t' q', findTxn (getRegion u id) num = some t' ∧ t'.reqs[i]? = some q' ∧ q'.status = .pushed)))) ∧
  (∀ (s : State) (id num : Nat) (t : Txn) (b : TxBody), findTxn (getRegion s id) num = some t → canDispatch s (getRegion s id) t = true →
    t.desc.chks = [] → (imageOf (getRegion s id)).bodies[t.desc.body]? = some b →
    ∃ u, exec (.transactionDispatch id num) s = .next u ∧ SameMemory s u ∧
      (let n := bodyStrand t
       let v := getStrand u t.core n
       v.live = true ∧ v.pc = residualAddr (getRegion s id) b.routine b.bentry ∧ v.regs.s[1] = BitVec.ofNat 64 (blockOffset (getCore s t.core) t) ∧
       v.regs.s[2] = BitVec.ofNat 64 (t.num * 2 ^ 32) ∧ (∀ j : Fin 8, v.regs.s[3 + j.val] = t.desc.args.getD j 0#64) ∧
       (∀ j : Fin 32, 11 ≤ j.val → v.regs.s[j] = 0#64) ∧
       v.regs.v = Regs.zero.v ∧ v.regs.k = Regs.zero.k))

/-- Where the conditions of the step hold, and with no X-phase write and no guard granule in the way: a plain SENDC sends the bytes
its entry names, read as they stand, and charges them and 64 more to PENDBYTES; a REDUCE begins to accept its stages; a SENDF
sends its next 64 bytes; a transfer that arrives inside a window is written there, one that no window holds is reported and its
bytes discarded; an acknowledgement returns the charge; a contribution with no REDUCE to match it is reported, and the first
stage of one with INIT replaces the destination; one that was refused is sent again; when nothing more can move no REDUCE is
left waiting, or, where some wait for a package that was lost, those complete and no other entry changes. That a SENDC is one
transfer and a SENDF goes flit by flit is the model's choice (log entry 28), as are giving up a REDUCE while a staged
contribution keeps its charge (log entry 68), and what a lost package owes (log entry 79). -/
def Obligations.ExchangeStepsRun : Prop :=
  (∀ (s : State) (core i id : Nat) (p : PlanEntry), (getCore s core).region = some id → (getRegion? s id).isSome →
    (getCore s core).plan[i]? = some p →
    (canStart s core i = true → isReduce p = true →
      ∃ u q, exec (.planEntryStart core i) s = .next u ∧ (getCore u core).plan[i]? = some q ∧ q.status = .sent ∧ SameMemory s u) ∧
    (canStart s core i = true → entKind p = 2 → entFlag p = false → entDi p = false → s.doubts = [] →
      (∀ e ∈ (getRegion s id).xlog, e.write = false) →
      (let n := entLen p
       let key := (sourceKey core p.w1).1
       let src := fieldOf p.w1 59 0
       n ≤ 16777216 → n % 8 = 0 →
       (if fieldOf p.w1 63 60 = 0 then n = 0 ∨ (src + n ≤ 2 ^ 18 ∧ inBounds (getCore s core) src n = true) else src + n ≤ 2 ^ 19) →
       destOk s (getRegion s id) core p.w2 = true → (∀ j, j < n → classAt (getRegion s id) (key + j) ≠ 2) →
       ∃ u t, exec (.planEntryStart core i) s = .next u ∧ (getRegion u id).xfers = (getRegion s id).xfers ++ [t] ∧ t.dst = p.w2 ∧
         t.bytes = readBytes s.mem key n ∧ t.src = core ∧ t.entry = i ∧ t.status = .inFlight ∧
         (getCore u core).pendBytes = (getCore s core).pendBytes + BitVec.ofNat 64 (n + 64) ∧ SameMemory s u)) ∧
    (∀ flit, canFlit s core i flit = true → destOk s (getRegion s id) core p.w2 = true → s.doubts = [] →
      (∀ e ∈ (getRegion s id).xlog, e.write = false) →
      (∀ j, j < 64 → classAt (getRegion s id) (tcmKey core (p.w1.toNat + 64 * flit) + j) ≠ 2) →
      ∃ u t, exec (.sendfFlit core i flit) s = .next u ∧ (getRegion u id).xfers = (getRegion s id).xfers ++ [t] ∧
        t.dst = p.w2 + BitVec.ofNat 64 (64 * flit) ∧ t.bytes = readBytes s.mem (tcmKey core (p.w1.toNat + 64 * flit)) 64 ∧
        (getCore u core).pendBytes = (getCore s core).pendBytes + 64#64 ∧ SameMemory s u)) ∧
  (∀ (s : State) (id i : Nat) (t : Xfer), (getRegion s id).xfers[i]? = some t →
    (let r := getRegion s id
     let core := destCore t.dst
     let off := fieldOf t.dst 17 0
     let done (u : State) : Prop := ∃ t', (getRegion u id).xfers[i]? = some t' ∧ t'.status = .done
     (canReceive s r i = true → fieldOf t.dst 63 60 = 3 → t.total ≠ 0 → (getCore s core).region = some id →
       ((windowOf (getCore s core) (fieldOf (wholeDest s t) 17 0) t.total = none →
           ∃ u, exec (.flitReceive id i) s = .next u ∧ done u ∧ SameMemory s u ∧
             (t.last = true → ∃ f ∈ (getCore u core).xfaults, f.src = t.src ∧ f.entry = t.entry ∧ f.sub = 2#8 ∧ f.faddr = wholeDest s t)) ∧
        (∀ w, windowOf (getCore s core) (fieldOf (wholeDest s t) 17 0) t.total = some w → (t.last = false ∨ entFlag w = false) → Memory.wf s.mem = true →
           (∀ j, j < t.bytes.length → classAt r (tcmKey core off + j) ≠ 2) →
           ∃ u, exec (.flitReceive id i) s = .next u ∧ done u ∧ readBytes u.mem (tcmKey core off) t.bytes.length = t.bytes ∧
             SameMemoryBut (tcmKey core off) t.bytes.length s u))) ∧
     (t.status = .done →
       ∃ u, exec (.acknowledgement id i) s = .next u ∧ (getRegion u id).xfers = r.xfers.eraseIdx i ∧ SameMemory s u ∧
         (getCore u t.src).pendBytes = (getCore s t.src).pendBytes - BitVec.ofNat 64 t.charge) ∧
     (t.status = .refused →
       ∃ u t', exec (.contributionResend id i) s = .next u ∧ (getRegion u id).xfers[i]? = some t' ∧ t' = { t with status := .inFlight } ∧
         SameMemory s u) ∧
     (∀ cid stage, t.red = some (cid, stage) → canApply s r i = true →
       (reduceIndex (getCore s core) cid = none →
         ∃ u, exec (.contributionApply id i) s = .next u ∧ done u ∧ SameMemory s u ∧
           ∃ f ∈ (getCore u core).xfaults, f.src = t.src ∧ f.entry = t.entry ∧ f.sub = 5#8) ∧
       (∀ k p, reduceIndex (getCore s core) cid = some (k, p) → t.total = entLen p → off = p.w2.toNat → stage = 0 → 0 < entStage p →
         t.bytes.length = entLen p → p.status = .sent → p.applied = 0 → p.staged = [] → entFlag p = true → Memory.wf s.mem = true →
         (∀ j, j < entLen p → classAt r (tcmKey core off + j) ≠ 2) →
         ∃ u, exec (.contributionApply id i) s = .next u ∧ done u ∧ readBytes u.mem (tcmKey core off) (entLen p) = t.bytes ∧
           SameMemoryBut (tcmKey core off) (entLen p) s u)))) ∧
  (∀ (s : State) (id : Nat), inXPhase (getRegion s id) = true → xQuiet s id = true →
    (∃ c ∈ heldCores s id, ∃ p ∈ (getCore s c).plan, lacking p = true) →
    (let lost (c : Nat) (p : PlanEntry) : Prop := forgone s id c p = true
     ((∀ c ∈ heldCores s id, ∀ p ∈ (getCore s c).plan, ¬lost c p) →
       ∃ u, exec (.collectiveIncomplete id) s = .next u ∧ ∀ c ∈ heldCores s id, ∀ p ∈ (getCore u c).plan, lacking p = false) ∧
     ((∃ c ∈ heldCores s id, ∃ p ∈ (getCore s c).plan, lost c p) →
       ∃ u, exec (.collectiveIncomplete id) s = .next u ∧ ∀ c ∈ heldCores s id, ∀ (j : Nat) (p : PlanEntry), (getCore s c).plan[j]? = some p →
         (lost c p → (getCore u c).plan[j]? = some { p with status := .complete }) ∧ (¬lost c p → (getCore u c).plan[j]? = some p))))

/-- A tail value v, whether the host writes it to QTAIL of a host-side queue or the package's oldest doorbell event carries it, is
applied so: with EN = 0 nothing changes; with a = (v - TAIL) mod 2^32 and b = (v - HEAD) mod 2^32, if a = 0 or a > N or b > N
then only COUNT changes, one more but for saturation; else TAIL becomes v and nothing else of the queue changes. TAIL never
moves by more than N, never to more than N beyond HEAD, and stays when stale. N is 2^LOGN. Memory and every other queue keep
their values. A write to QTAIL of a device-side queue, and a step with no doorbell event waiting, change nothing. -/
def Obligations.TailValuesMoveForward : Prop :=
  (let applied (q : Queue) (v : BitVec 32) (q' : Queue) : Prop :=
     (let n := 2 ^ (q.cfg.toNat / 2 ^ 8 % 2 ^ 5)
      let a := (v.toNat + 2 ^ 32 - q.tail.toNat) % 2 ^ 32
      let b := (v.toNat + 2 ^ 32 - q.head.toNat) % 2 ^ 32
      let stale : Prop := a = 0 ∨ n < a ∨ n < b
      (q.cfg.getLsbD 0 = false → q' = q) ∧
      (q.cfg.getLsbD 0 = true → stale → q' = { q with stale := BitVec.ofNat 32 (min (q.stale.toNat + 1) 0xFFFFFFFF) }) ∧
      (q.cfg.getLsbD 0 = true → ¬stale → q' = { q with tail := v }) ∧
      (q'.tail = q.tail ∨ ((q'.tail - q.tail).toNat ≤ n ∧ (q'.tail - q'.head).toNat ≤ n)))
   let others (s u : State) (pkg q : Nat) : Prop :=
     SameMemory s u ∧ u.cores = s.cores ∧ u.regions = s.regions ∧
       (∀ q', q' ≠ q → getQueue u pkg q' = getQueue s pkg q') ∧ ∀ p, p ≠ pkg → getPackage u p = getPackage s p
   (∀ (s : State) (pkg q : Nat) (v : Word), q < 256 →
     ((getQueue s pkg q).cfg.getLsbD 1 = false →
       ∃ u, exec (.qtailWrite pkg q v) s = .next u ∧ applied (getQueue s pkg q) (v.setWidth 32) (getQueue u pkg q) ∧ others s u pkg q) ∧
     ((getQueue s pkg q).cfg.getLsbD 1 = true → exec (.qtailWrite pkg q v) s = .next s)) ∧
   (∀ (s : State) (pkg : Nat), (getPackage s pkg).doorbells = [] → exec (.doorbellEvent pkg) s = .next s) ∧
   (∀ (s : State) (pkg q : Nat) (v : BitVec 32) (rest : List (Nat × BitVec 32)), (getPackage s pkg).doorbells = (q, v) :: rest →
     ∃ u, exec (.doorbellEvent pkg) s = .next u ∧ applied (getQueue s pkg q) v (getQueue u pkg q) ∧ others s u pkg q ∧
       (getPackage u pkg).doorbells = rest))

/-- Enabling a queue with a valid size and base, in a package whose command processor is enabled, clears HEAD, TAIL, CLAIM and
COUNT, sets EN and status 0x01, and writes zero to the mirror, at once where the host has translated its page and else, by the
model's choice (log entry 34), when it has; otherwise EN stays 0 with status 0x00. Disabling clears EN and the status and keeps
HEAD and TAIL, at once where no packet is being handled, and otherwise is noted, EN and the status kept until then (log entry
70). A 64-bit FetchAdd of QCLAIM returns the old value and stores the sum unless it would pass HEAD by more than N, when it
returns all ones and stores nothing; another AtomicOp is answered Unsupported Request and stores nothing. With EN = 1, HEAD not
TAIL, no packet held and the ring outside host memory, a look at a slot whose stamp is not HEAD + 1 changes nothing; with the
stamp valid, a packet that waits for nothing and whose host addresses are translated and not refused issues, and HEAD advances,
also in the mirror; that translation and refusal are looked at then is the model's choice (log entry 34). A completion whose
record is translated and not refused writes DETAIL, SEQ and STATUS to its record, and raises the interrupt it asks for. -/
def Obligations.QueuesEnableClaimAndIssue : Prop :=
  (∀ (s : State) (pkg q : Nat) (cfg : Word), q < 256 → (getQueue s pkg q).cfg.getLsbD 0 = false → cfg.getLsbD 0 = true →
    (let old := getQueue s pkg q
     let c := cfg &&& 0x000FFFFF00001F03#64
     let ok : Prop := 3 ≤ fieldOf c 12 8 ∧ fieldOf c 12 8 ≤ 16 ∧ cpOk old.base = true ∧ old.base.toNat % 4096 = 0 ∧
       (getPackage s pkg).enabled = true
     let pasid := c.extractLsb' 32 20
     let due : Bool := decide (old.mirror ≠ 0#64) && (cpMissing (getPackage s pkg) pasid [(old.mirror, 8, true)]).isSome
     ∃ u, exec (.queueEnable pkg q cfg) s = .next u ∧ (old.mirror = 0#64 ∨ due = true → SameMemory s u) ∧
       (∀ k, ok → old.mirror ≠ 0#64 → due = false → cpRefused (getPackage s pkg) pasid [(old.mirror, 8, true)] = false →
         cpKey? pkg old.mirror = some k → Memory.wf s.mem = true → memNat u.mem k 8 = 0 ∧ SameMemoryBut k 8 s u) ∧
       (ok → getQueue u pkg q =
         { old with cfg := c, head := 0, tail := 0, claim := 0, stale := 0, status := 0x01#8, held := none, stopping := false,
                    indirect := none, mirrorDue := due }) ∧
       (¬ok → (getQueue u pkg q).cfg.getLsbD 0 = false ∧ (getQueue u pkg q).status = 0x00#8))) ∧
  (∀ (s : State) (pkg q : Nat) (cfg : Word), (getQueue s pkg q).cfg.getLsbD 0 = true → cfg.getLsbD 0 = false →
    (let old := getQueue s pkg q
     let idle : Prop := old.held = none ∧ old.indirect = none
     ∃ u, exec (.queueDisable pkg q cfg) s = .next u ∧ SameMemory s u ∧ (getQueue u pkg q).head = old.head ∧
       (getQueue u pkg q).tail = old.tail ∧
       (idle → (getQueue u pkg q).cfg.getLsbD 0 = false ∧ (getQueue u pkg q).status = 0x00#8) ∧
       (¬idle → getQueue u pkg q = { old with stopping := true }))) ∧
  (∀ (s : State) (pkg q : Nat) (k : Word), q < 256 →
    (let old := getQueue s pkg q
     let n := 2 ^ fieldOf old.cfg 12 8
     let room : Prop := (((old.claim + k).setWidth 32 : BitVec 32) - old.head).toNat ≤ n
     (∃ u, exec (.qclaimFetchadd pkg q (.fetchAdd64 k)) s = .next u ∧ SameMemory s u ∧ (getPackage u pkg).unsupported = false ∧
       (room → (getPackage u pkg).response = old.claim ∧ getQueue u pkg q = { old with claim := old.claim + k }) ∧
       (¬room → (getPackage u pkg).response = BitVec.allOnes 64 ∧ getQueue u pkg q = old)) ∧
     (∃ u, exec (.qclaimFetchadd pkg q .other) s = .next u ∧ SameMemory s u ∧ (getPackage u pkg).unsupported = true ∧
       getQueue u pkg q = old))) ∧
  (∀ (s : State) (pkg q k : Nat),
    (let qu := getQueue s pkg q
     let pk := getPackage s pkg
     let slot := qu.base + BitVec.ofNat 64 (64 * (qu.head.toNat % 2 ^ fieldOf qu.cfg 12 8))
     let p := readPacket s.mem k pkg q qu.head false
     let pasid := qu.cfg.extractLsb' 32 20
     qu.cfg.getLsbD 0 = true → pk.enabled = true → pasid ∉ pk.torn → qu.held = none → qu.indirect = none → qu.stopping = false →
     qu.mirrorDue = false →
     qu.head ≠ qu.tail → fieldOf slot 63 60 ≠ 7 → cpKey? pkg slot = some k →
     (memNat s.mem (k + 0x38) 4 ≠ (qu.head.toNat + 1) % 2 ^ 32 → exec (.stampRecheck pkg q) s = .next s) ∧
     (memNat s.mem (k + 0x38) 4 = (qu.head.toNat + 1) % 2 ^ 32 → mayIssue qu p = true →
       cpMissing pk pasid (packetNeeds s.mem p ++ if qu.mirror = 0#64 then [] else [(qu.mirror, 8, true)]) = none → cpRefused pk pasid (packetNeeds s.mem p) = false →
       ∃ s1 u, runPacket p (modQueue s pkg q fun qu => { qu with held := none }) = .next s1 ∧
         exec (.stampRecheck pkg q) s = .next u ∧ (getQueue u pkg q).head = (getQueue s1 pkg q).head + 1#32 ∧
         (let qs := getQueue s1 pkg q
          (qs.mirror = 0#64 → u.mem = s1.mem) ∧
          ∀ m, qs.mirror ≠ 0#64 → cpKey? pkg qs.mirror = some m → Memory.wf s1.mem = true →
            cpRefused (getPackage s1 pkg) (qs.cfg.extractLsb' 32 20) [(qs.mirror, 8, true)] = false →
            memNat u.mem m 8 = (qs.head + 1#32).toNat ∧ SameMemoryBut m 8 s1 u)))) ∧
  (∀ (s : State) (pkg q k : Nat),
    (let qu := getQueue s pkg q
     let pk := getPackage s pkg
     let pasid := qu.cfg.extractLsb' 32 20
     qu.cfg.getLsbD 0 = true → pk.enabled = true → pasid ∉ pk.torn → qu.mirrorDue = true → qu.mirror ≠ 0#64 →
     cpMissing pk pasid [(qu.mirror, 8, true)] = none → cpRefused pk pasid [(qu.mirror, 8, true)] = false → cpKey? pkg qu.mirror = some k →
     Memory.wf s.mem = true →
     ∃ u, exec (.stampRecheck pkg q) s = .next u ∧ memNat u.mem k 8 = qu.head.toNat ∧ SameMemoryBut k 8 s u ∧
       getQueue u pkg q = { qu with mirrorDue := false })) ∧
  (∀ (s : State) (pkg q k status : Nat) (num : BitVec 32) (comp detail : Word) (irq : Bool), Memory.wf s.mem = true →
    comp ≠ 0#64 → cpKey? pkg comp = some k → (getPackage s pkg).torn = [] → status < 2 ^ 64 → noticeDue s comp = false →
    (let pasid := (getQueue s pkg q).cfg.extractLsb' 32 20
     let u := completePacket s pkg q num comp irq status detail
     cpMissing (getPackage s pkg) pasid [(comp, 32, true)] = none → cpRefused (getPackage s pkg) pasid [(comp, 32, true)] = false →
     memNat u.mem k 8 = status ∧ memNat u.mem (k + 8) 8 = detail.toNat ∧ memNat u.mem (k + 24) 8 = num.toNat ∧
       (∀ a, a < k ∨ k + 32 ≤ a → memRead u.mem a = memRead s.mem a) ∧
       (getPackage u pkg).msix = (getPackage s pkg).msix ++ (if irq then [q] else [])))

/-- A packet of a good form is issued. NOP ends, and is malformed with a non-zero first argument; EVICT ends with the unpinned
entries gone, all of them or those of the digest; SIGNAL ends with its doubleword written and DESTROY with its queue stopped;
INDIRECT makes its buffer the queue's next packets, and ends with an empty one; REGION ends with its block registered as an idle
region where R424 holds; LAUNCH leaves its region pending where every check passes and else ends with the refusal; HOSTTX queues
its transaction, or ends with DESCRIPTOR or LATE; KILL leaves every launch of the subtree killed or to be killed, at once where
it does not run; SUSPEND asks every running region of the subtree to give way, and is refused with recovery points; RESUME makes
the subtree eligible; INVAL waits for a running region's barrier and else ends. KILL, SUSPEND, RESUME and INVAL of no region end
with REGION, and a packet of a bad form ends as malformed. The model's own readings in it: which registered region an address
names and the scope of an id (log entry 23), registering a block again (log entry 35), when KILL, SUSPEND and RESUME complete
(log entry 47), what ACQ and INVAL bring up to date (log entry 50), and a KILL at once where a region does not run (log entry
51). -/
def Obligations.PacketsTakeEffect : Prop :=
  ∀ (p : Packet) (s : State),
    (let issued := modQueue s p.pkg p.q fun qu => { qu with outstanding := qu.outstanding ++ [p.num] }
     let s0 := acquire p issued
     let ends (i : Instr) (code : Nat) (detail : Word) (t : State) : Prop := exec i s = .next (finishPacket p code detail t)
     let rest : Prop := p.d4 = 0#64 ∧ p.d5 = 0#64 ∧ p.d6 = 0#64
     (packetFormOk s.mem p = false →
       ∀ i ∈ [Instr.nop p, .launch p, .hosttx p, .indirect p, .region p, .kill p, .suspend p, .resume p, .inval p, .evict p, .signal p,
           .destroy p],
         ends i 0x0F 0#64 issued) ∧
     (packetFormOk s.mem p = true →
       (p.d3 = 0#64 → rest → ends (.nop p) 0x01 0#64 s0) ∧
       (p.d3 ≠ 0#64 → ends (.nop p) 0x0F 0#64 issued) ∧
       (p.indirect = false → p.d3 = 0#64 → rest →
         ∃ t, ends (.destroy p) 0x01 0#64 t ∧ (getQueue t p.pkg p.q).cfg.getLsbD 0 = false ∧ (getQueue t p.pkg p.q).status = 0x10#8 ∧
           t.mem = s.mem) ∧
       (∀ k, cpKey? p.pkg p.d3 = some k → p.d3.toNat % 8 = 0 → p.d5 = 0#64 → p.d6 = 0#64 → Memory.wf s.mem = true →
         ∃ t, ends (.signal p) 0x01 0#64 t ∧ memNat t.mem k 8 = p.d4.toNat ∧ SameMemoryBut k 8 s t) ∧
       (p.d3 = 0#64 → rest → ∃ t, ends (.evict p) 0x01 0#64 t ∧ t.mem = s.mem ∧
         ∀ e, e ∈ (getPackage t p.pkg).cache ↔ e ∈ (getPackage s p.pkg).cache ∧ e.pins ≠ []) ∧
       (∀ k, cpKey? p.pkg p.d3 = some k → rest → ∃ t, ends (.evict p) 0x01 0#64 t ∧ t.mem = s.mem ∧
         ∀ e, e ∈ (getPackage t p.pkg).cache ↔ e ∈ (getPackage s p.pkg).cache ∧ (e.pins ≠ [] ∨ e.digest ≠ readBytes s.mem k 48)) ∧
       (p.indirect = false → cpOk p.d3 = true → p.d3.toNat % 64 = 0 → p.d4.toNat % 64 = 0 → p.d4.toNat ≤ 2 ^ 20 →
         p.d5 = 0#64 → p.d6 = 0#64 →
         (p.d4 = 0#64 → ends (.indirect p) 0x01 0#64 s0) ∧
         (p.d4 ≠ 0#64 → ∃ t b, exec (.indirect p) s = .next t ∧ (getQueue t p.pkg p.q).indirect = some b ∧ b.next = p.d3 ∧
           b.left = p.d4.toNat ∧ b.num = p.num ∧ t.mem = s.mem)) ∧
       (cpOk p.d3 = true → rest → findRcb s0 p.pkg p.d3 = none →
         ∀ i ∈ [Instr.kill p, .suspend p, .resume p, .inval p], ends i 0x0B 0#64 s0) ∧
       (∀ r, cpOk p.d3 = true → rest → findRcb s0 p.pkg p.d3 = some r →
         (let ls := subtreeLaunches s0 r.rcb.id
          (∃ t, exec (.kill p) s = .next t ∧ ∀ q ∈ ls, q.launch.isSome → getRegion? s0 q.rcb.id = some q →
            (let g := getRegion t q.rcb.id
             ((g.launch = none ∧ g.state = .killed) ∨ g.killReq = true) ∧
               (q.state ≠ .running → g.launch = none ∧ g.state = .killed))) ∧
          (ls = [] → s.waits = [] → ends (.kill p) 0x01 0#64 s0) ∧
          (∃ t, exec (.resume p) s = .next t ∧ ∀ q ∈ ls, (getRegion t q.rcb.id).suspendReq = false) ∧
          ((∃ q ∈ ls, q.state = .running ∧ recoveryOf q = true) → ends (.suspend p) 0x0B 0#64 s0) ∧
          ((∀ q ∈ ls, q.state = .running → recoveryOf q = false) →
            ∃ t, exec (.suspend p) s = .next t ∧ ∀ q ∈ ls, getRegion? s0 q.rcb.id = some q →
              (q.state = .running → (getRegion t q.rcb.id).suspendReq = true ∧ (getRegion t q.rcb.id).preemptReq = true) ∧
              (q.state = .suspended → (getRegion t q.rcb.id).suspendReq = true)))) ∧
       (∀ r, cpOk p.d3 = true → p.d4.toNat % 65536 = 0 → p.d5.toNat % 65536 = 0 → p.d6 = 0#64 → findRcb s0 p.pkg p.d3 = some r →
         getRegion? s0 r.rcb.id = some r →
         (r.state = .running → ∃ t, exec (.inval p) s = .next t ∧ t.mem = s.mem ∧
           (getRegion t r.rcb.id).invals = r.invals ++ [(p.pkg, p.q, p.d4.toNat, p.num, p.d1, p.d0.getLsbD 8)]) ∧
         (r.state ≠ .running → ends (.inval p) 0x01 0#64 s0)) ∧
       (launchArgsOk s.mem p = true →
         (∀ id l codes s1, checkLaunch s0 p = .ok (id, l, codes, s1) →
           ∃ t, exec (.launch p) s = .next t ∧ (getRegion t id).state = .pending ∧ (getRegion t id).launch = some l ∧
             (getRegion t id).code = codes) ∧
         (∀ st detail, checkLaunch s0 p = .error (st, detail) → ends (.launch p) st detail s0)) ∧
       (∀ k (up : Option Rcb), cpKey? p.pkg p.d3 = some k → rest → fieldOf p.d3 63 60 = 4 → p.d3.toNat % 256 = 0 →
         rcbReservedOk s.mem k = true →
         ((memNat s.mem (k + 2) 2 = 0xFFFF ∧ up = none) ∨
           (memNat s.mem (k + 2) 2 ≠ 0xFFFF ∧ ∃ q, regionIn s0 p.pkg (memNat s.mem (k + 2) 2) = some q ∧ up = some q.rcb)) →
         (let b := readRcb s.mem k up
          let levels := match up with
            | none => 1
            | some u => (ancestors s0 9 u.id).length + 1
          let old := (findRcb s0 p.pkg p.d3).map fun q => q.rcb.id
          rcbOk s0 b up levels = true → idFree s0 b old = true →
          (∀ q, findRcb s0 p.pkg p.d3 = some q → againOk s0 b levels q = true) →
          (∀ q ∈ s0.regions, q.rcb.id = b.id → old = some b.id) →
          ∃ t, ends (.region p) 0x01 0#64 t ∧ (getRegion t b.id).rcb = b ∧ (getRegion t b.id).state = .idle ∧
            (getRegion t b.id).launch = none)) ∧
       (∀ r l k, cpOk p.d3 = true → cpKey? p.pkg p.d4 = some k → fieldOf p.d5 31 16 = 0 → p.d6 = 0#64 →
         findRcb s0 p.pkg p.d3 = some r → getRegion? s0 r.rcb.id = some r → r.launch = some l → hasLaunch r = true →
         p.pkg ∉ r.abortedPkgs →
         (let core := p.pkg * 65536 + fieldOf p.d5 15 0
          let ss := BitVec.ofNat 64 (fieldOf p.d5 63 32)
          let bs := readBytes s.mem k 328
          let verdict := checkDescriptor (asHeld s0 r core) core (coreEntry l.image l.variants r.rcb core).1 true bs
          let late : Prop := hosttxLate r p.pkg ss = true ∨ 1024 ≤ frontShare r p.pkg ss
          inCoreSet r.rcb core = true →
          (∀ sub, verdict = some sub → ends (.hosttx p) 0x0D (BitVec.ofNat 64 sub) s0) ∧
          (verdict = none → late → ends (.hosttx p) 0x0E 0#64 s0) ∧
          (verdict = none → ¬late →
            ∃ t h, exec (.hosttx p) s = .next t ∧ (getRegion t r.rcb.id).hostTxns = r.hostTxns ++ [h] ∧ h.core = core ∧
              h.superstep = ss ∧ h.desc = parseDesc bs ∧ t.mem = s.mem)))))

/-- HALT halts the core of DBGARG0 and RESUME lets it and its stepped strands go on; STEP sets the strand's SSTEP from DBGARG1;
RDREG returns the scalar or control register DBGARG1 names, the cause as 0x3F of a halted strand, and WRREG writes the scalar
register it names; either only sets DBGSTAT for an unknown one; RDTCM reads and WRTCM writes a doubleword; BRKEN sets the
breakpoints of the region it names, and with none only DBGSTAT; nothing else of memory or another core changes. A write of a
code to DBGCMD is the command; one to a queue's QTAIL, or of EN to its QCFG, is that step; PWRCAP keeps 16 bits; the base of a
queue is written while EN = 0 and ignored while EN = 1. The commands act where the command processor is enabled (R449) and
change nothing where it is not. The cause 0x3F shown of a halted strand, the aligned doubleword of RDTCM and WRTCM, and DBGSTAT
for BRKEN of no region are the model's readings (log entry 54). -/
def Obligations.DebugAndRegisterWritesTakeEffect : Prop :=
  ∀ (s : State) (pkg : Nat) (v : Word),
    (let p := getPackage s pkg
     let core := pkg * 65536 + fieldOf p.dbgArg0 15 0
     let n : Fin 4 := ⟨fieldOf p.dbgArg0 17 16 % 4, Nat.mod_lt _ (by decide)⟩
     let key := tcmKey core (8 * fieldOf p.dbgArg1 17 3)
     let quiet (u : State) : Prop := SameMemory s u ∧ u.regions = s.regions ∧ OtherCoresSame core s u
     let sel := p.dbgArg1.toNat
     let command (code : Word) (i : Instr) : Prop := exec (.registerWrite pkg 0x2000 code) s = exec i s
     (p.enabled = false → ∀ i ∈ [Instr.halt pkg, .dbgResume pkg, .dbgStep pkg, .rdreg pkg, .wrreg pkg, .rdtcm pkg, .wrtcm pkg, .brken pkg],
       exec i s = .next s) ∧
     (p.enabled = true →
     (∃ u, exec (.halt pkg) s = .next u ∧ quiet u ∧ (getCore u core).halted = true ∧ (getCore u core).strands = (getCore s core).strands) ∧
     (∃ u, exec (.dbgResume pkg) s = .next u ∧ quiet u ∧ (getCore u core).halted = false ∧
       ∀ k : Fin 4, (getStrand u core k).wait ≠ .halted ∧ (getStrand u core k).regs = (getStrand s core k).regs) ∧
     (∃ u, exec (.dbgStep pkg) s = .next u ∧ quiet u ∧ ∀ j, j < 64 →
       (getStrand u core n).trap.status.getLsbD j = if j = 5 then p.dbgArg1.getLsbD 0 else (getStrand s core n).trap.status.getLsbD j) ∧
     (∃ u, exec (.rdreg pkg) s = .next u ∧ quiet u ∧ u.cores = s.cores ∧
       (∀ k : Fin 32, sel = 0x800 + k → (getPackage u pkg).dbgData = if k.val = 0 then 0#64 else (getStrand s core n).regs.s[k]) ∧
       (sel = 1 → (getPackage u pkg).dbgData =
         if (getStrand s core n).live = true ∧ ((getCore s core).halted = true ∨ (getStrand s core n).wait = .halted) then 0x3F#64
         else (getStrand s core n).trap.cause) ∧
       (sel < 0x800 → sel ≠ 0x001 → sel ≠ 0x021 → sel ≠ 0x071 → selKnown (BitVec.ofNat 12 sel) = true →
         (getPackage u pkg).dbgData = crValue s core n sel) ∧
       (0xE1E ≤ sel → (getPackage u pkg).dbgStat = 0x100#64 ∧ (getPackage u pkg).dbgData = p.dbgData)) ∧
     (∀ k : Fin 32, sel = 0x800 + k → ∃ u, exec (.wrreg pkg) s = .next u ∧ quiet u ∧
       ∀ j : Fin 32, (getStrand u core n).regs.s[j] = if j = k ∧ k.val ≠ 0 then p.dbgData else (getStrand s core n).regs.s[j]) ∧
     (0xE1E ≤ sel → ∃ u, exec (.wrreg pkg) s = .next u ∧ quiet u ∧ u.cores = s.cores ∧ (getPackage u pkg).dbgStat = 0x100#64) ∧
     (∃ u, exec (.rdtcm pkg) s = .next u ∧ quiet u ∧ u.cores = s.cores ∧ (getPackage u pkg).dbgData = BitVec.ofNat 64 (memNat s.mem key 8)) ∧
     (Memory.wf s.mem = true → ∃ u, exec (.wrtcm pkg) s = .next u ∧ u.cores = s.cores ∧ u.regions = s.regions ∧ SameMemoryBut key 8 s u ∧
       memNat u.mem key 8 = p.dbgData.toNat) ∧
     (∃ u, exec (.brken pkg) s = .next u ∧ SameMemory s u ∧ u.cores = s.cores ∧
       (∀ r, regionIn s pkg (fieldOf p.dbgArg1 15 0) = some r →
         (getRegion u r.rcb.id).breakpoints = !p.dbgArg1.getLsbD 16 ∧ (getPackage u pkg).dbgStat = 0#64) ∧
       (regionIn s pkg (fieldOf p.dbgArg1 15 0) = none → u.regions = s.regions ∧ (getPackage u pkg).dbgStat = 0x100#64))) ∧
     command 1#64 (.halt pkg) ∧ command 2#64 (.dbgResume pkg) ∧ command 3#64 (.dbgStep pkg) ∧ command 4#64 (.rdreg pkg) ∧
     command 5#64 (.wrreg pkg) ∧ command 6#64 (.rdtcm pkg) ∧ command 7#64 (.wrtcm pkg) ∧ command 8#64 (.brken pkg) ∧
     (∃ u, exec (.registerWrite pkg 0x3000 v) s = .next u ∧ SameMemory s u ∧ u.cores = s.cores ∧
       (getPackage u pkg).pwrCap = BitVec.ofNat 64 (v.toNat % 2 ^ 16)) ∧
     (∀ q, q < 256 →
       (∃ u, exec (.registerWrite pkg (0x10000 + 128 * q + 8) v) s = .next u ∧ SameMemory s u ∧
         (getQueue u pkg q).base = if (getQueue s pkg q).cfg.getLsbD 0 then (getQueue s pkg q).base else v) ∧
       exec (.registerWrite pkg (0x10000 + 128 * q + 16) v) s = exec (.qtailWrite pkg q v) s ∧
       ((getQueue s pkg q).cfg.getLsbD 0 = false → v.getLsbD 0 = true →
         exec (.registerWrite pkg (0x10000 + 128 * q) v) s = exec (.queueEnable pkg q v) s) ∧
       ((getQueue s pkg q).cfg.getLsbD 0 = true → v.getLsbD 0 = false →
         exec (.registerWrite pkg (0x10000 + 128 * q) v) s = exec (.queueDisable pkg q v) s)))

/-- A fault record of another generation, or of a page already recorded, is discarded; one the buffer has room for is written there
and counted in the tail; with no room it waits. A flush of one doubleword, by firmware that runs, advances the generation by one
and empties the kept pages, and the doubleword is in device memory. An invalidation removes exactly the cached translations that
meet its range; a translation completion replaces the page's, or asks for the page; a refusal is cached as one; an
acknowledgement clears the core's unacknowledged writes; host data and window writes put their bytes in memory. A teardown with
no launch in any region leaves no translation of the PASID and its queues stopped, and answers with a handshake. Memory stays as
it is where no packet waits. Pages of 4 KiB and a refusal kept as a completion are the model's choices (log entry 29), as are
the slots and pointers of the fault buffer and the flush (log entry 53) and that one acknowledgement clears all of a core's
writes (log entry 60). -/
def Obligations.TranslationServicesTakeEffect : Prop :=
  (∀ (s : State) (pkg : Nat) (f : FaultRec) (rest : List FaultRec), (getPackage s pkg).inflight = f :: rest →
    (let p := getPackage s pkg
     let known : Prop := f.gen ≠ p.faultGen ∨ (f.region, fieldOf f.va 47 16) ∈ p.kept
     let k := devKey pkg (fieldOf p.fbBase 45 0 + 32 * (p.fbTail.toNat % fbSlots p))
     (known → ∃ u, exec (.faultRecord pkg) s = .next u ∧ SameMemory s u ∧ (getPackage u pkg).inflight = rest ∧
       (getPackage u pkg).fbTail = p.fbTail) ∧
     (¬known → fbSlots p ≤ fbUsed p → exec (.faultRecord pkg) s = .next s) ∧
     (¬known → fbUsed p < fbSlots p → Memory.wf s.mem = true →
       ∃ u, exec (.faultRecord pkg) s = .next u ∧ SameMemoryBut k 32 s u ∧ memNat u.mem k 8 = f.va.toNat ∧
         memNat u.mem (k + 8) 4 = f.core % 2 ^ 22 + f.agent % 16 * 2 ^ 22 ∧ memNat u.mem (k + 16) 4 = f.gen.toNat ∧
         (getPackage u pkg).inflight = rest ∧ (f.region, fieldOf f.va 47 16) ∈ (getPackage u pkg).kept ∧
         (getPackage u pkg).fbTail.toNat = (p.fbTail.toNat + 1) % 2 ^ 32))) ∧
  (∀ (s : State) (pkg a : Nat) (v : Word) (un : List (Nat × Nat)), (getPackage s pkg).enabled = true → Memory.wf s.mem = true →
    a + 8 ≤ Config.hbmBytes →
    ∃ u, exec (.firmwareFlush pkg [(a, v)] un) s = .next u ∧ memNat u.mem (devKey pkg a) 8 = v.toNat ∧ SameMemoryBut (devKey pkg a) 8 s u ∧
      (getPackage u pkg).faultGen = (getPackage s pkg).faultGen + 1#32 ∧ (getPackage u pkg).kept = [] ∧ u.cores = s.cores) ∧
  (∀ (s : State) (pkg : Nat) (pasid : BitVec 20) (start len page : Nat) (granted read write : Bool),
    (let p := getPackage s pkg
     let mine (e : AtsEntry) : Prop := e.pasid = pasid ∧ e.page = page
     (∃ u, exec (.atsInvalidation pkg pasid start len) s = .next u ∧ SameMemory s u ∧
       ∀ e, e ∈ (getPackage u pkg).ats ↔
         e ∈ p.ats ∧ (e.pasid ≠ pasid ∨ start + len ≤ e.page * 4096 ∨ (e.page + 1) * 4096 ≤ start)) ∧
     ((pasid, page) ∈ p.pri → ∃ u, exec (.pageRequestResponse pkg pasid page granted) s = .next u ∧
       (granted = true ∨ s.waits = [] → SameMemory s u) ∧
       (pasid, page) ∉ (getPackage u pkg).pri ∧
       (granted = true → (getPackage u pkg).ats = p.ats) ∧
       (granted = false → (∃ e ∈ (getPackage u pkg).ats, mine e) ∧ ∀ e ∈ (getPackage u pkg).ats, mine e → e.granted = false)) ∧
     ((pasid, page) ∉ p.pri → exec (.pageRequestResponse pkg pasid page granted) s = .next s) ∧
     (pasid ∉ p.torn →
       (∃ u, exec (.pcieCompletion pkg (.atsTranslation pasid page read write true)) s = .next u ∧ (s.waits = [] → SameMemory s u) ∧
         (∃ e ∈ (getPackage u pkg).ats, mine e) ∧
         ∀ e ∈ (getPackage u pkg).ats, mine e → e.read = read ∧ e.write = write ∧ e.granted = true) ∧
       (∃ u, exec (.pcieCompletion pkg (.atsTranslation pasid page read write false)) s = .next u ∧ SameMemory s u ∧
         (pasid, page) ∈ (getPackage u pkg).pri)))) ∧
  (∀ (s : State) (core : Nat), ∃ u, exec (.pcieCompletion (pkgOfCore core) (.postedAck core)) s = .next u ∧
    (s.waits = [] → SameMemory s u) ∧ (getCore u core).unacked = 0 ∧ OtherCoresSame core s u) ∧
  (∀ (s : State) (pkg a : Nat) (bs : List Byte), Memory.wf s.mem = true →
    (a + bs.length ≤ 2 ^ 57 → ∃ u, exec (.pcieCompletion pkg (.hostData a bs)) s = .next u ∧
      readBytes u.mem (hostKey a) bs.length = bs ∧ SameMemoryBut (hostKey a) bs.length s u) ∧
    (a + bs.length ≤ Config.hbmBytes → ∃ u, exec (.hostWindowWrite pkg a bs) s = .next u ∧
      readBytes u.mem (devKey pkg a) bs.length = bs ∧ SameMemoryBut (devKey pkg a) bs.length s u ∧ u.cores = s.cores)) ∧
  (∀ (s : State) (pkg : Nat) (pasid : BitVec 20), (∀ r ∈ s.regions, hasLaunch r = false) →
    ∃ u, exec (.pasidTeardown pkg pasid) s = .next u ∧ (∀ e ∈ (getPackage u pkg).ats, e.pasid ≠ pasid) ∧
      pasid ∈ (getPackage u pkg).torn ∧ (getPackage u pkg).handshakes = (getPackage s pkg).handshakes ++ [pasid] ∧
      ∀ q, q < 256 → (getQueue s pkg q).cfg.extractLsb' 32 20 = pasid →
        (getQueue u pkg q).status = 0x10#8 ∧ (getQueue u pkg q).cfg.getLsbD 0 = false)

/-- A pending launch that nothing holds back, and that the caches hold, starts its region in the C phase of superstep 0; one that
has to wait asks the regions it may displace. A kill that waits acts at its point; else, once all cores have parked and their
units have stopped, the region is suspended; else the cores at their point take the pre-emption, where their handlers and save
areas let every strand enter. A suspended region resumes when nothing is in its way, and asks otherwise; a time-out kills. A
bubble, a correction and a link replay change only their count, and a bubble PWRSTAT. With no region affected an uncorrectable
error changes nothing and a thermal trip stops the dies, PWRSTAT showing 110 degrees where firmware runs; one affected region
rolls back to its valid recovery point, or is killed. A recovery point becomes valid. A device reset leaves no queue enabled, no
region and no core of the package, its TCMs and device memories zero and its safe tier as it was, and enables it as its firmware
is verified. After 64 issues the slot passes to another ready strand. Which regions an error affects (log entry 21), the kill of
one region alone where no point is valid (log entry 52), the memory after a device reset (log entry 55) and what a bubble and a
trip leave in PWRSTAT (log entry 61) are the model's choices; firmware runs where it verifies and its version is not below the
minimum. -/
def Obligations.PreemptionPowerAndRecoveryRun : Prop :=
  (∀ (s : State) (id : Nat),
    (let r := getRegion s id
     let killed (u : State) : Prop := (getRegion u id).state = .killed ∧ (getRegion u id).launch = none
     (∀ l s0, mayStart s r = true → r.launch = some l → inTheWay s r = [] →
       pinAll l.image r.rcb l.variants (pinJobs r.rcb r.code) s = .ok s0 →
       ∃ u, exec (.launchStart id) s = .next u ∧ (getRegion u id).state = .running ∧ (getRegion u id).superstep = 0#64 ∧
         (getRegion u id).phase = .c) ∧
     (r.state = .pending → r.launch.isSome → (mayStart s r = false ∨ inTheWay s r ≠ []) →
       ∃ u, exec (.launchStart id) s = .next u ∧ SameMemory s u ∧ u.cores = s.cores ∧
         ∀ q ∈ displaced s r, (getRegion u q.rcb.id).preemptReq = true) ∧
     (canKill s r = true → r.launch.isSome → ∃ u, exec (.preemptionTake id) s = .next u ∧ killed u) ∧
     (canKill s r = false → canSpill s r = false → takers s r ≠ [] → (heldCores s id).Nodup →
       (∀ c ∈ takers s r, handlerAddr (getCore s c) 1 ≠ 0 ∧
         ∀ n : Fin 4, entryFits (getCore s c) (coreStrand (getCore s c) n) cPreempt = true) →
       ∃ u, exec (.preemptionTake id) s = .next u ∧ (getRegion u id).preempting = true ∧ (getRegion u id).state = .running ∧
         ∀ c ∈ takers s r, (getCore u c).taken = true) ∧
     (canKill s r = false → canSpill s r = true → ∃ u, exec (.preemptionTake id) s = .next u ∧ (getRegion u id).state = .suspended ∧
       (getRegion u id).preempting = false ∧ (getRegion u id).preemptReq = false) ∧
     (mayResume s r = true → inTheWay s r = [] →
       ∃ u, exec (.preemptionResume id) s = .next u ∧ (getRegion u id).state = .running ∧ (getRegion u id).spill = []) ∧
     (mayResume s r = true → inTheWay s r ≠ [] → ∃ u, exec (.preemptionResume id) s = .next u ∧ SameMemory s u ∧
       ∀ q ∈ displaced s r, (getRegion u q.rcb.id).preemptReq = true) ∧
     (r.state = .running → r.launch.isSome → (r.preemptReq = true → ∃ u, exec (.preemptTimeout id) s = .next u ∧ killed u) ∧
       (r.preempting = true → allParked s id = false → ∃ u, exec (.parkTimeout id) s = .next u ∧ killed u)) ∧
     (∀ p, recPointOf s r = some p →
       ∃ u, exec (.recoveryPointValid id) s = .next u ∧ recPointOf u r = some { p with valid := true } ∧ u.mem = s.mem))) ∧
  (∀ (s : State) (pkg port peer : Nat),
    (let rest (u : State) : Prop := u.mem = s.mem ∧ u.cores = s.cores ∧ u.regions = s.regions ∧ ∀ q, q ≠ pkg → getPackage u q = getPackage s q
     let counts (i : Instr) (f : Package → Package) : Prop :=
       ∃ u, exec i s = .next u ∧ rest u ∧ getPackage u pkg = f (getPackage s pkg)
     ((getPackage s pkg).enabled = true → ∃ u w, exec (.throttleBubble pkg) s = .next u ∧ rest u ∧ w &&& ~~~0xFFBF#64 = 0#64 ∧
       getPackage u pkg = { getPackage s pkg with bubbles := (getPackage s pkg).bubbles + 1, pwrStat := w }) ∧
     ((getPackage s pkg).enabled = false → exec (.throttleBubble pkg) s = .next s) ∧
     counts (.eccCorrection pkg) (fun p => { p with eccCount := p.eccCount + 1 }) ∧
     counts (.linkReplay pkg port peer false) (fun p => { p with replays := p.replays + 1 }) ∧
     (affected s [pkg, peer] = [] → counts (.linkReplay pkg port peer true) fun p => { p with replays := p.replays + 1 }) ∧
     (affected s [pkg] = [] → exec (.uncorrectableError pkg) s = .next s ∧
       ∃ u w, exec (.thermalTrip pkg) s = .next u ∧ rest u ∧
         ((getPackage s pkg).enabled = true → w.toNat / 256 % 256 = 110) ∧
         ((getPackage s pkg).enabled = false → w = (getPackage s pkg).pwrStat) ∧
         getPackage u pkg = { getPackage s pkg with stopped := true, pwrStat := w }))) ∧
  (∀ (s : State) (pkg : Nat) (r : Region), affected s [pkg] = [r] → getRegion? s r.rcb.id = some r → r.launch.isSome →
    (∀ p, rollbackPoint s r = some p →
      ∃ u, exec (.uncorrectableError pkg) s = .next u ∧ (getRegion u r.rcb.id).state = .running ∧
        (getRegion u r.rcb.id).superstep = p.superstep ∧ (getRegion u r.rcb.id).phase = .c ∧
        (getRegion u r.rcb.id).restores = r.restores + 1) ∧
    (rollbackPoint s r = none →
      ∃ u, exec (.uncorrectableError pkg) s = .next u ∧ (getRegion u r.rcb.id).state = .killed ∧ (getRegion u r.rcb.id).launch = none)) ∧
  (∀ (s : State) (pkg : Nat) (failed : List Nat), ∃ u, exec (.deviceReset pkg failed) s = .next u ∧
    (∀ q, (getQueue u pkg q).cfg.getLsbD 0 = false) ∧ (∀ r ∈ u.regions, r.rcb.pkgMask.getLsbD pkg = false) ∧
    (∀ c, pkgOfCore c = pkg → getCore u c = Core.idle u.domLast c) ∧
    (∀ a, (spaceOf a = 3 ∨ spaceOf a = 4) → a % 2 ^ 60 / 2 ^ 46 = pkg → memRead u.mem a = 0#8) ∧
    (∀ a, spaceOf a = 0 → a / 2 ^ 18 / 65536 = pkg → memRead u.mem a = 0#8) ∧
    (getPackage u pkg).safe = (getPackage s pkg).safe ∧ (getPackage u pkg).enabled = (Config.firmwareOk pkg && decide (Config.minimumVersion pkg ≤ Config.securityVersion pkg))) ∧
  (∀ (s : State) (core : Nat),
    (let x := getCore s core
     let cur : Fin 4 := ⟨x.slot % 4, Nat.mod_lt _ (by decide)⟩
     (64 ≤ x.slotRun → (∃ n : Fin 4, n ≠ cur ∧ canIssue s core n = true) →
       ∃ u n, exec (.issueSlotGiveUp core) s = .next u ∧ n ≠ cur ∧ canIssue s core n = true ∧ (getCore u core).slot = n ∧
         (getCore u core).slotRun = 0 ∧ (getCore u core).strands = x.strands ∧ SameMemory s u) ∧
     ((x.slotRun < 64 ∨ ∀ n : Fin 4, n ≠ cur → canIssue s core n = false) → exec (.issueSlotGiveUp core) s = .next s)))
end

