-- ==== Sys2Proof/Laws/Memory.lean ====
section
/-! SUPPORT. Memory and maps: a read after a write, writes elsewhere, and that every memory operation keeps the canonical form
(log entry 2). -/

namespace Sys2Proof.Machine

/-! ### Sparse maps -/

@[simp] theorem mapGet_mapSet_same {α : Type} (m : NatMap α) (k : Nat) (v : α) : mapGet? (mapSet m k v) k = some v := by
  induction m with
  | nil => simp [mapSet, mapGet?]
  | cons e m ih =>
    obtain ⟨k', v'⟩ := e
    simp only [mapSet]
    split
    · simp [mapGet?]
    · split
      · simp [mapGet?]
      · next h => simp [mapGet?, h, ih]

/-- What a map lists after one key is set: the new pair, and pairs it listed before. -/
theorem mem_mapSet {α : Type} (m : NatMap α) (k : Nat) (v : α) (e : Nat × α) (h : e ∈ mapSet m k v) : e = (k, v) ∨ e ∈ m := by
  induction m with
  | nil => simpa [mapSet] using h
  | cons c m ih =>
    obtain ⟨k', v'⟩ := c
    simp only [mapSet] at h
    split at h
    · simpa using h
    · split at h
      · rcases List.mem_cons.mp h with h | h
        · exact .inl h
        · exact .inr (List.mem_cons_of_mem _ h)
      · rcases List.mem_cons.mp h with h | h
        · exact .inr (h ▸ List.mem_cons_self)
        · rcases ih h with h | h
          · exact .inl h
          · exact .inr (List.mem_cons_of_mem _ h)

/-- What a map gives, it lists. -/
theorem mem_of_mapGet {α : Type} (m : NatMap α) (k : Nat) (v : α) (h : mapGet? m k = some v) : ∃ k', (k', v) ∈ m := by
  induction m with
  | nil => simp [mapGet?] at h
  | cons c m ih =>
    obtain ⟨k', v'⟩ := c
    simp only [mapGet?] at h
    split at h
    · cases h; exact ⟨k', List.mem_cons_self⟩
    · obtain ⟨q, hq⟩ := ih h
      exact ⟨q, List.mem_cons_of_mem _ hq⟩

theorem mapGet_mapSet_other {α : Type} (m : NatMap α) (k k' : Nat) (v : α) (h : k' ≠ k) :
    mapGet? (mapSet m k v) k' = mapGet? m k' := by
  induction m with
  | nil => simp [mapSet, mapGet?, h]
  | cons e m ih =>
    obtain ⟨j, w⟩ := e
    simp only [mapSet]
    split
    · simp [mapGet?, h]
    · split
      · next hk => subst hk; simp [mapGet?, h]
      · simp [mapGet?, ih]

/-! ### One byte -/

/-- Every entry of a canonical memory lies above the bound. -/
def Memory.above (b : Nat) (m : Memory) : Prop := ∀ c ∈ m, b < c.1

theorem Memory.wf_cons (c : Host.Cell) (m : Memory) :
    Memory.wf (c :: m) = true ↔ c.2 ≠ 0#8 ∧ Memory.above c.1 m ∧ Memory.wf m = true := by
  induction m generalizing c with
  | nil => simp [Memory.wf, Memory.above]
  | cons d m ih =>
    simp only [Memory.wf, Bool.and_eq_true, decide_eq_true_eq, ih d]
    constructor
    · rintro ⟨⟨h1, h2⟩, h3, h4, h5⟩
      refine ⟨h1, ?_, h3, h4, h5⟩
      intro e he
      cases he with
      | head => exact h2
      | tail _ he => exact Nat.lt_trans h2 (h4 e he)
    · rintro ⟨h1, h2, h3, h4, h5⟩
      exact ⟨⟨h1, h2 d (List.mem_cons_self ..)⟩, h3, h4, h5⟩

theorem memRead_of_above (m : Memory) (k : Nat) (h : Memory.above k m) : memRead m k = 0#8 := by
  induction m with
  | nil => rfl
  | cons c m ih =>
    have hc := h c (List.mem_cons_self ..)
    have : ¬ k = c.1 := by omega
    simp only [memRead, this, if_false]
    exact ih fun e he => h e (List.mem_cons_of_mem _ he)

/-- A byte reads as what was last written there. -/
theorem memRead_memWrite_same (m : Memory) (k : Nat) (b : Byte) (h : Memory.wf m = true) :
    memRead (memWrite m k b) k = b := by
  induction m with
  | nil => by_cases hb : b = 0#8 <;> simp [memWrite, hb, memRead]
  | cons c m ih =>
    obtain ⟨_, ha, hw⟩ := (Memory.wf_cons c m).1 h
    simp only [memWrite]
    split
    · next hk =>
      split
      · next hb =>
        subst hb
        refine memRead_of_above _ _ ?_
        intro e he
        cases he with
        | head => exact hk
        | tail _ he => exact Nat.lt_trans hk (ha e he)
      · simp [memRead]
    · split
      · next hk =>
        split
        · next hb => subst hb; subst hk; exact memRead_of_above _ _ ha
        · simp [memRead]
      · next hk => simp [memRead, hk, ih hw]

/-- A write leaves every other byte alone, whatever the memory's form. -/
theorem memRead_memWrite_other (m : Memory) (k k' : Nat) (b : Byte) (h : k' ≠ k) :
    memRead (memWrite m k b) k' = memRead m k' := by
  induction m with
  | nil => by_cases hb : b = 0#8 <;> simp [memWrite, hb, memRead, h]
  | cons c m ih =>
    simp only [memWrite]
    split
    · split
      · rfl
      · simp [memRead, h]
    · split
      · next hk =>
        have h' : ¬ k' = c.1 := hk ▸ h
        split <;> simp [memRead, h, h']
      · simp [memRead, ih]

theorem Memory.above_memWrite (b : Nat) (m : Memory) (k : Nat) (x : Byte) (h : Memory.above b m) (hk : b < k) :
    Memory.above b (memWrite m k x) := by
  induction m with
  | nil =>
    by_cases hx : x = 0#8
    · simp [memWrite, hx, Memory.above]
    · simp [memWrite, hx, Memory.above, hk]
  | cons c m ih =>
    have hc := h c (List.mem_cons_self ..)
    have hm : Memory.above b m := fun e he => h e (List.mem_cons_of_mem _ he)
    have cons_above : ∀ (d : Host.Cell) (l : Memory), b < d.1 → Memory.above b l → Memory.above b (d :: l) := by
      intro d l hd hl e he
      cases he with
      | head => exact hd
      | tail _ he => exact hl e he
    simp only [memWrite]
    split
    · split
      · exact h
      · exact cons_above _ _ hk h
    · split
      · split
        · exact hm
        · exact cons_above _ _ hk hm
      · exact cons_above _ _ hc (ih hm)

/-- A byte written keeps the canonical form. -/
theorem Memory.wf_memWrite (m : Memory) (k : Nat) (b : Byte) (h : Memory.wf m = true) : Memory.wf (memWrite m k b) = true := by
  induction m with
  | nil => by_cases hb : b = 0#8 <;> simp [memWrite, hb, Memory.wf]
  | cons c m ih =>
    obtain ⟨hc, ha, hw⟩ := (Memory.wf_cons c m).1 h
    simp only [memWrite]
    split
    · next hk =>
      split
      · exact h
      · next hb =>
        refine (Memory.wf_cons _ _).2 ⟨hb, ?_, h⟩
        intro e he
        cases he with
        | head => exact hk
        | tail _ he => exact Nat.lt_trans hk (ha e he)
    · split
      · next hk =>
        split
        · exact hw
        · next hb => exact (Memory.wf_cons _ _).2 ⟨hb, hk ▸ ha, hw⟩
      · refine (Memory.wf_cons _ _).2 ⟨hc, Memory.above_memWrite _ _ _ _ ha (by omega), ih hw⟩

/-! ### Runs of bytes -/

/-- Bytes written keep the canonical form. -/
theorem Memory.wf_writeBytes (bs : List Byte) (m : Memory) (k : Nat) (h : Memory.wf m = true) :
    Memory.wf (writeBytes m k bs) = true := by
  induction bs generalizing m k with
  | nil => exact h
  | cons b bs ih => exact ih _ _ (Memory.wf_memWrite m k b h)

theorem Memory.wf_memPut (m : Memory) (k n x : Nat) (h : Memory.wf m = true) : Memory.wf (memPut m k n x) = true :=
  Memory.wf_writeBytes _ _ _ h

/-- A write of bytes leaves the bytes outside it alone. -/
theorem memRead_writeBytes_other (bs : List Byte) (m : Memory) (k a : Nat) (h : a < k ∨ k + bs.length ≤ a) :
    memRead (writeBytes m k bs) a = memRead m a := by
  induction bs generalizing m k with
  | nil => rfl
  | cons b bs ih =>
    simp only [List.length_cons] at h
    rw [writeBytes, ih _ _ (by omega), memRead_memWrite_other _ _ _ _ (by omega)]

/-- Each byte of a run reads as written. -/
theorem memRead_writeBytes_same (bs : List Byte) (m : Memory) (k i : Nat) (hi : i < bs.length) (h : Memory.wf m = true) :
    memRead (writeBytes m k bs) (k + i) = bs[i] := by
  induction bs generalizing m k i with
  | nil => simp at hi
  | cons b bs ih =>
    cases i with
    | zero =>
      rw [writeBytes, memRead_writeBytes_other _ _ _ _ (by omega)]
      exact memRead_memWrite_same m k b h
    | succ i =>
      have := ih (memWrite m k b) (k + 1) i (by simpa using hi) (Memory.wf_memWrite m k b h)
      rw [writeBytes, show k + (i + 1) = k + 1 + i by omega, this]
      simp

/-- Entries dropped keep the canonical form. -/
theorem Memory.wf_filter (p : Host.Cell → Bool) (m : Memory) (h : Memory.wf m = true) : Memory.wf (m.filter p) = true := by
  induction m with
  | nil => rfl
  | cons c m ih =>
    obtain ⟨hc, ha, hw⟩ := (Memory.wf_cons c m).1 h
    rw [List.filter_cons]
    split
    · exact (Memory.wf_cons _ _).2 ⟨hc, fun e he => ha e (List.mem_of_mem_filter he), ih hw⟩
    · exact ih hw

theorem Memory.wf_zeroBytes (m : Memory) (k n : Nat) (h : Memory.wf m = true) : Memory.wf (zeroBytes m k n) = true :=
  Memory.wf_filter _ m h

/-- A fold of steps that each keep the canonical form keeps it. -/
theorem Memory.wf_foldl {β : Type} (f : Memory → β → Memory) (hf : ∀ m x, Memory.wf m = true → Memory.wf (f m x) = true)
    (l : List β) (m : Memory) (h : Memory.wf m = true) : Memory.wf (l.foldl f m) = true := by
  induction l generalizing m with
  | nil => exact h
  | cons x l ih => exact ih _ (hf m x h)

/-- A store outside guard granules keeps the canonical form (R141). -/
theorem Memory.wf_writeGuarded (m : Memory) (r : Region) (p : Place) (bs : List Byte) (h : Memory.wf m = true) :
    Memory.wf (writeGuarded m r p bs) = true := by
  refine Memory.wf_foldl _ ?_ _ _ h
  intro m x hm
  split
  · exact hm
  · exact Memory.wf_memWrite _ _ _ hm

/-! ### Little-endian numbers (R4) -/

@[simp] theorem leBytes_length (n x : Nat) : (leBytes n x).length = n := by
  induction n generalizing x with
  | zero => rfl
  | succ n ih => simp [leBytes, ih]

/-- The bytes of a number give it back, modulo their range. -/
theorem leNat_leBytes (n x : Nat) : leNat (leBytes n x) = x % 256 ^ n := by
  induction n generalizing x with
  | zero => simp [leBytes, leNat, Nat.mod_one]
  | succ n ih =>
    have h : leNat (leBytes (n + 1) x) = x % 256 + 256 * leNat (leBytes n (x / 256)) := by
      simp [leBytes, leNat]
    rw [h, ih, Nat.pow_succ, Nat.mul_comm (256 ^ n) 256, Nat.mod_mul]

end Sys2Proof.Machine
end

