-- ==== Sys2Proof/Laws/Canonical.lean ====
section
/-! SUPPORT. The shared operations keep the canonical form of every memory the state holds (`MemoryOk`): maps and cores, regions and
packages, the access checker's record, loads and stores, packet completion, kills, trap entry, the frame of a word, and the reads and
writes of the X phase. -/

namespace Sys2Proof.Machine

open Sys2Proof.Safety

/-! ### What `MemoryOk` depends on -/

theorem memoryOk_of_same {s t : State} (hm : t.mem = s.mem) (hr : t.regions = s.regions) (hp : t.packages = s.packages) (h : MemoryOk s) :
    MemoryOk t := by
  unfold MemoryOk
  rw [hm, hr, hp]
  exact h

theorem memoryOk_mem {s : State} {m : Memory} (hm : Memory.wf m = true) (h : MemoryOk s) : MemoryOk { s with mem := m } := ⟨hm, h.2⟩

theorem memoryOk_memPut {s : State} (k n x : Nat) (h : MemoryOk s) : MemoryOk { s with mem := memPut s.mem k n x } :=
  memoryOk_mem (Memory.wf_memPut _ k n x h.1) h

theorem memoryOk_writeBytes {s : State} (k : Nat) (bs : List Byte) (h : MemoryOk s) : MemoryOk { s with mem := writeBytes s.mem k bs } :=
  memoryOk_mem (Memory.wf_writeBytes bs _ k h.1) h

/-- A fold of operations that each keep the form keeps it. -/
theorem memoryOk_foldl {β : Type} (f : State → β → State) (hf : ∀ s x, MemoryOk s → MemoryOk (f s x)) (l : List β) (s : State)
    (h : MemoryOk s) : MemoryOk (l.foldl f s) := by
  induction l generalizing s with
  | nil => exact h
  | cons x l ih => exact ih _ (hf s x h)

/-! ### Cores, strands, regions, packages -/

theorem memoryOk_setCore {s : State} (c : Nat) (x : Core) (h : MemoryOk s) : MemoryOk (setCore s c x) := memoryOk_of_same rfl rfl rfl h
theorem memoryOk_modCore {s : State} (c : Nat) (f : Core → Core) (h : MemoryOk s) : MemoryOk (modCore s c f) := memoryOk_of_same rfl rfl rfl h
theorem memoryOk_modMyCore {s : State} (f : Core → Core) (h : MemoryOk s) : MemoryOk (modMyCore s f) := memoryOk_of_same rfl rfl rfl h
theorem memoryOk_modStrand {s : State} (c : Nat) (n : Fin 4) (f : Strand → Strand) (h : MemoryOk s) : MemoryOk (modStrand s c n f) :=
  memoryOk_of_same rfl rfl rfl h
theorem memoryOk_setStrand {s : State} (c : Nat) (n : Fin 4) (t : Strand) (h : MemoryOk s) : MemoryOk (setStrand s c n t) :=
  memoryOk_of_same rfl rfl rfl h
theorem memoryOk_modMe {s : State} (f : Strand → Strand) (h : MemoryOk s) : MemoryOk (modMe s f) := memoryOk_of_same rfl rfl rfl h
theorem memoryOk_writeS {s : State} (r : BitVec 5) (x : Word) (h : MemoryOk s) : MemoryOk (writeS s r x) := memoryOk_modMe _ h
theorem memoryOk_writeV {s : State} (r : BitVec 5) (x : VWord) (h : MemoryOk s) : MemoryOk (writeV s r x) := memoryOk_modMe _ h
theorem memoryOk_writeK {s : State} (r : BitVec 3) (x : KWord) (h : MemoryOk s) : MemoryOk (writeK s r x) := memoryOk_modMe _ h
theorem memoryOk_setEvent {s : State} (e : Event) (h : MemoryOk s) : MemoryOk (setEvent s e) := memoryOk_of_same rfl rfl rfl h

/-- A package of the state, or the reset one that stands for none. -/
theorem packageMemoryOk_get {s : State} (p : Nat) (h : MemoryOk s) : PackageMemoryOk (getPackage s p) := by
  unfold getPackage
  cases hp : mapGet? s.packages p with
  | none => exact fun q (hq : none = some q) => by cases hq
  | some k =>
    obtain ⟨n, hn⟩ := mem_of_mapGet _ _ _ hp
    exact h.2.2 _ hn

/-- A package replaced by one whose safe tier is canonical. -/
theorem memoryOk_modPackage {s : State} (p : Nat) (f : Package → Package) (hf : ∀ k, PackageMemoryOk k → PackageMemoryOk (f k))
    (h : MemoryOk s) : MemoryOk (modPackage s p f) := by
  refine ⟨h.1, h.2.1, fun e he => ?_⟩
  rcases mem_mapSet _ _ _ _ he with rfl | he
  · exact hf _ (packageMemoryOk_get p h)
  · exact h.2.2 e he

/-- Every package replaced by one whose safe tier is canonical. -/
theorem memoryOk_mapPackages {s : State} (f : Package → Package) (hf : ∀ k, PackageMemoryOk k → PackageMemoryOk (f k)) (h : MemoryOk s) :
    MemoryOk { s with packages := s.packages.map fun e => (e.1, f e.2) } := by
  refine ⟨h.1, h.2.1, fun e he => ?_⟩
  simp only [List.mem_map] at he
  obtain ⟨q, hq, rfl⟩ := he
  exact hf _ (h.2.2 q hq)

theorem memoryOk_modQueue {s : State} (p q : Nat) (f : Queue → Queue) (h : MemoryOk s) : MemoryOk (modQueue s p q f) :=
  memoryOk_modPackage p _ (fun _ hk => hk) h

/-- A region replaced by one whose copies of memory are canonical. -/
theorem memoryOk_modRegion {s : State} (id : Nat) (f : Region → Region) (hf : ∀ r, RegionMemoryOk r → RegionMemoryOk (f r))
    (h : MemoryOk s) : MemoryOk (modRegion s id f) := by
  refine ⟨h.1, fun r hr => ?_, h.2.2⟩
  simp only [modRegion, List.mem_map] at hr
  obtain ⟨q, hq, rfl⟩ := hr
  split
  · exact hf q (h.2.1 q hq)
  · exact h.2.1 q hq

theorem memoryOk_setRegion {s : State} (r : Region) (hr : RegionMemoryOk r) (h : MemoryOk s) : MemoryOk (setRegion s r) := by
  refine ⟨h.1, fun q hq => ?_, h.2.2⟩
  simp only [setRegion, List.mem_map] at hq
  obtain ⟨q', hq', rfl⟩ := hq
  split
  · exact hr
  · exact h.2.1 q' hq'

theorem memoryOk_modRegionOf {s : State} (c : Nat) (f : Region → Region) (hf : ∀ r, RegionMemoryOk r → RegionMemoryOk (f r))
    (h : MemoryOk s) : MemoryOk (modRegionOf s c f) := by
  unfold modRegionOf
  split
  · exact memoryOk_modRegion _ f hf h
  · exact h

theorem regionMemoryOk_idle (b : Rcb) : RegionMemoryOk (Region.idle b) := ⟨rfl, rfl, rfl⟩

theorem regionMemoryOk_clear (r : Region) : RegionMemoryOk (clearRegion r) := ⟨rfl, rfl, rfl⟩

/-- A region of the state, or the idle one that stands for none. -/
theorem regionMemoryOk_get {s : State} (id : Nat) (h : MemoryOk s) : RegionMemoryOk (getRegion s id) := by
  unfold getRegion getRegion?
  cases hf : s.regions.find? fun r => r.rcb.id = id with
  | none => exact regionMemoryOk_idle _
  | some r => exact h.2.1 r (List.mem_of_find?_eq_some hf)

/-- A recovery point written to the safe tiers (R444). -/
theorem memoryOk_putPoint {s : State} (r : Region) (p : RecPoint) (hp : Memory.wf p.mem = true) (h : MemoryOk s) : MemoryOk (putPoint s r p) :=
  memoryOk_foldl _ (fun _ k hs => memoryOk_modPackage k _ (fun _ _ q hq => by cases hq; exact hp) hs) _ _ h

theorem Memory.wf_putBlock (m : Memory) (b : Rcb) (off x : Nat) (h : Memory.wf m = true) : Memory.wf (putBlock m b off x) = true :=
  Memory.wf_foldl _ (fun _ _ hm => Memory.wf_memPut _ _ _ _ hm) _ _ h

theorem memoryOk_regionState {s : State} (id : Nat) (st : RegionState) (h : MemoryOk s) : MemoryOk (setRegionState s id st) := by
  unfold setRegionState
  exact memoryOk_mem (Memory.wf_putBlock _ _ _ _ h.1) (memoryOk_modRegion id _ (fun _ hr => hr) h)

theorem memoryOk_noteFault {s : State} (id : Nat) (detail faddr : Word) (sub : Nat) (h : MemoryOk s) :
    MemoryOk (noteFault s id detail faddr sub) :=
  memoryOk_mem (Memory.wf_putBlock _ _ _ _ (Memory.wf_putBlock _ _ _ _ h.1)) (memoryOk_modRegion id _ (fun _ hr => hr) h)

/-! ### The access checker's record, loads and stores -/

theorem memoryOk_noteAccess {s : State} (w : Who) (p : Place) (n : Nat) (write : Bool) (a : Option (BitVec 3 × Bool)) (waitw handoff : Bool)
    (h : MemoryOk s) : MemoryOk (noteAccess s w p n write a waitw handoff).1 := by
  unfold noteAccess
  split
  · exact h
  · dsimp only
    split
    · exact memoryOk_modRegionOf _ _ (fun _ hr => hr) (memoryOk_of_same rfl rfl rfl h)
    · exact memoryOk_modRegionOf _ _ (fun _ hr => hr) (memoryOk_modStrand _ _ _ h)

theorem memoryOk_noteReg {s : State} (core n sel : Nat) (write : Bool) (h : MemoryOk s) : MemoryOk (noteRegAs s core n sel write).1 :=
  memoryOk_of_same rfl rfl rfl h

theorem memoryOk_markLeaf {s : State} (p : Place) (write : Bool) (h : MemoryOk s) : MemoryOk (markLeaf s p write) := by
  unfold markLeaf
  split
  · exact h
  · exact memoryOk_mem (Memory.wf_memWrite _ _ _ h.1) h

theorem memoryOk_freshBytes {s : State} (n : Nat) (h : MemoryOk s) : MemoryOk (freshBytes s n).2 := memoryOk_of_same rfl rfl rfl h

theorem memoryOk_loadAt {s : State} (w : Who) (p : Place) (n : Nat) (h : MemoryOk s) : MemoryOk (loadAt s w p n).2 := by
  have h1 := memoryOk_noteAccess w p n false none false false (memoryOk_markLeaf p false h)
  unfold loadAt
  dsimp only
  split
  · next s1 heq => rw [heq] at h1; exact memoryOk_freshBytes n h1
  · next s1 heq => rw [heq] at h1; exact h1

theorem memoryOk_storeAt {s : State} (w : Who) (p : Place) (bs : List Byte) (handoff : Bool) (h : MemoryOk s) :
    MemoryOk (storeAt s w p bs handoff) := by
  have h1 := memoryOk_noteAccess w p bs.length true none false handoff (memoryOk_markLeaf p true h)
  unfold storeAt
  dsimp only
  split
  · exact memoryOk_modCore _ _ (memoryOk_mem (Memory.wf_writeGuarded _ _ _ _ h1.1) h1)
  · exact memoryOk_mem (Memory.wf_writeGuarded _ _ _ _ h1.1) h1

theorem memoryOk_nextOrder {s : State} (core : Nat) (n : Fin 4) (h : MemoryOk s) : MemoryOk (nextOrder s core n).2 :=
  memoryOk_modStrand _ _ _ h

theorem memoryOk_deferStore {s t : State} {core : Nat} {n : Fin 4} {o : Order} {p : Place} {bs : List Byte}
    (ht : deferStore s core n o p bs = some t) (h : MemoryOk s) : MemoryOk t := by
  unfold deferStore at ht
  dsimp only at ht
  split at ht
  · cases ht
  · cases ht
    exact memoryOk_modCore _ _ (memoryOk_modStrand _ _ _ (memoryOk_markLeaf p true h))

theorem memoryOk_noteHandoff {s : State} (core : Nat) (x : Handoff) (h : MemoryOk s) : MemoryOk (noteHandoff s core x) :=
  memoryOk_modRegionOf _ _ (fun _ hr => hr) h

/-! ### Packets and kills -/

theorem memoryOk_askPage {s : State} (pkg : Nat) (pasid : BitVec 20) (page : Nat) (h : MemoryOk s) : MemoryOk (askPage s pkg pasid page) :=
  memoryOk_modPackage _ _ (fun _ hk => hk) h

theorem memoryOk_askMissing {s : State} (pkg : Nat) (pasid : BitVec 20) (l : List CpNeed) (h : MemoryOk s) :
    MemoryOk (askMissing s pkg pasid l) := by
  unfold askMissing
  split
  · exact memoryOk_askPage _ _ _ h
  · exact h

theorem memoryOk_writeRecord {s : State} (pkg q : Nat) (num : BitVec 32) (comp : Word) (irq : Bool) (status : Nat) (detail : Word)
    (h : MemoryOk s) : MemoryOk (writeRecord s pkg q num comp irq status detail) := by
  unfold writeRecord
  dsimp only
  have h1 : MemoryOk (if comp = 0#64 then s else
      match cpKey? pkg comp with
      | none => s
      | some k =>
        if (qTorn (getPackage s pkg) (getQueue s pkg q) && spaceOf k = 5) ||
            cpRefused (getPackage s pkg) ((getQueue s pkg q).cfg.extractLsb' 32 20) [(comp, 32, true)] then s
        else { s with mem := memPut (memPut (memPut s.mem (k + 8) 8 detail.toNat) (k + 24) 8 num.toNat) k 8 status }) := by
    split
    · exact h
    · split
      · exact h
      · split
        · exact h
        · exact memoryOk_mem (Memory.wf_memPut _ _ _ _ (Memory.wf_memPut _ _ _ _ (Memory.wf_memPut _ _ _ _ h.1))) h
  split
  · exact memoryOk_modPackage _ _ (fun _ hk => hk) h1
  · exact h1

theorem memoryOk_completePacket {s : State} (pkg q : Nat) (num : BitVec 32) (comp : Word) (irq : Bool) (status : Nat) (detail : Word)
    (h : MemoryOk s) : MemoryOk (completePacket s pkg q num comp irq status detail) := by
  unfold completePacket
  split
  · exact memoryOk_of_same rfl rfl rfl (memoryOk_askMissing pkg ((getQueue s pkg q).cfg.extractLsb' 32 20) [(comp, 32, true)] h)
  · exact memoryOk_modQueue _ _ _ (memoryOk_writeRecord _ _ _ _ _ _ _ h)

theorem memoryOk_putNotice {s : State} (pkg : Nat) (pasid : BitVec 20) (comp : Word) (value : Nat) (h : MemoryOk s) :
    MemoryOk (putNotice s pkg pasid comp value) := by
  unfold putNotice
  split
  · exact h
  · split
    · exact h
    · exact memoryOk_memPut _ _ _ h

theorem memoryOk_completeLaunch {s : State} (b : Rcb) (l : Launch) (cores : List Nat) (status : Nat) (detail : Word) (h : MemoryOk s) :
    MemoryOk (completeLaunch s b l cores status detail) := by
  unfold completeLaunch
  split
  · exact memoryOk_of_same rfl rfl rfl h
  · exact memoryOk_completePacket _ _ _ _ _ _ _ h

theorem memoryOk_finishInvals {s : State} (id : Nat) (h : MemoryOk s) : MemoryOk (finishInvals s id) :=
  memoryOk_modRegion id _ (fun _ hr => hr) (memoryOk_foldl _ (fun _ _ hs => memoryOk_completePacket _ _ _ _ _ _ _ hs) _ _ h)

theorem memoryOk_releaseCores {s : State} (cs : List Nat) (h : MemoryOk s) :
    MemoryOk (cs.foldl (fun s c => modCore s c releaseCore) s) := memoryOk_foldl _ (fun _ _ hs => memoryOk_modCore _ _ hs) _ _ h

theorem memoryOk_spoilBytes {s : State} (k n : Nat) (h : MemoryOk s) : MemoryOk (spoilBytes s k n) :=
  memoryOk_mem (Memory.wf_writeBytes _ _ k h.1) (memoryOk_freshBytes n h)

theorem memoryOk_spoilAll {s : State} (l : List (Nat × Nat)) (h : MemoryOk s) : MemoryOk (spoilAll s l) :=
  memoryOk_foldl _ (fun _ _ hs => memoryOk_spoilBytes _ _ hs) _ _ h

theorem memoryOk_killOne {s : State} (status : Nat) (detail : Word) (id : Nat) (h : MemoryOk s) : MemoryOk (killOne status detail s id) := by
  unfold killOne
  dsimp only
  split
  · exact h
  · have h1 := memoryOk_finishInvals id (memoryOk_spoilAll (brokenWrites s id fun _ => true) h)
    refine memoryOk_completeLaunch _ _ _ _ _ (memoryOk_mapPackages (fun p => { p with
      cache := p.cache.map fun c => { c with pins := c.pins.filter (· ≠ id) }
      inflight := p.inflight.filter fun f => f.region ≠ id
      unmapped := p.unmapped.filter fun u => u.1 ≠ id }) (fun _ hk => hk) (memoryOk_regionState id .killed
      (memoryOk_modRegion id _ (fun r _ => regionMemoryOk_clear r) (memoryOk_releaseCores _ (memoryOk_foldl _ ?_ _ _ h1)))))
    intro s x hs
    split
    · exact hs
    · exact memoryOk_completePacket _ _ _ _ _ _ _ hs

theorem memoryOk_endWait {s : State} (w : PacketWait) (h : MemoryOk s) : MemoryOk (endWait s w) := by
  unfold endWait
  split
  · exact memoryOk_completePacket _ _ _ _ _ _ _ h
  · exact memoryOk_completePacket _ _ _ _ _ _ _ h
  · exact memoryOk_putNotice _ _ _ _ h
  · exact memoryOk_completePacket _ _ _ _ _ _ _ h

theorem memoryOk_finishWaits {s : State} (h : MemoryOk s) : MemoryOk (finishWaits s) :=
  memoryOk_foldl _ (fun _ _ hs => memoryOk_endWait _ hs) _ _ (memoryOk_of_same rfl rfl rfl h)

theorem memoryOk_killSubtree {s : State} (root status : Nat) (detail : Word) (h : MemoryOk s) : MemoryOk (killSubtree s root status detail) :=
  memoryOk_finishWaits (memoryOk_foldl _ (fun _ _ hs => memoryOk_killOne _ _ _ hs) _ _ h)

theorem memoryOk_killFaultDomain {s : State} (core code sub : Nat) (faddr : Word) (h : MemoryOk s) :
    MemoryOk (killFaultDomain s core code sub faddr) := by
  unfold killFaultDomain
  split
  · exact memoryOk_modCore _ _ h
  · exact memoryOk_killSubtree _ _ _ (memoryOk_noteFault _ _ _ _ h)

/-! ### Trap entry, waits, the frame of a word -/

theorem memoryOk_trapEntry {s : State} (core : Nat) (n : Fin 4) (code kind : Nat) (epc : TcmAddr) (faddr finfo : Word) (h : MemoryOk s) :
    MemoryOk (trapEntry s core n code kind epc faddr finfo) := by
  unfold trapEntry
  dsimp only
  split
  · exact memoryOk_killFaultDomain _ _ _ _ h
  split
  · exact memoryOk_killFaultDomain _ _ _ _ h
  · refine memoryOk_modStrand _ _ _ ?_
    split
    · exact memoryOk_storeAt _ _ _ _ (memoryOk_storeAt _ _ _ _ (memoryOk_storeAt _ _ _ _ (memoryOk_storeAt _ _ _ _ h)))
    · exact memoryOk_storeAt _ _ _ _ (memoryOk_storeAt _ _ _ _ (memoryOk_storeAt _ _ _ _ h))

theorem memoryOk_raise {s : State} (code sub : Nat) (faddr : Word) (acc : Nat) (h : MemoryOk s) : MemoryOk (raise s code sub faddr acc) :=
  memoryOk_setEvent _ (memoryOk_trapEntry _ _ _ _ _ _ _ h)

theorem memoryOk_block {s : State} (w : Wait) (h : MemoryOk s) : MemoryOk (block s w) := memoryOk_of_same rfl rfl rfl h

theorem memoryOk_notePark {s : State} (va : Word) (h : MemoryOk s) : MemoryOk (notePark s va) := memoryOk_modMe _ h

theorem memoryOk_parkStrand {s : State} (pkg : Nat) (va : Word) (kind lvl : Nat) (h : MemoryOk s) : MemoryOk (parkStrand s pkg va kind lvl) :=
  memoryOk_block _ (memoryOk_modPackage _ _ (fun _ hk => hk) (memoryOk_modMe _ (memoryOk_notePark va h)))

theorem memoryOk_parkHost {s : State} (pasid : BitVec 20) (page : Nat) (va : Word) (h : MemoryOk s) : MemoryOk (parkHost s pasid page va) :=
  memoryOk_block _ (memoryOk_modPackage _ _ (fun _ hk => hk) (memoryOk_modMe _ (memoryOk_notePark va h)))

theorem memoryOk_deliverLate {s : State} (only : Option Engine) (h : MemoryOk s) : MemoryOk (deliverLate s only) := by
  unfold deliverLate
  split
  · exact h
  · exact memoryOk_setEvent _ (memoryOk_trapEntry _ _ _ _ _ _ _ (memoryOk_modMe _ h))

theorem memoryOk_stopWord {s : State} (e : Stop) (h : MemoryOk s) : MemoryOk (stopWord s e) := by
  cases e with
  | trap c b f a => exact memoryOk_raise c b f a h
  | page p v k l => exact memoryOk_parkStrand p v k l h
  | hostPage p g v => exact memoryOk_parkHost p g v h
  | wait w => exact memoryOk_block w h
  | late o => exact memoryOk_deliverLate o h

theorem memoryOk_retire {s : State} (h : MemoryOk s) : MemoryOk (retire s) := by
  unfold retire
  split <;> exact memoryOk_of_same rfl rfl rfl h

theorem memoryOk_jumpTo {s : State} (a : Word) (h : MemoryOk s) : MemoryOk (jumpTo s a) := memoryOk_modMe _ h

theorem memoryOk_dispatch {s : State} (e : Engine) (st : RingState) (h : MemoryOk s) : MemoryOk (dispatch s e st).2 := memoryOk_modMe _ h

/-- A word keeps the form when its own effect does. -/
theorem memoryOk_issueWord {i : Instr} {s t : State} {f : State → Except Stop State} (hf : ∀ u, f s = .ok u → MemoryOk u)
    (ht : issueWord i s f = .next t) (h : MemoryOk s) : MemoryOk t := by
  unfold issueWord at ht
  split at ht
  · split at ht
    · cases ht; exact memoryOk_stopWord _ h
    · split at ht
      · cases hu : f s with
        | ok u => rw [hu] at ht; cases ht; exact hf _ hu
        | error e => rw [hu] at ht; cases ht; exact memoryOk_stopWord _ h
      · cases ht; exact memoryOk_stopWord _ h
  · cases ht

/-! ### The X phase -/

theorem memoryOk_noteX {s : State} (id : Nat) (a : Agent) (k n : Nat) (w : Bool) (src e : Nat) (count : Bool) (va : Word) (mem : Nat)
    (h : MemoryOk s) : MemoryOk (noteX s id a k n w src e count va mem) := memoryOk_modRegion id _ (fun _ hr => hr) h

theorem memoryOk_niWrite {s : State} (id core kind off : Nat) (bs : List Byte) (src e : Nat) (count : Bool) (h : MemoryOk s) :
    MemoryOk (niWrite s id core kind off bs src e count) := by
  unfold niWrite
  dsimp only
  have h1 := memoryOk_noteX id (.ni core kind) (tcmKey core off) bs.length true src e count (BitVec.ofNat 64 off) 0 h
  exact memoryOk_modRegion id _ (fun _ hr => hr) (memoryOk_mem (Memory.wf_writeGuarded _ _ _ _ h1.1) h1)

theorem memoryOk_notePlanRead {s : State} (id core e key n : Nat) (va : Word) (mem : Nat) (h : MemoryOk s) :
    MemoryOk (notePlanRead s id core e key n va mem) :=
  memoryOk_modRegion id _ (fun _ hr => hr) (memoryOk_noteX _ _ _ _ _ _ _ _ _ _ h)

theorem memoryOk_planRead {s : State} (id core e key n : Nat) (va : Word) (mem : Nat) (h : MemoryOk s) :
    MemoryOk (planRead s id core e key n va mem).2 := by
  unfold planRead
  dsimp only
  split
  · exact memoryOk_freshBytes n (memoryOk_notePlanRead _ _ _ _ _ _ _ h)
  · exact memoryOk_notePlanRead _ _ _ _ _ _ _ h

end Sys2Proof.Machine
end

