-- ==== Sys2Proof/Laws/State.lean ====
section
/-! SUPPORT. What each shared update leaves alone, field by field of `State`: one rewriting lemma for each update and each field
it does not change, so that no later proof unfolds a record update. -/

namespace Sys2Proof.Machine

/-! ### `setCore` -/

@[simp] theorem setCore_mem (s : State) (c : Nat) (x : Core) : (setCore s c x).mem = s.mem := rfl
@[simp] theorem setCore_regions (s : State) (c : Nat) (x : Core) : (setCore s c x).regions = s.regions := rfl
@[simp] theorem setCore_packages (s : State) (c : Nat) (x : Core) : (setCore s c x).packages = s.packages := rfl
@[simp] theorem setCore_waits (s : State) (c : Nat) (x : Core) : (setCore s c x).waits = s.waits := rfl
@[simp] theorem setCore_domLast (s : State) (c : Nat) (x : Core) : (setCore s c x).domLast = s.domLast := rfl
@[simp] theorem setCore_ctx (s : State) (c : Nat) (x : Core) : (setCore s c x).ctx = s.ctx := rfl
@[simp] theorem setCore_script (s : State) (c : Nat) (x : Core) : (setCore s c x).script = s.script := rfl
@[simp] theorem setCore_turn (s : State) (c : Nat) (x : Core) : (setCore s c x).turn = s.turn := rfl
@[simp] theorem setCore_fresh (s : State) (c : Nat) (x : Core) : (setCore s c x).fresh = s.fresh := rfl
@[simp] theorem setCore_thread (s : State) (c : Nat) (x : Core) : (setCore s c x).thread = s.thread := rfl
@[simp] theorem setCore_doubts (s : State) (c : Nat) (x : Core) : (setCore s c x).doubts = s.doubts := rfl

/-! ### `modCore` -/

@[simp] theorem modCore_mem (s : State) (c : Nat) (f : Core → Core) : (modCore s c f).mem = s.mem := rfl
@[simp] theorem modCore_regions (s : State) (c : Nat) (f : Core → Core) : (modCore s c f).regions = s.regions := rfl
@[simp] theorem modCore_packages (s : State) (c : Nat) (f : Core → Core) : (modCore s c f).packages = s.packages := rfl
@[simp] theorem modCore_waits (s : State) (c : Nat) (f : Core → Core) : (modCore s c f).waits = s.waits := rfl
@[simp] theorem modCore_domLast (s : State) (c : Nat) (f : Core → Core) : (modCore s c f).domLast = s.domLast := rfl
@[simp] theorem modCore_ctx (s : State) (c : Nat) (f : Core → Core) : (modCore s c f).ctx = s.ctx := rfl
@[simp] theorem modCore_script (s : State) (c : Nat) (f : Core → Core) : (modCore s c f).script = s.script := rfl
@[simp] theorem modCore_turn (s : State) (c : Nat) (f : Core → Core) : (modCore s c f).turn = s.turn := rfl
@[simp] theorem modCore_fresh (s : State) (c : Nat) (f : Core → Core) : (modCore s c f).fresh = s.fresh := rfl
@[simp] theorem modCore_thread (s : State) (c : Nat) (f : Core → Core) : (modCore s c f).thread = s.thread := rfl
@[simp] theorem modCore_doubts (s : State) (c : Nat) (f : Core → Core) : (modCore s c f).doubts = s.doubts := rfl

/-! ### `setStrand` -/

@[simp] theorem setStrand_mem (s : State) (c : Nat) (n : Fin 4) (t : Strand) : (setStrand s c n t).mem = s.mem := rfl
@[simp] theorem setStrand_regions (s : State) (c : Nat) (n : Fin 4) (t : Strand) : (setStrand s c n t).regions = s.regions := rfl
@[simp] theorem setStrand_packages (s : State) (c : Nat) (n : Fin 4) (t : Strand) : (setStrand s c n t).packages = s.packages := rfl
@[simp] theorem setStrand_waits (s : State) (c : Nat) (n : Fin 4) (t : Strand) : (setStrand s c n t).waits = s.waits := rfl
@[simp] theorem setStrand_domLast (s : State) (c : Nat) (n : Fin 4) (t : Strand) : (setStrand s c n t).domLast = s.domLast := rfl
@[simp] theorem setStrand_ctx (s : State) (c : Nat) (n : Fin 4) (t : Strand) : (setStrand s c n t).ctx = s.ctx := rfl
@[simp] theorem setStrand_script (s : State) (c : Nat) (n : Fin 4) (t : Strand) : (setStrand s c n t).script = s.script := rfl
@[simp] theorem setStrand_turn (s : State) (c : Nat) (n : Fin 4) (t : Strand) : (setStrand s c n t).turn = s.turn := rfl
@[simp] theorem setStrand_fresh (s : State) (c : Nat) (n : Fin 4) (t : Strand) : (setStrand s c n t).fresh = s.fresh := rfl
@[simp] theorem setStrand_thread (s : State) (c : Nat) (n : Fin 4) (t : Strand) : (setStrand s c n t).thread = s.thread := rfl
@[simp] theorem setStrand_doubts (s : State) (c : Nat) (n : Fin 4) (t : Strand) : (setStrand s c n t).doubts = s.doubts := rfl

/-! ### `modStrand` -/

@[simp] theorem modStrand_mem (s : State) (c : Nat) (n : Fin 4) (f : Strand → Strand) : (modStrand s c n f).mem = s.mem := rfl
@[simp] theorem modStrand_regions (s : State) (c : Nat) (n : Fin 4) (f : Strand → Strand) : (modStrand s c n f).regions = s.regions := rfl
@[simp] theorem modStrand_packages (s : State) (c : Nat) (n : Fin 4) (f : Strand → Strand) : (modStrand s c n f).packages = s.packages := rfl
@[simp] theorem modStrand_waits (s : State) (c : Nat) (n : Fin 4) (f : Strand → Strand) : (modStrand s c n f).waits = s.waits := rfl
@[simp] theorem modStrand_domLast (s : State) (c : Nat) (n : Fin 4) (f : Strand → Strand) : (modStrand s c n f).domLast = s.domLast := rfl
@[simp] theorem modStrand_ctx (s : State) (c : Nat) (n : Fin 4) (f : Strand → Strand) : (modStrand s c n f).ctx = s.ctx := rfl
@[simp] theorem modStrand_script (s : State) (c : Nat) (n : Fin 4) (f : Strand → Strand) : (modStrand s c n f).script = s.script := rfl
@[simp] theorem modStrand_turn (s : State) (c : Nat) (n : Fin 4) (f : Strand → Strand) : (modStrand s c n f).turn = s.turn := rfl
@[simp] theorem modStrand_fresh (s : State) (c : Nat) (n : Fin 4) (f : Strand → Strand) : (modStrand s c n f).fresh = s.fresh := rfl
@[simp] theorem modStrand_thread (s : State) (c : Nat) (n : Fin 4) (f : Strand → Strand) : (modStrand s c n f).thread = s.thread := rfl
@[simp] theorem modStrand_doubts (s : State) (c : Nat) (n : Fin 4) (f : Strand → Strand) : (modStrand s c n f).doubts = s.doubts := rfl

/-! ### `modMe` -/

@[simp] theorem modMe_mem (s : State) (f : Strand → Strand) : (modMe s f).mem = s.mem := rfl
@[simp] theorem modMe_regions (s : State) (f : Strand → Strand) : (modMe s f).regions = s.regions := rfl
@[simp] theorem modMe_packages (s : State) (f : Strand → Strand) : (modMe s f).packages = s.packages := rfl
@[simp] theorem modMe_waits (s : State) (f : Strand → Strand) : (modMe s f).waits = s.waits := rfl
@[simp] theorem modMe_domLast (s : State) (f : Strand → Strand) : (modMe s f).domLast = s.domLast := rfl
@[simp] theorem modMe_ctx (s : State) (f : Strand → Strand) : (modMe s f).ctx = s.ctx := rfl
@[simp] theorem modMe_script (s : State) (f : Strand → Strand) : (modMe s f).script = s.script := rfl
@[simp] theorem modMe_turn (s : State) (f : Strand → Strand) : (modMe s f).turn = s.turn := rfl
@[simp] theorem modMe_fresh (s : State) (f : Strand → Strand) : (modMe s f).fresh = s.fresh := rfl
@[simp] theorem modMe_thread (s : State) (f : Strand → Strand) : (modMe s f).thread = s.thread := rfl
@[simp] theorem modMe_doubts (s : State) (f : Strand → Strand) : (modMe s f).doubts = s.doubts := rfl

/-! ### `modMyCore` -/

@[simp] theorem modMyCore_mem (s : State) (f : Core → Core) : (modMyCore s f).mem = s.mem := rfl
@[simp] theorem modMyCore_regions (s : State) (f : Core → Core) : (modMyCore s f).regions = s.regions := rfl
@[simp] theorem modMyCore_packages (s : State) (f : Core → Core) : (modMyCore s f).packages = s.packages := rfl
@[simp] theorem modMyCore_waits (s : State) (f : Core → Core) : (modMyCore s f).waits = s.waits := rfl
@[simp] theorem modMyCore_domLast (s : State) (f : Core → Core) : (modMyCore s f).domLast = s.domLast := rfl
@[simp] theorem modMyCore_ctx (s : State) (f : Core → Core) : (modMyCore s f).ctx = s.ctx := rfl
@[simp] theorem modMyCore_script (s : State) (f : Core → Core) : (modMyCore s f).script = s.script := rfl
@[simp] theorem modMyCore_turn (s : State) (f : Core → Core) : (modMyCore s f).turn = s.turn := rfl
@[simp] theorem modMyCore_fresh (s : State) (f : Core → Core) : (modMyCore s f).fresh = s.fresh := rfl
@[simp] theorem modMyCore_thread (s : State) (f : Core → Core) : (modMyCore s f).thread = s.thread := rfl
@[simp] theorem modMyCore_doubts (s : State) (f : Core → Core) : (modMyCore s f).doubts = s.doubts := rfl

/-! ### `setRegion` -/

@[simp] theorem setRegion_mem (s : State) (r : Region) : (setRegion s r).mem = s.mem := rfl
@[simp] theorem setRegion_cores (s : State) (r : Region) : (setRegion s r).cores = s.cores := rfl
@[simp] theorem setRegion_packages (s : State) (r : Region) : (setRegion s r).packages = s.packages := rfl
@[simp] theorem setRegion_waits (s : State) (r : Region) : (setRegion s r).waits = s.waits := rfl
@[simp] theorem setRegion_domLast (s : State) (r : Region) : (setRegion s r).domLast = s.domLast := rfl
@[simp] theorem setRegion_ctx (s : State) (r : Region) : (setRegion s r).ctx = s.ctx := rfl
@[simp] theorem setRegion_script (s : State) (r : Region) : (setRegion s r).script = s.script := rfl
@[simp] theorem setRegion_turn (s : State) (r : Region) : (setRegion s r).turn = s.turn := rfl
@[simp] theorem setRegion_fresh (s : State) (r : Region) : (setRegion s r).fresh = s.fresh := rfl
@[simp] theorem setRegion_thread (s : State) (r : Region) : (setRegion s r).thread = s.thread := rfl
@[simp] theorem setRegion_doubts (s : State) (r : Region) : (setRegion s r).doubts = s.doubts := rfl

/-! ### `modRegion` -/

@[simp] theorem modRegion_mem (s : State) (id : Nat) (f : Region → Region) : (modRegion s id f).mem = s.mem := rfl
@[simp] theorem modRegion_cores (s : State) (id : Nat) (f : Region → Region) : (modRegion s id f).cores = s.cores := rfl
@[simp] theorem modRegion_packages (s : State) (id : Nat) (f : Region → Region) : (modRegion s id f).packages = s.packages := rfl
@[simp] theorem modRegion_waits (s : State) (id : Nat) (f : Region → Region) : (modRegion s id f).waits = s.waits := rfl
@[simp] theorem modRegion_domLast (s : State) (id : Nat) (f : Region → Region) : (modRegion s id f).domLast = s.domLast := rfl
@[simp] theorem modRegion_ctx (s : State) (id : Nat) (f : Region → Region) : (modRegion s id f).ctx = s.ctx := rfl
@[simp] theorem modRegion_script (s : State) (id : Nat) (f : Region → Region) : (modRegion s id f).script = s.script := rfl
@[simp] theorem modRegion_turn (s : State) (id : Nat) (f : Region → Region) : (modRegion s id f).turn = s.turn := rfl
@[simp] theorem modRegion_fresh (s : State) (id : Nat) (f : Region → Region) : (modRegion s id f).fresh = s.fresh := rfl
@[simp] theorem modRegion_thread (s : State) (id : Nat) (f : Region → Region) : (modRegion s id f).thread = s.thread := rfl
@[simp] theorem modRegion_doubts (s : State) (id : Nat) (f : Region → Region) : (modRegion s id f).doubts = s.doubts := rfl

/-! ### `modPackage` -/

@[simp] theorem modPackage_mem (s : State) (p : Nat) (f : Package → Package) : (modPackage s p f).mem = s.mem := rfl
@[simp] theorem modPackage_cores (s : State) (p : Nat) (f : Package → Package) : (modPackage s p f).cores = s.cores := rfl
@[simp] theorem modPackage_regions (s : State) (p : Nat) (f : Package → Package) : (modPackage s p f).regions = s.regions := rfl
@[simp] theorem modPackage_waits (s : State) (p : Nat) (f : Package → Package) : (modPackage s p f).waits = s.waits := rfl
@[simp] theorem modPackage_domLast (s : State) (p : Nat) (f : Package → Package) : (modPackage s p f).domLast = s.domLast := rfl
@[simp] theorem modPackage_ctx (s : State) (p : Nat) (f : Package → Package) : (modPackage s p f).ctx = s.ctx := rfl
@[simp] theorem modPackage_script (s : State) (p : Nat) (f : Package → Package) : (modPackage s p f).script = s.script := rfl
@[simp] theorem modPackage_turn (s : State) (p : Nat) (f : Package → Package) : (modPackage s p f).turn = s.turn := rfl
@[simp] theorem modPackage_fresh (s : State) (p : Nat) (f : Package → Package) : (modPackage s p f).fresh = s.fresh := rfl
@[simp] theorem modPackage_thread (s : State) (p : Nat) (f : Package → Package) : (modPackage s p f).thread = s.thread := rfl
@[simp] theorem modPackage_doubts (s : State) (p : Nat) (f : Package → Package) : (modPackage s p f).doubts = s.doubts := rfl

/-! ### `modQueue` -/

@[simp] theorem modQueue_mem (s : State) (p q : Nat) (f : Queue → Queue) : (modQueue s p q f).mem = s.mem := rfl
@[simp] theorem modQueue_cores (s : State) (p q : Nat) (f : Queue → Queue) : (modQueue s p q f).cores = s.cores := rfl
@[simp] theorem modQueue_regions (s : State) (p q : Nat) (f : Queue → Queue) : (modQueue s p q f).regions = s.regions := rfl
@[simp] theorem modQueue_waits (s : State) (p q : Nat) (f : Queue → Queue) : (modQueue s p q f).waits = s.waits := rfl
@[simp] theorem modQueue_domLast (s : State) (p q : Nat) (f : Queue → Queue) : (modQueue s p q f).domLast = s.domLast := rfl
@[simp] theorem modQueue_ctx (s : State) (p q : Nat) (f : Queue → Queue) : (modQueue s p q f).ctx = s.ctx := rfl
@[simp] theorem modQueue_script (s : State) (p q : Nat) (f : Queue → Queue) : (modQueue s p q f).script = s.script := rfl
@[simp] theorem modQueue_turn (s : State) (p q : Nat) (f : Queue → Queue) : (modQueue s p q f).turn = s.turn := rfl
@[simp] theorem modQueue_fresh (s : State) (p q : Nat) (f : Queue → Queue) : (modQueue s p q f).fresh = s.fresh := rfl
@[simp] theorem modQueue_thread (s : State) (p q : Nat) (f : Queue → Queue) : (modQueue s p q f).thread = s.thread := rfl
@[simp] theorem modQueue_doubts (s : State) (p q : Nat) (f : Queue → Queue) : (modQueue s p q f).doubts = s.doubts := rfl

/-! ### `writeS` -/

@[simp] theorem writeS_mem (s : State) (r : BitVec 5) (x : Word) : (writeS s r x).mem = s.mem := rfl
@[simp] theorem writeS_regions (s : State) (r : BitVec 5) (x : Word) : (writeS s r x).regions = s.regions := rfl
@[simp] theorem writeS_packages (s : State) (r : BitVec 5) (x : Word) : (writeS s r x).packages = s.packages := rfl
@[simp] theorem writeS_waits (s : State) (r : BitVec 5) (x : Word) : (writeS s r x).waits = s.waits := rfl
@[simp] theorem writeS_domLast (s : State) (r : BitVec 5) (x : Word) : (writeS s r x).domLast = s.domLast := rfl
@[simp] theorem writeS_ctx (s : State) (r : BitVec 5) (x : Word) : (writeS s r x).ctx = s.ctx := rfl
@[simp] theorem writeS_script (s : State) (r : BitVec 5) (x : Word) : (writeS s r x).script = s.script := rfl
@[simp] theorem writeS_turn (s : State) (r : BitVec 5) (x : Word) : (writeS s r x).turn = s.turn := rfl
@[simp] theorem writeS_fresh (s : State) (r : BitVec 5) (x : Word) : (writeS s r x).fresh = s.fresh := rfl
@[simp] theorem writeS_thread (s : State) (r : BitVec 5) (x : Word) : (writeS s r x).thread = s.thread := rfl
@[simp] theorem writeS_doubts (s : State) (r : BitVec 5) (x : Word) : (writeS s r x).doubts = s.doubts := rfl

/-! ### `writeV` -/

@[simp] theorem writeV_mem (s : State) (r : BitVec 5) (x : VWord) : (writeV s r x).mem = s.mem := rfl
@[simp] theorem writeV_regions (s : State) (r : BitVec 5) (x : VWord) : (writeV s r x).regions = s.regions := rfl
@[simp] theorem writeV_packages (s : State) (r : BitVec 5) (x : VWord) : (writeV s r x).packages = s.packages := rfl
@[simp] theorem writeV_waits (s : State) (r : BitVec 5) (x : VWord) : (writeV s r x).waits = s.waits := rfl
@[simp] theorem writeV_domLast (s : State) (r : BitVec 5) (x : VWord) : (writeV s r x).domLast = s.domLast := rfl
@[simp] theorem writeV_ctx (s : State) (r : BitVec 5) (x : VWord) : (writeV s r x).ctx = s.ctx := rfl
@[simp] theorem writeV_script (s : State) (r : BitVec 5) (x : VWord) : (writeV s r x).script = s.script := rfl
@[simp] theorem writeV_turn (s : State) (r : BitVec 5) (x : VWord) : (writeV s r x).turn = s.turn := rfl
@[simp] theorem writeV_fresh (s : State) (r : BitVec 5) (x : VWord) : (writeV s r x).fresh = s.fresh := rfl
@[simp] theorem writeV_thread (s : State) (r : BitVec 5) (x : VWord) : (writeV s r x).thread = s.thread := rfl
@[simp] theorem writeV_doubts (s : State) (r : BitVec 5) (x : VWord) : (writeV s r x).doubts = s.doubts := rfl

/-! ### `writeK` -/

@[simp] theorem writeK_mem (s : State) (r : BitVec 3) (x : KWord) : (writeK s r x).mem = s.mem := rfl
@[simp] theorem writeK_regions (s : State) (r : BitVec 3) (x : KWord) : (writeK s r x).regions = s.regions := rfl
@[simp] theorem writeK_packages (s : State) (r : BitVec 3) (x : KWord) : (writeK s r x).packages = s.packages := rfl
@[simp] theorem writeK_waits (s : State) (r : BitVec 3) (x : KWord) : (writeK s r x).waits = s.waits := rfl
@[simp] theorem writeK_domLast (s : State) (r : BitVec 3) (x : KWord) : (writeK s r x).domLast = s.domLast := rfl
@[simp] theorem writeK_ctx (s : State) (r : BitVec 3) (x : KWord) : (writeK s r x).ctx = s.ctx := rfl
@[simp] theorem writeK_script (s : State) (r : BitVec 3) (x : KWord) : (writeK s r x).script = s.script := rfl
@[simp] theorem writeK_turn (s : State) (r : BitVec 3) (x : KWord) : (writeK s r x).turn = s.turn := rfl
@[simp] theorem writeK_fresh (s : State) (r : BitVec 3) (x : KWord) : (writeK s r x).fresh = s.fresh := rfl
@[simp] theorem writeK_thread (s : State) (r : BitVec 3) (x : KWord) : (writeK s r x).thread = s.thread := rfl
@[simp] theorem writeK_doubts (s : State) (r : BitVec 3) (x : KWord) : (writeK s r x).doubts = s.doubts := rfl

/-! ### `setEvent` -/

@[simp] theorem setEvent_mem (s : State) (e : Event) : (setEvent s e).mem = s.mem := rfl
@[simp] theorem setEvent_cores (s : State) (e : Event) : (setEvent s e).cores = s.cores := rfl
@[simp] theorem setEvent_regions (s : State) (e : Event) : (setEvent s e).regions = s.regions := rfl
@[simp] theorem setEvent_packages (s : State) (e : Event) : (setEvent s e).packages = s.packages := rfl
@[simp] theorem setEvent_waits (s : State) (e : Event) : (setEvent s e).waits = s.waits := rfl
@[simp] theorem setEvent_domLast (s : State) (e : Event) : (setEvent s e).domLast = s.domLast := rfl
@[simp] theorem setEvent_script (s : State) (e : Event) : (setEvent s e).script = s.script := rfl
@[simp] theorem setEvent_turn (s : State) (e : Event) : (setEvent s e).turn = s.turn := rfl
@[simp] theorem setEvent_fresh (s : State) (e : Event) : (setEvent s e).fresh = s.fresh := rfl
@[simp] theorem setEvent_thread (s : State) (e : Event) : (setEvent s e).thread = s.thread := rfl
@[simp] theorem setEvent_doubts (s : State) (e : Event) : (setEvent s e).doubts = s.doubts := rfl

/-! ### `jumpTo` -/

@[simp] theorem jumpTo_mem (s : State) (a : Word) : (jumpTo s a).mem = s.mem := rfl
@[simp] theorem jumpTo_regions (s : State) (a : Word) : (jumpTo s a).regions = s.regions := rfl
@[simp] theorem jumpTo_packages (s : State) (a : Word) : (jumpTo s a).packages = s.packages := rfl
@[simp] theorem jumpTo_waits (s : State) (a : Word) : (jumpTo s a).waits = s.waits := rfl
@[simp] theorem jumpTo_domLast (s : State) (a : Word) : (jumpTo s a).domLast = s.domLast := rfl
@[simp] theorem jumpTo_ctx (s : State) (a : Word) : (jumpTo s a).ctx = s.ctx := rfl
@[simp] theorem jumpTo_script (s : State) (a : Word) : (jumpTo s a).script = s.script := rfl
@[simp] theorem jumpTo_turn (s : State) (a : Word) : (jumpTo s a).turn = s.turn := rfl
@[simp] theorem jumpTo_fresh (s : State) (a : Word) : (jumpTo s a).fresh = s.fresh := rfl
@[simp] theorem jumpTo_thread (s : State) (a : Word) : (jumpTo s a).thread = s.thread := rfl
@[simp] theorem jumpTo_doubts (s : State) (a : Word) : (jumpTo s a).doubts = s.doubts := rfl

/-! ### Fields of an event -/

@[simp] theorem setEvent_event (s : State) (e : Event) : (setEvent s e).ctx.event = e := rfl
@[simp] theorem setEvent_core (s : State) (e : Event) : (setEvent s e).ctx.core = s.ctx.core := rfl
@[simp] theorem setEvent_strand (s : State) (e : Event) : (setEvent s e).ctx.strand = s.ctx.strand := rfl
@[simp] theorem setEvent_slot (s : State) (e : Event) : (setEvent s e).ctx.slot = s.ctx.slot := rfl
@[simp] theorem setEvent_snap (s : State) (e : Event) : (setEvent s e).ctx.snap = s.ctx.snap := rfl

end Sys2Proof.Machine
end

