-- ==== Sys2Proof/Laws/Strands.lean ====
section
/-! SUPPORT. Cores, strands and register files: what a read gives after an update of the same place, and of another. -/

namespace Sys2Proof.Machine

/-! ### Cores -/

@[simp] theorem getCore_setCore_same (s : State) (c : Nat) (x : Core) : getCore (setCore s c x) c = x := by
  simp [getCore, setCore]

theorem getCore_setCore_other (s : State) (c c' : Nat) (x : Core) (h : c' ≠ c) : getCore (setCore s c x) c' = getCore s c' := by
  simp [getCore, setCore, mapGet_mapSet_other _ _ _ _ h]

@[simp] theorem getCore_modCore_same (s : State) (c : Nat) (f : Core → Core) : getCore (modCore s c f) c = f (getCore s c) := by
  simp [modCore]

theorem getCore_modCore_other (s : State) (c c' : Nat) (f : Core → Core) (h : c' ≠ c) :
    getCore (modCore s c f) c' = getCore s c' := getCore_setCore_other _ _ _ _ h

/-! ### Strands -/

@[simp] theorem coreStrand_setStrandOf_same (x : Core) (n : Fin 4) (t : Strand) : coreStrand (setStrandOf x n t) n = t := by
  simp [coreStrand, setStrandOf]

theorem coreStrand_setStrandOf_other (x : Core) (n m : Fin 4) (t : Strand) (h : m ≠ n) :
    coreStrand (setStrandOf x n t) m = coreStrand x m := by
  have h' : (n : Nat) ≠ m := fun e => h (Fin.ext e.symm)
  simp [coreStrand, setStrandOf, h']

@[simp] theorem getStrand_modStrand_same (s : State) (c : Nat) (n : Fin 4) (f : Strand → Strand) :
    getStrand (modStrand s c n f) c n = f (getStrand s c n) := by
  simp [getStrand, modStrand]

theorem getStrand_modStrand_strand (s : State) (c : Nat) (n m : Fin 4) (f : Strand → Strand) (h : m ≠ n) :
    getStrand (modStrand s c n f) c m = getStrand s c m := by
  simp [getStrand, modStrand, coreStrand_setStrandOf_other _ _ _ _ h]

theorem getStrand_modStrand_core (s : State) (c c' : Nat) (n m : Fin 4) (f : Strand → Strand) (h : c' ≠ c) :
    getStrand (modStrand s c n f) c' m = getStrand s c' m := by
  simp [getStrand, modStrand, getCore_modCore_other _ _ _ _ h]

/-! ### The issuing strand -/

@[simp] theorem me_modMe (s : State) (f : Strand → Strand) : me (modMe s f) = f (me s) := by
  simp [me, modMe]

@[simp] theorem myCore_modMyCore (s : State) (f : Core → Core) : myCore (modMyCore s f) = f (myCore s) := by
  simp [myCore, modMyCore]

theorem getStrand_modMe_strand (s : State) (n : Fin 4) (f : Strand → Strand) (h : n ≠ s.ctx.strand) :
    getStrand (modMe s f) s.ctx.core n = getStrand s s.ctx.core n := getStrand_modStrand_strand _ _ _ _ _ h

theorem getCore_modMe_other (s : State) (c : Nat) (f : Strand → Strand) (h : c ≠ s.ctx.core) :
    getCore (modMe s f) c = getCore s c := getCore_modCore_other _ _ _ _ h

theorem setCore_setCore (s : State) (c : Nat) (x y : Core) : setCore (setCore s c x) c y = setCore s c y := by
  have h : ∀ m : NatMap Core, mapSet (mapSet m c x) c y = mapSet m c y := by
    intro m
    induction m with
    | nil => simp [mapSet]
    | cons e m ih =>
      obtain ⟨k, v⟩ := e
      simp only [mapSet]
      by_cases h1 : c < k
      · simp [h1, mapSet]
      · by_cases h2 : c = k
        · simp [h2, mapSet]
        · simp [h1, h2, mapSet, ih]
  simp [setCore, h]

/-- Two updates of the issuing strand are one. -/
theorem modMe_modMe (s : State) (f g : Strand → Strand) : modMe (modMe s f) g = modMe s (fun t => g (f t)) := by
  have : ∀ c n, modStrand (modStrand s c n f) c n g = modStrand s c n fun t => g (f t) := by
    intro c n
    simp [modStrand, modCore, setCore_setCore, setStrandOf, coreStrand]
  exact this _ _

/-! ### Register files -/

theorem putS_zero (g : Regs) (x : Word) : putS g 0#5 x = g := rfl

theorem putS_s_same (g : Regs) (r : BitVec 5) (x : Word) (h : r ≠ 0#5) : (putS g r x).s[r.toNat]'r.isLt = x := by
  simp [putS, h]

theorem putS_s_other (g : Regs) (r : BitVec 5) (x : Word) (i : Nat) (hi : i < 32) (h : i ≠ r.toNat) :
    (putS g r x).s[i] = g.s[i] := by
  unfold putS
  split
  · rfl
  · simp [Ne.symm h]

@[simp] theorem putS_v (g : Regs) (r : BitVec 5) (x : Word) : (putS g r x).v = g.v := by unfold putS; split <;> rfl
@[simp] theorem putS_k (g : Regs) (r : BitVec 5) (x : Word) : (putS g r x).k = g.k := by unfold putS; split <;> rfl
@[simp] theorem putV_s (g : Regs) (r : BitVec 5) (x : VWord) : (putV g r x).s = g.s := rfl
@[simp] theorem putV_k (g : Regs) (r : BitVec 5) (x : VWord) : (putV g r x).k = g.k := rfl
@[simp] theorem putK_s (g : Regs) (r : BitVec 3) (x : KWord) : (putK g r x).s = g.s := rfl
@[simp] theorem putK_v (g : Regs) (r : BitVec 3) (x : KWord) : (putK g r x).v = g.v := rfl

@[simp] theorem me_writeS (s : State) (r : BitVec 5) (x : Word) :
    me (writeS s r x) = { me s with regs := putS (me s).regs r x } := me_modMe _ _

@[simp] theorem me_writeV (s : State) (r : BitVec 5) (x : VWord) :
    me (writeV s r x) = { me s with regs := putV (me s).regs r x } := me_modMe _ _

@[simp] theorem me_writeK (s : State) (r : BitVec 3) (x : KWord) :
    me (writeK s r x) = { me s with regs := putK (me s).regs r x } := me_modMe _ _

@[simp] theorem me_jumpTo (s : State) (a : Word) : me (jumpTo s a) = goTo (me s) a := me_modMe _ _

theorem goTo_pc (t : Strand) (a : Word) : (goTo t a).pc = a.setWidth 18 := rfl
theorem goTo_regs (t : Strand) (a : Word) : (goTo t a).regs = t.regs := rfl

end Sys2Proof.Machine
end

