-- ==== Sys2Proof/Laws/Words.lean ====
section
/-! SUPPORT. The frame of a word's meaning: what `issueWord` answers, what completion without and with a transfer changes, and what
a stop changes. -/

namespace Sys2Proof.Machine

open Sys2Proof.Safety

/-! ### `issueWord` -/

/-- A word that can issue and whose effect goes through answers that effect. -/
theorem issueWord_ok (i : Instr) (s t : State) (f : State → Except Stop State) (h : Issuable i s) (hf : f s = .ok t) :
    issueWord i s f = .next t := by
  obtain ⟨h1, h2, h3⟩ := h
  simp [issueWord, h1, h2, h3, hf]

/-- A word that can issue and stops is the stop. -/
theorem issueWord_error (i : Instr) (s : State) (e : Stop) (f : State → Except Stop State) (h : Issuable i s)
    (hf : f s = .error e) : issueWord i s f = .next (stopWord s e) := by
  obtain ⟨h1, h2, h3⟩ := h
  simp [issueWord, h1, h2, h3, hf]

/-- Everything a word of a live strand can do: a late fault or a wait at a drain point, the refusal of its fields, its effect, or a
stop without it. -/
theorem issueWord_cases (i : Instr) (s t : State) (f : State → Except Stop State) (h : issueWord i s f = .next t) :
    (me s).live = true ∧
      ((∃ e, drainPoint i s = .error e ∧ t = stopWord s e) ∨
       (drainPoint i s = .ok () ∧ wellFormed i = false ∧ t = stopWord s (illegal s)) ∨
       (Issuable i s ∧ f s = .ok t) ∨
       (∃ e, Issuable i s ∧ f s = .error e ∧ t = stopWord s e)) := by
  unfold issueWord at h
  split at h
  · next hl =>
    refine ⟨hl, ?_⟩
    split at h
    · next e he => exact .inl ⟨e, he, by simpa using h.symm⟩
    · next u hu =>
      cases u
      split at h
      · next hw =>
        split at h
        · next s' hs => exact .inr (.inr (.inl ⟨⟨hl, hu, hw⟩, by rw [hs]; simpa using h⟩))
        · next e he => exact .inr (.inr (.inr ⟨e, ⟨hl, hu, hw⟩, he, by simpa using h.symm⟩))
      · next hw => exact .inr (.inl ⟨hu, by simpa using hw, by simpa using h.symm⟩)
  · cases h

/-- A word of a strand that is Not live stops the machine, and nothing else does. -/
theorem issueWord_next_of_live (i : Instr) (s : State) (f : State → Except Stop State) (h : (me s).live = true) :
    ∃ t, issueWord i s f = .next t := by
  unfold issueWord
  simp only [h, if_true]
  split
  · exact ⟨_, rfl⟩
  · split
    · split <;> exact ⟨_, rfl⟩
    · exact ⟨_, rfl⟩

/-! ### Completion (R102, R46) -/

/-- An update of the issuing strand touches nothing else. -/
theorem modMe_onlyMyStrand (s : State) (f : Strand → Strand) : OnlyMyStrand s (modMe s f) :=
  ⟨fun _ => rfl, rfl, ⟨rfl, rfl, rfl⟩, fun _ h => getCore_modMe_other s _ f h, fun _ h => getStrand_modMe_strand s _ f h,
    by simp [CoreRegistersSame, restOf, modMe, modStrand, setStrandOf]⟩

theorem writeS_onlyMyStrand (s : State) (d : BitVec 5) (x : Word) : OnlyMyStrand s (writeS s d x) := modMe_onlyMyStrand s _

theorem onlyMyStrand_refl (s : State) : OnlyMyStrand s s :=
  ⟨fun _ => rfl, rfl, ⟨rfl, rfl, rfl⟩, fun _ _ => rfl, fun _ _ => rfl, rfl⟩

/-- Updates that touch only the issuing strand, one after the other. -/
theorem onlyMyStrand_trans {s t u : State} (hc : t.ctx = s.ctx) (h1 : OnlyMyStrand s t) (h2 : OnlyMyStrand t u) :
    OnlyMyStrand s u := by
  obtain ⟨m1, r1, ⟨p1, w1, d1⟩, c1, n1, x1⟩ := h1
  obtain ⟨m2, r2, ⟨p2, w2, d2⟩, c2, n2, x2⟩ := h2
  refine ⟨fun a => (m2 a).trans (m1 a), r2.trans r1, ⟨p2.trans p1, w2.trans w1, d2.trans d1⟩, ?_, ?_, ?_⟩
  · intro c h
    exact (c2 c (by rw [hc]; exact h)).trans (c1 c h)
  · intro n h
    have := n2 n (by rw [hc]; exact h)
    rw [hc] at this
    exact this.trans (n1 n h)
  · unfold CoreRegistersSame at *
    rw [hc] at x2
    exact x2.trans x1

/-- The end check (R102) changes a strand's pc and loop levels alone. -/
theorem endCheckAt_rest (t : Strand) (e : TcmAddr) :
    { endCheckAt t e with pc := t.pc, loop0 := t.loop0, loop1 := t.loop1 } = t := by
  unfold endCheckAt
  split
  · rfl
  · split <;> rfl

@[simp] theorem endCheckAt_regs (t : Strand) (e : TcmAddr) : (endCheckAt t e).regs = t.regs := by
  unfold endCheckAt; split
  · rfl
  · split <;> rfl

@[simp] theorem endCheckAt_trap (t : Strand) (e : TcmAddr) : (endCheckAt t e).trap = t.trap := by
  unfold endCheckAt; split
  · rfl
  · split <;> rfl

@[simp] theorem endCheckAt_live (t : Strand) (e : TcmAddr) : (endCheckAt t e).live = t.live := by
  unfold endCheckAt; split
  · rfl
  · split <;> rfl

/-- One level's check keeps the level's bounds. -/
theorem loopStep_bounds (l : LoopLevel) (e : TcmAddr) : (loopStep l e).1.start = l.start ∧ (loopStep l e).1.stop = l.stop := by
  unfold loopStep
  split
  · split <;> exact ⟨rfl, rfl⟩
  · exact ⟨rfl, rfl⟩

theorem endCheckAt_bounds (t : Strand) (e : TcmAddr) :
    (endCheckAt t e).loop0.start = t.loop0.start ∧ (endCheckAt t e).loop0.stop = t.loop0.stop ∧
      (endCheckAt t e).loop1.start = t.loop1.start ∧ (endCheckAt t e).loop1.stop = t.loop1.stop := by
  have h1 := loopStep_bounds t.loop1 e
  have h0 := loopStep_bounds t.loop0 e
  unfold endCheckAt
  split
  · next l1 back h => rw [h] at h1; exact ⟨rfl, rfl, h1.1, h1.2⟩
  · next l1 h =>
    rw [h] at h1
    split
    · next l0 back h' => rw [h'] at h0; exact ⟨h0.1, h0.2, h1.1, h1.2⟩
    · next l0 h' => rw [h'] at h0; exact ⟨h0.1, h0.2, h1.1, h1.2⟩

/-- What completion without a transfer leaves of the issuing strand. -/
theorem me_retire (s : State) :
    me (retire s) = if s.ctx.slot = .lone ∨ s.ctx.slot = .cslot then endCheckAt (me s) s.ctx.last else me s := by
  unfold retire
  cases s.ctx.slot <;> simp

theorem retire_onlyMyStrand (s : State) : OnlyMyStrand s (retire s) := by
  unfold retire
  split
  · exact modMe_onlyMyStrand _ _
  · exact modMe_onlyMyStrand _ _
  · exact onlyMyStrand_refl _
  · exact onlyMyStrand_refl _

@[simp] theorem retire_ctx (s : State) : (retire s).ctx = s.ctx := by unfold retire; split <;> rfl
@[simp] theorem retire_mem (s : State) : (retire s).mem = s.mem := by unfold retire; split <;> rfl
@[simp] theorem retire_regions (s : State) : (retire s).regions = s.regions := by unfold retire; split <;> rfl
@[simp] theorem retire_packages (s : State) : (retire s).packages = s.packages := by unfold retire; split <;> rfl
@[simp] theorem retire_fresh (s : State) : (retire s).fresh = s.fresh := by unfold retire; split <;> rfl
@[simp] theorem me_retire_regs (s : State) : (me (retire s)).regs = (me s).regs := by
  rw [me_retire]; split <;> simp
@[simp] theorem me_retire_trap (s : State) : (me (retire s)).trap = (me s).trap := by
  rw [me_retire]; split <;> simp

/-- Completion of a word whose one result is a scalar register: that register, the pc and the loop counts, nothing else. -/
theorem retire_writeS_frame (s : State) (d : BitVec 5) (x : Word) :
    OnlyMyStrand s (retire (writeS s d x)) ∧ ScalarsSameBut d s (retire (writeS s d x)) ∧ VectorsSame s (retire (writeS s d x)) ∧
      MasksSame s (retire (writeS s d x)) ∧ TrapRegsSame s (retire (writeS s d x)) := by
  refine ⟨onlyMyStrand_trans (t := writeS s d x) rfl (writeS_onlyMyStrand s d x) (retire_onlyMyStrand _), ?_, ?_, ?_, ?_⟩
  · intro r hr
    rw [me_retire_regs, me_writeS]
    exact putS_s_other _ _ _ _ r.isLt hr
  · simp [VectorsSame]
  · simp [MasksSame]
  · simp [TrapRegsSame]

end Sys2Proof.Machine
end

