-- ==== Sys2Proof/Tests/Slice0.lean ====
section
/-! SUPPORT. The model's own tests: ill-formed words that the checks refuse, words written out from the spec's encodings, the worked examples of
the spec on single words, and for every statement with hypotheses a state and operands that meet them. -/

set_option Elab.async false

namespace Sys2Proof.Tests

open Sys2Proof Sys2Proof.Machine Sys2Proof.Safety

/-! ### Small states -/

/-- Core 0 of package 0 in its first C phase, strand 0 about to execute a lone word at 0x1000; memory lists nothing. -/
def tCtx : Ctx := { Ctx.none with pc := 0x1000, last := 0x1000 }
def tS : State := { (State.reset.withFetchWord 32 0) with ctx := tCtx, mem := [] }

/-- Scalar register 1 to 4 set. -/
def tR (a b c d : Word) (s : State) : State := writeS (writeS (writeS (writeS s 1 a) 2 b) 3 c) 4 d

/-- Strand 0 in a handler of a kind. -/
def tH (kind : Nat) (s : State) : State := modMe s fun t => { t with trap := { t.trap with status := BitVec.ofNat 64 (1 + 4 * kind) } }

/-- Strand 0's core, and its region, changed. -/
def tC (f : Core → Core) (s : State) : State := modMyCore s f
def tG (f : Region → Region) (s : State) : State := modRegion s 0 f

/-- The class of the granules from 0x2000 set. -/
def tClass (code : Nat) (s : State) : State := tG (fun r => { r with classes := [(0x20, code)] }) s

/-- A word at 0x1000 that the next step issues, with the script naming the core. -/
def tAt (w : Nat) : State := { (State.reset.withFetchWord 32 w) with script := [.issue 0] }

def isNext (o : Out State) : Bool :=
  match o with
  | .next _ => true
  | _ => false

theorem isNext_elim {o : Out State} (h : isNext o = true) : ∃ t, o = .next t := by
  cases o <;> simp_all [isNext]

/-- The outcome is a next state of which a test holds. -/
def nextIs (o : Out State) (f : State → Bool) : Bool :=
  match o with
  | .next t => f t
  | _ => false

theorem nextIs_elim {o : Out State} {f : State → Bool} (h : nextIs o f = true) : ∃ t, o = .next t ∧ f t = true := by
  cases o <;> simp_all [nextIs]

def isOk {ε α : Type} (e : Except ε α) : Bool :=
  match e with
  | .ok _ => true
  | .error _ => false

theorem isOk_elim {ε α : Type} {e : Except ε α} (h : isOk e = true) : ∃ x, e = .ok x := by
  cases e <;> simp_all [isOk]

/-- The check passes with a result of which a test holds. -/
def okIs {ε α : Type} (e : Except ε α) (f : α → Bool) : Bool :=
  match e with
  | .ok x => f x
  | .error _ => false

theorem okIs_elim {ε α : Type} {e : Except ε α} {f : α → Prop} [DecidablePred f] (h : okIs e (fun x => decide (f x)) = true) :
    ∃ x, e = .ok x ∧ f x := by
  cases e <;> simp_all [okIs]

/-- A late fault. -/
def isLate {α : Type} (e : Except (EngErr × State) α) : Bool :=
  match e with
  | .error (.late _ _ _, _) => true
  | _ => false

theorem late_elim {α : Type} {e : Except (EngErr × State) α} (h : isLate e = true) : ∃ s f a t, e = .error (.late s f a, t) := by
  rcases e with ⟨x, t⟩ | _
  · cases x <;> simp_all [isLate]
  · simp_all [isLate]

/-! ### Ill-formed terms, one for each check of `wellFormed` (R47) -/

theorem test_wf_lengths_refused :
    wellFormed (.loop 0 5 0) = false ∧ wellFormed (.loopi 1 3 0) = false ∧ wellFormed (.start 4 5 0) = false ∧
    wellFormed (.waits 0) = false ∧ wellFormed (.post 4 5 0) = false ∧ wellFormed (.post 4 5 7) = false ∧
    wellFormed (.loop 0 5 1) = true ∧ wellFormed (.post 4 5 6) = true := by decide

theorem test_wf_ldt_refused :
    wellFormed (.ldt 8 4 5 0) = false ∧ wellFormed (.ldt 0 4 5 3) = false ∧ wellFormed (.ldt 8 4 5 1) = false ∧
    wellFormed (.ldt 4 4 5 2) = false ∧ wellFormed (.ldt 16 4 5 1) = true ∧ wellFormed (.ldt 8 4 5 2) = true := by decide

theorem test_wf_fence_refused :
    wellFormed (.fence 7 1 1) = false ∧ wellFormed (.fence 0 0 1) = false ∧ wellFormed (.fence 0 1 0) = false ∧
    wellFormed (.fence 6 12 4) = true := by decide

theorem test_wf_selectors_refused :
    wellFormed (.crr 5 0x009) = false ∧ wellFormed (.crw 5 6 0x015) = false ∧ wellFormed (.crs 5 6 0x047) = false ∧
    wellFormed (.crc 5 6 0x072) = false ∧ wellFormed (.crr 5 0x008) = true ∧ wellFormed (.ebset 4 24) = false ∧
    wellFormed (.ebget 4 31) = false ∧ wellFormed (.ebget 4 23) = true ∧ wellFormed (.sassert 4 9 6) = false ∧
    wellFormed (.sassert 4 9 5) = true := by decide

theorem test_wf_vector_memory_types_refused :
    wellFormed (.vld 6 4 5 0 0xC) = false ∧ wellFormed (.vst 6 4 5 0 0xE) = false ∧ wellFormed (.vgather 6 4 5 0 0x0) = false ∧
    wellFormed (.vscatter 6 4 5 0 0xA) = false ∧ wellFormed (.vldq 6 4 1 0 0x8) = false ∧ wellFormed (.vldq 6 0 1 0 0xC) = false ∧
    wellFormed (.vstq 6 30 1 0 0xD) = false ∧ wellFormed (.hsift 2 10 0 0x9) = false ∧ wellFormed (.hsift 2 31 0 0x8) = false ∧
    wellFormed (.vldq 6 1 1 0 0xC) = true ∧ wellFormed (.hsift 2 10 0 0x8) = true := by decide

theorem test_wf_matrix_refused :
    wellFormed (.mring 3) = false ∧ wellFormed (.mswap 0) = false ∧ wellFormed (.mstaccq 0 4 5 0 0x0) = false ∧
    wellFormed (.mstaccq 0 4 0 0 0x8) = false ∧ wellFormed (.mcfg 0 0 0 0 0) = false ∧ wellFormed (.mcfg 1 1 2 0 0) = false ∧
    wellFormed (.mcfg 2 1 2 3 0) = false ∧ wellFormed (.mskset 4 5 0) = false ∧ wellFormed (.mskset 4 5 1) = false ∧
    wellFormed (.mskset 4 5 2) = false ∧ wellFormed (.mskset 4 5 3) = true ∧ wellFormed (.mstaccq 0 4 5 0 0xC) = true := by decide

theorem test_wf_vector_types_refused :
    wellFormed (.vadd 1 2 3 0 0xA) = false ∧ wellFormed (.vmin 1 2 3 0 0xB) = false ∧ wellFormed (.vabs 1 2 0 0xC) = false ∧
    wellFormed (.vand 1 2 3 0 0xC) = false ∧ wellFormed (.vsll 1 2 3 0 0x8) = false ∧ wellFormed (.vcmplt 1 2 3 0 0xF) = false ∧
    wellFormed (.vsel 1 2 3 0 0xD) = false ∧ wellFormed (.vredsum 1 2 3 0 0xA) = false ∧ wellFormed (.vperm 1 2 3 0 0xE) = false ∧
    wellFormed (.vcvt 1 2 0xC 0 0x8) = false ∧ wellFormed (.vscale 1 2 3 0 0x0) = false ∧ wellFormed (.vexp2 1 2 0 0xA) = false ∧
    wellFormed (.vins 1 2 8 0x8) = false ∧ wellFormed (.vmovs 1 2 4 0x3) = false ∧ wellFormed (.vmovs 7 3 2 0x8) = true := by decide

/-! ### Words that are no instruction, and the spec's example words -/

theorem test_reserved_words_refused :
    decode .v3 0x00000000#32 = .error .reservedMajor ∧ decode .v3 0xBA000000#32 = .error .reservedMajor ∧
    decode .v3 0x81003000#32 = .error .unassignedMinor ∧ decode .v3 0x85002146#32 = .error (.nonzeroField (.start 4 5 2)) ∧
    decode .v3 0xC5002142#32 = .error .staticMark := by decide +kernel

theorem test_example_routine_words :
    decode .v3 0xE128000C#32 = .ok { lone := true, smark := true, instr := .addi 5 0 12 } ∧
    decode .v3 0x06309002#32 = .ok { lone := false, smark := false, instr := .ld 6 2 2 2 } ∧
    decode .v3 0x2039D000#32 = .ok { lone := false, smark := false, instr := .add 7 7 8 } ∧
    decode .v3 0x81300FFE#32 = .ok { lone := true, smark := false, instr := .bne 6 0 (-2) } := by decide +kernel

theorem test_example_engine_words :
    decode .v3 0x93462241#32 = .ok { lone := true, smark := false, instr := .txsets 6 4 9 1 } ∧
    decode .v3 0x93A02000#32 = .ok { lone := true, smark := false, instr := .txrst 4 } ∧
    decode .v3 0x94603E01#32 = .ok { lone := true, smark := false, instr := .samplep 7 24 1 } ∧
    decode .v3 0x920214C3#32 = .ok { lone := true, smark := false, instr := .cpy 4 5 6 0 3 } ∧
    decode .v3 0xB7089024#32 = .ok { lone := true, smark := false, instr := .vcvt 1 2 8 0 9 } ∧
    decode .v3 0xB938C421#32 = .ok { lone := true, smark := false, instr := .vmovs 7 3 2 8 } ∧
    decode .v3 0x89010A08#32 = .ok { lone := true, smark := false, instr := .amoadd 4 5 1 } ∧
    decode .v3 0xD5002245#32 = .ok { lone := true, smark := true, instr := .sassert 4 9 5 } := by decide +kernel

/-! ### Words written out from the encoding tables (R43 to R56), one for every form, its fields as the format lays them out -/

theorem test_words_major_01 :
    decode .v3 0b1_0_000001_10101_11110_000_10000100111#32 = .ok { lone := true, smark := false, instr := .beq 21 30 1063 } ∧
    decode .v3 0b1_0_000001_10110_11111_001_10000101000#32 = .ok { lone := true, smark := false, instr := .bne 22 31 1064 } ∧
    decode .v3 0b1_0_000001_10111_00000_010_10000101001#32 = .ok { lone := true, smark := false, instr := .blt 23 0 1065 } ∧
    decode .v3 0b1_0_000001_11000_00001_011_10000101010#32 = .ok { lone := true, smark := false, instr := .bge 24 1 1066 } ∧
    decode .v3 0b1_0_000001_11001_00010_100_10000101011#32 = .ok { lone := true, smark := false, instr := .bltn 25 2 1067 } ∧
    decode .v3 0b1_0_000001_11010_00011_101_10000101100#32 = .ok { lone := true, smark := false, instr := .bgen 26 3 1068 } := by
  decide +kernel

theorem test_words_major_02 :
    decode .v3 0b1_0_000010_11011_1000000000000101100#32 = .ok { lone := true, smark := false, instr := .jal 27 262188 } := by
  decide +kernel

theorem test_words_major_03 :
    decode .v3 0b1_0_000011_11100_00101_10000000101110#32 = .ok { lone := true, smark := false, instr := .jalr 28 5 8238 } := by
  decide +kernel

theorem test_words_major_04 :
    decode .v3 0b1_0_00010000_1_00110_0000_100000101111#32 = .ok { lone := true, smark := false, instr := .loop 1 6 2095 } ∧
    decode .v3 0b1_0_00010001_1_000100111_100000110000#32 = .ok { lone := true, smark := false, instr := .loopi 1 39 2096 } ∧
    decode .v3 0b1_0_00010010_1111_00101000_001_010_0000#32 = .ok { lone := true, smark := false, instr := .rep 15 40 1 2 } := by
  decide +kernel

theorem test_words_major_05 :
    decode .v3 0b1_000010100000000_00000_01001_0000_01#32 = .ok { lone := true, smark := false, instr := .start 0 9 1 } ∧
    decode .v3 0b1_000010100100000000000000000_001_0#32 = .ok { lone := true, smark := false, instr := .waits 1 } ∧
    decode .v3 0b1_0000101010000000000000000000000#32 = .ok { lone := true, smark := false, instr := .yield } := by
  decide +kernel

theorem test_words_major_06 :
    decode .v3 0b1_0_000110_00011_01100_101_10000110110#32 = .ok { lone := true, smark := false, instr := .ld 3 12 5 1078 } := by
  decide +kernel

theorem test_words_major_07 :
    decode .v3 0b1_0000111_00100_01101_01_0_10000110111#32 = .ok { lone := true, smark := false, instr := .st 4 13 1 1079 } ∧
    decode .v3 0b1_0000111_00101_01110_111_10000110111#32 = .ok { lone := true, smark := false, instr := .stH 5 14 1079 } := by
  decide +kernel

theorem test_words_major_08 :
    decode .v3 0b1_0001000000_00110_01111_0000_1_000001#32 = .ok { lone := true, smark := false, instr := .ldbit 6 15 1 1 } ∧
    decode .v3 0b1_000100000100000_00111_10000_111001#32 = .ok { lone := true, smark := false, instr := .stbit 7 16 57 } ∧
    decode .v3 0b1_0001000010_01000_10001_11010_0000_10#32 = .ok { lone := true, smark := false, instr := .ldt 8 17 26 2 } := by
  decide +kernel

theorem test_words_major_09 :
    decode .v3 0b1_000100100000_01001_10010_00000_1_000#32 = .ok { lone := true, smark := false, instr := .amoadd 9 18 1 } ∧
    decode .v3 0b1_000100100000_01010_10011_00000_1_001#32 = .ok { lone := true, smark := false, instr := .amoand 10 19 1 } ∧
    decode .v3 0b1_000100100000_01011_10100_00000_1_010#32 = .ok { lone := true, smark := false, instr := .amoor 11 20 1 } ∧
    decode .v3 0b1_000100100000_01100_10101_00000_1_011#32 = .ok { lone := true, smark := false, instr := .amoxor 12 21 1 } ∧
    decode .v3 0b1_000100100000_01101_10110_00000_1_100#32 = .ok { lone := true, smark := false, instr := .amomin 13 22 1 } ∧
    decode .v3 0b1_000100100000_01110_10111_00000_1_101#32 = .ok { lone := true, smark := false, instr := .amomax 14 23 1 } ∧
    decode .v3 0b1_000100100000_01111_11000_00000_1_110#32 = .ok { lone := true, smark := false, instr := .amominn 15 24 1 } ∧
    decode .v3 0b1_000100100000_10000_11001_00000_1_111#32 = .ok { lone := true, smark := false, instr := .amomaxn 16 25 1 } := by
  decide +kernel

theorem test_words_major_0A :
    decode .v3 0b1_0001010_10001_11010_00011_01100_1_000#32 = .ok { lone := true, smark := false, instr := .amoseq 17 26 3 12 1 } := by
  decide +kernel

theorem test_words_major_0B :
    decode .v3 0b1_0001011_010_1011_0100_0000000000000#32 = .ok { lone := true, smark := false, instr := .fence 2 11 4 } := by
  decide +kernel

theorem test_words_major_0C :
    decode .v3 0b1_000110000000000_10011_11100_000000#32 = .ok { lone := true, smark := false, instr := .waitw 19 28 } ∧
    decode .v3 0b1_0001100001000000000000000000000#32 = .ok { lone := true, smark := false, instr := .ifence } ∧
    decode .v3 0b1_0001100010000000000000000000000#32 = .ok { lone := true, smark := false, instr := .sync } ∧
    decode .v3 0b1_000110001100000_10110_11111_001000#32 = .ok { lone := true, smark := false, instr := .post 22 31 8 } ∧
    decode .v3 0b1_0001100100_10111_0000000000000000#32 = .ok { lone := true, smark := false, instr := .recv 23 } := by
  decide +kernel

theorem test_words_major_0D :
    decode .v3 0b10001101000000000000000000_111000#32 = .ok { lone := true, smark := false, instr := .trap 56 } ∧
    decode .v3 0b10001101001000000000000000000000#32 = .ok { lone := true, smark := false, instr := .eret } ∧
    decode .v3 0b10001101010000000000000000000000#32 = .ok { lone := true, smark := false, instr := .endOp } ∧
    decode .v3 0b10001101011000000000000000_111011#32 = .ok { lone := true, smark := false, instr := .brk 59 } := by
  decide +kernel

theorem test_words_major_0E :
    decode .v3 0b1_0001110_11100_00000_100001001101_00#32 = .ok { lone := true, smark := false, instr := .crr 28 2125 } ∧
    decode .v3 0b1_0001110_11101_00110_100001001111_01#32 = .ok { lone := true, smark := false, instr := .crw 29 6 2127 } ∧
    decode .v3 0b1_0001110_11110_00111_100001010000_10#32 = .ok { lone := true, smark := false, instr := .crs 30 7 2128 } ∧
    decode .v3 0b1_0001110_11111_01000_100001010001_11#32 = .ok { lone := true, smark := false, instr := .crc 31 8 2129 } := by
  decide +kernel

theorem test_words_major_0F :
    decode .v3 0b1_0001111_00000_01001_10010_011_0100_00#32 = .ok { lone := true, smark := false, instr := .vld 0 9 18 3 4 } ∧
    decode .v3 0b1_0001111_00001_01010_10011_100_0101_01#32 = .ok { lone := true, smark := false, instr := .vst 1 10 19 4 5 } ∧
    decode .v3 0b1_0001111_00010_01011_10100_101_0110_10#32 = .ok { lone := true, smark := false, instr := .vgather 2 11 20 5 6 } ∧
    decode .v3 0b1_0001111_00011_01100_10101_110_0111_11#32 = .ok { lone := true, smark := false, instr := .vscatter 3 12 21 6 7 } := by
  decide +kernel

theorem test_words_major_10 :
    decode .v3 0b1_0010000_00100_01101_110_00_111_1000_00#32 = .ok { lone := true, smark := false, instr := .vldq 4 13 6 7 8 } ∧
    decode .v3 0b1_0010000_00101_01110_111_00_000_1001_01#32 = .ok { lone := true, smark := false, instr := .vstq 5 14 7 0 9 } ∧
    decode .v3 0b1_0010000_00110_01111_00000_000_0001_10#32 = .ok { lone := true, smark := false, instr := .hsift 6 15 0 1 } := by
  decide +kernel

theorem test_words_major_11 :
    decode .v3 0b1_00100010000_10_10000_11001_00000000#32 = .ok { lone := true, smark := false, instr := .mma 2 16 25 } ∧
    decode .v3 0b1_00100010001_11_10001_11010_00000000#32 = .ok { lone := true, smark := false, instr := .mmaz 3 17 26 } ∧
    decode .v3 0b1_0010001001000_01001_10010_00000000#32 = .ok { lone := true, smark := false, instr := .mldb 9 18 } ∧
    decode .v3 0b1_0010001001100_01010_10011_00000000#32 = .ok { lone := true, smark := false, instr := .mldbt 10 19 } ∧
    decode .v3 0b1_00100010100000000000000000000_10#32 = .ok { lone := true, smark := false, instr := .mring 2 } ∧
    decode .v3 0b1_001000101010000000000000000_1100#32 = .ok { lone := true, smark := false, instr := .mswap 12 } ∧
    decode .v3 0b1_00100010110_01_000000000000000000#32 = .ok { lone := true, smark := false, instr := .mzero 1 } ∧
    decode .v3 0b1_00100010111_01_10111_0000000000000#32 = .ok { lone := true, smark := false, instr := .mldacc 1 23 } ∧
    decode .v3 0b1_00100011000_10_11000_0000000000000#32 = .ok { lone := true, smark := false, instr := .mstacc 2 24 } ∧
    decode .v3 0b1_00100011001_11_11001_00010_0_011_0100#32 = .ok { lone := true, smark := false, instr := .mstaccq 3 25 2 3 4 } ∧
    decode .v3 0b1_00100011010_01_000000000000000_1_10#32 = .ok { lone := true, smark := false, instr := .maccadd 1 1 2 } ∧
    decode .v3 0b1_00100011011_01_00_011_00_100_1101_0110#32 = .ok { lone := true, smark := false, instr := .mcfg 1 3 4 13 6 } ∧
    decode .v3 0b1_0010001110000_10011_11100_000000_01#32 = .ok { lone := true, smark := false, instr := .mskset 19 28 1 } ∧
    decode .v3 0b1_0010001110100_10100_0000000000000#32 = .ok { lone := true, smark := false, instr := .mskget 20 } ∧
    decode .v3 0b1_001000111100000000000000000_01_01#32 = .ok { lone := true, smark := false, instr := .mkeep 1 1 } ∧
    decode .v3 0b1_0010001111100000000000000000000#32 = .ok { lone := true, smark := false, instr := .mwait } := by
  decide +kernel

theorem test_words_major_12 :
    decode .v3 0b1_00100100000_10111_00000_01001_00_1_10#32 = .ok { lone := true, smark := false, instr := .cpy 23 0 9 1 2 } ∧
    decode .v3 0b1_00100100001_11000_00001_01010_10011#32 = .ok { lone := true, smark := false, instr := .cpyd 24 1 10 19 } ∧
    decode .v3 0b1_00100100010_11001_00010_01011_00_1_01#32 = .ok { lone := true, smark := false, instr := .cpyg 25 2 11 1 1 } ∧
    decode .v3 0b1_00100100011_11010_00011_01100_00_1_01#32 = .ok { lone := true, smark := false, instr := .cpys 26 3 12 1 1 } ∧
    decode .v3 0b1_00100100100_11011_00100_01101_00_1_10#32 = .ok { lone := true, smark := false, instr := .cpyf 27 4 13 1 2 } ∧
    decode .v3 0b1_00100100101_11100_00101_01110_00000#32 = .ok { lone := true, smark := false, instr := .cpyr 28 5 14 } ∧
    decode .v3 0b1_00100100110_11101_00110_01111_00_1_01#32 = .ok { lone := true, smark := false, instr := .cpyho 29 6 15 1 1 } ∧
    decode .v3 0b1_00100100111_11110_00111_10000_00000#32 = .ok { lone := true, smark := false, instr := .cpyres 30 7 16 } ∧
    decode .v3 0b1_00100101000_11111_0000000000_01000#32 = .ok { lone := true, smark := false, instr := .ebset 31 8 } ∧
    decode .v3 0b1_00100101001_00000_0000000000_01001#32 = .ok { lone := true, smark := false, instr := .ebget 0 9 } := by
  decide +kernel

theorem test_words_major_13 :
    decode .v3 0b1_0010011000_00001_01010_00000000000#32 = .ok { lone := true, smark := false, instr := .txsub 1 10 } ∧
    decode .v3 0b1_0010011001_00010_01011_00000000000#32 = .ok { lone := true, smark := false, instr := .txpeek 2 11 } ∧
    decode .v3 0b1_0010011010_00011_01100_10101_00000_1#32 = .ok { lone := true, smark := false, instr := .txsets 3 12 21 1 } ∧
    decode .v3 0b1_0010011011_00100_01101_10110_000000#32 = .ok { lone := true, smark := false, instr := .txchk 4 13 22 } ∧
    decode .v3 0b1_0010011100000000000000000000000#32 = .ok { lone := true, smark := false, instr := .txend } ∧
    decode .v3 0b1_001001110100000_00110_00000000000#32 = .ok { lone := true, smark := false, instr := .txrst 6 } := by
  decide +kernel

theorem test_words_major_14 :
    decode .v3 0b1_001010000000000_00111_10000_00000_1#32 = .ok { lone := true, smark := false, instr := .pdainit 7 16 1 } ∧
    decode .v3 0b1_001010000100000_01000_10001_000000#32 = .ok { lone := true, smark := false, instr := .pdamask 8 17 } ∧
    decode .v3 0b1_001010001000000_01001_10010_000000#32 = .ok { lone := true, smark := false, instr := .pdastep 9 18 } ∧
    decode .v3 0b1_001010001100000_01010_10011_00000_1#32 = .ok { lone := true, smark := false, instr := .samplep 10 19 1 } ∧
    decode .v3 0b1_001010010000000_01011_10100_000000#32 = .ok { lone := true, smark := false, instr := .samplef 11 20 } ∧
    decode .v3 0b1_001010010100000_01100_10101_000000#32 = .ok { lone := true, smark := false, instr := .pdasave 12 21 } := by
  decide +kernel

theorem test_words_major_15 :
    decode .v3 0b1_101010100000000_01101_10110_000_111#32 = .ok { lone := true, smark := true, instr := .sassert 13 22 7 } ∧
    decode .v3 0b1_1010101001000000000000000_101110#32 = .ok { lone := true, smark := true, instr := .sgrow 46 } ∧
    decode .v3 0b1_0010101010_01111_11000_00000000000#32 = .ok { lone := true, smark := false, instr := .sbmap 15 24 } := by
  decide +kernel

theorem test_words_major_20 :
    decode .v3 0b1_0_100000_10000_11001_00010_000000000#32 = .ok { lone := true, smark := false, instr := .add 16 25 2 } ∧
    decode .v3 0b1_0_100000_10001_11010_00011_000000001#32 = .ok { lone := true, smark := false, instr := .sub 17 26 3 } ∧
    decode .v3 0b1_0_100000_10010_11011_00100_000000010#32 = .ok { lone := true, smark := false, instr := .and 18 27 4 } ∧
    decode .v3 0b1_0_100000_10011_11100_00101_000000011#32 = .ok { lone := true, smark := false, instr := .or 19 28 5 } ∧
    decode .v3 0b1_0_100000_10100_11101_00110_000000100#32 = .ok { lone := true, smark := false, instr := .xor 20 29 6 } ∧
    decode .v3 0b1_0_100000_10101_11110_00111_000000101#32 = .ok { lone := true, smark := false, instr := .andn 21 30 7 } ∧
    decode .v3 0b1_0_100000_10110_11111_01000_000000110#32 = .ok { lone := true, smark := false, instr := .sll 22 31 8 } ∧
    decode .v3 0b1_0_100000_10111_00000_01001_000000111#32 = .ok { lone := true, smark := false, instr := .srl 23 0 9 } ∧
    decode .v3 0b1_0_100000_11000_00001_01010_000001000#32 = .ok { lone := true, smark := false, instr := .sra 24 1 10 } ∧
    decode .v3 0b1_0_100000_11001_00010_01011_000001001#32 = .ok { lone := true, smark := false, instr := .rotr 25 2 11 } ∧
    decode .v3 0b1_0_100000_11010_00011_01100_000001010#32 = .ok { lone := true, smark := false, instr := .mul 26 3 12 } ∧
    decode .v3 0b1_0_100000_11011_00100_01101_000001011#32 = .ok { lone := true, smark := false, instr := .mulh 27 4 13 } ∧
    decode .v3 0b1_0_100000_11100_00101_01110_000001100#32 = .ok { lone := true, smark := false, instr := .mulhn 28 5 14 } ∧
    decode .v3 0b1_0_100000_11101_00110_01111_000001101#32 = .ok { lone := true, smark := false, instr := .div 29 6 15 } ∧
    decode .v3 0b1_0_100000_11110_00111_10000_000001110#32 = .ok { lone := true, smark := false, instr := .divn 30 7 16 } ∧
    decode .v3 0b1_0_100000_11111_01000_10001_000001111#32 = .ok { lone := true, smark := false, instr := .rem 31 8 17 } ∧
    decode .v3 0b1_0_100000_00000_01001_10010_000010000#32 = .ok { lone := true, smark := false, instr := .remn 0 9 18 } ∧
    decode .v3 0b1_0_100000_00001_01010_10011_000010001#32 = .ok { lone := true, smark := false, instr := .min 1 10 19 } ∧
    decode .v3 0b1_0_100000_00010_01011_10100_000010010#32 = .ok { lone := true, smark := false, instr := .max 2 11 20 } ∧
    decode .v3 0b1_0_100000_00011_01100_10101_000010011#32 = .ok { lone := true, smark := false, instr := .minn 3 12 21 } ∧
    decode .v3 0b1_0_100000_00100_01101_10110_000010100#32 = .ok { lone := true, smark := false, instr := .maxn 4 13 22 } ∧
    decode .v3 0b1_0_100000_00101_01110_10111_000010101#32 = .ok { lone := true, smark := false, instr := .slt 5 14 23 } ∧
    decode .v3 0b1_0_100000_00110_01111_11000_000010110#32 = .ok { lone := true, smark := false, instr := .sltn 6 15 24 } ∧
    decode .v3 0b1_0_100000_00111_10000_11001_000010111#32 = .ok { lone := true, smark := false, instr := .seq 7 16 25 } ∧
    decode .v3 0b1_0_100000_01000_10001_00000000011000#32 = .ok { lone := true, smark := false, instr := .clz 8 17 } ∧
    decode .v3 0b1_0_100000_01001_10010_00000000011001#32 = .ok { lone := true, smark := false, instr := .ctz 9 18 } ∧
    decode .v3 0b1_0_100000_01010_10011_00000000011010#32 = .ok { lone := true, smark := false, instr := .popc 10 19 } ∧
    decode .v3 0b1_0_100000_01011_10100_00000000011011#32 = .ok { lone := true, smark := false, instr := .brev 11 20 } ∧
    decode .v3 0b1_0_100000_01100_10101_00000000011100#32 = .ok { lone := true, smark := false, instr := .bswap 12 21 } := by
  decide +kernel

theorem test_words_major_21 :
    decode .v3 0b1_0_100001_01101_10110_10000010011111#32 = .ok { lone := true, smark := false, instr := .addi 13 22 8351 } := by
  decide +kernel

theorem test_words_major_22 :
    decode .v3 0b1_0_100010_01110_10111_10000010100000#32 = .ok { lone := true, smark := false, instr := .andi 14 23 8352 } := by
  decide +kernel

theorem test_words_major_23 :
    decode .v3 0b1_0_100011_01111_11000_10000010100001#32 = .ok { lone := true, smark := false, instr := .ori 15 24 8353 } := by
  decide +kernel

theorem test_words_major_24 :
    decode .v3 0b1_0_100100_10000_11001_10000010100010#32 = .ok { lone := true, smark := false, instr := .xori 16 25 8354 } := by
  decide +kernel

theorem test_words_major_25 :
    decode .v3 0b1_0_100101_10001_11010_10000010100011#32 = .ok { lone := true, smark := false, instr := .slti 17 26 8355 } := by
  decide +kernel

theorem test_words_major_26 :
    decode .v3 0b1_0_100110_10010_11011_10000010100100#32 = .ok { lone := true, smark := false, instr := .sltin 18 27 8356 } := by
  decide +kernel

theorem test_words_major_27 :
    decode .v3 0b1_0_100111_10011_11100_00000000_100101#32 = .ok { lone := true, smark := false, instr := .slli 19 28 37 } ∧
    decode .v3 0b1_0_100111_10100_11101_01000000_100110#32 = .ok { lone := true, smark := false, instr := .srli 20 29 38 } ∧
    decode .v3 0b1_0_100111_10101_11110_10000000_100111#32 = .ok { lone := true, smark := false, instr := .srai 21 30 39 } ∧
    decode .v3 0b1_0_100111_10110_11111_11000000_101000#32 = .ok { lone := true, smark := false, instr := .rotri 22 31 40 } := by
  decide +kernel

theorem test_words_major_28 :
    decode .v3 0b1_0_101000_10111_1000000000010101000#32 = .ok { lone := true, smark := false, instr := .lui 23 262312 } := by
  decide +kernel

theorem test_words_major_29 :
    decode .v3 0b1_0_101001_11000_01_1000000010101010_0#32 = .ok { lone := true, smark := false, instr := .insh 24 1 32938 } := by
  decide +kernel

theorem test_words_major_30 :
    decode .v3 0b1_0110000_11001_00010_01011_100_1101_00#32 = .ok { lone := true, smark := false, instr := .vadd 25 2 11 4 13 } ∧
    decode .v3 0b1_0110000_11010_00011_01100_101_1110_01#32 = .ok { lone := true, smark := false, instr := .vsub 26 3 12 5 14 } ∧
    decode .v3 0b1_0110000_11011_00100_01101_110_1111_10#32 = .ok { lone := true, smark := false, instr := .vmul 27 4 13 6 15 } ∧
    decode .v3 0b1_0110000_11100_00101_01110_111_0000_11#32 = .ok { lone := true, smark := false, instr := .vfma 28 5 14 7 0 } := by
  decide +kernel

theorem test_words_major_31 :
    decode .v3 0b1_0110001_11101_00110_01111_000_0001_00#32 = .ok { lone := true, smark := false, instr := .vmin 29 6 15 0 1 } ∧
    decode .v3 0b1_0110001_11110_00111_10000_001_0010_01#32 = .ok { lone := true, smark := false, instr := .vmax 30 7 16 1 2 } ∧
    decode .v3 0b1_0110001_11111_01000_00000_001_1010_10#32 = .ok { lone := true, smark := false, instr := .vabs 31 8 1 10 } ∧
    decode .v3 0b1_0110001_00000_01001_00000_010_1011_11#32 = .ok { lone := true, smark := false, instr := .vneg 0 9 2 11 } := by
  decide +kernel

theorem test_words_major_32 :
    decode .v3 0b1_0110010_00001_01010_10011_100_0101_00#32 = .ok { lone := true, smark := false, instr := .vand 1 10 19 4 5 } ∧
    decode .v3 0b1_0110010_00010_01011_10100_101_0110_01#32 = .ok { lone := true, smark := false, instr := .vor 2 11 20 5 6 } ∧
    decode .v3 0b1_0110010_00011_01100_10101_110_0111_10#32 = .ok { lone := true, smark := false, instr := .vxor 3 12 21 6 7 } ∧
    decode .v3 0b1_0110010_00100_01101_10110_111_1000_11#32 = .ok { lone := true, smark := false, instr := .vsll 4 13 22 7 8 } := by
  decide +kernel

theorem test_words_major_33 :
    decode .v3 0b1_0110011_00101_01110_10111_000_1001_00#32 = .ok { lone := true, smark := false, instr := .vsrl 5 14 23 0 9 } ∧
    decode .v3 0b1_0110011_00110_01111_11000_001_1010_01#32 = .ok { lone := true, smark := false, instr := .vsra 6 15 24 1 10 } ∧
    decode .v3 0b1_0110011_00111_10000_11001_010_1011_10#32 = .ok { lone := true, smark := false, instr := .vadds 7 16 25 2 11 } ∧
    decode .v3 0b1_0110011_01000_10001_11010_011_1100_11#32 = .ok { lone := true, smark := false, instr := .vsubs 8 17 26 3 12 } := by
  decide +kernel

theorem test_words_major_34 :
    decode .v3 0b1_011010000_001_10010_11011_100_1101_00#32 = .ok { lone := true, smark := false, instr := .vcmpeq 1 18 27 4 13 } ∧
    decode .v3 0b1_011010000_010_10011_11100_101_1110_01#32 = .ok { lone := true, smark := false, instr := .vcmpne 2 19 28 5 14 } ∧
    decode .v3 0b1_011010000_011_10100_11101_110_1111_10#32 = .ok { lone := true, smark := false, instr := .vcmplt 3 20 29 6 15 } ∧
    decode .v3 0b1_011010000_100_10101_11110_111_0000_11#32 = .ok { lone := true, smark := false, instr := .vcmple 4 21 30 7 0 } := by
  decide +kernel

theorem test_words_major_35 :
    decode .v3 0b1_0110101_01101_10110_11111_000_0001_00#32 = .ok { lone := true, smark := false, instr := .vsel 13 22 31 0 1 } ∧
    decode .v3 0b1_0110101_01110_10111_00000_001_0010_01#32 = .ok { lone := true, smark := false, instr := .vredsum 14 23 0 1 2 } ∧
    decode .v3 0b1_0110101_01111_11000_00001_010_0011_10#32 = .ok { lone := true, smark := false, instr := .vredmax 15 24 1 2 3 } ∧
    decode .v3 0b1_0110101_10000_11001_00010_011_0100_11#32 = .ok { lone := true, smark := false, instr := .vredmin 16 25 2 3 4 } := by
  decide +kernel

theorem test_words_major_36 :
    decode .v3 0b1_0110110_10001_11010_00011_100_0101_00#32 = .ok { lone := true, smark := false, instr := .vscan 17 26 3 4 5 } ∧
    decode .v3 0b1_0110110_10010_11011_00100_101_0110_01#32 = .ok { lone := true, smark := false, instr := .vperm 18 27 4 5 6 } ∧
    decode .v3 0b1_0110110_10011_11100_00101_110_0111_10#32 = .ok { lone := true, smark := false, instr := .vbcast 19 28 5 6 7 } ∧
    decode .v3 0b1_0110110_10100_11101_00110_111_1000_11#32 = .ok { lone := true, smark := false, instr := .vslide 20 29 6 7 8 } := by
  decide +kernel

theorem test_words_major_37 :
    decode .v3 0b1_0110111_10101_11110_0_0111_000_1001_00#32 = .ok { lone := true, smark := false, instr := .vcvt 21 30 7 0 9 } ∧
    decode .v3 0b1_0110111_10110_11111_01000_001_1010_01#32 = .ok { lone := true, smark := false, instr := .vscale 22 31 8 1 10 } ∧
    decode .v3 0b1_0110111_10111_00000_00000_001_0010_10#32 = .ok { lone := true, smark := false, instr := .vexp2 23 0 1 2 } ∧
    decode .v3 0b1_0110111_11000_00001_00000_010_0011_11#32 = .ok { lone := true, smark := false, instr := .vrcp 24 1 2 3 } := by
  decide +kernel

theorem test_words_major_38 :
    decode .v3 0b1_011100000_001_00_010_00_011_000000000#32 = .ok { lone := true, smark := false, instr := .kand 1 2 3 } ∧
    decode .v3 0b1_011100000_010_00_011_00_100_000000001#32 = .ok { lone := true, smark := false, instr := .kor 2 3 4 } ∧
    decode .v3 0b1_011100000_011_00_100_00_101_000000010#32 = .ok { lone := true, smark := false, instr := .kxor 3 4 5 } ∧
    decode .v3 0b1_011100000_100_00_101_00000000000011#32 = .ok { lone := true, smark := false, instr := .knot 4 5 } := by
  decide +kernel

theorem test_words_major_39 :
    decode .v3 0b1_0111001_11101_00110_01111_000_1000_00#32 = .ok { lone := true, smark := false, instr := .vins 29 6 15 8 } ∧
    decode .v3 0b1_0111001_11110_00111_10000_000_1001_01#32 = .ok { lone := true, smark := false, instr := .vmovs 30 7 16 9 } := by
  decide +kernel

/-! ### Worked examples of the spec, one step or one operation each -/

/-- A vector register's value from 32-bit elements, element 0 first. -/
def tV (xs : List Nat) : VWord := BitVec.ofNat 256 (leNat (xs.flatMap fun x => leBytes 4 x))

/-- R92, R3: `ADDI` wraps modulo 2^64 and discards a write of s0. -/
theorem test_addi_wraps :
    nextIs (exec (.addi 5 1 2) (tR 0xFFFFFFFFFFFFFFFF 0 0 0 tS)) (fun t => readS t 5 == 1) = true ∧
    nextIs (exec (.addi 0 1 2) (tR 0xFFFFFFFFFFFFFFFE 0 0 0 tS)) (fun t => readS t 0 == 0) = true := by decide +kernel

/-- R95: division by zero gives all ones, the remainder the dividend; the most negative number over -1 is itself. -/
theorem test_div_corners :
    nextIs (exec (.div 5 1 2) (tR 7 0 0 0 tS)) (fun t => readS t 5 == 0xFFFFFFFFFFFFFFFF) = true ∧
    nextIs (exec (.rem 5 1 2) (tR 7 0 0 0 tS)) (fun t => readS t 5 == 7) = true ∧
    nextIs (exec (.div 5 1 2) (tR 0x8000000000000000 0xFFFFFFFFFFFFFFFF 0 0 tS)) (fun t => readS t 5 == 0x8000000000000000) = true ∧
    nextIs (exec (.rem 5 1 2) (tR 0x8000000000000000 0xFFFFFFFFFFFFFFFF 0 0 tS)) (fun t => readS t 5 == 0) = true := by decide +kernel

/-- R96: a branch's offset counts words from the branch. -/
theorem test_branch_back :
    nextIs (exec (.bne 1 0 (-2)) (tR 1 0 0 0 tS)) (fun t => (me t).pc == 0x0FF8#18) = true ∧
    nextIs (exec (.bne 0 0 (-2)) tS) (fun t => (me t).pc == 0x1004#18) = true := by decide +kernel

/-- R116's example: `LD.i64 s9, -3(s4)` addresses s4 - 24. -/
theorem test_load_example :
    nextIs (exec (.ld 9 4 3 (-3)) { tR 0 0 0 0x2018 tS with mem := [(0x2000, 0x11), (0x2007, 0x80)] })
      (fun t => readS t 9 == 0x8000000000000011) = true := by decide +kernel

/-- R123's example: with s4 = 0xA3D the six bits straddle the words at 0x140 and 0x148. -/
theorem test_ldbit_example :
    nextIs (exec (.ldbit 3 4 0 5) { tR 0 0 0 0xA3D tS with mem := [(0x147, 0xA0), (0x148, 0x03)] })
      (fun t => readS t 3 == 0x1D) = true := by decide +kernel

/-- R107, Example 1 of the strands file: the first `LOOPI` of the routine. -/
theorem test_loopi_example :
    nextIs (exec (.loopi 0 3 2) { tS with ctx := { tCtx with pc := 0x2000, last := 0x2000 }, mem := [(0x200B, 0xA1)] })
      (fun t => (me t).loop0.start == 0x2004 && (me t).loop0.stop == 0x2008 && (me t).pc == 0x2004#18) = true := by decide +kernel

/-- The generator's values as tabled for seed 0 in the stipple file. -/
theorem test_dither_table :
    mix64 0 1 = 0xE220A8397B1DCDAF#64 ∧ mix64 0 8 = 0xC584133AC916AB3C#64 := by decide +kernel

/-- R209, Example 2: the kinds of the word 0x71250831. -/
theorem test_slots_example :
    decodeQ4X 0x71250831 =
      [.code 1, .code 3, .outlier 5, .zero, .zero, .code 2, .code 1, .code 7] := by decide +kernel

/-- Example 1 of the vector file: the block scale of eight FP32 elements with L = 7 is E = 130. -/
theorem test_vscale_example :
    readV (effVscale 8 0 8 0 8 (writeV (writeV tS 0 (tV [0x40400000, 0xBFC00000, 0x42200000, 0x3E800000, 0xC0000000, 0,
      0x41500000, 0xC1A00000])) 8 (tV [7]))) 8 = 0x8207#256 := by decide +kernel

/-- Example 3 of the vector file: the fixed tree of `VREDSUM`. -/
theorem test_vredsum_example :
    readV (effVredsum 1 0 9 0 8 (writeV tS 0 (tV [0x4B800000, 0x3F800000, 0x3F800000, 0x3F800000, 0x3F800000, 0x3F800000,
      0x3F800000, 0x3F800000]))) 1 = 0x4B800003#256 := by decide +kernel

/-- Example 2 of the vector file: the top-2 heap after the first `HSIFT`. -/
theorem test_hsift_example :
    okIs (effHsift 2 10 0 8 (writeV (writeS (writeS { tS with mem := [(0x6000, 2)] } 10 0x6000) 11 40) 2
        (tV [0x3F000000, 0x3F666666, 0x3F666666, 0x7FC00000, 0x3DCCCCCD, 0x3F666666, 0x80000000, 0x3F333333])))
      (fun t => readBytes t.mem 0x6000 24 == leBytes 8 0x0202 ++ leBytes 8 0x000000293F666666 ++ leBytes 8 0x0000002A3F666666) = true := by
  decide +kernel

/-- Example 1 of the stipple file: the INT4X word of eight elements with one escape. -/
theorem test_quantise_example :
    quantiseQ4X ([0x40400000, 0xBFC00000, 0x42200000, 0x3E800000, 0xC0000000, 0, 0x41500000, 0xC1A00000].map (floatVal .f32))
      0x80 0 (List.range 8) false = 0x960A5801 := by decide +kernel

/-- Example 2 of the stipple file: storage positions 0, 3 and 7 of the transposed Q8 view. -/
theorem test_quantise_q8_example :
    quantiseQ8 (intVal 10) 127 0 0 false = 0x0A ∧ quantiseQ8 (intVal (-3)) 127 0 1 false = 0xFD ∧
    quantiseQ8 (intVal (-200)) 127 0 5 false = 0x80 := by decide +kernel

/-- R67: the SHA-384 digest of the three bytes `abc`, by the published standard; its first bytes. -/
theorem test_sha384_abc :
    (sha384 [0x61#8, 0x62#8, 0x63#8]).take 4 = [0xcb#8, 0x00#8, 0x75#8, 0x3f#8] ∧ (sha384 [0x61#8, 0x62#8, 0x63#8]).length = 48 := by
  decide +kernel

/-- Example 1 of the specialiser file: the original words, and the residual words with their back-map. -/
def tSpecIn : SpecIn :=
  { ver := .v3
    code := #[0xC6201800, 0xC6281801, 0x86301802, 0xC1280008, 0xE7390002, 0xC4040004, 0x86419000, 0xA0420E00, 0x8741A000, 0xA1318004,
      0x8D400000, 0x8701B000, 0x8D400000]
    loadAddr := 0x1000, uniform := #[3, 1, 0x2000], stat := #[true, true, false], entries := [0], prio := [], removed := [], lasts := [] }

theorem test_specialise_example :
    (match specialise tSpecIn with
     | .ok r => r.words.map fun e => (e.1.toNat, e.2.toNat)
     | .error _ => []) =
    [(0x86301802, 0x2), (0x86419000, 0x6), (0xA142000C, 0x7), (0x8741A000, 0x8), (0xA1318004, 0x9), (0x86419000, 0x100006),
     (0xA142000C, 0x100007), (0x8741A000, 0x100008), (0xA1318004, 0x100009), (0x86419000, 0x200006), (0xA142000C, 0x200007),
     (0x8741A000, 0x200008), (0xA1318004, 0x200009), (0xA1200003, 0xA), (0xA1280001, 0xA), (0xA138000C, 0xA), (0x8D400000, 0xA)] := by
  decide +kernel

/-! ### Witnesses: decoding, the step, control flow -/

theorem wit_EncodedWordsDecode :
    encode { lone := true, smark := false, instr := .kand 3 1 2 } = some 0xB8184400#32 ∧ markRequired 0xB8184400#32 = false ∧
      loneOnly 0xB8184400#32 = false := by decide +kernel

theorem wit_DecodedWordsEncode : decode .v3 0xB8184400#32 = .ok { lone := true, smark := false, instr := .kand 3 1 2 } := by decide +kernel

theorem wit_ReservedMajorsRefused :
    ∀ m ∈ [0x00, 0x16, 0x1F, 0x2A, 0x2F, 0x3A, 0x3F], isOk (decode .v3 (BitVec.ofNat 32 (2 ^ 31 + m * 2 ^ 24))) = false := by decide +kernel

theorem wit_IllegalWordsTrap :
    (me tS).live = true ∧ IsWord (.post 1 2 0) ∧ drainPoint (.post 1 2 0) tS = .ok () ∧ wellFormed (.post 1 2 0) = false := by
  unfold IsWord; decide +kernel

theorem wit_NoStepStops :
    (me tS).live = true ∧ isEvent (.throttleBubble 0) = true ∧ IsWord (.add 1 2 3) ∧ (me State.reset).live = false := by
  unfold IsWord; decide +kernel

theorem wit_StepKeepsMemoryCanonical : MemoryOk tS ∧ ∃ t, Machine.step (tAt 0x81000000) = .next t :=
  ⟨by unfold MemoryOk; exact ⟨by decide, by unfold RegionMemoryOk; decide, fun e he q hq => by have h : ∀ e ∈ tS.packages, e.2.safe = none := (by decide +kernel); simp [h e he] at hq⟩, isNext_elim (by decide +kernel)⟩

theorem wit_ScalarFile :
    (31#5 ≠ 0#5) ∧ (31#5 ≠ 1#5) ∧ tS.ctx.snap = none ∧ ({ tS with ctx := { tCtx with snap := some Regs.zero } } : State).ctx.snap = some Regs.zero := by
  decide +kernel

/-- Strand 0 with one vector store dispatched and held. -/
def tStoring : VDispatch := { strand := 0, seq := 0, instr := .vst 1 2 0 0 0, scalars := Vector.replicate 32 0, sv := Vector.replicate 8 0, guard := (0x1000, 0x3FF00) }
def tVst (s : State) : State := modCore s 0 fun x => { x with vq := [tStoring] }

/-- `KAND k3, k1, k2` as a lone word at 0x1000, issued by the script and without it. -/
theorem wit_LoneWordRuns :
    (∀ s ∈ [tAt 0xB8184400, State.reset.withFetchWord 32 0xB8184400],
      IssuesNext s 0 0 ∧
      (let s0 := atBoundary (scriptPopped s) 0 0
       let x := getCore s 0
       let t := coreStrand x 0
       let w := (fetchWord s0 0 0 t.pc.toNat).1
       pendingReport (regionOf s 0) x 0 = false ∧ fetchWaits s0 = false ∧ budgetSpent t = false ∧ t.replaying = false ∧ t.beyond = none ∧
         inBounds (getCore s0 0) t.pc.toNat 4 = true ∧ isLone w = true ∧ decode (encverAt s0 0) w = .ok { lone := true, smark := false, instr := .kand 3 1 2 })) := by
  unfold IssuesNext; decide +kernel

/-- The same word with a vector store of the strand dispatched, and as the first word of a replay. -/
theorem wit_LoneWordRuns_waits :
    (let s := tVst (tAt 0xB8184400)
     IssuesNext s 0 0 ∧ pendingReport (regionOf s 0) (getCore s 0) 0 = false ∧ fetchWaits (atBoundary (scriptPopped s) 0 0) = true) ∧
    (let s := modStrand (tAt 0) 0 0 fun t =>
       { t with replaying := true, repState := repStateOf 1 0 1 0 0 0 0 0x1000, repBuf := t.repBuf.set 0 0xB8184400#32 }
     let s0 := atBoundary (scriptPopped s) 0 0
     IssuesNext s 0 0 ∧ pendingReport (regionOf s 0) (getCore s 0) 0 = false ∧ budgetSpent (coreStrand (getCore s 0) 0) = false ∧
       (coreStrand (getCore s 0) 0).replaying = true ∧
       decode (encverAt s0 0) (replayWord s0) = .ok { lone := true, smark := false, instr := .kand 3 1 2 }) := by
  unfold IssuesNext; decide +kernel

/-- Once a copy is held, and before. -/
theorem wit_FetchReadsMemory :
    (let s := tAt 0xB8184400
     ((getCore s 0).fetched.find? fun f => f.1 = 0 && f.2.1 = 0x1000) = none ∧
       (noteAccess s { core := 0, strand := 0, cmd := none } (tcmPlace 0 0x1000) 4 false none false false).2 = false ∧
       (∀ j, j < 4 → classAt (regionOf s 0) (tcmKey 0 0x1000 + j) ≠ 2) ∧
       ((getCore (fetchWord s 0 0 0x1000).2 0).fetched.find? fun f => f.1 = 0 && f.2.1 = 0x1000) = some (0, 0x1000, 0xB8184400#32)) ∧
      (getStrand (modMe tS fun t => { t with beyond := some 0x40000#64 }) 0 0).beyond = some 0x40000#64 := by
  decide +kernel

/-- A pair of two instructions at 0x1000 in a state, about to issue. -/
def pairAt (s : State) (ic ia : Instr) : State :=
  let w (i : Instr) : Nat := ((encode { lone := false, smark := false, instr := i }).getD 0).toNat
  { s with mem := memPut (memPut s.mem (tcmKey 0 0x1000) 4 (w ic)) (tcmKey 0 0x1004) 4 (w ia), script := [.issue 0] }

/-- The two words each run alone, and the A-slot word after the C-slot word: what of a pair's outcome the rule looks at. -/
def pairEvents (s : State) (ic ia : Instr) : Option (Event × Bool × Event × Option Event) :=
  let s0 := atBoundary (scriptPopped (pairAt s ic ia)) 0 0
  let s2 := (fetchWord (fetchWord s0 0 0 0x1000).2 0 0 0x1004).2
  let snap := some (me s2).regs
  match exec ic (setCtx s2 .cslot 0x1000 0x1004 0 snap), exec ia (setCtx s2 .aslot 0x1000 0x1004 0 snap) with
  | .next u, .next v =>
    some (u.ctx.event, (me u).live, v.ctx.event,
      match exec ia (setCtx u .aslot 0x1000 0x1004 0 snap) with
      | .next r => some r.ctx.event
      | _ => none)
  | _, _ => none

def pairMeets (s : State) (ic ia : Instr) : Prop :=
  (let s0 := atBoundary (scriptPopped (pairAt s ic ia)) 0 0
   let t := coreStrand (getCore (pairAt s ic ia) 0) 0
   let w1 := (fetchWord s0 0 0 0x1000).1
   let s1 := (fetchWord s0 0 0 0x1000).2
   let w2 := (fetchWord s1 0 0 0x1004).1
   let s2 := (fetchWord s1 0 0 0x1004).2
   pendingReport (regionOf (pairAt s ic ia) 0) (getCore (pairAt s ic ia) 0) 0 = false ∧ fetchWaits s0 = false ∧ budgetSpent t = false ∧
     t.replaying = false ∧ t.beyond = none ∧ t.pc = 0x1000 ∧ inBounds (getCore s0 0) 0x1000 4 = true ∧ inBounds (getCore s0 0) 0x1004 4 = true ∧
     isLone w1 = false ∧ isLone w2 = false ∧ isAClass w1 = false ∧ isAClass w2 = true ∧
     decode (encverAt s0 0) w1 = .ok { lone := false, smark := false, instr := ic } ∧
     decode (encverAt s0 0) w2 = .ok { lone := false, smark := false, instr := ia } ∧ sameDest ic ia = false ∧
     drainPoint ic (setCtx s2 .cslot t.pc (t.pc + 4#18) w1 none) = .ok () ∧
     drainPoint ia (setCtx s2 .aslot t.pc (t.pc + 4#18) w2 none) = .ok () ∧ wellFormed ic = true ∧ wellFormed ia = true)

/-- A slot of the dispatch ring holds an instruction in flight. -/
def ringBusy (k : Fin 16) (s : State) : State :=
  modStrand s 0 0 fun t => { t with ring := t.ring.set k { t.ring[0] with state := .inFlight } }

/-- A load beside `ADDI`: both complete; the load traps. -/
theorem wit_PairRuns :
    pairMeets tS (.ld 3 0 3 0) (.addi 0 0 0) ∧ pairEvents tS (.ld 3 0 3 0) (.addi 0 0 0) = some (.done, true, .done, some .done) := by
  unfold pairMeets; decide +kernel

theorem wit_PairRuns_traps :
    pairMeets tS (.ld 3 0 3 (-1)) (.addi 0 0 0) ∧ (pairEvents tS (.ld 3 0 3 (-1)) (.addi 0 0 0)).map (·.1) = some .trapped := by
  unfold pairMeets; decide +kernel

/-- The A-slot word waits alone: its ring entry is taken. -/
theorem wit_PairRuns_waits :
    pairMeets (ringBusy 0 tS) (.ld 3 0 3 0) (.vadd 1 2 3 0 0) ∧
      (pairEvents (ringBusy 0 tS) (.ld 3 0 3 0) (.vadd 1 2 3 0 0)).map (fun e => (e.1, e.2.2.1)) = some (.done, .blocked) := by
  unfold pairMeets; decide +kernel

/-- Behind the C-slot's dispatch the A-slot word waits. -/
theorem wit_PairRuns_behind :
    pairMeets (ringBusy 1 tS) (.vld 4 0 0 0 0) (.vadd 1 2 3 0 0) ∧
      pairEvents (ringBusy 1 tS) (.vld 4 0 0 0 0) (.vadd 1 2 3 0 0) = some (.done, true, .done, some .blocked) := by
  unfold pairMeets; decide +kernel

/-- The C-slot's load faults late, and the A-slot word would drain that. -/
theorem wit_PairRuns_cancelled :
    pairMeets (tR 0x40000 0 0 0 tS) (.vld 4 1 0 0 0) (.vmovs 1 2 3 0) ∧
      pairEvents (tR 0x40000 0 0 0 tS) (.vld 4 1 0 0 0) (.vmovs 1 2 3 0) = some (.done, true, .done, some .trapped) := by
  unfold pairMeets; decide +kernel

theorem wit_LoneWordRuns_script :
    ({ tS with script := [.event (.throttleBubble 0)] } : State).script = .event (.throttleBubble 0) :: [] ∧ isEvent (.throttleBubble 0) = true := by
  decide +kernel

theorem wit_IntegerFormsCompute :
    (me tS).live = true ∧ registerResult (.div 3 1 2) (readS tS) = some (3, 0xFFFFFFFFFFFFFFFF#64) ∧
      immediateResult (.sltin 3 1 (-1)) (readS tS) = some (3, 1#64) := by decide +kernel

/-- Level 1 at its end word with 2 passes left, with 1 (it exits), and level 0 likewise. -/
def tLoop (n0 n1 : Nat) : State :=
  modMe tS fun t =>
    { t with
      loop0 := { start := 0xFF0, stop := 0x1000, count := BitVec.ofNat 64 (2 ^ 63 + n0) }
      loop1 := { start := 0xFF8, stop := 0x1000, count := BitVec.ofNat 64 (2 ^ 63 + n1) } }

theorem wit_EndCheckCountsPasses :
    (∀ s ∈ [tLoop 2 2, tLoop 2 1, tLoop 1 1, tLoop 1 0],
      s.ctx.slot = .lone ∧ (me s).loop1.count.getLsbD 63 = true ∧ (me s).loop1.stop.toNat / 4 % 2 ^ 16 = s.ctx.last.toNat / 4 ∧
        (me s).loop0.count.getLsbD 63 = true ∧ (me s).loop0.stop.toNat / 4 % 2 ^ 16 = s.ctx.last.toNat / 4) ∧
      1 < (me (tLoop 2 2)).loop1.count.toNat % 2 ^ 32 ∧ ¬1 < (me (tLoop 2 1)).loop1.count.toNat % 2 ^ 32 ∧
      1 < (me (tLoop 2 1)).loop0.count.toNat % 2 ^ 32 ∧ ¬1 < (me (tLoop 1 1)).loop0.count.toNat % 2 ^ 32 ∧
      (me tS).loop0.count.getLsbD 63 = false ∧ (setCtx tS .aslot 0x1000 0x1000 0 none).ctx.slot = .aslot ∧
      (setCtx tS .rep 0x1000 0x1000 0 none).ctx.slot = .rep := by decide +kernel

theorem wit_BranchesTransferOrFallThrough :
    (me tS).live = true ∧ branchOf (.beq 1 2 5) (readS tS) = some (true, 5#11) ∧ branchOf (.bne 1 2 (-5)) (readS tS) = some (false, -5#11) := by
  decide +kernel

/-- The branch at 0x1000 leaves level 0, whose body ends there, and stays in level 1. -/
theorem wit_LoopsLeftByTransfers :
    (let s := tLoop 2 2
     let t := me s
     t.loop0.count.getLsbD 63 = true ∧ t.loop0.start.toNat / 4 % 2 ^ 16 ≤ s.ctx.pc.toNat / 4 ∧ s.ctx.pc.toNat / 4 ≤ t.loop0.stop.toNat / 4 % 2 ^ 16 ∧
       ¬(t.loop0.start.toNat / 4 % 2 ^ 16 ≤ (0x1004#18).toNat / 4 ∧ (0x1004#18).toNat / 4 ≤ t.loop0.stop.toNat / 4 % 2 ^ 16) ∧
       (t.loop1.start.toNat / 4 % 2 ^ 16 ≤ (0x1000#18).toNat / 4 ∧ (0x1000#18).toNat / 4 ≤ t.loop1.stop.toNat / 4 % 2 ^ 16)) ∧
      (1#5 ≠ 0#5) ∧ nextIs (exec (.jal 1 4) (tLoop 2 2)) (fun t => t.ctx.event = .done) = true ∧
      nextIs (exec (.jalr 1 0 0x1004) (tLoop 2 2)) (fun t => t.ctx.event = .done) = true := by decide +kernel

theorem wit_JumpsLinkAndTransfer :
    (me tS).live = true ∧ (readS (tR 0x3FFFC 0 0 0 tS) 1 + BitVec.ofInt 64 0).toNat < 2 ^ 18 ∧ (readS (tR 0x3FFFC 0 0 0 tS) 1).toNat % 4 = 0 ∧
      ¬(readS (tR 0x40000 0 0 0 tS) 1).toNat < 2 ^ 18 := by decide +kernel

/-- A body of one word, at 0x1004, and of two, whose last word is at 0x1008 and is no lone word. -/
theorem wit_LoopsAreSetUp :
    vqStores (tVst tS) = true ∧ (me (tVst tS)).live = true ∧ vqStores tS = false ∧ (me tS).live = true ∧ (1#12 ≠ 0#12) ∧ (readS tS 1).toNat % 2 ^ 32 = 0 ∧ (511#9).toNat ≠ 0 ∧
      (0x1004#18).toNat % 8 ≠ 0 ∧ (readCode tS 0 0 0x1008).1.getLsbD 31 = false ∧ (0x1008#18).toNat % 8 = 0 := by decide +kernel

/-- A body of one lone A-class word; of none. -/
def tRep : State := { tS with mem := memPut [] (tcmKey 0 0x1004) 4 0xA1000000 }

theorem wit_ReplaysRun :
    vqStores (tVst tRep) = true ∧ vqStores tRep = false ∧ (me tRep).live = true ∧ (let at_ (j : Nat) : Word32 := (readCodes 0 0 ((0#4).toNat + 1) tRep 0x1004).1.getD j 0#32
       ∀ j, j ≤ (0#4).toNat → (at_ j).getLsbD 31 = true ∧ (at_ j).getLsbD 29 = true) ∧
      isLoopEnd (me tRep) tRep.ctx.pc = false ∧ (∀ j, j < (0#4).toNat → isLoopEnd (me tRep) (0x1004#18 + BitVec.ofNat 18 (4 * j)) = false) ∧
      ((readCodes 0 0 1 tS 0x1004).1.getD 0 0#32).getLsbD 31 = false ∧ (1#8 ≠ 0#8) ∧ (myRegion tRep).log = [] ∧ tRep.doubts = [] ∧
      (myRegion tRep).classes = [] := by decide +kernel

/-- A replay of two words and two passes: in the first pass, at its end, and at the end of the last. -/
theorem wit_ReplaysRun_passes :
    (let r (pass word : Nat) := repStateOf 1 1 2 pass word 0 0 0x1004
     (repWord (r 0 0) < repBlen (r 0 0) ∧ repPass (r 0 0) < repPasses (r 0 0)) ∧
     (repBlen (r 0 1) ≤ repWord (r 0 1) ∧ repPass (r 0 1) + 1 < repPasses (r 0 1)) ∧
     (repBlen (r 1 1) ≤ repWord (r 1 1) ∧ repPasses (r 1 1) ≤ repPass (r 1 1) + 1)) := by decide +kernel

theorem wit_PlainWordsTouchOnlyTheirResult :
    plainDest (.add 3 1 2) = some 3#5 ∧ nextIs (exec (.add 3 1 2) tS) (fun t => t.ctx.event = .done) = true ∧
      plainDest (.loopi 0 3 1) = some 0#5 ∧ IsLoop (.loopi 0 3 1) ∧ nextIs (exec (.loopi 0 3 1) tS) (fun t => t.ctx.event = .done) = true ∧
      ¬IsLoop (.add 3 1 2) ∧
      -- a taken branch to 2^18
      (let s := modMe tS fun t => { t with pc := 0x3FFFC }
       let s1 : State := { s with ctx := { s.ctx with pc := 0x3FFFC, last := 0x3FFFC } }
       plainDest (.beq 0 0 1) = some 0#5 ∧
         nextIs (exec (.beq 0 0 1) s1) (fun t => t.ctx.event = .done ∧ (me t).beyond = some 0x40000#64 ∧ (me t).pc = 0) = true) := by
  refine ⟨by decide +kernel, by decide +kernel, by decide +kernel, .inr ⟨0, 3, 1, rfl⟩, by decide +kernel, ?_, by decide +kernel⟩
  rintro (⟨_, _, _, h⟩ | ⟨_, _, _, h⟩) <;> cases h
/-! ### Witnesses: helpers, traps, control registers -/

theorem wit_HelpersStartAndEnd :
    (let s := tR 0x3FFFC 7 0 0 tS
     Issuable (.start 1 2 1) s ∧ (1#2).toFin ≠ strandNo (me s) ∧ performedAll s = true ∧ (myRegion s).phase ≠ .t ∧ (readS s 1).toNat < 2 ^ 18 ∧ (readS s 1).toNat % 4 = 0 ∧
       (getStrand s s.ctx.core 1).live = false ∧ (getStrand (setStrand s 0 1 { Strand.idle with live := true }) 0 1).live = true ∧
       Issuable (.start 1 2 1) (setStrand s 0 1 { Strand.idle with live := true })) ∧
      (Issuable (.waits 5) tS ∧ (waitSet 5).getLsbD (strandNo (me tS)) = false ∧ (myRegion tS).phase ≠ .t ∧ vqBusy tS = false ∧
        ∀ k : Fin 4, (waitSet 5).getLsbD k = true → (getStrand tS tS.ctx.core k).live = false) ∧
      Issuable .yield tS ∧
      (let s := { setStrand tS 0 3 { Strand.idle with live := true, strandId := 3 } with ctx := { tCtx with strand := 3 } }
       Issuable .endOp s ∧ (me s).trap.status.getLsbD 0 = false ∧ strandNo (me s) ≠ 0 ∧ (myRegion s).phase ≠ .t ∧ performedAll s = true) := by
  unfold Issuable; decide +kernel

/-- A core with handlers at 0x2000, 0x2400 and 0x2800, and a save area at 0x4000. -/
def tHandlers (s : State) : State := tC (fun x => { x with handler := 0x0A0009000800#64, saveArea := 0x4000#64 }) s

theorem wit_TrapEntrySavesAndEnters :
    (let s := tHandlers tS
     0x0C < 2 ^ 64 ∧ Memory.wf s.mem = true ∧ (coreStrand (getCore s 0) 0).trap.status.getLsbD 0 = false ∧ handlerAddr (getCore s 0) 2 ≠ 0 ∧
       entryFits (getCore s 0) (coreStrand (getCore s 0) 0) 0x0C = true ∧ entryFits (getCore s 0) (coreStrand (getCore s 0) 0) 0x20 = true ∧
       (coreStrand (getCore s 0) 0).beyond = none ∧
       (regionOf s 0).classes = []) ∧
      (coreStrand (getCore (tH 0 tS) 0) 0).trap.status.getLsbD 0 = true ∧ handlerAddr (getCore tS 0) 0 = 0 ∧
      (let s := tC (fun x => { x with saveArea := 0#64 }) (tHandlers tS)
       entryFits (getCore s 0) (coreStrand (getCore s 0) 0) 0x0C = false ∧ handlerAddr (getCore s 0) 0 ≠ 0) := by decide +kernel

theorem wit_TrapEntrySavesAndEnters_guards :
    ∀ j, j < 0x700 → classAt (regionOf (tHandlers tS) 0) (tcmKey 0 (saveBlock (getCore (tHandlers tS) 0) 0 + j)) ≠ 2 := by
  have h : (regionOf (tHandlers tS) 0).classes = [] := by decide +kernel
  simp [classAt, h, mapGet?]

theorem wit_SystemWordsTrapAndReturn :
    (me tS).live = true ∧ (myRegion tS).breakpoints = false ∧ (myRegion (tG (fun r => { r with breakpoints := true }) tS)).breakpoints = true ∧
      (me (tH 0 tS)).trap.status.getLsbD 0 = true ∧ fieldOf (me (tH 0 tS)).trap.status 3 2 ≠ 2 ∧ (me (tH 0 tS)).repState.getLsbD 63 = false ∧
      (let s := tH 0 (modMe tRep fun t => { t with repState := repStateOf 1 0 1 0 0 0 0 0x1004 })
       (me s).trap.status.getLsbD 0 = true ∧ (me s).repState.getLsbD 63 = true ∧ vqStores s = false ∧ vqStores (tVst s) = true ∧
         (me (tVst s)).trap.status.getLsbD 0 = true ∧ (me (tVst s)).repState.getLsbD 63 = true) ∧
      (me (tH 2 tS)).trap.status.getLsbD 0 = true ∧ fieldOf (me (tH 2 tS)).trap.status 3 2 = 2 ∧ (me tS).trap.status.getLsbD 0 = false := by
  decide +kernel

theorem wit_BarrierWordsWaitAndRetire :
    (let rel (s : State) := modMe s fun t => { t with released := true }
     let voted := tC (fun x => { x with vote := true }) (tG (fun r => { r with phase := .t }) tS)
     let help := { setStrand tS 0 3 { Strand.idle with live := true } with ctx := { tCtx with strand := 3 } }
     Issuable .sync tS ∧ tS.ctx.strand = 0 ∧ (me tS).released = false ∧ Issuable .sync (rel tS) ∧ (me (rel tS)).released = true ∧
       Issuable .sync help ∧ help.ctx.strand ≠ 0 ∧ Issuable .endOp tS ∧ (me tS).trap.status.getLsbD 0 = false ∧ Issuable .endOp (rel tS) ∧
       strandNo (me tS) = 0 ∧ (myRegion tS).phase ≠ .t ∧ Issuable .endOp voted ∧ (myRegion voted).phase = .t ∧ (myCore voted).vote = true ∧
       (let t := tG (fun r => { r with phase := .t }) tS; Issuable .endOp t ∧ (myRegion t).phase = .t ∧ (myCore t).vote = false) ∧
       Issuable .endOp (tH 1 tS) ∧ (me (tH 1 tS)).trap.status.getLsbD 0 = true ∧ fieldOf (me (tH 1 tS)).trap.status 3 2 = 1 ∧
       (me (tH 1 tS)).trap.status.getLsbD 4 = false) := by
  unfold Issuable; decide +kernel

theorem wit_ControlRegistersHold : crMask 0x050 ≠ 0#64 ∧ (0x051 ≠ 0x050) ∧ ((1 : Nat) ≠ 0) ∧ ((1 : Fin 4) ≠ 0) ∧ crMask 0x001 ≠ 0#64 ∧ crPerStrand 0x001 = true := by decide +kernel

/-- `SAVEAREA` in a handler, `MXFMT_A` anywhere, `COREID`, which ignores writes. -/
theorem wit_ControlRegisterAccess :
    (me tS).live = true ∧ selKnown 0x050#12 = true ∧ crWaits tS 0x050 = false ∧ (noteReg tS 0x050 true).2 = false ∧ (noteReg tS 0x050 false).2 = false ∧
      crRight 0x050 = .always ∧
      (selKnown 0x008#12 = true ∧ crWaits (tH 0 tS) 0x008 = false ∧ (noteReg (tH 0 tS) 0x008 true).2 = false ∧ crRight 0x008 = .handler ∧
        (me (tH 0 tS)).trap.status.getLsbD 0 = true) ∧
      (selKnown 0x010#12 = true ∧ crWaits tS 0x010 = false ∧ crRight 0x010 = .ignored ∧ (noteReg tS 0x010 false).2 = false) ∧
      (crPerStrand 0x001 || crPerPackage 0x001) = true := by decide +kernel

theorem wit_HandlerRegistersProtected :
    (me tS).live = true ∧ (me tS).trap.status.getLsbD 0 = false ∧ (0x001 ≤ (0x001#12).toNat ∧ (0x001#12).toNat ≤ 0x008) ∧
      (0x001 ≤ (0x008#12).toNat ∧ (0x008#12).toNat ≤ 0x008) ∧ (0x030 ≤ (0x032#12).toNat ∧ (0x032#12).toNat ≤ 0x032) ∧
      (0x060 ≤ (0x065#12).toNat ∧ (0x065#12).toNat ≤ 0x065) := by decide +kernel

theorem wit_ControlRegisterFrame : nextIs (exec (.crw 3 1 0x050) tS) (fun t => t.ctx.event = .done) = true := by decide +kernel

/-! ### Witnesses: memory words -/

/-- The tables map the first gibibyte of device memory's addresses to the page at 2^30, open to group 0, with a mode. -/
def tMap (mode : Nat) (s : State) : State :=
  { s with
    mem := memPut (memPut (memPut s.mem (devKey 0 0x0) 8 0x2001) (devKey 0 0x2000) 8 (2 ^ 30 + 3)) (devKey 0 0x2008) 8 (2 ^ 32 + mode * 2 ^ 12) }

theorem tUnguarded (s : State) (h : (myRegion s).classes = []) (k n : Nat) : ∀ j, j < n → classAt (myRegion s) (k + j) ≠ 2 := by
  simp [classAt, h, mapGet?]

theorem wit_LoadsComplete :
    (let s := tR 0x2008 0 0 0 tS
     (me s).live = true ∧ vqBusy s = false ∧
     ∃ p, strandCheck s (readS s 1 + BitVec.ofInt 64 ((-1 : Int) * 8)) 8 8 .load = .ok p ∧ accessReady s p 8 false = .ok () ∧
       (noteAccess (markLeaf s p false) (whoMe s) p 8 false none false false).2 = false ∧ p.mode ≠ .ex ∧ p.readOnly = false ∧
       (myRegion s).classes = []) := by
  refine ⟨by decide +kernel, by decide +kernel, { key := 0x2000, mode := .untranslated, readOnly := false, leaf := none, va := 0x2000 }, ?_⟩
  decide +kernel

theorem wit_SpecialLoadsReadOldContent :
    (noteAccess (markLeaf tS (tcmPlace 0 0x2000) false) { core := 0, strand := 0, cmd := none } (tcmPlace 0 0x2000) 8 false none false false).2
      = false ∧ (7 < 8) := by decide +kernel

/-- A copy of strand 0 in its core's copy queue. -/
def tCopyCmd : Cmd :=
  { strand := 0, seq := 0, instr := .cpy 1 2 3 0 2, a := 0x2000, b := 0x3000, c := 0, eb := Vector.replicate 16 0, sv := Vector.replicate 8 0,
    guard := (0x1000, 0x3FF00), tphase := false, order := { phase := 0, agent := 0, run := 0, place := 0, sub := 0 }, start := noStart,
    resumed := false, index := none, read := none, parked := .ready, waiting := false, stamp := 0, ended := none, started := false,
    outputs := [], clock := [], threads := [] }

/-- `ST` to TCM; to an EX page, with a copy of the strand queued and with none; `ST.h` to a sync word, and elsewhere. -/
theorem wit_StoresComplete :
    (let s := tR 0x2008 7 0x4000000000000010 0 tS
     let x := tMap 3 s
     let y := tClass 1 s
     (me s).live = true ∧ Memory.wf s.mem = true ∧ vqBusy s = false ∧ Memory.wf x.mem = true ∧
     (∃ p, strandCheck s (readS s 1) 8 8 .store = .ok p ∧ accessReady s p 8 true = .ok () ∧ p.mode ≠ .ex ∧ (myRegion s).classes = []) ∧
     (∃ p, strandCheck x (readS x 3) 8 8 .store = .ok p ∧ accessReady x p 8 true = .ok () ∧ p.mode = .ex ∧ copiesOut x = false ∧ (me x).deferred < queueLimit (me x)) ∧
     (let w := tC (fun y => { y with cq := [tCopyCmd] }) x
      ∃ p, strandCheck w (readS w 3) 8 8 .store = .ok p ∧ accessReady w p 8 true = .ok () ∧ p.mode = .ex ∧ copiesOut w = true) ∧
     (∃ p, strandCheck y (readS y 1) 8 8 .store = .ok p ∧ spaceOf p.key ≤ 1 ∧ classAt (myRegion y) p.key = 1 ∧
       accessReady y p 8 true = .ok () ∧ atomsPending y = false ∧ ∀ j, j < 8 → classAt (myRegion y) (p.key + j) ≠ 2) ∧
     (∃ p, strandCheck s (readS s 1) 8 8 .store = .ok p ∧ classAt (myRegion s) p.key ≠ 1) ∧
     ((myCore s).region.isSome ∧ (getRegion? s ((myCore s).region.getD 0)).isSome)) := by
  refine ⟨by decide +kernel, by decide +kernel, by decide +kernel, by decide +kernel, ⟨tcmPlace 0 0x2008, by decide +kernel⟩, ?_, ?_, ⟨tcmPlace 0 0x2008, by decide +kernel⟩, ⟨tcmPlace 0 0x2008, by decide +kernel⟩, by decide +kernel⟩
  all_goals exact ⟨{ key := devKey 0 (2 ^ 30 + 16), mode := .ex, readOnly := false, leaf := some (devKey 0 0x2000), va := 0x4000000000000010 }, by decide +kernel⟩

theorem wit_StoreFrame :
    (let s := tR 0x2008 7 0x10040 0 tS
     nextIs (exec (.st 2 1 3 0) s) (fun t => t.ctx.event = .done) = true ∧
       nextIs (exec (.stH 2 1 0) (tClass 1 s)) (fun t => t.ctx.event = .done) = true ∧
       nextIs (exec (.stbit 3 2 63) s) (fun t => t.ctx.event = .done) = true) := by decide +kernel

theorem wit_MisalignedAccessTraps :
    (me tS).live = true ∧ vqBusy tS = false ∧ zeroBitsOk 0x2001#64 = true ∧ (0x2001#64).toNat % 8 ≠ 0 ∧ zeroBitsOk 0x40000#64 = false := by decide +kernel

/-- The boundary values of the TCM check: the uniform area's end, the guard bounds' first and last granule. -/
theorem wit_TcmBoundsChecked :
    ((0x3FFF8#64).toNat < 2 ^ 18 ∧ (0x3FFF8#64).toNat % 8 = 0) ∧ isOk (strandCheck tS 0x0FF8 8 8 .load) = true ∧
      isOk (strandCheck tS 0x0FF8 8 8 .store) = false ∧ isOk (strandCheck tS 0x1000 8 8 .store) = true ∧
      isOk (strandCheck tS 0x3FFF8 8 8 .store) = true := by decide +kernel

theorem wit_BitFieldsComplete :
    (let s := tR 0x1003F 0 0 0 tS
     (me s).live = true ∧ Memory.wf s.mem = true ∧ vqBusy s = false ∧
     (∃ p, bitCheck s (readS s 1) 64 .load = .ok (63, 2, p) ∧
       (noteAccess (markLeaf s p false) (whoMe s) p 16 false none false false).2 = false) ∧
     (∃ p, bitCheck s (readS s 1) 64 .store = .ok (63, 2, p)) ∧ (myRegion s).classes = []) := by
  refine ⟨by decide +kernel, by decide +kernel, by decide +kernel, ⟨tcmPlace 0 0x2000, by decide +kernel⟩, ⟨tcmPlace 0 0x2000, by decide +kernel⟩, by decide +kernel⟩

theorem wit_TransposingLoadCompletes :
    (let s := tR 0x2000 32 0 0 tS
     Issuable (.ldt 16 1 2 1) s ∧ vqBusy s = false ∧ (readS s 1).toNat / 2 ^ 60 ≤ 1 ∧ (readS s 1).toNat % 32 = 0 ∧ (readS s 2).toNat % 32 = 0 ∧
     (∀ i, i < 16 → strandCheck s (readS s 1 + BitVec.ofNat 64 i * readS s 2) 32 32 .load = .ok (tcmPlace 0 (0x2000 + 32 * i)) ∧
       accessReady s (tcmPlace 0 (0x2000 + 32 * i)) 32 false = .ok () ∧ (tcmPlace 0 (0x2000 + 32 * i)).leaf = none ∧
       (tcmPlace 0 (0x2000 + 32 * i)).readOnly = false ∧ (tcmPlace 0 (0x2000 + 32 * i)).mode ≠ .ex) ∧
     (myRegion s).log = [] ∧ s.doubts = [] ∧ (myRegion s).classes = []) := by
  unfold Issuable; decide +kernel
/-! ### Witnesses: atomics, messages, vector words -/

theorem tHeld : Held tS := ⟨0, placedRegion, by decide +kernel⟩

/-- Host page 2 is granted for reading and writing. -/
def tHost (s : State) : State :=
  modPackage s 0 fun p => { p with ats := [{ pasid := 0, page := 2, read := true, write := true, granted := true }] }

theorem wit_AtomicsLeaveForTheirHomes :
    (let s := tR 0x2000 5 0x7000000000002000 0x1000000000000000 tS
     (me s).live = true ∧ vqBusy s = false ∧ atomicForm (.amoadd 1 2 1) = some (0#3, 1#5, 2#5, 1#1) ∧
     (∃ p, strandCheck s (readS s 1) 8 8 .amo = .ok p ∧ accessReady s p 8 true = .ok () ∧ classAt (myRegion s) p.key ≠ 2) ∧
     ((myRegion s).atoms.countP fun r => r.core = s.ctx.core) < 256 ∧
     (∃ p, strandCheck (tClass 2 s) (readS s 1) 8 8 .amo = .ok p ∧ accessReady (tClass 2 s) p 8 true = .ok () ∧
       classAt (myRegion (tClass 2 s)) p.key = 2 ∧ (watchCode p).isSome) ∧
     (∃ p, strandCheck (tHost s) (readS s 3) 8 8 .amo = .ok p ∧ spaceOf p.key = 5) ∧ (1#3 ≠ 0#3) ∧
     (∃ p, strandCheck (tHost s) (readS s 3) 4 4 .amo = .ok p ∧ spaceOf p.key = 5) ∧
     (∃ p, strandCheck s (readS s 4) 8 8 .amoseq = .ok p ∧ spaceOf p.key ≠ 5) ∧ fieldOf (readS s 1) 63 60 = 0 ∧
     (∃ q, strandCheck s (readS s 1) 16 16 .store = .ok q) ∧ (me s).allowance < queueLimit (me s) ∧
     (let x := modMe s fun t => { t with allowance := 16384 }
      queueLimit (me x) ≤ (me x).allowance)) := by
  refine ⟨by decide +kernel, by decide +kernel, by decide +kernel, ⟨tcmPlace 0 0x2000, by decide +kernel⟩, by decide +kernel, ⟨tcmPlace 0 0x2000, by decide +kernel⟩,
    ⟨{ key := hostKey 0x2000, mode := .host, readOnly := false, leaf := none, va := 0x7000000000002000 }, by decide +kernel⟩, by decide +kernel,
    ⟨{ key := hostKey 0x2000, mode := .host, readOnly := false, leaf := none, va := 0x7000000000002000 }, by decide +kernel⟩,
    ⟨{ key := spadKey 0 0, mode := .untranslated, readOnly := false, leaf := none, va := 0x1000000000000000 }, by decide +kernel⟩, by decide +kernel,
    ⟨tcmPlace 0 0x2000, by decide +kernel⟩, by decide +kernel, by decide +kernel⟩

/-- A receive queue of three slots at 0x3000, with one message. -/
def tQueue (s : State) : State := tC (fun x => { x with rqBase := 0x3000#64, rqLimit := 0x30C0#64, rqHead := 2, rqTail := 0 }) s

theorem tLogQuiet (s : State) (h : (myRegion s).log = []) : LogQuiet s := by simp [LogQuiet, h]

theorem tRegistersQuiet (s : State) (h : (myCore s).regAcc = []) : RegistersQuiet s := by simp [RegistersQuiet, h]

theorem wit_MessagesPostedAndTaken :
    (let s := tR 0x2000 0x0000000700000000 0 0 tS
     Issuable (.post 1 2 6) s ∧ vqBusy s = false ∧ (readS s 1).toNat < 2 ^ 60 ∧ (readS s 2).toNat / 2 ^ 22 % 2 ^ 10 = 0 ∧
     (∃ x, postRead s (readS s 1) 6 0 = .ok x) ∧ 0 / 65536 ≤ fieldOf (myCore s).pkgId 13 8 ∧ inCoreSet (myRegion s).rcb 0 = true ∧
     (me s).allowance < queueLimit (me s) ∧ (myRegion s).log = [] ∧ s.doubts = [] ∧ (myRegion s).classes = []) ∧
    (let s := tQueue tS
     (me s).live = true ∧ (myCore s).regAcc = [] ∧ rqUsable (myCore s) = true ∧
       fieldOf (myCore s).rqHead 11 0 ≠ fieldOf (myCore s).rqTail 11 0 ∧ rqUsable (myCore tS) = false) := by
  refine ⟨⟨by unfold Issuable; decide +kernel, by decide +kernel, by decide +kernel, by decide +kernel, isOk_elim (by decide +kernel), by decide +kernel⟩, by decide +kernel⟩

/-- The sync word at 0x2000 is written with 7; a fence waits for an atomic. -/
theorem wit_OrderingWordsComplete :
    (let s := tClass 1 (tR 0x2000 7 0x2000000000000000 0 tS)
     let h : Handoff := { key := 0x2000, value := 7#64, clock := [], any := true, core := 0, strand := 0 }
     let a : AtomReq := { core := 0, strand := 0, count := 0, op := 0, wide := true, key := 0x2000, va := 0x2000, operand := 0 }
     Issuable (.fence 6 12 4) s ∧ vqBusy s = false ∧ atomsPending s = false ∧ (myCore s).unacked = 0 ∧ ringSettled (me s) = true ∧ (myCore (tC (fun x => { x with unacked := 1 }) s)).unacked ≠ 0 ∧
       atomsPending (tG (fun r => { r with atoms := [a] }) s) = true ∧ (2#4).getLsbD 1 = true ∧ Issuable (.fence 0 2 1) s ∧
       Issuable (.waitw 1 2) s ∧ 1 < (readS s 3).toNat / 2 ^ 60 ∧ (readS s 1).toNat / 2 ^ 60 ≤ 1 ∧
       strandCheck s (readS s 1) 8 8 .wait = .ok (tcmPlace 0 0x2000) ∧ classAt (myRegion s) (tcmPlace 0 0x2000).key = 1 ∧
       classAt (myRegion tS) (tcmPlace 0 0x2000).key ≠ 1 ∧ (myRegion s).handoffs = [] ∧
       h ∈ (myRegion (tG (fun r => { r with handoffs := [h] }) s)).handoffs ∧ Issuable .ifence s) := by
  unfold Issuable; decide +kernel

/-- Every accepted vector word can issue at once in the small state. -/
theorem wit_VectorReady (i : Instr) (h : drainPoint i tS = .ok () ∧ wellFormed i = true) : VectorReady i tS :=
  ⟨⟨by decide +kernel, h⟩, by decide +kernel⟩

theorem wit_MaskOperations : VectorReady (.kand 0 1 7) tS ∧ VectorReady (.knot 0 1) tS ∧ (7#3 ≠ 0#3) :=
  ⟨wit_VectorReady _ (by decide +kernel), wit_VectorReady _ (by decide +kernel), by decide⟩

theorem wit_VectorElementResults :
    VectorReady (.vadd 1 2 3 0 0) tS ∧ (laneResult (.vadd 1 2 3 0 0)).isSome ∧ 31 < 32 / typeWidth 0 ∧ LaneActive tS 0 1 31 ∧
      VectorReady (.vfma 1 2 3 7 9) tS ∧ (laneResult (.vfma 1 2 3 7 9)).isSome ∧ ¬LaneActive tS 7 2 15 :=
  ⟨wit_VectorReady _ (by decide +kernel), by decide, by decide, .inl rfl, wit_VectorReady _ (by decide +kernel), by decide, by
    unfold LaneActive; decide +kernel⟩

theorem wit_LanesComparedMovedAndInserted :
    ((laneCompare (.vcmplt 1 2 3 0 8)).isSome ∧ VectorReady (.vcmplt 1 2 3 0 8) tS) ∧ VectorReady (.vsel 1 2 3 1 11) tS ∧
      VectorReady (.vperm 1 2 3 1 0) tS ∧ VectorReady (.vbcast 1 2 3 1 0) tS ∧ VectorReady (.vslide 1 2 3 0 0) tS ∧
      VectorReady (.vins 1 2 31 0) tS ∧ (Issuable (.vmovs 1 2 31 0) tS ∧ vqBusy tS = false ∧ ringFree (me tS) = true ∧
        lateOf (me tS) .vector = none) :=
  ⟨⟨by decide, wit_VectorReady _ (by decide +kernel)⟩, wit_VectorReady _ (by decide +kernel), wit_VectorReady _ (by decide +kernel),
    wit_VectorReady _ (by decide +kernel), wit_VectorReady _ (by decide +kernel), wit_VectorReady _ (by decide +kernel),
    by unfold Issuable; decide +kernel⟩

/-- On `.n64` with a full mask the list of active elements is that of all four. -/
theorem wit_VectorReductionsComplete :
    VectorReady (.vredsum 1 2 3 0 7) tS ∧ VectorReady (.vredmax 1 2 3 0 7) tS ∧ VectorReady (.vredmin 1 2 3 0 8) tS ∧
      VectorReady (.vredsum 1 2 3 0 9) tS ∧ VectorReady (.vscan 1 2 3 0 7) tS ∧ VectorReady (.vcvt 1 2 3 0 11) tS ∧
      VectorReady (.vexp2 1 2 0 8) tS ∧ VectorReady (.vrcp 1 2 0 9) tS ∧ floatOf 7#4 = none ∧ (floatOf 8#4).isSome ∧ (floatOf 9#4).isSome ∧
      (∀ e, e ∈ List.range 4 ↔ e < 32 / typeWidth 7#4 ∧ LaneActive tS 0 8 e) ∧ (List.range 4).Nodup := by
  refine ⟨wit_VectorReady _ (by decide +kernel), wit_VectorReady _ (by decide +kernel), wit_VectorReady _ (by decide +kernel),
    wit_VectorReady _ (by decide +kernel), wit_VectorReady _ (by decide +kernel), wit_VectorReady _ (by decide +kernel),
    wit_VectorReady _ (by decide +kernel), wit_VectorReady _ (by decide +kernel), by decide, by decide, by decide, fun e => ?_, by decide⟩
  have h : 32 / typeWidth 7#4 = 4 := by decide
  simp [h, LaneActive]

/-- Element codes of every case of `VRCP` and `VEXP2`; `VCVT` to more elements than it reads. -/
theorem wit_VectorReductionsComplete_cases :
    floatVal .f32 0x7FC00000 = .nan ∧ floatVal .f32 0x7F800000 = .inf false ∧ floatVal .f32 0xFF800000 = .inf true ∧
      floatVal .f32 0x80000000 = .zero true ∧ floatVal .f32 0x40400000 = .fin 12582912 (-22) ∧
      floatVal .f32 0x43808000 = .fin 8421376 (-15) ∧ (256 : Int) * 2 ^ (15 : Nat) < 8421376 ∧
      floatVal .f32 0xC3808000 = .fin (-8421376) (-15) ∧ (-8421376 : Int) < -256 * 2 ^ (15 : Nat) ∧
      (12582912 : Int) * 2 ^ ((-22 : Int).toNat) = 3 * 2 ^ ((22 : Int).toNat) ∧ 32 / typeWidth 3#4 ≤ 4 ∧ 4 < 32 / typeWidth 8#4 := by decide +kernel

/-- `VSCALE` of the worked example, of zeros, of an infinity, and with the code 255. -/
theorem wit_VectorReductionsComplete_scale :
    (∀ n ∈ [0, 0x40400000, 0x7F800000], VectorReady (.vscale 8 0 8 0 8) (writeV (writeV tS 0 (tV [n])) 8 (tV [0xFF07]))) ∧
      (elemVal 8#4 (elemOf (readV (writeV tS 0 (tV [0x40400000])) 0) 4 0) = .fin 12582912 (-22) ∧
        elemVal 8#4 (elemOf (readV (writeV tS 0 (tV [0x7F800000])) 0) 4 0) = .inf false) ∧
      (∀ e, e < 8 → elemVal 8#4 (elemOf (readV tS 0) 4 e) = .zero false) ∧
      (elemOf (readV (writeV tS 8 (tV [0xFF07])) 8) 1 1 = 255 ∧ elemOf (readV tS 8) 1 1 ≠ 255) := by
  unfold VectorReady Issuable; decide +kernel

/-- Each of the four forms over 0x2000 in TCM, all elements active. -/
theorem wit_VectorMemoryWordsComplete :
    (let s := tR 0x2000 0 0 0 tS
     (VectorReady (.vld 1 1 2 0 0) s ∧ VectorReady (.vst 1 1 2 0 0) s ∧ VectorReady (.vgather 1 1 2 0 2) s ∧ VectorReady (.vscatter 1 1 2 0 2) s) ∧
     s.doubts = [] ∧ Memory.wf s.mem = true ∧ (myRegion s).log = [] ∧ (myRegion s).classes = [] ∧
     (let start := readS s 1 + readS s 2
      fieldOf start 63 60 ≤ 2 ∧ start.toNat % 1 = 0 ∧ fieldOf start 59 0 + 32 ≤ memorySize (fieldOf start 63 60) ∧
        ∀ e, e < 32 → ∀ k ∈ [AccKind.load, .store], checkAccess s (asMe s) (start + BitVec.ofNat 64 (e * 1)) 1 1 k = .ok (tcmPlace 0 (0x2000 + e)) ∧
          accessReady s (tcmPlace 0 (0x2000 + e)) 1 (decide (k = .store)) = .ok ()) ∧
     (let base := readS s 1
      fieldOf base 63 60 ≤ 1 ∧ ∀ e, e < 8 → ∀ k ∈ [AccKind.load, .store],
        base.toNat + elemOf (readV s 2) 4 e * 4 < 2 ^ 64 ∧ checkAccess s (asMe s) (base + BitVec.ofNat 64 (elemOf (readV s 2) 4 e * 4)) 4 4 k = .ok (tcmPlace 0 0x2000) ∧
          accessReady s (tcmPlace 0 0x2000) 4 (decide (k = .store)) = .ok ())) := by
  refine ⟨?_, by decide +kernel⟩
  unfold VectorReady Issuable; decide +kernel

/-- A view of eight elements in a format, its descriptor at 0x4000; codes at 0x2000, scales at 0x2100. -/
def tView (fmt : Nat) : State :=
  { tR 0x2000 0x2100 0 0 (tC (fun x => { x with sv := x.sv.set 0 0x4000#64 }) tS) with
    mem := memPut (memPut (memPut (memPut [] 0x4008 8 (0x1100 + fmt)) 0x4010 4 8) 0x4038 4 8) 0x4050 8 1 }
def tDescr (fmt : BitVec 4) : ViewDesc :=
  { seed := 0, fmt := fmt, zp := false, skip := 0, cshape := [8], origin := [0], vext := [8], vstride := [1] }

/-- `VLDQ` and `VSTQ` in both formats, all elements active. -/
theorem wit_VectorMemoryWordsComplete_view :
    ∀ x ∈ [(12#4, Instr.vldq 1 1 0 0 12), (12#4, .vstq 1 1 0 0 12), (13#4, .vldq 1 1 0 0 13), (13#4, .vstq 1 1 0 0 13)],
      (let f := x.1
       let i := x.2
       let s := tView f.toNat
       let q4 := decide (f = 12#4)
       let k : AccKind := if i = .vldq 1 1 0 0 f then .load else .store
       ((((me s).live = true ∧ drainPoint i s = .ok () ∧ wellFormed i = true) ∧ vqBusy s = false ∧ ringFree (me s) = true ∧
         lateOf (me s) .vector = none ∧ (myCore s).vhold = false) ∧ s.doubts = [] ∧ (myRegion s).log = [] ∧ (myRegion s).classes = [] ∧
         (myCore s).regAcc = [] ∧ Memory.wf s.mem = true) ∧
       (checkAccess s (asMe s) (BitVec.ofNat 64 (descAddr (myCore s).sv[0])) 128 128 .load = .ok (tcmPlace 0 0x4000) ∧
         accessReady s (tcmPlace 0 0x4000) 128 false = .ok () ∧ parseView (readBytes s.mem 0x4000 128) f = some (tDescr f)) ∧
       (fieldOf (readS s 1) 63 60 ≤ 1 ∧ fieldOf (readS s 2) 63 60 ≤ 1 ∧ (readS s 1).toNat % 32 = 0 ∧ (readS s 3).toNat = 0) ∧
       ∀ e, e < 8 →
         (let n := if q4 then 4 else 1
          let o := if q4 then 0x2000 else 0x2000 + e
          viewIndex (tDescr f) (0 + e) = some e ∧
            checkAccess s (asMe s) (readS s 2 + BitVec.ofNat 64 ((0 + 0 + e) / 32)) 1 1 .load = .ok (tcmPlace 0 0x2100) ∧
            accessReady s (tcmPlace 0 0x2100) 1 false = .ok () ∧
            checkAccess s (asMe s) (readS s 1 + BitVec.ofNat 64 (if q4 then 4 * ((0 + 0 + e) / 8) else 0 + 0 + e)) n n k = .ok (tcmPlace 0 o) ∧
            accessReady s (tcmPlace 0 o) n (decide (k = .store)) = .ok ())) := by decide +kernel

/-- `HSIFT` of an empty heap of one place. -/
def tHeap : State := { tR 0x2000 0 0 0 tS with mem := [(0x2000, 1#8)] }

theorem wit_VectorMemoryWordsComplete_heap :
    VectorReady (.hsift 1 1 0 2) tHeap ∧
      (let h := readS tHeap 1
       fieldOf h 63 60 = 0 ∧ h.toNat % 8 = 0 ∧ fieldOf h 17 0 + 72 ≤ 2 ^ 18 ∧
         checkAccess tHeap (asMe tHeap) h 72 8 .store = .ok (tcmPlace 0 0x2000) ∧ accessReady tHeap (tcmPlace 0 0x2000) 72 true = .ok () ∧
         memNat tHeap.mem 0x2000 1 = 1 ∧ memNat tHeap.mem 0x2001 1 ≤ 1 ∧ memNat tHeap.mem 0x2002 6 = 0 ∧ (myRegion tHeap).log = [] ∧
         (myRegion tHeap).classes = [] ∧ tHeap.doubts = [] ∧ Memory.wf tHeap.mem = true) := by
  refine ⟨?_, by decide +kernel⟩
  unfold VectorReady Issuable; decide +kernel
/-! ### Witnesses: engine commands, core registers, transactions -/

theorem wit_EngineCommandsAreQueued :
    (Issuable (.mma 1 2 3) tS ∧ (queuedForm (.mma 1 2 3) (readS tS)).isSome ∧ vqBusy tS = false ∧ atomsPending tS = false ∧
        ringFree (me tS) = true ∧ lateOf (me tS) .matrix = none ∧ (queueOf (myCore tS) .matrix).length < 2 ∧ (myCore tS).regAcc = []) ∧
      (let t := tG (fun r => { r with phase := .t }) tS
       ringExchange (.mring 1) ∧ Issuable (.mring 1) t ∧ (queuedForm (.mring 1) (readS t)).isSome ∧ (myRegion t).phase = .t) ∧
      (let x := tC (fun x => { x with ceState := 0x8000000000000000#64 }) tS
       (me x).live = true ∧ (myCore x).regAcc = [] ∧ (myCore x).ceState.getLsbD 63 = true ∧
         copyOf (fieldOf (myCore x).ceState 39 36) (fieldOf (myCore x).ceState 35 31) = some (.cpy 0 0 0 0 0) ∧ vqBusy x = false ∧
         atomsPending x = false ∧ ringFree (me x) = true ∧ lateOf (me x) .copy = none ∧ (myCore x).cq.length < 2) ∧
      (myCore tS).ceState.getLsbD 63 = false := by
  refine ⟨by unfold Issuable; decide +kernel, ⟨.inl ⟨1, rfl⟩, by unfold Issuable; decide +kernel⟩, by decide +kernel, by decide +kernel⟩

/-- A queued command of strand 0 of core 0. -/
def tCmd (i : Instr) (a b : Word) (waiting : Bool) : Cmd :=
  { strand := 0, seq := 0, instr := i, a := a, b := b, c := 0, eb := Vector.replicate 16 0, sv := Vector.replicate 8 0, guard := (0x1000, 0x3FF00), tphase := false,
    order := { phase := 0, agent := 0, run := 0, place := 0, sub := 0 }, start := noStart, resumed := false, index := none, read := none, parked := .ready,
    waiting := waiting, stamp := 0, ended := none, started := false, outputs := [], clock := [], threads := [] }

/-- Code of two words at 0x1000 that specialisation left, and that it did not. -/
def tCode (spec : Bool) : LoadedCode :=
  { routine := 0, specialised := spec, loadAddr := 0x1000, words := [0, 0], backMap := [0x00100002#32, 0x00200003#32], entries := [] }

theorem wit_CoreRegisterWordsComplete :
    (me tS).live = true ∧ wellFormed (.mskset 1 2 3) = true ∧ (myCore tS).regAcc = [] ∧ (myRegion tS).phase ≠ .t ∧
      tS.ctx.core % 16 = 4 * (myCore tS).mx.link.ky.toNat + (myCore tS).mx.link.kx.toNat ∧
      (let x := tC (fun x => { x with mx := { x.mx with link := { Scale.zero with kx := 1 } } }) tS
       ¬x.ctx.core % 16 = 4 * (myCore x).mx.link.ky.toNat + (myCore x).mx.link.kx.toNat) ∧
      ((me (ringBusy 0 tS)).trap.status.getLsbD 0 = false ∧ inFlightOf (me (ringBusy 0 tS)) none = true) ∧
      drainPoint .mwait tS = .ok () ∧ (myCore tS).mq = [] ∧
      (let x := tC (fun x => { x with mq := [tCmd (.mzero 0) 0 0 false] }) tS
       drainPoint .mwait x = .ok () ∧ (tCmd (.mzero 0) 0 0 false) ∈ (myCore x).mq) ∧
      (23#5).toNat < 24 ∧ (5#3).toNat ≤ 5 ∧ 2 ^ 18 ≤ (readS (tR 0x40000 0 0 0 tS) 1).toNat ∧ (myRegion tS).code = [] ∧
      (∀ b ∈ [true, false],
        (let x := tG (fun r => { r with code := [tCode b] }) (tR 0x1004 0 0 0 tS)
         (readS x 1).toNat < 2 ^ 18 ∧ (myRegion x).code = [tCode b] ∧ (myCore x).routine = (tCode b).routine ∧ (tCode b).loadAddr ≤ 0x1004 ∧
           0x1004 < (tCode b).loadAddr + 4 * (tCode b).words.length ∧ (tCode b).specialised = b ∧
           (tCode b).backMap[(0x1004 - (tCode b).loadAddr) / 4]? = some 0x00200003#32)) := by decide +kernel

/-- A region with one body, one die SRAM tile space of a 4 KiB tile at 0, and a landing area at 0x10000; a descriptor at 0x2000. -/
def tDie : Tile := { die := true, home := 0, addr := 0, size := 4096 }
def tReq (excl : Bool) : LockReq := { tile := tDie, va := 0x2000000000000000, excl := excl, offset := 0, status := .pushed, parked := none, manager := (true, 0, 0), thread := none }
def tDesc : Desc := { body := 0, args := List.replicate 8 0, rtiles := [], wtiles := [0x2000000000000000], chks := [] }
def tTxn (excl : Bool) (st : TxnStatus) : Txn :=
  { num := 0, pkg := 0, core := 0, host := false, desc := tDesc, reqs := [tReq excl], status := st, k := 0, permit := 0, permits := 1,
    holds := true, failed := 0, homed := 0, clock := [] }
def tImage : Image :=
  { Image.empty with
    bodies := [{ routine := 0, bentry := 0, prologue := none }], tiles := [{ base := 0x2000000000000000, len := 4096, log := 12 }] }
def tTxR (r : Region) : Region :=
  { r with rcb := { r.rcb with dsLen := 65536, txBudget := 16 }, launch := some { placedLaunch with image := tImage } }
def tTx : State :=
  { tC (fun x => { x with landBase := 0x10000, landInForce := 0x10000 }) (tG tTxR (tR 0x2000 0x2000000000000000 0 0 tS)) with mem := memPut [] 0x2003 1 2 }
/-- A strand that runs the body of transaction 0. -/
def tBody (restart excl : Bool) : State :=
  tG (fun r => { r with phase := .t, txns := [tTxn excl .running] })
    (modMe tTx fun t => { t with body := some { num := 0, restart := restart, issued := 0 } })

/-- A descriptor with no tile. -/
def tBare (s : State) : State := { s with mem := [] }

theorem wit_TransactionWordsComplete_submit :
    (me tTx).live = true ∧ vqBusy tTx = false ∧ (myRegion tTx).phase = .c ∧ (me tTx).body = none ∧ (∃ x, readDesc (tBare tTx) (readS tTx 1) = .ok x) ∧
      (myCore tTx).subs.length < txAllowance (myRegion tTx).rcb (myCore tTx) ∧
      (let y := tG (fun r => { r with rcb := { r.rcb with txBudget := 15 } }) (tBare tTx)
       (∃ x, readDesc y (readS y 1) = .ok x) ∧ txAllowance (myRegion y).rcb (myCore y) ≤ (myCore y).subs.length) :=
  ⟨by decide +kernel, by decide +kernel, by decide +kernel, by decide +kernel, isOk_elim (by decide +kernel), by decide +kernel,
    isOk_elim (by decide +kernel), by decide +kernel⟩

theorem wit_TransactionWordsComplete_peek :
    (let y := tR 0x2000000000000FF8 0 0 0 tTx
     (readS y 1).toNat % 8 = 0 ∧ namedTile y 0 (readS y 1) = some tDie ∧ (me y).body = none ∧
     ∃ p, checkAccess y { asMe y with peek := true } (readS y 1) 8 8 .load = .ok p ∧ p.mode ≠ .ex ∧ p.readOnly = false) ∧
    (let y := tR 0x2000000000000FF8 0 0 0 (tBody false true)
     namedTile y 0 (readS y 1) = some tDie ∧ (me y).body.isSome ∧ heldOffset y tDie = some (tTxn true .running, 0) ∧
       interlocked y 0 (blockOffset (myCore y) (tTxn true .running) + 0 + (fieldOf (readS y 1) 25 0 - tDie.addr)) 8 false = false ∧
       blockOffset (myCore y) (tTxn true .running) + 0 + (fieldOf (readS y 1) 25 0 - tDie.addr) + 8 ≤ 2 ^ 18) := by
  refine ⟨⟨by decide +kernel, by decide +kernel, by decide +kernel,
    { key := dieKey 0 0xFF8, mode := .untranslated, readOnly := false, leaf := none, va := 0x2000000000000FF8 }, by decide +kernel⟩, by decide +kernel⟩

/-- With one write tile counted, and with all eight; a check of the dword 511 of the first write tile. -/
theorem wit_TransactionWordsComplete_build :
    (∃ p, descPlace tTx (readS tTx 1) .store = .ok p ∧ accessReady tTx p 328 true = .ok () ∧ memNat tTx.mem p.key 8 / 2 ^ 25 % 2 ^ 4 < 8 ∧
        memNat tTx.mem p.key 8 / 2 ^ 20 % 2 ^ 5 < 16) ∧
      ((myRegion tTx).log = [] ∧ tTx.doubts = [] ∧ (myRegion tTx).classes = [] ∧ Memory.wf tTx.mem = true) ∧
      8 ≤ memNat ({ tTx with mem := memPut [] 0x2003 1 0x10 } : State).mem 0x2000 8 / 2 ^ 25 % 2 ^ 4 ∧
      (let y := { tR 0x2000 0 0x01FF0010 0 tTx with mem := memPut (memPut [] 0x2003 1 2) 0x20C8 8 0x2000000000000000 }
       let h := BitVec.ofNat 64 (memNat y.mem 0x2000 8)
       let sel := readS y 3
       fieldOf sel 15 5 = 0 ∧ fieldOf sel 63 29 = 0 ∧ setOffset h (fieldOf sel 4 0) = some 0xC8 ∧ h.toNat / 2 ^ 29 % 2 ^ 3 < 4 ∧
         namedTile y 0 (BitVec.ofNat 64 (memNat y.mem (0x2000 + 0xC8) 8)) = some tDie ∧ 8 * fieldOf sel 28 16 < tDie.size ∧
         (∃ p, descPlace y (readS y 1) .store = .ok p ∧ accessReady y p 328 true = .ok () ∧
           ∃ x, peekTile (loadAt (loadHdr y p).2 (whoMe y) (descAt p 0xC8) 8).2
             (BitVec.ofNat 64 (memNat y.mem (0x2000 + 0xC8) 8) + BitVec.ofNat 64 (8 * fieldOf sel 28 16)) = .ok x)) := by
  refine ⟨⟨tcmPlace 0 0x2000, by decide +kernel⟩, by decide +kernel, by decide +kernel, by decide +kernel, by decide +kernel, by decide +kernel,
    by decide +kernel, by decide +kernel, by decide +kernel, tcmPlace 0 0x2000, by decide +kernel, by decide +kernel, isOk_elim (by decide +kernel)⟩

def homeWritten (h : HomeResult) : Bool :=
  match h with
  | .written _ => true
  | _ => false

theorem homeWritten_elim {h : HomeResult} (w : homeWritten h = true) : ∃ s, h = .written s := by cases h <;> simp_all [homeWritten]

theorem wit_TransactionWordsComplete_end :
    (∀ e ∈ [true, false],
      (me (tBody false e)).live = true ∧ vqBusy (tBody false e) = false ∧ (me (tBody false e)).body = some { num := 0, restart := false, issued := 0 } ∧
        bodyTxn (tBody false e) 0 0 = some (tTxn e .running) ∧ ringSettled (me (tBody false e)) = true ∧ atomsPending (tBody false e) = false ∧ (tTxn e .running).homed = 0 ∧
        drainPoint .txend (tBody false e) = .ok () ∧ drainPoint (.txrst 1) (tBody false e) = .ok () ∧
        homeWritten (writeHome 0 (blockOffset (myCore (tBody false e)) (tTxn e .running)) (tBody false e) (tTxn e .running).homed ((tTxn e .running).reqs.drop (tTxn e .running).homed)) = true) ∧
      (me (tBody true true)).body = some { num := 0, restart := true, issued := 0 } ∧
      isOk (readDesc (tBare (tBody false true)) (readS (tBody false true) 1)) = true ∧
      (getRegion? (tBody false true) 0).isSome ∧ (findTxn (myRegion (tBody false true)) 0).isSome := by decide +kernel

theorem wit_AccumulatorsAdd :
    (let s := tC (fun x => { x with mq := [tCmd (.maccadd 1 0 2) 0 0 false] }) tS
     (getCore s 0).mq = tCmd (.maccadd 1 0 2) 0 0 false :: [] ∧ (getCore s 0).regConf = [] ∧ enginesRun s 0 = true ∧
       keepsViews s 0 (tCmd (.maccadd 1 0 2) 0 0 false) (matrixFoot (getCore s 0).mx (tCmd (.maccadd 1 0 2) 0 0 false)).writes = true) := by decide +kernel

/-! ### Witnesses: engine steps -/

/-- `VADD v1, v2, v3` in INT8, unmasked and masked. -/
theorem wit_EngineStepsRun_lanes :
    ∀ m ∈ [0#3, 1#3],
      (let d : VDispatch := { strand := 0, seq := 0, instr := .vadd 1 2 3 m 0, scalars := Vector.replicate 32 0, sv := Vector.replicate 8 0, guard := (0x1000, 0x3FF00) }
       (getCore (modCore tS 0 fun x => { x with vq := [d] }) 0).vq = d :: [] ∧ wellFormed d.instr = true ∧
         (laneResult d.instr).map (fun r => (r.1, r.2.1, r.2.2.1, r.2.2.2.1, r.2.2.2.2.1)) = some (1, 2, 3, m, 0)) := by decide +kernel

theorem wit_EngineStepsRun_vector :
    (let d : VDispatch := { strand := 0, seq := 0, instr := .vadd 1 2 3 0 0, scalars := Vector.replicate 32 0, sv := Vector.replicate 8 0, guard := (0x1000, 0x3FF00) }
     let s := tC (fun x => { x with vq := [d] }) tS
     (getCore s 0).vq = d :: [] ∧ ∃ s1, vecEffect d.instr d.sv (vecCtx s 0 d) = .ok s1) := ⟨by decide +kernel, isOk_elim (by decide +kernel)⟩

def tMq (c : Cmd) : State := tC (fun x => { x with mq := [c] }) tS

theorem wit_EngineStepsRun_matrix :
    (∀ i ∈ [.mzero 3, .mcfg 3 1 2 13 0, .mldacc 0 1, .mring 1],
      (let c := tCmd i 0x2000 0 false
       (getCore (tMq c) 0).mq = c :: [] ∧ (getCore (tMq c) 0).regConf = [] ∧ enginesRun (tMq c) 0 = true ∧
         keepsViews (tMq c) 0 c (matrixFoot (getCore (tMq c) 0).mx c).writes = true)) ∧
      (∃ s1, runMatrix 0 (tCmd (.mldacc 0 1) 0x2000 0 false) (tMq (tCmd (.mldacc 0 1) 0x2000 0 false)) = .ok s1 ∧ (getCore s1 0).regConf = []) ∧
      (∃ s f a t, runMatrix 0 (tCmd (.mldacc 0 1) 0x40000 0 false) (tMq (tCmd (.mldacc 0 1) 0x40000 0 false)) = .error (.late s f a, t)) ∧
      unmatched (tMq (tCmd (.mring 1) 0 0 false)) 0 = false := by
  refine ⟨by decide +kernel, ?_, ?_, by decide +kernel⟩
  · exact okIs_elim (f := fun s1 => (getCore s1 0).regConf = []) (by decide +kernel)
  · exact late_elim (by decide +kernel)

/-- `MMA` at the head of the queue under a format code. -/
def tFmt (f : Nat) : State := tC (fun x => { x with mq := [tCmd (.mma 1 2 3) 0x2000 64 false], mx := { x.mx with fmtA := BitVec.ofNat 64 f } }) tS

/-- A format code with no class, and one of another class than the latch's. -/
theorem wit_EngineStepsRun_class :
    ∀ f ∈ [(8 : Nat), 9],
      (getCore (tFmt f) 0).mq = [tCmd (.mma 1 2 3) 0x2000 64 false] ∧ (getCore (tFmt f) 0).regConf = [] ∧ enginesRun (tFmt f) 0 = true ∧
        keepsViews (tFmt f) 0 (tCmd (.mma 1 2 3) 0x2000 64 false) (matrixFoot (getCore (tFmt f) 0).mx (tCmd (.mma 1 2 3) 0x2000 64 false)).writes = true ∧
        (classOf (fieldOf (getCore (tFmt f) 0).mx.fmtA 3 0) = .none ∨ classOf (fieldOf (getCore (tFmt f) 0).mx.fmtA 3 0) ≠ (getCore (tFmt f) 0).mx.cls) := by
  decide +kernel

/-- All sixteen cores of cluster 0 wait in an exchange, with a matrix unit each. -/
def tRing (i : Nat → Instr) (mx : Nat → Matrix) : State :=
  (List.range 16).foldl (fun s c => modCore s c fun x => { x with region := some 0, mq := [tCmd (i c) 0 0 true], mx := mx c }) tS

/-- In every position the premises of a round. -/
def ringMeets (s : State) (i : Nat → Instr) : Prop :=
  (∀ p, p < 16 → (getCore s (0 * 16 + p)).regConf = [] ∧ enginesRun s (0 * 16 + p) = true ∧ (getCore s (0 * 16 + p)).mq = [tCmd (i p) 0 0 true]) ∧
    ∀ p, p < 16 → (tCmd (i p) 0 0 true).waiting = true

theorem wit_EngineStepsRun_round :
    ∀ k ∈ [0#2, 1#2, 2#2],
      k ≠ 3#2 ∧ ringExchange (.mring k) ∧ ringMeets (tRing (fun _ => .mring k) fun _ => Machine.Matrix.zero) (fun _ => .mring k) := by
  have h : ∀ k ∈ [0#2, 1#2, 2#2], k ≠ 3#2 ∧ ringMeets (tRing (fun _ => .mring k) fun _ => Machine.Matrix.zero) (fun _ => .mring k) := by
    unfold ringMeets; decide +kernel
  exact fun k hk => ⟨(h k hk).1, .inl ⟨k, rfl⟩, (h k hk).2⟩

/-- The latches of a class, of the length it has; core 1's of another class. -/
def tLatch (cls other : MClass) (n : Nat) (p : Nat) : Matrix :=
  { Machine.Matrix.zero with cls := if p = 1 then other else cls, latch := List.replicate n (.zero false) }

theorem wit_EngineStepsRun_swap :
    (∀ x ∈ [(MClass.none, 0), (.h, 32), (.e, 64), (.i, 64), (.q, 128)],
      (tLatch x.1 x.1 (16 * x.2) 1).cls = (tLatch x.1 x.1 (16 * x.2) 4).cls ∧ (tLatch x.1 x.1 (16 * x.2) 4).latch.length = 16 * x.2) ∧
      ringMeets (tRing (fun _ => .mswap 5) (tLatch .h .h 512)) (fun _ => .mswap 5) ∧ ringExchange (.mswap 5) ∧
      ringMeets (tRing (fun _ => .mswap 5) (tLatch .h .e 512)) (fun _ => .mswap 5) ∧
      (getCore (tRing (fun _ => .mswap 5) (tLatch .h .e 512)) 1).mx.cls ≠ (getCore (tRing (fun _ => .mswap 5) (tLatch .h .e 512)) 4).mx.cls := by
  refine ⟨by decide +kernel, by unfold ringMeets; decide +kernel, .inr ⟨5, rfl⟩, by unfold ringMeets; decide +kernel, by decide +kernel⟩

/-- The cores send different exchanges. -/
theorem wit_EngineStepsRun_differ :
    (let i (p : Nat) : Instr := if p = 3 then .mring 1 else .mring 2
     ringMeets (tRing i fun _ => Machine.Matrix.zero) i ∧ i 3 ≠ i 4 ∧ ∀ p, ringExchange (i p)) := by
  refine ⟨by unfold ringMeets; decide +kernel, by decide, fun p => ?_⟩
  by_cases h : p = 3
  · exact .inl ⟨1, by simp [h]⟩
  · exact .inl ⟨2, by simp [h]⟩

def tCq (c : Cmd) : State := tC (fun x => { x with cq := [c] }) tS

def startLate (r : Cpy (List (List Byte) × State)) (f : State × Option (CopyStop × Option Nat) → Bool) (c : Cmd) : Bool :=
  match r with
  | .ok (l, s1) => f (runCopy 0 c l s1)
  | .error _ => false

theorem startLate_elim {r : Cpy (List (List Byte) × State)} {f : State × Option (CopyStop × Option Nat) → Bool} {c : Cmd}
    (h : startLate r f c = true) : ∃ l s1, r = .ok (l, s1) ∧ f (runCopy 0 c l s1) = true := by
  rcases r with _ | ⟨l, s1⟩ <;> simp_all [startLate]

def copyLate (s : State) (r : State × Option (CopyStop × Option Nat)) : Bool :=
  match r.2 with
  | some ((_, .late _ _ _), _) => ((getCore r.1 0).regAcc.all fun r => r.2.1 = 0) && decide ((getCore r.1 0).unacked = (getCore s 0).unacked)
  | _ => false

theorem copyLate_elim {s : State} {r : State × Option (CopyStop × Option Nat)} (h : copyLate s r = true) :
    ∃ s2 v sub f a ix, r = (s2, some ((v, .late sub f a), ix)) ∧ (getCore s2 0).unacked = (getCore s 0).unacked ∧
      ∀ q ∈ (getCore s2 0).regAcc, q.2.1 = 0 := by
  obtain ⟨s2, _ | ⟨⟨v, e⟩, ix⟩⟩ := r
  · simp [copyLate] at h
  · cases e <;> simp_all [copyLate]
    exact h.1

/-- A `CPY` of one element to a misaligned destination; one whose source lies outside TCM. -/
theorem wit_EngineStepsRun_copy :
    (let c := tCmd (.cpy 1 2 3 0 2) 0x2001 0x3000 false
     (getCore (tCq c) 0).cq = c :: [] ∧ copyMayRun (tCq c) 0 c = true ∧ c.ended = none ∧ fieldOf c.a 63 60 ≠ 7 ∧ c.read = none ∧
       copyFn c.instr < 5 ∧ completionOk (tCq c) 0 c.guard c.c = true ∧ copyFn c.instr ≠ 6 ∧ c.a.toNat % (copyShape c.instr c.eb).1 ≠ 0 ∧
       (getCore (tCq c) 0).regAcc = []) ∧
    (let c := { tCmd (.cpy 1 2 3 0 2) 0x2000 0x40000 false with eb := Vector.replicate 16 1 }
     (getCore (tCq c) 0).cq = c :: [] ∧ copyMayRun (tCq c) 0 c = true ∧ c.ended = none ∧ fieldOf c.a 63 60 ≠ 7 ∧ c.read = none ∧
       ∃ l s1, startCopy 0 c (tCq c) = .ok (l, s1) ∧ copyLate (tCq c) (runCopy 0 c l s1) = true) := by
  refine ⟨by decide +kernel, by decide +kernel, by decide +kernel, by decide +kernel, by decide +kernel, by decide +kernel, startLate_elim ?_⟩
  decide +kernel

/-- `SAMPLEF` of one record with no legal token. -/
def tSq : State :=
  { tC (fun x => { x with sq := [tCmd (.samplef 1 2) 0x2000 0 false] }) tS with
    mem := memPut (memPut (memPut (memPut (memPut [] 0x2000 8 0x2100) 0x2008 8 1) 0x2010 8 (536 * 2 ^ 32 + 1)) 0x2018 8 1) 0x2110 8 0x100 }

theorem wit_EngineStepsRun_atomics :
    (let a : AtomReq := { core := 0, strand := 0, count := 0, op := 7, wide := false, key := 0x2000, va := 0x2000, operand := 0xFFFFFFFF }
     let s := tG (fun r => { r with atoms := [a] }) tS
     (allAtoms s)[0]? = some (0, a) ∧ (getRegion? s 0).isSome ∧ mayArrive a (getRegion s 0).atoms = true ∧ Memory.wf s.mem = true ∧
       a.operand.toNat < 2 ^ (8 * 4) ∧ (a.core, a.count) ∉ (getPackage s (homePkg a)).applied ∧
       (let t := modPackage s 0 fun p => { p with applied := [(0, 0)] }
        (a.core, a.count) ∈ (getPackage t (homePkg a)).applied)) := by decide +kernel
/-! ### Witnesses: what queued commands compute -/

/-- The check finds a place of which a test holds. -/
def placeIs (e : Except AccErr Place) (f : Place → Bool) : Bool :=
  match e with
  | .ok p => f p
  | .error _ => false

theorem placeIs_elim {e : Except AccErr Place} {f : Place → Bool} (h : placeIs e f = true) : ∃ p, e = .ok p ∧ f p = true := by
  cases e <;> simp_all [placeIs]

/-- The command reads the value at the address. -/
def readsB (s : State) (c : Cmd) (va : Word) (w v : Nat) : Bool :=
  placeIs (cmdCheck s 0 c va w w false) fun p =>
    decide (p.mode ≠ .ex) && (p.leaf.all fun k => memRead s.mem k &&& 0x04#8 = 0x04#8) &&
      ((List.range w).all fun j => classAt (regionOf s 0) (p.key + j) ≠ 2) &&
      decide (memNat (if p.readOnly then (regionOf s 0).memPhase else s.mem) p.key w = v)

theorem readsB_elim {s : State} {c : Cmd} {va : Word} {w v : Nat} (h : readsB s c va w v = true) : CmdReads s 0 c va w v := by
  obtain ⟨p, hp, hf⟩ := placeIs_elim h
  simp only [Bool.and_eq_true, decide_eq_true_eq, List.all_eq_true, List.mem_range] at hf
  obtain ⟨⟨⟨h1, h2⟩, h3⟩, h4⟩ := hf
  refine ⟨p, hp, h1, fun k hk => ?_, fun j hj => ?_, h4⟩
  · rw [hk] at h2; simpa using h2
  · simpa using h3 j hj

/-- The command reaches the place, with no translation and no guard. -/
def reachB (s : State) (c : Cmd) (va : Word) (n al : Nat) (write : Bool) (p : Place) : Bool :=
  decide (fieldOf va 63 60 ≤ 2) && decide (cmdCheck s 0 c va n al write = .ok p) &&
    (List.range n).all fun j => classAt (regionOf s 0) (p.key + j) ≠ 2

theorem reachB_elim {s : State} {c : Cmd} {va : Word} {n al : Nat} {write : Bool} {p : Place} (h : reachB s c va n al write p = true) :
    CmdReaches s 0 c va n al write p := by
  simp only [reachB, Bool.and_eq_true, decide_eq_true_eq, List.all_eq_true, List.mem_range] at h
  exact ⟨h.1.1, h.1.2, fun j hj => by simpa using h.2 j hj⟩

/-- The command writes `n` bytes in pieces of `w` in TCM. -/
def writesB (s : State) (c : Cmd) (va : Word) (n w key : Nat) : Bool :=
  decide (0 < w) && (List.range n).all fun j =>
    decide (n ≤ j * w) || reachB s c (va + BitVec.ofNat 64 (j * w)) w w true (tcmPlace 0 (key + j * w))

theorem writesB_elim {s : State} {c : Cmd} {va : Word} {n w key : Nat} (h : writesB s c va n w key = true) : CmdWrites s 0 c va n w key := by
  simp only [writesB, Bool.and_eq_true, Bool.or_eq_true, decide_eq_true_eq, List.all_eq_true, List.mem_range] at h
  intro j hj
  have hn : j < n := Nat.lt_of_le_of_lt (Nat.le_mul_of_pos_right j h.1) hj
  rcases h.2 j hn with g | g
  · omega
  · exact ⟨_, reachB_elim g, by simp [tcmPlace, tcmKey]⟩

/-- The check of an address of TCM does not look at memory. -/
theorem check_tcm (s : State) (m : Memory) (c : Cmd) (va : Word) (n al : Nat) (write : Bool) (h : fieldOf va 63 60 = 0) :
    cmdCheck { s with mem := m } 0 c va n al write = cmdCheck s 0 c va n al write := by
  unfold cmdCheck checkAccess
  simp only [h]
  rfl

/-- The command finds a place of TCM. -/
def tcmB (s : State) (c : Cmd) (va : Word) (n al : Nat) (write : Bool) (p : Place) : Bool :=
  decide (fieldOf va 63 60 = 0) && decide (cmdCheck s 0 c va n al write = .ok p) && decide (p.mode ≠ .ex) && decide (p.leaf = none) &&
    decide (p.readOnly = false) && decide (spaceOf p.key ≠ 5) && (List.range n).all fun j => classAt (regionOf s 0) (p.key + j) ≠ 2

theorem tcmB_elim {s : State} {c : Cmd} {va : Word} {n al : Nat} {write : Bool} {p : Place} (W : Nat → Prop)
    (h : tcmB s c va n al write p = true) : CmdFinds s 0 c W va n al write p ∧ spaceOf p.key ≠ 5 ∧ p.readOnly = false := by
  simp only [tcmB, Bool.and_eq_true, decide_eq_true_eq, List.all_eq_true, List.mem_range] at h
  obtain ⟨⟨⟨⟨⟨⟨h1, h2⟩, h3⟩, h4⟩, h5⟩, h6⟩, h7⟩ := h
  refine ⟨⟨fun j hj => by simpa using h7 j hj, h3, fun k hk => by simp [h4] at hk, fun m _ => ?_⟩, h6, h5⟩
  rw [check_tcm s m c va n al write h1]
  exact h2

/-- A stored tile in TCM, its descriptor at 0x4000 (R252, R254). -/
def tileB (s : State) (c : Cmd) (fmt rows len al : Nat) (packed : Bool) (scaleBase sv : Word) (row scale : Nat → Place) (D : ViewDesc) (ix : Nat → Nat) : Bool :=
  if fmt = 0xC ∨ fmt = 0xD then
    (reachB s c (BitVec.ofNat 64 (descAddr sv)) 128 128 false (tcmPlace 0 0x4000) &&
        decide (parseView (readBytes s.mem (tcmPlace 0 0x4000).key 128) (BitVec.ofNat 4 fmt) = some D)) &&
      (decide (D.skip = 0) && decide (rows * len ≤ viewSize D) && ((List.range (rows * len)).all fun p => decide (viewIndex D p = some (ix p))) &&
        decide (c.a.toNat % 64 = 0)) &&
      ((List.range 16).all fun r => decide (fieldOf (c.a + BitVec.ofNat 64 (64 * r)) 63 60 ≤ 1) && reachB s c (c.a + BitVec.ofNat 64 (64 * r)) 64 1 false (row r)) &&
      (List.range (rows * len / 32)).all fun i => decide (fieldOf (scaleBase + c.b + BitVec.ofNat 64 i) 63 60 ≤ 1) &&
        reachB s c (scaleBase + c.b + BitVec.ofNat 64 i) 1 1 false (scale i)
  else
    (List.range rows).all fun r =>
      let va := c.a + BitVec.ofNat 64 r * (if packed then BitVec.ofNat 64 (len * fmtBytes fmt) else c.b)
      decide (fieldOf va 63 60 ≤ 1 ∧ va.toNat % (if r = 0 then 64 else al) = 0) && reachB s c va (len * fmtBytes fmt) 1 false (row r)

theorem tileB_elim {s : State} {c : Cmd} {fmt rows len al : Nat} {packed : Bool} {scaleBase sv : Word} {row scale : Nat → Place} {D : ViewDesc}
    {ix : Nat → Nat} (h : tileB s c fmt rows len al packed scaleBase sv row scale D ix = true) :
    TileReached s 0 c fmt rows len al packed scaleBase sv row scale D ix := by
  unfold tileB at h
  unfold TileReached
  split at h
  · rename_i hf
    rw [if_pos hf]
    simp only [Bool.and_eq_true, decide_eq_true_eq, List.all_eq_true, List.mem_range] at h
    obtain ⟨⟨⟨⟨h1, h2⟩, ⟨⟨⟨h3, h4⟩, h5⟩, h6⟩⟩, h7⟩, h8⟩ := h
    exact ⟨⟨_, reachB_elim h1, h2⟩, h3, h4, h5, h6, fun r hr => ⟨(h7 r hr).1, reachB_elim (h7 r hr).2⟩, fun i hi => ⟨(h8 i hi).1, reachB_elim (h8 i hi).2⟩⟩
  · rename_i hf
    rw [if_neg hf]
    simp only [Bool.and_eq_true, decide_eq_true_eq, List.all_eq_true, List.mem_range] at h
    exact fun r hr => ⟨(h r hr).1.1, (h r hr).1.2, reachB_elim (h r hr).2⟩

/-- A matrix command at the head of its queue, under a format, with a latch of its class and a view of 2,048 elements at 0x4000. -/
def tTile (i : Instr) (b : Word) : Cmd := { tCmd i 0x8000 b false with sv := Vector.replicate 8 0x4000#64 }
def tTileS (c : Cmd) (f : Nat) : State :=
  { tC (fun x => { x with mq := [c], mx := { x.mx with
        fmtA := BitVec.ofNat 64 f, fmtB := BitVec.ofNat 64 f, scaleA := 0x9000, scaleB := 0x9000, cls := classOf f
        latch := List.replicate (16 * tileK f) (.zero false) } }) tS with
    mem := memPut (memPut (memPut (memPut [] 0x4008 8 (0x1100 + f)) 0x4010 4 2048) 0x4038 4 2048) 0x4050 8 1 }
def tWide (f : Nat) : ViewDesc :=
  { seed := 0, fmt := BitVec.ofNat 4 f, zp := false, skip := 0, cshape := [2048], origin := [0], vext := [2048], vstride := [1] }

/-- What every command of the statement needs. -/
theorem wit_MatrixCommandsCompute_starts :
    ∀ i ∈ [Instr.mma 1 2 3, .mmaz 1 2 3, .mldb 2 3, .mldbt 2 3, .mldacc 1 2, .mstacc 1 2, .mstaccq 1 2 3 0 0, .mstaccq 1 2 3 0 13],
      (getCore (tTileS (tTile i 256) 0xC) 0).mq = tTile i 256 :: [] ∧ (getCore (tTileS (tTile i 256) 0xC) 0).regConf = [] ∧
        enginesRun (tTileS (tTile i 256) 0xC) 0 = true ∧
        keepsViews (tTileS (tTile i 256) 0xC) 0 (tTile i 256) (matrixFoot (getCore (tTileS (tTile i 256) 0xC) 0).mx (tTile i 256)).writes = true ∧
        CmdQuiet (tTileS (tTile i 256) 0xC) 0 (tTile i 256) ∧ Memory.wf (tTileS (tTile i 256) 0xC).mem = true := by
  unfold CmdQuiet; decide +kernel

/-- Tiles of every format: plain with rows 256 bytes apart, and stippled. -/
theorem wit_MatrixCommandsCompute_tiles :
    ∀ f ∈ [0x9, 0xA, 0xB, 0x0, 0xD, 0xC],
      (let b : Word := if f = 0xC ∨ f = 0xD then 0 else 256
       let step := if f = 0xC ∨ f = 0xD then 64 else 256
       let row (r : Nat) : Place := tcmPlace 0 (0x8000 + step * r)
       let scale (i : Nat) : Place := tcmPlace 0 (0x9000 + i)
       let K := tileK f
       (∀ i ∈ [Instr.mma 1 2 3, .mmaz 1 2 3],
         (f, (getCore (tTileS (tTile i b) f) 0).mx.cls) ∈ [(0x9, MClass.h), (0xA, .e), (0xB, .e), (0xD, .e), (0x0, .i), (0xC, .q)] ∧
           fieldOf (getCore (tTileS (tTile i b) f) 0).mx.fmtA 3 0 = f ∧
           TileReached (tTileS (tTile i b) f) 0 (tTile i b) f 16 K 64 false 0x9000 0x4000 row scale (tWide f) id ∧
           (getCore (tTileS (tTile i b) f) 0).mx.latch = List.replicate (16 * K) (.zero false)) ∧
       TileReached (tTileS (tTile (.mldbt 2 3) b) f) 0 (tTile (.mldbt 2 3) b) f 16 K 64 false 0x9000 0x4000 row scale (tWide f) id ∧
       TileReached (tTileS (tTile (.mldb 2 3) b) f) 0 (tTile (.mldb 2 3) b) f K 16 16 false 0x9000 0x4000 row scale (tWide f) id) := by
  have key : ∀ f ∈ [0x9, 0xA, 0xB, 0x0, 0xD, 0xC],
      (let b : Word := if f = 0xC ∨ f = 0xD then 0 else 256
       let step := if f = 0xC ∨ f = 0xD then 64 else 256
       let row (r : Nat) : Place := tcmPlace 0 (0x8000 + step * r)
       let scale (i : Nat) : Place := tcmPlace 0 (0x9000 + i)
       let K := tileK f
       (∀ i ∈ [Instr.mma 1 2 3, .mmaz 1 2 3],
         (f, (getCore (tTileS (tTile i b) f) 0).mx.cls) ∈ [(0x9, MClass.h), (0xA, .e), (0xB, .e), (0xD, .e), (0x0, .i), (0xC, .q)] ∧
           fieldOf (getCore (tTileS (tTile i b) f) 0).mx.fmtA 3 0 = f ∧
           tileB (tTileS (tTile i b) f) (tTile i b) f 16 K 64 false 0x9000 0x4000 row scale (tWide f) id = true ∧
           (getCore (tTileS (tTile i b) f) 0).mx.latch = List.replicate (16 * K) (.zero false)) ∧
       tileB (tTileS (tTile (.mldbt 2 3) b) f) (tTile (.mldbt 2 3) b) f 16 K 64 false 0x9000 0x4000 row scale (tWide f) id = true ∧
       tileB (tTileS (tTile (.mldb 2 3) b) f) (tTile (.mldb 2 3) b) f K 16 16 false 0x9000 0x4000 row scale (tWide f) id = true) := by
    decide +kernel
  intro f hf
  obtain ⟨h1, h2, h3⟩ := key f hf
  exact ⟨fun i hi => ⟨(h1 i hi).1, (h1 i hi).2.1, tileB_elim (h1 i hi).2.2.1, (h1 i hi).2.2.2⟩, tileB_elim h2, tileB_elim h3⟩

theorem wit_MatrixCommandsCompute_accumulators :
    (∀ r, r < 16 → CmdReaches (tTileS (tTile (.mldacc 1 2) 0) 0xD) 0 (tTile (.mldacc 1 2) 0) (0x8000#64 + BitVec.ofNat 64 (64 * r)) 64 64 false
        (tcmPlace 0 (0x8000 + 64 * r))) ∧
      CmdWrites (tTileS (tTile (.mstacc 1 2) 0) 0xD) 0 (tTile (.mstacc 1 2) 0) 0x8000 1024 64 0x8000 ∧
      (∀ t ∈ [0x0, 0x9, 0xA, 0xB], BitVec.ofNat 4 t ∈ [0x0#4, 0x9#4, 0xA#4, 0xB#4] ∧
        CmdWrites (tTileS (tTile (.mstaccq 1 2 3 0 (BitVec.ofNat 4 t)) 0) 0xD) 0 (tTile (.mstaccq 1 2 3 0 (BitVec.ofNat 4 t)) 0) 0x8000
          (256 * typeWidth (BitVec.ofNat 4 t)) 64 0x8000) := by
  refine ⟨fun r hr => reachB_elim ?_, writesB_elim (by decide +kernel), fun t ht => ⟨?_, writesB_elim ?_⟩⟩
  · revert r; decide +kernel
  · revert t; decide +kernel
  · revert t; decide +kernel

/-- `MSTACCQ` in words of eight and byte by byte, its scale bytes at 0x9000. -/
theorem wit_MatrixCommandsCompute_quantised :
    ∀ f ∈ [0xC, 0xD],
      (let c := tTile (.mstaccq 1 2 3 0 (BitVec.ofNat 4 f)) 0x9000
       let s := tTileS c f
       CmdReaches s 0 c (BitVec.ofNat 64 (descAddr (svOf c 0))) 128 128 false (tcmPlace 0 0x4000) ∧
         parseView (readBytes s.mem 0x4000 128) (BitVec.ofNat 4 f) = some (tWide f) ∧ (tWide f).skip = 0 ∧ 256 ≤ viewSize (tWide f) ∧
         (∀ p, p < 256 → viewIndex (tWide f) p = some p) ∧
         (∀ i, i < 8 → fieldOf (c.b + BitVec.ofNat 64 i) 63 60 ≤ 1 ∧ CmdReaches s 0 c (c.b + BitVec.ofNat 64 i) 1 1 false (tcmPlace 0 (0x9000 + i))) ∧
         CmdWrites s 0 c c.a (if f = 0xC then 128 else 256) 64 0x8000) := by
  intro f hf
  refine ⟨reachB_elim ?_, ?_, rfl, ?_, ?_, fun i hi => ⟨?_, reachB_elim ?_⟩, writesB_elim ?_⟩
  · revert f; decide +kernel
  · revert f; decide +kernel
  · revert f; decide +kernel
  · revert f; decide +kernel
  · revert f i; decide +kernel
  · revert f i; decide +kernel
  · revert f; decide +kernel

/-- A copy command of two rows of two elements of 8 bytes, with strides 1 and 2; rows named at 0x6000: row 1, and none; a completion word
at 0x2000 with value 5. -/
def tMove (i : Instr) : Cmd :=
  { tCmd i 0x4000 0x5000 false with
    c := 0x500002000
    eb := Vector.ofFn fun k =>
      if k.val = 0 then 0x0000010000010002 else if k.val = 1 then 0x0000020000020002 else if k.val = 15 then 0x6000 else 1 }
def tMoveS (c : Cmd) : State := tClass 1 { tCq c with mem := memPut [] 0x6000 8 0xFFFFFFFF00000001 }
def tRow (n : Nat) : Nat := if n = 0 then 1 else 0xFFFFFFFF
def tDst (fn : Nat) (i : List Nat) : Place := tcmPlace 0 (0x4000 + 8 * (i.getD 0 0 + 2 * if fn = 3 then tRow (i.getD 1 0) else i.getD 1 0))
def tSrc (fn : Nat) (i : List Nat) : Place := tcmPlace 0 (0x5000 + 8 * (i.getD 0 0 + 2 * if fn = 2 then tRow (i.getD 1 0) else i.getD 1 0))
def tIdx (i : List Nat) : Place := tcmPlace 0 (0x6000 + 4 * i.getD 1 0)

/-- What a copy of a kind moves, as a check: each element's places. -/
def moveB (c : Cmd) : Bool :=
  let e := (copyShape c.instr c.eb).1
  let lv := (copyShape c.instr c.eb).2
  let fn := copyFn c.instr
  (vectorsOf (lv.map fun l => l.cnt)).all fun i => (copyMove c e lv tRow i).all fun m =>
    tcmB (tMoveS c) c m.1 e e true (tDst fn i) && m.2.all fun va => tcmB (tMoveS c) c va e e false (tSrc fn i)

theorem wit_CopyCommandsMove_starts :
    ∀ i ∈ [Instr.cpy 1 2 3 0 3, .cpyd 1 2 3 0, .cpyg 1 2 3 0 3, .cpys 1 2 3 0 3, .cpyf 1 2 3 0 3, .cpyho 1 2 3 0 3],
      CopyStarts (tMoveS (tMove i)) 0 (tMove i) [] ∧ (copyFn i < 5 ∨ copyFn i = 6) ∧ fieldOf (tMove i).a 63 60 ≠ 7 ∧
        (copyFn i = 6 → fieldOf (tMove i).c 31 0 ≠ 0) ∧ (tMove i).a.toNat % 8 = 0 ∧ (tMove i).b.toNat % 8 = 0 ∧
        (copyShape i (tMove i).eb).1 = 8 := by
  unfold CopyStarts CmdQuiet; decide +kernel

theorem wit_CopyCommandsMove_places :
    ∀ i ∈ [Instr.cpy 1 2 3 0 3, .cpyd 1 2 3 0, .cpyg 1 2 3 0 3, .cpys 1 2 3 0 3, .cpyf 1 2 3 0 3, .cpyho 1 2 3 0 3],
      (let c := tMove i
       let e := (copyShape c.instr c.eb).1
       let lv := (copyShape c.instr c.eb).2
       ∀ W : Nat → Prop, ∀ j ∈ vectorsOf (lv.map fun l => l.cnt), ∀ m, copyMove c e lv tRow j = some m →
         CmdTarget (tMoveS c) 0 c W m.1 e e (tDst (copyFn i) j) ∧
           ∀ va, m.2 = some va → CmdFinds (tMoveS c) 0 c W va e e false (tSrc (copyFn i) j)) := by
  intro i hi
  have h : moveB (tMove i) = true := by revert i; decide +kernel
  intro c e lv W j hj m hm
  have g := List.all_eq_true.mp h j hj
  have hm' : copyMove (tMove i) (copyShape (tMove i).instr (tMove i).eb).1 (copyShape (tMove i).instr (tMove i).eb).2 tRow j = some m := hm
  rw [hm'] at g
  simp only [Option.all_some, Bool.and_eq_true] at g
  refine ⟨⟨(tcmB_elim W g.1).1, (tcmB_elim W g.1).2.1⟩, fun va hva => ?_⟩
  rw [hva] at g
  exact (tcmB_elim W g.2).1

/-- The rows of `CPYG` and `CPYS`, which no element overwrites. -/
theorem wit_CopyCommandsMove_rows :
    ∀ i ∈ [Instr.cpyg 1 2 3 0 3, .cpys 1 2 3 0 3],
      (let c := tMove i
       let lv := (copyShape c.instr c.eb).2
       let vs := vectorsOf (lv.map fun l => l.cnt)
       let W (a : Nat) : Prop := ∃ j ∈ vs, (copyMove c 8 lv tRow j).isSome = true ∧ (tDst (copyFn i) j).key ≤ a ∧ a < (tDst (copyFn i) j).key + 8
       fieldOf c.eb[15] 63 60 ≤ 1 ∧ c.eb[15].toNat % 4 = 0 ∧ (∀ l ∈ lv.drop 2, l.cnt = 1) ∧
         ∀ j ∈ vs, CmdSource (tMoveS c) 0 c W (c.eb[15] + BitVec.ofNat 64 (4 * j.getD 1 0)) 4 (tIdx j) ∧
           leNat (sourceBytes (tMoveS c) 0 (tIdx j) 4) = tRow (j.getD 1 0)) := by
  have key : ∀ i ∈ [Instr.cpyg 1 2 3 0 3, .cpys 1 2 3 0 3],
      (let c := tMove i
       let lv := (copyShape c.instr c.eb).2
       let vs := vectorsOf (lv.map fun l => l.cnt)
       (fieldOf c.eb[15] 63 60 ≤ 1 ∧ c.eb[15].toNat % 4 = 0 ∧ (∀ l ∈ lv.drop 2, l.cnt = 1)) ∧
         ∀ j ∈ vs, tcmB (tMoveS c) c (c.eb[15] + BitVec.ofNat 64 (4 * j.getD 1 0)) 4 4 false (tIdx j) = true ∧
           leNat (sourceBytes (tMoveS c) 0 (tIdx j) 4) = tRow (j.getD 1 0) ∧ 0x6000 ≤ (tIdx j).key ∧
           ((copyMove c 8 lv tRow j).isSome = true → (tDst (copyFn i) j).key + 8 ≤ 0x6000)) := by decide +kernel
  intro i hi c lv vs W
  obtain ⟨⟨h1, h2, h3⟩, h4⟩ := key i hi
  refine ⟨h1, h2, h3, fun j hj => ⟨⟨(tcmB_elim W (h4 j hj).1).1, fun _ a ha _ => ?_⟩, (h4 j hj).2.1⟩⟩
  rintro ⟨k, hk, hs, -, hl⟩
  have := (h4 k hk).2.2.2 hs
  have := (h4 j hj).2.2.1
  omega

/-- A `CPYR` between views at 0x4000, from a source of a format: FP32 to Q8, Q8 to Q8, Q4X to Q4X. -/
def tRecode (sf n : Nat) : Cmd :=
  { tCmd (.cpyr 1 2 3) 0x8000 0xA000 false with
    sv := Vector.replicate 8 0x4000#64
    eb := Vector.ofFn fun k => if k.val = 12 then 0xD000 else if k.val = 13 then 0xC000 else if k.val = 14 then BitVec.ofNat 64 (n * 2 ^ 16 + sf * 2 ^ 8) else 0 }
def tRecS (c : Cmd) (f : Nat) : State :=
  { tCq c with mem := memPut (memPut (memPut (memPut [] 0x4008 8 (0x1100 + f)) 0x4010 4 2048) 0x4038 4 2048) 0x4050 8 1 }
def tWord (sf p : Nat) : Place := tcmPlace 0 (0xA000 + if sf = 0xC then 4 * (p / 8) else if sf = 0xD then p else 4 * p)
def tScale (p : Nat) : Place := tcmPlace 0 (0xC000 + p / 32)
def tFrom (p : Nat) : Place := tcmPlace 0 (0xD000 + p / 32)
def tPut (f p : Nat) : Place := tcmPlace 0 (0x8000 + if f = 0xC then 4 * (p / 8) else p)

/-- The value of a position. -/
def tValue (s : State) (sf f p : Nat) : Val :=
  if sf = 0xC ∨ sf = 0xD then
    let code := leNat (sourceBytes s 0 (tWord sf p) (if sf = 0xC then 4 else 1))
    decodeStippled (if sf = 0xD then .code (BitVec.ofNat 8 code).toInt else (decodeQ4X code).getD (p % 8) .zero)
      (leNat (sourceBytes s 0 (tFrom p) 1)) (tWide f).seed p (tWide f).zp
  else elemVal (BitVec.ofNat 4 sf) (leNat (sourceBytes s 0 (tWord sf p) 4))

def recCases : List (Nat × Nat × Nat) := [(8, 2, 0xD), (0xD, 2, 0xD), (0xC, 8, 0xC)]

theorem wit_CopyCommandsMove_recode :
    ∀ x ∈ recCases,
      (let c := tRecode x.1 x.2.1
       let s := tRecS c x.2.2
       CopyStarts s 0 c [] ∧ copyFn c.instr = 5 ∧ fieldOf c.a 63 60 ≠ 7 ∧ recodeBad c.eb[14] = false ∧ recode c 47 16 = x.2.1 ∧ recode c 11 8 = x.1 ∧
         x.2.2 = memNat s.mem (0x4000 + 8) 1 % 16 ∧ parseView (readBytes s.mem 0x4000 128) (BitVec.ofNat 4 x.2.2) = some (tWide x.2.2) ∧
         (x.1 ≠ 8 → parseView (readBytes s.mem 0x4000 128) (BitVec.ofNat 4 x.1) = some (tWide x.2.2)) ∧ x.2.1 % (if x.2.2 = 0xC then 8 else 1) = 0 ∧
         c.a.toNat % 32 = 0 ∧ c.b.toNat % 32 = 0) := by
  unfold CopyStarts CmdQuiet; decide +kernel

/-- The descriptors, and for each position its index, its source, its scale byte and its place. -/
theorem wit_CopyCommandsMove_positions :
    ∀ x ∈ recCases,
      (let c := tRecode x.1 x.2.1
       let s := tRecS c x.2.2
       let n := x.2.1
       let unit := if x.2.2 = 0xC then 8 else 1
       let size := if x.2.2 = 0xC then 4 else 1
       let W (a : Nat) : Prop := ∃ p, p < n ∧ p % unit = 0 ∧ (tPut x.2.2 p).key ≤ a ∧ a < (tPut x.2.2 p).key + size
       CmdReaches s 0 c (viewAt c (recode c 6 4)) 128 128 false (tcmPlace 0 0x4000) ∧
         CmdReaches s 0 c (viewAt c (recode c 2 0)) 128 128 false (tcmPlace 0 0x4000) ∧
         (∀ p, p < n → viewIndex (tWide x.2.2) p = some p ∧ RecodeSource s 0 c W (tWide x.2.2) p (tValue s x.1 x.2.2 p)) ∧
         ∀ p, p < n → p % unit = 0 →
           CmdSource s 0 c W (c.eb[13] + BitVec.ofNat 64 (((tWide x.2.2).skip + p) / 32)) 1 (tScale p) ∧
             CmdTarget s 0 c W (c.a + BitVec.ofNat 64 (if x.2.2 = 0xC then 4 * (((tWide x.2.2).skip + p) / 8) else (tWide x.2.2).skip + p)) size size (tPut x.2.2 p)) := by
  have key : ∀ x ∈ recCases,
      (let c := tRecode x.1 x.2.1
       let s := tRecS c x.2.2
       let n := x.2.1
       let unit := if x.2.2 = 0xC then 8 else 1
       let size := if x.2.2 = 0xC then 4 else 1
       reachB s c (viewAt c (recode c 6 4)) 128 128 false (tcmPlace 0 0x4000) = true ∧ reachB s c (viewAt c (recode c 2 0)) 128 128 false (tcmPlace 0 0x4000) = true ∧
         recode c 11 8 = x.1 ∧
         (∀ p, p < n → viewIndex (tWide x.2.2) p = some p ∧
           tcmB s c (c.b + BitVec.ofNat 64 (if x.1 = 0xC then 4 * (p / 8) else if x.1 = 0xD then p else p * 4)) (if x.1 = 0xD then 1 else 4) (if x.1 = 0xD then 1 else 4) false (tWord x.1 p) = true ∧
           tcmB s c (c.eb[12] + BitVec.ofNat 64 (p / 32)) 1 1 false (tFrom p) = true ∧ 0x9000 ≤ (tWord x.1 p).key ∧ 0x9000 ≤ (tFrom p).key) ∧
         ∀ p, p < n → p % unit = 0 →
           tcmB s c (c.eb[13] + BitVec.ofNat 64 (p / 32)) 1 1 false (tScale p) = true ∧ 0x9000 ≤ (tScale p).key ∧ (tPut x.2.2 p).key + size ≤ 0x9000 ∧
             tcmB s c (c.a + BitVec.ofNat 64 (if x.2.2 = 0xC then 4 * (p / 8) else p)) size size true (tPut x.2.2 p) = true) := by decide +kernel
  intro x hx c s n unit size W
  obtain ⟨h1, h2, h3, h4, h5⟩ := key x hx
  have apart : ∀ a, 0x9000 ≤ a → ¬W a := by
    rintro a ha ⟨p, hp, hu, -, hl⟩
    have := (h5 p hp hu).2.2.1
    omega
  have src : ∀ va m q, tcmB s c va m m false q = true → 0x9000 ≤ q.key → CmdSource s 0 c W va m q := fun va m q hq hk =>
    ⟨(tcmB_elim W hq).1, fun _ a ha _ => apart a (by omega)⟩
  refine ⟨reachB_elim h1, reachB_elim h2, fun p hp => ⟨(h4 p hp).1, ?_⟩, fun p hp hu => ?_⟩
  · obtain ⟨-, g2, g3, g4, g5⟩ := h4 p hp
    have m := src _ _ _ g2 g4
    have n := src _ _ _ g3 g5
    have z : (tWide x.2.2).skip + p = p := Nat.zero_add p
    simp only [recCases, List.mem_cons, List.not_mem_nil, or_false] at hx
    have hc : recode c 11 8 = x.1 := h3
    unfold RecodeSource
    simp only [hc, z]
    rcases hx with rfl | rfl | rfl
    · rw [if_neg (by decide)]
      exact ⟨_, m, rfl⟩
    · rw [if_pos (by decide)]
      exact ⟨_, _, p, (h4 p hp).1, n, m, rfl⟩
    · rw [if_pos (by decide)]
      exact ⟨_, _, p, (h4 p hp).1, n, m, rfl⟩
  · obtain ⟨g1, g2, -, g4⟩ := h5 p hp hu
    have z : (tWide x.2.2).skip + p = p := Nat.zero_add p
    rw [z]
    exact ⟨src _ _ _ g1 g2, (tcmB_elim W g4).1, (tcmB_elim W g4).2.1⟩

/-- An address of the device memory that the tables map, and some dwords of it: an automaton of 4 tokens, 3 states and 5 symbols, of start
state 0 with one initial symbol; state 0 accepts, state 2 is dead; tokens 1 to 3 are legal in state 0. Token 1 pops one symbol and pushes one,
token 2 leads to state 2, token 3 pushes one. -/
def tDev (off : Nat) : Nat := 0x4000000000000000 + off
def tTables : Memory :=
  [(0x1000, 0x453454C56), (0x1008, 0x500000003), (0x1010, 0x100000000), (0x1018, 2), (0x1020, tDev 0x2000), (0x1028, tDev 0x3000),
    (0x1030, tDev 0x5000), (0x1038, tDev 0x6000), (0x2000, 2 ^ 34), (0x2008, 3 * 2 ^ 32), (0x2020, 2 ^ 35), (0x3000, tDev 0x4000), (0x4000, 2),
    (0x4008, 0xE), (0x5000, 1 + 2 ^ 20), (0x5008, 2 + 2 * 2 ^ 20 + 2 ^ 40), (0x5010, 3 + 3 * 2 ^ 20 + 2 * 2 ^ 40), (0x6000, 1 + 2 ^ 20 + 2 ^ 23),
    (0x6008, 3), (0x6010, 2), (0x6020, 1 + 2 ^ 23), (0x6028, 4)].foldl (fun m e => memPut m (devKey 0 (2 ^ 30 + e.1)) 8 e.2)
    (memPut (tMap 0 { tS with mem := [] }).mem (devKey 0 0x2000) 1 0x0F)
/-- A block at 0x3000 and a context of `d` symbols 2 at 0x3400, in state 0 after 7 steps. -/
def tLow (block : List Nat) (d : Nat) : Memory :=
  (List.range 8).foldl (fun m i => memPut m (0x3000 + 8 * i) 8 (block.getD i 0))
    (memPut (memPut (memPut [] 0x3400 8 (tDev 0x1000)) 0x3408 8 (d * 2 ^ 32)) 0x3410 8 7)
def tSyms (d : Nat) : Memory := (List.range d).map fun j => (0x3440 + 2 * j, 2#8)
def tPdaMem (block : List Nat) (d : Nat) : Memory := tLow block d ++ (tSyms d ++ tTables)
def tSv (i : Instr) : Cmd := tCmd i 0x3000 0x500002000 false
def tSvT (i : Instr) : State := { tClass 1 (tC (fun x => { x with sq := [tSv i] }) tS) with mem := tTables }
def tSvS (i : Instr) (block : List Nat) (d : Nat) : State := { tSvT i with mem := tPdaMem block d }

theorem memRead_skip (a b : Memory) (k : Nat) (h : ∀ c ∈ a, c.1 ≠ k) : memRead (a ++ b) k = memRead b k := by
  induction a with
  | nil => rfl
  | cons c a ih =>
    rw [List.cons_append, memRead, if_neg fun e => h c (by simp) e.symm]
    exact ih fun c' h' => h c' (by simp [h'])

theorem memRead_syms (d j : Nat) (b : Memory) (hj : j < d) : memRead (tSyms d ++ b) (0x3440 + 2 * j) = 2#8 := by
  induction d generalizing b with
  | zero => omega
  | succ n ih =>
    have e : tSyms (n + 1) ++ b = tSyms n ++ ((0x3440 + 2 * n, 2#8) :: b) := by simp [tSyms, List.range_succ]
    rw [e]
    by_cases h : j < n
    · exact ih _ h
    · have : j = n := by omega
      subst this
      rw [memRead_skip _ _ _ fun c hc => ?_, memRead, if_pos rfl]
      simp only [tSyms, List.mem_map, List.mem_range] at hc
      obtain ⟨i, hi, rfl⟩ := hc
      simp only
      omega

/-- Two memories that agree on device memory. -/
def DevSame (m m' : Memory) : Prop := ∀ k, 3 * 2 ^ 60 ≤ k → memRead m k = memRead m' k

theorem memNat_dev {m m' : Memory} (h : DevSame m m') (k n : Nat) (hk : 3 * 2 ^ 60 ≤ k) : memNat m k n = memNat m' k n := by
  have : readBytes m k n = readBytes m' k n := List.map_congr_left fun i _ => h (k + i) (by omega)
  rw [memNat, memNat, this]

theorem findLeaf_dev {m m' : Memory} (h : DevSame m m') (s : State) (pkg v fuel t : Nat) :
    findLeaf { s with mem := m } pkg v fuel t = findLeaf { s with mem := m' } pkg v fuel t := by
  induction fuel generalizing t with
  | zero => rfl
  | succ n ih =>
    have hk : 3 * 2 ^ 60 ≤ devKey pkg (t + 16 * walkIndex v (4 - n)) := by unfold devKey; omega
    simp only [findLeaf]
    rw [memNat_dev h _ 8 hk, memNat_dev h _ 8 (by omega)]
    simp only [ih]
    rfl

theorem translate_dev {m m' : Memory} (h : DevSame m m') (s : State) (q : Requester) (pkg : Nat) (va : Word) (path : Nat) (kind : AccKind) :
    Machine.translate { s with mem := m } q pkg va path kind = Machine.translate { s with mem := m' } q pkg va path kind := by
  unfold Machine.translate walk
  dsimp only
  rw [findLeaf_dev h s]
  rfl

theorem check_dev {m m' : Memory} (h : DevSame m m') (s : State) (c : Cmd) (va : Word) (n al : Nat) (write : Bool) (hv : fieldOf va 63 60 = 4) :
    cmdCheck { s with mem := m } 0 c va n al write = cmdCheck { s with mem := m' } 0 c va n al write := by
  unfold cmdCheck checkAccess
  simp only [hv]
  rw [translate_dev h s]

/-- The command reads the value at an address of the tables' device memory. -/
def devB (s : State) (c : Cmd) (va : Word) (w v : Nat) : Bool :=
  decide (fieldOf va 63 60 = 4) && placeIs (cmdCheck s 0 c va w w false) fun p =>
    decide (p.mode ≠ .ex) && (p.leaf.all fun k => decide (3 * 2 ^ 60 ≤ k) && memRead s.mem k &&& 0x04#8 = 0x04#8) &&
      ((List.range w).all fun j => classAt (regionOf s 0) (p.key + j) ≠ 2) && decide (3 * 2 ^ 60 ≤ p.key ∧ p.readOnly = false) &&
      decide (memNat s.mem p.key w = v)

theorem devB_elim {s : State} {m : Memory} {c : Cmd} {va : Word} {w v : Nat} (hm : DevSame m s.mem) (h : devB s c va w v = true) :
    CmdReads { s with mem := m } 0 c va w v := by
  simp only [devB, Bool.and_eq_true, decide_eq_true_eq] at h
  obtain ⟨p, hp, hf⟩ := placeIs_elim h.2
  simp only [Bool.and_eq_true, decide_eq_true_eq, List.all_eq_true, List.mem_range] at hf
  obtain ⟨⟨⟨⟨h1, h2⟩, h3⟩, h4⟩, h5⟩ := hf
  refine ⟨p, (check_dev hm s c va w w false h.1).trans hp, h1, fun k hk => ?_, fun j hj => ?_, ?_⟩
  · rw [hk] at h2
    simp only [Option.all_some, Bool.and_eq_true, decide_eq_true_eq] at h2
    rw [hm k h2.1]
    exact h2.2
  · exact (by simpa using h3 j hj : classAt (regionOf s 0) (p.key + j) ≠ 2)
  · rw [h4.2]
    exact (memNat_dev hm _ _ h4.1).trans h5

/-- The block and the context's words lie below the symbols. -/
def lowB (block : List Nat) (d : Nat) : Bool := (tLow block d).all fun c => decide (c.1 < 0x3440)

theorem devSame {block : List Nat} {d : Nat} (hd : d ≤ 1024) (h : lowB block d = true) : DevSame (tPdaMem block d) tTables := by
  intro k hk
  rw [tPdaMem, memRead_skip _ _ _ fun c hc => ?_, memRead_skip _ _ _ fun c hc => ?_]
  · simp only [tSyms, List.mem_map, List.mem_range] at hc
    obtain ⟨i, hi, rfl⟩ := hc
    simp only
    omega
  · have := List.all_eq_true.mp h c hc
    simp only [decide_eq_true_eq] at this
    omega

theorem symbol_read {block : List Nat} {d j : Nat} (hd : d ≤ 1024) (h : lowB block d = true) (hj : j < d) : memNat (tPdaMem block d) (0x3440 + 2 * j) 2 = 2 := by
  have low : ∀ k, 0x3440 ≤ k → memRead (tPdaMem block d) k = memRead (tSyms d ++ tTables) k := fun k hk => memRead_skip _ _ _ fun c hc => by
    have := List.all_eq_true.mp h c hc
    simp only [decide_eq_true_eq] at this
    omega
  have tab : tTables.all (fun c => decide (3 * 2 ^ 60 ≤ c.1)) = true := by decide +kernel
  have r0 := (low (0x3440 + 2 * j) (by omega)).trans (memRead_syms d j tTables hj)
  have r1 : memRead (tPdaMem block d) (0x3440 + 2 * j + 1) = 0#8 := by
    rw [low _ (by omega), memRead_skip _ _ _ fun c hc => ?_]
    · have : tTables ++ [] = tTables := List.append_nil _
      rw [← this, memRead_skip _ _ _ fun c hc => ?_]
      · rfl
      · have := List.all_eq_true.mp tab c hc
        simp only [decide_eq_true_eq] at this
        omega
    · simp only [tSyms, List.mem_map, List.mem_range] at hc
      obtain ⟨i, hi, rfl⟩ := hc
      simp only
      omega
  simp [memNat, readBytes, List.range_succ, leNat, r0, r1]

/-- The eight dwords of the header, and of the context. -/
def tHead (i : Nat) : Nat :=
  [0x453454C56, 0x500000003, 0x100000000, 2, tDev 0x2000, tDev 0x3000, tDev 0x5000, tDev 0x6000].getD i 0
def tCtxW (d i : Nat) : Nat := [tDev 0x1000, d * 2 ^ 32, 7].getD i 0

/-- The range entries of state 0, and the actions. -/
def tEntryW (i : Nat) : Nat := [1 + 2 ^ 20, 2 + 2 * 2 ^ 20 + 2 ^ 40, 3 + 3 * 2 ^ 20 + 2 * 2 ^ 40].getD i 0
def tAct (i : Nat) : Nat × Nat := [(1 + 2 ^ 20 + 2 ^ 23, 3), (2, 0), (1 + 2 ^ 23, 4)].getD i (0, 0)

/-- All that a command reads of the tables, by offset and size. -/
def tabB (i : Instr) : Bool :=
  ((List.range 8).all fun k => devB (tSvT i) (tSv i) (BitVec.ofNat 64 (tDev 0x1000) + BitVec.ofNat 64 (8 * k)) 8 (tHead k)) &&
    ([(0x2000, 8, 2 ^ 34), (0x2008, 8, 3 * 2 ^ 32), (0x2010, 8, 0), (0x2018, 8, 0), (0x2020, 8, 2 ^ 35), (0x2028, 8, 0), (0x3000, 8, tDev 0x4000), (0x4000, 8, 2),
      (0x4008, 1, 0xE)].all fun x => devB (tSvT i) (tSv i) (BitVec.ofNat 64 (tDev x.1)) x.2.1 x.2.2) &&
    (List.range 3).all fun k => devB (tSvT i) (tSv i) (BitVec.ofNat 64 (tHead 6 + 8 * k)) 8 (tEntryW k) &&
      devB (tSvT i) (tSv i) (BitVec.ofNat 64 (tHead 7 + 16 * k)) 8 (tAct k).1 && devB (tSvT i) (tSv i) (BitVec.ofNat 64 (tHead 7 + 16 * k + 8)) 8 (tAct k).2

structure TabReads (i : Instr) (block : List Nat) (d : Nat) : Prop where
  head : HeaderAt (tSvS i block d) 0 (tSv i) (BitVec.ofNat 64 (tDev 0x1000)) tHead
  words : ∀ x ∈ [(0x2000, 8, 2 ^ 34), (0x2008, 8, 3 * 2 ^ 32), (0x2010, 8, 0), (0x2018, 8, 0), (0x2020, 8, 2 ^ 35), (0x2028, 8, 0), (0x3000, 8, tDev 0x4000),
    (0x4000, 8, 2), (0x4008, 1, 0xE)], CmdReads (tSvS i block d) 0 (tSv i) (BitVec.ofNat 64 (tDev x.1)) x.2.1 x.2.2
  entries : ∀ k, k < 3 → CmdReads (tSvS i block d) 0 (tSv i) (BitVec.ofNat 64 (tHead 6 + 8 * k)) 8 (tEntryW k) ∧
    CmdReads (tSvS i block d) 0 (tSv i) (BitVec.ofNat 64 (tHead 7 + 16 * k)) 8 (tAct k).1 ∧
    CmdReads (tSvS i block d) 0 (tSv i) (BitVec.ofNat 64 (tHead 7 + 16 * k + 8)) 8 (tAct k).2

theorem devReads {i : Instr} {block : List Nat} {d : Nat} {va : Word} {w v : Nat} (hm : DevSame (tPdaMem block d) tTables)
    (h : devB (tSvT i) (tSv i) va w v = true) : CmdReads (tSvS i block d) 0 (tSv i) va w v := by
  have e : (tSvT i).mem = tTables := by simp only [tSvT]
  unfold tSvS
  exact devB_elim (by rw [e]; exact hm) h

theorem tabB_elim {i : Instr} {block : List Nat} {d : Nat} (hm : DevSame (tPdaMem block d) tTables) (h : tabB i = true) : TabReads i block d := by
  simp only [tabB, Bool.and_eq_true, List.all_eq_true, List.mem_range] at h
  exact ⟨⟨by decide +kernel, by decide +kernel, fun k hk => devReads hm (h.1.1 k hk), by decide +kernel⟩,
    fun x hx => devReads hm (h.1.2 x hx),
    fun k hk => ⟨devReads hm (h.2 k hk).1.1, devReads hm (h.2 k hk).1.2, devReads hm (h.2 k hk).2⟩⟩

/-- The command's reads of TCM words below the symbols find the same in the whole memory. -/
theorem lowRead {m a b : Memory} {k n : Nat} (hm : m = a ++ b) (h : ∀ c ∈ b, k + n ≤ c.1) : memNat m k n = memNat a k n := by
  subst hm
  have r : ∀ j, j < n → memRead (a ++ b) (k + j) = memRead a (k + j) := by
    intro j hj
    induction a with
    | nil =>
      have : b ++ [] = b := List.append_nil b
      rw [List.nil_append, ← this, memRead_skip _ _ _ fun c hc e => by have := h c hc; omega]
    | cons c a ih =>
      rw [List.cons_append, memRead, memRead, ih]
  rw [memNat, memNat, readBytes, readBytes, List.map_congr_left fun j hj => r j (List.mem_range.mp hj)]

theorem highCells (d : Nat) : ∀ c ∈ tSyms d ++ tTables, 0x3440 ≤ c.1 := by
  have tab : tTables.all (fun c => decide (3 * 2 ^ 60 ≤ c.1)) = true := by decide +kernel
  intro c hc
  rcases List.mem_append.mp hc with h | h
  · simp only [tSyms, List.mem_map, List.mem_range] at h
    obtain ⟨i, hi, rfl⟩ := h
    simp only
    omega
  · have := List.all_eq_true.mp tab c h
    simp only [decide_eq_true_eq] at this
    omega

theorem lowWord (block : List Nat) (d : Nat) {k n : Nat} (h : k + n ≤ 0x3440) : memNat (tPdaMem block d) k n = memNat (tLow block d) k n := by
  unfold tPdaMem
  exact lowRead (a := tLow block d) (b := tSyms d ++ tTables) (Eq.refl _) fun c hc => Nat.le_trans h (highCells d c hc)

theorem open_mem (s : State) (m : Memory) (core key n : Nat) (h : Open s core key n) : Open { s with mem := m } core key n := h

theorem tcmReads {i : Instr} {block : List Nat} {d a w v : Nat} {va : Word} (h : tcmB (tSvT i) (tSv i) va w w false (tcmPlace 0 a) = true)
    (hv : memNat (tPdaMem block d) a w = v) : CmdReads (tSvS i block d) 0 (tSv i) va w v := by
  obtain ⟨g, -, -⟩ := tcmB_elim (fun _ => True) h
  unfold tSvS
  refine ⟨tcmPlace 0 a, g.2.2.2 _ fun _ n => absurd trivial n, g.2.1, fun k hk => (g.2.2.1 k hk).1.elim trivial, open_mem (tSvT i) (tPdaMem block d) _ _ _ g.1, ?_⟩
  have : (tcmPlace 0 a).key = a := by simp [tcmPlace, tcmKey]
  rw [this]
  exact hv

/-- The context's words and the places of its symbols. -/
def ctxB (i : Instr) (block : List Nat) (d : Nat) : Bool :=
  lowB block d && ((List.range 8).all fun k => tcmB (tSvT i) (tSv i) (0x3400#64 + BitVec.ofNat 64 (8 * k)) 8 8 false (tcmPlace 0 (0x3400 + 8 * k)) &&
      decide (memNat (tLow block d) (0x3400 + 8 * k) 8 = tCtxW d k)) &&
    (List.range d).all fun j => tcmB (tSvT i) (tSv i) (0x3400#64 + BitVec.ofNat 64 (0x40 + 2 * j)) 2 2 false (tcmPlace 0 (0x3440 + 2 * j))

theorem ctxB_elim {i : Instr} {block : List Nat} {d : Nat} (hd : d ≤ 1024) (t : tabB i = true) (h : ctxB i block d = true) :
    TabReads i block d ∧ ContextAt (tSvS i block d) 0 (tSv i) 0x3400 (tCtxW d) (fun _ => 2) tHead := by
  simp only [ctxB, Bool.and_eq_true, List.all_eq_true, List.mem_range, decide_eq_true_eq] at h
  obtain ⟨⟨h1, h2⟩, h3⟩ := h
  have tr := tabB_elim (devSame hd h1) t
  have e : tCtxW d 1 / 2 ^ 32 = d := by simp [tCtxW]
  refine ⟨tr, fun k hk => ?_, by rw [e]; exact hd, fun k h3 _ => ?_, tr.head, ?_,
    fun j hj => ⟨?_, (by decide : 1 ≤ 2), (by decide +kernel : 2 < tHead 1 / 2 ^ 32)⟩⟩
  · exact tcmReads (h2 k hk).1 ((lowWord block d (by omega)).trans (h2 k hk).2)
  · unfold tCtxW
    rw [List.getD_eq_default]
    simpa using h3
  · have : tCtxW d 1 % 2 ^ 32 = 0 := by simp [tCtxW]
    rw [this]
    decide
  · rw [e] at hj
    exact tcmReads (h3 j hj) (symbol_read hd h1 hj)

/-- A state's entry, the row of state 0, and its mask bits. -/
theorem tState {i : Instr} {block : List Nat} {d : Nat} (t : TabReads i block d) :
    StateAt (tSvS i block d) 0 (tSv i) tHead 0 (2 ^ 34) (3 * 2 ^ 32) ∧ StateAt (tSvS i block d) 0 (tSv i) tHead 1 0 0 ∧
      StateAt (tSvS i block d) 0 (tSv i) tHead 2 (2 ^ 35) 0 ∧
      RowAt (tSvS i block d) 0 (tSv i) tHead (tCtxW d) (fun _ => 2) (2 ^ 34) (tDev 0x4000) :=
  ⟨⟨by decide, t.words (0x2000, 8, 2 ^ 34) (by simp), t.words (0x2008, 8, 3 * 2 ^ 32) (by simp), by decide, by decide⟩,
    ⟨by decide, t.words (0x2010, 8, 0) (by simp), t.words (0x2018, 8, 0) (by simp), by decide, by decide⟩,
    ⟨by decide, t.words (0x2020, 8, 2 ^ 35) (by simp), t.words (0x2028, 8, 0) (by simp), by decide, by decide⟩,
    t.words (0x3000, 8, tDev 0x4000) (by simp), .inr ⟨by decide, by decide⟩⟩

theorem tMaskBit {i : Instr} {block : List Nat} {d : Nat} (r : TabReads i block d) :
    ∀ t, t ≤ 4 → MaskBitIs (tSvS i block d) 0 (tSv i) tHead (tDev 0x4000) t (decide (1 ≤ t ∧ t ≤ 3) = true) := by
  intro t ht
  unfold MaskBitIs
  by_cases h4 : t = 4
  · subst h4
    rw [if_pos (by decide)]
    decide
  · have hv : ¬(tDev 0x4000 = 0 ∨ tHead 0 / 2 ^ 32 ≤ t) := by
      have : tHead 0 / 2 ^ 32 = 4 := by decide
      rw [this]
      rintro (h0 | h0)
      · exact absurd h0 (by decide)
      · omega
    rw [if_neg hv]
    have z : t / 256 = 0 := by omega
    have z8 : t % 256 / 8 = 0 := by omega
    refine ⟨fun _ => 2, 0xE, fun b hb => ⟨2, ?_, ?_⟩, ?_⟩
    · have : b = 0 := by omega
      subst this
      exact r.words (0x4000, 8, 2) (by simp)
    · have : b = 0 := by omega
      subst this
      decide
    · rw [if_pos rfl]
      refine ⟨fun b hb => by omega, ?_, ?_⟩
      · rw [z, z8]
        exact r.words (0x4008, 1, 0xE) (by simp)
      · have : t = 0 ∨ t = 1 ∨ t = 2 ∨ t = 3 := by omega
        rcases this with rfl | rfl | rfl | rfl <;> decide

/-- The command is to start, with its block. -/
def startB (i : Instr) (block : List Nat) (d : Nat) : Bool :=
  decide ((getCore (tSvS i block d) 0).sq = [tSv i] ∧ svMayRun (tSvS i block d) 0 (tSv i) = true ∧ (getCore (tSvS i block d) 0).slice = 0 ∧
      (tSv i).read = none ∧ completionOk (tSvS i block d) 0 (tSv i).guard (tSv i).b = true ∧
      ((∀ e ∈ (regionOf (tSvS i block d) 0).log, e.agent = .strand 0 (cmdStrand (tSv i))) ∧ (tSvS i block d).doubts = []) ∧
      Memory.wf (tSvS i block d).mem = true ∧ fieldOf (tSv i).a 63 60 = 0) &&
    (reachB (tSvS i block d) (tSv i) (tSv i).a 64 64 false (tcmPlace 0 0x3000) && writesB (tSvS i block d) (tSv i) ((tSv i).a + 0x38#64) 8 8 0x3038) &&
    (List.range 8).all fun k => memNat (tLow block d) (0x3000 + 8 * k) 8 = block.getD k 0

theorem startB_elim {i : Instr} {block : List Nat} {d : Nat} (h : startB i block d = true) :
    SelvedgeStarts (tSvS i block d) 0 (tSv i) [] (tcmPlace 0 0x3000) ∧ ∀ k, k < 8 → memNat (tPdaMem block d) (0x3000 + 8 * k) 8 = block.getD k 0 := by
  simp only [startB, Bool.and_eq_true, decide_eq_true_eq, List.all_eq_true, List.mem_range] at h
  obtain ⟨⟨⟨h1, h2, h3, h4, h5, h6, h7, h8⟩, h9, h10⟩, h11⟩ := h
  exact ⟨⟨h1, h2, h3, h4, h5, h6, h7, h8, reachB_elim h9, writesB_elim h10⟩, fun k hk => (lowWord block d (by omega)).trans (h11 k hk)⟩

/-- `PDAINIT` from a table into a context at 0x5000, and from a saved record with one symbol. -/
theorem wit_AutomatonCommandsWrite_init :
    (∀ x ∈ [(0#1, [0x5000, tDev 0x1000]), (1#1, [0x5000, 0x3400])],
      (let i := Instr.pdainit 1 2 x.1
       SelvedgeStarts (tSvS i x.2 1) 0 (tSv i) [] (tcmPlace 0 0x3000) ∧ TabReads i x.2 1 ∧
         ContextAt (tSvS i x.2 1) 0 (tSv i) 0x3400 (tCtxW 1) (fun _ => 2) tHead ∧ StateAt (tSvS i x.2 1) 0 (tSv i) tHead 0 (2 ^ 34) (3 * 2 ^ 32) ∧
         CmdWrites (tSvS i x.2 1) 0 (tSv i) 0x5000 64 64 0x5000 ∧ CmdWrites (tSvS i x.2 1) 0 (tSv i) (0x5000 + 0x40#64) 2 2 (0x5000 + 0x40))) ∧
      tHead 2 / 2 ^ 32 = 1 ∧ tHead 2 % 2 ^ 32 = 0 ∧ 1 ≤ tHead 3 % 2 ^ 16 ∧ tHead 3 % 2 ^ 16 < tHead 1 / 2 ^ 32 ∧ 2 ^ 34 / 2 ^ 35 % 2 ≠ 1 := by
  have key : ∀ x ∈ [(0#1, [0x5000, tDev 0x1000]), (1#1, [0x5000, 0x3400])],
      (let i := Instr.pdainit 1 2 x.1
       startB i x.2 1 = true ∧ tabB i = true ∧ ctxB i x.2 1 = true ∧ writesB (tSvS i x.2 1) (tSv i) 0x5000 64 64 0x5000 = true ∧
         writesB (tSvS i x.2 1) (tSv i) (0x5000 + 0x40#64) 2 2 (0x5000 + 0x40) = true) := by decide +kernel
  refine ⟨fun x hx => ?_, by decide, by decide, by decide, by decide, by decide⟩
  obtain ⟨h1, h2, h3, h4, h5⟩ := key x hx
  obtain ⟨t, c⟩ := ctxB_elim (by decide) h2 h3
  exact ⟨(startB_elim h1).1, t, c, (tState t).1, writesB_elim h4, writesB_elim h5⟩

/-- `PDASAVE`, and `PDAMASK` of tokens 0 to 4, the last past the vocabulary. -/
theorem wit_AutomatonCommandsWrite_save :
    ∀ x ∈ [(Instr.pdasave 1 2, [0x3400, 0x5000], 72), (.pdamask 1 2, [0x3400, 0x5000, 0, 5], 8)],
      SelvedgeStarts (tSvS x.1 x.2.1 1) 0 (tSv x.1) [] (tcmPlace 0 0x3000) ∧
        ContextAt (tSvS x.1 x.2.1 1) 0 (tSv x.1) 0x3400 (tCtxW 1) (fun _ => 2) tHead ∧
        StateAt (tSvS x.1 x.2.1 1) 0 (tSv x.1) tHead 0 (2 ^ 34) (3 * 2 ^ 32) ∧
        RowAt (tSvS x.1 x.2.1 1) 0 (tSv x.1) tHead (tCtxW 1) (fun _ => 2) (2 ^ 34) (tDev 0x4000) ∧
        (∀ t, t < 5 → MaskBitIs (tSvS x.1 x.2.1 1) 0 (tSv x.1) tHead (tDev 0x4000) (0 + t) (decide (1 ≤ t ∧ t ≤ 3) = true)) ∧
        CmdWrites (tSvS x.1 x.2.1 1) 0 (tSv x.1) 0x5000 x.2.2 8 0x5000 := by
  have key : ∀ x ∈ [(Instr.pdasave 1 2, [0x3400, 0x5000], 72), (.pdamask 1 2, [0x3400, 0x5000, 0, 5], 8)],
      startB x.1 x.2.1 1 = true ∧ tabB x.1 = true ∧ ctxB x.1 x.2.1 1 = true ∧ writesB (tSvS x.1 x.2.1 1) (tSv x.1) 0x5000 x.2.2 8 0x5000 = true := by
    decide +kernel
  intro x hx
  obtain ⟨h1, h2, h3, h4⟩ := key x hx
  obtain ⟨t, c⟩ := ctxB_elim (by decide) h2 h3
  exact ⟨(startB_elim h1).1, c, (tState t).1, (tState t).2.2.2, fun k hk => by rw [Nat.zero_add]; exact tMaskBit t k (by omega), writesB_elim h4⟩

/-- `PDASTEP` of a token with a number of symbols: no action; too few symbols; too many; a dead state; a step that pops and pushes. -/
theorem wit_AutomatonCommandsWrite_step :
    ∀ x ∈ [(0, 1), (1, 0), (3, 1024), (2, 1), (1, 1)],
      (let i := Instr.pdastep 1 2
       let s := tSvS i [0x3400, 0, x.1] x.2
       SelvedgeStarts s 0 (tSv i) [] (tcmPlace 0 0x3000) ∧ ContextAt s 0 (tSv i) 0x3400 (tCtxW x.2) (fun _ => 2) tHead ∧
         StateAt s 0 (tSv i) tHead 0 (2 ^ 34) (3 * 2 ^ 32) ∧ RowAt s 0 (tSv i) tHead (tCtxW x.2) (fun _ => 2) (2 ^ 34) (tDev 0x4000) ∧
         MaskBitIs s 0 (tSv i) tHead (tDev 0x4000) x.1 (decide (1 ≤ x.1 ∧ x.1 ≤ 3) = true) ∧
         (∀ k, k < 3 → CmdReads s 0 (tSv i) (BitVec.ofNat 64 (tHead 6 + 8 * k)) 8 (tEntryW k) ∧
           CmdReads s 0 (tSv i) (BitVec.ofNat 64 (tHead 7 + 16 * k)) 8 (tAct k).1 ∧
           CmdReads s 0 (tSv i) (BitVec.ofNat 64 (tHead 7 + 16 * k + 8)) 8 (tAct k).2) ∧
         (∀ k, k < 3 → tEntryW k % 2 ^ 20 ≤ tEntryW k / 2 ^ 20 % 2 ^ 20 ∧ (tAct k).1 / 2 ^ 26 = 0) ∧
         (1 ≤ x.1 → searched tEntryW x.1 33 0 2 = some (x.1 - 1)) ∧
         StateAt s 0 (tSv i) tHead 1 0 0 ∧ StateAt s 0 (tSv i) tHead 2 (2 ^ 35) 0 ∧ CmdWrites s 0 (tSv i) 0x3400 64 64 0x3400 ∧
         CmdWrites s 0 (tSv i) (0x3400 + BitVec.ofNat 64 0x40) 2 2 (0x3400 + 0x40)) := by
  have key : ∀ x ∈ [(0, 1), (1, 0), (3, 1024), (2, 1), (1, 1)],
      (let i := Instr.pdastep 1 2
       let s := tSvS i [0x3400, 0, x.1] x.2
       x.1 ≤ 4 ∧ x.2 ≤ 1024 ∧ startB i [0x3400, 0, x.1] x.2 = true ∧ ctxB i [0x3400, 0, x.1] x.2 = true ∧
         (∀ k, k < 3 → tEntryW k % 2 ^ 20 ≤ tEntryW k / 2 ^ 20 % 2 ^ 20 ∧ (tAct k).1 / 2 ^ 26 = 0) ∧
         (1 ≤ x.1 → searched tEntryW x.1 33 0 2 = some (x.1 - 1)) ∧ writesB s (tSv i) 0x3400 64 64 0x3400 = true ∧
         writesB s (tSv i) (0x3400 + BitVec.ofNat 64 0x40) 2 2 (0x3400 + 0x40) = true) := by decide +kernel
  have tab : tabB (.pdastep 1 2) = true := by decide +kernel
  intro x hx
  obtain ⟨h1, h2, h3, h4, h5, h6, h7, h8⟩ := key x hx
  obtain ⟨t, c⟩ := ctxB_elim h2 tab h4
  exact ⟨(startB_elim h3).1, c, (tState t).1, (tState t).2.2.2, tMaskBit t x.1 h1, t.entries, h5, h6, (tState t).2.1, (tState t).2.2.1, writesB_elim h7,
    writesB_elim h8⟩

/-- The weight table of the model is the rule's (R394). -/
theorem weightOf_table : IsWeightTable weightOf := by
  unfold IsWeightTable; decide +kernel

/-- A sampling command with a block at 0x3000 and words of memory. -/
def tSam (i : Instr) (words : List (Nat × Nat)) : State :=
  { tClass 1 (tC (fun x => { x with sq := [tSv i] }) tS) with mem := words.foldl (fun m e => memPut m e.1 8 e.2) [] }

def samB (i : Instr) (words : List (Nat × Nat)) : Bool :=
  decide ((getCore (tSam i words) 0).sq = [tSv i] ∧ svMayRun (tSam i words) 0 (tSv i) = true ∧ (getCore (tSam i words) 0).slice = 0 ∧
      (tSv i).read = none ∧ completionOk (tSam i words) 0 (tSv i).guard (tSv i).b = true ∧
      ((∀ e ∈ (regionOf (tSam i words) 0).log, e.agent = .strand 0 (cmdStrand (tSv i))) ∧ (tSam i words).doubts = []) ∧
      Memory.wf (tSam i words).mem = true ∧ fieldOf (tSv i).a 63 60 = 0) &&
    (reachB (tSam i words) (tSv i) (tSv i).a 64 64 false (tcmPlace 0 0x3000) && writesB (tSam i words) (tSv i) ((tSv i).a + 0x38#64) 8 8 0x3038)

theorem samB_elim {i : Instr} {words : List (Nat × Nat)} (h : samB i words = true) :
    SelvedgeStarts (tSam i words) 0 (tSv i) [] (tcmPlace 0 0x3000) := by
  simp only [samB, Bool.and_eq_true, decide_eq_true_eq] at h
  obtain ⟨⟨h1, h2, h3, h4, h5, h6, h7, h8⟩, h9, h10⟩ := h
  exact ⟨h1, h2, h3, h4, h5, h6, h7, h8, reachB_elim h9, writesB_elim h10⟩

/-- Two logits of 1.0 at 0x3400, `TAU` and `GMAX` 1.0, K of 64, a mask at 0x3500 (none at 0) and the record at 0x5000. -/
def tLogits (mask m : Nat) : List (Nat × Nat) :=
  [(0x3000, 0x3400), (0x3008, mask), (0x3018, 2), (0x3020, 0x3F8000003F800000), (0x3028, 64), (0x3030, 0x5000), (0x3400, 0x3F8000003F800000),
    (0x3500, m)]
/-- The value of a token under a mask. -/
def tZ (mask m i : Nat) : Option Nat := if mask = 0 ∨ m / 2 ^ (i % 64) % 2 = 1 then some 0x3F800000 else none

/-- Both forms, without a mask, with one token legal, and with none. -/
theorem wit_SamplingCommandsWrite_part :
    ∀ x ∈ [(0, 0), (0x3500, 2), (0x3500, 0)], ∀ scan : BitVec 1,
      (let i := Instr.samplep 1 2 scan
       let s := tSam i (tLogits x.1 x.2)
       SelvedgeStarts s 0 (tSv i) [] (tcmPlace 0 0x3000) ∧
         (∀ k, k < 2 → CmdReads s 0 (tSv i) (0x3400 + BitVec.ofNat 64 (4 * k)) 4 0x3F800000 ∧
           (x.1 ≠ 0 → CmdReads s 0 (tSv i) (BitVec.ofNat 64 x.1 + BitVec.ofNat 64 (8 * (k / 64))) 8 x.2)) ∧
         CmdWrites s 0 (tSv i) 0x5000 536 8 0x5000) := by
  have key : ∀ x ∈ [(0, 0), (0x3500, 2), (0x3500, 0)], ∀ scan : BitVec 1,
      (let i := Instr.samplep 1 2 scan
       let s := tSam i (tLogits x.1 x.2)
       samB i (tLogits x.1 x.2) = true ∧
         (∀ k, k < 2 → readsB s (tSv i) (0x3400 + BitVec.ofNat 64 (4 * k)) 4 0x3F800000 = true ∧
           (x.1 ≠ 0 → readsB s (tSv i) (BitVec.ofNat 64 x.1 + BitVec.ofNat 64 (8 * (k / 64))) 8 x.2 = true)) ∧
         writesB s (tSv i) 0x5000 536 8 0x5000 = true) := by decide +kernel
  intro x hx scan
  obtain ⟨h1, h2, h3⟩ := key x hx scan
  exact ⟨samB_elim h1, fun k hk => ⟨readsB_elim (h2 k hk).1, fun h => readsB_elim ((h2 k hk).2 h)⟩, writesB_elim h3⟩

/-- Its values: the largest is 1.0 where a token is legal, none is above `GMAX`, and each has the table's first weight. -/
theorem wit_SamplingCommandsWrite_values :
    rneFloat .f32 (valMul (floatVal .f32 0x3F800000) (floatVal .f32 0x3F800000)) = 0x3F800000 ∧ floatVal .f32 0x3F800000 = .fin 8388608 (-23) ∧
      valBelow (floatVal .f32 0x3F800000) (floatVal .f32 0x3F800000) = false ∧ valLt (floatVal .f32 0x3F800000) (floatVal .f32 0x3F800000) = false ∧
      IsWeightTable weightOf ∧
      (Int.floor ((valRat (floatVal .f32 0x3F800000) - valRat (floatVal .f32 0x3F800000)) * 0xB8AA3B29 / 2 ^ 23)).toNat = 0 ∧
      weightOf (0 % 256) / 2 ^ (0 / 256) = 0xFFFFFFFF ∧
      (∀ x ∈ [((0, 0), [(0, 0xFFFFFFFF), (1, 0xFFFFFFFF)]), ((0x3500, 2), [(1, 0xFFFFFFFF)]), ((0x3500, 0), [])],
        x.2.Pairwise (fun a b : Nat × Nat => b.2 < a.2 ∨ a.2 = b.2 ∧ a.1 < b.1) ∧
          ∀ i, i < 2 → ((tZ x.1.1 x.1.2 i = some 0x3F800000 ↔ (0 + i, 0xFFFFFFFF) ∈ x.2))) := by
  refine ⟨by decide +kernel, by decide +kernel, by decide +kernel, by decide +kernel, weightOf_table, by simp, by decide +kernel, by decide +kernel⟩

/-- One record at 0x3400: no legal token, no candidate, one candidate of token 3. -/
def tRecord (legal count : Nat) : List (Nat × Nat) :=
  [(0x3000, 0x3400), (0x3008, 1), (0x3010, 536 * 2 ^ 32 + 1), (0x3018, 65536), (0x3400, 5 * count), (0x3408, legal), (0x3410, 0x100 + count),
    (0x3418, (3 * 2 ^ 32 + 5) * count)]

theorem wit_SamplingCommandsWrite_final :
    (∀ x ∈ [(0, 0), (1, 0), (1, 1)],
      (let i := Instr.samplef 1 2
       let s := tSam i (tRecord x.1 x.2)
       SelvedgeStarts s 0 (tSv i) [] (tcmPlace 0 0x3000) ∧ CmdReads s 0 (tSv i) (0x3400 + BitVec.ofNat 64 (0 * 536 + 0)) 8 (5 * x.2) ∧
         CmdReads s 0 (tSv i) (0x3400 + BitVec.ofNat 64 (0 * 536 + 8)) 8 x.1 ∧
         CmdReads s 0 (tSv i) (0x3400 + BitVec.ofNat 64 (0 * 536 + 0x10)) 8 (0x100 + x.2) ∧ 1 ≤ (0x100 + x.2) / 256 % 256 ∧
         x.2 ≤ (0x100 + x.2) / 256 % 256 ∧
         ∀ j, j < x.2 → CmdReads s 0 (tSv i) (0x3400 + BitVec.ofNat 64 (0 * 536 + (0x18 + 8 * j))) 4 5 ∧
           CmdReads s 0 (tSv i) (0x3400 + BitVec.ofNat 64 (0 * 536 + (0x1C + 8 * j))) 4 3)) ∧
      (let h := (mix64 (mix64 0 0) 0).toNat * (([(3, 5)] : List (Nat × Nat)).map fun x => x.2).sum / 2 ^ 64
       65536 * 5 ≤ 65536 * (([(3, 5)] : List (Nat × Nat)).map fun x => x.2).sum ∧ 0 ≤ h ∧ h < 0 + 5 ∧
         ([] ++ (3, 5) :: [] : List (Nat × Nat)).Perm [(3, 5)]) := by
  have key : ∀ x ∈ [(0, 0), (1, 0), (1, 1)],
      (let i := Instr.samplef 1 2
       let s := tSam i (tRecord x.1 x.2)
       samB i (tRecord x.1 x.2) = true ∧ readsB s (tSv i) (0x3400 + BitVec.ofNat 64 (0 * 536 + 0)) 8 (5 * x.2) = true ∧
         readsB s (tSv i) (0x3400 + BitVec.ofNat 64 (0 * 536 + 8)) 8 x.1 = true ∧
         readsB s (tSv i) (0x3400 + BitVec.ofNat 64 (0 * 536 + 0x10)) 8 (0x100 + x.2) = true ∧ 1 ≤ (0x100 + x.2) / 256 % 256 ∧
         x.2 ≤ (0x100 + x.2) / 256 % 256 ∧
         ∀ j, j < x.2 → readsB s (tSv i) (0x3400 + BitVec.ofNat 64 (0 * 536 + (0x18 + 8 * j))) 4 5 = true ∧
           readsB s (tSv i) (0x3400 + BitVec.ofNat 64 (0 * 536 + (0x1C + 8 * j))) 4 3 = true) := by decide +kernel
  refine ⟨fun x hx => ?_, by decide, by decide, by decide +kernel, .refl _⟩
  obtain ⟨h1, h2, h3, h4, h5, h6, h7⟩ := key x hx
  exact ⟨samB_elim h1, readsB_elim h2, readsB_elim h3, readsB_elim h4, h5, h6, fun j hj => ⟨readsB_elim (h7 j hj).1, readsB_elim (h7 j hj).2⟩⟩
/-! ### Witnesses: phases, locks, exchange -/

/-- Strand 0 waits at the barrier. -/
def tSync : State := modMe tS fun t => { t with wait := .barrier }
def tDone : State := tC (fun x => { x with cdone := true }) tSync

theorem wit_PhaseAndLockSteps_close :
    (let x := getCore tSync 0
     x.region = some 0 ∧ (getRegion tSync 0).state = .running ∧ (getRegion tSync 0).phase = .c ∧ (getCore tSync 0).taken = false ∧
       x.cdone = false ∧ x.halted = false ∧ (coreStrand x 0).live = true ∧ (coreStrand x 0).wait = .barrier ∧
       (coreStrand x 0).released = false ∧ (coreStrand x 1).live = false ∧ (coreStrand x 2).live = false ∧ (coreStrand x 3).live = false ∧
       x.mq = [] ∧ x.cq = [] ∧ x.sq = [] ∧ x.vq = []) ∧
      canCClose tDone (getRegion tDone 0) 0 = true ∧ (∀ p ∈ livePkgs (getRegion tDone 0), p = 0 ∨ p ∈ (getRegion tDone 0).closed) ∧
      (let y := tG (fun r => { r with rcb := { r.rcb with pkgMask := 3 } }) tDone
       canCClose y (getRegion y 0) 0 = true ∧ 1 ∈ livePkgs (getRegion y 0) ∧ 1 ∉ (getRegion y 0).closed) ∧
      (let y := tG (fun r => { r with phase := .t }) tDone
       canTClose y (getRegion y 0) = true) := by decide +kernel

def tX2 (vote : Bool) (s : State) : State := tC (fun x => { x with vote := vote }) (tG (fun r => { r with phase := .x2 }) s)
def tDefer : DStore := { order := { phase := 0, agent := 0, run := 0, place := 0, sub := 0 }, core := 0, key := devKey 0 0, va := 0x4000000000000000, bytes := [1, 2] }

theorem wit_PhaseAndLockSteps_barrier :
    (let y := tG (fun r => { r with phase := .x1 }) tDone
     (getRegion y 0).state = .running ∧ (getRegion y 0).phase = .x1) ∧
      (let y := tC (fun x => { x with deferred := [tDefer] }) (tX2 false tDone)
       (getRegion y 0).state = .running ∧ (getRegion y 0).phase = .x2 ∧ nextDeferred y (heldCores y 0) = some tDefer ∧ Memory.wf y.mem = true) ∧
      (∀ v ∈ [true, false],
        canExit (tX2 v tDone) (getRegion (tX2 v tDone) 0) = true ∧ (getRegion (tX2 v tDone) 0).abortDue = false ∧ (getRegion (tX2 v tDone) 0).killReq = false ∧
          (getRegion (tX2 v tDone) 0).xlog = [] ∧ (getRegion (tX2 v tDone) 0).guards = [] ∧ (getRegion (tX2 v tDone) 0).restarts = [] ∧
          (getRegion (tX2 v tDone) 0).launch.isSome ∧ ∀ c ∈ heldCores (tX2 v tDone) 0, (getCore (tX2 v tDone) c).vote = v) := by decide +kernel

/-- Two transactions on one tile: the first holds it. -/
def tReqAt (excl : Bool) (st : ReqStatus) : LockReq := { tReq excl with status := st }
def tTwo (st : ReqStatus) (excl : Bool) : State :=
  tG (fun r => { r with
    phase := .t
    txns := [{ tTxn true .running with reqs := [tReqAt excl .pushed], permits := 0 },
             { tTxn true .numbered with num := 1, reqs := [tReqAt excl st], holds := true, permit := 1 }] }) tTx

theorem wit_PhaseAndLockSteps_locks :
    (let y := tTwo .issued true
     let r := getRegion y 0
     ∃ t, findTxn r 1 = some t ∧ t.reqs[0]? = some (tReqAt true .issued) ∧ canEnqueue y r t 0 = true) ∧
    (∀ e ∈ [true, false],
      (let r := getRegion (tTwo .queued e) 0
       ((findTxn r 1).bind fun t => t.reqs[0]?) = some (tReqAt e .queued) ∧
         (r.txns.all fun v => 1 ≤ v.num || v.reqs.all fun p => p.tile ≠ tDie || p.status = .removed || (!e && !p.excl)) = !e)) ∧
    (let y := tTwo .granted true
     let r := getRegion y 0
     ∃ t, findTxn r 1 = some t ∧ t.reqs[0]? = some (tReqAt true .granted) ∧ canPush y r t 0 = true ∧ (tReqAt true .granted).tile.die = true ∧
       blockOffset (getCore y t.core) t + 0 + 4096 ≤ 2 ^ 18 ∧
       Memory.wf y.mem = true ∧ r.classes = []) := by
  refine ⟨⟨_, rfl, by decide +kernel, by decide +kernel⟩, by decide +kernel, ⟨_, rfl, by decide +kernel⟩⟩

theorem wit_PhaseAndLockSteps_dispatch :
    (let y := tG (fun r => { r with phase := .t, txns := [tTxn true .landed] }) tTx
     let r := getRegion y 0
     findTxn r 0 = some (tTxn true .landed) ∧ canDispatch y r (tTxn true .landed) = true ∧ (tTxn true .landed).desc.chks = [] ∧
       (imageOf r).bodies[(tTxn true .landed).desc.body]? = some { routine := 0, bentry := 0, prologue := none }) := by decide +kernel

/-- A plan entry by its four words. -/
def tEntry (w0 w1 w2 w3 : Word) (st : PlanStatus) : PlanEntry :=
  { w0 := w0, w1 := w1, w2 := w2, w3 := w3, status := st, applied := 0, staged := [], flits := 0 }
/-- A `SENDC` of 16,777,216 bytes from the scratchpad does not fit it; one of 524,288 does. -/
def tSendc : PlanEntry := tEntry 0x00080000000FFF02 0x1000000000000000 0x3000000000002000 0 .waiting
def tSendf : PlanEntry := tEntry 0x00000040000FFF01 0x2000 0x3000000000002000 0 .waiting
/-- A `REDUCE` of 32 bytes at 0x2000, one stage, with `INIT`. -/
def tReduce (st : PlanStatus) : PlanEntry := tEntry 0x00000020000FFF14 0 0x2000 0x2001000000000000 st
/-- A window of 64 bytes at 0x2000. -/
def tWindow : PlanEntry := tEntry 0x00000040000FFF03 0 0x2000 0 .complete
def tPlan (l : List PlanEntry) : State := tC (fun x => { x with plan := l }) (tX2 false tDone)

theorem wit_ExchangeStepsRun_send :
    (getCore (tPlan [tReduce .waiting]) 0).region = some 0 ∧ (getRegion? (tPlan [tReduce .waiting]) 0).isSome ∧
      (getCore (tPlan [tReduce .waiting]) 0).plan[0]? = some (tReduce .waiting) ∧
      canStart (tPlan [tReduce .waiting]) 0 0 = true ∧ isReduce (tReduce .waiting) = true ∧
      (let s := tPlan [tSendc]
       canStart s 0 0 = true ∧ entKind tSendc = 2 ∧ entFlag tSendc = false ∧ entDi tSendc = false ∧ (getRegion s 0).xlog = [] ∧ s.doubts = [] ∧
         (getCore s 0).plan[0]? = some tSendc ∧ (∀ j, j < 0 → classAt (getRegion s 0) j ≠ 2) ∧ (getRegion s 0).classes = [] ∧ entLen tSendc ≤ 16777216 ∧ entLen tSendc % 8 = 0 ∧ fieldOf tSendc.w1 63 60 ≠ 0 ∧ fieldOf tSendc.w1 59 0 + entLen tSendc ≤ 2 ^ 19 ∧
         destOk s (getRegion s 0) 0 tSendc.w2 = true) ∧
      canFlit (tPlan [tSendf]) 0 0 0 = true ∧ (tPlan [tSendf]).doubts = [] ∧ (getRegion (tPlan [tSendf]) 0).xlog = [] ∧
      (getRegion (tPlan [tSendf]) 0).classes = [] ∧ destOk (tPlan [tSendf]) (getRegion (tPlan [tSendf]) 0) 0 tSendf.w2 = true := by decide +kernel

def tXfer (n : Nat) (red : Option (Nat × Nat)) (st : XferStatus) : Xfer :=
  { src := 0, entry := 0, dst := 0x3000000000002000, bytes := List.replicate n 5, red := red, charge := n + 64, last := true, total := n,
    status := st, parked := none }
def tNet (l : List PlanEntry) (x : Xfer) : State := tG (fun r => { r with xfers := [x] }) (tPlan l)

theorem wit_ExchangeStepsRun_receive :
    (getRegion (tNet [] (tXfer 64 none .inFlight)) 0).xfers[0]? = some (tXfer 64 none .inFlight) ∧
      (let s := tNet [] (tXfer 64 none .inFlight)
       canReceive s (getRegion s 0) 0 = true ∧ fieldOf (tXfer 64 none .inFlight).dst 63 60 = 3 ∧ (getCore s (destCore (tXfer 64 none .inFlight).dst)).region = some 0 ∧ (tXfer 64 none .inFlight).total ≠ 0 ∧
         windowOf (getCore s 0) (fieldOf (wholeDest s (tXfer 64 none .inFlight)) 17 0) 64 = none) ∧
      (let s := tNet [tWindow] (tXfer 64 none .inFlight)
       canReceive s (getRegion s 0) 0 = true ∧ windowOf (getCore s 0) (fieldOf (wholeDest s (tXfer 64 none .inFlight)) 17 0) 64 = some tWindow ∧
         entFlag tWindow = false ∧ Memory.wf s.mem = true ∧ (getRegion s 0).classes = []) ∧
      (tXfer 64 none .done).status = .done ∧ (tXfer 64 none .refused).status = .refused := by decide +kernel

theorem wit_ExchangeStepsRun_combine :
    (let s := tNet [] (tXfer 32 (some (0, 0)) .inFlight)
     canApply s (getRegion s 0) 0 = true ∧ reduceIndex (getCore s 0) 0 = none) ∧
      (let s := tNet [tReduce .sent] (tXfer 32 (some (0, 0)) .inFlight)
       canApply s (getRegion s 0) 0 = true ∧ reduceIndex (getCore s 0) 0 = some (0, tReduce .sent) ∧ entLen (tReduce .sent) = 32 ∧
         fieldOf (tXfer 32 (some (0, 0)) .inFlight).dst 17 0 = (tReduce .sent).w2.toNat ∧ 0 < entStage (tReduce .sent) ∧
         (tReduce .sent).status = .sent ∧ (tReduce .sent).applied = 0 ∧ (tReduce .sent).staged = [] ∧ entFlag (tReduce .sent) = true ∧
         Memory.wf s.mem = true ∧ (getRegion s 0).classes = []) ∧
      (let s := tPlan [tReduce .sent]
       inXPhase (getRegion s 0) = true ∧ xQuiet s 0 = true ∧ 0 ∈ heldCores s 0 ∧ lacking (tReduce .sent) = true ∧
         tReduce .sent ∈ (getCore s 0).plan ∧ ∀ c ∈ heldCores s 0, ∀ p ∈ (getCore s c).plan, forgone s 0 c p = false) ∧
      (let s := tG (fun r => { r with abortDue := true }) (tPlan [tReduce .sent])
       inXPhase (getRegion s 0) = true ∧ xQuiet s 0 = true ∧ 0 ∈ heldCores s 0 ∧ (getCore s 0).plan[0]? = some (tReduce .sent) ∧
         lacking (tReduce .sent) = true ∧ forgone s 0 0 (tReduce .sent) = true) := by decide +kernel

/-! ### Witnesses: queues, packets, debug -/

/-- Queue 3 of package 0. -/
def tQ (f : Queue → Queue) (s : State) : State := modQueue s 0 3 f

theorem wit_TailValuesMoveForward :
    (let s := tQ (fun q => { q with cfg := 0x301, head := 0xFFFFFFFE, tail := 0xFFFFFFFF }) State.reset
     (getQueue s 0 3).cfg.getLsbD 1 = false ∧ (getQueue s 0 3).cfg.getLsbD 0 = true ∧
       ¬((3#32).toNat + 2 ^ 32 - (getQueue s 0 3).tail.toNat) % 2 ^ 32 = 0 ∧
       ¬8 < ((3#32).toNat + 2 ^ 32 - (getQueue s 0 3).tail.toNat) % 2 ^ 32 ∧ ¬8 < ((3#32).toNat + 2 ^ 32 - (getQueue s 0 3).head.toNat) % 2 ^ 32 ∧
       8 < ((7#32).toNat + 2 ^ 32 - (getQueue s 0 3).head.toNat) % 2 ^ 32) ∧
      (getPackage (modPackage State.reset 0 fun p => { p with doorbells := [(3, 1)] }) 0).doorbells = (3, 1#32) :: [] ∧
      (getQueue State.reset 0 3).cfg.getLsbD 0 = false ∧ (getPackage State.reset 0).doorbells = [] ∧
      (getQueue (tQ (fun q => { q with cfg := 0x303 }) State.reset) 0 3).cfg.getLsbD 1 = true := by decide +kernel

theorem wit_QueuesEnableClaimAndIssue_registers :
    (getQueue State.reset 0 255).cfg.getLsbD 0 = false ∧ (0x301#64).getLsbD 0 = true ∧
      (let s := tQ (fun q => { q with base := 0x4000000000001000 }) State.reset
       3 ≤ fieldOf (0x301#64 &&& 0x000FFFFF00001F03#64) 12 8 ∧ fieldOf (0x301#64 &&& 0x000FFFFF00001F03#64) 12 8 ≤ 16 ∧
         cpOk (getQueue s 0 3).base = true ∧ (getQueue s 0 3).base.toNat % 4096 = 0 ∧ (getPackage s 0).enabled = true ∧ (getQueue s 0 3).mirror = 0#64) ∧
      ¬3 ≤ fieldOf (0x201#64 &&& 0x000FFFFF00001F03#64) 12 8 ∧
      (getQueue (tQ (fun q => { q with cfg := 0x301 }) State.reset) 0 3).cfg.getLsbD 0 = true ∧ (0x300#64).getLsbD 0 = false ∧
      (getQueue (tQ (fun q => { q with cfg := 0x301 }) State.reset) 0 3).held = none ∧
      (getQueue (tQ (fun q => { q with cfg := 0x301 }) State.reset) 0 3).indirect = none ∧
      (let q := { Queue.reset with cfg := 0x301, head := 0, claim := 7 }
       (((q.claim + 1).setWidth 32 : BitVec 32) - q.head).toNat ≤ 2 ^ fieldOf q.cfg 12 8 ∧
         ¬(((q.claim + 2).setWidth 32 : BitVec 32) - q.head).toNat ≤ 2 ^ fieldOf q.cfg 12 8) := by decide +kernel

/-- The host has translated a page of PASID 0, and lets it be written or not. -/
def tAts (page : Nat) (write : Bool) (s : State) : State :=
  modPackage s 0 fun p => { p with ats := [{ pasid := 0, page := page, read := true, write := write, granted := true }] }
def tMirror (a : Word) (s : State) : State := tQ (fun q => { q with base := 0x4000000000001000, mirror := a }) s

/-- Mirrors in device memory, at a translated page of the host, and at one that is not; then one that is due. -/
theorem wit_QueuesEnableClaimAndIssue_mirror :
    (∀ x ∈ [(tMirror 0x4000000000002000 State.reset, devKey 0 0x2000), (tAts 5 true (tMirror 0x7000000000005000 State.reset), hostKey 0x5000)],
      (getQueue x.1 0 3).cfg.getLsbD 0 = false ∧ cpOk (getQueue x.1 0 3).base = true ∧ (getPackage x.1 0).enabled = true ∧
        (getQueue x.1 0 3).mirror ≠ 0#64 ∧ cpMissing (getPackage x.1 0) 0 [((getQueue x.1 0 3).mirror, 8, true)] = none ∧
        cpRefused (getPackage x.1 0) 0 [((getQueue x.1 0 3).mirror, 8, true)] = false ∧ cpKey? 0 (getQueue x.1 0 3).mirror = some x.2 ∧
        Memory.wf x.1.mem = true) ∧
      (let s := tMirror 0x7000000000005000 State.reset
       (getQueue s 0 3).cfg.getLsbD 0 = false ∧ (cpMissing (getPackage s 0) 0 [((getQueue s 0 3).mirror, 8, true)]).isSome) ∧
      (let s := tAts 5 true (tQ (fun q => { q with cfg := 0x301, mirrorDue := true }) (tMirror 0x7000000000005000 State.reset))
       (getQueue s 0 3).cfg.getLsbD 0 = true ∧ (getPackage s 0).enabled = true ∧ 0#20 ∉ (getPackage s 0).torn ∧ (getQueue s 0 3).mirrorDue = true ∧
         (getQueue s 0 3).mirror ≠ 0#64 ∧ cpMissing (getPackage s 0) 0 [((getQueue s 0 3).mirror, 8, true)] = none ∧
         cpRefused (getPackage s 0) 0 [((getQueue s 0 3).mirror, 8, true)] = false ∧ cpKey? 0 (getQueue s 0 3).mirror = some (hostKey 0x5000) ∧
         Memory.wf s.mem = true) ∧
      (getQueue (tQ (fun q => { q with cfg := 0x301, held := some (readPacket [] 0 0 3 0 false) }) State.reset) 0 3).held ≠ none := by decide +kernel

/-- A completion record in device memory, and one at a translated page of the host. -/
theorem wit_QueuesEnableClaimAndIssue_record :
    ∀ x ∈ [(0x4000000000002000#64, devKey 0 0x2000), (0x7000000000005020#64, hostKey 0x5020)],
      (let s := tAts 5 true (tQ (fun q => { q with cfg := 0x301 }) State.reset)
       x.1 ≠ 0#64 ∧ cpKey? 0 x.1 = some x.2 ∧ (getPackage s 0).torn = [] ∧ noticeDue s x.1 = false ∧
         cpMissing (getPackage s 0) 0 [(x.1, 32, true)] = none ∧ cpRefused (getPackage s 0) 0 [(x.1, 32, true)] = false ∧
         Memory.wf s.mem = true) := by decide +kernel

/-- A `NOP` in slot 0 of an enabled queue, stamped or not. -/
def tSlot (stamp : Nat) : State :=
  { tQ (fun q => { q with cfg := 0x301, base := 0x4000000000001000, tail := 1 }) State.reset with mem := memPut [] (devKey 0 0x1038) 4 stamp }

theorem wit_QueuesEnableClaimAndIssue_issue :
    (∀ n ∈ [0, 1],
      (getQueue (tSlot n) 0 3).cfg.getLsbD 0 = true ∧ (getPackage (tSlot n) 0).torn = [] ∧ (getPackage (tSlot n) 0).enabled = true ∧ (getQueue (tSlot n) 0 3).indirect = none ∧
        (getQueue (tSlot n) 0 3).held = none ∧ (getQueue (tSlot n) 0 3).stopping = false ∧ (getQueue (tSlot n) 0 3).mirrorDue = false ∧
        (getQueue (tSlot n) 0 3).head ≠ (getQueue (tSlot n) 0 3).tail ∧
        cpKey? 0 ((getQueue (tSlot n) 0 3).base + BitVec.ofNat 64 (64 * ((getQueue (tSlot n) 0 3).head.toNat % 2 ^ fieldOf (getQueue (tSlot n) 0 3).cfg 12 8)))
          = some (devKey 0 0x1000)) ∧
      memNat (tSlot 0).mem (devKey 0 0x1000 + 0x38) 4 ≠ (0 + 1) % 2 ^ 32 ∧ memNat (tSlot 1).mem (devKey 0 0x1000 + 0x38) 4 = (0 + 1) % 2 ^ 32 ∧
      mayIssue (getQueue (tSlot 1) 0 3) (readPacket (tSlot 1).mem (devKey 0 0x1000) 0 3 0 false) = true ∧
      (let p := readPacket (tSlot 1).mem (devKey 0 0x1000) 0 3 0 false
       cpMissing (getPackage (tSlot 1) 0) 0 (packetNeeds (tSlot 1).mem p ++ if (getQueue (tSlot 1) 0 3).mirror = 0#64 then [] else [((getQueue (tSlot 1) 0 3).mirror, 8, true)]) = none ∧
         cpRefused (getPackage (tSlot 1) 0) 0 (packetNeeds (tSlot 1).mem p) = false ∧
         fieldOf ((getQueue (tSlot 1) 0 3).base + BitVec.ofNat 64 (64 * (0 % 8))) 63 60 ≠ 7) ∧
      Memory.wf (tSlot 1).mem = true ∧ cpKey? 0 0x4000000000002000 = some (devKey 0 0x2000) ∧ (0x4000000000002000#64 ≠ 0#64) ∧ (0x13 < 2 ^ 64) := by
  decide +kernel

/-- A packet of queue 3 with its arguments. -/
def tPkt (d3 d4 d5 : Word) : Packet :=
  { pkg := 0, q := 3, num := 9, indirect := false, d0 := 0, d1 := 0, d2 := 0, d3 := d3, d4 := d4, d5 := d5, d6 := 0, d7 := 0 }
/-- A block at device memory 0x3000 names the region. -/
def tBlock (s : State) : State := tG (fun r => { r with rcb := { r.rcb with key := devKey 0 0x3000 } }) s

theorem wit_PacketsTakeEffect_plain :
    packetFormOk [] (tPkt 0 0 0) = true ∧ (tPkt 0 0 0).d3 = 0#64 ∧ (tPkt 1 0 0).d3 ≠ 0#64 ∧ packetFormOk [] (tPkt 1 0 0) = true ∧
      (tPkt 0 0 0).indirect = false ∧
      (packetFormOk [] (tPkt 0x4000000000000008 7 0) = true ∧ cpKey? 0 0x4000000000000008 = some (devKey 0 8) ∧ (0x4000000000000008#64).toNat % 8 = 0) ∧
      (packetFormOk [] (tPkt 0x4000000000000040 0x100000 0) = true ∧ cpOk 0x4000000000000040 = true ∧ (0x4000000000000040#64).toNat % 64 = 0 ∧
        (0x100000#64).toNat % 64 = 0 ∧ (0x100000#64).toNat ≤ 2 ^ 20) ∧
      (packetFormOk [] (tPkt 0x4000000000003000 0 0) = true ∧ cpOk 0x4000000000003000 = true ∧ findRcb tS 0 0x4000000000003000 = none) := by
  decide +kernel

theorem wit_PacketsTakeEffect_regions :
    (let s := tBlock tS
     let r := getRegion s 0
     findRcb s 0 0x4000000000003000 = some r ∧ getRegion? s 0 = some r ∧ subtreeLaunches s 0 = [r] ∧ r.launch.isSome ∧ r.state = .running ∧
       recoveryOf r = false ∧ heldCores s 0 ≠ []) ∧
      (let s := tG (fun r => { r with launch := some { placedLaunch with recovery := true } }) (tBlock tS)
       (getRegion s 0).state = .running ∧ recoveryOf (getRegion s 0) = true ∧ subtreeLaunches s 0 = [getRegion s 0]) ∧
      (let s := tG (fun r => { r with state := .idle, launch := none }) (tBlock tS)
       subtreeLaunches s 0 = [] ∧ s.waits = [] ∧ findRcb s 0 0x4000000000003000 = some (getRegion s 0)) ∧
      (let s := tG (fun r => { r with state := .suspended }) (tBlock tS)
       findRcb s 0 0x4000000000003000 = some (getRegion s 0) ∧ (getRegion s 0).state ≠ .running) := by decide +kernel

theorem wit_PacketsTakeEffect_hosttx :
    (let s := tBlock tTx
     let r := getRegion s 0
     let p := tPkt 0x4000000000003000 0x4000000000004000 0x0000000100000000
     ∃ l, r.launch = some l ∧ cpKey? 0 p.d4 = some (devKey 0 0x4000) ∧ fieldOf p.d5 31 16 = 0 ∧ findRcb s 0 p.d3 = some r ∧
       getRegion? s 0 = some r ∧ hasLaunch r = true ∧ inCoreSet r.rcb 0 = true ∧
       (let s0 := acquire p (modQueue s 0 3 fun qu => { qu with outstanding := qu.outstanding ++ [p.num] })
        findRcb s0 0 p.d3 = some r ∧
          checkDescriptor (asHeld s0 r 0) 0 (coreEntry l.image l.variants r.rcb 0).1 true (readBytes s.mem (devKey 0 0x4000) 328) = none ∧
          (checkDescriptor (asHeld s0 r 0) 0 (coreEntry l.image l.variants r.rcb 0).1 true (List.replicate 328 0xFF#8)).isSome) ∧
       0 ∉ r.abortedPkgs ∧ hosttxLate r 0 1#64 = false ∧ frontShare r 0 1#64 < 1024 ∧
       hosttxLate { r with observed := [(0, 2)] } 0 1#64 = true) := ⟨_, rfl, by decide +kernel⟩

/-- A block of 256 bytes for region 5: package 0, cluster 0, all fields its own, a context buffer large enough. -/
def tRcbMem : Memory :=
  memPut (memPut (memPut (memPut (memPut [] (devKey 0 0x3000) 2 5) (devKey 0 0x3002) 2 0xFFFF) (devKey 0 0x3004) 1 0x1F) (devKey 0 0x3008) 8 1)
    (devKey 0 0x3040) 8 (2 ^ 24)

theorem wit_PacketsTakeEffect_register :
    (let s := { State.reset with mem := tRcbMem }
     let s0 := modQueue s 0 3 fun qu => { qu with outstanding := qu.outstanding ++ [9] }
     let k := devKey 0 0x3000
     packetFormOk s.mem (tPkt 0x4000000000003000 0 0) = true ∧ cpKey? 0 0x4000000000003000 = some k ∧ fieldOf 0x4000000000003000#64 63 60 = 4 ∧
       (0x4000000000003000#64).toNat % 256 = 0 ∧ rcbReservedOk s.mem k = true ∧ memNat s.mem (k + 2) 2 = 0xFFFF ∧
       (readRcb s.mem k none).id ≠ 0xFFFF ∧ rcbOk s0 (readRcb s.mem k none) none 1 = true ∧ idFree s0 (readRcb s.mem k none) none = true ∧
       findRcb s0 0 0x4000000000003000 = none ∧ s0.regions = []) := by
  decide +kernel

theorem wit_DebugAndRegisterWritesTakeEffect :
    (getPackage State.reset 0).enabled = true ∧ (getPackage (modPackage State.reset 0 fun p => { p with enabled := false }) 0).enabled = false ∧
      (regionIn tS 0 0).isSome ∧ regionIn State.reset 0 0 = none ∧
    (let p (v : Word) : Package := { Package.reset 0 with dbgArg1 := v }
     (p 0x81F).dbgArg1.toNat = 0x800 + (31 : Fin 32) ∧ (p 0x050).dbgArg1.toNat < 0x800 ∧ (p 0x050).dbgArg1.toNat ≠ 0x071 ∧
       selKnown (BitVec.ofNat 12 (p 0x050).dbgArg1.toNat) = true ∧ 0xE1E ≤ (p 0xE1E).dbgArg1.toNat) ∧
      Memory.wf State.reset.mem = true ∧ (getRegion? tS (fieldOf 0#64 15 0)).isSome ∧ (255 < 256) := by decide +kernel

/-! ### Witnesses: translation, pre-emption, recovery -/

/-- One record on its way to a buffer of 128. -/
def tRec : FaultRec := { va := 0x10000, core := 0, agent := 0, region := 0, kind := 0, lvl := 4, gen := 0 }
def tPk (f : Package → Package) : State := modPackage State.reset 0 f

theorem wit_TranslationServicesTakeEffect :
    (let s := tPk fun p => { p with inflight := [tRec], fbSize := 7 }
     (getPackage s 0).inflight = tRec :: [] ∧ tRec.gen = (getPackage s 0).faultGen ∧ (tRec.region, fieldOf tRec.va 47 16) ∉ (getPackage s 0).kept ∧
       fbUsed (getPackage s 0) < fbSlots (getPackage s 0) ∧ Memory.wf s.mem = true) ∧
      (let s := tPk fun p => { p with inflight := [tRec], fbSize := 7, fbTail := 128 }
       fbSlots (getPackage s 0) ≤ fbUsed (getPackage s 0)) ∧
      (let s := tPk fun p => { p with inflight := [tRec], faultGen := 1 }
       tRec.gen ≠ (getPackage s 0).faultGen) ∧
      (getPackage State.reset 0).enabled = true ∧ State.reset.waits = [] ∧ (0 + 8 ≤ Config.hbmBytes) ∧ ((0#20, 2) ∈ (getPackage (tPk fun p => { p with pri := [(0, 2)] }) 0).pri) ∧
      (0#20 ∉ (getPackage State.reset 0).torn) ∧ (2 ^ 57 - 8 + [0#8].length ≤ 2 ^ 57) ∧
      (∀ r ∈ State.reset.regions, hasLaunch r = false) ∧
      (let s := tQ (fun q => { q with cfg := 0x301, status := 1 }) State.reset
       (3, getQueue s 0 3) ∈ (getPackage s 0).queues ∧ (getQueue s 0 3).cfg.extractLsb' 32 20 = 0#20 ∧ (getQueue s 0 3).status ≠ 0x00#8) := by
  decide +kernel

/-- A pending launch; a region asked to give way, with handlers; one whose strand has parked; one that waits to resume. -/
def tPend : State := tG (fun r => { r with state := .pending }) { tS with cores := [] }
def tAsked : State := tHandlers (tG (fun r => { r with preemptReq := true }) tS)
def tParked : State := tC (fun x => { x with taken := true }) (modMe (tG (fun r => { r with preempting := true }) tS) fun t => { t with wait := .parked })
def tOut : State := tG (fun r => { r with state := .suspended }) { tS with cores := [] }
/-- A second region runs on the same cores with a lower priority. -/
def tOther (s : State) : State :=
  { s with regions := s.regions.map (fun r => { r with rcb := { r.rcb with prio := 1 } }) ++
      [{ placedRegion with rcb := { placedRcb with id := 1 } }] }
/-- A kill waits: the region runs, or does not. -/
def tKill (st : RegionState) : State := tG (fun r => { r with killReq := true, state := st }) tS

def pinned (s : State) : Bool :=
  let r := getRegion s 0
  match r.launch with
  | some l => isOk (pinAll l.image r.rcb l.variants (pinJobs r.rcb r.code) s)
  | none => false

theorem wit_PreemptionPowerAndRecoveryRun_preempt :
    (mayStart tPend (getRegion tPend 0) = true ∧ (getRegion tPend 0).launch.isSome ∧ inTheWay tPend (getRegion tPend 0) = [] ∧ pinned tPend = true) ∧
      (let s := tOther tPend
       (getRegion s 0).state = .pending ∧ (getRegion s 0).launch.isSome ∧ inTheWay s (getRegion s 0) ≠ [] ∧ displaced s (getRegion s 0) ≠ []) ∧
      (∀ st ∈ [RegionState.running, .suspended], canKill (tKill st) (getRegion (tKill st) 0) = true ∧ (getRegion (tKill st) 0).launch.isSome) ∧
      (canKill tAsked (getRegion tAsked 0) = false ∧ canSpill tAsked (getRegion tAsked 0) = false ∧ takers tAsked (getRegion tAsked 0) = [0] ∧
        (heldCores tAsked 0).Nodup ∧ handlerAddr (getCore tAsked 0) 1 ≠ 0 ∧
        ∀ n : Fin 4, entryFits (getCore tAsked 0) (coreStrand (getCore tAsked 0) n) cPreempt = true) ∧
      (canKill tParked (getRegion tParked 0) = false ∧ canSpill tParked (getRegion tParked 0) = true) ∧
      (mayResume tOut (getRegion tOut 0) = true ∧ inTheWay tOut (getRegion tOut 0) = []) ∧
      (mayResume (tOther tOut) (getRegion (tOther tOut) 0) = true ∧ inTheWay (tOther tOut) (getRegion (tOther tOut) 0) ≠ [] ∧
        displaced (tOther tOut) (getRegion (tOther tOut) 0) ≠ []) ∧
      ((getRegion tAsked 0).state = .running ∧ (getRegion tAsked 0).launch.isSome ∧ (getRegion tAsked 0).preemptReq = true) ∧
      (let s := tG (fun r => { r with preempting := true }) tS
       (getRegion s 0).state = .running ∧ (getRegion s 0).preempting = true ∧ allParked s 0 = false) := by decide +kernel

/-- A recovery point of superstep 4 in package 0's safe tier, of a launch that takes them. -/
def tPoint (valid : Bool) : RecPoint :=
  { num := 1, valid := valid, superstep := 4, mem := [], cores := [], restarts := [], votedEnd := false, hostKept := [] }
def tRecov (restores : Nat) : State :=
  modPackage (tG (fun r => { r with launch := some { placedLaunch with recovery := true }, restores := restores }) tS) 0 fun p =>
    { p with safe := some (0, tPoint true) }

theorem wit_PreemptionPowerAndRecoveryRun_recover :
    (getPackage tS 0).enabled = true ∧ (getPackage (modPackage tS 0 fun p => { p with enabled := false }) 0).enabled = false ∧
      recPointOf (tRecov 2) (getRegion (tRecov 2) 0) = some (tPoint true) ∧ affected State.reset [0] = [] ∧ affected State.reset [0, 1] = [] ∧
      affected (tRecov 2) [0] = [getRegion (tRecov 2) 0] ∧ getRegion? (tRecov 2) 0 = some (getRegion (tRecov 2) 0) ∧
      (getRegion (tRecov 2) 0).launch.isSome ∧ rollbackPoint (tRecov 2) (getRegion (tRecov 2) 0) = some (tPoint true) ∧
      (affected (tRecov 3) [0] = [getRegion (tRecov 3) 0] ∧ rollbackPoint (tRecov 3) (getRegion (tRecov 3) 0) = none) ∧
      affected tS [0] = [getRegion tS 0] ∧ rollbackPoint tS (getRegion tS 0) = none ∧
      pkgOfCore 65535 = 0 ∧ spaceOf (devKey 0 0) = 3 ∧ devKey 0 0 % 2 ^ 60 / 2 ^ 46 = 0 ∧ spaceOf (tcmKey 65535 0) = 0 ∧
      tcmKey 65535 0 / 2 ^ 18 / 65536 = 0 ∧
      (let s := setStrand (tC (fun x => { x with slotRun := 64 }) tS) 0 2 { Strand.idle with live := true }
       64 ≤ (getCore s 0).slotRun ∧ (2 : Fin 4) ≠ 0 ∧ canIssue s 0 2 = true) ∧
      (∀ n : Fin 4, n ≠ 0 → canIssue tS 0 n = false) := by decide +kernel
/-- A program image of one generic variant and one routine of one word, at device memory 0x8000; the region's block at 0x3000. -/
def tImageMem : Memory :=
  let o := devKey 0 0x8000
  let put (m : Memory) (e : Nat × Nat × Nat) : Memory := memPut m (o + e.1) e.2.1 e.2.2
  [(0x000, 4, 0x534B4249), (0x004, 2, 3), (0x008, 8, 0x300 + 16608), (0x040, 4, 1), (0x044, 4, 0x100), (0x048, 4, 1), (0x04C, 4, 0x130),
    (0x074, 4, 0x300), (0x108, 4, 1), (0x10C, 4, 0x200), (0x130, 4, 0x280), (0x134, 4, 1), (0x138, 4, 0x1000), (0x140, 4, 0x2000),
    (0x150, 4, 0x10), (0x154, 4, 0x3FF), (0x280, 4, 0x81000000)].foldl put []
/-- The same with the digest of its bytes from 0x040 to the signature block (R67). -/
def tSignedMem : Memory := writeBytes tImageMem (devKey 0 0x8010) (sha384 (readBytes tImageMem (devKey 0 0x8040) 0x2C0))
def tLaunch : State := { tBlock (tG (fun r => { r with state := .idle, launch := none }) { tS with cores := [] }) with mem := tSignedMem }
def tLaunchPkt : Packet := tPkt 0x4000000000008000 0x4000000000003000 0

/-- With signatures that verify, the launch of the small image passes every other check; with no image there the signature check refuses
it whatever the keys. -/
theorem wit_PacketsTakeEffect_launch :
    launchArgsOk tLaunch.mem tLaunchPkt = true ∧ packetFormOk tLaunch.mem tLaunchPkt = true ∧
      imgLength tLaunch.mem (devKey 0 0x8000) = imgSigoff tLaunch.mem (devKey 0 0x8000) + 16608 ∧
      sha384 (readBytes tLaunch.mem (devKey 0 0x8040) 0x2C0) = readBytes tLaunch.mem (devKey 0 0x8010) 48 ∧
      (imgSigned tLaunch.mem ((cpKey? tLaunchPkt.pkg (pktA0 tLaunchPkt)).getD 0) = true →
        ∃ x, checkLaunch tLaunch tLaunchPkt = .ok x ∧ (getRegion? x.2.2.2 x.1).isSome = true) ∧
      launchArgsOk [] tLaunchPkt = true ∧ (∃ e, checkLaunch tS tLaunchPkt = .error e) := by
  refine ⟨by decide +kernel, by decide +kernel, by decide +kernel, by decide +kernel, fun h => ?_, by decide +kernel, ⟨(statSignature, 0#64), ?_⟩⟩
  · apply okIs_elim
    unfold checkLaunch
    simp only [h]
    decide +kernel
  · have h : imgSigned tS.mem ((cpKey? tLaunchPkt.pkg (pktA0 tLaunchPkt)).getD 0) = false := by
      have g : ¬imgLength tS.mem ((cpKey? tLaunchPkt.pkg (pktA0 tLaunchPkt)).getD 0) =
          imgSigoff tS.mem ((cpKey? tLaunchPkt.pkg (pktA0 tLaunchPkt)).getD 0) + 16608 := by decide +kernel
      simp [imgSigned, g]
    unfold checkLaunch
    simp only [h]
    rfl
end Sys2Proof.Tests
end

section
/-! PROOFS. Every step keeps every memory in canonical form (log entry 2; R4, R119, R121, R444): a lemma for each operation of the
state that says so of what it leaves, then one for each instruction, event and command, in the order of the model's files. An operation
that can stop is spoken of by what it leaves on either outcome (`Leaves`). -/

namespace Sys2Proof.Machine

open Sys2Proof.Safety

/-! ### What a computation that can stop leaves -/

/-- What a computation leaves: `P` of its answer, or `E` of its error. -/
def Leaves {ε α : Type} (E : ε → Prop) (P : α → Prop) : Except ε α → Prop
  | .ok a => P a
  | .error e => E e

/-- A check of a word stops it without a state: only an answer is to be spoken of. -/
abbrev Answers {ε α : Type} (P : α → Prop) : Except ε α → Prop := Leaves (fun _ => True) P

/-- An engine's work that stops hands back the state it has reached. -/
abbrev EngOk {ε α : Type} (P : α → Prop) : Except (ε × State) α → Prop := Leaves (fun e => MemoryOk e.2) P

/-- Where a step answers a state, its memories are canonical. -/
def NextOk : Out State → Prop
  | .next t => MemoryOk t
  | _ => True

theorem leaves_bind {ε α β : Type} {E : ε → Prop} {Q : α → Prop} {P : β → Prop} {x : Except ε α} {f : α → Except ε β}
    (hx : Leaves E Q x) (hf : ∀ a, Q a → Leaves E P (f a)) : Leaves E P (x >>= f) := by
  cases x with
  | ok a => exact hf a hx
  | error e => exact hx

theorem answers_any {ε α : Type} (x : Except ε α) : Answers (fun _ => True) x := by
  cases x <;> trivial

/-- A check that hands back no state comes before. -/
theorem answers_after {ε α β : Type} {P : β → Prop} {x : Except ε α} {f : α → Except ε β} (hf : ∀ a, Answers P (f a)) :
    Answers P (x >>= f) := leaves_bind (answers_any x) fun a _ => hf a

theorem memoryOk_of_ok {ε : Type} {E : ε → Prop} {x : Except ε State} {t : State} (hx : Leaves E MemoryOk x) (h : x = .ok t) : MemoryOk t := by
  subst h; exact hx

theorem memoryOk_of_ok_snd {ε α : Type} {E : ε → Prop} {x : Except ε (α × State)} {a : α} {t : State}
    (hx : Leaves E (fun a => MemoryOk a.2) x) (h : x = .ok (a, t)) : MemoryOk t := by
  subst h; exact hx

theorem memoryOk_of_error {ε α : Type} {P : α → Prop} {x : Except (ε × State) α} {e : ε} {t : State} (hx : EngOk P x)
    (h : x = .error (e, t)) : MemoryOk t := by
  subst h; exact hx

theorem leaves_ite {ε α : Type} {E : ε → Prop} {P : α → Prop} {c : Prop} [Decidable c] {x y : Except ε α} (hx : Leaves E P x)
    (hy : Leaves E P y) : Leaves E P (if c then x else y) := by
  split <;> assumption

/-- A check made in two ways, and what comes after either. -/
theorem answers_check {ε α β : Type} {P : β → Prop} {c : Prop} [Decidable c] {x y : Except ε α} {f : α → Except ε β}
    (hf : ∀ a, Answers P (f a)) : Answers P (if c then x >>= f else y >>= f) :=
  leaves_ite (answers_after hf) (answers_after hf)

theorem memoryOk_ite {c : Prop} [Decidable c] {s t : State} (hs : MemoryOk s) (ht : MemoryOk t) : MemoryOk (if c then s else t) := by
  split <;> assumption

theorem memoryOk_ite_snd {α : Type} {c : Prop} [Decidable c] {x y : α × State} (hx : MemoryOk x.2) (hy : MemoryOk y.2) :
    MemoryOk (if c then x else y).2 := by
  split <;> assumption

/-- An operation made in one case only. -/
theorem memoryOk_when {c : Prop} [Decidable c] {s t : State} (ht : MemoryOk s → MemoryOk t) (hs : MemoryOk s) :
    MemoryOk (if c then t else s) := memoryOk_ite (ht hs) hs

theorem memoryOk_when_snd {α : Type} {c : Prop} [Decidable c] {x y : α × State} (hx : MemoryOk y.2 → MemoryOk x.2) (hy : MemoryOk y.2) :
    MemoryOk (if c then x else y).2 := memoryOk_ite_snd (hx hy) hy

theorem nextOk_ite {c : Prop} [Decidable c] {o p : Out State} (ho : NextOk o) (hp : NextOk p) : NextOk (if c then o else p) := by
  split <;> assumption

theorem memoryOk_fst {α : Type} {t : State} {a : α} {x : State × α} (hx : x = (t, a)) (h : MemoryOk x.1) : MemoryOk t := by
  subst hx; exact h

theorem memoryOk_snd {α : Type} {t : State} {a : α} {x : α × State} (hx : x = (a, t)) (h : MemoryOk x.2) : MemoryOk t := by
  subst hx; exact h

theorem memoryOk_of_nextOk {o : Out State} {t : State} (ho : NextOk o) (h : o = .next t) : MemoryOk t := by
  subst h; exact ho

/-- A word keeps the form when its own effect does. -/
theorem nextOk_issueWord {i : Instr} {s : State} {f : State → Except Stop State} (hf : Answers MemoryOk (f s)) (h : MemoryOk s) :
    NextOk (issueWord i s f) := by
  cases ht : issueWord i s f with
  | next t => exact memoryOk_issueWord (fun u hu => memoryOk_of_ok hf hu) ht h
  | fault r => trivial
  | refused r => trivial

theorem memoryOk_noteReg_me {s : State} (sel : Nat) (write : Bool) (h : MemoryOk s) : MemoryOk (noteReg s sel write).1 :=
  memoryOk_noteReg _ _ _ _ h

/-! ### Operations that many instructions share -/

theorem memoryOk_freshV {s : State} (h : MemoryOk s) : MemoryOk (freshV s).2 :=
  memoryOk_of_same rfl rfl rfl h

theorem memoryOk_killEach {s : State} {status : Nat} {ids : List Nat} (h : MemoryOk s) : MemoryOk (killEach status ids s) :=
  memoryOk_finishWaits (memoryOk_foldl _ (fun _ _ h1 => memoryOk_killOne _ _ _ h1) _ _ h)

theorem memoryOk_crPut {s : State} {core : Nat} {n : Fin 4} {sel : Nat} {v : Word} (h : MemoryOk s) : MemoryOk (crPut s core n sel v) :=
  memoryOk_ite (memoryOk_modStrand _ _ _ h) (memoryOk_modCore _ _ h)

theorem nextOk_integer {s : State} {i : Instr} {d : BitVec 5} {f : State → Word} (h : MemoryOk s) : NextOk (integer i d f s) :=
  nextOk_issueWord (memoryOk_retire (memoryOk_writeS _ _ h)) h

theorem memoryOk_stoppedAt {s : State} {e : EngErr × State} (h : MemoryOk s) (he : MemoryOk e.2) : MemoryOk (stoppedAt s e) := by
  unfold stoppedAt
  split
  · exact he
  · exact h

theorem memoryOk_ldtLoad {s : State} {ps : List Place} (h : MemoryOk s) : MemoryOk (ldtLoad s ps).2 := by
  induction ps generalizing s with
  | nil => exact h
  | cons p ps ih => exact ih (memoryOk_loadAt _ _ _ h)

theorem memoryOk_deliverTo {s : State} {core : Nat} {ms : List Msg} (h : MemoryOk s) : MemoryOk (deliverTo s core ms).1 := by
  induction ms generalizing s with
  | nil => exact h
  | cons m ms ih =>
    unfold deliverTo
    dsimp only
    split
    · exact h
    · exact ih (memoryOk_modCore _ _ (memoryOk_ite (memoryOk_modRegionOf _ _ (fun _ hr => hr) (memoryOk_mem (Memory.wf_writeGuarded _ _ _ _ h.1) h))
        (memoryOk_mem (Memory.wf_writeGuarded _ _ _ _ h.1) h)))

theorem memoryOk_spoilReg {s : State} {core sel : Nat} (h : MemoryOk s) : MemoryOk (spoilReg s core sel) :=
  memoryOk_modCore _ _ (memoryOk_freshV h)

theorem memoryOk_noteRegs {s : State} {sels : List (Nat × Bool)} (h : MemoryOk s) : MemoryOk (noteRegs s sels) := by
  unfold noteRegs
  refine memoryOk_foldl _ (fun _ _ h1 => ?_) _ _ h
  split
  · next _ _ heq => exact memoryOk_spoilReg (memoryOk_fst heq (memoryOk_noteReg_me _ _ h1))
  · next _ _ heq => exact memoryOk_fst heq (memoryOk_noteReg_me _ _ h1)

theorem answers_issueCommand {s : State} {e : Engine} {i : Instr} {sels : List (Nat × Bool)} {a b c : Word} {start : Vector Nat 5} {resumed : Bool}
    (h : MemoryOk s) : Answers MemoryOk (issueCommand s e i sels a b c start resumed) :=
  leaves_ite trivial (leaves_ite (memoryOk_retire (memoryOk_ite (memoryOk_modMe _ (memoryOk_dispatch _ _ (memoryOk_noteRegs h)))
    (memoryOk_dispatch _ _ (memoryOk_noteRegs h)))) (leaves_ite trivial
      (memoryOk_retire (memoryOk_modMyCore _ (memoryOk_nextOrder _ _ (memoryOk_dispatch _ _ (memoryOk_noteRegs h)))))))

theorem engOk_cmdRead {s : State} {sub : AccErr → Nat} {core : Nat} {c : Cmd} {va : Word} {n al : Nat} (h : MemoryOk s) :
    EngOk (fun a => MemoryOk a.2) (cmdRead sub core c va n al s) := by
  unfold cmdRead
  split
  · exact h
  · exact memoryOk_loadAt _ _ _ h

theorem engOk_cmdWrite {s : State} {sub : AccErr → Nat} {limit core : Nat} {c : Cmd} {k : Nat} {va : Word} {bs : List Byte} {al : Nat}
    (h : MemoryOk s) : EngOk MemoryOk (cmdWrite sub limit core c k va bs al s) := by
  unfold cmdWrite
  dsimp only
  split
  · exact h
  · split
    · split
      · next _ _ heq => exact memoryOk_deferStore heq h
      · exact h
    · exact memoryOk_storeAt _ _ _ _ h

theorem memoryOk_completionWrite {s : State} {core : Nat} {c : Cmd} {operand : Word} {clock : Clock} {any : Bool} (h : MemoryOk s) :
    MemoryOk (completionWrite s core c operand clock any) :=
  memoryOk_ite h (memoryOk_noteHandoff _ _ (memoryOk_storeAt _ _ _ _ h))

theorem memoryOk_settleCmd {s : State} {core : Nat} {e : Engine} {c : Cmd} {st : RingState} {sub : Nat} (h : MemoryOk s) :
    MemoryOk (settleCmd s core e c st sub) :=
  memoryOk_modStrand _ _ _ (memoryOk_modCore _ _ h)

theorem memoryOk_completeCmd {s : State} {core : Nat} {e : Engine} {c : Cmd} (h : MemoryOk s) : MemoryOk (completeCmd s core e c) :=
  memoryOk_settleCmd h

theorem memoryOk_faultCmd {s : State} {core : Nat} {e : Engine} {c : Cmd} {sub : Nat} {faddr : Word} {acc : Nat} (h : MemoryOk s) :
    MemoryOk (faultCmd s core e c sub faddr acc) :=
  memoryOk_modStrand _ _ _ (memoryOk_foldl _ (fun _ _ h1 => memoryOk_settleCmd h1) _ _ (memoryOk_settleCmd h))

theorem memoryOk_postRecord {s : State} {pkg core agent region kind lvl : Nat} {va : Word} (h : MemoryOk s) :
    MemoryOk (postRecord s pkg core agent region kind lvl va) :=
  memoryOk_modPackage _ _ (fun _ h1 => h1) h

theorem memoryOk_postPri {s : State} {core : Nat} {pasid : BitVec 20} {page : Nat} (h : MemoryOk s) : MemoryOk (postPri s core pasid page) :=
  memoryOk_modPackage _ _ (fun _ h1 => h1) h

theorem memoryOk_stopCmd {s : State} {core : Nat} {e : Engine} {c : Cmd} {err : EngErr} (h : MemoryOk s) : MemoryOk (stopCmd s core e c err) := by
  unfold stopCmd
  dsimp only
  split
  · exact memoryOk_faultCmd h
  · exact memoryOk_modCore _ _ (memoryOk_postRecord h)
  · exact memoryOk_modCore _ _ (memoryOk_postPri h)
  · exact memoryOk_modCore _ _ h

theorem answers_strandLoad {s : State} {va : Word} {n al : Nat} (h : MemoryOk s) : Answers (fun a => MemoryOk a.2) (strandLoad s va n al) :=
  answers_after fun _ => answers_after fun _ => memoryOk_loadAt _ _ _ h

theorem nextOk_execLd {s : State} {d b : BitVec 5} {t : BitVec 3} {o : BitVec 11} (h : MemoryOk s) : NextOk (execLd d b t o s) :=
  nextOk_issueWord (answers_after fun _ => leaves_bind (answers_strandLoad h) fun _ h1 => memoryOk_retire (memoryOk_writeS _ _ h1)) h

theorem answers_putStore {s : State} {p : Place} {bs : List Byte} (h : MemoryOk s) : Answers MemoryOk (putStore s p bs) := by
  unfold putStore
  dsimp only
  split
  · split
    · exact trivial
    · split
      · next _ _ heq => exact memoryOk_deferStore heq (memoryOk_nextOrder _ _ h)
      · exact trivial
  · exact memoryOk_storeAt _ _ _ _ h

theorem nextOk_execSt {s : State} {d b : BitVec 5} {z : BitVec 2} {o : BitVec 11} (h : MemoryOk s) : NextOk (execSt d b z o s) :=
  nextOk_issueWord (answers_after fun _ => answers_after fun _ => answers_after fun _ => leaves_bind (answers_putStore h) fun _ h1 =>
      memoryOk_retire h1) h

theorem nextOk_execStH {s : State} {d b : BitVec 5} {o : BitVec 11} (h : MemoryOk s) : NextOk (execStH d b o s) :=
  nextOk_issueWord (answers_after fun _ => answers_after fun _ => leaves_ite trivial
      (answers_after fun _ => leaves_ite trivial (memoryOk_retire (memoryOk_noteHandoff _ _ (memoryOk_storeAt _ _ _ _ h))))) h

theorem nextOk_execLdbit {s : State} {d a : BitVec 5} {b : BitVec 1} {w : BitVec 6} (h : MemoryOk s) : NextOk (execLdbit d a b w s) :=
  nextOk_issueWord (answers_after fun _ => answers_after fun _ => memoryOk_retire (memoryOk_writeS _ _ (memoryOk_loadAt _ _ _ h))) h

theorem nextOk_execStbit {s : State} {a b : BitVec 5} {w : BitVec 6} (h : MemoryOk s) : NextOk (execStbit a b w s) :=
  nextOk_issueWord (answers_after fun _ => answers_after fun _ => memoryOk_retire (memoryOk_storeAt _ _ _ _ h)) h

theorem nextOk_execLdt {s : State} {d a b : BitVec 5} {e : BitVec 2} (h : MemoryOk s) : NextOk (execLdt d a b e s) :=
  nextOk_issueWord (answers_after fun _ => leaves_ite trivial
      (leaves_ite trivial (answers_after fun _ => memoryOk_retire
        (memoryOk_foldl _ (fun _ _ h1 => memoryOk_writeV _ _ h1) _ _ (memoryOk_ldtLoad h))))) h

theorem memoryOk_appendHeld {s : State} {core : Nat} (h : MemoryOk s) : MemoryOk (appendHeld s core) :=
  memoryOk_modCore _ _ (memoryOk_deliverTo h)

theorem memoryOk_recvSlot {s : State} {d : BitVec 5} (h : MemoryOk s) : MemoryOk (recvSlot s d) :=
  memoryOk_ite (memoryOk_writeS _ _ h) (memoryOk_writeS _ _ (memoryOk_modMyCore _ h))

theorem nextOk_noReturn {s : State} {i : Instr} {op : BitVec 3} {a b : BitVec 5} {w : BitVec 1} (h : MemoryOk s) : NextOk (noReturn i op a b w s) :=
  nextOk_issueWord (answers_after fun _ => answers_after fun _ => leaves_ite trivial
      (answers_after fun _ => leaves_ite trivial (leaves_ite (memoryOk_retire (memoryOk_noteAccess _ _ _ _ _ _ _ (memoryOk_markLeaf _ _ h)))
        (memoryOk_retire (memoryOk_modRegionOf _ _ (fun _ h1 => h1)
          (memoryOk_modMyCore _ (memoryOk_noteAccess _ _ _ _ _ _ _ (memoryOk_markLeaf _ _ h)))))))) h

theorem memoryOk_applyAtom {s : State} {a : AtomReq} (h : MemoryOk s) : MemoryOk (applyAtom s a) :=
  memoryOk_ite h (memoryOk_modPackage _ _ (fun _ h1 => h1) (memoryOk_memPut _ _ _ h))

theorem nextOk_execNoReturnAtomicApply {s : State} {idx : Nat} (h : MemoryOk s) : NextOk (execNoReturnAtomicApply idx s) := by
  unfold execNoReturnAtomicApply
  split
  · exact h
  · exact nextOk_ite (memoryOk_modRegion _ _ (fun _ h1 => h1) (memoryOk_applyAtom h)) h

theorem nextOk_execAtomicReplay {s : State} {idx : Nat} (h : MemoryOk s) : NextOk (execAtomicReplay idx s) := by
  unfold execAtomicReplay
  split
  · exact h
  · exact memoryOk_modRegion _ _ (fun _ h1 => h1) h

theorem answers_takeAllowance {s : State} (h : MemoryOk s) : Answers MemoryOk (takeAllowance s) :=
  leaves_ite trivial (memoryOk_modMe _ h)

theorem nextOk_execAmoseq {s : State} {d a b c : BitVec 5} {w : BitVec 1} (h : MemoryOk s) : NextOk (execAmoseq d a b c w s) :=
  nextOk_issueWord (answers_after fun _ => answers_after fun _ => leaves_ite trivial
      (leaves_ite trivial (answers_after fun _ => leaves_bind (answers_takeAllowance h) fun _ h1 => memoryOk_retire
        (memoryOk_modMyCore _ (memoryOk_markLeaf _ _ (memoryOk_nextOrder _ _ h1)))))) h

theorem nextOk_execFence {s : State} {c : BitVec 3} {p q : BitVec 4} (h : MemoryOk s) : NextOk (execFence c p q s) :=
  nextOk_issueWord (answers_after fun _ => leaves_ite trivial (leaves_ite trivial (leaves_ite trivial (memoryOk_retire h)))) h

theorem nextOk_execWaitw {s : State} {a b : BitVec 5} (h : MemoryOk s) : NextOk (execWaitw a b s) := by
  unfold execWaitw
  dsimp only
  refine nextOk_issueWord ?_ h
  refine answers_after fun _ => ?_
  split
  · exact trivial
  · refine answers_after fun _ => ?_
    split
    · exact trivial
    · split
      · exact trivial
      · exact memoryOk_retire (memoryOk_ite (memoryOk_modMe _ (memoryOk_noteAccess _ _ _ _ _ _ _ h)) (memoryOk_noteAccess _ _ _ _ _ _ _ h))

theorem answers_postRead {s : State} {va : Word} {fuel i : Nat} (h : MemoryOk s) : Answers (fun a => MemoryOk a.2) (postRead s va fuel i) := by
  induction fuel generalizing s i with
  | zero => exact h
  | succ fuel ih => exact leaves_bind (answers_strandLoad h) fun _ h1 => leaves_bind (ih h1) fun _ h2 => h2

theorem nextOk_execPost {s : State} {a b : BitVec 5} {n : BitVec 6} (h : MemoryOk s) : NextOk (execPost a b n s) :=
  nextOk_issueWord (answers_after fun _ => leaves_ite trivial
      (leaves_bind (answers_postRead h) fun _ h1 => leaves_ite trivial
        (leaves_ite trivial (leaves_bind (answers_takeAllowance h1) fun _ h2 => memoryOk_retire
          (memoryOk_modMyCore _ (memoryOk_nextOrder _ _ h2)))))) h

theorem nextOk_execRecv {s : State} {d : BitVec 5} (h : MemoryOk s) : NextOk (execRecv d s) :=
  nextOk_issueWord (memoryOk_retire (memoryOk_recvSlot (memoryOk_noteRegs h))) h

theorem memoryOk_finishPacket {s : State} {p : Packet} {status : Nat} {detail : Word} (h : MemoryOk s) :
    MemoryOk (finishPacket p status detail s) :=
  memoryOk_completePacket _ _ _ _ _ _ _ h

/-- Every region replaced by one whose copies of memory are canonical. -/
theorem memoryOk_mapRegions {s : State} {f : Region → Region} (hf : ∀ r, RegionMemoryOk r → RegionMemoryOk (f r)) (h : MemoryOk s) :
    MemoryOk { s with regions := s.regions.map f } := by
  refine ⟨h.1, fun r hr => ?_, h.2.2⟩
  obtain ⟨q, hq, rfl⟩ := List.mem_map.mp hr
  exact hf q (h.2.1 q hq)

theorem Memory.wf_refreshBytes {old now : Memory} {k n : Nat} (h : Memory.wf old = true) : Memory.wf (refreshBytes old now k n) = true :=
  Memory.wf_foldl _ (fun _ _ hm => Memory.wf_memWrite _ _ _ hm) _ _ (Memory.wf_zeroBytes _ _ _ h)

theorem memoryOk_acquire {s : State} {p : Packet} (h : MemoryOk s) : MemoryOk (acquire p s) := by
  unfold acquire
  refine memoryOk_foldl _ (fun _ _ hs => memoryOk_mapRegions (fun r hr => ?_) hs) _ _ h
  obtain ⟨hC, hPhase, hSpill⟩ := hr
  exact ⟨hC, Memory.wf_refreshBytes hPhase, hSpill⟩

theorem nextOk_issuePacket {s : State} {p : Packet} {ok : Bool} {f : State → State} (hf : ∀ u, MemoryOk u → MemoryOk (f u)) (h : MemoryOk s) :
    NextOk (issuePacket p ok f s) :=
  memoryOk_ite (hf _ (memoryOk_acquire (memoryOk_modQueue _ _ _ h))) (memoryOk_finishPacket (memoryOk_modQueue _ _ _ h))

/-! ### The matrix unit -/

theorem memoryOk_freshWords {s : State} (h : MemoryOk s) : MemoryOk (freshWords s).2 :=
  memoryOk_of_same rfl rfl rfl h

theorem memoryOk_freshLatch {s : State} (h : MemoryOk s) : MemoryOk (freshLatch s).2 :=
  memoryOk_of_same rfl rfl rfl h

theorem memoryOk_modMx {s : State} {core : Nat} {f : Matrix → Matrix} (h : MemoryOk s) : MemoryOk (modMx s core f) :=
  memoryOk_modCore _ _ h

theorem memoryOk_spoilAcc {s : State} {core : Nat} {n : Fin 4} (h : MemoryOk s) : MemoryOk (spoilAcc s core n) :=
  memoryOk_modMx (memoryOk_freshWords h)

theorem memoryOk_spoilLatch {s : State} {core : Nat} (h : MemoryOk s) : MemoryOk (spoilLatch s core) :=
  memoryOk_modMx (memoryOk_freshV (memoryOk_freshLatch h))

theorem memoryOk_spoilMatrix {s : State} {core : Nat} (h : MemoryOk s) : MemoryOk (spoilMatrix s core) :=
  memoryOk_foldl _ (fun _ _ h1 => memoryOk_ite (memoryOk_spoilReg h1) h1) _ _
    (memoryOk_ite (memoryOk_spoilLatch (memoryOk_foldl _ (fun _ _ h2 => memoryOk_ite (memoryOk_spoilAcc h2) h2) _ _ h))
      (memoryOk_foldl _ (fun _ _ h3 => memoryOk_ite (memoryOk_spoilAcc h3) h3) _ _ h))

theorem engOk_mxRows {s : State} {core : Nat} {c : Cmd} {paths : Nat} {rows : List (Word × Nat × Nat)} {write : Bool} (h : MemoryOk s) :
    EngOk (fun _ => True) (mxRows s core c paths rows write) := by
  unfold mxRows
  dsimp only
  split
  · exact trivial
  · exact h

theorem engOk_mxIndices {s : State} {d : ViewDesc} {da : Word} {n : Nat} (h : MemoryOk s) : EngOk (fun _ => True) (mxIndices d da n s) := by
  unfold mxIndices
  cases (List.range n).mapM (viewIndex d) with
  | none => exact h
  | some _ => trivial

theorem engOk_mxReads {s : State} {core : Nat} {c : Cmd} {l : List (Word × Nat)} (h : MemoryOk s) :
    EngOk (fun a => MemoryOk a.2) (mxReads core c l s) := by
  induction l generalizing s with
  | nil => exact h
  | cons e l ih => exact leaves_bind (engOk_cmdRead h) fun _ h1 => leaves_bind (ih h1) fun _ h2 => h2

theorem engOk_mxWrites {s : State} {core : Nat} {c : Cmd} {l : List (Word × List Byte)} (h : MemoryOk s) :
    EngOk MemoryOk (mxWrites core c l s) := by
  induction l generalizing s with
  | nil => exact h
  | cons e l ih => exact leaves_bind (engOk_cmdWrite h) fun _ h1 => ih h1

theorem engOk_mxView {s : State} {core : Nat} {c : Cmd} {sv : Word} {fmt : BitVec 4} {need : Nat} (h : MemoryOk s) :
    EngOk (fun a => MemoryOk a.2.2) (mxView core c sv fmt need s) := by
  unfold mxView
  dsimp only
  split
  · exact h
  · next _ _ _ heq =>
      split
      · exact memoryOk_of_ok_snd (engOk_cmdRead h) heq
      · exact leaves_ite (memoryOk_of_ok_snd (engOk_cmdRead h) heq) (memoryOk_of_ok_snd (engOk_cmdRead h) heq)

theorem engOk_mxTile {s : State} {core : Nat} {c : Cmd} {fmt rows len al : Nat} {packed : Bool} {scale sv : Word} (h : MemoryOk s) :
    EngOk (fun a => MemoryOk a.2) (mxTile core c fmt rows len al packed scale sv s) :=
  leaves_ite (leaves_bind (engOk_mxView h) fun _ h1 => leaves_bind (engOk_mxRows h1) fun _ _ => leaves_bind (engOk_mxRows h1) fun _ _ =>
    leaves_bind (engOk_mxIndices h1) fun _ _ => leaves_bind (engOk_mxReads h1) fun _ h3 => leaves_bind (engOk_mxReads h3) fun _ h4 => h4)
      (leaves_bind (engOk_mxRows h) fun _ _ => leaves_bind (engOk_mxReads h) fun _ h1 => h1)

theorem memoryOk_putAcc {s : State} {core : Nat} {n : BitVec 2} {v : Vector Word32 256} (h : MemoryOk s) : MemoryOk (putAcc s core n v) :=
  memoryOk_modMx h

theorem engOk_runMma {s : State} {core : Nat} {c : Cmd} {n : BitVec 2} {packed zero : Bool} (h : MemoryOk s) :
    EngOk MemoryOk (runMma core c n packed zero s) :=
  leaves_ite h (leaves_bind (engOk_mxTile h) fun _ h1 => memoryOk_putAcc h1)

theorem engOk_runMldb {s : State} {core : Nat} {c : Cmd} {packed transposed : Bool} (h : MemoryOk s) :
    EngOk MemoryOk (runMldb core c packed transposed s) :=
  leaves_ite h (leaves_ite (leaves_bind (engOk_mxTile h) fun _ h1 => memoryOk_modMx h1)
    (leaves_bind (engOk_mxTile h) fun _ h1 => memoryOk_modMx h1))

theorem engOk_runMldacc {s : State} {core : Nat} {c : Cmd} {n : BitVec 2} (h : MemoryOk s) : EngOk MemoryOk (runMldacc core c n s) :=
  leaves_bind (engOk_mxRows h) fun _ _ => leaves_bind (engOk_mxReads h) fun _ h1 => memoryOk_putAcc h1

theorem engOk_runMstacc {s : State} {core : Nat} {c : Cmd} {n : BitVec 2} (h : MemoryOk s) : EngOk MemoryOk (runMstacc core c n s) :=
  leaves_bind (engOk_mxRows h) fun _ _ => engOk_mxWrites h

theorem engOk_runMstaccq {s : State} {core : Nat} {c : Cmd} {n : BitVec 2} {g : BitVec 3} {t : BitVec 4} (h : MemoryOk s) :
    EngOk MemoryOk (runMstaccq core c n g t s) :=
  leaves_ite (leaves_bind (engOk_mxView h) fun _ h1 => leaves_bind (engOk_mxRows h1) fun _ _ => leaves_bind (engOk_mxRows h1) fun _ _ =>
    leaves_bind (engOk_mxIndices h1) fun _ _ => leaves_bind (engOk_mxReads h1) fun _ h2 => engOk_mxWrites h2)
      (leaves_bind (engOk_mxRows h) fun _ _ => engOk_mxWrites h)

theorem engOk_runMatrix {s : State} {core : Nat} {c : Cmd} (h : MemoryOk s) : EngOk MemoryOk (runMatrix core c s) := by
  unfold runMatrix
  split
  · exact engOk_runMma h
  · exact engOk_runMma h
  · exact engOk_runMldb h
  · exact engOk_runMldb h
  · exact memoryOk_putAcc h
  · exact engOk_runMldacc h
  · exact engOk_runMstacc h
  · exact engOk_runMstaccq h
  · exact memoryOk_putAcc h
  · exact memoryOk_modMx h

theorem memoryOk_faultExchange {s : State} {sub core : Nat} (h : MemoryOk s) : MemoryOk (faultExchange sub s core) := by
  unfold faultExchange
  split
  · exact h
  · exact memoryOk_modMx (memoryOk_faultCmd h)

theorem nextOk_execMatrixCommandStart {s : State} {core : Nat} (h : MemoryOk s) : NextOk (execMatrixCommandStart core s) := by
  unfold execMatrixCommandStart
  dsimp only
  split
  · exact h
  · split
    · exact h
    · split
      · exact nextOk_ite (memoryOk_faultExchange h) (memoryOk_modCore _ _ h)
      · split
        · next _ _ heq => exact memoryOk_stopCmd (memoryOk_stoppedAt h (memoryOk_of_error (engOk_runMatrix (memoryOk_spoilMatrix h)) heq))
        · next _ _ heq => exact memoryOk_modStrand _ _ _ (memoryOk_completeCmd
            (memoryOk_spoilMatrix (memoryOk_of_ok (engOk_runMatrix (memoryOk_spoilMatrix h)) heq)))

theorem memoryOk_finishRound {s : State} {core : Nat} {c : Cmd} {cls : MClass} {latch : List Val} (h : MemoryOk s) :
    MemoryOk (finishRound s core c cls latch) :=
  memoryOk_spoilMatrix (memoryOk_modMx (memoryOk_completeCmd h))

theorem memoryOk_roundMember {s : State} {cluster : Nat} {old : List (MClass × List Val)} {p : Nat} (h : MemoryOk s) :
    MemoryOk (roundMember cluster old s p) := by
  unfold roundMember
  dsimp only
  split
  · exact h
  · split
    · exact memoryOk_finishRound h
    · exact memoryOk_ite (memoryOk_faultExchange h) (memoryOk_finishRound h)
    · exact h

theorem nextOk_execExchangeRound {s : State} {cluster : Nat} (h : MemoryOk s) : NextOk (execExchangeRound cluster s) :=
  nextOk_ite h (nextOk_ite (nextOk_ite (memoryOk_foldl _ (fun _ _ h1 => memoryOk_roundMember h1) _ _
      (memoryOk_foldl _ (fun _ _ h2 => memoryOk_spoilMatrix h2) _ _ h)) (memoryOk_foldl _ (fun _ _ h1 => memoryOk_faultExchange h1) _ _ h))
        (memoryOk_foldl _ (fun _ _ h3 => memoryOk_faultExchange h3) _ _ h))

theorem nextOk_mxIssue {s : State} {i : Instr} {sels : State → List (Nat × Bool)} {a b : BitVec 5} {cOnly : Bool} (h : MemoryOk s) :
    NextOk (mxIssue i sels a b cOnly s) :=
  nextOk_issueWord (leaves_ite trivial (answers_issueCommand h)) h

theorem nextOk_keeperWord {s : State} {i : Instr} {f : State → Scale → Scale} (h : MemoryOk s) : NextOk (keeperWord i f s) := by
  unfold keeperWord
  dsimp only
  refine nextOk_issueWord ?_ h
  split
  · exact trivial
  · split
    · next _ _ heq => exact memoryOk_retire (memoryOk_modMx (memoryOk_fst heq (memoryOk_noteReg_me _ _ h)))
    · next _ _ heq => exact memoryOk_retire (memoryOk_modMx (memoryOk_freshV (memoryOk_fst heq (memoryOk_noteReg_me _ _ h))))

theorem nextOk_execMskget {s : State} {a : BitVec 5} (h : MemoryOk s) : NextOk (execMskget a s) :=
  nextOk_issueWord (memoryOk_retire (memoryOk_writeS _ _ h)) h

theorem nextOk_execMwait {s : State} (h : MemoryOk s) : NextOk (execMwait s) :=
  nextOk_issueWord (leaves_ite trivial (memoryOk_retire (memoryOk_modMe _ h))) h

/-! ### Conflicts, the exchange program, collectives -/

theorem memoryOk_addConflict {s : State} {c : Conflict} {core : Nat} (h : MemoryOk s) : MemoryOk (addConflict c s core) :=
  memoryOk_modCore _ _ h

theorem memoryOk_settleGranule {s : State} {r : Region} {gran : Nat} (h : MemoryOk s) : MemoryOk (settleGranule r s gran) :=
  memoryOk_spoilBytes _ _ (memoryOk_foldl _ (fun _ _ h1 => memoryOk_addConflict h1) _ _ h)

theorem memoryOk_settleGuard {s : State} {g : Nat × Nat × Nat × BitVec 3} (h : MemoryOk s) : MemoryOk (settleGuard s g) :=
  memoryOk_addConflict h

theorem memoryOk_spoilKeeper {s : State} {core : Nat} (h : MemoryOk s) : MemoryOk (spoilKeeper s core) :=
  memoryOk_modMx (memoryOk_freshV h)

theorem memoryOk_settleRegs {s : State} {core : Nat} (h : MemoryOk s) : MemoryOk (settleRegs s core) :=
  memoryOk_modCore _ _ (memoryOk_when (fun h1 => memoryOk_spoilKeeper h1)
    (memoryOk_foldl _ (fun _ _ h2 => memoryOk_spoilReg h2) _ _
      (memoryOk_spoilMatrix (memoryOk_foldl _ (fun _ _ h3 => memoryOk_addConflict h3) _ _ h))))

theorem memoryOk_endPhase {s : State} {id : Nat} (h : MemoryOk s) : MemoryOk (endPhase s id) :=
  memoryOk_modRegion _ _ (fun _ h1 => h1) (memoryOk_foldl _ (fun _ _ h2 => memoryOk_modCore _ _ h2) _ _
    (memoryOk_foldl _ (fun _ _ h3 => memoryOk_settleRegs h3) _ _
      (memoryOk_foldl _ (fun _ _ h4 => memoryOk_settleGuard h4) _ _ (memoryOk_foldl _ (fun _ _ h5 => memoryOk_settleGranule h5) _ _ h))))

theorem memoryOk_settleX {s s0 : State} {r : Region} {gran : Nat} (h : MemoryOk s) : MemoryOk (settleX r s0 s gran) :=
  memoryOk_spoilBytes _ _ (memoryOk_foldl _ (fun _ _ h1 => memoryOk_addConflict h1) _ _ h)

theorem memoryOk_endXPhase {s : State} {id : Nat} (h : MemoryOk s) : MemoryOk (endXPhase s id) :=
  memoryOk_modRegion _ _ (fun _ h1 => h1) (memoryOk_foldl _ (fun _ _ h2 => memoryOk_settleGuard h2) _ _
    (memoryOk_foldl _ (fun _ _ h3 => memoryOk_settleX h3) _ _ h))

theorem memoryOk_vPick {s : State} {d : BitVec 5} {m : BitVec 3} {t : BitVec 4} {f : Nat → Nat} (h : MemoryOk s) : MemoryOk (vPick s d m t f) :=
  memoryOk_writeV _ _ h

theorem memoryOk_vMap3 {s : State} {d a b : BitVec 5} {m : BitVec 3} {t : BitVec 4} {f : Nat → Nat → Nat → Nat} (h : MemoryOk s) :
    MemoryOk (vMap3 s d a b m t f) :=
  memoryOk_vPick h

theorem memoryOk_vCompare {s : State} {k : BitVec 3} {a b : BitVec 5} {m : BitVec 3} {t : BitVec 4} {f : Val → Val → Bool} (h : MemoryOk s) :
    MemoryOk (vCompare s k a b m t f) :=
  memoryOk_writeK _ _ h

theorem memoryOk_vReduce {s : State} {d a b : BitVec 5} {m : BitVec 3} {t : BitVec 4} {op : Nat → Nat → Nat} (h : MemoryOk s) :
    MemoryOk (vReduce s d a b m t op) :=
  memoryOk_writeV _ _ h

theorem memoryOk_tcmSegment {s : State} {id core base : Nat} (h : MemoryOk s) : MemoryOk (tcmSegment s id core base).2 :=
  memoryOk_ite_snd (memoryOk_freshBytes _ h) h

theorem memoryOk_loadPlan {s : State} {id core : Nat} (h : MemoryOk s) : MemoryOk (loadPlan s id core) := by
  unfold loadPlan
  dsimp only
  split
  · exact memoryOk_modCore _ _ h
  · split
    · exact memoryOk_modCore _ _ (memoryOk_notePlanRead _ _ _ _ _ _ _ (memoryOk_tcmSegment h))
    · exact memoryOk_modCore _ _ (memoryOk_notePlanRead _ _ _ _ _ _ _ (memoryOk_tcmSegment h))

theorem memoryOk_addXFault {s : State} {core : Nat} {f : XFault} (h : MemoryOk s) : MemoryOk (addXFault s core f) :=
  memoryOk_modCore _ _ h

theorem memoryOk_stopEntry {s : State} {core i : Nat} (h : MemoryOk s) : MemoryOk (stopEntry s core i) :=
  memoryOk_modCore _ _ h

theorem memoryOk_startSendc {s : State} {id core i : Nat} {p : PlanEntry} (h : MemoryOk s) : MemoryOk (startSendc s id core i p) :=
  memoryOk_ite (memoryOk_stopEntry (memoryOk_addXFault
    (memoryOk_when_snd (fun h1 => memoryOk_planRead _ _ _ _ _ _ _ h1) (memoryOk_ite_snd (memoryOk_planRead _ _ _ _ _ _ _ h) h))))
      (memoryOk_ite (memoryOk_stopEntry (memoryOk_addXFault
        (memoryOk_when_snd (fun h2 => memoryOk_planRead _ _ _ _ _ _ _ h2) (memoryOk_ite_snd (memoryOk_planRead _ _ _ _ _ _ _ h) h))))
          (memoryOk_modCore _ _ (memoryOk_stopEntry (memoryOk_modRegion _ _ (fun _ h3 => h3)
            (memoryOk_planRead _ _ _ _ _ _ _ (memoryOk_when_snd (fun h3 => memoryOk_planRead _ _ _ _ _ _ _ h3)
              (memoryOk_ite_snd (memoryOk_planRead _ _ _ _ _ _ _ h) h)))))))

theorem nextOk_execPlanEntryStart {s : State} {core idx : Nat} (h : MemoryOk s) : NextOk (execPlanEntryStart core idx s) := by
  unfold execPlanEntryStart
  split
  · exact nextOk_ite h (nextOk_ite (memoryOk_stopEntry h) (memoryOk_startSendc h))
  · exact h

theorem nextOk_execSendfFlit {s : State} {core idx flit : Nat} (h : MemoryOk s) : NextOk (execSendfFlit core idx flit s) := by
  unfold execSendfFlit
  dsimp only
  split
  · exact nextOk_ite h (nextOk_ite (memoryOk_stopEntry (memoryOk_addXFault h))
      (memoryOk_modCore _ _ (memoryOk_modRegion _ _ (fun _ h1 => h1) (memoryOk_planRead _ _ _ _ _ _ _ h))))
  · exact h

theorem memoryOk_addCount {s : State} {id core : Nat} {w : PlanEntry} {n src entry : Nat} (h : MemoryOk s) :
    MemoryOk (addCount s id core w n src entry) :=
  memoryOk_ite (memoryOk_niWrite _ _ _ _ _ _ _ _ h) h

theorem memoryOk_receiveTcm {s : State} {id i : Nat} {t : Xfer} (h : MemoryOk s) : MemoryOk (receiveTcm s id i t) := by
  unfold receiveTcm
  dsimp only
  split
  · exact memoryOk_modRegion _ _ (fun _ h1 => h1) h
  · split
    · exact memoryOk_modRegion _ _ (fun _ h1 => h1) (memoryOk_ite (memoryOk_addXFault h) h)
    · exact memoryOk_modRegion _ _ (fun _ h1 => h1) (memoryOk_when (fun h2 => memoryOk_addCount h2) (memoryOk_niWrite _ _ _ _ _ _ _ _ h))

theorem memoryOk_receivePage {s : State} {id i : Nat} {t : Xfer} (h : MemoryOk s) : MemoryOk (receivePage s id i t) := by
  unfold receivePage
  dsimp only
  split
  · exact memoryOk_modRegion _ _ (fun _ h1 => h1) (memoryOk_postRecord h)
  · exact memoryOk_modRegion _ _ (fun _ h1 => h1) (memoryOk_addXFault h)
  · exact memoryOk_modRegion _ _ (fun _ h1 => h1) (memoryOk_foldl _
      (fun _ _ h2 => memoryOk_writeBytes _ _ (memoryOk_markLeaf _ _ (memoryOk_noteX _ _ _ _ _ _ _ _ _ _ h2))) _ _ h)

theorem nextOk_execFlitReceive {s : State} {region xfer : Nat} (h : MemoryOk s) : NextOk (execFlitReceive region xfer s) := by
  unfold execFlitReceive
  dsimp only
  split
  · exact h
  · exact nextOk_ite h (memoryOk_ite (memoryOk_receiveTcm h) (memoryOk_receivePage h))

theorem nextOk_execAcknowledgement {s : State} {region xfer : Nat} (h : MemoryOk s) : NextOk (execAcknowledgement region xfer s) := by
  unfold execAcknowledgement
  dsimp only
  split
  · exact h
  · exact nextOk_ite (memoryOk_modRegion _ _ (fun _ h1 => h1) (memoryOk_modCore _ _ h)) h

theorem memoryOk_applyStage {s : State} {id core i : Nat} {p : PlanEntry} {stage : Nat} {bs : List Byte} (h : MemoryOk s) :
    MemoryOk (applyStage s id core i p stage bs) :=
  memoryOk_modCore _ _ (memoryOk_niWrite _ _ _ _ _ _ _ _ h)

theorem nextOk_execContributionApply {s : State} {region xfer : Nat} (h : MemoryOk s) : NextOk (execContributionApply region xfer s) := by
  unfold execContributionApply
  dsimp only
  split
  · exact h
  · split
    · exact h
    · split
      · exact h
      · split
        · exact memoryOk_modRegion _ _ (fun _ h1 => h1) (memoryOk_addXFault h)
        · exact nextOk_ite (memoryOk_modRegion _ _ (fun _ h2 => h2) (memoryOk_addXFault h))
            (nextOk_ite (memoryOk_modRegion _ _ (fun _ h3 => h3) (memoryOk_ite (memoryOk_modCore _ _ h) h))
              (nextOk_ite (memoryOk_modRegion _ _ (fun _ h4 => h4) (memoryOk_applyStage (memoryOk_ite (memoryOk_modCore _ _ h) h)))
                (nextOk_ite (memoryOk_modRegion _ _ (fun _ h5 => h5) (memoryOk_ite (memoryOk_modCore _ _ h) h))
                  (memoryOk_modRegion _ _ (fun _ h5 => h5) h))))

theorem nextOk_execContributionResend {s : State} {region xfer : Nat} (h : MemoryOk s) : NextOk (execContributionResend region xfer s) := by
  unfold execContributionResend
  split
  · exact h
  · exact nextOk_ite (memoryOk_modRegion _ _ (fun _ h1 => h1) h) h

theorem memoryOk_giveUp {s : State} {core : Nat} (h : MemoryOk s) : MemoryOk (giveUp s core) :=
  memoryOk_modCore _ _ (memoryOk_foldl _ (fun _ _ h1 => memoryOk_addXFault (memoryOk_spoilBytes _ _ h1)) _ _ h)

theorem memoryOk_forgo {s s0 : State} {id core : Nat} (h : MemoryOk s) : MemoryOk (forgo s0 id s core) :=
  memoryOk_modCore _ _ (memoryOk_foldl _ (fun _ _ h1 => memoryOk_spoilBytes _ _ h1) _ _ h)

theorem nextOk_execCollectiveIncomplete {s : State} {region : Nat} (h : MemoryOk s) : NextOk (execCollectiveIncomplete region s) := by
  unfold execCollectiveIncomplete
  dsimp only
  split
  · refine memoryOk_modRegion _ _ (fun _ h1 => h1) ?_
    refine memoryOk_foldl _ (fun _ _ h2 => ?_) _ _ h
    split
    · exact memoryOk_forgo h2
    · exact memoryOk_giveUp h2
  · exact h

/-! ### Regions and recovery points -/

theorem regionMemoryOk_releaseTxn {r : Region} {num : Nat} {c blk : Clock} (h : RegionMemoryOk r) : RegionMemoryOk (releaseTxn r num c blk) := by
  unfold releaseTxn
  split <;> exact h

theorem regionMemoryOk_takeBlock {r : Region} {t : Txn} (h : RegionMemoryOk r) : RegionMemoryOk (takeBlock r t) := by
  unfold takeBlock
  split
  · exact h
  · dsimp only
    split <;> exact h

theorem regionMemoryOk_takePermits {r : Region} {t : Txn} (h : RegionMemoryOk r) : RegionMemoryOk (takePermits r t) :=
  List.foldlRecOn _ _ h fun _ hr _ _ => regionMemoryOk_takeBlock hr

/-- The point a launch can go back to lies in a package's safe tier (R444). -/
theorem Memory.wf_recPointOf {s : State} {r : Region} {p : RecPoint} (hp : recPointOf s r = some p) (h : MemoryOk s) :
    Memory.wf p.mem = true := by
  unfold recPointOf at hp
  split at hp
  · split at hp
    · cases hp
    · split at hp
      · next hsafe =>
        split at hp
        · cases hp; exact packageMemoryOk_get _ h _ hsafe
        · cases hp
      · cases hp
  · cases hp

/-! ### Helpers, transactions and lock managers -/

theorem nextOk_execIssueSlotGiveUp {s : State} {core : Nat} (h : MemoryOk s) : NextOk (execIssueSlotGiveUp core s) := by
  unfold execIssueSlotGiveUp
  dsimp only
  split
  · exact memoryOk_ite (memoryOk_modCore _ _ h) h
  · exact h

theorem nextOk_execYield {s : State} (h : MemoryOk s) : NextOk (execYield s) :=
  nextOk_issueWord (memoryOk_retire (memoryOk_modMyCore _ h)) h

theorem memoryOk_learn {s : State} {core : Nat} {n : Fin 4} {cs : List Clock} (h : MemoryOk s) : MemoryOk (learn s core n cs) :=
  memoryOk_modStrand _ _ _ h

theorem memoryOk_dropFetched {s : State} {core : Nat} {n : Fin 4} (h : MemoryOk s) : MemoryOk (dropFetched s core n) :=
  memoryOk_modCore _ _ h

theorem nextOk_execStart {s : State} {a b : BitVec 5} {n : BitVec 2} (h : MemoryOk s) : NextOk (execStart a b n s) :=
  nextOk_issueWord (leaves_ite trivial (leaves_ite trivial
      (leaves_ite trivial (leaves_ite trivial (memoryOk_retire (memoryOk_dropFetched (memoryOk_setStrand _ _ _ (memoryOk_learn h)))))))) h

theorem nextOk_execWaits {s : State} {g : BitVec 3} (h : MemoryOk s) : NextOk (execWaits g s) :=
  nextOk_issueWord (leaves_ite trivial (leaves_ite trivial (leaves_ite trivial (memoryOk_retire (memoryOk_learn h))))) h

theorem answers_readDesc {s : State} {da : Word} (h : MemoryOk s) : Answers (fun a => MemoryOk a.2) (readDesc s da) := by
  unfold readDesc
  dsimp only
  refine answers_after fun _ => answers_after fun _ => ?_
  split
  · exact trivial
  · exact memoryOk_loadAt _ _ _ h

theorem nextOk_execTxsub {s : State} {d a : BitVec 5} (h : MemoryOk s) : NextOk (execTxsub d a s) :=
  nextOk_issueWord (answers_check fun _ => answers_after fun _ => leaves_bind (answers_readDesc h) fun _ h1 => leaves_ite trivial
      (memoryOk_retire (memoryOk_writeS _ _ (memoryOk_modMe _ (memoryOk_modMyCore _ (memoryOk_nextOrder _ _ h1)))))) h

theorem memoryOk_landBytes {s : State} {core off n : Nat} (h : MemoryOk s) : MemoryOk (landBytes s core off n).2 :=
  memoryOk_ite_snd h (memoryOk_freshBytes _ h)

theorem answers_peekTile {s : State} {va : Word} (h : MemoryOk s) : Answers (fun a => MemoryOk a.2) (peekTile s va) := by
  unfold peekTile
  dsimp only
  split
  · exact trivial
  · split
    · exact trivial
    · split
      · split
        · exact trivial
        · exact memoryOk_markLeaf _ _ h
      · split
        · exact trivial
        · exact leaves_ite trivial (memoryOk_landBytes h)

theorem nextOk_execTxpeek {s : State} {d a : BitVec 5} (h : MemoryOk s) : NextOk (execTxpeek d a s) :=
  nextOk_issueWord (answers_check fun _ => answers_after fun _ => leaves_bind (answers_peekTile h) fun _ h1 => memoryOk_retire
      (memoryOk_writeS _ _ h1)) h

theorem memoryOk_loadHdr {s : State} {p : Place} (h : MemoryOk s) : MemoryOk (loadHdr s p).2 :=
  memoryOk_loadAt _ _ _ h

theorem memoryOk_storeDesc {s : State} {p : Place} {off : Nat} {xs : List Word} (h : MemoryOk s) : MemoryOk (storeDesc s p off xs) :=
  memoryOk_storeAt _ _ _ _ h

theorem nextOk_execTxsets {s : State} {d a b : BitVec 5} {k : BitVec 1} (h : MemoryOk s) : NextOk (execTxsets d a b k s) :=
  nextOk_issueWord (answers_check fun _ => answers_after fun _ => answers_after fun _ => answers_after fun _ => leaves_ite
      (leaves_ite trivial (memoryOk_retire (memoryOk_writeS _ _ (memoryOk_storeDesc (memoryOk_storeDesc (memoryOk_loadHdr h))))))
        (leaves_ite trivial (memoryOk_retire (memoryOk_writeS _ _ (memoryOk_storeDesc (memoryOk_storeDesc (memoryOk_loadHdr h))))))) h

theorem nextOk_execTxchk {s : State} {d a b : BitVec 5} (h : MemoryOk s) : NextOk (execTxchk d a b s) := by
  unfold execTxchk
  dsimp only
  refine nextOk_issueWord ?_ h
  refine answers_check fun _ => answers_after fun _ => answers_after fun _ => answers_after fun _ => ?_
  split
  · exact trivial
  · split
    · exact trivial
    · split
      · exact trivial
      · split
        · exact trivial
        · exact leaves_ite trivial (leaves_bind (answers_peekTile (memoryOk_loadAt _ _ _ (memoryOk_loadHdr h))) fun _ h1 => memoryOk_retire
            (memoryOk_writeS _ _ (memoryOk_storeDesc (memoryOk_storeDesc h1))))

theorem memoryOk_holdHome {s : State} {num i : Nat} (h : MemoryOk s) : MemoryOk (holdHome s num i) :=
  memoryOk_modRegionOf _ _ (fun _ h1 => h1) h

theorem memoryOk_finishBody {s : State} {t : Txn} (h : MemoryOk s) : MemoryOk (finishBody s t) :=
  memoryOk_modMe _ (memoryOk_modRegionOf _ _ (fun _ h1 => regionMemoryOk_releaseTxn h1) h)

/-- The state a body's home writes have reached. -/
def homeState : HomeResult → State
  | .written s => s
  | .parked s .. => s
  | .killed s .. => s

theorem memoryOk_writeHome {s : State} {core blk i : Nat} {qs : List LockReq} (h : MemoryOk s) :
    MemoryOk (homeState (writeHome core blk s i qs)) := by
  induction qs generalizing s i with
  | nil => exact h
  | cons q qs ih =>
    unfold writeHome
    split
    · split
      · exact h
      · exact h
      · exact ih (memoryOk_storeAt _ _ _ _ (memoryOk_landBytes h))
    · exact ih h

theorem nextOk_execTxend {s : State} (h : MemoryOk s) : NextOk (execTxend s) := by
  unfold execTxend
  refine nextOk_issueWord ?_ h
  dsimp only
  split
  · next b t _ _ =>
    have hw := memoryOk_writeHome (core := s.ctx.core) (blk := blockOffset (myCore s) t) (i := t.homed) (qs := t.reqs.drop t.homed) h
    refine leaves_ite trivial (answers_after fun _ => ?_)
    split
    · next heq => rw [heq] at hw; exact memoryOk_finishBody hw
    · next heq => rw [heq] at hw; exact memoryOk_block _ (memoryOk_postRecord (memoryOk_modMe _ (memoryOk_holdHome hw)))
    · next heq => rw [heq] at hw; exact memoryOk_setEvent _ (memoryOk_killFaultDomain _ _ _ _ (memoryOk_holdHome hw))
  · trivial

theorem nextOk_execTxrst {s : State} {a : BitVec 5} (h : MemoryOk s) : NextOk (execTxrst a s) := by
  unfold execTxrst
  dsimp only
  refine nextOk_issueWord ?_ h
  split
  · exact answers_after fun _ => leaves_bind (answers_readDesc h) fun _ h1 => memoryOk_finishBody (memoryOk_modRegionOf _ _ (fun _ h2 => h2) h1)
  · exact trivial

theorem nextOk_execLockRequestEnqueue {s : State} {region num req : Nat} (h : MemoryOk s) :
    NextOk (execLockRequestEnqueue region num req s) := by
  unfold execLockRequestEnqueue
  dsimp only
  split
  · exact h
  · exact nextOk_ite (memoryOk_modRegion _ _ (fun _ h1 => h1) h) h

theorem nextOk_execLockGrant {s : State} {region num req : Nat} (h : MemoryOk s) : NextOk (execLockGrant region num req s) := by
  unfold execLockGrant
  dsimp only
  split
  · exact h
  · exact nextOk_ite (memoryOk_modRegion _ _ (fun _ h1 => h1) h) h

theorem memoryOk_pushTile {s : State} {id : Nat} {t : Txn} {q : LockReq} {p : Place} (h : MemoryOk s) : MemoryOk (pushTile s id t q p) := by
  unfold pushTile
  dsimp only
  refine memoryOk_modRegion _ _ (fun _ h1 => ?_) (memoryOk_mem (Memory.wf_writeGuarded _ _ _ _ ((memoryOk_markLeaf _ _ h).1))
    (memoryOk_markLeaf _ _ h))
  split
  · exact h1
  · exact h1

theorem nextOk_execTilePush {s : State} {region num req : Nat} (h : MemoryOk s) : NextOk (execTilePush region num req s) := by
  unfold execTilePush
  dsimp only
  split
  · exact h
  · split
    · exact h
    · split
      · exact memoryOk_setRegion _ (regionMemoryOk_takePermits (regionMemoryOk_get _ h)) h
      · split
        · exact memoryOk_setRegion _ (regionMemoryOk_takePermits (regionMemoryOk_get _ h)) h
        · split
          · exact memoryOk_killFaultDomain _ _ _ _ (memoryOk_setRegion _ (regionMemoryOk_takePermits (regionMemoryOk_get _ h)) h)
          · exact memoryOk_modRegion _ _ (fun _ h1 => h1) (memoryOk_postRecord
              (memoryOk_setRegion _ (regionMemoryOk_takePermits (regionMemoryOk_get _ h)) h))
          · exact memoryOk_pushTile (memoryOk_setRegion _ (regionMemoryOk_takePermits (regionMemoryOk_get _ h)) h)

/-! ### Phases -/

theorem memoryOk_evalChecks {s : State} {t : Txn} {blk : Nat} {l : List (Nat × Nat × Word)} (h : MemoryOk s) :
    MemoryOk (evalChecks t blk s l).2 := by
  induction l generalizing s with
  | nil => exact h
  | cons e l ih => exact ih (memoryOk_ite_snd (memoryOk_loadAt _ _ _ h) (memoryOk_landBytes h))

theorem memoryOk_deliverX {s : State} {id core : Nat} {ms : List Msg} (h : MemoryOk s) : MemoryOk (deliverX id core s ms).1 := by
  induction ms generalizing s with
  | nil => exact h
  | cons m ms ih =>
    unfold deliverX
    dsimp only
    split
    · exact h
    · exact ih (memoryOk_modCore _ _ (memoryOk_niWrite _ _ _ _ _ _ _ _ h))

theorem memoryOk_keepBatch {s : State} {id : Nat} (h : MemoryOk s) : MemoryOk (keepBatch s id) := by
  unfold keepBatch
  dsimp only
  split
  · exact h
  · next p hp => exact memoryOk_putPoint _ _ (Memory.wf_recPointOf (p := p) hp h) h

theorem memoryOk_commitCluster {s : State} {cl : Nat} (h : MemoryOk s) : MemoryOk (commitCluster s cl) :=
  memoryOk_foldl _ (fun _ _ h1 => memoryOk_modMx h1) _ _ h

theorem memoryOk_commitKeepers {s : State} {cores : List Nat} (h : MemoryOk s) : MemoryOk (commitKeepers s cores) :=
  memoryOk_foldl _ (fun _ _ h1 => memoryOk_commitCluster h1) _ _ h

/-- A region that takes a copy of memory as it stands. -/
theorem memoryOk_keepCopy {s : State} {id : Nat} {f : Region → Region}
    (hf : Memory.wf s.mem = true → ∀ r, RegionMemoryOk r → RegionMemoryOk (f r)) (h : MemoryOk s) : MemoryOk (modRegion s id f) :=
  memoryOk_modRegion _ _ (hf h.1) h

theorem memoryOk_startC {s : State} {id : Nat} {n : Word} (h : MemoryOk s) : MemoryOk (startC s id n) := by
  refine memoryOk_keepCopy (fun hm r hr => ?_) (memoryOk_commitKeepers (memoryOk_foldl _ (fun _ _ hs => memoryOk_modCore _ _ hs) _ _ h))
  obtain ⟨-, -, hSpill⟩ := hr
  exact ⟨hm, hm, hSpill⟩

theorem memoryOk_completeNumbered {s : State} {hs : List HostTxn} (h : MemoryOk s) : MemoryOk (completeNumbered s hs) :=
  memoryOk_foldl _ (fun _ _ h1 => memoryOk_ite h1 (memoryOk_completePacket _ _ _ _ _ _ _ h1)) _ _ h

theorem memoryOk_enterT {s : State} {id : Nat} (h : MemoryOk s) : MemoryOk (enterT s id) := by
  refine memoryOk_keepCopy (fun hm r hr => ?_) (memoryOk_commitKeepers (memoryOk_foldl _ (fun _ _ hs => memoryOk_modCore _ _ hs) _ _
    (memoryOk_completeNumbered (memoryOk_endPhase h))))
  obtain ⟨hC, -, hSpill⟩ := hr
  exact ⟨hC, hm, hSpill⟩

/-- Every package replaced, by what its own number and content say, by one whose safe tier is canonical. -/
theorem memoryOk_mapEntries {s : State} {f : Nat × Package → Nat × Package} (hf : ∀ e, PackageMemoryOk e.2 → PackageMemoryOk (f e).2)
    (h : MemoryOk s) : MemoryOk { s with packages := s.packages.map f } := by
  refine ⟨h.1, h.2.1, fun e he => ?_⟩
  obtain ⟨q, hq, rfl⟩ := List.mem_map.mp he
  exact hf q (h.2.2 q hq)

theorem memoryOk_ringDoorbells {s : State} {d : DStore} (h : MemoryOk s) : MemoryOk (ringDoorbells s d) :=
  memoryOk_mapEntries (fun _ hk => hk) h

theorem memoryOk_releaseRegion {s : State} {id : Nat} (h : MemoryOk s) : MemoryOk (releaseRegion s id) :=
  memoryOk_mapEntries (fun _ hk => hk) (memoryOk_modRegion _ _ (fun r _ => regionMemoryOk_clear r) (memoryOk_releaseCores _ h))

theorem memoryOk_startBody {s : State} {region : Nat} {t : Txn} (h : MemoryOk s) : MemoryOk (startBody s region t) :=
  memoryOk_modRegion _ _ (fun _ h1 => h1) (memoryOk_modStrand _ _ _ (memoryOk_evalChecks (memoryOk_dropFetched (memoryOk_setStrand _ _ _ h))))

theorem nextOk_execTransactionDispatch {s : State} {region num : Nat} (h : MemoryOk s) : NextOk (execTransactionDispatch region num s) := by
  unfold execTransactionDispatch
  dsimp only
  split
  · exact h
  · exact nextOk_ite (memoryOk_startBody h) h

theorem nextOk_execCDone {s : State} {core : Nat} (h : MemoryOk s) : NextOk (execCDone core s) :=
  nextOk_ite (memoryOk_modCore _ _ h) h

theorem memoryOk_closeC {s : State} {id : Nat} (h : MemoryOk s) : MemoryOk (closeC s id) :=
  memoryOk_ite (memoryOk_enterT (memoryOk_keepBatch h)) h

theorem nextOk_execCClose {s : State} {region pkg : Nat} (h : MemoryOk s) : NextOk (execCClose region pkg s) :=
  nextOk_ite (memoryOk_closeC (memoryOk_modRegion _ _ (fun _ h1 => h1) h)) h

theorem nextOk_execTClose {s : State} {region : Nat} (h : MemoryOk s) : NextOk (execTClose region s) :=
  nextOk_ite (memoryOk_foldl _ (fun _ _ h1 => memoryOk_loadPlan h1) _ _
      (memoryOk_modRegion _ _ (fun _ h2 => h2) (memoryOk_foldl _ (fun _ _ h3 => memoryOk_modCore _ _ h3) _ _ (memoryOk_endPhase h)))) h

theorem memoryOk_applySeq {s : State} {id : Nat} {q : SeqReq} (h : MemoryOk s) : MemoryOk (applySeq id s q) :=
  memoryOk_niWrite _ _ _ _ _ _ _ _ (memoryOk_ite (memoryOk_modRegion _ _ (fun _ h1 => h1) (memoryOk_noteX _ _ _ _ _ _ _ _ _ _ h))
    (memoryOk_ite (memoryOk_noteX _ _ _ _ _ _ _ _ _ _ h) (memoryOk_memPut _ _ _ (memoryOk_noteX _ _ _ _ _ _ _ _ _ _ h))))

theorem memoryOk_deliverCore {s : State} {id : Nat} {all : List Msg} {core : Nat} (h : MemoryOk s) : MemoryOk (deliverCore id all s core) :=
  memoryOk_modCore _ _ (memoryOk_deliverX h)

theorem nextOk_execRequestVote {s : State} {region : Nat} (h : MemoryOk s) : NextOk (execRequestVote region s) :=
  nextOk_ite (memoryOk_modRegion _ _ (fun _ h1 => h1) (memoryOk_foldl _ (fun _ _ h2 => memoryOk_modCore _ _ h2) _ _
      (memoryOk_foldl _ (fun _ _ h3 => memoryOk_deliverCore h3) _ _ (memoryOk_foldl _ (fun _ _ h4 => memoryOk_applySeq h4) _ _ h)))) h

theorem nextOk_execDeferredStorePerform {s : State} {region : Nat} (h : MemoryOk s) : NextOk (execDeferredStorePerform region s) := by
  unfold execDeferredStorePerform
  dsimp only
  split
  · split
    · exact h
    · exact memoryOk_ringDoorbells (memoryOk_modCore _ _ (memoryOk_writeBytes _ _ (memoryOk_noteX _ _ _ _ _ _ _ _ _ _ h)))
  · exact h

theorem memoryOk_writeNotice {s : State} {pkg : Nat} {l : Launch} {kind n : Nat} (h : MemoryOk s) : MemoryOk (writeNotice s pkg l kind n) :=
  memoryOk_ite h (memoryOk_ite (memoryOk_of_same rfl rfl rfl (memoryOk_askMissing _ _ _ h)) (memoryOk_putNotice _ _ _ _ h))

theorem memoryOk_poisonCore {s : State} {core : Nat} (h : MemoryOk s) : MemoryOk (poisonCore s core) :=
  memoryOk_addXFault (memoryOk_foldl _ (fun _ _ h1 => memoryOk_memPut _ _ _ h1) _ _ h)

theorem memoryOk_abortSpoil {s : State} {id : Nat} (h : MemoryOk s) : MemoryOk (abortSpoil s id) :=
  memoryOk_ite h (memoryOk_foldl _ (fun _ _ h1 => memoryOk_spoilBytes _ _ h1) _ _ h)

theorem memoryOk_applyAbort {s : State} {id : Nat} (h : MemoryOk s) : MemoryOk (applyAbort s id) := by
  unfold applyAbort
  dsimp only
  split
  · exact h
  · refine memoryOk_modRegion _ _ (fun _ h1 => h1) ?_
    split
    · exact memoryOk_foldl _ (fun _ _ h2 => memoryOk_poisonCore h2) _ _ h
    · exact memoryOk_foldl _ (fun _ _ h2 => memoryOk_writeNotice h2) _ _ (memoryOk_foldl _ (fun _ _ h3 => memoryOk_poisonCore h3) _ _ h)

theorem memoryOk_endRegion {s : State} {id : Nat} (h : MemoryOk s) : MemoryOk (endRegion s id) := by
  unfold endRegion
  dsimp only
  split
  · exact h
  · refine memoryOk_finishWaits ?_
    split
    · exact memoryOk_completeLaunch _ _ _ _ _ (memoryOk_regionState _ _
        (memoryOk_releaseRegion (memoryOk_foldl _ (fun _ _ h1 => memoryOk_ite h1 (memoryOk_completePacket _ _ _ _ _ _ _ h1)) _ _
          (memoryOk_finishInvals _ h))))
    · exact memoryOk_completeLaunch _ _ _ _ _ (memoryOk_regionState _ _
        (memoryOk_releaseRegion (memoryOk_noteFault _ _ _ _
          (memoryOk_foldl _ (fun _ _ h2 => memoryOk_ite h2 (memoryOk_completePacket _ _ _ _ _ _ _ h2)) _ _ (memoryOk_finishInvals _ h)))))

theorem memoryOk_takePoint {s : State} {id : Nat} (h : MemoryOk s) : MemoryOk (takePoint s id) := by
  unfold takePoint
  dsimp only
  split
  · exact h
  · exact memoryOk_ite h (memoryOk_ite (memoryOk_putPoint _ _ h.1 (memoryOk_modRegion _ _ (fun _ h1 => h1) h)) h)

theorem memoryOk_capHosts {s : State} {id : Nat} {n : Word} (h : MemoryOk s) : MemoryOk (capHosts s id n) :=
  memoryOk_modRegion _ _ (fun _ h1 => h1) (memoryOk_foldl _ (fun _ _ h2 => memoryOk_completePacket _ _ _ _ _ _ _ h2) _ _ h)

theorem memoryOk_killAtPoint {s : State} {id : Nat} (h : MemoryOk s) : MemoryOk (killAtPoint s id) :=
  memoryOk_ite (memoryOk_killEach h) h

theorem nextOk_execBarrierExit {s : State} {region : Nat} (h : MemoryOk s) : NextOk (execBarrierExit region s) :=
  nextOk_ite h (nextOk_ite (memoryOk_endRegion (memoryOk_foldl _ (fun _ _ h1 => memoryOk_modCore _ _ h1) _ _
      (memoryOk_applyAbort (memoryOk_endXPhase (memoryOk_abortSpoil h)))))
        (memoryOk_killAtPoint (memoryOk_takePoint (memoryOk_startC
          (memoryOk_capHosts (memoryOk_finishInvals _ (memoryOk_modRegion _ _ (fun _ h2 => h2)
            (memoryOk_foldl _ (fun _ _ h3 => memoryOk_modCore _ _ h3) _ _
              (memoryOk_applyAbort (memoryOk_endXPhase (memoryOk_abortSpoil h)))))))))))

theorem memoryOk_leaveCheck {s : State} {target : Word} (h : MemoryOk s) : MemoryOk (leaveCheck s target) :=
  memoryOk_modMe _ h

theorem memoryOk_leaveTo {s : State} {target : Word} (h : MemoryOk s) : MemoryOk (leaveTo s target) :=
  memoryOk_jumpTo _ (memoryOk_leaveCheck h)

theorem nextOk_branch {s : State} {i : Instr} {c : Cond} {a b : BitVec 5} {o : BitVec 11} (h : MemoryOk s) : NextOk (branch i c a b o s) :=
  nextOk_issueWord (memoryOk_ite (memoryOk_leaveTo h) (memoryOk_retire h)) h

theorem memoryOk_jumpLink {s : State} {d : BitVec 5} {target : Word} (h : MemoryOk s) : MemoryOk (jumpLink s d target) :=
  memoryOk_jumpTo _ (memoryOk_writeS _ _ (memoryOk_ite (memoryOk_leaveCheck h) h))

theorem nextOk_execJal {s : State} {d : BitVec 5} {i : BitVec 19} (h : MemoryOk s) : NextOk (execJal d i s) :=
  nextOk_issueWord (memoryOk_jumpLink h) h

theorem nextOk_execJalr {s : State} {d a : BitVec 5} {i : BitVec 14} (h : MemoryOk s) : NextOk (execJalr d a i s) :=
  nextOk_issueWord (leaves_ite trivial (memoryOk_jumpLink h)) h

theorem memoryOk_readCode {s : State} {core : Nat} {n : Fin 4} {a : TcmAddr} (h : MemoryOk s) : MemoryOk (readCode s core n a).2 :=
  memoryOk_loadAt _ _ _ h

theorem answers_loopSetup {s : State} {v : BitVec 1} {n : BitVec 12} {cnt : Nat} (h : MemoryOk s) : Answers MemoryOk (loopSetup v n cnt s) :=
  leaves_ite trivial (leaves_ite (memoryOk_raise _ _ _ _ (memoryOk_readCode h))
    (leaves_ite (memoryOk_modMe _ (memoryOk_readCode h)) (memoryOk_modMe _ (memoryOk_readCode h))))

theorem nextOk_execLoop {s : State} {v : BitVec 1} {a : BitVec 5} {n : BitVec 12} (h : MemoryOk s) : NextOk (execLoop v a n s) :=
  nextOk_issueWord (answers_loopSetup h) h

theorem nextOk_execLoopi {s : State} {v : BitVec 1} {c : BitVec 9} {n : BitVec 12} (h : MemoryOk s) : NextOk (execLoopi v c n s) :=
  nextOk_issueWord (answers_loopSetup h) h

theorem memoryOk_readCodes {s : State} {core : Nat} {n : Fin 4} {k : Nat} {a : TcmAddr} (h : MemoryOk s) :
    MemoryOk (readCodes core n k s a).2 := by
  induction k generalizing s a with
  | zero => exact h
  | succ k ih => exact ih (memoryOk_readCode h)

theorem memoryOk_bodyWords {s : State} {core : Nat} {n : Fin 4} {body : TcmAddr} {blen : Nat} (h : MemoryOk s) :
    MemoryOk (bodyWords s core n body blen).2 := by
  unfold bodyWords
  exact memoryOk_readCodes h

theorem nextOk_execRep {s : State} {b : BitVec 4} {p : BitVec 8} {g t : BitVec 3} (h : MemoryOk s) : NextOk (execRep b p g t s) :=
  nextOk_issueWord (leaves_ite trivial (leaves_ite (memoryOk_modMe _ (memoryOk_bodyWords h)) (memoryOk_stopWord _ (memoryOk_bodyWords h)))) h

theorem memoryOk_unpin {s : State} {id : Nat} (h : MemoryOk s) : MemoryOk (unpin s id) :=
  memoryOk_mapEntries (fun _ h1 => h1) h

/-! ### Launches -/

theorem packageMemoryOk_pinEntry {img : Image} {region v : Nat} {c : LoadedCode} {die : Nat} {p q : Package}
    (hq : pinEntry img region v c die p = some q) (h : PackageMemoryOk p) : PackageMemoryOk q := by
  unfold pinEntry at hq
  dsimp only at hq
  split at hq
  · cases hq; exact h
  · split at hq
    · cases hq
    · cases hq; exact h

theorem answers_pinAll {s : State} {img : Image} {b : Rcb} {vs : List (Nat × Nat)} {l : List (LoadedCode × Nat × Nat)} (h : MemoryOk s) :
    Answers MemoryOk (pinAll img b vs l s) := by
  induction l generalizing s with
  | nil => exact h
  | cons e l ih =>
    unfold pinAll
    dsimp only
    split
    · split
      · trivial
      · next hp => exact ih (memoryOk_modPackage _ _ (fun _ _ => packageMemoryOk_pinEntry hp (packageMemoryOk_get _ h)) h)
    · exact ih h

theorem memoryOk_startCore {s : State} {r : Region} {l : Launch} {core : Nat} (h : MemoryOk s) : MemoryOk (startCore r l s core) := by
  unfold startCore
  dsimp only
  split
  · refine memoryOk_setCore _ _ (memoryOk_mem ?_ h)
    have hcode := fun (k j : Nat) (bs cs : List Byte) => Memory.wf_writeBytes cs _ j (Memory.wf_writeBytes bs _ k h.1)
    split
    · exact Memory.wf_writeBytes _ _ _ (hcode _ _ _ _)
    · exact hcode _ _ _ _
  · exact h

theorem memoryOk_reusePasid {s : State} {p : Nat} {pasid : BitVec 20} (h : MemoryOk s) : MemoryOk (reusePasid s p pasid) :=
  memoryOk_modPackage _ _ (fun _ hk => hk) h

/-- A block registered: the regions there were, their parents renumbered, and an idle one. -/
theorem memoryOk_register {s : State} {b : Rcb} {old : Option Nat} (h : MemoryOk s) : MemoryOk (register s b old) := by
  refine memoryOk_regionState _ _ (memoryOk_foldl _ (fun _ _ hs => memoryOk_reusePasid hs) _ _ ⟨h.1, fun r hr => ?_, h.2.2⟩)
  rcases List.mem_append.mp hr with hr | hr
  · obtain ⟨q, hq, rfl⟩ := List.mem_map.mp hr
    have hok := h.2.1 q (List.mem_of_mem_filter hq)
    split <;> exact hok
  · cases List.mem_singleton.mp hr
    exact regionMemoryOk_idle b

theorem nextOk_regionPacket {s : State} {p : Packet} {f : Region → State → State} (hf : ∀ r u, MemoryOk u → MemoryOk (f r u)) (h : MemoryOk s) :
    NextOk (regionPacket p f s) := by
  refine nextOk_issuePacket (fun u hu => ?_) h
  split
  · exact memoryOk_finishPacket hu
  · exact hf _ u hu

theorem memoryOk_askWay {s : State} {r : Region} (h : MemoryOk s) : MemoryOk (askWay s r) := by
  unfold askWay
  refine memoryOk_foldl _ (fun _ _ h1 => ?_) _ _ h
  exact memoryOk_modRegion _ _ (fun _ hr => hr) h1

theorem memoryOk_zeroRegion {s : State} {b : Rcb} (h : MemoryOk s) : MemoryOk (zeroRegion s b) :=
  memoryOk_foldl _ (fun _ _ h1 => memoryOk_foldl _ (fun _ _ h2 => memoryOk_mem (Memory.wf_zeroBytes _ _ _ h2.1) h2) _ _ h1) _ _
    (memoryOk_foldl _ (fun _ _ h3 => memoryOk_mem (Memory.wf_zeroBytes _ _ _ h3.1) h3) _ _
      (memoryOk_foldl _ (fun _ _ h4 => memoryOk_foldl _ (fun _ _ h5 => memoryOk_mem (Memory.wf_zeroBytes _ _ _ h5.1) h5) _ _ h4) _ _ h))

theorem memoryOk_refuseStart {s : State} {r : Region} {l : Launch} {detail : Word} (h : MemoryOk s) : MemoryOk (refuseStart s r l detail) :=
  memoryOk_finishWaits (memoryOk_completePacket _ _ _ _ _ _ _
    (memoryOk_regionState _ _ (memoryOk_releaseRegion (memoryOk_foldl _ (fun _ _ h1 => memoryOk_completePacket _ _ _ _ _ _ _ h1) _ _
      (memoryOk_finishInvals _ h)))))

theorem memoryOk_startLaunch {s : State} {r : Region} {l : Launch} (h : MemoryOk s) : MemoryOk (startLaunch s r l) := by
  unfold startLaunch
  dsimp only
  split
  · exact memoryOk_refuseStart h
  · next _ _ heq => exact memoryOk_takePoint (memoryOk_startC
      (memoryOk_regionState _ _ (memoryOk_foldl _ (fun _ _ h1 => memoryOk_startCore h1) _ _
        (memoryOk_zeroRegion (memoryOk_of_ok (answers_pinAll h) heq)))))

theorem nextOk_execLaunchStart {s : State} {region : Nat} (h : MemoryOk s) : NextOk (execLaunchStart region s) := by
  unfold execLaunchStart
  dsimp only
  split
  · exact h
  · exact nextOk_ite h (nextOk_ite (memoryOk_startLaunch h) (memoryOk_askWay h))

theorem memoryOk_writeMirror {s : State} {pkg : Nat} {q : Queue} (h : MemoryOk s) : MemoryOk (writeMirror s pkg q) := by
  unfold writeMirror
  split
  · exact h
  · split
    · exact h
    · exact memoryOk_memPut _ _ _ h

theorem memoryOk_enableQueue {s : State} {pkg q : Nat} {c : Word} (h : MemoryOk s) : MemoryOk (enableQueue s pkg q c) :=
  memoryOk_ite (memoryOk_ite (memoryOk_askMissing _ _ _ (memoryOk_modQueue _ _ _ (memoryOk_reusePasid h)))
    (memoryOk_writeMirror (memoryOk_modQueue _ _ _ (memoryOk_reusePasid h)))) (memoryOk_modQueue _ _ _ h)

theorem nextOk_execQueueEnable {s : State} {pkg q : Nat} {cfg : Word} (h : MemoryOk s) : NextOk (execQueueEnable pkg q cfg s) :=
  nextOk_ite h (memoryOk_enableQueue h)

theorem memoryOk_stopQueue {s : State} {pkg q : Nat} {code : BitVec 8} (h : MemoryOk s) : MemoryOk (stopQueue s pkg q code) :=
  memoryOk_modQueue _ _ _ h

theorem memoryOk_disableQueue {s : State} {pkg q : Nat} (h : MemoryOk s) : MemoryOk (disableQueue s pkg q) :=
  memoryOk_ite (memoryOk_modQueue _ _ _ h) (memoryOk_stopQueue h)

theorem nextOk_execQueueDisable {s : State} {pkg q : Nat} {cfg : Word} (h : MemoryOk s) : NextOk (execQueueDisable pkg q cfg s) :=
  nextOk_ite (memoryOk_disableQueue h) h

theorem nextOk_execQtailWrite {s : State} {pkg q : Nat} {value : Word} (h : MemoryOk s) : NextOk (execQtailWrite pkg q value s) :=
  nextOk_ite h (memoryOk_modQueue _ _ _ h)

theorem memoryOk_answer {s : State} {pkg : Nat} {x : Word} (h : MemoryOk s) : MemoryOk (answer s pkg x) :=
  memoryOk_modPackage _ _ (fun _ h1 => h1) h

theorem nextOk_execQclaimFetchadd {s : State} {pkg q : Nat} {op : HostAtomic} (h : MemoryOk s) : NextOk (execQclaimFetchadd pkg q op s) := by
  unfold execQclaimFetchadd
  dsimp only
  split
  · exact h
  · split
    · exact memoryOk_modPackage _ _ (fun _ h1 => h1) h
    · exact nextOk_ite (memoryOk_answer (memoryOk_modQueue _ _ _ h)) (memoryOk_answer h)

theorem nextOk_execDoorbellEvent {s : State} {pkg : Nat} (h : MemoryOk s) : NextOk (execDoorbellEvent pkg s) := by
  unfold execDoorbellEvent
  split
  · exact h
  · exact memoryOk_modQueue _ _ _ (memoryOk_modPackage _ _ (fun _ h1 => h1) h)

theorem memoryOk_waitFor {s : State} {p : Packet} {regions : List Nat} {what : WaitFor} (h : MemoryOk s) : MemoryOk (waitFor p regions what s) :=
  memoryOk_finishWaits (memoryOk_of_same rfl rfl rfl h)

theorem answers_checkLaunch {s : State} {p : Packet} {x : Checked (Nat × Launch × List LoadedCode × State)} (h : MemoryOk s)
    (hx : checkLaunch s p = x) : Answers (fun a => MemoryOk a.2.2.2) x := by
  subst hx
  unfold checkLaunch
  extract_lets +onlyGivenNames m k
  clear_value m k
  apply answers_after; intro _
  apply answers_after; intro _
  split
  · trivial
  extract_lets +onlyGivenNames region _ b img0 img
  clear_value b img
  split
  · trivial
  · trivial
  · iterate 8 apply answers_after; intro _
    dsimp only
    split
    · trivial
    · next hpin =>
      split
      · trivial
      · exact memoryOk_unpin (memoryOk_of_ok (answers_pinAll h) hpin)

theorem nextOk_execLaunch {s : State} {p : Packet} (h : MemoryOk s) : NextOk (execLaunch p s) := by
  unfold execLaunch
  refine nextOk_issuePacket (fun u hu => ?_) h
  split
  · exact memoryOk_finishPacket hu
  · next heq =>
    have hc := answers_checkLaunch hu heq
    exact memoryOk_regionState _ _ (memoryOk_modRegion _ _ (fun r _ => regionMemoryOk_idle r.rcb) hc)

theorem nextOk_execNop {s : State} {p : Packet} (h : MemoryOk s) : NextOk (execNop p s) :=
  nextOk_issuePacket (fun _ h1 => memoryOk_finishPacket h1) h

theorem nextOk_execHosttx {s : State} {p : Packet} (h : MemoryOk s) : NextOk (execHosttx p s) := by
  unfold execHosttx
  dsimp only
  refine nextOk_issuePacket (fun _ h1 => ?_) h
  split
  · exact memoryOk_finishPacket h1
  · split
    · exact memoryOk_finishPacket h1
    · split
      · exact memoryOk_finishPacket h1
      · split
        · exact memoryOk_finishPacket h1
        · exact memoryOk_ite (memoryOk_finishPacket h1) (memoryOk_modRegion _ _ (fun _ h2 => h2) h1)

theorem nextOk_execIndirect {s : State} {p : Packet} (h : MemoryOk s) : NextOk (execIndirect p s) :=
  nextOk_issuePacket (fun _ h1 => memoryOk_ite (memoryOk_finishPacket h1) (memoryOk_modQueue _ _ _ h1)) h

theorem nextOk_execRegion {s : State} {p : Packet} (h : MemoryOk s) : NextOk (execRegion p s) :=
  nextOk_issuePacket (fun _ h1 => memoryOk_ite (memoryOk_finishPacket (memoryOk_register h1)) (memoryOk_finishPacket h1)) h

theorem nextOk_execKill {s : State} {p : Packet} (h : MemoryOk s) : NextOk (execKill p s) :=
  nextOk_regionPacket (fun _ _ h1 => memoryOk_waitFor
      (memoryOk_foldl _ (fun _ _ h2 => memoryOk_killAtPoint h2) _ _
        (memoryOk_foldl _ (fun _ _ h3 => memoryOk_modRegion _ _ (by exact fun _ hr => hr) h3) _ _ h1))) h

theorem nextOk_execSuspend {s : State} {p : Packet} (h : MemoryOk s) : NextOk (execSuspend p s) :=
  nextOk_regionPacket (fun _ _ h1 => memoryOk_ite (memoryOk_finishPacket h1)
      (memoryOk_waitFor (memoryOk_foldl _ (fun _ _ h2 => memoryOk_modRegion _ _ (by exact fun _ hr => hr) h2) _ _ h1))) h

theorem nextOk_execResume {s : State} {p : Packet} (h : MemoryOk s) : NextOk (execResume p s) :=
  nextOk_regionPacket (fun _ _ h1 => memoryOk_waitFor
      (memoryOk_foldl _ (fun _ _ h2 => memoryOk_modRegion _ _ (by exact fun _ hr => hr) h2) _ _ h1)) h

theorem nextOk_execInval {s : State} {p : Packet} (h : MemoryOk s) : NextOk (execInval p s) := by
  unfold execInval
  refine nextOk_issuePacket (fun _ h1 => ?_) h
  split
  · exact memoryOk_finishPacket h1
  · exact memoryOk_ite (memoryOk_modRegion _ _ (fun _ h2 => h2) h1) (memoryOk_finishPacket h1)

theorem nextOk_execEvict {s : State} {p : Packet} (h : MemoryOk s) : NextOk (execEvict p s) :=
  nextOk_issuePacket (fun _ h1 => memoryOk_finishPacket (memoryOk_modPackage _ _ (fun _ h2 => h2) h1)) h

theorem nextOk_execSignal {s : State} {p : Packet} (h : MemoryOk s) : NextOk (execSignal p s) :=
  nextOk_issuePacket (fun _ h1 => memoryOk_finishPacket (memoryOk_memPut _ _ _ h1)) h

theorem nextOk_execDestroy {s : State} {p : Packet} (h : MemoryOk s) : NextOk (execDestroy p s) :=
  nextOk_issuePacket (fun _ h1 => memoryOk_finishPacket (memoryOk_stopQueue h1)) h

theorem memoryOk_endIndirect {s : State} {pkg q status : Nat} (h : MemoryOk s) : MemoryOk (endIndirect s pkg q status) := by
  unfold endIndirect
  split
  · exact h
  · exact memoryOk_completePacket _ _ _ _ _ _ _ (memoryOk_modQueue _ _ _ h)

theorem memoryOk_stepIndirect {s : State} {pkg q : Nat} (h : MemoryOk s) : MemoryOk (stepIndirect s pkg q) := by
  unfold stepIndirect
  split
  · exact h
  · exact memoryOk_ite (memoryOk_endIndirect h) (memoryOk_modQueue _ _ _ h)

theorem nextOk_runPacket {s : State} {p : Packet} (h : MemoryOk s) : NextOk (runPacket p s) := by
  unfold runPacket
  split
  · exact nextOk_execNop h
  · exact nextOk_execLaunch h
  · exact nextOk_execHosttx h
  · exact nextOk_execIndirect h
  · exact nextOk_execRegion h
  · exact nextOk_execKill h
  · exact nextOk_execSuspend h
  · exact nextOk_execResume h
  · exact nextOk_execInval h
  · exact nextOk_execEvict h
  · exact nextOk_execSignal h
  · exact nextOk_execDestroy h
  · exact nextOk_issuePacket (fun _ hu => hu) h

theorem nextOk_issueHeld {s : State} {p : Packet} (h : MemoryOk s) : NextOk (issueHeld p s) :=
  nextOk_ite (nextOk_runPacket h) (nextOk_issuePacket (fun _ hu => hu) h)

theorem memoryOk_afterIssued {s : State} {p : Packet} (h : MemoryOk s) : MemoryOk (afterIssued p s) := by
  have hline : MemoryOk (if p.indirect then stepIndirect s p.pkg p.q
      else writeMirror (modQueue s p.pkg p.q fun qu => { qu with head := qu.head + 1#32 }) p.pkg
        (getQueue (modQueue s p.pkg p.q fun qu => { qu with head := qu.head + 1#32 }) p.pkg p.q)) :=
    memoryOk_ite (memoryOk_stepIndirect h) (memoryOk_writeMirror (memoryOk_modQueue _ _ _ h))
  exact memoryOk_ite (memoryOk_stopQueue hline) hline

theorem nextOk_execStampRecheck {s : State} {pkg q : Nat} (h : MemoryOk s) : NextOk (execStampRecheck pkg q s) := by
  unfold execStampRecheck
  split
  · exact h
  · exact memoryOk_askPage _ _ _ h
  · exact memoryOk_endIndirect h
  · exact memoryOk_writeMirror (memoryOk_modQueue _ _ _ h)
  · refine nextOk_ite (memoryOk_modQueue _ _ _ h) ?_
    split
    · exact memoryOk_askPage _ _ _ (memoryOk_modQueue _ _ _ h)
    · split
      · next heq => exact memoryOk_afterIssued (memoryOk_of_nextOk (nextOk_issueHeld (memoryOk_modQueue _ _ _ h)) heq)
      · trivial
      · trivial

theorem memoryOk_destroyRecord {s : State} {pkg q : Nat} {num : BitVec 32} {comp : Word} {irq : Bool} (h : MemoryOk s) :
    MemoryOk (destroyRecord s pkg q num comp irq) :=
  memoryOk_ite h (memoryOk_writeRecord _ _ _ _ _ _ _ h)

theorem memoryOk_muteQueues {s : State} {pkg : Nat} {qs : List Nat} (h : MemoryOk s) : MemoryOk (muteQueues s pkg qs) :=
  memoryOk_of_same rfl rfl rfl (memoryOk_mapRegions (fun _ hr => hr) h)

theorem memoryOk_unstage {s : State} {pkg : Nat} {t : Xfer} (h : MemoryOk s) : MemoryOk (unstage pkg s t) := by
  unfold unstage
  split
  · exact h
  · exact memoryOk_ite h (memoryOk_modCore _ _ h)

theorem memoryOk_killPart {s : State} {pkg : Nat} {r : Region} (h : MemoryOk s) : MemoryOk (killPart pkg s r) := by
  have hspoil := memoryOk_spoilAll (brokenWrites s r.rcb.id fun p => p = pkg) h
  refine memoryOk_closeC (memoryOk_modRegion _ _ (fun r hr => hr) ?_)
  refine memoryOk_foldl _ (fun _ _ h1 => memoryOk_unstage h1) _ _ ?_
  refine memoryOk_foldl _ (fun _ _ h1 => memoryOk_modCore _ _ h1) _ _ ?_
  exact memoryOk_foldl _ (fun _ _ h1 => memoryOk_completePacket _ _ _ _ _ _ _ h1) _ _ hspoil

theorem nextOk_execPasidTeardown {s : State} {pkg : Nat} {pasid : BitVec 20} (h : MemoryOk s) : NextOk (execPasidTeardown pkg pasid s) := by
  refine memoryOk_modPackage _ _ (fun _ hp => hp) (memoryOk_finishWaits ?_)
  refine memoryOk_foldl _ (fun _ _ h1 => memoryOk_stopQueue h1) _ _ (memoryOk_killEach ?_)
  refine memoryOk_foldl _ (fun _ _ h1 => memoryOk_killPart h1) _ _ (memoryOk_muteQueues ?_)
  exact memoryOk_foldl _ (fun _ _ h1 => memoryOk_destroyRecord h1) _ _ (memoryOk_modPackage _ _ (fun _ hp => hp) h)

/-- A computation may go on from an answer it already has. -/
theorem engOk_keep {ε α β : Type} {P : β → Prop} {a : α} {s : State} {f : α × State → Except (ε × State) β} (h : MemoryOk s)
    (hf : ∀ x, MemoryOk x.2 → EngOk P (f x)) : EngOk P ((.ok (a, s) : Except (ε × State) (α × State)) >>= f) := hf (a, s) h

/-! ### The copy engine -/

theorem engOk_copyView {s : State} {core : Nat} {c : Cmd} {k : Nat} {fmt : Option Nat} (h : MemoryOk s) :
    EngOk (fun a => MemoryOk a.2) (copyView core c k fmt s) := by
  unfold copyView
  dsimp only
  split
  · exact h
  · next _ _ _ heq =>
      split
      · exact memoryOk_of_ok_snd (engOk_cmdRead h) heq
      · exact memoryOk_of_ok_snd (engOk_cmdRead h) heq

theorem engOk_precheckRecode {s : State} {core : Nat} {c : Cmd} (h : MemoryOk s) : EngOk (fun a => MemoryOk a.2) (precheckRecode core c s) :=
  leaves_ite h (leaves_bind (engOk_copyView h) fun _ h1 => leaves_ite
    (leaves_bind (engOk_copyView h1) fun _ h2 => engOk_keep h2 fun _ h3 => leaves_ite h3 (leaves_ite h3 (leaves_ite h3 (leaves_ite h3 h3))))
      (engOk_keep h1 fun _ h2 => leaves_ite h2 (leaves_ite h2 (leaves_ite h2 (leaves_ite h2 h2)))))

theorem engOk_moveElem {s : State} {core : Nat} {c : Cmd} {e k : Nat} {src : Option Word} {fill : List Byte} {dst : Word} (h : MemoryOk s) :
    EngOk MemoryOk (moveElem core c e k src fill dst s) := by
  unfold moveElem
  dsimp only
  split
  · exact leaves_bind (engOk_cmdRead h) fun _ h1 => engOk_cmdWrite h1
  · exact engOk_keep h fun _ h1 => engOk_cmdWrite h1

/-- An element's load and store leave every memory in its form; a stop of it hands back no state. -/
theorem answers_geometryElem {s : State} {core : Nat} {c : Cmd} {e : Nat} {lv : List Level} {v : List Nat} {index : Option Nat}
    (h : MemoryOk s) : Answers (fun a => MemoryOk a.2) (geometryElem core c e lv v index s) := by
  unfold geometryElem
  extract_lets fn ds ss place at_ go row withRow begin_
  have hgo : ∀ src fill dst u ix, MemoryOk u → Answers (fun a => MemoryOk a.2) (go src fill dst u ix) := by
    intro src fill dst u ix hu
    simp only [go]
    split
    · next heq => exact memoryOk_of_ok (engOk_moveElem hu) heq
    · trivial
  split
  · have hbegin : Answers (fun a => MemoryOk a.2) begin_ := by
      simp only [begin_]
      split
      · exact h
      · split
        · next heq => exact memoryOk_of_ok_snd (engOk_cmdRead h) heq
        · trivial
    clear_value begin_ go
    cases begin_ with
    | error x => trivial
    | ok a =>
      exact leaves_ite (leaves_ite (hgo _ _ _ _ _ hbegin) (hgo _ _ _ _ _ hbegin)) (leaves_ite hbegin (hgo _ _ _ _ _ hbegin))
  · exact hgo _ _ _ _ _ h

theorem memoryOk_geometryRun {s : State} {core : Nat} {c : Cmd} {e : Nat} {lv : List Level} {fuel : Nat} {v : List Nat} {ix : Option Nat}
    (h : MemoryOk s) : MemoryOk (geometryRun core c e lv fuel v ix s).1 := by
  induction fuel generalizing v ix s with
  | zero => exact h
  | succ fuel ih =>
    unfold geometryRun
    split
    · exact h
    · next heq =>
      have hs1 := memoryOk_of_ok_snd (answers_geometryElem h) heq
      split
      · exact hs1
      · exact ih hs1

theorem engOk_recodeSource {s : State} {core : Nat} {c : Cmd} {w : CopyViews} {p : Nat} (h : MemoryOk s) :
    EngOk (fun a => MemoryOk a.2) (recodeSource core c w p s) := by
  unfold recodeSource
  dsimp only
  split
  · exact leaves_bind (engOk_cmdRead h) fun _ h1 => h1
  · split
    · exact h
    · exact leaves_bind (engOk_cmdRead h) fun _ h1 => leaves_ite (leaves_bind (engOk_cmdRead h1) fun _ h2 => engOk_keep h2 fun _ h3 => h3)
        (leaves_bind (engOk_cmdRead h1) fun _ h2 => engOk_keep h2 fun _ h3 => h3)

theorem engOk_recodeSources {s : State} {core : Nat} {c : Cmd} {w : CopyViews} {p n : Nat} (h : MemoryOk s) :
    EngOk (fun a => MemoryOk a.2) (recodeSources core c w p n s) := by
  induction n generalizing s with
  | zero => exact h
  | succ n ih => exact leaves_bind (ih h) fun _ h1 => leaves_bind (engOk_recodeSource h1) fun _ h2 => h2

theorem engOk_recodeUnit {s : State} {core : Nat} {c : Cmd} {w : CopyViews} {unit p : Nat} (h : MemoryOk s) :
    EngOk MemoryOk (recodeUnit core c w unit p s) := by
  unfold recodeUnit
  refine leaves_bind (engOk_recodeSources h) fun a h1 => leaves_bind (Q := fun _ => True) ?_ fun _ _ => ?_
  · cases (List.range unit).mapM fun i => viewIndex w.dst (p + i) with
    | none => exact h1
    | some ns => trivial
  · exact leaves_bind (engOk_cmdRead h1) fun _ h2 => leaves_ite (engOk_cmdWrite h2) (engOk_cmdWrite h2)

theorem memoryOk_recodeRun {s : State} {core : Nat} {c : Cmd} {w : CopyViews} {unit fuel p : Nat} (h : MemoryOk s) :
    MemoryOk (recodeRun core c w unit fuel p s).1 := by
  induction fuel generalizing p s with
  | zero => exact h
  | succ fuel ih =>
    unfold recodeRun
    split
    · exact h
    · split
      · next heq => exact memoryOk_stoppedAt h (memoryOk_of_error (engOk_recodeUnit h) heq)
      · next heq => exact ih (memoryOk_of_ok (engOk_recodeUnit h) heq)

theorem engOk_startCopy {s : State} {core : Nat} {c : Cmd} (h : MemoryOk s) : EngOk (fun a => MemoryOk a.2) (startCopy core c s) := by
  unfold startCopy
  split
  · exact h
  · split
    · exact h
    · split
      · exact engOk_precheckRecode h
      · split
        · exact h
        · exact h

theorem memoryOk_runCopy {s : State} {core : Nat} {c : Cmd} {l : List (List Byte)} (h : MemoryOk s) : MemoryOk (runCopy core c l s).1 := by
  unfold runCopy
  dsimp only
  split
  · split
    · exact h
    · exact memoryOk_recodeRun h
  · split
    · exact h
    · exact memoryOk_geometryRun h

theorem memoryOk_recordFault {s : State} {core : Nat} {c : Cmd} {sub : Nat} {v : Vector Nat 5} (h : MemoryOk s) :
    MemoryOk (recordFault s core c sub v) := by
  unfold recordFault
  dsimp only
  refine memoryOk_foldl _ (fun _ _ h1 => ?_) _ _ (memoryOk_modCore _ _ h)
  split
  · next _ _ heq => exact memoryOk_spoilReg (memoryOk_fst heq (memoryOk_noteReg _ _ _ _ h1))
  · next _ _ heq => exact memoryOk_fst heq (memoryOk_noteReg _ _ _ _ h1)

theorem memoryOk_endCopy {s : State} {core : Nat} {c : Cmd} {r : Option (BitVec 8 × Word × BitVec 3)} (h : MemoryOk s) :
    MemoryOk (endCopy s core c r) := by
  unfold endCopy
  dsimp only
  split
  · exact memoryOk_faultCmd (memoryOk_recordFault h)
  · exact memoryOk_modStrand _ _ _ (memoryOk_completeCmd (memoryOk_completionWrite h))

theorem memoryOk_settleCopy {s : State} {core : Nat} {c : Cmd} {r : Option (BitVec 8 × Word × BitVec 3)} {posted : Bool} (h : MemoryOk s) :
    MemoryOk (settleCopy s core c r posted) :=
  memoryOk_ite (memoryOk_modCore _ _ h) (memoryOk_endCopy h)

theorem memoryOk_stopCopy {s : State} {core : Nat} {c : Cmd} {v : Vector Nat 5} {ix : Option Nat} {e : EngErr} {posted : Bool} (h : MemoryOk s) :
    MemoryOk (stopCopy s core c v ix e posted) := by
  unfold stopCopy
  split
  · exact memoryOk_settleCopy h
  · exact memoryOk_stopCmd h

theorem nextOk_execCopyCommandStart {s : State} {core : Nat} (h : MemoryOk s) : NextOk (execCopyCommandStart core s) := by
  unfold execCopyCommandStart
  dsimp only
  split
  · exact h
  · split
    · exact h
    · split
      · exact memoryOk_ite (memoryOk_endCopy h) h
      · split
        · next _ _ _ _ heq => exact memoryOk_stopCopy (memoryOk_stoppedAt h (memoryOk_of_error (engOk_startCopy h) heq))
        · next _ _ _ heq2 =>
            split
            · exact memoryOk_stopCopy (memoryOk_runCopy (memoryOk_of_ok_snd (engOk_startCopy h) heq2))
            · exact memoryOk_settleCopy (memoryOk_runCopy (memoryOk_of_ok_snd (engOk_startCopy h) heq2))

theorem nextOk_copyIssue {s : State} {i : Instr} {a b c : BitVec 5} (h : MemoryOk s) : NextOk (copyIssue i a b c s) :=
  nextOk_issueWord (answers_issueCommand h) h

theorem nextOk_execCpyres {s : State} {a b c : BitVec 5} (h : MemoryOk s) : NextOk (execCpyres a b c s) := by
  unfold execCpyres
  dsimp only
  refine nextOk_issueWord ?_ h
  split
  · exact trivial
  · split
    · exact trivial
    · exact answers_issueCommand (memoryOk_ite (memoryOk_noteRegs h) (memoryOk_modMyCore _ (memoryOk_noteRegs h)))

theorem nextOk_execEbset {s : State} {a r : BitVec 5} (h : MemoryOk s) : NextOk (execEbset a r s) := by
  unfold execEbset
  dsimp only
  refine nextOk_issueWord ?_ h
  split
  · next _ _ heq => exact memoryOk_retire (memoryOk_spoilReg (memoryOk_fst heq (memoryOk_noteReg_me _ _ h)))
  · next _ _ heq => exact memoryOk_retire (memoryOk_modMyCore _ (memoryOk_fst heq (memoryOk_noteReg_me _ _ h)))

theorem nextOk_execEbget {s : State} {a r : BitVec 5} (h : MemoryOk s) : NextOk (execEbget a r s) :=
  nextOk_issueWord (memoryOk_retire (memoryOk_writeS _ _ (memoryOk_noteRegs h))) h

/-! ### Faults, the debug port, pre-emption, registers and recovery -/

theorem nextOk_execFaultRecord {s : State} {pkg : Nat} (h : MemoryOk s) : NextOk (execFaultRecord pkg s) := by
  unfold execFaultRecord
  dsimp only
  split
  · exact h
  · exact nextOk_ite (memoryOk_modPackage _ _ (fun _ h1 => h1) h)
      (nextOk_ite (memoryOk_modPackage _ _ (fun _ h2 => h2) (memoryOk_writeBytes _ _ h)) h)

theorem memoryOk_firmwareWrite {s : State} {pkg : Nat} {w : Nat × Word} (h : MemoryOk s) : MemoryOk (firmwareWrite pkg s w) :=
  memoryOk_ite (memoryOk_memPut _ _ _ h) h

theorem nextOk_execFirmwareFlush {s : State} {pkg : Nat} {writes : List (Nat × Word)} {unmapped : List (Nat × Nat)} (h : MemoryOk s) :
    NextOk (execFirmwareFlush pkg writes unmapped s) :=
  memoryOk_ite (memoryOk_modPackage _ _ (fun _ h1 => h1) (memoryOk_foldl _ (fun _ _ h2 => memoryOk_firmwareWrite h2) _ _ h)) h

theorem nextOk_execAtsInvalidation {s : State} {pkg : Nat} {pasid : BitVec 20} {start len : Nat} (h : MemoryOk s) :
    NextOk (execAtsInvalidation pkg pasid start len s) :=
  memoryOk_modPackage _ _ (fun _ h1 => h1) h

theorem nextOk_execPageRequestResponse {s : State} {pkg : Nat} {pasid : BitVec 20} {page : Nat} {granted : Bool} (h : MemoryOk s) :
    NextOk (execPageRequestResponse pkg pasid page granted s) :=
  nextOk_ite h (nextOk_ite (memoryOk_modPackage _ _ (fun _ h1 => h1) h) (memoryOk_finishWaits (memoryOk_modPackage _ _ (fun _ h2 => h2) h)))

theorem nextOk_execPcieCompletion {s : State} {pkg : Nat} {what : Completion} (h : MemoryOk s) : NextOk (execPcieCompletion pkg what s) := by
  unfold execPcieCompletion
  split
  · split
    · exact h
    · split
      · exact memoryOk_finishWaits (memoryOk_modPackage _ _ (fun _ h1 => h1) h)
      · refine memoryOk_modPackage _ _ (fun _ h2 => ?_) h
        split
        · exact h2
        · exact h2
  · exact nextOk_ite (memoryOk_finishWaits (memoryOk_modCore _ _ h)) h
  · exact nextOk_ite (memoryOk_writeBytes _ _ h) h

theorem nextOk_execHostWindowWrite {s : State} {pkg addr : Nat} {bytes : List Byte} (h : MemoryOk s) :
    NextOk (execHostWindowWrite pkg addr bytes s) :=
  nextOk_ite (memoryOk_writeBytes _ _ h) h

theorem memoryOk_dbgEnd {s : State} {pkg cmd : Nat} {known : Bool} (h : MemoryOk s) : MemoryOk (dbgEnd s pkg cmd known) :=
  memoryOk_modPackage _ _ (fun _ h1 => h1) h

theorem memoryOk_spoilMx {s : State} {core code : Nat} (h : MemoryOk s) : MemoryOk (spoilMx s core code) :=
  memoryOk_ite (memoryOk_spoilLatch h) (memoryOk_ite (memoryOk_spoilKeeper h) (memoryOk_spoilAcc h))

theorem memoryOk_dbgWrite {s : State} {core : Nat} {n : Fin 4} {r : DbgReg} {v : Word} (h : MemoryOk s) : MemoryOk (dbgWrite s core n r v) := by
  unfold dbgWrite
  split
  · exact memoryOk_modPackage _ _ (fun _ h1 => h1) h
  · exact memoryOk_modPackage _ _ (fun _ h1 => h1) h
  · exact memoryOk_crPut h
  · exact memoryOk_modStrand _ _ _ h
  · exact memoryOk_modCore _ _ h
  · exact memoryOk_modCore _ _ h
  · exact memoryOk_spoilMx h
  · exact h

theorem memoryOk_dbgHalt {s : State} {pkg : Nat} (h : MemoryOk s) : MemoryOk (dbgHalt pkg s) :=
  memoryOk_dbgEnd (memoryOk_modCore _ _ h)

theorem memoryOk_dbgGo {s : State} {pkg : Nat} (h : MemoryOk s) : MemoryOk (dbgGo pkg s) :=
  memoryOk_dbgEnd (memoryOk_modCore _ _ h)

theorem memoryOk_dbgSetStep {s : State} {pkg : Nat} (h : MemoryOk s) : MemoryOk (dbgSetStep pkg s) :=
  memoryOk_dbgEnd (memoryOk_modStrand _ _ _ h)

theorem memoryOk_dbgRdreg {s : State} {pkg : Nat} (h : MemoryOk s) : MemoryOk (dbgRdreg pkg s) :=
  memoryOk_ite (memoryOk_dbgEnd h) (memoryOk_ite (memoryOk_dbgEnd (memoryOk_modPackage _ _ (fun _ h1 => h1) (memoryOk_freshV h)))
    (memoryOk_dbgEnd (memoryOk_modPackage _ _ (fun _ h1 => h1) h)))

theorem memoryOk_dbgWrreg {s : State} {pkg : Nat} (h : MemoryOk s) : MemoryOk (dbgWrreg pkg s) :=
  memoryOk_ite (memoryOk_dbgEnd h) (memoryOk_dbgEnd (memoryOk_dbgWrite h))

theorem packageMemoryOk_of_same {p q : Package} (hsafe : q.safe = p.safe) (h : PackageMemoryOk p) : PackageMemoryOk q := by
  unfold PackageMemoryOk
  rw [hsafe]
  exact h

theorem memoryOk_showData {s : State} {pkg : Nat} (f : Package → Word) (h : MemoryOk s) :
    MemoryOk (modPackage s pkg fun p => { p with dbgData := f p }) := memoryOk_modPackage _ _ (fun _ hp => hp) h

theorem memoryOk_dbgRdtcm {s : State} {pkg : Nat} (h : MemoryOk s) : MemoryOk (dbgRdtcm pkg s) :=
  memoryOk_dbgEnd (memoryOk_showData (fun p => BitVec.ofNat 64 (memNat s.mem (dbgTcm pkg p) 8)) h)

theorem memoryOk_dbgWrtcm {s : State} {pkg : Nat} (h : MemoryOk s) : MemoryOk (dbgWrtcm pkg s) :=
  memoryOk_dbgEnd (memoryOk_memPut _ _ _ h)

theorem memoryOk_dbgBrken {s : State} {pkg : Nat} (h : MemoryOk s) : MemoryOk (dbgBrken pkg s) := by
  unfold dbgBrken
  dsimp only
  split
  · exact memoryOk_dbgEnd (memoryOk_modRegion _ _ (fun _ h1 => h1) h)
  · exact memoryOk_dbgEnd h

theorem memoryOk_ifFirmware {s : State} {pkg : Nat} {f : Nat → State → State} (hf : MemoryOk s → MemoryOk (f pkg s)) (h : MemoryOk s) :
    MemoryOk (ifFirmware pkg f s) := memoryOk_when hf h

theorem nextOk_execHalt {s : State} {pkg : Nat} (h : MemoryOk s) : NextOk (execHalt pkg s) := memoryOk_ifFirmware memoryOk_dbgHalt h

theorem nextOk_execDbgResume {s : State} {pkg : Nat} (h : MemoryOk s) : NextOk (execDbgResume pkg s) := memoryOk_ifFirmware memoryOk_dbgGo h

theorem nextOk_execDbgStep {s : State} {pkg : Nat} (h : MemoryOk s) : NextOk (execDbgStep pkg s) := memoryOk_ifFirmware memoryOk_dbgSetStep h

theorem nextOk_execRdreg {s : State} {pkg : Nat} (h : MemoryOk s) : NextOk (execRdreg pkg s) := memoryOk_ifFirmware memoryOk_dbgRdreg h

theorem nextOk_execWrreg {s : State} {pkg : Nat} (h : MemoryOk s) : NextOk (execWrreg pkg s) := memoryOk_ifFirmware memoryOk_dbgWrreg h

theorem nextOk_execRdtcm {s : State} {pkg : Nat} (h : MemoryOk s) : NextOk (execRdtcm pkg s) := memoryOk_ifFirmware memoryOk_dbgRdtcm h

theorem nextOk_execWrtcm {s : State} {pkg : Nat} (h : MemoryOk s) : NextOk (execWrtcm pkg s) := memoryOk_ifFirmware memoryOk_dbgWrtcm h

theorem nextOk_execBrken {s : State} {pkg : Nat} (h : MemoryOk s) : NextOk (execBrken pkg s) := memoryOk_ifFirmware memoryOk_dbgBrken h

theorem memoryOk_dbgOf {s : State} {cmd pkg : Nat} (h : MemoryOk s) : MemoryOk (dbgOf cmd pkg s) := by
  unfold dbgOf
  split
  · exact memoryOk_dbgHalt h
  · exact memoryOk_dbgGo h
  · exact memoryOk_dbgSetStep h
  · exact memoryOk_dbgRdreg h
  · exact memoryOk_dbgWrreg h
  · exact memoryOk_dbgRdtcm h
  · exact memoryOk_dbgWrtcm h
  · exact memoryOk_dbgBrken h
  · exact memoryOk_dbgEnd h

theorem memoryOk_dbgCommand {s : State} {pkg : Nat} {cmd : Word} (h : MemoryOk s) : MemoryOk (dbgCommand pkg cmd s) :=
  memoryOk_ifFirmware memoryOk_dbgOf h

theorem memoryOk_preemptStrand {s : State} {core : Nat} {n : Fin 4} (h : MemoryOk s) : MemoryOk (preemptStrand core s n) :=
  memoryOk_ite (memoryOk_trapEntry _ _ _ _ _ _ _ h) h

theorem memoryOk_preemptCore {s : State} {core : Nat} (h : MemoryOk s) : MemoryOk (preemptCore s core) := by
  unfold preemptCore
  exact memoryOk_modCore _ _ (memoryOk_foldl _ (fun _ _ h1 => memoryOk_preemptStrand h1) _ _ h)

/-- The region keeps what its cores held of memory, a part of one that is in its form. -/
theorem memoryOk_spillRegion {s : State} {id : Nat} (h : MemoryOk s) : MemoryOk (spillRegion s id) := by
  have hblocks : MemoryOk ((heldCores s id).foldl
      (fun s c => { s with mem := writeBytes s.mem (perCoreKey (getCore s c) c) (perCoreBlock (getCore s c)) }) s) :=
    memoryOk_foldl _ (fun _ _ hs => memoryOk_writeBytes _ _ hs) _ _ h
  refine memoryOk_finishWaits (memoryOk_regionState _ _ (memoryOk_spoilAll _ (memoryOk_modRegion _ _ (fun r hr => ?_) ?_)))
  · obtain ⟨hC, hPhase, -⟩ := hr
    exact ⟨hC, hPhase, Memory.wf_filter _ _ hblocks.1⟩
  · exact memoryOk_foldl _ (fun _ _ hs => memoryOk_modCore _ _ hs) _ _ hblocks

theorem nextOk_execPreemptionTake {s : State} {region : Nat} (h : MemoryOk s) : NextOk (execPreemptionTake region s) := by
  unfold execPreemptionTake
  refine nextOk_ite (memoryOk_killAtPoint h) (nextOk_ite (memoryOk_spillRegion h) ?_)
  split
  · exact h
  · refine memoryOk_foldl _ (fun _ _ h1 => memoryOk_preemptCore h1) _ _ (memoryOk_modRegion _ _ (fun r hr => ?_) h)
    by_cases ht : r.phase = .t
    · rw [if_pos ht]
      exact hr
    · rw [if_neg ht]
      exact hr

theorem memoryOk_resumeCore {s : State} {m : Memory} {e : Nat × Core} (h : MemoryOk s) : MemoryOk (resumeCore m s e) :=
  memoryOk_setCore _ _ h

theorem nextOk_execPreemptionResume {s : State} {region : Nat} (h : MemoryOk s) : NextOk (execPreemptionResume region s) := by
  refine nextOk_ite h (nextOk_ite (memoryOk_finishWaits (memoryOk_regionState _ _ (memoryOk_modRegion _ _ (fun r hr => ?_) ?_)))
    (memoryOk_askWay h))
  · obtain ⟨hC, hPhase, -⟩ := hr
    exact ⟨hC, hPhase, rfl⟩
  · exact memoryOk_foldl _ (fun _ _ h1 => memoryOk_resumeCore h1) _ _
      (memoryOk_mem (Memory.wf_foldl _ (fun _ _ hm => Memory.wf_memWrite _ _ _ hm) _ _ (Memory.wf_filter _ _ h.1)) h)

theorem nextOk_execPreemptTimeout {s : State} {region : Nat} (h : MemoryOk s) : NextOk (execPreemptTimeout region s) :=
  nextOk_ite (memoryOk_killEach h) h

theorem nextOk_execParkTimeout {s : State} {region : Nat} (h : MemoryOk s) : NextOk (execParkTimeout region s) :=
  nextOk_ite (memoryOk_killEach h) h

theorem memoryOk_writeQueueReg {s : State} {pkg q reg : Nat} {v : Word} (h : MemoryOk s) : MemoryOk (writeQueueReg s pkg q reg v) := by
  unfold writeQueueReg
  dsimp only
  split
  · exact memoryOk_ite (memoryOk_ite h (memoryOk_disableQueue h)) (memoryOk_ite (memoryOk_enableQueue h) (memoryOk_modQueue _ _ _ h))
  · exact memoryOk_ite h (memoryOk_modQueue _ _ _ h)
  · exact memoryOk_ite h (memoryOk_modQueue _ _ _ h)

theorem safe_putPackageReg (p : Package) (off : Nat) (v : Word) : (putPackageReg p off v).safe = p.safe := by
  unfold putPackageReg
  split_ifs <;> rfl

theorem nextOk_execRegisterWrite {s : State} {pkg off : Nat} {value : Word} (h : MemoryOk s) : NextOk (execRegisterWrite pkg off value s) :=
  nextOk_ite (memoryOk_ite (memoryOk_writeQueueReg h) h) (nextOk_ite (memoryOk_dbgCommand h)
    (memoryOk_modPackage _ _ (fun _ hp => packageMemoryOk_of_same (safe_putPackageReg _ _ _) hp) h))

theorem nextOk_execThrottleBubble {s : State} {pkg : Nat} (h : MemoryOk s) : NextOk (execThrottleBubble pkg s) :=
  memoryOk_ite (memoryOk_modPackage _ _ (fun _ h1 => h1) (memoryOk_freshV h)) h

theorem nextOk_execEccCorrection {s : State} {pkg : Nat} (h : MemoryOk s) : NextOk (execEccCorrection pkg s) :=
  memoryOk_modPackage _ _ (fun _ h1 => h1) h

theorem memoryOk_restoreCore {s : State} {e : Nat × Core} (h : MemoryOk s) : MemoryOk (restoreCore s e) :=
  memoryOk_setCore _ _ h

theorem Memory.wf_restoreMemory {b : Rcb} {point cur : Memory} (h : Memory.wf cur = true) : Memory.wf (restoreMemory b point cur) = true :=
  Memory.wf_foldl _ (fun _ _ hm => Memory.wf_memWrite _ _ _ hm) _ _ (Memory.wf_filter _ _ h)

theorem memoryOk_rollback {s : State} {r : Region} {l : Launch} {p0 : RecPoint} (hp : Memory.wf p0.mem = true) (h : MemoryOk s) :
    MemoryOk (rollback s r l p0) := by
  refine memoryOk_startC (memoryOk_putPoint _ _ hp ?_)
  refine memoryOk_foldl _ (fun _ _ h1 => memoryOk_modPackage _ _ (by exact fun _ hq => hq) h1) _ _ ?_
  refine memoryOk_modRegion _ _ (fun _ _ => ⟨rfl, rfl, rfl⟩) (memoryOk_foldl _ (fun _ _ h1 => memoryOk_restoreCore h1) _ _ ?_)
  exact memoryOk_mem (Memory.wf_restoreMemory (memoryOk_writeNotice h).1) (memoryOk_writeNotice h)

theorem Memory.wf_rollbackPoint {s : State} {r : Region} {p : RecPoint} (hp : rollbackPoint s r = some p) (h : MemoryOk s) :
    Memory.wf p.mem = true := by
  unfold rollbackPoint at hp
  split at hp
  · next hrec =>
    split at hp
    · cases hp
      exact Memory.wf_recPointOf hrec h
    · cases hp
  · cases hp

theorem memoryOk_recoverRegion {s : State} {r : Region} (h : MemoryOk s) : MemoryOk (recoverRegion s r) := by
  unfold recoverRegion
  split
  · next hpoint => exact memoryOk_rollback (Memory.wf_rollbackPoint hpoint h) h
  · exact memoryOk_killEach h

theorem memoryOk_uncorrectable {s : State} {pkgs : List Nat} (h : MemoryOk s) : MemoryOk (uncorrectable s pkgs) :=
  memoryOk_foldl _ (fun _ _ h1 => memoryOk_recoverRegion h1) _ _ h

theorem nextOk_execUncorrectableError {s : State} {pkg : Nat} (h : MemoryOk s) : NextOk (execUncorrectableError pkg s) :=
  memoryOk_uncorrectable h

theorem nextOk_execThermalTrip {s : State} {pkg : Nat} (h : MemoryOk s) : NextOk (execThermalTrip pkg s) :=
  memoryOk_uncorrectable (memoryOk_modPackage _ _ (fun _ h1 => h1) (memoryOk_freshV h))

theorem nextOk_execLinkReplay {s : State} {pkg _port peer : Nat} {failed : Bool} (h : MemoryOk s) :
    NextOk (execLinkReplay pkg _port peer failed s) :=
  memoryOk_when (fun h1 => memoryOk_uncorrectable h1) (memoryOk_modPackage _ _ (fun _ h2 => h2) h)

theorem nextOk_execRecoveryPointValid {s : State} {region : Nat} (h : MemoryOk s) : NextOk (execRecoveryPointValid region s) := by
  unfold execRecoveryPointValid
  dsimp only
  split
  · exact h
  · next hpoint =>
    have hp := Memory.wf_recPointOf hpoint h
    exact memoryOk_putPoint _ _ hp h

/-- Regions and cores that go with a package, and the part of memory that is lost, leave the rest in its form. -/
theorem memoryOk_forget {s : State} (keep : Region → Bool) (cores : NatMap Core) (lost : Host.Cell → Bool) (h : MemoryOk s) :
    MemoryOk { s with regions := s.regions.filter keep, cores := cores, mem := s.mem.filter lost } :=
  ⟨Memory.wf_filter _ _ h.1, fun r hr => h.2.1 r (List.mem_of_mem_filter hr), h.2.2⟩

theorem nextOk_execDeviceReset {s : State} {pkg : Nat} {skips : List Nat} (h : MemoryOk s) : NextOk (execDeviceReset pkg skips s) := by
  have hmuted : MemoryOk { s with regions := s.regions.map (muteRegion pkg), waits := s.waits.filter fun w => w.pkg ≠ pkg } :=
    memoryOk_of_same rfl rfl rfl (memoryOk_mapRegions (f := muteRegion pkg) (fun _ hr => hr) h)
  exact memoryOk_modPackage _ _ (fun _ hp => hp) (memoryOk_forget _ _ _ (memoryOk_killEach hmuted))

/-! ### The selvedge unit -/

/-- A selvedge command's work, from any state in form, leaves one in form, whether it ends or stops. -/
def SvOk {α : Type} (m : Sv α) : Prop := ∀ s, MemoryOk s → EngOk (fun a => MemoryOk a.2) (m s)

section
variable {α β : Type}

theorem svOk_bind {m : Sv α} {f : α → Sv β} (hm : SvOk m) (hf : ∀ a, SvOk (f a)) : SvOk (m >>= f) :=
  fun s hs => leaves_bind (hm s hs) fun a ha => hf a.1 a.2 ha

theorem svOk_pure (a : α) : SvOk (pure a : Sv α) := fun _ hs => hs

theorem svOk_ite {c : Prop} [Decidable c] {m n : Sv α} (hm : SvOk m) (hn : SvOk n) : SvOk (if c then m else n) := by
  split <;> assumption

theorem svOk_get {f : State → Sv β} (hf : ∀ s, MemoryOk s → SvOk (f s)) : SvOk (get >>= f) :=
  fun s hs => hf s hs s hs

theorem svOk_set {t : State} {f : PUnit → Sv β} (ht : MemoryOk t) (hf : SvOk (f ⟨⟩)) : SvOk (set t >>= f) :=
  fun _ _ => hf t ht

theorem svOk_lift {P : α → Prop} {x : Eng α} {f : α → Sv β} (hx : EngOk P x) (hf : ∀ a, P a → SvOk (f a)) :
    SvOk ((liftM x : Sv α) >>= f) := by
  intro s hs
  cases x with
  | error e => exact hx
  | ok a => exact hf a hx s hs

theorem svOk_svThrow (e : EngErr) : SvOk (svThrow e : Sv α) := fun _ hs => hs

theorem svOk_svFail (sub : Nat) (faddr : Word) : SvOk (svFail sub faddr : Sv α) := svOk_svThrow _

end

theorem svOk_svRead {k : SvCmd} {va : Word} {n al : Nat} : SvOk (svRead k va n al) :=
  svOk_get fun _ hs => svOk_lift (engOk_cmdRead hs) fun _ hr => svOk_set hr (svOk_pure _)

theorem svOk_svReads {k : SvCmd} {va : Word} {w n : Nat} : SvOk (svReads k va w n) := by
  induction n generalizing va with
  | zero => exact svOk_pure _
  | succ n ih => exact svOk_bind svOk_svRead fun _ => svOk_bind ih fun _ => svOk_pure _

theorem svOk_svAddr {va : Word} {paths : List Nat} {al : Nat} {write : Bool} : SvOk (svAddr va paths al write) :=
  svOk_ite (svOk_svThrow _) (svOk_ite (svOk_svThrow _) (svOk_pure _))

theorem svOk_svNeed {k : SvCmd} {ok : Bool} : SvOk (svNeed k ok) := svOk_ite (svOk_pure _) (svOk_svFail _ _)

theorem svOk_readTable {k : SvCmd} {ha : Word} {sub : Nat} {faddr : Word} : SvOk (readTable k ha sub faddr) :=
  svOk_ite (svOk_svFail _ _) (svOk_bind svOk_svReads fun _ => svOk_ite (svOk_pure _) (svOk_svFail _ _))

theorem svOk_stateEntry {k : SvCmd} {h : PdaTable} {q : Nat} : SvOk (stateEntry k h q) :=
  svOk_ite (svOk_svFail _ _)
    (svOk_bind svOk_svRead fun _ => svOk_bind svOk_svRead fun _ => svOk_ite (svOk_svFail _ _) (svOk_pure _))

theorem svOk_readCtx {k : SvCmd} {ca : Word} : SvOk (readCtx k ca) :=
  svOk_bind svOk_svReads fun _ => svOk_ite (svOk_svFail _ _)
    (svOk_bind svOk_readTable fun _ => svOk_bind svOk_svReads fun _ => svOk_ite (svOk_svFail _ _) (svOk_pure _))

theorem svOk_rowOf {k : SvCmd} {h : PdaTable} {x : PdaCtx} : SvOk (rowOf k h x) :=
  svOk_bind svOk_stateEntry fun _ => svOk_bind svOk_svRead fun _ => svOk_ite (svOk_svFail _ _) (svOk_pure _)

theorem svOk_blockCode {k : SvCmd} {row b : Nat} : SvOk (blockCode k row b) :=
  svOk_bind svOk_svRead fun _ => svOk_ite (svOk_svFail _ _) (svOk_pure _)

theorem svOk_explicitBelow {k : SvCmd} {row n : Nat} : SvOk (explicitBelow k row n) := by
  induction n with
  | zero => exact svOk_pure _
  | succ n ih => exact svOk_bind ih fun _ => svOk_bind svOk_blockCode fun _ => svOk_pure _

theorem svOk_maskBit {k : SvCmd} {h : PdaTable} {row t : Nat} : SvOk (maskBit k h row t) :=
  svOk_ite (svOk_pure _) (svOk_bind svOk_blockCode fun _ => svOk_ite (svOk_pure _)
    (svOk_bind svOk_explicitBelow fun _ => svOk_bind svOk_svRead fun _ => svOk_pure _))

theorem svOk_rangeLookup {k : SvCmd} {h : PdaTable} {se : PdaState} {t fuel lo hi : Nat} : SvOk (rangeLookup k h se t fuel lo hi) := by
  induction fuel generalizing lo hi with
  | zero => exact svOk_pure _
  | succ fuel ih =>
    exact svOk_ite (svOk_pure _)
      (svOk_bind svOk_svRead fun _ => svOk_ite (svOk_svFail _ _) (svOk_ite ih (svOk_ite ih (svOk_pure _))))

theorem svOk_readAction {k : SvCmd} {h : PdaTable} {i : Nat} : SvOk (readAction k h i) :=
  svOk_bind svOk_svRead fun _ => svOk_bind svOk_svRead fun _ => svOk_ite (svOk_svFail _ _) (svOk_pure _)

theorem svOk_blockZero {k : SvCmd} {b ds : List Nat} : SvOk (blockZero k b ds) := svOk_svNeed

theorem svOk_runPdainit {k : SvCmd} {restore : Bool} {b : List Nat} : SvOk (runPdainit k restore b) := by
  have hend : ∀ (x : PdaCtx) (h : PdaTable), SvOk (do
      let se ← stateEntry k h x.state
      pure ({ writes := ctxWrites (BitVec.ofNat 64 (b.getD 0 0)) x 0, status := statusOf 0 x.state 0 se.accept } : SvResult)) :=
    fun _ _ => svOk_bind svOk_stateEntry fun _ => svOk_pure _
  refine svOk_bind svOk_blockZero fun _ => svOk_bind svOk_svAddr fun _ => svOk_ite ?_ ?_
  · exact svOk_bind svOk_svAddr fun _ => svOk_bind svOk_readCtx fun _ => hend _ _
  · refine svOk_bind svOk_svAddr fun _ => svOk_bind svOk_readTable fun _ => svOk_ite ?_ ?_
    · exact svOk_bind (svOk_svFail _ _) fun _ => hend _ _
    · exact svOk_bind svOk_stateEntry fun _ => svOk_ite (svOk_bind (svOk_svFail _ _) fun _ => hend _ _) (hend _ _)

theorem svOk_maskBits {k : SvCmd} {h : PdaTable} {row t0 n : Nat} : SvOk (maskBits k h row t0 n) := by
  induction n generalizing t0 with
  | zero => exact svOk_pure _
  | succ n ih => exact svOk_bind svOk_maskBit fun _ => svOk_bind ih fun _ => svOk_pure _

theorem svOk_runPdamask {k : SvCmd} {b : List Nat} : SvOk (runPdamask k b) :=
  svOk_bind svOk_blockZero fun _ => svOk_bind svOk_svNeed fun _ => svOk_bind svOk_svAddr fun _ => svOk_bind svOk_svAddr fun _ =>
    svOk_bind svOk_readCtx fun _ => svOk_bind svOk_rowOf fun _ => svOk_bind svOk_maskBits fun _ => svOk_pure _

theorem svOk_runPdastep {k : SvCmd} {b : List Nat} : SvOk (runPdastep k b) := by
  refine svOk_bind svOk_blockZero fun _ => svOk_bind svOk_svNeed fun _ => svOk_bind svOk_svAddr fun _ => svOk_bind svOk_readCtx fun _ => ?_
  refine svOk_bind svOk_stateEntry fun _ => svOk_bind svOk_rowOf fun _ => svOk_bind svOk_maskBit fun _ => svOk_ite (svOk_pure _) ?_
  refine svOk_bind svOk_rangeLookup fun found => ?_
  cases found with
  | none => exact svOk_pure _
  | some i =>
    exact svOk_bind svOk_readAction fun _ => svOk_ite (svOk_pure _) (svOk_ite (svOk_pure _)
      (svOk_bind svOk_stateEntry fun _ => svOk_ite (svOk_pure _) (svOk_pure _)))

theorem svOk_runPdasave {k : SvCmd} {b : List Nat} : SvOk (runPdasave k b) :=
  svOk_bind svOk_blockZero fun _ => svOk_bind svOk_svAddr fun _ => svOk_bind svOk_svAddr fun _ => svOk_bind svOk_readCtx fun _ => svOk_pure _

theorem svOk_sampleTokens {k : SvCmd} {logits mask : Word} {t0 tau n i : Nat} : SvOk (sampleTokens k logits mask t0 tau n i) := by
  induction n generalizing i with
  | zero => exact svOk_pure _
  | succ n ih =>
    have hrest : ∀ legal : Bool, SvOk (do
        let x ← svRead k (logits + BitVec.ofNat 64 (4 * i)) 4 4
        let rest ← sampleTokens k logits mask t0 tau n (i + 1)
        match (if legal then sampleZ x tau else none) with
        | some z => pure ((t0 + i, z, logits + BitVec.ofNat 64 (4 * i)) :: rest)
        | none => pure rest) := by
      intro legal
      refine svOk_bind svOk_svRead fun x => svOk_bind ih fun rest => ?_
      split
      · exact svOk_pure _
      · exact svOk_pure _
    exact svOk_ite (hrest _) (svOk_bind svOk_svRead fun _ => hrest _)

theorem svOk_runSamplep {k : SvCmd} {scan : Bool} {b : List Nat} : SvOk (runSamplep k scan b) := by
  unfold runSamplep
  extract_lets logits mask t0 n tau gm kk rec_ tauOk value gmax rest
  have hrest : ∀ u, SvOk (rest u) := by
    intro u
    refine svOk_bind svOk_svAddr fun _ => svOk_bind svOk_sampleTokens fun toks => svOk_ite (svOk_pure _) (svOk_ite (svOk_svFail _ _) ?_)
    split
    · exact svOk_svFail _ _
    · exact svOk_pure _
  exact svOk_bind svOk_svNeed fun _ => svOk_bind svOk_svAddr fun _ => svOk_ite (svOk_bind svOk_svAddr hrest) (hrest ())

theorem svOk_readCands {k : SvCmd} {ra : Word} {n i : Nat} : SvOk (readCands k ra n i) := by
  induction n generalizing i with
  | zero => exact svOk_pure _
  | succ n ih => exact svOk_bind svOk_svRead fun _ => svOk_bind svOk_svRead fun _ => svOk_bind ih fun _ => svOk_pure _

theorem svOk_readRecords {k : SvCmd} {kk stride n : Nat} {ra : Word} : SvOk (readRecords k kk stride n ra) := by
  induction n generalizing ra with
  | zero => exact svOk_pure _
  | succ n ih =>
    refine svOk_bind svOk_svRead fun _ => svOk_bind svOk_svRead fun _ => svOk_bind svOk_svRead fun _ => svOk_ite (svOk_svFail _ _) ?_
    exact svOk_bind svOk_readCands fun _ => svOk_ite (svOk_svFail _ _) (svOk_bind ih fun _ => svOk_pure _)

theorem svOk_runSamplef {k : SvCmd} {b : List Nat} : SvOk (runSamplef k b) := by
  unfold runSamplef
  extract_lets recs nrec kk stride topp _ rest
  have hrest : ∀ u, SvOk (rest u) := by
    intro u
    refine svOk_bind svOk_readRecords fun rs => ?_
    split
    · exact svOk_svFail _ _
    · exact svOk_ite (svOk_pure _) (svOk_ite (svOk_pure _) (svOk_pure _))
  exact svOk_bind svOk_svNeed fun _ => svOk_bind svOk_svAddr fun _ => svOk_ite (svOk_bind (svOk_svFail _ _) hrest) (hrest ())

theorem svOk_svCheckWrites {k : SvCmd} {ws : List (Word × List Byte)} : SvOk (svCheckWrites k ws) := by
  induction ws with
  | nil => exact svOk_pure _
  | cons w ws ih =>
    refine svOk_get fun s _ => ?_
    split
    · exact svOk_svThrow _
    · exact svOk_bind ih fun _ => svOk_pure _

theorem svOk_svWrites {k : SvCmd} {ws : List (Word × List Byte)} {i : Nat} : SvOk (svWrites k ws i) := by
  induction ws generalizing i with
  | nil => exact svOk_pure _
  | cons w ws ih => exact svOk_get fun _ hs => svOk_lift (engOk_cmdWrite hs) fun _ hw => svOk_set hw ih

theorem svOk_svStart {k : SvCmd} : SvOk (svStart k) := by
  unfold svStart
  split
  · exact svOk_pure _
  · have hread : SvOk (do
        svAddr k.c.a [0] 64 false
        let (bs, s) ← cmdRead svSub k.core k.c k.c.a 64 64 (← get)
        set s
        pure bs) :=
      svOk_bind svOk_svAddr fun _ => svOk_get fun _ hs => svOk_lift (engOk_cmdRead hs) fun _ hr => svOk_set hr (svOk_pure _)
    exact svOk_get fun _ _ => svOk_ite (svOk_bind (svOk_svThrow _) fun _ => hread) hread

theorem svOk_svPlan {k : SvCmd} {bs : List Byte} : SvOk (svPlan k bs) := by
  unfold svPlan
  extract_lets b rest
  have hrest : ∀ r, SvOk (rest r) := by
    intro r
    refine svOk_bind svOk_svCheckWrites fun _ => svOk_get fun _ _ => ?_
    exact svOk_ite (svOk_bind (svOk_svThrow _) fun _ => svOk_pure _) (svOk_pure _)
  split
  · exact svOk_bind svOk_runPdainit hrest
  · exact svOk_bind svOk_runPdamask hrest
  · exact svOk_bind svOk_runPdastep hrest
  · exact svOk_bind svOk_runSamplep hrest
  · exact svOk_bind svOk_runSamplef hrest
  · exact svOk_bind svOk_runPdasave hrest

theorem svOk_runSelvedge {k : SvCmd} {bs : List Byte} : SvOk (runSelvedge k bs) :=
  svOk_bind svOk_svPlan fun _ => svOk_svWrites

theorem nextOk_execSelvedgeCommandStart {s : State} {core : Nat} (h : MemoryOk s) : NextOk (execSelvedgeCommandStart core s) := by
  unfold execSelvedgeCommandStart
  split
  · exact h
  · refine nextOk_ite h ?_
    split
    · next hstart => exact memoryOk_stopCmd (memoryOk_stoppedAt h (memoryOk_of_error (svOk_svStart s h) hstart))
    · next hstart =>
      have hread := memoryOk_of_ok_snd (svOk_svStart s h) hstart
      refine nextOk_ite (memoryOk_modCore _ _ hread) ?_
      split
      · next hrun => exact memoryOk_stopCmd (memoryOk_stoppedAt hread (memoryOk_of_error (svOk_runSelvedge _ hread) hrun))
      · next hrun => exact memoryOk_completeCmd (memoryOk_completionWrite (memoryOk_of_ok_snd (svOk_runSelvedge _ hread) hrun))

theorem nextOk_svIssue {s : State} {i : Instr} {a b : BitVec 5} (h : MemoryOk s) : NextOk (svIssue i a b s) :=
  nextOk_issueWord (answers_issueCommand h) h

/-! ### System words and the vector unit -/

theorem nextOk_execSassert {s : State} {a b : BitVec 5} {c : BitVec 3} (h : MemoryOk s) : NextOk (execSassert a b c s) :=
  nextOk_issueWord (memoryOk_retire h) h

theorem nextOk_execSgrow {s : State} {p : BitVec 6} (h : MemoryOk s) : NextOk (execSgrow p s) :=
  nextOk_issueWord (memoryOk_retire h) h

theorem nextOk_execSbmap {s : State} {d a : BitVec 5} (h : MemoryOk s) : NextOk (execSbmap d a s) :=
  nextOk_issueWord (memoryOk_retire (memoryOk_writeS _ _ h)) h

theorem nextOk_execTrap {s : State} {n : BitVec 6} (h : MemoryOk s) : NextOk (execTrap n s) :=
  nextOk_issueWord (memoryOk_setEvent _ (memoryOk_trapEntry _ _ _ _ _ _ _ h)) h

theorem nextOk_execBrk {s : State} {n : BitVec 6} (h : MemoryOk s) : NextOk (execBrk n s) :=
  nextOk_issueWord (leaves_ite (memoryOk_modMyCore _ (memoryOk_jumpTo _ h)) (memoryOk_setEvent _ (memoryOk_trapEntry _ _ _ _ _ _ _ h))) h

theorem memoryOk_resumeReplay {s : State} (h : MemoryOk s) : MemoryOk (resumeReplay s) :=
  memoryOk_ite (memoryOk_modMe _ (memoryOk_bodyWords h)) h

theorem nextOk_execEret {s : State} (h : MemoryOk s) : NextOk (execEret s) :=
  nextOk_issueWord (leaves_ite trivial (leaves_ite trivial
      (memoryOk_when (fun h1 => memoryOk_appendHeld h1) (memoryOk_resumeReplay (memoryOk_modMe _ h))))) h

theorem nextOk_execEndOp {s : State} (h : MemoryOk s) : NextOk (execEndOp s) :=
  nextOk_issueWord (leaves_ite (leaves_ite trivial trivial)
      (leaves_ite trivial (leaves_ite (leaves_ite (memoryOk_modMe _ h) trivial)
        (leaves_ite (memoryOk_retire (memoryOk_modMe _ h)) (memoryOk_block _ (memoryOk_modMyCore _ h)))))) h

theorem nextOk_execSync {s : State} (h : MemoryOk s) : NextOk (execSync s) :=
  nextOk_issueWord (leaves_ite trivial (leaves_ite (memoryOk_retire (memoryOk_modMe _ h)) trivial)) h

theorem nextOk_execIfence {s : State} (h : MemoryOk s) : NextOk (execIfence s) :=
  nextOk_issueWord (leaves_ite trivial (memoryOk_retire (memoryOk_modMyCore _ h))) h

theorem nextOk_crAccess {s : State} {i : Instr} {d : BitVec 5} {r : BitVec 12} {new : Option (Word → Word)} (h : MemoryOk s) :
    NextOk (crAccess i d r new s) := by
  unfold crAccess
  dsimp only
  refine nextOk_issueWord ?_ h
  split
  · exact trivial
  · split
    · exact trivial
    · refine memoryOk_retire ?_
      refine memoryOk_writeS _ _ ?_
      split
      · exact memoryOk_when (fun h1 => memoryOk_crPut h1) (memoryOk_ite_snd (memoryOk_freshV h) h)
      · exact memoryOk_when (fun h1 => memoryOk_crPut h1) (memoryOk_when_snd (fun h2 => memoryOk_freshV h2) (memoryOk_noteReg_me _ _ h))

theorem nextOk_execIllegalInstruction {s : State} {why : FetchFault} (h : MemoryOk s) : NextOk (execIllegalInstruction why s) := by
  unfold execIllegalInstruction
  split
  · split
    · exact memoryOk_raise _ _ _ _ h
    · exact memoryOk_raise _ _ _ _ h
    · exact memoryOk_raise _ _ _ _ h
    · exact memoryOk_raise _ _ _ _ h
    · exact memoryOk_raise _ _ _ _ h
  · exact trivial

theorem engOk_vCheck {s : State} {va : Word} {n al : Nat} {write : Bool} (h : MemoryOk s) :
    EngOk (fun _ => True) (vCheck s va n al write) := by
  unfold vCheck
  split
  · exact h
  · split
    · exact h
    · trivial

theorem engOk_vChecks {s : State} {path w : Nat} {write : Bool} {l : List (Nat × Word)} (h : MemoryOk s) :
    EngOk (fun _ => True) (vChecks s path w write l) := by
  induction l with
  | nil => trivial
  | cons x l ih => exact leaves_ite h (leaves_bind (engOk_vCheck h) fun _ _ => leaves_bind ih fun _ _ => trivial)

theorem engOk_vContiguous {s : State} {b c : BitVec 5} {m : BitVec 3} {t : BitVec 4} {write : Bool} (h : MemoryOk s) :
    EngOk (fun _ => True) (vContiguous s b c m t write) := by
  refine leaves_ite h (leaves_ite h ?_)
  split
  · exact h
  · exact engOk_vChecks h

theorem engOk_vIndexed {s : State} {b c : BitVec 5} {m : BitVec 3} {t : BitVec 4} {write : Bool} (h : MemoryOk s) :
    EngOk (fun _ => True) (vIndexed s b c m t write) := by
  refine leaves_ite h ?_
  split
  · exact leaves_ite h (leaves_bind (engOk_vChecks h) fun _ _ => h)
  · exact engOk_vChecks h

theorem memoryOk_vLoads {s : State} {w : Nat} {l : List (Nat × Place)} (h : MemoryOk s) : MemoryOk (vLoads w l s).2 := by
  induction l generalizing s with
  | nil => exact h
  | cons x l ih => exact ih (memoryOk_loadAt _ _ _ h)

theorem memoryOk_vStores {s : State} {w : Nat} {x : Nat → Nat} {l : List (Nat × Place)} (h : MemoryOk s) : MemoryOk (vStores w x l s) :=
  memoryOk_foldl _ (fun _ _ h1 => memoryOk_storeAt _ _ _ _ h1) _ _ h

theorem memoryOk_vFill {s : State} {d : BitVec 5} {w : Nat} {xs : List (Nat × Nat)} (h : MemoryOk s) : MemoryOk (vFill s d w xs) :=
  memoryOk_writeV _ _ h

theorem engOk_effVld {s : State} {v b c : BitVec 5} {m : BitVec 3} {t : BitVec 4} (h : MemoryOk s) : EngOk MemoryOk (effVld v b c m t s) :=
  leaves_bind (engOk_vContiguous h) fun _ _ => memoryOk_vFill (memoryOk_vLoads h)

theorem engOk_effVst {s : State} {v b c : BitVec 5} {m : BitVec 3} {t : BitVec 4} (h : MemoryOk s) : EngOk MemoryOk (effVst v b c m t s) :=
  leaves_bind (engOk_vContiguous h) fun _ _ => memoryOk_vStores h

theorem engOk_effVgather {s : State} {v b c : BitVec 5} {m : BitVec 3} {t : BitVec 4} (h : MemoryOk s) : EngOk MemoryOk (effVgather v b c m t s) :=
  leaves_bind (engOk_vIndexed h) fun _ _ => memoryOk_vFill (memoryOk_vLoads h)

theorem engOk_effVscatter {s : State} {v b c : BitVec 5} {m : BitVec 3} {t : BitVec 4} (h : MemoryOk s) :
    EngOk MemoryOk (effVscatter v b c m t s) :=
  leaves_bind (engOk_vIndexed h) fun _ _ => memoryOk_vStores h

theorem engOk_qOperands {s : State} {sv : Vector Word 8} {b : BitVec 5} {g : BitVec 3} {t : BitVec 4} {write : Bool} {act : List Nat}
    (h : MemoryOk s) : EngOk (fun a => MemoryOk a.2) (qOperands sv b g t write act s) := by
  unfold qOperands
  dsimp only
  split
  · exact h
  · exact h
  · split
    · exact memoryOk_loadAt _ _ _ h
    · exact leaves_ite (memoryOk_loadAt _ _ _ h) (leaves_ite (memoryOk_loadAt _ _ _ h)
        (leaves_ite (memoryOk_loadAt _ _ _ h) (memoryOk_loadAt _ _ _ h)))

/-- A fault in one case; else what follows. -/
theorem engOk_unless {α : Type} {c : Prop} [Decidable c] {P : α → Prop} {e : EngErr} {s : State} {f : Unit → Eng α} (h : MemoryOk s)
    (hf : ∀ u, EngOk P (f u)) : EngOk P (if c then ((.error (e, s) : Eng Unit) >>= f) else f ()) :=
  leaves_ite h (hf ())

theorem engOk_qElems {s : State} {o : QOperands} {q4 write : Bool} {act : List Nat} (h : MemoryOk s) :
    EngOk (fun _ => True) (qElems s o q4 write act) := by
  induction act with
  | nil => trivial
  | cons e act ih =>
    unfold qElems
    split
    · exact h
    · exact engOk_unless h fun _ => leaves_bind (engOk_vCheck h) fun _ _ =>
        engOk_unless h fun _ => leaves_bind (engOk_vCheck h) fun _ _ => leaves_bind ih fun _ _ => trivial

theorem memoryOk_qLoads {s : State} {o : QOperands} {q4 : Bool} {l : List QElem} (h : MemoryOk s) : MemoryOk (qLoads o q4 l s).2 := by
  induction l generalizing s with
  | nil => exact h
  | cons x l ih => exact ih (memoryOk_loadAt _ _ _ (memoryOk_loadAt _ _ _ h))

theorem engOk_effVldq {s : State} {v b : BitVec 5} {g m : BitVec 3} {t : BitVec 4} {sv : Vector Word 8} (h : MemoryOk s) :
    EngOk MemoryOk (effVldq v b g m t sv s) :=
  leaves_bind (engOk_qOperands h) fun _ h1 => leaves_bind (engOk_qElems h1) fun _ _ => memoryOk_vFill (memoryOk_qLoads h1)

theorem memoryOk_q8Codes {s : State} {o : QOperands} {val : Nat → Val} {l : List QElem} (h : MemoryOk s) :
    MemoryOk (q8Codes o val l s).2 := by
  induction l generalizing s with
  | nil => exact h
  | cons x l ih => exact ih (memoryOk_loadAt _ _ _ h)

theorem engOk_effVstq {s : State} {v b : BitVec 5} {g m : BitVec 3} {t : BitVec 4} {sv : Vector Word 8} (h : MemoryOk s) :
    EngOk MemoryOk (effVstq v b g m t sv s) := by
  refine leaves_bind (engOk_qOperands h) fun _ h1 => leaves_ite (leaves_ite h1 (leaves_ite h1 (leaves_ite h1 ?_))) ?_
  · refine leaves_bind (engOk_qElems h1) fun xs _ => ?_
    cases xs with
    | nil => exact h1
    | cons x xs => exact memoryOk_storeAt _ _ _ _ (memoryOk_loadAt _ _ _ h1)
  · exact leaves_bind (engOk_qElems h1) fun _ _ =>
      memoryOk_foldl _ (fun _ _ h2 => memoryOk_storeAt _ _ _ _ h2) _ _ (memoryOk_q8Codes h1)

theorem engOk_effHsift {s : State} {v b : BitVec 5} {m : BitVec 3} {t : BitVec 4} (h : MemoryOk s) : EngOk MemoryOk (effHsift v b m t s) :=
  leaves_ite h (leaves_ite h (leaves_ite h (leaves_bind (engOk_vCheck h) fun _ _ =>
    leaves_ite (memoryOk_loadAt _ _ _ h) (memoryOk_storeAt _ _ _ _ (memoryOk_loadAt _ _ _ h)))))

theorem engOk_vecEffect {s : State} {i : Instr} {sv : Vector Word 8} (h : MemoryOk s) : EngOk MemoryOk (vecEffect i sv s) := by
  unfold vecEffect
  split
  · exact memoryOk_vMap3 h
  · exact memoryOk_vMap3 h
  · exact memoryOk_vMap3 h
  · exact memoryOk_vMap3 h
  · exact memoryOk_vMap3 h
  · exact memoryOk_vMap3 h
  · exact memoryOk_vMap3 h
  · exact memoryOk_vMap3 h
  · exact memoryOk_vMap3 h
  · exact memoryOk_vMap3 h
  · exact memoryOk_vMap3 h
  · exact memoryOk_vMap3 h
  · exact memoryOk_vMap3 h
  · exact memoryOk_vMap3 h
  · exact memoryOk_vMap3 h
  · exact memoryOk_vMap3 h
  · exact memoryOk_vCompare h
  · exact memoryOk_vCompare h
  · exact memoryOk_vCompare h
  · exact memoryOk_vCompare h
  · exact memoryOk_writeV _ _ h
  · exact memoryOk_ite (memoryOk_writeV _ _ h) (memoryOk_vReduce h)
  · exact memoryOk_vReduce h
  · exact memoryOk_vReduce h
  · exact memoryOk_writeV _ _ h
  · exact memoryOk_vPick h
  · exact memoryOk_vPick h
  · exact memoryOk_vPick h
  · exact memoryOk_writeV _ _ h
  · exact memoryOk_writeV _ _ h
  · exact memoryOk_vMap3 h
  · exact memoryOk_vMap3 h
  · exact memoryOk_writeK _ _ h
  · exact memoryOk_writeK _ _ h
  · exact memoryOk_writeK _ _ h
  · exact memoryOk_writeK _ _ h
  · exact memoryOk_writeV _ _ h
  · exact engOk_effVld h
  · exact engOk_effVst h
  · exact engOk_effVgather h
  · exact engOk_effVscatter h
  · exact engOk_effVldq h
  · exact engOk_effVstq h
  · exact engOk_effHsift h
  · exact h

/-- A vector instruction at issue, with the effect its form has. -/
theorem nextOk_vectorWord {s : State} {i : Instr} {sels : List (Nat × Bool)} (h : MemoryOk s) : NextOk (vectorWord i sels (vecEffect i) s) := by
  refine nextOk_issueWord (leaves_ite trivial ?_) h
  have hregs := memoryOk_noteRegs (sels := sels) h
  refine leaves_ite (memoryOk_retire (memoryOk_dispatch _ _ hregs)) (leaves_ite ?_ ?_)
  · exact memoryOk_retire (memoryOk_modMyCore _ (memoryOk_dispatch _ _ hregs))
  · split
    · next heq => exact memoryOk_retire (memoryOk_dispatch _ _ (memoryOk_of_ok (engOk_vecEffect hregs) heq))
    · next heq => exact memoryOk_retire (memoryOk_modMe _ (memoryOk_dispatch _ _ (memoryOk_of_error (engOk_vecEffect hregs) heq)))
    · trivial

theorem nextOk_execVmovs {s : State} {d a i : BitVec 5} {t : BitVec 4} (h : MemoryOk s) : NextOk (execVmovs d a i t s) :=
  nextOk_issueWord (leaves_ite trivial (leaves_ite (memoryOk_retire (memoryOk_dispatch _ _ h))
      (memoryOk_retire (memoryOk_dispatch _ _ (memoryOk_writeS _ _ h))))) h

theorem memoryOk_putGuard {s : State} {core : Nat} {g : Word × Word} (h : MemoryOk s) : MemoryOk (putGuard s core g) :=
  memoryOk_modCore _ _ h

theorem memoryOk_vecCtx {s : State} {core : Nat} {d : VDispatch} (h : MemoryOk s) : MemoryOk (vecCtx s core d) :=
  memoryOk_of_same rfl rfl rfl (memoryOk_putGuard (core := core) (g := d.guard) h)

theorem memoryOk_vecBack {s s0 : State} {core : Nat} (h : MemoryOk s) : MemoryOk (vecBack s0 s core) :=
  memoryOk_of_same rfl rfl rfl (memoryOk_putGuard (core := core) (g := ((getCore s0 core).guardLo, (getCore s0 core).guardHi)) h)

theorem nextOk_execVectorExecute {s : State} {core : Nat} (h : MemoryOk s) : NextOk (execVectorExecute core s) := by
  unfold execVectorExecute
  split
  · exact h
  · split
    · next heq =>
      have hdone := memoryOk_of_ok (engOk_vecEffect (memoryOk_vecCtx h)) heq
      exact memoryOk_modStrand _ _ _ (memoryOk_modCore _ _ (memoryOk_vecBack hdone))
    · next heq =>
      have hfault := memoryOk_of_error (engOk_vecEffect (memoryOk_vecCtx h)) heq
      refine memoryOk_modStrand _ _ _ ?_
      exact memoryOk_modCore _ _ (memoryOk_vecBack hfault)
    · exact h

/-! ### Every instruction, and a step -/

/-- Every instruction, event and command keeps the form: those of one family by what the family shares. -/
theorem nextOk_exec {s : State} {i : Instr} (h : MemoryOk s) : NextOk (exec i s) := by
  unfold exec
  cases i with
  | beq | bne | blt | bge | bltn | bgen => exact nextOk_branch h
  | amoadd | amoand | amoor | amoxor | amomin | amomax | amominn | amomaxn => exact nextOk_noReturn h
  | crr | crw | crs | crc => exact nextOk_crAccess h
  | vld | vst | vgather | vscatter | vldq | vstq | hsift | vadd | vsub | vmul | vfma | vmin | vmax | vabs | vneg | vand
  | vor | vxor | vsll | vsrl | vsra | vadds | vsubs | vcmpeq | vcmpne | vcmplt | vcmple | vsel | vredsum | vredmax
  | vredmin | vscan | vperm | vbcast | vslide | vcvt | vscale | vexp2 | vrcp | kand | kor | kxor | knot | vins => exact nextOk_vectorWord h
  | mma | mmaz | mldb | mldbt | mring | mswap | mzero | mldacc | mstacc | mstaccq | maccadd | mcfg => exact nextOk_mxIssue h
  | mskset | mkeep => exact nextOk_keeperWord h
  | cpy | cpyd | cpyg | cpys | cpyf | cpyr | cpyho => exact nextOk_copyIssue h
  | pdainit | pdamask | pdastep | samplep | samplef | pdasave => exact nextOk_svIssue h
  | add | sub | and | or | xor | andn | sll | srl | sra | rotr | mul | mulh | mulhn | div | divn | rem | remn | min
  | max | minn | maxn | slt | sltn | seq | clz | ctz | popc | brev | bswap | addi | andi | ori | xori | slti | sltin
  | slli | srli | srai | rotri | lui | insh => exact nextOk_integer h
  | jal => exact nextOk_execJal h
  | jalr => exact nextOk_execJalr h
  | loop => exact nextOk_execLoop h
  | loopi => exact nextOk_execLoopi h
  | rep => exact nextOk_execRep h
  | start => exact nextOk_execStart h
  | waits => exact nextOk_execWaits h
  | yield => exact nextOk_execYield h
  | ld => exact nextOk_execLd h
  | st => exact nextOk_execSt h
  | stH => exact nextOk_execStH h
  | ldbit => exact nextOk_execLdbit h
  | stbit => exact nextOk_execStbit h
  | ldt => exact nextOk_execLdt h
  | amoseq => exact nextOk_execAmoseq h
  | fence => exact nextOk_execFence h
  | waitw => exact nextOk_execWaitw h
  | ifence => exact nextOk_execIfence h
  | sync => exact nextOk_execSync h
  | post => exact nextOk_execPost h
  | recv => exact nextOk_execRecv h
  | trap => exact nextOk_execTrap h
  | eret => exact nextOk_execEret h
  | endOp => exact nextOk_execEndOp h
  | brk => exact nextOk_execBrk h
  | mskget => exact nextOk_execMskget h
  | mwait => exact nextOk_execMwait h
  | cpyres => exact nextOk_execCpyres h
  | ebset => exact nextOk_execEbset h
  | ebget => exact nextOk_execEbget h
  | txsub => exact nextOk_execTxsub h
  | txpeek => exact nextOk_execTxpeek h
  | txsets => exact nextOk_execTxsets h
  | txchk => exact nextOk_execTxchk h
  | txend => exact nextOk_execTxend h
  | txrst => exact nextOk_execTxrst h
  | sassert => exact nextOk_execSassert h
  | sgrow => exact nextOk_execSgrow h
  | sbmap => exact nextOk_execSbmap h
  | vmovs => exact nextOk_execVmovs h
  | issueSlotGiveUp => exact nextOk_execIssueSlotGiveUp h
  | faultRecord => exact nextOk_execFaultRecord h
  | firmwareFlush => exact nextOk_execFirmwareFlush h
  | cDone => exact nextOk_execCDone h
  | cClose => exact nextOk_execCClose h
  | lockRequestEnqueue => exact nextOk_execLockRequestEnqueue h
  | lockGrant => exact nextOk_execLockGrant h
  | tilePush => exact nextOk_execTilePush h
  | transactionDispatch => exact nextOk_execTransactionDispatch h
  | tClose => exact nextOk_execTClose h
  | planEntryStart => exact nextOk_execPlanEntryStart h
  | sendfFlit => exact nextOk_execSendfFlit h
  | flitReceive => exact nextOk_execFlitReceive h
  | contributionApply => exact nextOk_execContributionApply h
  | contributionResend => exact nextOk_execContributionResend h
  | collectiveIncomplete => exact nextOk_execCollectiveIncomplete h
  | acknowledgement => exact nextOk_execAcknowledgement h
  | requestVote => exact nextOk_execRequestVote h
  | deferredStorePerform => exact nextOk_execDeferredStorePerform h
  | barrierExit => exact nextOk_execBarrierExit h
  | exchangeRound => exact nextOk_execExchangeRound h
  | vectorExecute => exact nextOk_execVectorExecute h
  | matrixCommandStart => exact nextOk_execMatrixCommandStart h
  | copyCommandStart => exact nextOk_execCopyCommandStart h
  | selvedgeCommandStart => exact nextOk_execSelvedgeCommandStart h
  | noReturnAtomicApply => exact nextOk_execNoReturnAtomicApply h
  | atomicReplay => exact nextOk_execAtomicReplay h
  | throttleBubble => exact nextOk_execThrottleBubble h
  | preemptionTake => exact nextOk_execPreemptionTake h
  | preemptionResume => exact nextOk_execPreemptionResume h
  | preemptTimeout => exact nextOk_execPreemptTimeout h
  | parkTimeout => exact nextOk_execParkTimeout h
  | launchStart => exact nextOk_execLaunchStart h
  | queueEnable => exact nextOk_execQueueEnable h
  | queueDisable => exact nextOk_execQueueDisable h
  | qtailWrite => exact nextOk_execQtailWrite h
  | qclaimFetchadd => exact nextOk_execQclaimFetchadd h
  | doorbellEvent => exact nextOk_execDoorbellEvent h
  | stampRecheck => exact nextOk_execStampRecheck h
  | nop => exact nextOk_execNop h
  | launch => exact nextOk_execLaunch h
  | hosttx => exact nextOk_execHosttx h
  | indirect => exact nextOk_execIndirect h
  | region => exact nextOk_execRegion h
  | kill => exact nextOk_execKill h
  | suspend => exact nextOk_execSuspend h
  | resume => exact nextOk_execResume h
  | inval => exact nextOk_execInval h
  | evict => exact nextOk_execEvict h
  | signal => exact nextOk_execSignal h
  | destroy => exact nextOk_execDestroy h
  | pasidTeardown => exact nextOk_execPasidTeardown h
  | atsInvalidation => exact nextOk_execAtsInvalidation h
  | pageRequestResponse => exact nextOk_execPageRequestResponse h
  | halt => exact nextOk_execHalt h
  | dbgResume => exact nextOk_execDbgResume h
  | dbgStep => exact nextOk_execDbgStep h
  | rdreg => exact nextOk_execRdreg h
  | wrreg => exact nextOk_execWrreg h
  | rdtcm => exact nextOk_execRdtcm h
  | wrtcm => exact nextOk_execWrtcm h
  | brken => exact nextOk_execBrken h
  | registerWrite => exact nextOk_execRegisterWrite h
  | thermalTrip => exact nextOk_execThermalTrip h
  | eccCorrection => exact nextOk_execEccCorrection h
  | linkReplay => exact nextOk_execLinkReplay h
  | uncorrectableError => exact nextOk_execUncorrectableError h
  | deviceReset => exact nextOk_execDeviceReset h
  | illegalInstruction => exact nextOk_execIllegalInstruction h
  | pcieCompletion => exact nextOk_execPcieCompletion h
  | hostWindowWrite => exact nextOk_execHostWindowWrite h
  | recoveryPointValid => exact nextOk_execRecoveryPointValid h

theorem memoryOk_fetchWord {s : State} {core : Nat} {n : Fin 4} {a : Nat} (h : MemoryOk s) : MemoryOk (fetchWord s core n a).2 := by
  unfold fetchWord
  dsimp only
  split
  · exact h
  · exact memoryOk_modCore _ _ (memoryOk_loadAt _ _ _ h)

theorem memoryOk_setCtx {s : State} {slot : Slot} {pc last : TcmAddr} {w : Word32} {snap : Option Regs} (h : MemoryOk s) :
    MemoryOk (setCtx s slot pc last w snap) :=
  memoryOk_of_same rfl rfl rfl h

theorem memoryOk_fetchIssue {s : State} {core : Nat} {n : Fin 4} (h : MemoryOk s) : MemoryOk (fetchIssue s core n).2 :=
  memoryOk_ite_snd h (memoryOk_ite_snd h (memoryOk_ite_snd (memoryOk_fetchWord h)
    (memoryOk_ite_snd (memoryOk_fetchWord h) (memoryOk_ite_snd (memoryOk_fetchWord h) (memoryOk_fetchWord (memoryOk_fetchWord h))))))

theorem nextOk_runPairWords {s : State} {pc : TcmAddr} {c a : Word32} {ic ia : Instr} (h : MemoryOk s) :
    NextOk (runPairWords s pc c a ic ia) := by
  unfold runPairWords
  dsimp only
  split
  · next _ _ _ _ heq heq2 =>
      split
      · exact memoryOk_of_nextOk (nextOk_exec (memoryOk_setCtx h)) heq
      · split
        · exact memoryOk_of_nextOk (nextOk_exec (memoryOk_setCtx h)) heq2
        · split
          · exact memoryOk_of_nextOk (nextOk_exec (memoryOk_setCtx h)) heq
          · split
            · next _ _ heq3 =>
                split
                · exact memoryOk_of_nextOk (nextOk_exec (memoryOk_setCtx (memoryOk_of_nextOk (nextOk_exec (memoryOk_setCtx h)) heq))) heq3
                · exact memoryOk_block _ (memoryOk_setCtx h)
                · exact nextOk_ite (memoryOk_block _ (memoryOk_setCtx h))
                    (memoryOk_dispatch _ _ (memoryOk_setCtx (memoryOk_of_nextOk (nextOk_exec (memoryOk_setCtx h)) heq)))
            · exact nextOk_exec (memoryOk_setCtx (memoryOk_of_nextOk (nextOk_exec (memoryOk_setCtx h)) heq))
  · exact nextOk_exec (memoryOk_setCtx h)
  · exact nextOk_exec (memoryOk_setCtx h)

theorem nextOk_runPair {s : State} {pc : TcmAddr} {c a : Word32} {ic ia : Instr} (h : MemoryOk s) : NextOk (runPair s pc c a ic ia) := by
  unfold runPair
  dsimp only
  split
  · exact memoryOk_stopWord _ (memoryOk_setCtx h)
  · exact memoryOk_stopWord _ (memoryOk_setCtx h)
  · exact nextOk_ite (memoryOk_stopWord _ (memoryOk_setCtx h)) (nextOk_ite (memoryOk_stopWord _ (memoryOk_setCtx h)) (nextOk_runPairWords h))

theorem memoryOk_replayCtx {s : State} (h : MemoryOk s) : MemoryOk (replayCtx s) :=
  memoryOk_setCtx h

theorem nextOk_runReplay {s : State} (h : MemoryOk s) : NextOk (runReplay s) := by
  unfold runReplay
  split
  · exact nextOk_exec (memoryOk_replayCtx h)
  · split
    · next _ _ heq => exact memoryOk_when (fun h1 => memoryOk_modMe _ h1) (memoryOk_of_nextOk (nextOk_exec (memoryOk_replayCtx h)) heq)
    · exact nextOk_exec (memoryOk_replayCtx h)

theorem nextOk_runFetched {s : State} (h : MemoryOk s) : NextOk (runFetched s) := by
  unfold runFetched
  dsimp only
  split
  · next _ _ _ _ heq => exact nextOk_exec (memoryOk_setCtx (memoryOk_snd heq (memoryOk_fetchIssue h)))
  · next _ _ _ _ _ _ heq2 => exact nextOk_runPair (memoryOk_snd heq2 (memoryOk_fetchIssue h))
  · next _ _ _ _ heq => exact nextOk_exec (memoryOk_setCtx (memoryOk_snd heq (memoryOk_fetchIssue h)))

theorem memoryOk_deliverReport {s : State} {core : Nat} (h : MemoryOk s) : MemoryOk (deliverReport s core) := by
  unfold deliverReport
  dsimp only
  split
  · exact memoryOk_trapEntry _ _ _ _ _ _ _ (memoryOk_modCore _ _ h)
  · exact memoryOk_trapEntry _ _ _ _ _ _ _ (memoryOk_modCore _ _ h)

theorem memoryOk_afterIssue {s : State} {n : Fin 4} {hm released : Bool} (h : MemoryOk s) : MemoryOk (afterIssue n hm released s) :=
  memoryOk_ite (memoryOk_modMyCore _ h) (memoryOk_modMyCore _ (memoryOk_when (fun h1 => memoryOk_modMe _ h1) (memoryOk_modMe _ h)))

theorem nextOk_spendWord {s : State} {i : Instr} (h : MemoryOk s) : NextOk (spendWord i s) := by
  unfold spendWord
  split
  · exact memoryOk_stopWord _ h
  · exact memoryOk_ite (memoryOk_raise _ _ _ _ h) (memoryOk_stopWord _ h)

theorem nextOk_spendOver {s : State} (h : MemoryOk s) : NextOk (spendOver s) := by
  unfold spendOver
  dsimp only
  split
  · split
    · exact nextOk_runReplay h
    · exact nextOk_spendWord (memoryOk_replayCtx h)
  · split
    · next _ _ _ _ heq => exact nextOk_spendWord (memoryOk_setCtx (memoryOk_snd heq (memoryOk_fetchIssue h)))
    · next _ _ _ _ _ _ heq2 =>
        split
        · exact memoryOk_stopWord _ (memoryOk_setCtx (memoryOk_snd heq2 (memoryOk_fetchIssue h)))
        · exact memoryOk_stopWord _ (memoryOk_setCtx (memoryOk_snd heq2 (memoryOk_fetchIssue h)))
        · exact nextOk_ite (memoryOk_stopWord _ (memoryOk_setCtx (memoryOk_snd heq2 (memoryOk_fetchIssue h))))
            (nextOk_ite (memoryOk_stopWord _ (memoryOk_setCtx (memoryOk_snd heq2 (memoryOk_fetchIssue h))))
              (memoryOk_raise _ _ _ _ (memoryOk_setCtx (memoryOk_snd heq2 (memoryOk_fetchIssue h)))))
    · exact nextOk_runFetched h

theorem memoryOk_entryReady {s1 s0 : State} (hs0 : MemoryOk s0) (hs1 : MemoryOk s1) : MemoryOk (entryReady s0 s1) :=
  memoryOk_ite (memoryOk_block _ hs0) hs1

theorem nextOk_issueAt {s : State} {core : Nat} {n : Fin 4} (h : MemoryOk s) : NextOk (issueAt s core n) := by
  unfold issueAt
  extract_lets x t s1 _ s0 o
  have hs0 : MemoryOk s0 := memoryOk_of_same rfl rfl rfl (memoryOk_modCore core (fun x => { x with slotGone := false })
    (memoryOk_modStrand core n (fun t => { t with wait := .ready }) h))
  have ho : NextOk o := nextOk_ite (nextOk_spendOver hs0) (nextOk_ite (nextOk_runReplay hs0) (nextOk_runFetched hs0))
  clear_value s0 o
  refine nextOk_ite ?_ (nextOk_ite (memoryOk_afterIssue (memoryOk_block _ hs0)) ?_)
  · exact memoryOk_ite (memoryOk_afterIssue (memoryOk_block _ hs0)) (memoryOk_deliverReport hs0)
  · cases o with
    | next s1 => exact memoryOk_afterIssue (memoryOk_entryReady hs0 ho)
    | fault f => trivial
    | refused r => trivial

theorem nextOk_runMove {s : State} {m : Move} (h : MemoryOk s) : NextOk (runMove s m) := by
  unfold runMove
  split
  · exact nextOk_ite (nextOk_exec h) h
  · split
    · exact nextOk_issueAt h
    · exact h
  · exact memoryOk_modCore _ _ h
  · exact memoryOk_modCore _ _ h

theorem nextOk_runHeld {s1 s : State} (hs : MemoryOk s) (hs1 : MemoryOk s1) : NextOk (runHeld s s1) := by
  unfold runHeld
  split
  · exact nextOk_exec hs
  · exact hs1

theorem nextOk_runNext {s : State} (h : MemoryOk s) : NextOk (runNext s) := by
  unfold runNext
  split
  · exact nextOk_exec h
  · split
    · split
      · next heq =>
        have hword := memoryOk_of_nextOk (nextOk_issueAt h) heq
        exact nextOk_ite (nextOk_runHeld h hword) hword
      · exact nextOk_issueAt h
    · exact nextOk_runHeld h h

theorem nextOk_step {s : State} (h : MemoryOk s) : NextOk (step s) := by
  unfold step
  split
  · exact nextOk_runMove (memoryOk_of_same rfl rfl rfl h)
  · exact nextOk_runNext h

/-- Settles O8: no instruction, event or command leaves a memory out of its form (`nextOk_exec`), and a step is one of them. -/
theorem stepKeepsMemoryCanonical : Obligations.StepKeepsMemoryCanonical := by
  intro s t h hstep
  exact memoryOk_of_nextOk (nextOk_step h) hstep

end Sys2Proof.Machine
end

section
/-! PROOFS. The debug mailbox and the register window (R6, R169 to R171, R406, R407, R432, R437): what each command of the mailbox and each
register write leaves, from what they leave of a package, a queue, a region and a core. -/

namespace Sys2Proof.Machine

open Sys2Proof.Safety

/-! ### What one change leaves to be read -/

@[simp] theorem getPackage_modPackage_same (s : State) (p : Nat) (f : Package → Package) :
    getPackage (modPackage s p f) p = f (getPackage s p) := by
  simp [getPackage, modPackage]

@[simp] theorem getCore_modPackage (s : State) (p c : Nat) (f : Package → Package) : getCore (modPackage s p f) c = getCore s c := rfl

@[simp] theorem getQueue_modQueue_same (s : State) (p q : Nat) (f : Queue → Queue) :
    getQueue (modQueue s p q f) p q = f (getQueue s p q) := by
  simp [getQueue, modQueue]

/-- A region changed otherwise than in its control block is found where it was. -/
theorem getRegion?_modRegion (s : State) (id : Nat) {f : Region → Region} (hf : ∀ r, (f r).rcb = r.rcb) :
    getRegion? (modRegion s id f) id = (getRegion? s id).map f := by
  have hkey : ∀ r : Region, (if r.rcb.id = id then f r else r).rcb = r.rcb := by
    intro r
    split
    · exact hf r
    · rfl
  simp only [getRegion?, modRegion, List.find?_map, Function.comp_def, hkey]
  cases hfind : s.regions.find? fun r => decide (r.rcb.id = id) with
  | none => rfl
  | some r =>
    have hid : r.rcb.id = id := by simpa using List.find?_some hfind
    simp [hid]

/-- So is one that is listed, by its own number. -/
theorem getRegion_modRegion {s : State} {r : Region} {f : Region → Region} (h : r ∈ s.regions) (hf : ∀ r, (f r).rcb = r.rcb) :
    getRegion (modRegion s r.rcb.id f) r.rcb.id = f (getRegion s r.rcb.id) := by
  rw [getRegion, getRegion, getRegion?_modRegion s r.rcb.id hf]
  cases hfind : getRegion? s r.rcb.id with
  | some q => rfl
  | none => exact absurd (List.find?_eq_none.mp hfind r h) (by simp)

theorem breakpoints_modRegion {s : State} {r : Region} {b : Bool} (h : r ∈ s.regions) :
    (getRegion (modRegion s r.rcb.id fun q => { q with breakpoints := b }) r.rcb.id).breakpoints = b := by
  rw [getRegion_modRegion h]
  exact fun _ => rfl

/-- Bytes written read back as a run. -/
theorem readBytes_writeBytes_same (bs : List Byte) (m : Memory) (k : Nat) (h : Memory.wf m = true) :
    readBytes (writeBytes m k bs) k bs.length = bs := by
  refine List.ext_getElem (by simp [readBytes]) fun i _ hi => ?_
  simp [readBytes, memRead_writeBytes_same bs m k i hi h]

/-- A number put into memory reads back, modulo its range. -/
theorem memNat_memPut_same (m : Memory) (k n x : Nat) (h : Memory.wf m = true) : memNat (memPut m k n x) k n = x % 256 ^ n := by
  have hread := readBytes_writeBytes_same (leBytes n x) m k h
  rw [leBytes_length] at hread
  rw [memNat, memPut, hread, leNat_leBytes]

/-- A scalar register after a write to one: `s0` keeps its value. -/
theorem getElem_putS (g : Regs) (k j : Fin 32) (x : Word) :
    (putS g (BitVec.ofNat 5 k) x).s[j] = if j = k ∧ k.val ≠ 0 then x else g.s[j] := by
  have hk : (BitVec.ofNat 5 k).toNat = k := by simp
  by_cases h0 : k.val = 0
  · rw [if_neg (by simp [h0]), h0]
    rfl
  · have hne : BitVec.ofNat 5 k ≠ 0#5 := fun h => h0 (by simpa [hk] using congrArg BitVec.toNat h)
    by_cases hj : j = k
    · subst hj
      rw [if_pos ⟨rfl, h0⟩]
      simpa [hk] using putS_s_same g _ x hne
    · rw [if_neg (by simp [hj])]
      exact putS_s_other g _ x j j.isLt (by rw [hk]; exact fun h => hj (Fin.ext h))

/-- A masked write takes the mask's bits from the new value and the others from the old. -/
theorem getLsbD_crMerge {old new mask : Word} {j : Nat} (hj : j < 64) :
    (crMerge old new mask).getLsbD j = if mask.getLsbD j then new.getLsbD j else old.getLsbD j := by
  simp only [crMerge, BitVec.getLsbD_or, BitVec.getLsbD_and, BitVec.getLsbD_not, hj, decide_true, Bool.true_and]
  cases mask.getLsbD j <;> simp

/-! ### What a command leaves alone -/

/-- Memory, the regions and every core but one are as they were. -/
def Quiet (core : Nat) (s u : State) : Prop := SameMemory s u ∧ u.regions = s.regions ∧ OtherCoresSame core s u

theorem quiet_of_same {core : Nat} {s u : State} (hm : u.mem = s.mem) (hr : u.regions = s.regions)
    (hc : ∀ c, getCore u c = getCore s c) : Quiet core s u :=
  ⟨fun a => by rw [hm], hr, fun c _ => hc c⟩

theorem quiet_modCore {core : Nat} {s : State} (f : Core → Core) : Quiet core s (modCore s core f) :=
  ⟨fun _ => rfl, rfl, fun c hc => getCore_modCore_other s core c f hc⟩

/-- The end of a command changes its package's mailbox only. -/
theorem quiet_dbgEnd {core pkg cmd : Nat} {known : Bool} {s u : State} (h : Quiet core s u) : Quiet core s (dbgEnd u pkg cmd known) := h

@[simp] theorem getCore_dbgEnd (s : State) (pkg cmd : Nat) (known : Bool) (c : Nat) : getCore (dbgEnd s pkg cmd known) c = getCore s c := rfl

@[simp] theorem getStrand_dbgEnd (s : State) (pkg cmd : Nat) (known : Bool) (c : Nat) (n : Fin 4) :
    getStrand (dbgEnd s pkg cmd known) c n = getStrand s c n := rfl

@[simp] theorem dbgStat_dbgEnd (s : State) (pkg cmd : Nat) (known : Bool) :
    (getPackage (dbgEnd s pkg cmd known) pkg).dbgStat = if known then 0#64 else 0x100#64 := by
  simp [dbgEnd]

@[simp] theorem dbgData_dbgEnd (s : State) (pkg cmd : Nat) (known : Bool) :
    (getPackage (dbgEnd s pkg cmd known) pkg).dbgData = (getPackage s pkg).dbgData := by
  simp [dbgEnd]

/-! ### The registers the debugger names -/

theorem dbgReg_scalar {a : Word} {k : Fin 32} (h : a.toNat = 0x800 + k) : dbgReg a = .s k := by
  unfold dbgReg
  dsimp only
  rw [if_neg (by omega), if_pos (by omega), h, Nat.add_sub_cancel_left]

theorem dbgReg_control {a : Word} (h : a.toNat < 0x800) (hk : selKnown (BitVec.ofNat 12 a.toNat) = true) : dbgReg a = .cr a.toNat := by
  unfold dbgReg
  dsimp only
  rw [if_pos h, if_pos hk]

theorem dbgReg_unknown {a : Word} (h : 0xE1E ≤ a.toNat) : dbgReg a = .unknown := by
  unfold dbgReg
  dsimp only
  rw [if_neg (by omega), if_neg (by omega), if_neg (by simp; omega), if_neg (by simp; omega), if_neg (by simp; omega)]

/-! ### The commands of the mailbox -/

theorem next_of_enabled {s : State} {pkg : Nat} {f : Nat → State → State} (h : (getPackage s pkg).enabled = true) :
    (.next (ifFirmware pkg f s) : Out State) = .next (f pkg s) := by
  rw [ifFirmware, if_pos h]

theorem next_of_disabled {s : State} {pkg : Nat} {f : Nat → State → State} (h : (getPackage s pkg).enabled = false) :
    (.next (ifFirmware pkg f s) : Out State) = .next s := by
  rw [ifFirmware, if_neg (by simp [h])]

section
variable (s : State) (pkg : Nat)

theorem dbgHalt_effect :
    Quiet (dbgCore pkg (getPackage s pkg)) s (dbgHalt pkg s) ∧ (getCore (dbgHalt pkg s) (dbgCore pkg (getPackage s pkg))).halted = true ∧
      (getCore (dbgHalt pkg s) (dbgCore pkg (getPackage s pkg))).strands = (getCore s (dbgCore pkg (getPackage s pkg))).strands :=
  ⟨quiet_dbgEnd (quiet_modCore _), by simp [dbgHalt], by simp [dbgHalt]⟩

/-- The strand goes on where a single step had halted it. -/
def woken (t : Strand) : Strand := { t with wait := if t.wait = .halted then .ready else t.wait }

theorem getStrand_dbgGo (k : Fin 4) :
    getStrand (dbgGo pkg s) (dbgCore pkg (getPackage s pkg)) k = woken (getStrand s (dbgCore pkg (getPackage s pkg)) k) := by
  rw [dbgGo, getStrand_dbgEnd, getStrand, getCore_modCore_same]
  exact Vector.getElem_map _ k.isLt

theorem dbgGo_effect :
    Quiet (dbgCore pkg (getPackage s pkg)) s (dbgGo pkg s) ∧ (getCore (dbgGo pkg s) (dbgCore pkg (getPackage s pkg))).halted = false ∧
      ∀ k : Fin 4, (getStrand (dbgGo pkg s) (dbgCore pkg (getPackage s pkg)) k).wait ≠ .halted ∧
        (getStrand (dbgGo pkg s) (dbgCore pkg (getPackage s pkg)) k).regs = (getStrand s (dbgCore pkg (getPackage s pkg)) k).regs := by
  refine ⟨quiet_dbgEnd (quiet_modCore _), by simp [dbgGo], fun k => ?_⟩
  rw [getStrand_dbgGo]
  refine ⟨?_, rfl⟩
  unfold woken
  dsimp only
  split
  · simp
  · assumption

theorem dbgSetStep_effect :
    Quiet (dbgCore pkg (getPackage s pkg)) s (dbgSetStep pkg s) ∧
      ∀ j, j < 64 → (getStrand (dbgSetStep pkg s) (dbgCore pkg (getPackage s pkg)) (dbgStrand (getPackage s pkg))).trap.status.getLsbD j =
        if j = 5 then (getPackage s pkg).dbgArg1.getLsbD 0
        else (getStrand s (dbgCore pkg (getPackage s pkg)) (dbgStrand (getPackage s pkg))).trap.status.getLsbD j := by
  refine ⟨quiet_dbgEnd (quiet_modCore _), fun j hj => ?_⟩
  have hmask : ∀ j, j < 64 → (0x20#64).getLsbD j = decide (j = 5) := by decide
  simp only [dbgSetStep, getStrand_dbgEnd, getStrand_modStrand_same, getLsbD_crMerge hj, hmask j hj, decide_eq_true_eq]
  split
  · next h5 =>
    subst h5
    cases (getPackage s pkg).dbgArg1.getLsbD 0 <;> simp
  · rfl

theorem dbgRdreg_frame :
    Quiet (dbgCore pkg (getPackage s pkg)) s (dbgRdreg pkg s) ∧ (dbgRdreg pkg s).cores = s.cores := by
  unfold dbgRdreg
  dsimp only
  split
  · exact ⟨quiet_of_same rfl rfl fun _ => rfl, rfl⟩
  · split
    · exact ⟨quiet_of_same rfl rfl fun _ => rfl, rfl⟩
    · exact ⟨quiet_of_same rfl rfl fun _ => rfl, rfl⟩

/-- A register that a doubleword holds is shown as the debugger reads it. -/
theorem dbgData_dbgRdreg {s : State} {pkg : Nat} {r : DbgReg} (h : dbgReg (getPackage s pkg).dbgArg1 = r) (hr : r ≠ .unknown)
    (hmx : isMx r = false) :
    (getPackage (dbgRdreg pkg s) pkg).dbgData = dbgRead s (dbgCore pkg (getPackage s pkg)) (dbgStrand (getPackage s pkg)) r := by
  simp [dbgRdreg, h, hr, hmx]

theorem dbgRdreg_unknown (h : dbgReg (getPackage s pkg).dbgArg1 = .unknown) :
    (getPackage (dbgRdreg pkg s) pkg).dbgStat = 0x100#64 ∧ (getPackage (dbgRdreg pkg s) pkg).dbgData = (getPackage s pkg).dbgData := by
  simp [dbgRdreg, h]

theorem dbgRead_scalar (core : Nat) (n : Fin 4) (k : Fin 32) :
    dbgRead s core n (.s k) = if k.val = 0 then 0#64 else (getStrand s core n).regs.s[k] := by
  simp only [dbgRead, Nat.mod_eq_of_lt k.isLt]
  rfl

theorem isHalted_iff (x : Core) (n : Fin 4) :
    isHalted x n = true ↔ (coreStrand x n).live = true ∧ (x.halted = true ∨ (coreStrand x n).wait = .halted) := by
  simp [isHalted]

/-- The cause of a strand that is halted reads as 0x3F (log entry 54). -/
theorem dbgRead_cause (core : Nat) (n : Fin 4) :
    dbgRead s core n (.cr 1) =
      if (getStrand s core n).live = true ∧ ((getCore s core).halted = true ∨ (getStrand s core n).wait = .halted) then 0x3F#64
      else (getStrand s core n).trap.cause := by
  exact if_congr (isHalted_iff _ _) rfl rfl

theorem dbgRead_control (core : Nat) (n : Fin 4) {sel : Nat} (h1 : sel ≠ 0x001) (h2 : sel ≠ 0x021) (h3 : sel ≠ 0x071) :
    dbgRead s core n (.cr sel) = crValue s core n sel := by
  unfold dbgRead
  split
  · next h => cases h; exact absurd rfl h1
  · next h => cases h; exact absurd rfl h2
  · next h => cases h; exact absurd rfl h3
  · next h => cases h; rfl
  all_goals next h => cases h

/-- A scalar register written by the debugger: `s0` keeps its value. -/
theorem dbgWrreg_scalar {k : Fin 32} (h : dbgReg (getPackage s pkg).dbgArg1 = .s k) :
    Quiet (dbgCore pkg (getPackage s pkg)) s (dbgWrreg pkg s) ∧
      ∀ j : Fin 32, (getStrand (dbgWrreg pkg s) (dbgCore pkg (getPackage s pkg)) (dbgStrand (getPackage s pkg))).regs.s[j] =
        if j = k ∧ k.val ≠ 0 then (getPackage s pkg).dbgData
        else (getStrand s (dbgCore pkg (getPackage s pkg)) (dbgStrand (getPackage s pkg))).regs.s[j] := by
  have hu : dbgWrreg pkg s = dbgEnd (modStrand s (dbgCore pkg (getPackage s pkg)) (dbgStrand (getPackage s pkg)) fun t =>
      { t with regs := putS t.regs (BitVec.ofNat 5 k) (getPackage s pkg).dbgData }) pkg 5 true := by
    simp [dbgWrreg, h, dbgWrite]
  rw [hu]
  refine ⟨quiet_dbgEnd (quiet_modCore _), fun j => ?_⟩
  rw [getStrand_dbgEnd, getStrand_modStrand_same]
  exact getElem_putS _ k j _

theorem dbgWrreg_unknown (h : dbgReg (getPackage s pkg).dbgArg1 = .unknown) :
    dbgWrreg pkg s = dbgEnd s pkg 5 false := by
  simp [dbgWrreg, h]

theorem dbgData_dbgRdtcm :
    (getPackage (dbgRdtcm pkg s) pkg).dbgData = BitVec.ofNat 64 (memNat s.mem (dbgTcm pkg (getPackage s pkg)) 8) := by
  simp [dbgRdtcm]

theorem dbgWrtcm_effect (h : Memory.wf s.mem = true) :
    SameMemoryBut (dbgTcm pkg (getPackage s pkg)) 8 s (dbgWrtcm pkg s) ∧
      memNat (dbgWrtcm pkg s).mem (dbgTcm pkg (getPackage s pkg)) 8 = (getPackage s pkg).dbgData.toNat := by
  refine ⟨fun a ha => memRead_writeBytes_other _ _ _ _ (by rwa [leBytes_length]), ?_⟩
  refine (memNat_memPut_same _ _ _ _ h).trans (Nat.mod_eq_of_lt ?_)
  exact (getPackage s pkg).dbgData.isLt

theorem dbgBrken_some {r : Region} (h : regionIn s pkg (fieldOf (getPackage s pkg).dbgArg1 15 0) = some r) :
    (getRegion (dbgBrken pkg s) r.rcb.id).breakpoints = (!(getPackage s pkg).dbgArg1.getLsbD 16) ∧
      (getPackage (dbgBrken pkg s) pkg).dbgStat = 0#64 := by
  have hlisted : r ∈ s.regions := List.mem_of_find?_eq_some h
  simp only [dbgBrken, h]
  exact ⟨breakpoints_modRegion hlisted, by simp⟩

theorem dbgBrken_none (h : regionIn s pkg (fieldOf (getPackage s pkg).dbgArg1 15 0) = none) : dbgBrken pkg s = dbgEnd s pkg 8 false := by
  simp only [dbgBrken, h]

theorem dbgBrken_frame : SameMemory s (dbgBrken pkg s) ∧ (dbgBrken pkg s).cores = s.cores := by
  unfold dbgBrken
  dsimp only
  split
  · exact ⟨fun _ => rfl, rfl⟩
  · exact ⟨fun _ => rfl, rfl⟩

end

/-! ### The register window -/

/-- A write to register `reg` of a queue, by the offsets of R406. -/
theorem execRegisterWrite_queue (s : State) (pkg : Nat) {q reg : Nat} (v : Word) (hq : q < 256) (hreg : reg < 16) :
    execRegisterWrite pkg (0x10000 + 128 * q + 8 * reg) v s = .next (writeQueueReg s pkg q reg v) := by
  have hqueue : (0x10000 + 128 * q + 8 * reg - 0x10000) / 128 = q := by omega
  have hslot : (0x10000 + 128 * q + 8 * reg) % 128 / 8 = reg := by omega
  rw [execRegisterWrite, if_pos (by simp; omega), if_pos (by omega), hqueue, hslot]

theorem writeQueueReg_base (s : State) (pkg q : Nat) (v : Word) :
    writeQueueReg s pkg q 1 v = if qEn (getQueue s pkg q) then s else modQueue s pkg q fun qu => { qu with base := v } := rfl

/-- The base of a queue is written while `EN` = 0 only (R406), and memory is left alone. -/
theorem writeBase_effect (s : State) (pkg q : Nat) (v : Word) :
    SameMemory s (writeQueueReg s pkg q 1 v) ∧
      (getQueue (writeQueueReg s pkg q 1 v) pkg q).base =
        if (getQueue s pkg q).cfg.getLsbD 0 then (getQueue s pkg q).base else v := by
  rw [writeQueueReg_base, qEn]
  cases (getQueue s pkg q).cfg.getLsbD 0 with
  | true => exact ⟨fun _ => rfl, rfl⟩
  | false => exact ⟨fun _ => rfl, by simp⟩

theorem execQtailWrite_eq (s : State) (pkg : Nat) {q : Nat} (v : Word) (hq : q < 256) :
    execQtailWrite pkg q v s = .next (writeQueueReg s pkg q 2 v) := by
  simp only [execQtailWrite, writeQueueReg, Nat.not_le.mpr hq, decide_false, Bool.false_or]
  split <;> rfl

theorem execQueueEnable_eq (s : State) (pkg : Nat) {q : Nat} {v : Word} (hq : q < 256)
    (hoff : (getQueue s pkg q).cfg.getLsbD 0 = false) (hv : v.getLsbD 0 = true) :
    execQueueEnable pkg q v s = .next (writeQueueReg s pkg q 0 v) := by
  simp only [execQueueEnable, writeQueueReg, qEn, hoff, hv, Nat.not_le.mpr hq, decide_false, Bool.or_false, Bool.not_true,
    Bool.false_eq_true, if_false, if_true]

theorem execQueueDisable_eq (s : State) (pkg : Nat) {q : Nat} {v : Word} (hon : (getQueue s pkg q).cfg.getLsbD 0 = true)
    (hv : v.getLsbD 0 = false) : execQueueDisable pkg q v s = .next (writeQueueReg s pkg q 0 v) := by
  simp only [execQueueDisable, writeQueueReg, qEn, hon, hv, Bool.not_false, Bool.and_true, Bool.false_eq_true, if_false, if_true]

theorem low16_eq (v : Word) : v &&& 0xFFFF#64 = BitVec.ofNat 64 (v.toNat % 2 ^ 16) := by
  apply BitVec.eq_of_toNat_eq
  have hand : v.toNat &&& 0xFFFF = v.toNat % 2 ^ 16 := Nat.and_two_pow_sub_one_eq_mod v.toNat 16
  calc (v &&& 0xFFFF#64).toNat = v.toNat &&& 0xFFFF := BitVec.toNat_and ..
    _ = v.toNat % 2 ^ 16 := hand
    _ = (BitVec.ofNat 64 (v.toNat % 2 ^ 16)).toNat := by rw [BitVec.toNat_ofNat]; omega

/-- Settles O58: each command of the mailbox by its effect and its frame, each register by what a write of it leaves. -/
theorem debugAndRegisterWritesTakeEffect : Obligations.DebugAndRegisterWritesTakeEffect := by
  intro s pkg v
  dsimp only
  refine ⟨fun hoff i hi => ?_, fun hon => ⟨?_, ?_, ?_, ?_, ?_, ?_, ?_, ?_, ?_⟩, rfl, rfl, rfl, rfl, rfl, rfl, rfl, rfl, ?_,
    fun q hq => ⟨?_, ?_, ?_, ?_⟩⟩
  · simp only [List.mem_cons, List.not_mem_nil, or_false] at hi
    obtain rfl | rfl | rfl | rfl | rfl | rfl | rfl | rfl := hi
    · exact next_of_disabled (f := dbgHalt) hoff
    · exact next_of_disabled (f := dbgGo) hoff
    · exact next_of_disabled (f := dbgSetStep) hoff
    · exact next_of_disabled (f := dbgRdreg) hoff
    · exact next_of_disabled (f := dbgWrreg) hoff
    · exact next_of_disabled (f := dbgRdtcm) hoff
    · exact next_of_disabled (f := dbgWrtcm) hoff
    · exact next_of_disabled (f := dbgBrken) hoff
  · exact ⟨dbgHalt pkg s, next_of_enabled hon, dbgHalt_effect s pkg⟩
  · exact ⟨dbgGo pkg s, next_of_enabled hon, dbgGo_effect s pkg⟩
  · exact ⟨dbgSetStep pkg s, next_of_enabled hon, dbgSetStep_effect s pkg⟩
  · obtain ⟨hquiet, hcores⟩ := dbgRdreg_frame s pkg
    refine ⟨dbgRdreg pkg s, next_of_enabled hon, hquiet, hcores, fun k hk => ?_, fun h1 => ?_, fun hlt h1 h2 h3 hk => ?_, fun hu => ?_⟩
    · rw [dbgData_dbgRdreg (dbgReg_scalar hk) (by simp) rfl]
      exact dbgRead_scalar _ _ _ _
    · have hcause : dbgReg (getPackage s pkg).dbgArg1 = .cr 1 := h1 ▸ dbgReg_control (by omega) (by rw [h1]; decide)
      rw [dbgData_dbgRdreg hcause (by simp) rfl]
      exact dbgRead_cause _ _ _
    · rw [dbgData_dbgRdreg (dbgReg_control hlt hk) (by simp) rfl]
      exact dbgRead_control _ _ _ h1 h2 h3
    · exact dbgRdreg_unknown s pkg (dbgReg_unknown hu)
  · exact fun k hk => ⟨dbgWrreg pkg s, next_of_enabled hon, dbgWrreg_scalar s pkg (dbgReg_scalar hk)⟩
  · intro hu
    have hend := dbgWrreg_unknown s pkg (dbgReg_unknown hu)
    exact ⟨dbgEnd s pkg 5 false, (next_of_enabled hon).trans (congrArg _ hend), quiet_of_same rfl rfl fun _ => rfl, rfl, by simp⟩
  · exact ⟨dbgRdtcm pkg s, next_of_enabled hon, quiet_of_same rfl rfl fun _ => rfl, rfl, dbgData_dbgRdtcm s pkg⟩
  · exact fun hwf => ⟨dbgWrtcm pkg s, next_of_enabled hon, rfl, rfl, dbgWrtcm_effect s pkg hwf⟩
  · obtain ⟨hmem, hcores⟩ := dbgBrken_frame s pkg
    refine ⟨dbgBrken pkg s, next_of_enabled hon, hmem, hcores, fun r hr => dbgBrken_some s pkg hr, fun hr => ?_⟩
    rw [dbgBrken_none s pkg hr]
    exact ⟨rfl, by simp⟩
  · refine ⟨modPackage s pkg fun p => putPackageReg p 0x3000 v, rfl, fun _ => rfl, rfl, ?_⟩
    rw [getPackage_modPackage_same]
    exact low16_eq v
  · exact ⟨writeQueueReg s pkg q 1 v, execRegisterWrite_queue s pkg (reg := 1) v hq (by decide),
      writeBase_effect s pkg q v⟩
  · exact (execRegisterWrite_queue s pkg (reg := 2) v hq (by decide)).trans (execQtailWrite_eq s pkg v hq).symm
  · exact fun hen hv => (execRegisterWrite_queue s pkg (reg := 0) v hq (by decide)).trans (execQueueEnable_eq s pkg hq hen hv).symm
  · exact fun hen hv => (execRegisterWrite_queue s pkg (reg := 0) v hq (by decide)).trans (execQueueDisable_eq s pkg hen hv).symm

end Sys2Proof.Machine
end

section
/-! PROOFS. Instruction words (R43 to R60): the encoder and the decoder undo each other, form by form (R56). An encoding is a chain of
fields, so a word equals it where each field of the word does (`bitsAre_append`); `L` and `S` lie above every form (R43, R44). -/

namespace Sys2Proof

/-! ### Fields of a word -/

/-- The bits of `u` from `lo` up are `x`. -/
def BitsAre (u : Word32) (lo : Nat) {n : Nat} (x : BitVec n) : Prop := bits u lo n = x

/-- `u` has the bits `x` from `lo` up wherever it holds `v` under the mask `m`. -/
def Pins (u m v : Word32) (lo : Nat) {n : Nat} (x : BitVec n) : Prop := u &&& m = v → BitsAre u lo x

/-- `x` holds `val` under a mask. -/
def Masked {n : Nat} (x : BitVec n) (mask val : Nat) : Prop := x.toNat &&& mask = val

theorem extractLsb'_append_low {n k lo len : Nat} {x : BitVec n} {y : BitVec k} (h : lo + len ≤ k) :
    (x.append y).extractLsb' lo len = y.extractLsb' lo len := BitVec.extractLsb'_append_eq_of_add_le h

theorem extractLsb'_append_high {n k lo len : Nat} {x : BitVec n} {y : BitVec k} (h : k ≤ lo) :
    (x.append y).extractLsb' lo len = x.extractLsb' (lo - k) len := BitVec.extractLsb'_append_eq_of_le h

theorem bitsAre_append {u : Word32} {lo n k : Nat} {x : BitVec n} {y : BitVec k} :
    BitsAre u lo (x.append y) ↔ BitsAre u (lo + k) x ∧ BitsAre u lo y := by
  unfold BitsAre bits
  rw [← BitVec.extractLsb'_append_extractLsb'_eq_extractLsb' rfl]
  constructor
  · intro h
    constructor
    · have hx := congrArg (BitVec.extractLsb' k n) h
      simpa [extractLsb'_append_high, BitVec.extractLsb'_append_eq_of_le, -BitVec.append_eq] using hx
    · have hy := congrArg (BitVec.extractLsb' 0 k) h
      simpa [extractLsb'_append_low, BitVec.extractLsb'_append_eq_of_add_le, -BitVec.append_eq] using hy
  · rintro ⟨rfl, rfl⟩
    rfl

theorem eq_iff_bitsAre {e u : Word32} : e = u ↔ BitsAre u 0 e := by
  simp [BitsAre, bits, eq_comm]

theorem pins_append {u m v : Word32} {lo n k : Nat} {x : BitVec n} {y : BitVec k} :
    Pins u m v lo (x.append y) ↔ Pins u m v (lo + k) x ∧ Pins u m v lo y := by
  simp only [Pins, bitsAre_append, imp_and]

theorem pins_bits {u m v : Word32} {lo n : Nat} : Pins u m v lo (bits u lo n) := fun _ => rfl

theorem pins_const {u m v : Word32} {lo n : Nat} {c : BitVec n} (hm : m.extractLsb' lo n = BitVec.allOnes n)
    (hv : v.extractLsb' lo n = c) : Pins u m v lo c := by
  rintro rfl
  rw [BitVec.extractLsb'_and, hm, BitVec.and_allOnes] at hv
  exact hv

theorem masked_append {n k mask val : Nat} {x : BitVec n} {y : BitVec k} :
    Masked (x.append y) mask val ↔ Masked x (mask / 2 ^ k) (val / 2 ^ k) ∧ Masked y (mask % 2 ^ k) (val % 2 ^ k) := by
  have hxy : (x.append y).toNat = 2 ^ k * x.toNat + y.toNat := by
    rw [BitVec.append_eq, BitVec.toNat_append, Nat.shiftLeft_eq, Nat.mul_comm, Nat.two_pow_add_eq_or_of_lt y.isLt]
  have hx : (x.append y).toNat / 2 ^ k = x.toNat := by
    rw [hxy, Nat.mul_add_div (Nat.two_pow_pos k), Nat.div_eq_of_lt y.isLt, Nat.add_zero]
  have hy : (x.append y).toNat % 2 ^ k = y.toNat := by
    rw [hxy, Nat.mul_add_mod, Nat.mod_eq_of_lt y.isLt]
  unfold Masked
  rw [← hx, ← hy, ← Nat.and_div_two_pow, ← Nat.and_mod_two_pow]
  constructor
  · rintro rfl; exact ⟨rfl, rfl⟩
  · rintro ⟨h1, h2⟩
    rw [← Nat.div_add_mod (_ &&& mask) (2 ^ k), h1, h2, Nat.div_add_mod]

theorem masked_zero {n : Nat} {x : BitVec n} : Masked x 0 0 := by simp [Masked]

theorem masked_const {n c mask val : Nat} : Masked (BitVec.ofNat n c) mask val ↔ c % 2 ^ n &&& mask = val := by simp [Masked]

theorem and_or {u m v m' v' : Word32} (h : u &&& m = v) (h' : u &&& m' = v') : u &&& (m ||| m') = v ||| v' := by
  subst h h'
  exact BitVec.and_or_distrib_left 

/-- A field of a word, as the word under a mask. -/
theorem and_of_bits {u : Word32} {lo n k : Nat} (h : (bits u lo n).toNat = k) :
    u &&& ((BitVec.allOnes n).setWidth 32 <<< lo) = (BitVec.ofNat 32 k) <<< lo := by
  subst h
  rw [BitVec.ofNat_toNat]
  ext i hi
  by_cases hlo : i < lo
  · simp [hlo]
  · simp [hlo, bits, Nat.add_sub_cancel' (Nat.le_of_not_lt hlo), BitVec.getLsbD_eq_getElem hi, Bool.and_comm]

theorem fixed_eq_ok {w mask val : Word32} {X i : Instr} : fixed w mask val X = .ok i ↔ w &&& mask = val ∧ X = i := by
  unfold fixed; split <;> simp [*]

theorem fixed_of_masked {e u mask val : Word32} {X : Instr} (h : e = u) (hm : Masked e mask.toNat val.toNat) :
    fixed u mask val X = .ok X := by
  subst h
  exact fixed_eq_ok.2 ⟨BitVec.eq_of_toNat_eq (by simpa [Masked] using hm), rfl⟩
/-! ### `L` and `S` apart from the form -/

/-- The bits of a word below `L` and `S`. -/
def formBits (w : Word32) : Word32 := w &&& 0x3FFFFFFF#32

theorem bits_formBits {w : Word32} {lo n : Nat} (h : lo + n ≤ 30) : bits (formBits w) lo n = bits w lo n := by
  have hmask : ∀ j < 30, (0x3FFFFFFF#32).getLsbD j = true := by decide
  ext j hj
  simp [bits, formBits, hmask (lo + j) (by omega)]

theorem fixed_formBits {w mask val : Word32} {i : Instr} (h : 0x3FFFFFFF#32 &&& mask = mask) :
    fixed (formBits w) mask val i = fixed w mask val i := by
  simp only [fixed, formBits, BitVec.and_assoc, h]

/-- The form of a word does not depend on `L` and `S`. -/
theorem decodeForm_formBits (w : Word32) : decodeForm (formBits w) = decodeForm w := by
  simp only [decodeForm, major,
    decodeMajor01, decodeMajor02, decodeMajor03, decodeMajor04, decodeMajor05, decodeMajor06, decodeMajor07, decodeMajor08, decodeMajor09,
    decodeMajor0A, decodeMajor0B, decodeMajor0C, decodeMajor0D, decodeMajor0E, decodeMajor0F, decodeMajor10, decodeMajor11, decodeMajor12,
    decodeMajor13, decodeMajor14, decodeMajor15, decodeMajor20, decodeMajor21, decodeMajor22, decodeMajor23, decodeMajor24, decodeMajor25,
    decodeMajor26, decodeMajor27, decodeMajor28, decodeMajor29, decodeMajor30, decodeMajor31, decodeMajor32, decodeMajor33, decodeMajor34,
    decodeMajor35, decodeMajor36, decodeMajor37, decodeMajor38, decodeMajor39,
    bits_formBits, fixed_formBits, Nat.reduceAdd, Nat.reduceLeDiff, BitVec.ofNat_eq_ofNat, BitVec.reduceAnd]

/-! ### A decoded form is the encoding of what it decodes to -/

theorem ok_eq_ok (w : Word32) {X i : Instr} : (.ok X : Except DecodeError Instr) = .ok i ↔ w &&& 0#32 = 0#32 ∧ X = i := by simp

/-- An encoding that a word's known bits pin down is the word. -/
theorem encodeForm_of_pins {u m v m' v' e : Word32} {X i : Instr} (hu : u &&& m = v) (h : u &&& m' = v' ∧ X = i)
    (he : encodeForm X = some e) (hp : Pins u (m ||| m') (v ||| v') 0 e) : encodeForm i = some u := by
  obtain ⟨hu', rfl⟩ := h
  rw [he, eq_iff_bitsAre.2 (hp (and_or hu hu'))]

/-- Major code by major code, and in each by the minor code: the word's known bits are those of the form's format, and its other
bits are the operands. -/
theorem encodeForm_of_decodeForm {u : Word32} {i : Instr} (htop : u &&& 0xC0000000#32 = 0#32) (h : decodeForm u = .ok i) :
    encodeForm i = some u := by
  unfold decodeForm at h
  split at h
  case h_42 => cases h
  all_goals
    rename_i hmajor
    have hu := and_or htop (and_of_bits hmajor)
  case h_2 | h_3 | h_6 | h_11 | h_23 | h_24 | h_25 | h_26 | h_27 | h_28 | h_30 | h_31 =>
    simp only [decodeMajor02, decodeMajor03, decodeMajor06, decodeMajor0B, decodeMajor21, decodeMajor22, decodeMajor23, decodeMajor24,
      decodeMajor25, decodeMajor26, decodeMajor28, decodeMajor29, fixed_eq_ok, ok_eq_ok u] at h
    refine encodeForm_of_pins hu h rfl ?_
    simp [pins_append, pins_bits, pins_const, HAppend.hAppend, -BitVec.append_eq]
  all_goals
    simp only [decodeMajor01, decodeMajor04, decodeMajor05, decodeMajor07, decodeMajor08, decodeMajor09, decodeMajor0A, decodeMajor0C,
      decodeMajor0D, decodeMajor0E, decodeMajor0F, decodeMajor10, decodeMajor11, decodeMajor12, decodeMajor13, decodeMajor14, decodeMajor15,
      decodeMajor20, decodeMajor27, decodeMajor30, decodeMajor31, decodeMajor32, decodeMajor33, decodeMajor34, decodeMajor35, decodeMajor36,
      decodeMajor37, decodeMajor38, decodeMajor39] at h
    split at h
  all_goals
    rename_i hminor
    simp only [fixed_eq_ok, ok_eq_ok u, reduceCtorEq] at h
  all_goals
    refine encodeForm_of_pins (and_or hu (and_of_bits hminor)) h rfl ?_
    simp [pins_append, pins_bits, pins_const, HAppend.hAppend, -BitVec.append_eq]

/-! ### An encoded form decodes to its instruction -/

/-- The decoder of the major code that a word form has (R56). -/
def decoderOf : Instr → Word32 → Except DecodeError Instr
  | .beq _ _ _ | .bne _ _ _ | .blt _ _ _ | .bge _ _ _ | .bltn _ _ _ | .bgen _ _ _ => decodeMajor01
  | .jal _ _ => decodeMajor02
  | .jalr _ _ _ => decodeMajor03
  | .loop _ _ _ | .loopi _ _ _ | .rep _ _ _ _ => decodeMajor04
  | .start _ _ _ | .waits _ | .yield => decodeMajor05
  | .ld _ _ _ _ => decodeMajor06
  | .st _ _ _ _ | .stH _ _ _ => decodeMajor07
  | .ldbit _ _ _ _ | .stbit _ _ _ | .ldt _ _ _ _ => decodeMajor08
  | .amoadd _ _ _ | .amoand _ _ _ | .amoor _ _ _ | .amoxor _ _ _ | .amomin _ _ _ | .amomax _ _ _ | .amominn _ _ _
  | .amomaxn _ _ _ => decodeMajor09
  | .amoseq _ _ _ _ _ => decodeMajor0A
  | .fence _ _ _ => decodeMajor0B
  | .waitw _ _ | .ifence | .sync | .post _ _ _ | .recv _ => decodeMajor0C
  | .trap _ | .eret | .endOp | .brk _ => decodeMajor0D
  | .crr _ _ | .crw _ _ _ | .crs _ _ _ | .crc _ _ _ => decodeMajor0E
  | .vld _ _ _ _ _ | .vst _ _ _ _ _ | .vgather _ _ _ _ _ | .vscatter _ _ _ _ _ => decodeMajor0F
  | .vldq _ _ _ _ _ | .vstq _ _ _ _ _ | .hsift _ _ _ _ => decodeMajor10
  | .mma _ _ _ | .mmaz _ _ _ | .mldb _ _ | .mldbt _ _ | .mring _ | .mswap _ | .mzero _ | .mldacc _ _ | .mstacc _ _
  | .mstaccq _ _ _ _ _ | .maccadd _ _ _ | .mcfg _ _ _ _ _ | .mskset _ _ _ | .mskget _ | .mkeep _ _ | .mwait => decodeMajor11
  | .cpy _ _ _ _ _ | .cpyd _ _ _ _ | .cpyg _ _ _ _ _ | .cpys _ _ _ _ _ | .cpyf _ _ _ _ _ | .cpyr _ _ _ | .cpyho _ _ _ _ _
  | .cpyres _ _ _ | .ebset _ _ | .ebget _ _ => decodeMajor12
  | .txsub _ _ | .txpeek _ _ | .txsets _ _ _ _ | .txchk _ _ _ | .txend | .txrst _ => decodeMajor13
  | .pdainit _ _ _ | .pdamask _ _ | .pdastep _ _ | .samplep _ _ _ | .samplef _ _ | .pdasave _ _ => decodeMajor14
  | .sassert _ _ _ | .sgrow _ | .sbmap _ _ => decodeMajor15
  | .add _ _ _ | .sub _ _ _ | .and _ _ _ | .or _ _ _ | .xor _ _ _ | .andn _ _ _ | .sll _ _ _ | .srl _ _ _ | .sra _ _ _
  | .rotr _ _ _ | .mul _ _ _ | .mulh _ _ _ | .mulhn _ _ _ | .div _ _ _ | .divn _ _ _ | .rem _ _ _ | .remn _ _ _ | .min _ _ _
  | .max _ _ _ | .minn _ _ _ | .maxn _ _ _ | .slt _ _ _ | .sltn _ _ _ | .seq _ _ _ | .clz _ _ | .ctz _ _ | .popc _ _ | .brev _ _
  | .bswap _ _ => decodeMajor20
  | .addi _ _ _ => decodeMajor21
  | .andi _ _ _ => decodeMajor22
  | .ori _ _ _ => decodeMajor23
  | .xori _ _ _ => decodeMajor24
  | .slti _ _ _ => decodeMajor25
  | .sltin _ _ _ => decodeMajor26
  | .slli _ _ _ | .srli _ _ _ | .srai _ _ _ | .rotri _ _ _ => decodeMajor27
  | .lui _ _ => decodeMajor28
  | .insh _ _ _ => decodeMajor29
  | .vadd _ _ _ _ _ | .vsub _ _ _ _ _ | .vmul _ _ _ _ _ | .vfma _ _ _ _ _ => decodeMajor30
  | .vmin _ _ _ _ _ | .vmax _ _ _ _ _ | .vabs _ _ _ _ | .vneg _ _ _ _ => decodeMajor31
  | .vand _ _ _ _ _ | .vor _ _ _ _ _ | .vxor _ _ _ _ _ | .vsll _ _ _ _ _ => decodeMajor32
  | .vsrl _ _ _ _ _ | .vsra _ _ _ _ _ | .vadds _ _ _ _ _ | .vsubs _ _ _ _ _ => decodeMajor33
  | .vcmpeq _ _ _ _ _ | .vcmpne _ _ _ _ _ | .vcmplt _ _ _ _ _ | .vcmple _ _ _ _ _ => decodeMajor34
  | .vsel _ _ _ _ _ | .vredsum _ _ _ _ _ | .vredmax _ _ _ _ _ | .vredmin _ _ _ _ _ => decodeMajor35
  | .vscan _ _ _ _ _ | .vperm _ _ _ _ _ | .vbcast _ _ _ _ _ | .vslide _ _ _ _ _ => decodeMajor36
  | .vcvt _ _ _ _ _ | .vscale _ _ _ _ _ | .vexp2 _ _ _ _ | .vrcp _ _ _ _ => decodeMajor37
  | .kand _ _ _ | .kor _ _ _ | .kxor _ _ _ | .knot _ _ => decodeMajor38
  | .vins _ _ _ _ | .vmovs _ _ _ _ => decodeMajor39
  | _ => fun _ => .error .reservedMajor

theorem toNat_bits_of_eq {e u : Word32} (h : e = u) (lo n : Nat) : (bits u lo n).toNat = (e.extractLsb' lo n).toNat := by
  subst h; rfl

theorem toNat_major_of_eq {e u : Word32} (h : e = u) : (major u).toNat = (e.extractLsb' 24 6).toNat := toNat_bits_of_eq h 24 6

/-- Form by form: the constant bits choose the major code's decoder and in it the minor code's row, whose fields are the operands. -/
theorem decodeForm_encodeForm {i : Instr} {u : Word32} (h : encodeForm i = some u) : decodeForm u = .ok i := by
  cases hi : i with
  | yield | ifence | sync | eret | endOp | mwait | txend => subst hi; cases h; rfl
  | issueSlotGiveUp | faultRecord | firmwareFlush | cDone | cClose | lockRequestEnqueue | lockGrant | tilePush | transactionDispatch |
    tClose | planEntryStart | sendfFlit | flitReceive | contributionApply | contributionResend | collectiveIncomplete | acknowledgement |
    requestVote | deferredStorePerform | barrierExit | exchangeRound | vectorExecute | matrixCommandStart | copyCommandStart |
    selvedgeCommandStart | noReturnAtomicApply | atomicReplay | throttleBubble | preemptionTake | preemptionResume | preemptTimeout |
    parkTimeout | launchStart | queueEnable | queueDisable | qtailWrite | qclaimFetchadd | doorbellEvent | stampRecheck | nop | launch |
    hosttx | indirect | region | kill | suspend | resume | inval | evict | signal | destroy | pasidTeardown | atsInvalidation |
    pageRequestResponse | halt | dbgResume | dbgStep | rdreg | wrreg | rdtcm | wrtcm | brken | registerWrite | thermalTrip |
    eccCorrection | linkReplay | uncorrectableError | deviceReset | illegalInstruction | pcieCompletion | hostWindowWrite |
    recoveryPointValid => subst hi; cases h
  | _ =>
    have hu := Option.some.inj (hi ▸ h)
    simp only [HAppend.hAppend] at hu
    have hmajor := toNat_major_of_eq hu
    simp only [extractLsb'_append_high, BitVec.toNat_ofNat, Nat.reduceLeDiff, Nat.reduceAdd, Nat.reduceSub, BitVec.reduceExtractLsb',
      Nat.reducePow, Nat.reduceMod] at hmajor
    have hdecoder : decodeForm u = decoderOf i u := by
      unfold decodeForm
      rw [hmajor, hi]
      rfl
    rw [hdecoder, hi]
    have hfields := eq_iff_bitsAre.1 hu
    simp only [bitsAre_append] at hfields
    simp only [BitsAre] at hfields
    dsimp only [decoderOf]
    simp only [
      decodeMajor01, decodeMajor02, decodeMajor03, decodeMajor04, decodeMajor05, decodeMajor06, decodeMajor07, decodeMajor08,
      decodeMajor09, decodeMajor0A, decodeMajor0B, decodeMajor0C, decodeMajor0D, decodeMajor0E, decodeMajor0F, decodeMajor10,
      decodeMajor11, decodeMajor12, decodeMajor13, decodeMajor14, decodeMajor15, decodeMajor20, decodeMajor21, decodeMajor22,
      decodeMajor23, decodeMajor24, decodeMajor25, decodeMajor26, decodeMajor27, decodeMajor28, decodeMajor29, decodeMajor30,
      decodeMajor31, decodeMajor32, decodeMajor33, decodeMajor34, decodeMajor35, decodeMajor36, decodeMajor37, decodeMajor38, decodeMajor39]
    simp only [hfields, toNat_bits_of_eq hu, fixed_of_masked hu, extractLsb'_append_low, extractLsb'_append_high,
      masked_append, masked_zero, masked_const, and_self, Nat.reduceLeDiff, Nat.reduceAdd, Nat.reduceSub, Nat.reducePow, Nat.reduceMod,
      Nat.reduceDiv, Nat.reduceAnd, BitVec.reduceExtractLsb', BitVec.toNat_ofNat, BitVec.ofNat_eq_ofNat]

/-! ### Whole words: `L` and `S` -/

/-- The bits `L` and `S` of a word, in their places. -/
def placementBits (lone smark : Bool) : Word32 :=
  (if lone then 0x80000000#32 else 0#32) ||| (if smark then 0x40000000#32 else 0#32)

theorem placementBits_eq (w : Word32) : placementBits (isLone w) (isMarked w) = w &&& 0xC0000000#32 := by
  have hlow : ∀ (lone smark : Bool) (j : Nat), j < 30 → (placementBits lone smark).getLsbD j = false := by decide
  have hmask : ∀ j < 30, (0xC0000000#32).getLsbD j = false := by decide
  have hmark : ∀ lone smark : Bool, (placementBits lone smark).getLsbD 30 = smark := by decide
  have hlone : ∀ lone smark : Bool, (placementBits lone smark).getLsbD 31 = lone := by decide
  refine BitVec.eq_of_getLsbD_eq fun j hj => ?_
  rw [BitVec.getLsbD_and]
  obtain h | rfl | rfl : j < 30 ∨ j = 30 ∨ j = 31 := by omega
  · rw [hlow _ _ _ h, hmask _ h, Bool.and_false]
  · rw [hmark]; exact (Bool.and_true _).symm
  · rw [hlone]; exact (Bool.and_true _).symm

/-- A word is its form's bits with its `L` and `S`. -/
theorem formBits_or_placementBits (w : Word32) : formBits w ||| placementBits (isLone w) (isMarked w) = w := by
  rw [placementBits_eq]
  exact BitVec.and_or_distrib_left.symm.trans BitVec.and_allOnes

theorem formBits_or {e : Word32} (lone smark : Bool) (he : formBits e = e) : formBits (e ||| placementBits lone smark) = e := by
  have hp : ∀ lone smark : Bool, formBits (placementBits lone smark) = 0#32 := by decide
  calc formBits (e ||| placementBits lone smark)
      = formBits e ||| formBits (placementBits lone smark) := by simp only [formBits, BitVec.and_comm _ 0x3FFFFFFF#32,
        BitVec.and_or_distrib_left]
    _ = e := by rw [he, hp, BitVec.or_zero]

theorem getLsbD_of_formBits {e : Word32} (he : formBits e = e) {j : Nat} (hj : (0x3FFFFFFF#32).getLsbD j = false) : e.getLsbD j = false := by
  rw [← he, formBits, BitVec.getLsbD_and, hj, Bool.and_false]

theorem isLone_or {e : Word32} (lone smark : Bool) (he : formBits e = e) : isLone (e ||| placementBits lone smark) = lone := by
  have hp : ∀ lone smark : Bool, (placementBits lone smark).getLsbD 31 = lone := by decide
  rw [isLone, BitVec.getLsbD_or, getLsbD_of_formBits he (by decide), hp, Bool.false_or]

theorem isMarked_or {e : Word32} (lone smark : Bool) (he : formBits e = e) : isMarked (e ||| placementBits lone smark) = smark := by
  have hp : ∀ lone smark : Bool, (placementBits lone smark).getLsbD 30 = smark := by decide
  rw [isMarked, BitVec.getLsbD_or, getLsbD_of_formBits he (by decide), hp, Bool.false_or]

theorem formBits_top (w : Word32) : formBits w &&& 0xC0000000#32 = 0#32 := by
  rw [formBits, BitVec.and_assoc]
  exact BitVec.and_zero

theorem encode_eq (d : DecodedWord) : encode d = (encodeForm d.instr).map fun e => e ||| placementBits d.lone d.smark := by
  simp only [encode, placementBits, BitVec.or_assoc]

/-- An encoded form leaves `L` and `S` clear. -/
theorem formBits_of_encodeForm {i : Instr} {e : Word32} (h : encodeForm i = some e) : formBits e = e := by
  have hd : decodeForm (formBits e) = .ok i := (decodeForm_formBits e).trans (decodeForm_encodeForm h)
  have he := encodeForm_of_decodeForm (formBits_top _) hd
  exact Option.some.inj (he.symm.trans h)

/-- What the decoder accepts under version 3 (R49, R172): a form, with `L` and `S` where they may stand. -/
theorem decode_v3_eq_ok {w : Word32} {d : DecodedWord} :
    decode .v3 w = .ok d ↔ decodeForm w = .ok d.instr ∧ isLone w = d.lone ∧ isMarked w = d.smark ∧
      (isMarked w = true → markAllowed w = true) ∧ (markRequired w = true → isMarked w = true) ∧ (loneOnly w = true → isLone w = true) := by
  obtain ⟨lone, smark, i⟩ := d
  simp only [decode, majorReserved, reduceCtorEq, false_and, if_false, Bool.false_eq_true]
  cases decodeForm w with
  | error e => simp
  | ok j =>
    simp only [Bool.and_eq_true, Bool.not_eq_true']
    split_ifs with hallowed hrequired hlone
    · simp [hallowed]
    · simp [hrequired]
    · simp [hlone]
    · simp only [not_and, Bool.not_eq_false] at hallowed hrequired hlone
      constructor
      · rintro ⟨⟩
        exact ⟨rfl, rfl, rfl, hallowed, hrequired, hlone⟩
      · rintro ⟨⟨⟩, rfl, rfl, -⟩
        rfl

/-- Settles O2: the form decodes (`decodeForm_encodeForm`), and `L` and `S` are apart from it. -/
theorem encodedWordsDecode : Obligations.EncodedWordsDecode := by
  intro d w h hallowed hrequired hlone
  rw [encode_eq, Option.map_eq_some_iff] at h
  obtain ⟨e, he, rfl⟩ := h
  have hform := formBits_of_encodeForm he
  rw [decode_v3_eq_ok, ← decodeForm_formBits, formBits_or _ _ hform, isLone_or _ _ hform, isMarked_or _ _ hform]
  exact ⟨decodeForm_encodeForm he, rfl, rfl, hallowed, hrequired, hlone⟩

/-- Settles O3: the form's bits are its instruction's encoding (`encodeForm_of_decodeForm`), and the other two are `L` and `S`. -/
theorem decodedWordsEncode : Obligations.DecodedWordsEncode := by
  intro d w h
  obtain ⟨hform, hlone, hmark, -⟩ := decode_v3_eq_ok.1 h
  have he : encodeForm d.instr = some (formBits w) := encodeForm_of_decodeForm (formBits_top _) ((decodeForm_formBits w).trans hform)
  rw [encode_eq, he, Option.map_some, ← hlone, ← hmark, formBits_or_placementBits]

/-! ### Reserved major codes -/

theorem toNat_major (w : Word32) : (major w).toNat = w.toNat / 2 ^ 24 % 64 := by
  simp [major, bits, Nat.shiftRight_eq_div_pow]

/-- A major code that R57 reserves. -/
def ReservedMajor (m : Nat) : Prop := m = 0x00 ∨ (0x16 ≤ m ∧ m ≤ 0x1F) ∨ (0x2A ≤ m ∧ m ≤ 0x2F) ∨ 0x3A ≤ m

theorem decodeForm_reserved {w : Word32} (h : ReservedMajor (major w).toNat) : decodeForm w = .error .reservedMajor := by
  unfold ReservedMajor at h
  unfold decodeForm
  split
  case h_42 => rfl
  all_goals omega

/-- No element-type code is translated in a word of a reserved major. -/
theorem translateV1_reserved {w : Word32} (h : ReservedMajor (major w).toNat) : translateV1 w = w := by
  unfold ReservedMajor at h
  unfold translateV1
  simp only
  rw [if_neg (by omega), if_neg (by omega), if_neg (by omega), if_neg (by omega)]

/-- Settles O4: the form of a word of a reserved major is an error, before and after the translation of version 1. -/
theorem reservedMajorsRefused : Obligations.ReservedMajorsRefused := by
  intro v w h
  rw [← toNat_major] at h
  have hform : decodeForm (if v = .v1 then translateV1 w else w) = .error .reservedMajor := by
    rw [translateV1_reserved h, ite_self, decodeForm_reserved h]
  unfold decode
  rw [hform]
  split
  · exact ⟨_, rfl⟩
  · split <;> exact ⟨_, rfl⟩

end Sys2Proof
end

section
/-! PROOFS. Words that trap, and fetches of words (R22, R43, R47, R57, R99, R132, R150). -/

namespace Sys2Proof.Machine

open Sys2Proof.Safety

/-! ### Words whose fields are not accepted (R47) -/

/-- An outcome is that of the one rule for words: live, drained, well-formed, and then an effect. -/
def IssuedAs (i : Instr) (s : State) (o : Out State) : Prop := ∃ f, o = issueWord i s f

section
variable {i : Instr} {s : State}

theorem issuedAs_branch {c : Cond} {a b : BitVec 5} {o : BitVec 11} : IssuedAs i s (branch i c a b o s) := ⟨_, rfl⟩

theorem issuedAs_noReturn {op : BitVec 3} {a b : BitVec 5} {w : BitVec 1} : IssuedAs i s (noReturn i op a b w s) := ⟨_, rfl⟩

theorem issuedAs_crAccess {d : BitVec 5} {r : BitVec 12} {new : Option (Word → Word)} : IssuedAs i s (crAccess i d r new s) := ⟨_, rfl⟩

theorem issuedAs_vectorWord {sels : List (Nat × Bool)} {eff : Vector Word 8 → State → Eng State} : IssuedAs i s (vectorWord i sels eff s) := ⟨_, rfl⟩

theorem issuedAs_mxIssue {sels : State → List (Nat × Bool)} {a b : BitVec 5} {cOnly : Bool} : IssuedAs i s (mxIssue i sels a b cOnly s) := ⟨_, rfl⟩

theorem issuedAs_keeperWord {f : State → Scale → Scale} : IssuedAs i s (keeperWord i f s) := ⟨_, rfl⟩

theorem issuedAs_copyIssue {a b c : BitVec 5} : IssuedAs i s (copyIssue i a b c s) := ⟨_, rfl⟩

theorem issuedAs_svIssue {a b : BitVec 5} : IssuedAs i s (svIssue i a b s) := ⟨_, rfl⟩

theorem issuedAs_integer {d : BitVec 5} {f : State → Word} : IssuedAs i s (integer i d f s) := ⟨_, rfl⟩

end

/-- Every instruction word is issued by the one rule for words. -/
theorem issuedAs_exec {i : Instr} (hi : IsWord i) (s : State) : IssuedAs i s (exec i s) := by
  unfold exec
  cases i with
  | beq | bne | blt | bge | bltn | bgen => exact issuedAs_branch
  | amoadd | amoand | amoor | amoxor | amomin | amomax | amominn | amomaxn => exact issuedAs_noReturn
  | crr | crw | crs | crc => exact issuedAs_crAccess
  | vld | vst | vgather | vscatter | vldq | vstq | hsift | vadd | vsub | vmul | vfma | vmin | vmax | vabs | vneg | vand | vor | vxor |
    vsll | vsrl | vsra | vadds | vsubs | vcmpeq | vcmpne | vcmplt | vcmple | vsel | vredsum | vredmax | vredmin | vscan | vperm |
    vbcast | vslide | vcvt | vscale | vexp2 | vrcp | kand | kor | kxor | knot | vins => exact issuedAs_vectorWord
  | mma | mmaz | mldb | mldbt | mring | mswap | mzero | mldacc | mstacc | mstaccq | maccadd | mcfg => exact issuedAs_mxIssue
  | mskset | mkeep => exact issuedAs_keeperWord
  | cpy | cpyd | cpyg | cpys | cpyf | cpyr | cpyho => exact issuedAs_copyIssue
  | pdainit | pdamask | pdastep | samplep | samplef | pdasave => exact issuedAs_svIssue
  | add | sub | and | or | xor | andn | sll | srl | sra | rotr | mul | mulh | mulhn | div | divn | rem | remn | min | max | minn | maxn |
    slt | sltn | seq | clz | ctz | popc | brev | bswap | addi | andi | ori | xori | slti | sltin | slli | srli | srai | rotri | lui |
    insh => exact issuedAs_integer
  | jal | jalr | loop | loopi | rep | start | waits | yield | ld | st | stH | ldbit | stbit | ldt | amoseq | fence | waitw | ifence | sync |
    post | recv | trap | eret | endOp | brk | mskget | mwait | cpyres | ebset | ebget | txsub | txpeek | txsets | txchk | txend | txrst |
    sassert | sgrow | sbmap | vmovs => exact ⟨_, rfl⟩
  | _ => exact absurd hi Bool.false_ne_true

/-- A drained word of a live strand with fields its form does not accept is an illegal instruction. -/
theorem issueWord_illFormed {i : Instr} {s : State} {f : State → Except Stop State} (hl : (me s).live = true)
    (hd : drainPoint i s = .ok ()) (hw : wellFormed i = false) :
    issueWord i s f = .next (raise s 0x01 0 (s.ctx.word.setWidth 64) 7) := by
  rw [issueWord, if_pos hl, hd]
  simp only [hw]
  rfl

/-- A reason of R47 or R57, on a live strand, is taken. -/
theorem exec_illegalInstruction {why : FetchFault} {s t : State} (hl : (me s).live = true)
    (h : execIllegalInstruction why s = if (me s).live then .next t else .fault .noStrand) :
    exec (.illegalInstruction why) s = .next t := h.trans (if_pos hl)

/-- Settles O5: each reason is its own trap entry, and every word goes through `issueWord`, which checks its fields before its effect. -/
theorem illegalWordsTrap : Obligations.IllegalWordsTrap := by
  refine ⟨fun s w a hl => ⟨?_, ?_, ?_, ?_, ?_⟩, fun i s hi hl hd hw => ?_⟩
  · exact exec_illegalInstruction hl rfl
  · exact exec_illegalInstruction hl rfl
  · exact exec_illegalInstruction hl rfl
  · exact exec_illegalInstruction hl rfl
  · exact exec_illegalInstruction hl rfl
  · obtain ⟨f, hf⟩ := issuedAs_exec hi s
    exact hf.trans (issueWord_illFormed hl hd hw)

/-! ### Reads of code -/

/-- The access that a read of a word of code by the strand notes: whether it is a conflict, and the state with the note. -/
def codeNote (s : State) (core : Nat) (n : Fin 4) (a : Nat) : State × Bool :=
  noteAccess s { core := core, strand := n, cmd := none } (tcmPlace core a) 4 false none false false

/-- The load that a read of a word of code by the strand is. -/
def codeLoad (s : State) (core : Nat) (n : Fin 4) (a : Nat) : List Byte × State :=
  loadAt s { core := core, strand := n, cmd := none } (tcmPlace core a) 4

/-- The strand reads four bytes of TCM with no conflict, and none of them in a guard granule. -/
def CodeReadable (s : State) (core : Nat) (n : Fin 4) (a : Nat) : Prop :=
  (codeNote s core n a).2 = false ∧ ∀ j, j < 4 → classAt (regionOf s core) (tcmKey core a + j) ≠ 2

theorem codeLoad_of_readable {s : State} {core : Nat} {n : Fin 4} {a : Nat} (h : CodeReadable s core n a) :
    codeLoad s core n a = (readBytes s.mem (tcmKey core a) 4, (codeNote s core n a).1) := by
  obtain ⟨hquiet, hopen⟩ := h
  have hmark : markLeaf s (tcmPlace core a) false = s := rfl
  rw [codeNote] at hquiet ⊢
  rw [codeLoad, loadAt, hmark]
  generalize noteAccess s _ (tcmPlace core a) 4 false none false false = q at hquiet ⊢
  obtain ⟨s1, conflict⟩ := q
  obtain rfl : conflict = false := hquiet
  refine congrArg (·, s1) (List.map_congr_left fun j hj => ?_)
  have hj4 : classAt (regionOf s core) ((tcmPlace core a).key + j) ≠ 2 := hopen j (List.mem_range.1 hj)
  rw [decide_eq_false hj4]
  rfl

theorem fetchWord_of_held {s : State} {core : Nat} {n : Fin 4} {a : Nat} {f : Nat × Nat × Word32}
    (h : ((getCore s core).fetched.find? fun f => f.1 = n.val && f.2.1 = a) = some f) : fetchWord s core n a = (f.2.2, s) := by
  rw [fetchWord, h]

/-- A fetch of a word the strand does not hold is a load, and the strand then holds what it gave. -/
theorem fetchWord_of_not_held {s : State} {core : Nat} {n : Fin 4} {a : Nat}
    (h : ((getCore s core).fetched.find? fun f => f.1 = n.val && f.2.1 = a) = none) :
    fetchWord s core n a =
      (BitVec.ofNat 32 (leNat (codeLoad s core n a).1),
        modCore (codeLoad s core n a).2 core fun x =>
          { x with fetched := (n.val, a, BitVec.ofNat 32 (leNat (codeLoad s core n a).1)) :: x.fetched }) := by
  rw [codeLoad, fetchWord, h]
  extract_lets p
  have hp : p = tcmPlace core a := rfl
  clear_value p
  subst hp
  generalize loadAt s _ (tcmPlace core a) 4 = r
  obtain ⟨bs, s1⟩ := r
  rfl

theorem readCode_eq (s : State) (core : Nat) (n : Fin 4) (b : TcmAddr) :
    readCode s core n b =
      (BitVec.ofNat 32 (leNat (codeLoad s core n b.toNat).1), (codeLoad s core n b.toNat).2) := by
  have hva : (b.setWidth 64 : Word) = BitVec.ofNat 64 b.toNat := BitVec.eq_of_toNat_eq (by simp)
  have hplace : tcmPlace core b.toNat = ⟨tcmKey core b.toNat, .untranslated, false, none, b.setWidth 64⟩ := by rw [hva]; rfl
  rw [codeLoad, readCode]
  generalize Place.mk (tcmKey core b.toNat) _ _ _ (b.setWidth 64) = p at hplace ⊢
  subst hplace
  generalize loadAt s _ _ 4 = r
  obtain ⟨bs, s1⟩ := r
  rfl

/-- A target beyond TCM lies outside every bound (R99). -/
theorem fetchIssue_beyond {s : State} {core : Nat} {n : Fin 4} {t : Word} (h : (getStrand s core n).beyond = some t) :
    fetchIssue s core n = (.bad (.fetchBounds t) false, s) := by
  unfold fetchIssue
  extract_lets x u a v
  have hu : u.beyond = some t := h
  rw [hu]
  rfl

/-- Settles O11: the held copy, or the bytes a load of code gives (`codeLoad_of_readable`). -/
theorem fetchReadsMemory : Obligations.FetchReadsMemory := by
  intro s core n a
  refine ⟨fun f hf => ?_, fun hnone hquiet hopen => ?_, fun b hb hquiet hopen => ?_, fun t ht => ?_⟩
  · rw [fetchWord_of_held hf]
  · rw [fetchWord_of_not_held hnone, codeLoad_of_readable ⟨hquiet, hopen⟩]
    refine ⟨rfl, ?_⟩
    rw [getCore_modCore_same]
    exact List.mem_cons_self
  · subst hb
    rw [readCode_eq, codeLoad_of_readable ⟨hquiet, hopen⟩]
    rfl
  · rw [fetchIssue_beyond ht]

end Sys2Proof.Machine
end

section
/-! PROOFS. What the step of a core that is to issue is: a lone word, a pair, a word of a replay (R43 to R47, R106, R107, R160). -/

namespace Sys2Proof.Machine
open Sys2Proof.Safety

/-! ### Which step an issue is -/

theorem scriptPopped_of_nil {s : State} (h : s.script = []) : scriptPopped s = s := by
  cases s with
  | mk => subst h; rfl

/-- With no script left, a held vector unit moves where the word waited. -/
theorem settled_next_of_nil {s : State} (h : s.script = []) (u : State) :
    settled s (.next u) = if u.ctx.event = .blocked then runHeld s u else .next u := by
  rw [settled, h]
  simp only [true_and]

/-- With a move left in the script, an issue is the step's whole result. -/
theorem settled_of_cons {s : State} {m : Move} {rest : List Move} (h : s.script = m :: rest) (o : Out State) : settled s o = o := by
  cases o with
  | next u => exact if_neg fun hc => List.cons_ne_nil m rest (h.symm.trans hc.1)
  | fault | refused => rfl

theorem step_of_scripted_issue {s : State} {core : Nat} {n : Fin 4} {rest : List Move} (h : s.script = .issue core :: rest)
    (hn : nextStrand (scriptPopped s) core = some n) : Machine.step s = issueAt (scriptPopped s) core n := by
  have hp : scriptPopped s = { s with script := rest } := by rw [scriptPopped, h]; rfl
  rw [hp] at hn ⊢
  rw [Machine.step, h]
  dsimp only
  rw [runMove, hn]

theorem step_of_own_issue {s : State} {core : Nat} {n : Fin 4} (h : s.script = []) (hev : nextEvent s = none)
    (hn : nextIssue s = some (core, n)) : Machine.step s = settled s (issueAt s core n) := by
  rw [Machine.step, h]
  dsimp only
  rw [runNext, hev]
  dsimp only
  rw [hn]
  dsimp only
  cases issueAt s core n with
  | next u => exact (settled_next_of_nil h u).symm
  | fault | refused => rfl

/-- The step of a core that is to issue is its next strand's issue, settled (log entries 3 and 8). -/
theorem step_of_issuesNext {s : State} {core : Nat} {n : Fin 4} (h : IssuesNext s core n) :
    Machine.step s = settled s (issueAt (scriptPopped s) core n) := by
  rcases h with ⟨hhead, hn⟩ | ⟨hnil, hev, hn⟩
  · obtain ⟨rest, hscript⟩ : ∃ rest, s.script = .issue core :: rest := List.head?_eq_some_iff.1 hhead
    rw [settled_of_cons hscript, step_of_scripted_issue hscript hn]
  · rw [scriptPopped_of_nil hnil, step_of_own_issue hnil hev hn]

/-- A step of the part that the script names is the machine's step (log entry 3). -/
theorem step_of_scripted_event {s : State} {i : Instr} {rest : List Move} (h : s.script = .event i :: rest) (hi : isEvent i = true) :
    Machine.step s = exec i { s with script := rest } := by
  rw [Machine.step, h]
  exact if_pos hi

/-! ### A strand at its boundary -/

/-- What follows the issue of a strand: the entry tried again, and the end of the issue. -/
def issued (n : Fin 4) (t : Strand) (s0 : State) (o : Out State) : Out State :=
  match o with
  | .next u => .next (afterIssue n (t.trap.status.getLsbD 0) t.released (entryReady s0 u))
  | o => o

theorem me_atBoundary (s : State) (core : Nat) (n : Fin 4) :
    me (atBoundary s core n) = { getStrand s core n with wait := .ready } := by
  show coreStrand (getCore (modCore (modStrand s core n fun t => { t with wait := .ready }) core (fun x => { x with slotGone := false })) core) n = _
  rw [getCore_modCore_same]
  exact getStrand_modStrand_same ..

@[simp] theorem pc_me_atBoundary (s : State) (core : Nat) (n : Fin 4) : (me (atBoundary s core n)).pc = (getStrand s core n).pc := by
  rw [me_atBoundary]

@[simp] theorem beyond_me_atBoundary (s : State) (core : Nat) (n : Fin 4) :
    (me (atBoundary s core n)).beyond = (getStrand s core n).beyond := by
  rw [me_atBoundary]

@[simp] theorem replaying_me_atBoundary (s : State) (core : Nat) (n : Fin 4) :
    (me (atBoundary s core n)).replaying = (getStrand s core n).replaying := by
  rw [me_atBoundary]

theorem issueAt_waits {s : State} {core : Nat} {n : Fin 4} (hr : pendingReport (regionOf s core) (getCore s core) n = false)
    (hw : fetchWaits (atBoundary s core n) = true) :
    issueAt s core n = .next (afterIssue n false false (block (atBoundary s core n) .stall)) := by
  unfold issueAt
  extract_lets x t y c s0 o
  have hw' : fetchWaits s0 = true := hw
  rw [hr, hw']
  rfl

theorem issueAt_runs {s : State} {core : Nat} {n : Fin 4} (hr : pendingReport (regionOf s core) (getCore s core) n = false)
    (hw : fetchWaits (atBoundary s core n) = false) (hb : budgetSpent (getStrand s core n) = false) :
    issueAt s core n = issued n (getStrand s core n) (atBoundary s core n)
      (if (getStrand s core n).replaying then runReplay (atBoundary s core n) else runFetched (atBoundary s core n)) := by
  unfold issueAt
  extract_lets x t y c s0 o
  have hw' : fetchWaits s0 = false := hw
  have hb' : budgetSpent t = false := hb
  have ho : o = if t.replaying then runReplay s0 else runFetched s0 := if_neg (by rw [hb']; exact Bool.false_ne_true)
  rw [hr, hw', ho]
  rfl

/-! ### What a fetch issues (R43, R45, R47) -/

theorem formOf_of_decode {v : EncVer} {w : Word32} {d : DecodedWord} (h : decode v w = .ok d) : formOf v w = some d.instr := by
  rw [decode] at h
  split at h
  · cases h
  split at h
  · cases h
  next hres =>
    rw [formOf, if_neg hres]
    generalize decodeForm (if v = .v1 then translateV1 w else w) = r at h ⊢
    cases r with
    | error e => cases h
    | ok i =>
      dsimp only at h ⊢
      split at h
      · cases h
      split at h
      · cases h
      split at h
      · cases h
      · cases h
        rfl

theorem loneIssued_of_decode {v : EncVer} {w : Word32} {d : DecodedWord} (h : decode v w = .ok d) : loneIssued v w = .lone w d.instr := by
  rw [loneIssued, h]

/-- A pair that passes the checks of R47. -/
theorem pairIssued_of_decode {v : EncVer} {c a : Word32} {dc da : DecodedWord} (hlone : isLone a = false) (hc : isAClass c = false)
    (ha : isAClass a = true) (hdc : decode v c = .ok dc) (hda : decode v a = .ok da) (hd : sameDest dc.instr da.instr = false) :
    pairIssued v c a = .pair c a dc.instr da.instr := by
  have hsame : samePairDest v c a = false := by rw [samePairDest, formOf_of_decode hdc, formOf_of_decode hda]; exact hd
  rw [pairIssued, hc, hlone, ha, hsame, hdc, hda]
  rfl

section
variable {s : State} {core : Nat} {n : Fin 4} {a : Nat} (hpc : (getStrand s core n).pc.toNat = a) (hb : (getStrand s core n).beyond = none)
  (hin : inBounds (getCore s core) a 4 = true)
include hpc hb hin

theorem fetchIssue_lone {d : DecodedWord} (hl : isLone (fetchWord s core n a).1 = true)
    (hd : decode (encverAt s core) (fetchWord s core n a).1 = .ok d) :
    fetchIssue s core n = (.lone (fetchWord s core n a).1 d.instr, (fetchWord s core n a).2) := by
  have ht : coreStrand (getCore s core) n = getStrand s core n := rfl
  rw [fetchIssue, ht, hpc, hb, hin]
  generalize fetchWord s core n a = f at hl hd ⊢
  obtain ⟨w, s1⟩ := f
  rw [← loneIssued_of_decode hd]
  exact if_pos hl

theorem fetchIssue_pair (hl : isLone (fetchWord s core n a).1 = false) (ha : a % 8 = 0) (hin2 : inBounds (getCore s core) (a + 4) 4 = true) :
    fetchIssue s core n =
      (pairIssued (encverAt s core) (fetchWord s core n a).1 (fetchWord (fetchWord s core n a).2 core n (a + 4)).1,
        (fetchWord (fetchWord s core n a).2 core n (a + 4)).2) := by
  have ht : coreStrand (getCore s core) n = getStrand s core n := rfl
  rw [fetchIssue, ht, hpc, hb, hin, hin2, ha]
  generalize fetchWord s core n a = f at hl ⊢
  obtain ⟨w, s1⟩ := f
  dsimp only at hl ⊢
  rw [hl]
  generalize fetchWord s1 core n (a + 4) = g
  obtain ⟨w2, s2⟩ := g
  rfl

end

section
variable {s : State}

theorem runFetched_lone {w : Word32} {i : Instr} {s1 : State} (h : fetchIssue s s.ctx.core s.ctx.strand = (.lone w i, s1)) :
    runFetched s = exec i (setCtx s1 .lone (me s).pc (me s).pc w none) := by
  rw [runFetched, h]

theorem runFetched_pair {c a : Word32} {ic ia : Instr} {s1 : State} (h : fetchIssue s s.ctx.core s.ctx.strand = (.pair c a ic ia, s1)) :
    runFetched s = runPair s1 (me s).pc c a ic ia := by
  rw [runFetched, h]

/-- Two words with nothing to drain, whose fields their forms accept, take effect as a pair. -/
theorem runPair_of_issuable {pc : TcmAddr} {c a : Word32} {ic ia : Instr} (hdc : drainPoint ic (setCtx s .cslot pc (pc + 4#18) c none) = .ok ())
    (hda : drainPoint ia (setCtx s .aslot pc (pc + 4#18) a none) = .ok ()) (hwc : wellFormed ic = true) (hwa : wellFormed ia = true) :
    runPair s pc c a ic ia = runPairWords s pc c a ic ia := by
  rw [runPair, hdc, hda, hwc, hwa]
  rfl

/-- A replay moves on where its word completed (R107). -/
def advanced (o : Out State) : Out State :=
  match o with
  | .next u => .next (if u.ctx.event = .done then modMe u repAdvance else u)
  | o => o

theorem runReplay_of_decode {d : DecodedWord} (h : decode (encverAt s s.ctx.core) (replayWord s) = .ok d) :
    runReplay s = advanced (exec d.instr (replayCtx s)) := by
  rw [runReplay, h]
  dsimp only
  cases exec d.instr (replayCtx s) <;> rfl

theorem fetchWaits_of_replaying (h : (me s).replaying = true) : fetchWaits s = false := by
  simp [fetchWaits, h]

end

/-! ### The two words of a pair (R44, R46) -/

/-- What a pair comes to where both words complete alone: the C-slot word's state `u` and, of the A-slot word run after it from `sA'`,
the state `r`; `sA` is the A-slot word's context from before the pair (R160, R222). -/
def pairResult (sA sA' u r : State) : Out State :=
  match r.ctx.event with
  | .done => .next r
  | .blocked => .next (block sA .stall)
  | .trapped => if ringFree (me u) then .next (dispatch sA' .vector .cancelled).2 else .next (block sA .stall)

section
variable {s : State} {pc : TcmAddr} {c a : Word32} {ic ia : Instr} {u : State}
  (hc : exec ic (setCtx s .cslot pc (pc + 4#18) c (some (me s).regs)) = .next u)
include hc

theorem runPairWords_c_stops {v : State} (hu : u.ctx.event ≠ .done)
    (ha : exec ia (setCtx s .aslot pc (pc + 4#18) a (some (me s).regs)) = .next v) : runPairWords s pc c a ic ia = .next u := by
  rw [runPairWords, hc, ha]
  exact if_pos hu

variable (hu : u.ctx.event = .done)
include hu

theorem runPairWords_a_stops {v : State} (ha : exec ia (setCtx s .aslot pc (pc + 4#18) a (some (me s).regs)) = .next v) (hv : v.ctx.event ≠ .done) :
    runPairWords s pc c a ic ia = .next v := by
  rw [runPairWords, hc, ha]
  exact (if_neg (not_not_intro hu)).trans (if_pos hv)

variable {v : State} (ha : exec ia (setCtx s .aslot pc (pc + 4#18) a (some (me s).regs)) = .next v) (hv : v.ctx.event = .done)
include ha hv

theorem runPairWords_c_ends (hl : (me u).live = false) : runPairWords s pc c a ic ia = .next u := by
  rw [runPairWords, hc, ha]
  dsimp only
  rw [if_neg (not_not_intro hu), if_neg (not_not_intro hv), hl]
  rfl

variable (hl : (me u).live = true) {r : State} (hr : exec ia (setCtx u .aslot pc (pc + 4#18) a (some (me s).regs)) = .next r)
include hl hr

theorem runPairWords_both :
    runPairWords s pc c a ic ia =
      pairResult (setCtx s .aslot pc (pc + 4#18) a (some (me s).regs)) (setCtx u .aslot pc (pc + 4#18) a (some (me s).regs)) u r := by
  rw [runPairWords, hc, ha]
  dsimp only
  rw [if_neg (not_not_intro hu), if_neg (not_not_intro hv), hl, hr, pairResult]
  dsimp only
  cases r.ctx.event with
  | done | blocked => rfl
  | trapped => cases ringFree (me u) <;> rfl

end

/-! ### Issue at the boundary -/

section
variable {s : State} {core : Nat} {n : Fin 4} (hr : pendingReport (regionOf s core) (getCore s core) n = false)
  (hb : budgetSpent (getStrand s core n) = false)
include hr hb

theorem issueAt_fetches (hw : fetchWaits (atBoundary s core n) = false) (hrep : (getStrand s core n).replaying = false) :
    issueAt s core n = issued n (getStrand s core n) (atBoundary s core n) (runFetched (atBoundary s core n)) := by
  rw [issueAt_runs hr hw hb, hrep]
  rfl

theorem issueAt_replays (hrep : (getStrand s core n).replaying = true) :
    issueAt s core n = issued n (getStrand s core n) (atBoundary s core n) (runReplay (atBoundary s core n)) := by
  rw [issueAt_runs hr (fetchWaits_of_replaying ((replaying_me_atBoundary s core n).trans hrep)) hb, hrep]
  rfl

end

/-- Settles O10: the step is the issue, and the issue is the word that the fetch or the replay gives. -/
theorem loneWordRuns : Obligations.LoneWordRuns := by
  refine ⟨fun s core n hissue => ?_, fun s i rest => step_of_scripted_event⟩
  intro s0 x t w s1 hreport
  rw [step_of_issuesNext hissue]
  have hpc : (me s0).pc = t.pc := pc_me_atBoundary (scriptPopped s) core n
  refine ⟨fun hw => ?_, fun d hw hb hrep hbey hin hl hd => ?_, fun d hb hrep hd => ?_⟩
  · exact congrArg (settled s) (issueAt_waits (s := scriptPopped s) hreport hw)
  · have hbey0 : (me s0).beyond = none := (beyond_me_atBoundary (scriptPopped s) core n).trans hbey
    have hfetch : fetchIssue s0 core n = (.lone w d.instr, s1) := fetchIssue_lone (congrArg BitVec.toNat hpc) hbey0 hin hl hd
    have hrun : issueAt (scriptPopped s) core n = issued n t s0 (runFetched s0) := issueAt_fetches hreport hb hw hrep
    rw [hrun, runFetched_lone hfetch, hpc]
    cases exec d.instr (setCtx s1 .lone t.pc t.pc w none) <;> rfl
  · have hrun : issueAt (scriptPopped s) core n = issued n t s0 (runReplay s0) := issueAt_replays hreport hb hrep
    rw [hrun, runReplay_of_decode hd]
    cases exec d.instr (replayCtx s0) <;> rfl

/-- Settles O12: the step is the pair's issue, and the pair comes to what its two words come to. -/
theorem pairRuns : Obligations.PairRuns := by
  intro s core n dc da hissue s0 x t a w s1 w2 s2 v last sC sA hreport hw hb hrep hbey hin hin2 ha8 hlc hla hcc haa hdc hda hdest
    hdrc hdra hwc hwa ends
  have hpc : (me s0).pc = t.pc := pc_me_atBoundary (scriptPopped s) core n
  have hbey0 : (me s0).beyond = none := (beyond_me_atBoundary (scriptPopped s) core n).trans hbey
  have hfetch : fetchIssue s0 core n = (.pair w w2 dc.instr da.instr, s2) :=
    (fetchIssue_pair (congrArg BitVec.toNat hpc) hbey0 hin hlc ha8 hin2).trans
      (congrArg (·, s2) (pairIssued_of_decode hla hcc haa hdc hda hdest))
  have hrun : issueAt (scriptPopped s) core n = issued n t s0 (runPairWords s2 t.pc w w2 dc.instr da.instr) := by
    rw [← runPair_of_issuable hdrc hdra hwc hwa, ← hpc, ← runFetched_pair hfetch]
    exact issueAt_fetches hreport hb hw hrep
  have hends : ∀ u, runPairWords s2 t.pc w w2 dc.instr da.instr = .next u → ends u := by
    intro u hu
    show Machine.step s = _
    rw [step_of_issuesNext hissue, hrun, hu]
    rfl
  refine ⟨fun u hc hu ⟨v', ha⟩ => hends u (runPairWords_c_stops hc hu ha), fun u v' hc hu ha hv => hends v' (runPairWords_a_stops hc hu ha hv),
    fun u v' hc hu ha hv => ⟨fun hl => hends u (runPairWords_c_ends hc hu ha hv hl), fun r hl hr => ?_⟩⟩
  have hboth := runPairWords_both hc hu ha hv hl hr
  refine ⟨fun he => hends _ ?_, fun he => hends _ ?_, fun he hf => hends _ ?_⟩
  · rw [hboth, pairResult, he]
  · rw [hboth, pairResult, he]
  · rw [hboth, pairResult, he, hf]
    rfl

end Sys2Proof.Machine
end

section
/-! PROOFS. Scalar words (R79 to R95): example words decoded, the register file, and integer words: the value each table of R90 to R95 gives on exact integers is the one the
model computes on words. -/

namespace Sys2Proof.Machine

open Sys2Proof.Safety

/-- Settles O1: the decoder evaluated at each word. -/
theorem decodesSpecExamples : Obligations.DecodesSpecExamples := ⟨rfl, rfl, rfl, rfl, rfl, rfl, rfl, rfl, rfl, rfl, rfl, rfl⟩

/-- Settles O9: `putS` writes one register, and none for `s0`; a read is of the pair's registers where there are any. -/
theorem scalarFile : Obligations.ScalarFile := by
  intro s r q x
  refine ⟨rfl, ?_, fun hr => ?_, fun hq => ?_, ?_, ?_, fun g hg hr => ?_, fun hg hr => ?_⟩
  · rw [me_writeS, putS_zero]
  · simp only [me_writeS]
    exact putS_s_same _ _ _ hr
  · simp only [me_writeS]
    exact putS_s_other _ _ _ _ q.isLt fun h => hq (BitVec.eq_of_toNat_eq h)
  · rw [me_writeS, putS_v]
  · rw [me_writeS, putS_k]
  · simp only [readS, srcRegs, if_neg hr, hg, Option.getD_some]
  · simp only [readS, srcRegs, if_neg hr, hg, Option.getD_none]

/-! ### Words as exact integers -/

theorem add_eq_ofNat (a b : Word) : a + b = BitVec.ofNat 64 (a.toNat + b.toNat) := by
  rw [BitVec.ofNat_add, BitVec.ofNat_toNat, BitVec.ofNat_toNat, BitVec.setWidth_eq, BitVec.setWidth_eq]

theorem sub_eq_ofInt (a b : Word) : a - b = BitVec.ofInt 64 (a.toNat - b.toNat) := by
  refine BitVec.eq_of_toInt_eq ?_
  rw [BitVec.toInt_sub, BitVec.toInt_ofInt]
  simp only [BitVec.toInt_eq_toNat_bmod, Int.bmod_sub_bmod, Int.sub_bmod_bmod]

theorem add_simm14_eq_ofInt (a : Word) (i : BitVec 14) : a + simm14 i = BitVec.ofInt 64 (a.toNat + i.toInt) := by
  refine BitVec.eq_of_toInt_eq ?_
  rw [simm14, BitVec.toInt_add, BitVec.toInt_ofInt, BitVec.toInt_signExtend_of_le (by decide), BitVec.toInt_eq_toNat_bmod a, Int.bmod_add_bmod]

theorem mul_eq_ofInt (a b : Word) : a * b = BitVec.ofInt 64 (a.toInt * b.toInt) := by
  rw [BitVec.ofInt_mul, BitVec.ofInt_toInt, BitVec.ofInt_toInt]

theorem extractLsb'_high_ofInt (z : Int) : (BitVec.ofInt 128 z).extractLsb' 64 64 = BitVec.ofInt 64 (z / 2 ^ 64) := by
  refine BitVec.eq_of_toNat_eq ?_
  rw [BitVec.extractLsb'_toNat, BitVec.toNat_ofInt, BitVec.toNat_ofInt, Nat.shiftRight_eq_div_pow]
  omega

theorem mulHighS_eq_ofInt (a b : Word) : mulHighS a b = BitVec.ofInt 64 (a.toInt * b.toInt / (2 : Int) ^ 64) := by
  rw [mulHighS, BitVec.signExtend, BitVec.signExtend, ← BitVec.ofInt_mul, extractLsb'_high_ofInt]

theorem mulHighU_eq_ofNat (a b : Word) : mulHighU a b = BitVec.ofNat 64 (a.toNat * b.toNat / 2 ^ 64) := by
  have hlt : a.toNat * b.toNat < 2 ^ 128 := lt_of_lt_of_le (Nat.mul_lt_mul'' a.isLt b.isLt) (by decide)
  rw [mulHighU, BitVec.extractLsb', BitVec.toNat_mul, BitVec.toNat_setWidth_of_le (by decide), BitVec.toNat_setWidth_of_le (by decide),
    Nat.mod_eq_of_lt hlt, Nat.shiftRight_eq_div_pow]

theorem shiftLeft_eq_shiftedLeft (a : Word) (n : Nat) : a <<< n = shiftedLeft a n := by
  refine BitVec.eq_of_toNat_eq ?_
  rw [shiftedLeft, BitVec.toNat_shiftLeft, Nat.shiftLeft_eq, BitVec.toNat_ofNat]

theorem ushiftRight_eq_shiftedRight (a : Word) (n : Nat) : a >>> n = shiftedRight a n := by
  rw [shiftedRight, ← Nat.shiftRight_eq_div_pow, ← BitVec.toNat_ushiftRight, BitVec.ofNat_toNat, BitVec.setWidth_eq]

theorem sshiftRight_eq_shiftedSigned (a : Word) (n : Nat) : a.sshiftRight n = shiftedSigned a n := by
  rw [shiftedSigned, ← BitVec.ofInt_toInt (x := a.sshiftRight n), BitVec.toInt_sshiftRight, Int.shiftRight_eq_div_pow]
  norm_cast

/-- The bits that leave at the bottom enter at the top. -/
theorem rotateRight_eq_rotated (a : Word) {n : Nat} (h : n < 64) : a.rotateRight n = rotated a n := by
  have hhigh : a.toNat * 2 ^ (64 - n) % 2 ^ 64 = a.toNat % 2 ^ n * 2 ^ (64 - n) := by
    rw [← Nat.mul_mod_mul_right, ← Nat.pow_add, Nat.add_sub_cancel' h.le]
  have hlow : a.toNat / 2 ^ n < 2 ^ (64 - n) := by
    rw [Nat.div_lt_iff_lt_mul (Nat.two_pow_pos n), ← Nat.pow_add, Nat.sub_add_cancel h.le]
    exact a.isLt
  have hvalue : (a.rotateRight n).toNat = a.toNat / 2 ^ n + a.toNat % 2 ^ n * 2 ^ (64 - n) := by
    rw [BitVec.toNat_rotateRight, Nat.mod_eq_of_lt h, Nat.shiftRight_eq_div_pow, Nat.shiftLeft_eq, hhigh, Nat.lor_comm,
      ← Nat.shiftLeft_eq, ← Nat.shiftLeft_add_eq_or_of_lt hlow, Nat.add_comm]
  rw [rotated, ← hvalue, BitVec.ofNat_toNat, BitVec.setWidth_eq]

theorem signExtend_shiftLeft_eq_ofInt (i : BitVec 19) : i.signExtend 64 <<< 14 = BitVec.ofInt 64 (i.toInt * 2 ^ 14) := by
  rw [BitVec.ofInt_mul, BitVec.shiftLeft_eq_mul_twoPow]
  rfl

theorem uimm14_eq_ofNat (i : BitVec 14) : uimm14 i = BitVec.ofNat 64 i.toNat := (BitVec.ofNat_toNat 64 i).symm

/-! ### Division (R91) -/

theorem eq_minInt64_iff (a : Word) : a = minInt64 ↔ a.toInt = -(2 : Int) ^ 63 := BitVec.toInt_inj.symm

theorem eq_allOnes_iff (a : Word) : a = BitVec.allOnes 64 ↔ a.toInt = -1 := BitVec.toInt_inj.symm

theorem toNat_eq_zero_iff (a : Word) : a.toNat = 0 ↔ a = 0#64 := BitVec.toNat_inj (y := 0#64)

theorem divS_eq_quotientS (a b : Word) : divS a b = quotientS a b := by
  simp only [divS, quotientS, Bool.and_eq_true, decide_eq_true_eq, eq_minInt64_iff, eq_allOnes_iff, toNat_eq_zero_iff]
  rfl

theorem divU_eq_quotientU (a b : Word) : divU a b = quotientU a b := by
  have hdiv : a / b = BitVec.ofNat 64 (a.toNat / b.toNat) := by
    rw [← BitVec.toNat_udiv, BitVec.ofNat_toNat, BitVec.setWidth_eq]
  simp only [divU, quotientU, toNat_eq_zero_iff, hdiv]
  rfl

theorem remS_eq_remainderS (a b : Word) : remS a b = remainderS a b := by
  simp only [remS, remainderS, Bool.and_eq_true, decide_eq_true_eq, eq_minInt64_iff, eq_allOnes_iff, toNat_eq_zero_iff]

theorem remU_eq_remainderU (a b : Word) : remU a b = remainderU a b := by
  have hmod : a % b = BitVec.ofNat 64 (a.toNat - b.toNat * (a.toNat / b.toNat)) := by
    rw [← Nat.mod_eq_sub_mul_div, ← BitVec.toNat_umod, BitVec.ofNat_toNat, BitVec.setWidth_eq]
  simp only [remU, remainderU, toNat_eq_zero_iff, hmod]

/-! ### Conditions (R55) -/

theorem boolWord_decide (p : Prop) [Decidable p] : boolWord (decide p) = oneIf p := by
  simp [boolWord, oneIf]

theorem toInt_simm14 (i : BitVec 14) : (simm14 i).toInt = i.toInt := BitVec.toInt_signExtend_of_le (by decide)

/-! ### The words -/

/-- An integer word of a live strand completes with its result (R89). -/
theorem integer_completes {i : Instr} {s : State} {d : BitVec 5} {f : State → Word} {v : Word} (hl : (me s).live = true)
    (hd : drainPoint i s = .ok ()) (hw : wellFormed i = true) (hv : f s = v) : integer i d f s = .next (retire (writeS s d v)) :=
  issueWord_ok i s _ _ ⟨hl, hd, hw⟩ (by rw [hv])

/-- The register forms, one by one. -/
theorem exec_of_registerResult {i : Instr} {s : State} {d : BitVec 5} {v : Word} (hl : (me s).live = true)
    (h : registerResult i (readS s) = some (d, v)) : exec i s = .next (retire (writeS s d v)) := by
  unfold exec
  cases i <;> cases h
  all_goals refine integer_completes hl rfl rfl ?_
  case add => exact (add_eq_ofNat _ _)
  case sub => exact (sub_eq_ofInt _ _)
  case sll => exact (shiftLeft_eq_shiftedLeft _ _)
  case srl => exact (ushiftRight_eq_shiftedRight _ _)
  case sra => exact (sshiftRight_eq_shiftedSigned _ _)
  case rotr => exact (rotateRight_eq_rotated _ (Nat.mod_lt _ (by decide)))
  case mul => exact (mul_eq_ofInt _ _)
  case mulh => exact (mulHighS_eq_ofInt _ _)
  case mulhn => exact (mulHighU_eq_ofNat _ _)
  case div => exact (divS_eq_quotientS _ _)
  case divn => exact (divU_eq_quotientU _ _)
  case rem => exact (remS_eq_remainderS _ _)
  case remn => exact (remU_eq_remainderU _ _)
  case slt => exact (boolWord_decide _)
  case sltn => exact (boolWord_decide _)
  case seq => exact (boolWord_decide _)
  case and | or | xor | andn | min | max | minn | maxn => rfl

/-- The immediate forms, one by one. -/
theorem exec_of_immediateResult {i : Instr} {s : State} {d : BitVec 5} {v : Word} (hl : (me s).live = true)
    (h : immediateResult i (readS s) = some (d, v)) : exec i s = .next (retire (writeS s d v)) := by
  unfold exec
  cases i <;> cases h
  all_goals refine integer_completes hl rfl rfl ?_
  case addi => exact (add_simm14_eq_ofInt _ _)
  case andi | ori | xori => rw [uimm14_eq_ofNat]
  case slti => exact (boolWord_decide _).trans (by rw [toInt_simm14])
  case sltin => exact (boolWord_decide _)
  case slli => exact (shiftLeft_eq_shiftedLeft _ _)
  case srli => exact (ushiftRight_eq_shiftedRight _ _)
  case srai => exact (sshiftRight_eq_shiftedSigned _ _)
  case rotri => exact (rotateRight_eq_rotated _ (BitVec.isLt _))
  case lui => exact (signExtend_shiftLeft_eq_ofInt _)

/-- Settles O13: the table's value is the model's, form by form. -/
theorem integerFormsCompute : Obligations.IntegerFormsCompute := by
  rintro i s d v hl (h | h)
  · exact exec_of_registerResult hl h
  · exact exec_of_immediateResult hl h

/-! ### Bit counts and permutations (R90, R95) -/

/-- The first index below `n` where `p` holds, or `n`. -/
theorem firstIndex_spec (p : Nat → Bool) (n : Nat) :
    ((List.range n).find? p).getD n ≤ n ∧ (∀ j, j < ((List.range n).find? p).getD n → p j = false) ∧
      (((List.range n).find? p).getD n < n → p (((List.range n).find? p).getD n) = true) := by
  cases h : (List.range n).find? p with
  | none =>
    rw [List.find?_range_eq_none] at h
    exact ⟨le_rfl, fun j hj => by simpa using h j hj, fun hlt => absurd hlt (lt_irrefl _)⟩
  | some i =>
    rw [List.find?_range_eq_some] at h
    obtain ⟨hi, hmem, hbelow⟩ := h
    exact ⟨(List.mem_range.1 hmem).le, fun j hj => by simpa using hbelow j hj, fun _ => hi⟩

theorem countP_eq_sum (p : Nat → Bool) (l : List Nat) : l.countP p = (l.map fun j => if p j then 1 else 0).sum := by
  induction l with
  | nil => rfl
  | cons j l ih => rw [List.countP_cons, List.map_cons, List.sum_cons, ih, Nat.add_comm]

theorem getLsbD_brev64 (a : Word) {j : Nat} (hj : j < 64) : (brev64 a).getLsbD j = a.getLsbD (63 - j) := by
  rw [brev64, BitVec.getLsbD_reverse, BitVec.getMsbD_eq_getLsbD, decide_eq_true hj, Bool.true_and]

/-- Byte `k` is the `k`-th of the words appended, from the last. -/
theorem getLsbD_bswap64 (a : Word) {k j : Nat} (hk : k < 8) (hj : j < 8) :
    (bswap64 a).getLsbD (8 * k + j) = a.getLsbD (8 * (7 - k) + j) := by
  unfold bswap64
  change BitVec.getLsbD (w := 8 + 8 + 8 + 8 + 8 + 8 + 8 + 8) _ _ = _
  simp only [BitVec.getLsbD_append, BitVec.getLsbD_extractLsb']
  interval_cases k <;> simp (disch := omega) [hj, if_neg, Nat.sub_sub]

/-- A halfword replaced (R95): its own bits inside, the old ones elsewhere. -/
theorem getLsbD_insertHalf (x : Word) (h : BitVec 2) (n : BitVec 16) {j : Nat} (hj : j < 64) :
    (insertHalf x h n).getLsbD j =
      if 16 * h.toNat ≤ j ∧ j < 16 * h.toNat + 16 then n.getLsbD (j - 16 * h.toNat) else x.getLsbD j := by
  have hmask : (0xFFFF#64) = (BitVec.allOnes 16).setWidth 64 := rfl
  have hlt : j - 16 * h.toNat < 64 := by omega
  simp only [insertHalf, hmask, BitVec.getLsbD_or, BitVec.getLsbD_and, BitVec.getLsbD_not, BitVec.getLsbD_shiftLeft, BitVec.getLsbD_setWidth,
    BitVec.getLsbD_allOnes, hj, hlt, decide_true, Bool.true_and]
  by_cases hlo : j < 16 * h.toNat
  · simp [hlo, Nat.not_le.2 hlo]
  · by_cases hhi : j < 16 * h.toNat + 16
    · have hin : j - 16 * h.toNat < 16 := by omega
      simp [hlo, hhi, hin, Nat.le_of_not_lt hlo]
    · have hin : 16 ≤ j - 16 * h.toNat := by omega
      simp [hlo, hhi, Nat.not_lt.2 hin, BitVec.getLsbD_of_ge _ _ hin]

/-- Settles O14: a count is the first index of a set bit (`firstIndex_spec`), and the other words are known bit by bit. -/
theorem countAndPermuteFormsCompute : Obligations.CountAndPermuteFormsCompute := by
  intro d a h n s hl
  unfold exec
  refine ⟨⟨_, integer_completes hl rfl rfl rfl, firstIndex_spec _ 64⟩, ⟨_, integer_completes hl rfl rfl rfl, firstIndex_spec _ 64⟩, ?_,
    ⟨_, integer_completes hl rfl rfl rfl, fun j hj => getLsbD_brev64 _ hj⟩,
    ⟨_, integer_completes hl rfl rfl rfl, fun k j hk hj => getLsbD_bswap64 _ hk hj⟩,
    ⟨_, integer_completes hl rfl rfl rfl, fun j hj => getLsbD_insertHalf _ h n hj⟩⟩
  refine integer_completes hl rfl rfl ?_
  exact congrArg (BitVec.ofNat 64) (countP_eq_sum _ _)

end Sys2Proof.Machine
end

section
/-! PROOFS. Branches, jumps and loops (R96 to R104): the end check, what a transfer leaves, and what a word that changes one register, the pc
and the loop levels leaves alone. -/

namespace Sys2Proof.Machine

open Sys2Proof.Safety

/-! ### Words that complete -/

/-- A late fault that a stop names is pending. -/
def Pending (s : State) (e : Stop) : Prop := ∀ only, e = .late only → (oldestLate (me s) only).isSome = true

/-- A word that stops does not complete. -/
theorem not_completed_stopWord {s : State} {e : Stop} (h : Pending s e) : ¬Completed (stopWord s e) := by
  cases e with
  | trap | page | hostPage | wait => exact Event.noConfusion
  | late only =>
    obtain ⟨f, hf⟩ := Option.isSome_iff_exists.1 (h only rfl)
    simp [Completed, stopWord, deliverLate, hf]

theorem pending_drain {s : State} {only : Option Engine} {e : Stop} (h : drain s only = .error e) : Pending s e := by
  rintro o rfl
  unfold drain at h
  simp only [Bool.not_eq_true'] at h
  split_ifs at h with _ _ hnone
  · cases h
  · cases h
  · obtain rfl : only = o := Stop.late.inj (Except.error.inj h)
    exact Option.isSome_iff_ne_none.2 fun hn => hnone (Option.isNone_iff_eq_none.2 hn)

theorem pending_drainPoint {i : Instr} {s : State} {e : Stop} (h : drainPoint i s = .error e) : Pending s e := by
  unfold drainPoint at h
  split at h
  case h_7 =>
    split at h
    · exact pending_drain h
    · cases h
  case h_9 => cases h
  all_goals exact pending_drain h

/-- A word that completes could issue, and went through. -/
theorem ok_of_completed {i : Instr} {s t : State} {f : State → Except Stop State} (hf : ∀ e, f s = .error e → Pending s e)
    (h : issueWord i s f = .next t) (hc : Completed t) : Issuable i s ∧ f s = .ok t := by
  obtain ⟨-, ⟨e, hd, rfl⟩ | ⟨-, -, rfl⟩ | hok | ⟨e, -, he, rfl⟩⟩ := issueWord_cases i s t f h
  · exact absurd hc (not_completed_stopWord (pending_drainPoint hd))
  · exact absurd hc (not_completed_stopWord fun _ h => Stop.noConfusion h)
  · exact hok
  · exact absurd hc (not_completed_stopWord (hf e he))

/-! ### The end check (R102) -/

/-- The level is active and ends at the address. -/
def EndsAt (l : LoopLevel) (e : TcmAddr) : Prop := l.count.getLsbD 63 = true ∧ l.stop.toNat / 4 % 2 ^ 16 = e.toNat / 4

/-- The level has passes left after this one. -/
def PassesLeft (l : LoopLevel) : Prop := 1 < l.count.toNat % 2 ^ 32

theorem loopStep_back {l : LoopLevel} {e : TcmAddr} (h : EndsAt l e) (hp : PassesLeft l) :
    loopStep l e = ({ l with count := l.count - 1#64 }, some ((l.start.setWidth 18) &&& ~~~3#18)) := by
  have hmore : ¬fieldOf l.count 31 0 ≤ 1 := by simpa [fieldOf, PassesLeft] using hp
  have hend : (l.count.getLsbD 63 && loopAddr l.stop = e.toNat / 4) = true := by
    rw [Bool.and_eq_true, decide_eq_true_eq]; exact h
  rw [loopStep, if_pos hend, if_neg hmore]

theorem loopStep_exit {l : LoopLevel} {e : TcmAddr} (h : EndsAt l e) (hp : ¬PassesLeft l) :
    loopStep l e = ({ l with count := 0#64 }, none) := by
  have hlast : fieldOf l.count 31 0 ≤ 1 := by simpa [fieldOf, PassesLeft] using hp
  have hend : (l.count.getLsbD 63 && loopAddr l.stop = e.toNat / 4) = true := by
    rw [Bool.and_eq_true, decide_eq_true_eq]; exact h
  rw [loopStep, if_pos hend, if_pos hlast]

theorem loopStep_elsewhere {l : LoopLevel} {e : TcmAddr} (h : ¬EndsAt l e) : loopStep l e = (l, none) := by
  have hend : ¬(l.count.getLsbD 63 && loopAddr l.stop = e.toNat / 4) = true := by
    rw [Bool.and_eq_true, decide_eq_true_eq]; exact h
  rw [loopStep, if_neg hend]

/-- A level that does not loop back: it exits, or does not end here. -/
def passedLevel (l : LoopLevel) (e : TcmAddr) : LoopLevel :=
  if l.count.getLsbD 63 = true ∧ l.stop.toNat / 4 % 2 ^ 16 = e.toNat / 4 then { l with count := 0#64 } else l

theorem loopStep_passed {l : LoopLevel} {e : TcmAddr} (h : ¬(EndsAt l e ∧ PassesLeft l)) : loopStep l e = (passedLevel l e, none) := by
  by_cases hend : EndsAt l e
  · rw [loopStep_exit hend fun hp => h ⟨hend, hp⟩, passedLevel]
    exact (if_pos hend).symm ▸ rfl
  · rw [loopStep_elsewhere hend, passedLevel]
    exact (if_neg hend).symm ▸ rfl

/-- Settles O15: the check of each level, level 1 first. -/
theorem endCheckCountsPasses : Obligations.EndCheckCountsPasses := by
  intro s
  constructor
  · rintro (h | h) <;> simp only [retire, h]
  · intro hslot
    have hme : me (retire s) = endCheckAt (me s) s.ctx.last := by rw [me_retire, if_pos hslot]
    dsimp only
    rw [hme]
    constructor
    · rintro ⟨hend, hmore⟩
      rw [endCheckAt, loopStep_back hend hmore]
    · intro h1
      refine ⟨passedLevel (me s).loop1 s.ctx.last, rfl, ?_, ?_, ?_⟩
      · rintro ⟨hend, hmore⟩
        rw [endCheckAt, loopStep_passed h1, loopStep_back hend hmore]
      · rintro ⟨hend, hlast⟩
        rw [endCheckAt, loopStep_passed h1, loopStep_exit hend hlast]
      · intro hend
        rw [endCheckAt, loopStep_passed h1, loopStep_elsewhere hend]

/-! ### Branches and jumps (R96 to R98, R103) -/

section
variable {i : Instr} {s : State} (hl : (me s).live = true) (hd : drainPoint i s = .ok ()) (hw : wellFormed i = true)
include hl hd hw

theorem branch_completes {c : Cond} {a b : BitVec 5} {o : BitVec 11} {taken : Bool} (hc : compare c (readS s a) (readS s b) = taken) :
    branch i c a b o s = .next (if taken then leaveTo s (relTarget s.ctx.pc o.toInt) else retire s) :=
  issueWord_ok i s _ _ ⟨hl, hd, hw⟩ (by rw [hc])

end

/-- The branches, one by one: each compares as the table says. -/
theorem exec_of_branchOf {i : Instr} {s : State} {taken : Bool} {o : BitVec 11} (hl : (me s).live = true)
    (h : Safety.branchOf i (readS s) = some (taken, o)) :
    exec i s = .next (if taken then leaveTo s (relTarget s.ctx.pc o.toInt) else retire s) := by
  unfold exec
  cases i <;> cases h
  all_goals exact branch_completes hl rfl rfl rfl

/-- Settles O16: a branch completes (`exec_of_branchOf`), and `goTo` is the transfer. -/
theorem branchesTransferOrFallThrough : Obligations.BranchesTransferOrFallThrough := by
  intro i s taken o hl h target
  refine ⟨exec_of_branchOf hl h, ?_, ?_, ?_⟩
  · rw [me_jumpTo, goTo_pc]
  · rw [me_jumpTo, goTo_regs]
  · rw [me_jumpTo, goTo]
    simp only [← Nat.not_lt, ite_not]

theorem me_leaveCheck (s : State) (target : Word) :
    me (leaveCheck s target) =
      { me s with loop0 := leaveLevel (me s).loop0 s.ctx.pc target, loop1 := leaveLevel (me s).loop1 s.ctx.pc target } := me_modMe _ _

/-- The body of a level holds an address. -/
def InBody (l : LoopLevel) (a : Word) : Prop := l.start.toNat / 4 % 2 ^ 16 ≤ a.toNat / 4 ∧ a.toNat / 4 ≤ l.stop.toNat / 4 % 2 ^ 16

/-- A transfer leaves an active level. -/
def LeavesLevel (l : LoopLevel) (p : TcmAddr) (target : Word) : Prop :=
  l.count.getLsbD 63 = true ∧ InBody l (p.setWidth 64) ∧ ¬InBody l target

theorem insideLoop_iff (l : LoopLevel) (a : Word) : insideLoop l a = true ↔ InBody l a := by
  rw [insideLoop, Bool.and_eq_true, decide_eq_true_eq, decide_eq_true_eq]
  rfl

theorem leaveLevel_kept {l : LoopLevel} {p : TcmAddr} {target : Word} (h : ¬LeavesLevel l p target) : leaveLevel l p target = l := by
  refine if_neg fun hc => h ?_
  simpa [LeavesLevel, ← insideLoop_iff, and_assoc] using hc

theorem leaveLevel_left {l : LoopLevel} {p : TcmAddr} {target : Word} (h : LeavesLevel l p target) :
    leaveLevel l p target = { l with count := l.count &&& 0x7FFFFFFFFFFFFFFF#64 } := by
  refine if_pos ?_
  simpa [Bool.and_eq_true, ← insideLoop_iff, and_assoc, LeavesLevel] using h

@[simp] theorem leaveLevel_start (l : LoopLevel) (p : TcmAddr) (target : Word) : (leaveLevel l p target).start = l.start := by
  unfold leaveLevel; split <;> rfl

@[simp] theorem leaveLevel_stop (l : LoopLevel) (p : TcmAddr) (target : Word) : (leaveLevel l p target).stop = l.stop := by
  unfold leaveLevel; split <;> rfl

/-- `ACT` is cleared, `REMAIN` kept. -/
theorem count_leaveLevel_left {l : LoopLevel} {p : TcmAddr} {target : Word} (h : LeavesLevel l p target) :
    (leaveLevel l p target).count.getLsbD 63 = false ∧ ∀ j, j < 63 → (leaveLevel l p target).count.getLsbD j = l.count.getLsbD j := by
  have hmask : ∀ j < 63, (0x7FFFFFFFFFFFFFFF#64).getLsbD j = true := by decide
  rw [leaveLevel_left h]
  refine ⟨?_, fun j hj => ?_⟩
  · rw [BitVec.getLsbD_and]
    exact Bool.and_false _
  · rw [BitVec.getLsbD_and, hmask j hj, Bool.and_true]

/-- A call leaves the levels alone. -/
theorem loops_jumpLink {s : State} {d : BitVec 5} {target : Word} (hd : d ≠ 0#5) :
    (me (jumpLink s d target)).loop0 = (me s).loop0 ∧ (me (jumpLink s d target)).loop1 = (me s).loop1 := by
  unfold jumpLink
  rw [if_neg hd, me_jumpTo, me_writeS]
  exact ⟨rfl, rfl⟩

/-- What a jump through a register does (R98). -/
def jalrEffect (d a : BitVec 5) (m : BitVec 14) (s : State) : Except Stop State :=
  if badTarget (readS s a + simm14 m) then .error (.trap cInstrAddr 0 (readS s a + simm14 m) 7) else .ok (jumpLink s d (readS s a + simm14 m))

theorem pending_jalrEffect {d a : BitVec 5} {m : BitVec 14} {s : State} {e : Stop} (h : jalrEffect d a m s = .error e) : Pending s e := by
  unfold jalrEffect at h
  split at h
  · cases h
    exact fun _ h => Stop.noConfusion h
  · cases h

theorem exec_jal (d : BitVec 5) (n : BitVec 19) (s : State) :
    exec (.jal d n) s = issueWord (.jal d n) s fun s => .ok (jumpLink s d (relTarget s.ctx.pc n.toInt)) := by rfl

theorem exec_jalr (d a : BitVec 5) (m : BitVec 14) (s : State) : exec (.jalr d a m) s = issueWord (.jalr d a m) s (jalrEffect d a m) := by rfl

/-- A jump that completes has jumped. -/
theorem jumped_of_completed {d a : BitVec 5} {n : BitVec 19} {m : BitVec 14} {i : Instr} {s t : State} (hi : i = .jal d n ∨ i = .jalr d a m)
    (h : exec i s = .next t) (hc : Completed t) : ∃ target, t = jumpLink s d target := by
  rcases hi with rfl | rfl
  · rw [exec_jal] at h
    obtain ⟨-, hok⟩ := ok_of_completed (fun _ he => by cases he) h hc
    exact ⟨_, (Except.ok.inj hok).symm⟩
  · rw [exec_jalr] at h
    obtain ⟨-, hok⟩ := ok_of_completed (fun _ => pending_jalrEffect) h hc
    unfold jalrEffect at hok
    split at hok
    · cases hok
    · exact ⟨_, (Except.ok.inj hok).symm⟩

/-- Settles O17: `LeaveCheck` level by level, and a call that completes has jumped with its levels as they were. -/
theorem loopsLeftByTransfers : Obligations.LoopsLeftByTransfers := by
  intro s target
  refine ⟨?_, fun d a n m i v hd hi h hc => ?_⟩
  · dsimp only
    rw [me_leaveCheck]
    exact ⟨count_leaveLevel_left, leaveLevel_kept, count_leaveLevel_left, leaveLevel_kept, leaveLevel_start _ _ _, leaveLevel_stop _ _ _,
      leaveLevel_start _ _ _, leaveLevel_stop _ _ _, rfl⟩
  · obtain ⟨w, rfl⟩ := jumped_of_completed hi h hc
    exact loops_jumpLink hd

theorem nextAddr_setWidth (s : State) : (nextAddr s).setWidth 64 = BitVec.ofNat 64 ((s.ctx.last.toNat + 4) % 2 ^ 18) := by
  refine BitVec.eq_of_toNat_eq ?_
  simp only [nextAddr, BitVec.toNat_setWidth, BitVec.toNat_add, BitVec.toNat_ofNat]

theorem badTarget_eq_false_iff (x : Word) : badTarget x = false ↔ x.toNat < 2 ^ 18 ∧ x.toNat % 4 = 0 := by
  have hx := x.isLt
  have hhigh : x.extractLsb' 18 46 = 0#46 ↔ x.toNat < 2 ^ 18 := by
    rw [← BitVec.toNat_inj, BitVec.extractLsb'_toNat, Nat.shiftRight_eq_div_pow, BitVec.toNat_ofNat]
    omega
  have hlow : x.extractLsb' 0 2 = 0#2 ↔ x.toNat % 4 = 0 := by
    rw [← BitVec.toNat_inj, BitVec.extractLsb'_toNat, Nat.shiftRight_zero, BitVec.toNat_ofNat]
  simp only [badTarget, Bool.or_eq_false_iff, decide_eq_false_iff_not, not_not, hhigh, hlow]

/-- Settles O18: both jumps link and transfer (`jumpLink`), and a bad register target is the trap. -/
theorem jumpsLinkAndTransfer : Obligations.JumpsLinkAndTransfer := by
  intro d a n m s hl link t1 t2
  have hlink : (nextAddr s).setWidth 64 = link := nextAddr_setWidth s
  have hjump : ∀ target, jumpLink s d target = jumpTo (writeS (if d = 0#5 then leaveCheck s target else s) d link) target := by
    intro target
    rw [← hlink]
    rfl
  refine ⟨?_, fun ht => ?_, fun ht => ?_⟩
  · rw [exec_jal, ← hjump]
    exact issueWord_ok _ _ _ _ ⟨hl, rfl, rfl⟩ rfl
  · rw [exec_jalr, ← hjump]
    exact issueWord_ok _ _ _ _ ⟨hl, rfl, rfl⟩ (if_neg (Bool.eq_false_iff.1 ((badTarget_eq_false_iff t2).2 ht)))
  · rw [exec_jalr]
    refine issueWord_error _ _ (.trap cInstrAddr 0 t2 7) _ ⟨hl, rfl, rfl⟩ (if_pos ?_)
    exact Bool.of_not_eq_false fun hb => ht ((badTarget_eq_false_iff t2).1 hb)

end Sys2Proof.Machine
end

section
/-! PROOFS. Reads of code (R78, R132), loops set up (R101), and what the words that change one scalar register, the pc and the loop levels leave
alone (R89, R96 to R98, R101, R133, R192 to R194, R269). -/

namespace Sys2Proof.Machine

open Sys2Proof.Safety

/-! ### What a read of code by the issuing strand leaves (R78) -/

theorem codeRead_trans {s t u : State} (h1 : CodeRead s t) (h2 : CodeRead t u) : CodeRead s u := by
  obtain ⟨m1, ⟨⟨p1, w1, d1⟩, c1, n1⟩, x1, k1, e1, r1⟩ := h1
  obtain ⟨m2, ⟨⟨p2, w2, d2⟩, c2, n2⟩, x2, k2, e2, r2⟩ := h2
  simp only [OtherCoresSame, OtherStrandsSame, CoreRegistersSame, k1] at *
  refine ⟨fun a => (m2 a).trans (m1 a), ⟨⟨p2.trans p1, w2.trans w1, d2.trans d1⟩, fun c h => (c2 c h).trans (c1 c h),
    fun n h => (n2 n h).trans (n1 n h)⟩, x2.trans x1, k2, ?_, r2.trans r1⟩
  generalize me s = x, me t = y, me u = z at e1 e2 ⊢
  rw [e2, e1]

/-- A change that leaves the cores, the memories and the regions' states alone. -/
theorem codeRead_of_cores_eq {s t : State} (hm : t.mem = s.mem) (hc : t.cores = s.cores) (hp : t.packages = s.packages) (hw : t.waits = s.waits)
    (hd : t.domLast = s.domLast) (hx : t.ctx = s.ctx)
    (hr : t.regions.map (fun r => { r with log := [], guards := [] }) = s.regions.map fun r => { r with log := [], guards := [] }) :
    CodeRead s t := by
  have hcore : ∀ c, getCore t c = getCore s c := by
    intro c
    rw [getCore, getCore, hc, hd]
  have hme : me t = me s := by rw [me, me, getStrand, getStrand, hcore, hx]
  refine ⟨fun a => by rw [hm], ⟨⟨hp, hw, hd⟩, fun c _ => hcore c, fun n _ => by rw [getStrand, getStrand, hcore]⟩, ?_, hx, ?_, hr⟩
  · rw [CoreRegistersSame, hcore]
  · rw [hme]

theorem codeRead_refl (s : State) : CodeRead s s := codeRead_of_cores_eq rfl rfl rfl rfl rfl rfl rfl

theorem codeRead_clock (s : State) (c : Clock) : CodeRead s (modMe s fun t => { t with clock := c }) := by
  obtain ⟨hm, -, hd, hc, hn, hx⟩ := modMe_onlyMyStrand s fun t => { t with clock := c }
  refine ⟨hm, ⟨hd, hc, hn⟩, hx, rfl, ?_, rfl⟩
  rw [me_modMe]

theorem codeRead_log (s : State) (core : Nat) (log : Region → List Access) (guards : Region → List (Nat × Nat × Nat × BitVec 3)) :
    CodeRead s (modRegionOf s core fun r => { r with log := log r, guards := guards r }) := by
  unfold modRegionOf
  split
  · refine codeRead_of_cores_eq rfl rfl rfl rfl rfl rfl ?_
    rw [modRegion, List.map_map]
    refine List.map_congr_left fun r _ => ?_
    simp only [Function.comp_apply]
    split <;> rfl
  · exact codeRead_refl s

theorem codeRead_freshBytes (s : State) (n : Nat) : CodeRead s (freshBytes s n).2 := codeRead_of_cores_eq rfl rfl rfl rfl rfl rfl rfl

/-- The issuing strand's note of a read. -/
theorem codeRead_noteAccess (s : State) (p : Place) (n : Nat) :
    CodeRead s (noteAccess s { core := s.ctx.core, strand := s.ctx.strand, cmd := none } p n false none false false).1 := by
  unfold noteAccess
  split
  · exact codeRead_refl s
  · exact codeRead_trans (codeRead_clock s _) (codeRead_log _ _ _ _)

/-- A load without a leaf to mark leaves its note, and has handed out free values where it conflicted (R142). -/
theorem loadAt_state {s : State} {w : Who} {p : Place} {n : Nat} (hp : p.leaf = none) :
    (loadAt s w p n).2 = (noteAccess s w p n false none false false).1 ∨
      (loadAt s w p n).2 = (freshBytes (noteAccess s w p n false none false false).1 n).2 := by
  have hmark : markLeaf s p false = s := by rw [markLeaf, hp]
  rw [loadAt, hmark]
  generalize noteAccess s w p n false none false false = q
  obtain ⟨s1, conflict⟩ := q
  cases conflict with
  | false => exact .inl rfl
  | true => exact .inr rfl

theorem codeRead_loadAt {s : State} {p : Place} (hp : p.leaf = none) (n : Nat) :
    CodeRead s (loadAt s { core := s.ctx.core, strand := s.ctx.strand, cmd := none } p n).2 := by
  have hnote := codeRead_noteAccess s p n
  rcases loadAt_state (s := s) (n := n) hp with h | h <;> rw [h]
  · exact hnote
  · exact codeRead_trans hnote (codeRead_freshBytes _ n)

theorem snd_of_eq {α β : Type} {x : α × β} {a : α} {b : β} (h : x = (a, b)) : x.2 = b := by
  rw [h]

theorem readCode_state (s : State) (core : Nat) (n : Fin 4) (a : TcmAddr) : (readCode s core n a).2 = (codeLoad s core n a.toNat).2 :=
   snd_of_eq (readCode_eq s core n a)

theorem codeRead_readCode (s : State) (a : TcmAddr) : CodeRead s (readCode s s.ctx.core s.ctx.strand a).2 := by
  rw [readCode_state]
  exact codeRead_loadAt rfl 4

/-! ### Loops (R101) -/

section
variable {lv : BitVec 1} {a : BitVec 5} {c : BitVec 9} {n : BitVec 12} {s : State}

theorem exec_loop : exec (.loop lv a n) s = issueWord (.loop lv a n) s fun s => loopSetup lv n ((readS s a).toNat % 2 ^ 32) s := by rfl

theorem exec_loopi : exec (.loopi lv c n) s = issueWord (.loopi lv c n) s (loopSetup lv n c.toNat) := by rfl

end

/-- The address of a loop body's last word (R101). -/
def bodyLast (n : BitVec 12) (s : State) : TcmAddr := nextAddr s + BitVec.ofNat 18 (4 * (n.toNat - 1))

/-- A level set to a body of `n` words after the loop instruction. -/
def bodyLevel (n : BitVec 12) (s : State) (count : Word) : LoopLevel :=
  { start := (nextAddr s).setWidth 64, stop := (bodyLast n s).setWidth 64, count := count }

/-- What a loop instruction comes to, with the body's last word and the state that has read it: the trap where that word is a pair's first
(R48), else the level set and the end check. -/
def loopOutcome (lv : BitVec 1) (n : BitVec 12) (cnt : Nat) (s : State) (r : Word32 × State) : State :=
  if r.1.getLsbD 31 = false ∧ (bodyLast n s).toNat % 8 = 0 then raise r.2 cBundleClass 0 (s.ctx.word.setWidth 64) 7
  else if cnt = 0 then modMe r.2 fun t => endCheckAt (setLoop t lv (bodyLevel n s 0#64)) (bodyLast n s)
  else modMe r.2 fun t => endCheckAt (setLoop t lv (bodyLevel n s (BitVec.ofNat 64 (2 ^ 63 + cnt)))) s.ctx.last

section
variable {lv : BitVec 1} {n : BitVec 12} {cnt : Nat} {s : State}

theorem loopSetup_waits (h : vqStores s = true) : loopSetup lv n cnt s = .error (.wait .stall) := by
  rw [loopSetup, if_pos h]

theorem loopSetup_eq (h : vqStores s = false) :
    loopSetup lv n cnt s = .ok (loopOutcome lv n cnt s (readCode s s.ctx.core s.ctx.strand (bodyLast n s))) := by
  rw [loopSetup, if_neg (Bool.eq_false_iff.1 h)]
  extract_lets -underBinder next last
  have hlast : last = bodyLast n s := rfl
  clear_value last
  subst hlast
  generalize readCode s s.ctx.core s.ctx.strand (bodyLast n s) = r
  obtain ⟨w, s1⟩ := r
  simp only [loopOutcome, Bool.and_eq_true, decide_eq_true_eq]
  split_ifs <;> rfl

end

/-- A word that sets up a loop with a non-zero length, and the count it takes. -/
def LoopWord (i : Instr) (lv : BitVec 1) (n : BitVec 12) (cnt : Nat) (s : State) : Prop :=
  (∃ a, i = .loop lv a n ∧ cnt = (readS s a).toNat % 2 ^ 32) ∨ ∃ c, i = .loopi lv c n ∧ cnt = c.toNat

/-- Both forms set their level up alike. -/
theorem exec_loopWord {i : Instr} {lv : BitVec 1} {n : BitVec 12} {cnt : Nat} {s : State} (hi : LoopWord i lv n cnt s) :
    ∃ f, exec i s = issueWord i s f ∧ f s = loopSetup lv n cnt s ∧ drainPoint i s = .ok () ∧ (n ≠ 0#12 → wellFormed i = true) := by
  rcases hi with ⟨a, rfl, rfl⟩ | ⟨c, rfl, rfl⟩
  · exact ⟨_, exec_loop, rfl, rfl, decide_eq_true⟩
  · exact ⟨_, exec_loopi, rfl, rfl, decide_eq_true⟩

/-- Settles O19: a stall, or what the set-up comes to (`loopOutcome`). -/
theorem loopsAreSetUp : Obligations.LoopsAreSetUp := by
  intro lv a c n s i cnt hl hn hi next last level put w s1 badEnd
  have hword : LoopWord i lv n cnt s := hi.imp (fun h => ⟨a, h⟩) fun h => ⟨c, h⟩
  obtain ⟨f, hexec, hf, hd, hw⟩ := exec_loopWord hword
  have hissue : Issuable i s := ⟨hl, hd, hw hn⟩
  refine ⟨codeRead_readCode s _, fun hv => ?_, fun hv => ?_⟩
  · rw [hexec]
    exact issueWord_error _ _ _ _ hissue (hf.trans (loopSetup_waits hv))
  · have hout : exec i s = .next (loopOutcome lv n cnt s (readCode s s.ctx.core s.ctx.strand (bodyLast n s))) :=
      hexec.trans (issueWord_ok _ _ _ _ hissue (hf.trans (loopSetup_eq hv)))
    refine ⟨fun hbad => ?_, fun hbad hcnt => ?_, fun hbad hcnt => ?_⟩
    · rw [hout, loopOutcome]
      exact congrArg _ (if_pos hbad)
    · rw [hout, loopOutcome]
      exact congrArg _ ((if_neg hbad).trans (if_pos hcnt))
    · rw [hout, loopOutcome]
      exact congrArg _ ((if_neg hbad).trans (if_neg hcnt))

end Sys2Proof.Machine
end

section
/-! PROOFS. What the words that change one scalar register, the pc and the loop levels leave alone (R89, R96 to R98, R101, R133, R192 to R194,
R269). -/

namespace Sys2Proof.Machine

open Sys2Proof.Safety

/-! ### Plain changes of a strand -/

/-- The strand differs in one scalar register, the pc and the loop levels at most. -/
structure PlainStrand (d : BitVec 5) (t u : Strand) : Prop where
  scalars : ∀ r : Fin 32, r.val ≠ d.toNat → u.regs.s[r] = t.regs.s[r]
  vectors : u.regs.v = t.regs.v
  masks : u.regs.k = t.regs.k
  rest : strandRest u = strandRest t

/-- The states differ in the issuing strand, and there plainly, at most. -/
structure Plain (d : BitVec 5) (s t : State) : Prop where
  ctx : t.ctx = s.ctx
  only : OnlyMyStrand s t
  mine : PlainStrand d (me s) (me t)

section
variable {d : BitVec 5}

theorem plainStrand_trans {t u v : Strand} (h1 : PlainStrand d t u) (h2 : PlainStrand d u v) : PlainStrand d t v :=
  ⟨fun r hr => (h2.scalars r hr).trans (h1.scalars r hr), h2.vectors.trans h1.vectors, h2.masks.trans h1.masks, h2.rest.trans h1.rest⟩

/-- A change of the pc and the loop levels alone. -/
theorem plainStrand_of_regs_eq {t u : Strand} (hr : u.regs = t.regs) (h : strandRest u = strandRest t) : PlainStrand d t u :=
  ⟨fun _ _ => by rw [hr], by rw [hr], by rw [hr], h⟩

theorem plain_refl (s : State) : Plain d s s := ⟨rfl, onlyMyStrand_refl s, plainStrand_of_regs_eq rfl rfl⟩

theorem plain_trans {s t u : State} (h1 : Plain d s t) (h2 : Plain d t u) : Plain d s u :=
  ⟨h2.ctx.trans h1.ctx, onlyMyStrand_trans h1.ctx h1.only h2.only, plainStrand_trans h1.mine h2.mine⟩

theorem plain_modMe {s : State} {f : Strand → Strand} (h : PlainStrand d (me s) (f (me s))) : Plain d s (modMe s f) :=
  ⟨rfl, modMe_onlyMyStrand s f, by rwa [me_modMe]⟩

theorem plain_writeS (s : State) (x : Word) : Plain d s (writeS s d x) := by
  refine plain_modMe ⟨fun r hr => ?_, putS_v _ _ _, putS_k _ _ _, rfl⟩
  exact putS_s_other _ _ _ _ r.isLt hr

theorem strandRest_endCheckAt (t : Strand) (e : TcmAddr) : strandRest (endCheckAt t e) = strandRest t := by
  conv_rhs => rw [← endCheckAt_rest t e]
  rfl

theorem plainStrand_endCheckAt (t : Strand) (e : TcmAddr) : PlainStrand d t (endCheckAt t e) :=
  plainStrand_of_regs_eq (endCheckAt_regs t e) (strandRest_endCheckAt t e)

theorem plain_retire (s : State) : Plain d s (retire s) := by
  unfold retire
  split
  case h_1 | h_2 => exact plain_modMe (plainStrand_endCheckAt _ _)
  case h_3 | h_4 => exact plain_refl s

theorem plain_jumpTo (s : State) (target : Word) : Plain d s (jumpTo s target) := plain_modMe (plainStrand_of_regs_eq rfl rfl)

theorem plain_leaveCheck (s : State) (target : Word) : Plain d s (leaveCheck s target) := plain_modMe (plainStrand_of_regs_eq rfl rfl)

theorem plain_leaveTo (s : State) (target : Word) : Plain d s (leaveTo s target) :=
  plain_trans (plain_leaveCheck s target) (plain_jumpTo _ target)

theorem plain_retire_writeS (s : State) (x : Word) : Plain d s (retire (writeS s d x)) := plain_trans (plain_writeS s x) (plain_retire _)

theorem plain_jumpLink (s : State) (target : Word) : Plain d s (jumpLink s d target) := by
  have hleave : Plain d s (if d = 0#5 then leaveCheck s target else s) := by
    split
    · exact plain_leaveCheck s target
    · exact plain_refl s
  exact plain_trans (plain_trans hleave (plain_writeS _ _)) (plain_jumpTo _ _)

/-! ### The words -/

/-- A word whose meaning stops or changes the state plainly. -/
def MeansPlain (d : BitVec 5) (s : State) (f : State → Except Stop State) : Prop :=
  (∀ e, f s = .error e → Pending s e) ∧ ∀ u, f s = .ok u → Plain d s u

theorem plain_of_meansPlain {i : Instr} {s t : State} {f : State → Except Stop State} (hf : MeansPlain d s f) (h : issueWord i s f = .next t)
    (hc : Completed t) : Plain d s t :=
  hf.2 t (ok_of_completed hf.1 h hc).2

theorem meansPlain_of_ok {s u : State} {f : State → Except Stop State} (hf : f s = .ok u) (h : Plain d s u) : MeansPlain d s f := by
  refine ⟨fun e he => ?_, fun v hv => ?_⟩
  · cases hf.symm.trans he
  · exact Except.ok.inj (hf.symm.trans hv) ▸ h

theorem meansPlain_of_wait {s : State} {w : Wait} {f : State → Except Stop State} (hf : f s = .error (.wait w)) : MeansPlain d s f := by
  refine ⟨fun e he => ?_, fun v hv => ?_⟩
  · rw [← Except.error.inj (hf.symm.trans he)]
    exact fun _ h => Stop.noConfusion h
  · cases hf.symm.trans hv

/-- The words that write one register. -/
theorem meansPlain_result (g : State → Word) (s : State) : MeansPlain d s fun s => .ok (retire (writeS s d (g s))) :=
  meansPlain_of_ok rfl (plain_retire_writeS s _)

theorem meansPlain_jalr (a : BitVec 5) (m : BitVec 14) (s : State) : MeansPlain d s (jalrEffect d a m) := by
  refine ⟨fun _ => pending_jalrEffect, fun u hu => ?_⟩
  unfold jalrEffect at hu
  split at hu
  · cases hu
  · exact Except.ok.inj hu ▸ plain_jumpLink s _

/-- `FENCE` waits, or ends (R133). -/
def fenceEffect (c : BitVec 3) (p : BitVec 4) (s : State) : Except Stop State := do
  vectorsDone s
  if p.getLsbD 0 && !ringSettled (me s) then .error (.wait .stall)
  else if p.getLsbD 1 && atomsPending s then .error (.wait .stall)
  else if c = 6#3 && p.getLsbD 2 && (myCore s).unacked ≠ 0 then .error (.wait .stall)
  else pure (retire s)

theorem exec_fence (c : BitVec 3) (p q : BitVec 4) (s : State) : exec (.fence c p q) s = issueWord (.fence c p q) s (fenceEffect c p) := rfl

theorem fenceEffect_cases (c : BitVec 3) (p : BitVec 4) (s : State) :
    fenceEffect c p s = .error (.wait .stall) ∨ fenceEffect c p s = .ok (retire s) := by
  unfold fenceEffect vectorsDone
  cases vqBusy s with
  | true => exact .inl rfl
  | false =>
    change (if _ then _ else _) = _ ∨ (if _ then _ else _) = _
    split_ifs
    · exact .inl rfl
    · exact .inl rfl
    · exact .inl rfl
    · exact .inr rfl

theorem meansPlain_fence (c : BitVec 3) (p : BitVec 4) (s : State) : MeansPlain d s (fenceEffect c p) := by
  rcases fenceEffect_cases c p s with h | h
  · exact meansPlain_of_wait h
  · exact meansPlain_of_ok h (plain_retire s)

theorem meansPlain_branch (c : Cond) (a b : BitVec 5) (o : BitVec 11) (s : State) :
    MeansPlain d s fun s => .ok (if compare c (readS s a) (readS s b) then leaveTo s (relTarget s.ctx.pc o.toInt) else retire s) := by
  refine meansPlain_of_ok rfl ?_
  split
  · exact plain_leaveTo s _
  · exact plain_retire s

theorem integer_meansPlain (i : Instr) (g : State → Word) (s : State) : ∃ f, integer i d g s = issueWord i s f ∧ MeansPlain d s f :=
  ⟨_, rfl, meansPlain_result g s⟩

/-- A plain word that is no loop, one by one. -/
theorem exec_meansPlain {i : Instr} {s : State} (hi : plainDest i = some d) (hloop : ¬IsLoop i) :
    ∃ f, exec i s = issueWord i s f ∧ MeansPlain d s f := by
  unfold exec
  cases i <;> cases hi
  case beq | bne | blt | bge | bltn | bgen => exact ⟨_, rfl, meansPlain_branch _ _ _ _ s⟩
  case jal => exact ⟨_, rfl, meansPlain_of_ok rfl (plain_jumpLink s _)⟩
  case jalr a m => exact ⟨_, rfl, meansPlain_jalr a m s⟩
  case loop => exact absurd (.inl ⟨_, _, _, rfl⟩) hloop
  case loopi => exact absurd (.inr ⟨_, _, _, rfl⟩) hloop
  case fence c p q => exact ⟨_, rfl, meansPlain_fence c p s⟩
  case sassert | sgrow => exact ⟨_, rfl, meansPlain_of_ok rfl (plain_retire s)⟩
  case mskget | sbmap => exact ⟨_, rfl, meansPlain_result _ s⟩
  all_goals exact integer_meansPlain _ _ _

end

/-! ### Loops -/

/-- A read of code, then a plain change of the strand with no register changed. -/
def ReadsThenPlain (s t : State) : Prop :=
  SameMemory s t ∧ OutsideSame s t ∧ CoreRegistersSame s t ∧ RegsSame s t ∧
    ∃ c, strandRest { me t with clock := c } = strandRest { me s with clock := c }

/-- A read of code, then a change of the strand. -/
theorem codeRead_modMe {s s1 : State} (h : CodeRead s s1) (f : Strand → Strand) :
    SameMemory s (modMe s1 f) ∧ OutsideSame s (modMe s1 f) ∧ CoreRegistersSame s (modMe s1 f) := by
  obtain ⟨hmem, ⟨hdom, hcores, hstrands⟩, hcore, hctx, -, -⟩ := h
  obtain ⟨hmem', -, hdom', hcores', hstrands', hcore'⟩ := modMe_onlyMyStrand s1 f
  obtain ⟨hp, hw, hd⟩ := hdom
  obtain ⟨hp', hw', hd'⟩ := hdom'
  simp only [OtherCoresSame, OtherStrandsSame, CoreRegistersSame, hctx] at hcores' hstrands' hcore'
  exact ⟨fun a => (hmem' a).trans (hmem a), ⟨⟨hp'.trans hp, hw'.trans hw, hd'.trans hd⟩, fun c hc => (hcores' c hc).trans (hcores c hc),
    fun n hn => (hstrands' n hn).trans (hstrands n hn)⟩, hcore'.trans hcore⟩

theorem readsThenPlain_of_codeRead {s s1 : State} {f : Strand → Strand} (h : CodeRead s s1) (hregs : ∀ x, (f x).regs = x.regs)
    (hrest : ∀ x, strandRest (f x) = strandRest x) : ReadsThenPlain s (modMe s1 f) := by
  obtain ⟨hmem, hout, hcore⟩ := codeRead_modMe h f
  obtain ⟨-, -, -, -, hme, -⟩ := h
  refine ⟨hmem, hout, hcore, ?_, (me s1).clock, ?_⟩
  · have hsame : (me (modMe s1 f)).regs = (me s).regs := by rw [me_modMe, hregs, hme]
    exact ⟨congrArg Regs.s hsame, congrArg Regs.v hsame, congrArg Regs.k hsame⟩
  · have hfrest : strandRest { f (me s1) with clock := (me s1).clock } = { strandRest (f (me s1)) with clock := (me s1).clock } := rfl
    rw [me_modMe, hfrest, hrest]
    generalize me s1 = y at hme ⊢
    rw [hme]
    rfl

theorem regs_setLoop (t : Strand) (lv : BitVec 1) (l : LoopLevel) : (setLoop t lv l).regs = t.regs := by
  unfold setLoop; split <;> rfl

theorem strandRest_setLoop (t : Strand) (lv : BitVec 1) (l : LoopLevel) : strandRest (setLoop t lv l) = strandRest t := by
  unfold setLoop; split <;> rfl

theorem readsThenPlain_endCheck_setLoop {s s1 : State} (h : CodeRead s s1) (lv : BitVec 1) (l : LoopLevel) (e : TcmAddr) :
    ReadsThenPlain s (modMe s1 fun t => endCheckAt (setLoop t lv l) e) :=
  readsThenPlain_of_codeRead h (fun _ => (endCheckAt_regs _ _).trans (regs_setLoop _ _ _))
    fun _ => (strandRest_endCheckAt _ _).trans (strandRest_setLoop _ _ _)

theorem not_completed_raise (s : State) (code sub : Nat) (faddr : Word) (acc : Nat) : ¬Completed (raise s code sub faddr acc) := nofun

theorem readsThenPlain_loopOutcome {s : State} {lv : BitVec 1} {n : BitVec 12} {cnt : Nat} {r : Word32 × State} (hread : CodeRead s r.2)
    (hc : Completed (loopOutcome lv n cnt s r)) : ReadsThenPlain s (loopOutcome lv n cnt s r) := by
  unfold loopOutcome at hc ⊢
  split at hc
  · exact absurd hc (not_completed_raise _ _ _ _ _)
  next hgood =>
    rw [if_neg hgood]
    split
    · exact readsThenPlain_endCheck_setLoop hread _ _ _
    · exact readsThenPlain_endCheck_setLoop hread _ _ _

theorem pending_loopSetup {lv : BitVec 1} {n : BitVec 12} {cnt : Nat} {s : State} {e : Stop} (h : loopSetup lv n cnt s = .error e) :
    Pending s e := by
  cases hv : vqStores s with
  | true =>
    rw [← Except.error.inj ((loopSetup_waits hv).symm.trans h)]
    exact fun _ h => Stop.noConfusion h
  | false => cases (loopSetup_eq hv).symm.trans h

theorem readsThenPlain_loopSetup {lv : BitVec 1} {n : BitVec 12} {cnt : Nat} {s t : State} (h : loopSetup lv n cnt s = .ok t)
    (hc : Completed t) : ReadsThenPlain s t := by
  cases hv : vqStores s with
  | true => cases (loopSetup_waits hv).symm.trans h
  | false =>
    obtain rfl := Except.ok.inj ((loopSetup_eq hv).symm.trans h)
    exact readsThenPlain_loopOutcome (codeRead_readCode s _) hc

theorem exec_loop_readsThenPlain {i : Instr} {s t : State} (hi : IsLoop i) (h : exec i s = .next t) (hc : Completed t) :
    ReadsThenPlain s t := by
  have hword : ∃ lv n cnt, LoopWord i lv n cnt s := by
    rcases hi with ⟨lv, a, n, rfl⟩ | ⟨lv, c, n, rfl⟩
    · exact ⟨lv, n, _, .inl ⟨a, rfl, rfl⟩⟩
    · exact ⟨lv, n, _, .inr ⟨c, rfl, rfl⟩⟩
  obtain ⟨lv, n, cnt, hlw⟩ := hword
  obtain ⟨f, hexec, hf, -, -⟩ := exec_loopWord hlw
  obtain ⟨-, hok⟩ := ok_of_completed (fun _ he => pending_loopSetup (hf.symm.trans he)) (hexec.symm.trans h) hc
  exact readsThenPlain_loopSetup (hf.symm.trans hok) hc

/-- Settles O21: a plain word (`exec_meansPlain`), or a loop, which reads a word of code first. -/
theorem plainWordsTouchOnlyTheirResult : Obligations.PlainWordsTouchOnlyTheirResult := by
  intro i d s t hi h hc
  refine ⟨fun hloop => ?_, fun hloop => exec_loop_readsThenPlain hloop h hc⟩
  obtain ⟨f, hexec, hf⟩ := exec_meansPlain hi hloop
  obtain ⟨-, honly, hs, hv, hk, hrest⟩ := plain_of_meansPlain hf (hexec.symm.trans h) hc
  exact ⟨honly, hs, hv, hk, hrest⟩

end Sys2Proof.Machine
end

section
/-! PROOFS. The bodies of replays (R106): the words REP reads as code. -/

namespace Sys2Proof.Machine

open Sys2Proof.Safety

/-! ### The phase log after reads of code -/

/-- A region changed otherwise than in its control block: it has the change, or the core has no listed region. -/
theorem regionOf_modRegionOf (s : State) (c : Nat) {f : Region → Region} (hf : ∀ r, (f r).rcb = r.rcb) :
    regionOf (modRegionOf s c f) c = f (regionOf s c) ∨ regionOf (modRegionOf s c f) c = regionOf s c := by
  unfold modRegionOf
  cases h : (getCore s c).region with
  | none => exact .inr rfl
  | some id =>
    have h' : (getCore (modRegion s id f) c).region = some id := h
    simp only [regionOf, h, h', getRegion, getRegion?_modRegion s id hf]
    cases getRegion? s id with
    | none => exact .inr rfl
    | some r => exact .inl rfl

theorem modRegionOf_ctx (s : State) (c : Nat) (f : Region → Region) : (modRegionOf s c f).ctx = s.ctx := by
  unfold modRegionOf; split <;> rfl

theorem modRegionOf_doubts (s : State) (c : Nat) (f : Region → Region) : (modRegionOf s c f).doubts = s.doubts := by
  unfold modRegionOf; split <;> rfl

/-- An access of the strand conflicts with none of its own. -/
theorem not_conflicting_of_agent_eq {a b : Access} (h : a.agent = b.agent) (ha : a.handoff = false) : conflicting a b = false := by
  rw [conflicting, ha, Bool.false_and, Bool.false_and, if_neg Bool.false_ne_true, decide_eq_true h, Bool.true_or, if_pos rfl]

theorem regionOf_modMe (s : State) (f : Strand → Strand) : regionOf (modMe s f) s.ctx.core = regionOf s s.ctx.core := by
  simp [regionOf, modMe, modStrand, setStrandOf, getRegion, getRegion?]

/-- What the issuing strand's own read adds to the phase log. -/
structure OwnNote (s : State) (r : State × Bool) : Prop where
  state : ∃ kept guarded c, (∀ a ∈ kept, Access.agent a = .strand s.ctx.core s.ctx.strand) ∧
    r.1 = modRegionOf (modMe s fun t => { t with clock := c }) s.ctx.core fun q => { q with log := kept ++ q.log, guards := guarded ++ q.guards }
  conflict : Safety.Quiet s → r.2 = false

/-- A read is noted, or not watched. -/
theorem noteAccess_own (s : State) (p : Place) (n : Nat) :
    noteAccess s (whoMe s) p n false none false false = (s, false) ∨ OwnNote s (noteAccess s (whoMe s) p n false none false false) := by
  unfold noteAccess
  split
  · exact .inl rfl
  · refine .inr ⟨⟨_, _, _, ?_, rfl⟩, fun ⟨hlog, hdoubts⟩ => ?_⟩
    · simp only [List.mem_map]
      rintro a ⟨q, -, rfl⟩
      rfl
    · simp only [List.any_map, List.any_eq_false, Function.comp_apply, hdoubts, List.contains_nil, Bool.false_or, Bool.not_eq_true]
      intro q _ e he
      exact not_conflicting_of_agent_eq (hlog e he).symm rfl

/-- A read of a strand in a quiet log conflicts with nothing, and leaves the log quiet and the classes as they were. -/
theorem noteAccess_of_quiet {s : State} (hq : Safety.Quiet s) (p : Place) (n : Nat) :
    (noteAccess s (whoMe s) p n false none false false).2 = false ∧ Safety.Quiet (noteAccess s (whoMe s) p n false none false false).1 ∧
      (myRegion (noteAccess s (whoMe s) p n false none false false).1).classes = (myRegion s).classes := by
  rcases noteAccess_own s p n with h | ⟨⟨kept, guarded, c, hkept, hstate⟩, hquiet⟩
  · rw [h]
    exact ⟨rfl, hq, rfl⟩
  · refine ⟨hquiet hq, ?_⟩
    rw [hstate]
    obtain ⟨hlog, hdoubts⟩ := hq
    have hregion := regionOf_modRegionOf (modMe s fun t => { t with clock := c }) s.ctx.core
      (f := fun q => { q with log := kept ++ q.log, guards := guarded ++ q.guards }) fun _ => rfl
    rw [regionOf_modMe] at hregion
    generalize hu : modRegionOf (modMe s fun t => { t with clock := c }) s.ctx.core _ = u at hregion ⊢
    have hctx : u.ctx = s.ctx := hu ▸ modRegionOf_ctx _ _ _
    have hd : u.doubts = s.doubts := hu ▸ modRegionOf_doubts _ _ _
    rw [Safety.Quiet, LogQuiet, myRegion, myRegion, hctx, hd]
    rcases hregion with h | h <;> rw [h]
    · refine ⟨⟨fun e he => ?_, hdoubts⟩, rfl⟩
      rcases List.mem_append.1 he with he | he
      · exact hkept e he
      · exact hlog e he
    · exact ⟨⟨hlog, hdoubts⟩, rfl⟩

/-- So does a read of code. -/
theorem codeReadable_of_quiet {s : State} (hq : Safety.Quiet s) {a : Nat} (hopen : Unguarded s (tcmKey s.ctx.core a) 4) :
    CodeReadable s s.ctx.core s.ctx.strand a := ⟨(noteAccess_of_quiet hq _ 4).1, hopen⟩

/-- Reads that follow one another in a quiet log: it stays quiet, and the classes stay. -/
def StaysQuiet (s t : State) : Prop := t.ctx = s.ctx ∧ Safety.Quiet t ∧ (myRegion t).classes = (myRegion s).classes

theorem staysQuiet_loadAt {s : State} (hq : Safety.Quiet s) {p : Place} (hp : p.leaf = none) (n : Nat) :
    StaysQuiet s (loadAt s (whoMe s) p n).2 := by
  have hctx : (loadAt s (whoMe s) p n).2.ctx = s.ctx := (codeRead_loadAt hp n).2.2.2.1
  obtain ⟨-, hquiet, hclasses⟩ := noteAccess_of_quiet hq p n
  rcases loadAt_state (s := s) (w := whoMe s) (n := n) hp with h | h
  · exact ⟨hctx, by rw [h]; exact ⟨hquiet, hclasses⟩⟩
  · exact ⟨hctx, by rw [h]; exact ⟨hquiet, hclasses⟩⟩

theorem staysQuiet_readCode {s : State} (hq : Safety.Quiet s) (a : TcmAddr) :
    StaysQuiet s (readCode s s.ctx.core s.ctx.strand a).2 := by
  rw [readCode_state]
  exact staysQuiet_loadAt hq rfl 4

/-- The word of a quiet read is memory's. -/
theorem readCode_of_quiet {s : State} (hq : Safety.Quiet s) {a : TcmAddr} (hopen : Unguarded s (tcmKey s.ctx.core a.toNat) 4) :
    (readCode s s.ctx.core s.ctx.strand a).1 = BitVec.ofNat 32 (memNat s.mem (tcmKey s.ctx.core a.toNat) 4) := by
  rw [readCode_eq, codeLoad_of_readable (codeReadable_of_quiet hq hopen)]
  rfl

/-! ### The words of a body (R106) -/

section
variable {core : Nat} {n : Fin 4}

theorem readCodes_succ (k : Nat) (s : State) (a : TcmAddr) :
    readCodes core n (k + 1) s a =
      ((readCode s core n a).1 :: (readCodes core n k (readCode s core n a).2 (a + 4#18)).1,
        (readCodes core n k (readCode s core n a).2 (a + 4#18)).2) := by
  rw [readCodes]

theorem length_readCodes (k : Nat) (s : State) (a : TcmAddr) : (readCodes core n k s a).1.length = k := by
  induction k generalizing s a with
  | zero => rfl
  | succ k ih => rw [readCodes_succ, List.length_cons, ih]

end

theorem codeRead_readCodes (k : Nat) (s : State) (a : TcmAddr) : CodeRead s (readCodes s.ctx.core s.ctx.strand k s a).2 := by
  induction k generalizing s a with
  | zero => exact codeRead_refl s
  | succ k ih =>
    rw [readCodes_succ]
    have hread := codeRead_readCode s a
    have hrest := ih (readCode s s.ctx.core s.ctx.strand a).2 (a + 4#18)
    obtain ⟨-, -, -, hctx, -⟩ := hread
    rw [hctx] at hrest
    exact codeRead_trans (codeRead_readCode s a) hrest

theorem bodyWord_succ (a : TcmAddr) (j : Nat) : a + 4#18 + BitVec.ofNat 18 (4 * j) = a + BitVec.ofNat 18 (4 * (j + 1)) := by
  rw [BitVec.add_assoc, ← BitVec.ofNat_add, Nat.mul_add, Nat.mul_one, Nat.add_comm 4]

theorem memNat_of_sameMemory {s t : State} (h : SameMemory s t) (k n : Nat) : memNat t.mem k n = memNat s.mem k n := by
  rw [memNat, memNat, readBytes, readBytes]
  exact congrArg leNat (List.map_congr_left fun i _ => h (k + i))

theorem unguarded_of_classes_eq {s t : State} (h : (myRegion t).classes = (myRegion s).classes) {key n : Nat} (ho : Unguarded s key n) :
    Unguarded t key n := by
  intro j hj
  rw [classAt, h]
  exact ho j hj

/-- The words of a body read in a quiet log are memory's. -/
theorem readCodes_of_quiet (k : Nat) (s : State) (a : TcmAddr) (hq : Safety.Quiet s)
    (hopen : ∀ j, j < k → Unguarded s (tcmKey s.ctx.core (a + BitVec.ofNat 18 (4 * j)).toNat) 4) :
    ∀ j, j < k → (readCodes s.ctx.core s.ctx.strand k s a).1.getD j 0#32 =
      BitVec.ofNat 32 (memNat s.mem (tcmKey s.ctx.core (a + BitVec.ofNat 18 (4 * j)).toNat) 4) := by
  induction k generalizing s a with
  | zero => exact fun j hj => absurd hj (Nat.not_lt_zero j)
  | succ k ih =>
    intro j hj
    rw [readCodes_succ]
    cases j with
    | zero =>
      have h0 := hopen 0 hj
      rw [Nat.mul_zero, BitVec.add_zero] at h0 ⊢
      exact readCode_of_quiet hq h0
    | succ j =>
      obtain ⟨hctx, hq1, hclasses⟩ := staysQuiet_readCode hq a
      have hmem := (codeRead_readCode s a).1
      have hrest := ih (readCode s s.ctx.core s.ctx.strand a).2 (a + 4#18) hq1 fun i hi => ?_
      · have hword := hrest j (Nat.lt_of_succ_lt_succ hj)
        rwa [hctx, bodyWord_succ, memNat_of_sameMemory hmem] at hword
      · rw [bodyWord_succ, hctx]
        exact unguarded_of_classes_eq hclasses (hopen (i + 1) (Nat.succ_lt_succ hi))

end Sys2Proof.Machine
end

section
/-! PROOFS. Replays (R106 to R110): REP, its advance, and the staggered words. -/

namespace Sys2Proof.Machine

open Sys2Proof.Safety

/-! ### Fields of registers (R58) -/

theorem fieldOf_eq_extractLsb' (x : Word) (hi lo : Nat) : fieldOf x hi lo = (x.extractLsb' lo (hi + 1 - lo)).toNat := by
  rw [BitVec.extractLsb'_toNat, Nat.shiftRight_eq_div_pow, fieldOf]

theorem extractLsb'_crMerge (o n m : Word) (lo len : Nat) :
    (crMerge o n m).extractLsb' lo len =
      (o.extractLsb' lo len &&& (~~~m).extractLsb' lo len) ||| (n.extractLsb' lo len &&& m.extractLsb' lo len) := by
  rw [crMerge, BitVec.extractLsb'_or, BitVec.extractLsb'_and, BitVec.extractLsb'_and]

section
variable {m : Word} {lo len : Nat}

/-- A field that the mask covers is written. -/
theorem extractLsb'_crMerge_of_covered (o n : Word) (h : (~~~m).extractLsb' lo len = 0#len) (h' : m.extractLsb' lo len = BitVec.allOnes len) :
    (crMerge o n m).extractLsb' lo len = n.extractLsb' lo len := by
  rw [extractLsb'_crMerge, h, h', BitVec.and_zero, BitVec.zero_or, BitVec.and_allOnes]

/-- A field that it leaves out is kept. -/
theorem extractLsb'_crMerge_of_uncovered (o n : Word) (h : (~~~m).extractLsb' lo len = BitVec.allOnes len) (h' : m.extractLsb' lo len = 0#len) :
    (crMerge o n m).extractLsb' lo len = o.extractLsb' lo len := by
  rw [extractLsb'_crMerge, h, h', BitVec.and_zero, BitVec.or_zero, BitVec.and_allOnes]

end

/-! ### `REP_STATE` (R108) -/

theorem toNat_repStateOf (b p pass word g k : Nat) (body : TcmAddr) :
    (repStateOf 1 b p pass word g k body).toNat =
      2 ^ 63 + b % 16 * 2 ^ 50 + p % 256 * 2 ^ 42 + pass % 256 * 2 ^ 34 + word % 16 * 2 ^ 30 + g % 8 * 2 ^ 27 + k % 8 * 2 ^ 24 + body.toNat := by
  have := body.isLt
  rw [repStateOf, BitVec.toNat_ofNat]
  omega

/-- The fields of a `REP_STATE` of a replay at its start. -/
theorem repStateOf_start (b : BitVec 4) (p : BitVec 8) (g k : BitVec 3) (body : TcmAddr) :
    let r := repStateOf 1 b.toNat p.toNat 0 0 g.toNat k.toNat body
    r.getLsbD 63 = true ∧ repBlen r = b.toNat ∧ repPasses r = p.toNat ∧ repPass r = 0 ∧ repWord r = 0 ∧ repBody r = body &&& ~~~3#18 ∧
      fieldOf r 29 27 = g.toNat ∧ fieldOf r 26 24 = k.toNat := by
  intro r
  have hr := toNat_repStateOf b.toNat p.toNat 0 0 g.toNat k.toNat body
  have hb := b.isLt
  have hp := p.isLt
  have hg := g.isLt
  have hk := k.isLt
  have hbody := body.isLt
  change r.toNat = _ at hr
  clear_value r
  have hlow : r.setWidth 18 = body := by
    refine BitVec.eq_of_toNat_eq ?_
    rw [BitVec.toNat_setWidth]
    omega
  refine ⟨?_, ?_, ?_, ?_, ?_, ?_, ?_, ?_⟩
  · rw [BitVec.getLsbD, Nat.testBit_eq_decide_div_mod_eq, decide_eq_true_eq]
    omega
  · rw [repBlen, fieldOf]; omega
  · rw [repPasses, fieldOf]; omega
  · rw [repPass, fieldOf]; omega
  · rw [repWord, fieldOf]; omega
  · rw [repBody, hlow]
  · rw [fieldOf]; omega
  · rw [fieldOf]; omega

theorem repAt_fields (r : Word) (pass word : Nat) :
    repPass (repAt r pass word) = pass % 256 ∧ repWord (repAt r pass word) = word % 16 ∧ repBlen (repAt r pass word) = repBlen r ∧
      repPasses (repAt r pass word) = repPasses r ∧ repBody (repAt r pass word) = repBody r := by
  have hnew : (BitVec.ofNat 64 (pass % 256 * 2 ^ 34 + word % 16 * 2 ^ 30)).toNat = pass % 256 * 2 ^ 34 + word % 16 * 2 ^ 30 := by
    rw [BitVec.toNat_ofNat]; omega
  simp only [repPass, repWord, repBlen, repPasses, repBody, fieldOf_eq_extractLsb']
  refine ⟨?_, ?_, ?_, ?_, ?_⟩
  · rw [repAt, extractLsb'_crMerge_of_covered _ _ (by decide) (by decide), ← fieldOf_eq_extractLsb', fieldOf, hnew]; omega
  · rw [repAt, extractLsb'_crMerge_of_covered _ _ (by decide) (by decide), ← fieldOf_eq_extractLsb', fieldOf, hnew]; omega
  · rw [repAt, extractLsb'_crMerge_of_uncovered _ _ (by decide) (by decide)]
  · rw [repAt, extractLsb'_crMerge_of_uncovered _ _ (by decide) (by decide)]
  · rw [repAt, BitVec.setWidth_eq_extractLsb' (by decide : 18 ≤ 64), extractLsb'_crMerge_of_uncovered _ _ (by decide) (by decide),
      BitVec.setWidth_eq_extractLsb' (by decide : 18 ≤ 64)]

theorem getLsbD_repInactive (r : Word) : (repInactive r).getLsbD 63 = false := by
  rw [repInactive, BitVec.getLsbD_and]
  exact Bool.and_false _

/-! ### The advance of a replay (R106, R110) -/

/-- The end check goes by the loop levels alone. -/
theorem endCheckAt_of_loops_eq {t u : Strand} (h0 : t.loop0 = u.loop0) (h1 : t.loop1 = u.loop1) (e : TcmAddr) :
    (endCheckAt t e).pc = (endCheckAt u e).pc ∧ (endCheckAt t e).loop0 = (endCheckAt u e).loop0 ∧
      (endCheckAt t e).loop1 = (endCheckAt u e).loop1 := by
  unfold endCheckAt
  rw [h0, h1]
  split
  · exact ⟨rfl, rfl, rfl⟩
  · split
    · exact ⟨rfl, rfl, rfl⟩
    · exact ⟨rfl, rfl, rfl⟩

theorem isLoopEnd_eq_false_iff (t : Strand) (a : TcmAddr) : isLoopEnd t a = false ↔ ¬EndsAt t.loop0 a ∧ ¬EndsAt t.loop1 a := by
  rw [isLoopEnd, Bool.or_eq_false_iff, Bool.eq_false_iff, Bool.eq_false_iff]
  simp only [ne_eq, Bool.and_eq_true, decide_eq_true_eq]
  rfl

/-- Where no active level ends, the next word follows. -/
theorem pc_endCheckAt_of_not_loopEnd {t : Strand} {e : TcmAddr} (h : isLoopEnd t e = false) : (endCheckAt t e).pc = e + 4#18 := by
  obtain ⟨h0, h1⟩ := (isLoopEnd_eq_false_iff t e).1 h
  rw [endCheckAt, loopStep_elsewhere h1, loopStep_elsewhere h0]

/-- A strand whose replay is over, with the end check made at `last` (R106). -/
def ReplayOver (last : TcmAddr) (t u : Strand) : Prop :=
  u.replaying = false ∧ u.repState.getLsbD 63 = false ∧ u.pc = (endCheckAt t last).pc ∧ u.loop0 = (endCheckAt t last).loop0 ∧
    u.loop1 = (endCheckAt t last).loop1 ∧ (isLoopEnd t last = false → u.pc = last + 4#18)

/-- The end check leaves the replay's state. -/
theorem endCheckAt_replay (t : Strand) (e : TcmAddr) :
    (endCheckAt t e).replaying = t.replaying ∧ (endCheckAt t e).repState = t.repState ∧ (endCheckAt t e).trap = t.trap := by
  have h := endCheckAt_rest t e
  generalize endCheckAt t e = u at h ⊢
  rw [← h]
  exact ⟨rfl, rfl, rfl⟩

/-- What ends a replay; `t` has the loop levels it starts from. -/
theorem repDone_over {t u : Strand} (h0 : u.loop0 = t.loop0) (h1 : u.loop1 = t.loop1) :
    ReplayOver (repBody u.repState + BitVec.ofNat 18 (4 * repBlen u.repState)) t (repDone u) ∧ (repDone u).regs = u.regs ∧
      (repDone u).trap = u.trap := by
  unfold repDone
  extract_lets v
  generalize repBody u.repState + BitVec.ofNat 18 (4 * repBlen u.repState) = e
  obtain ⟨hpc, hl0, hl1⟩ := endCheckAt_of_loops_eq (t := v) (u := t) h0 h1 e
  obtain ⟨hrep, hstate, htrap⟩ := endCheckAt_replay v e
  refine ⟨⟨hrep, ?_, hpc, hl0, hl1, fun hend => hpc.trans (pc_endCheckAt_of_not_loopEnd hend)⟩, endCheckAt_regs v e, htrap⟩
  rw [hstate]
  exact getLsbD_repInactive _

/-- A strand whose replay goes on at a pass and word. -/
def ReplayAt (pass word : Nat) (t u : Strand) : Prop :=
  u.replaying = t.replaying ∧ repPass u.repState = pass % 256 ∧ repWord u.repState = word % 16 ∧
    u.pc = repBody t.repState + BitVec.ofNat 18 (4 * word) ∧ repBlen u.repState = repBlen t.repState ∧
    repPasses u.repState = repPasses t.repState ∧ repBody u.repState = repBody t.repState

/-- The pass and word after the present ones. -/
def replayNext (r : Word) : Nat × Nat := if repWord r < repBlen r then (repPass r, repWord r + 1) else (repPass r + 1, 0)

theorem repAdvance_eq (t : Strand) :
    repAdvance t =
      if (replayNext t.repState).1 < repPasses t.repState then
        { t with
          repState := repAt t.repState (replayNext t.repState).1 (replayNext t.repState).2
          pc := repBody t.repState + BitVec.ofNat 18 (4 * (replayNext t.repState).2) }
      else repDone t := by
  rw [repAdvance, replayNext]

theorem repAdvance_goes_on {t : Strand} {pass word : Nat} (hn : replayNext t.repState = (pass, word)) (h : pass < repPasses t.repState) :
    ReplayAt pass word t (repAdvance t) := by
  obtain ⟨hpass, hword, hblen, hpasses, hbody⟩ := repAt_fields t.repState pass word
  rw [repAdvance_eq, hn, if_pos h]
  exact ⟨rfl, hpass, hword, rfl, hblen, hpasses, hbody⟩

theorem repAdvance_over {t : Strand} (h : ¬(replayNext t.repState).1 < repPasses t.repState) : repAdvance t = repDone t := by
  rw [repAdvance_eq, if_neg h]

theorem repAdvance_kept (t : Strand) : (repAdvance t).regs = t.regs ∧ (repAdvance t).trap = t.trap := by
  by_cases h : (replayNext t.repState).1 < repPasses t.repState
  · rw [repAdvance_eq, if_pos h]
    exact ⟨rfl, rfl⟩
  · rw [repAdvance_over h]
    exact (repDone_over rfl rfl).2

/-- A replay from word to word and pass to pass. -/
theorem repAdvance_runs (t : Strand) :
    (repWord t.repState < repBlen t.repState → repPass t.repState < repPasses t.repState →
      ReplayAt (repPass t.repState) (repWord t.repState + 1) t (repAdvance t)) ∧
    (repBlen t.repState ≤ repWord t.repState → repPass t.repState + 1 < repPasses t.repState →
      ReplayAt (repPass t.repState + 1) 0 t (repAdvance t)) ∧
    (repBlen t.repState ≤ repWord t.repState → repPasses t.repState ≤ repPass t.repState + 1 →
      ReplayOver (repBody t.repState + BitVec.ofNat 18 (4 * repBlen t.repState)) t (repAdvance t)) := by
  refine ⟨fun hw hp => repAdvance_goes_on (if_pos hw) hp, fun hw hp => repAdvance_goes_on (if_neg (Nat.not_lt.2 hw)) hp, fun hw hp => ?_⟩
  have hn : replayNext t.repState = (repPass t.repState + 1, 0) := if_neg (Nat.not_lt.2 hw)
  rw [repAdvance_over (by rw [hn]; exact Nat.not_lt.2 hp)]
  exact (repDone_over rfl rfl).1

/-! ### `REP` (R106, R110) -/

/-- The repetition buffer with words put at its start. -/
def bufferWith (ws : List Word32) (old : Vector Word32 16) : Vector Word32 16 := Vector.ofFn fun i => ws.getD i old[i]

theorem getElem_bufferWith (ws : List Word32) (old : Vector Word32 16) (j : Fin 16) (h : j.val < ws.length) :
    (bufferWith ws old)[j] = ws.getD j.val 0#32 := by
  rw [bufferWith, Fin.getElem_fin, Vector.getElem_ofFn, List.getD_eq_getElem _ _ h, List.getD_eq_getElem _ _ h]

theorem take_bufferWith (ws : List Word32) (old : Vector Word32 16) (h : ws.length ≤ 16) :
    (bufferWith ws old).toList.take ws.length = ws := by
  refine List.ext_getElem ?_ fun j h1 h2 => ?_
  · rw [List.length_take, Vector.length_toList, Nat.min_eq_left h]
  · rw [List.getElem_take, Vector.getElem_toList]
    exact (getElem_bufferWith ws old ⟨j, lt_of_lt_of_le h2 h⟩ h2).trans (List.getD_eq_getElem _ _ h2)

/-- The replay that REP starts: its strand, with the body's words, before the first. -/
def replayStart (b : BitVec 4) (p : BitVec 8) (g k : BitVec 3) (body : TcmAddr) (words : Vector Word32 16) (t : Strand) : Strand :=
  { t with repState := repStateOf 1 b.toNat p.toNat 0 0 g.toNat k.toNat body, repBuf := words, replaying := true, pc := body }

/-- The body can be replayed: every word is a lone A-class word, and no active level ends at `REP` or in the body (R48, R110). -/
def BodyOk (b : BitVec 4) (s : State) (ws : List Word32) : Prop :=
  (∀ j, j ≤ b.toNat → (ws.getD j 0#32).getLsbD 31 = true ∧ (ws.getD j 0#32).getLsbD 29 = true) ∧
    isLoopEnd (me s) s.ctx.pc = false ∧ ∀ j, j < b.toNat → isLoopEnd (me s) (nextAddr s + BitVec.ofNat 18 (4 * j)) = false

theorem all_bodyWordOk_iff {ws : List Word32} {b : Nat} (h : ws.length = b + 1) :
    ws.all bodyWordOk = true ↔ ∀ j, j ≤ b → (ws.getD j 0#32).getLsbD 31 = true ∧ (ws.getD j 0#32).getLsbD 29 = true := by
  simp only [List.all_eq_true, List.forall_mem_iff_getElem, bodyWordOk, Bool.and_eq_true]
  refine forall_congr' fun j => ⟨fun hall hj => ?_, fun hall hj => ?_⟩
  · have hlt : j < ws.length := by omega
    rw [List.getD_eq_getElem _ _ hlt]
    exact hall hlt
  · have hle : j ≤ b := by omega
    have hword := hall hle
    rwa [List.getD_eq_getElem _ _ hj] at hword

theorem loopEndsOk_iff (s : State) (body : TcmAddr) (b : Nat) :
    loopEndsOk s body b = true ↔
      isLoopEnd (me s) s.ctx.pc = false ∧ ∀ j, j < b → isLoopEnd (me s) (body + BitVec.ofNat 18 (4 * j)) = false := by
  simp only [loopEndsOk, Bool.and_eq_true, Bool.not_eq_true', List.all_eq_true, List.mem_range]

/-- What `REP` comes to with the buffer filled. -/
def repOutcome (b : BitVec 4) (p : BitVec 8) (g k : BitVec 3) (s : State) (r : Vector Word32 16 × State) : Except Stop State :=
  if (r.1.toList.take (b.toNat + 1)).all bodyWordOk && loopEndsOk s (nextAddr s) b.toNat then
    .ok (modMe r.2 fun u =>
      if p = 0#8 then repDone (replayStart b p g k (nextAddr s) r.1 u) else replayStart b p g k (nextAddr s) r.1 u)
  else .ok (stopWord r.2 (illegal s))

/-- What `REP` does: it waits for the vector stores, or reads the body. -/
def repEffect (b : BitVec 4) (p : BitVec 8) (g k : BitVec 3) (s : State) : Except Stop State :=
  if vqStores s then .error (.wait .stall) else repOutcome b p g k s (bodyWords s s.ctx.core s.ctx.strand (nextAddr s) b.toNat)

section
variable {b : BitVec 4} {p : BitVec 8} {g k : BitVec 3} {s : State}

/-- The read of the body stays a name here: the kernel would else compute it. -/
theorem exec_rep : exec (.rep b p g k) s = issueWord (.rep b p g k) s (repEffect b p g k) := by
  change execRep b p g k s = _
  unfold execRep
  refine congrArg (issueWord _ s) (funext fun s => ?_)
  unfold repEffect repOutcome
  generalize bodyWords = read
  refine if_congr Iff.rfl rfl ?_
  extract_lets -underBinder body
  have hbody : body = nextAddr s := rfl
  clear_value body
  subst hbody
  generalize read s s.ctx.core s.ctx.strand (nextAddr s) b.toNat = r
  obtain ⟨words, s1⟩ := r
  refine if_congr Iff.rfl ?_ rfl
  rfl

theorem repEffect_waits (h : vqStores s = true) : repEffect b p g k s = .error (.wait .stall) := by
  rw [repEffect, if_pos h]

section
variable {r : List Word32 × State} (hr : readCodes s.ctx.core s.ctx.strand (b.toNat + 1) s (nextAddr s) = r)
include hr

theorem bodyWords_eq : bodyWords s s.ctx.core s.ctx.strand (nextAddr s) b.toNat = (bufferWith r.1 (me s).repBuf, r.2) := by
  rw [bodyWords, hr]
  rfl

theorem bodyCheck_iff :
    (((bufferWith r.1 (me s).repBuf).toList.take (b.toNat + 1)).all bodyWordOk && loopEndsOk s (nextAddr s) b.toNat) = true ↔
      BodyOk b s r.1 := by
  have hlen : r.1.length = b.toNat + 1 := hr ▸ length_readCodes _ _ _
  have hb := b.isLt
  rw [← hlen, take_bufferWith _ _ (by omega), Bool.and_eq_true, all_bodyWordOk_iff hlen, loopEndsOk_iff]
  rfl

theorem repEffect_of_ok (hv : vqStores s = false) (h : BodyOk b s r.1) :
    repEffect b p g k s = .ok (modMe r.2 fun u =>
      if p = 0#8 then repDone (replayStart b p g k (nextAddr s) (bufferWith r.1 (me s).repBuf) u)
      else replayStart b p g k (nextAddr s) (bufferWith r.1 (me s).repBuf) u) := by
  rw [repEffect, if_neg (Bool.eq_false_iff.1 hv), bodyWords_eq hr]
  exact if_pos ((bodyCheck_iff hr).2 h)

theorem repEffect_of_not_ok (hv : vqStores s = false) (h : ¬BodyOk b s r.1) : repEffect b p g k s = .ok (raise r.2 0x01 0 (s.ctx.word.setWidth 64) 7) := by
  rw [repEffect, if_neg (Bool.eq_false_iff.1 hv), bodyWords_eq hr]
  exact if_neg fun hc => h ((bodyCheck_iff hr).1 hc)

end
end

/-! ### Staggering (R107) -/

/-- A number with its low bits advanced. -/
def bumped (len x k : Nat) : Nat := (x % 2 ^ len + k) % 2 ^ len + x / 2 ^ len * 2 ^ len

/-- An A-class word by its fields: the code above, `d`, `a`, `b`, and the bits below. -/
structure WordParts (w : Word32) (h d a b l : Nat) : Prop where
  value : w.toNat = h * 2 ^ 24 + d * 2 ^ 19 + a * 2 ^ 14 + b * 2 ^ 9 + l
  d_lt : d < 32
  a_lt : a < 32
  b_lt : b < 32
  l_lt : l < 512

theorem wordParts (w : Word32) :
    WordParts w (w.toNat / 2 ^ 24) (w.toNat / 2 ^ 19 % 2 ^ 5) (w.toNat / 2 ^ 14 % 2 ^ 5) (w.toNat / 2 ^ 9 % 2 ^ 5) (w.toNat % 2 ^ 9) := by
  constructor <;> omega

section
variable {w : Word32} {h d a b l : Nat} (hw : WordParts w h d a b l)
include hw

theorem parts_of_wordParts :
    w.toNat / 2 ^ 24 = h ∧ w.toNat / 2 ^ 19 % 2 ^ 5 = d ∧ w.toNat / 2 ^ 14 % 2 ^ 5 = a ∧ w.toNat / 2 ^ 9 % 2 ^ 5 = b ∧ w.toNat % 2 ^ 9 = l := by
  obtain ⟨hv, hd, ha, hb, hl⟩ := hw
  omega

end

theorem bumped_lt {len x : Nat} (hlen : len = 3 ∨ len = 5) (hx : x < 32) (k : Nat) : bumped len x k < 32 := by
  rw [bumped]
  rcases hlen with rfl | rfl <;> omega

/-- A field of five bits at one of the three places, with its low bits advanced. -/
theorem toNat_bumpField {w : Word32} {lo hi len high x low : Nat}
    (hlo : (lo = 9 ∧ hi = 14) ∨ (lo = 14 ∧ hi = 19) ∨ (lo = 19 ∧ hi = 24)) (hlen : len = 3 ∨ len = 5) (hx : x < 32) (hlow : low < 2 ^ lo) (hw : w.toNat = high * 2 ^ hi + x * 2 ^ lo + low) (k : Nat) :
    (bumpField w lo len k).toNat = high * 2 ^ hi + bumped len x k * 2 ^ lo + low := by
  have hlt := w.isLt
  rw [bumpField, BitVec.toNat_ofNat, bumped]
  rcases hlo with ⟨rfl, rfl⟩ | ⟨rfl, rfl⟩ | ⟨rfl, rfl⟩ <;> rcases hlen with rfl | rfl <;> omega

/-- A field where it is staggered, and where not. -/
def bumpedIf (on : Bool) (len x k : Nat) : Nat := if on then bumped len x k else x

section
variable {w : Word32} {h d a b l len : Nat} (hw : WordParts w h d a b l) (hlen : len = 3 ∨ len = 5) (on : Bool) (k : Nat)
include hw hlen

theorem wordParts_bumpIf_d : WordParts (if on then bumpField w 19 len k else w) h (bumpedIf on len d k) a b l := by
  cases on with
  | false => exact hw
  | true =>
    obtain ⟨hv, hd, ha, hb, hl⟩ := hw
    refine ⟨(toNat_bumpField (lo := 19) (hi := 24) (high := h) (x := d) (low := a * 2 ^ 14 + b * 2 ^ 9 + l) (by decide) hlen hd (by omega) (hv.trans (by ring)) k).trans ?_,
      bumped_lt hlen hd k, ha, hb, hl⟩
    rw [bumpedIf, if_pos rfl]
    ring

theorem wordParts_bumpIf_a : WordParts (if on then bumpField w 14 len k else w) h d (bumpedIf on len a k) b l := by
  cases on with
  | false => exact hw
  | true =>
    obtain ⟨hv, hd, ha, hb, hl⟩ := hw
    refine ⟨(toNat_bumpField (lo := 14) (hi := 19) (high := h * 2 ^ 5 + d) (x := a) (low := b * 2 ^ 9 + l) (by decide) hlen ha (by omega) (hv.trans (by ring)) k).trans ?_,
      hd, bumped_lt hlen ha k, hb, hl⟩
    rw [bumpedIf, if_pos rfl]
    ring

theorem wordParts_bumpIf_b : WordParts (if on then bumpField w 9 len k else w) h d a (bumpedIf on len b k) l := by
  cases on with
  | false => exact hw
  | true =>
    obtain ⟨hv, hd, ha, hb, hl⟩ := hw
    refine ⟨(toNat_bumpField (lo := 9) (hi := 14) (high := h * 2 ^ 10 + d * 2 ^ 5 + a) (x := b) (low := l) (by decide) hlen hb (by omega) (hv.trans (by ring)) k).trans ?_,
      hd, ha, bumped_lt hlen hb k, hl⟩
    rw [bumpedIf, if_pos rfl]
    ring

end

/-- The majors whose words have staggered fields (R107). -/
def StaggeredMajor (m : Nat) : Prop := ((0x20 ≤ m ∧ m ≤ 0x29) ∨ (0x30 ≤ m ∧ m ≤ 0x37) ∨ m = 0x39) ∨ m = 0x38

/-- The forms with a field `a`, and those with a field `b`. -/
def HasA (m : Nat) : Prop := m ≠ 0x28 ∧ m ≠ 0x29
def HasB (m sub fn : Nat) : Prop :=
  (m = 0x20 ∧ fn < 0x18) ∨ (m = 0x31 ∧ sub < 2) ∨ (m = 0x37 ∧ sub = 1) ∨ m = 0x30 ∨ m = 0x32 ∨ m = 0x33 ∨ m = 0x34 ∨ m = 0x35 ∨ m = 0x36 ∨
    (m = 0x38 ∧ fn ≠ 3)

theorem staggerable_spec (w : Word32) {m : Nat} (hm : m = w.toNat / 2 ^ 24 % 2 ^ 6) :
    ((staggerable w).1.1 = true ↔ StaggeredMajor m) ∧ ((staggerable w).1.2.1 = true ↔ HasA m ∧ StaggeredMajor m) ∧
      ((staggerable w).1.2.2 = true ↔ HasB m (w.toNat % 4) (w.toNat % 2 ^ 6) ∧ StaggeredMajor m) ∧
      ((staggerable w).2.1 = true ↔ m = 0x38 ∨ m = 0x34) ∧ ((staggerable w).2.2.1 = true ↔ m = 0x38) ∧
      ((staggerable w).2.2.2 = true ↔ m = 0x38) := by
  have hmajor : (major w).toNat = m := by
    rw [major, bits, BitVec.extractLsb'_toNat, Nat.shiftRight_eq_div_pow, hm]
  unfold staggerable
  simp only [hmajor, StaggeredMajor, HasA, HasB, Bool.or_eq_true, Bool.and_eq_true, decide_eq_true_eq]
  clear hmajor hm
  split_ifs <;> simp only [decide_eq_true_eq, false_iff, true_iff] <;> omega

theorem len_or (narrow : Bool) : (if narrow then 3 else 5) = 3 ∨ (if narrow then 3 else 5) = 5 := by cases narrow <;> decide

/-- The three fields of a staggered word, and the rest of it. -/
theorem stagger_parts {w : Word32} {h d a b l : Nat} (hw : WordParts w h d a b l) (j stag stride : Nat) :
    let f := staggerable w
    WordParts (stagger w j stag stride) h
      (bumpedIf (f.1.1 && stag / 4 % 2 = 1) (if f.2.1 then 3 else 5) d (j * stride))
      (bumpedIf (f.1.2.1 && stag / 2 % 2 = 1) (if f.2.2.1 then 3 else 5) a (j * stride))
      (bumpedIf (f.1.2.2 && stag % 2 = 1) (if f.2.2.2 then 3 else 5) b (j * stride)) l :=
  wordParts_bumpIf_b (wordParts_bumpIf_a (wordParts_bumpIf_d hw (len_or _) _ _) (len_or _) _ _) (len_or _) _ _

/-- What the obligation says of one field: old value, new value, whether it moves, and whether it names a mask register. -/
def FieldMoves (old new up : Nat) (moves narrow : Prop) : Prop :=
  (moves → ¬narrow → new = (old + up) % 32) ∧ (moves → narrow → new = (old % 8 + up) % 8 + old / 8 * 8) ∧ (¬moves → new = old)

theorem fieldMoves_bumpedIf {on narrow : Bool} {moves nar : Prop} {x : Nat} (hx : x < 32) (hon : on = true ↔ moves) (hn : narrow = true ↔ nar)
    (k : Nat) : FieldMoves x (bumpedIf on (if narrow then 3 else 5) x k) k moves nar := by
  refine ⟨fun hm hnar => ?_, fun hm hnar => ?_, fun hm => ?_⟩
  · rw [bumpedIf, if_pos (hon.2 hm), if_neg fun h => hnar (hn.1 h), bumped]
    omega
  · rw [bumpedIf, if_pos (hon.2 hm), if_pos (hn.2 hnar)]
    rfl
  · exact if_neg fun h => hm (hon.1 h)

theorem replayWord_eq (s : State) :
    replayWord s = stagger ((me s).repBuf[repWord (me s).repState % 16]'(Nat.mod_lt _ (by decide))) (repPass (me s).repState)
      (fieldOf (me s).repState 29 27) (fieldOf (me s).repState 26 24) := rfl

end Sys2Proof.Machine
end

section
/-! PROOFS. What REP and the words of its replay come to (R106 to R110). -/

namespace Sys2Proof.Machine

open Sys2Proof.Safety

section
variable {b : BitVec 4} {p : BitVec 8} {g k : BitVec 3} {s : State}

/-- The strand after REP: its replay at the first word, or over where there is no pass. -/
def replayBegun (b : BitVec 4) (p : BitVec 8) (g k : BitVec 3) (s : State) (ws : List Word32) (u : Strand) : Strand :=
  if p = 0#8 then repDone (replayStart b p g k (nextAddr s) (bufferWith ws (me s).repBuf) u)
  else replayStart b p g k (nextAddr s) (bufferWith ws (me s).repBuf) u

theorem replayBegun_kept (ws : List Word32) (u : Strand) :
    (replayBegun b p g k s ws u).regs = u.regs ∧ (replayBegun b p g k s ws u).trap = u.trap := by
  unfold replayBegun
  split
  · exact (repDone_over (u := replayStart b p g k (nextAddr s) (bufferWith ws (me s).repBuf) u) rfl rfl).2
  · exact ⟨rfl, rfl⟩

theorem replayBegun_over (hp : p = 0#8) (ws : List Word32) {t u : Strand} (h0 : u.loop0 = t.loop0) (h1 : u.loop1 = t.loop1) :
    ReplayOver ((nextAddr s &&& ~~~3#18) + BitVec.ofNat 18 (4 * b.toNat)) t (replayBegun b p g k s ws u) := by
  obtain ⟨-, hblen, -, -, -, hbody, -, -⟩ := repStateOf_start b p g k (nextAddr s)
  have hover := (repDone_over (t := t) (u := replayStart b p g k (nextAddr s) (bufferWith ws (me s).repBuf) u) h0 h1).1
  rw [replayBegun, if_pos hp, ← hbody]
  rwa [replayStart, hblen] at hover

theorem replayBegun_of_passes (hp : p ≠ 0#8) (ws : List Word32) (u : Strand) :
    replayBegun b p g k s ws u = replayStart b p g k (nextAddr s) (bufferWith ws (me s).repBuf) u := if_neg hp

theorem kept_of_codeRead {s t : State} (h : CodeRead s t) :
    (me t).regs = (me s).regs ∧ (me t).trap = (me s).trap ∧ (me t).loop0 = (me s).loop0 ∧ (me t).loop1 = (me s).loop1 := by
  obtain ⟨-, -, -, -, hme, -⟩ := h
  rw [hme]
  exact ⟨rfl, rfl, rfl, rfl⟩

/-- REP of a body that can be replayed. -/
theorem exec_rep_of_ok {r : List Word32 × State} (hl : (me s).live = true) (hv : vqStores s = false)
    (hr : readCodes s.ctx.core s.ctx.strand (b.toNat + 1) s (nextAddr s) = r) (h : BodyOk b s r.1) :
    exec (.rep b p g k) s = .next (modMe r.2 (replayBegun b p g k s r.1)) :=
  exec_rep.trans (issueWord_ok _ _ _ _ ⟨hl, rfl, rfl⟩ (repEffect_of_ok hr hv h))

end

theorem staggers_iff {f : Bool} {c : Prop} [Decidable c] {q plain : Prop} (h : f = true ↔ q ∧ plain) :
    (f && decide c) = true ↔ (c ∧ q) ∧ plain := by
  rw [Bool.and_eq_true, h, decide_eq_true_eq]
  tauto

/-- The fields of a staggered word (R107): each moves where the mask and the table name it. -/
theorem stagger_fields (old : Word32) (j stag stride : Nat) {m : Nat} (hm : m = old.toNat / 2 ^ 24 % 2 ^ 6) :
    FieldMoves (old.toNat / 2 ^ 19 % 2 ^ 5) ((stagger old j stag stride).toNat / 2 ^ 19 % 2 ^ 5) (j * stride)
        (stag / 4 % 2 = 1 ∧ StaggeredMajor m) (m = 0x38 ∨ m = 0x34) ∧
      FieldMoves (old.toNat / 2 ^ 14 % 2 ^ 5) ((stagger old j stag stride).toNat / 2 ^ 14 % 2 ^ 5) (j * stride)
        ((stag / 2 % 2 = 1 ∧ HasA m) ∧ StaggeredMajor m) (m = 0x38) ∧
      FieldMoves (old.toNat / 2 ^ 9 % 2 ^ 5) ((stagger old j stag stride).toNat / 2 ^ 9 % 2 ^ 5) (j * stride)
        ((stag % 2 = 1 ∧ HasB m (old.toNat % 4) (old.toNat % 2 ^ 6)) ∧ StaggeredMajor m) (m = 0x38) ∧
      (stagger old j stag stride).toNat / 2 ^ 24 = old.toNat / 2 ^ 24 ∧ (stagger old j stag stride).toNat % 2 ^ 9 = old.toNat % 2 ^ 9 := by
  obtain ⟨hd, ha, hb, hkd, hka, hkb⟩ := staggerable_spec old hm
  have hold := wordParts old
  obtain ⟨hh, hfd, hfa, hfb, hfl⟩ := parts_of_wordParts (stagger_parts hold j stag stride)
  rw [hfd, hfa, hfb, hh, hfl]
  refine ⟨fieldMoves_bumpedIf hold.d_lt ?_ hkd _, fieldMoves_bumpedIf hold.a_lt (staggers_iff ha) hka _,
    fieldMoves_bumpedIf hold.b_lt (staggers_iff hb) hkb _, rfl, rfl⟩
  rw [Bool.and_eq_true, hd, decide_eq_true_eq, and_comm]

theorem fieldMoves_congr {old new up : Nat} {p q n n' : Prop} (h : FieldMoves old new up p n) (hp : p ↔ q) (hn : n ↔ n') :
    FieldMoves old new up q n' := by
  rwa [← propext hp, ← propext hn]

/-- Settles O20: a stall, the body as it is read (`readCodes_of_quiet`), its replay begun or refused, the advance (`repAdvance_runs`), and the
fields that `stagger` moves. -/
theorem replaysRun : Obligations.ReplaysRun := by
  refine ⟨fun b p g k s hl => ?_, fun t => ?_, fun s => ?_⟩
  · intro body read at_ ok
    have hissue : Issuable (.rep b p g k) s := ⟨hl, rfl, rfl⟩
    have hr : readCodes s.ctx.core s.ctx.strand (b.toNat + 1) s body = read := rfl
    clear_value read
    have hread : CodeRead s read.2 := hr ▸ codeRead_readCodes _ s _
    have hlen : read.1.length = b.toNat + 1 := hr ▸ length_readCodes _ _ _
    refine ⟨hread, hlen, fun hv => ?_, fun hv => ⟨fun hq hd ho j hj => ?_, fun h => ?_, fun h => ?_⟩⟩
    · rw [exec_rep]
      exact issueWord_error _ _ _ _ hissue (repEffect_waits hv)
    · rw [← readCodes_of_quiet (b.toNat + 1) s body ⟨hq, hd⟩ (fun i hi => ho i (Nat.lt_succ_iff.1 hi)) j (Nat.lt_succ_of_le hj), hr]
    · obtain ⟨hmem, hout, hcore⟩ := codeRead_modMe hread (replayBegun b p g k s read.1)
      obtain ⟨hregs, htrap, hloop0, hloop1⟩ := kept_of_codeRead hread
      obtain ⟨hregs', htrap'⟩ := replayBegun_kept (b := b) (p := p) (g := g) (k := k) (s := s) read.1 (me read.2)
      refine ⟨_, exec_rep_of_ok hl hv hr h, hmem, hout, hcore, ?_, ?_, fun hp => ?_, fun hp => ?_⟩
      · rw [me_modMe]
        exact hregs'.trans hregs
      · rw [me_modMe]
        exact htrap'.trans htrap
      · rw [me_modMe, replayBegun_of_passes hp]
        obtain ⟨hact, hblen, hpasses, hpass, hword, hbody, hstag, hstride⟩ := repStateOf_start b p g k (nextAddr s)
        exact ⟨rfl, rfl, hact, hblen, hpasses, hpass, hword, hbody, hstag, hstride,
          fun j hj => getElem_bufferWith read.1 _ j (lt_of_lt_of_eq (Nat.lt_succ_of_le hj) hlen.symm)⟩
      · rw [me_modMe]
        exact replayBegun_over hp _ hloop0 hloop1
    · rw [exec_rep]
      exact issueWord_ok _ _ _ _ hissue (repEffect_of_not_ok hr hv h)
  · intro r u go
    obtain ⟨h1, h2, h3⟩ := repAdvance_runs t
    exact ⟨h1, h2, h3, repAdvance_kept t⟩
  · intro t w old up major sub fn field on plain hasA hasB narrow moved
    have hw : w = stagger old (repPass t.repState) (fieldOf t.repState 29 27) (fieldOf t.repState 26 24) := replayWord_eq s
    obtain ⟨hd, ha, hb, hhigh, hlow⟩ :=
      stagger_fields old (repPass t.repState) (fieldOf t.repState 29 27) (fieldOf t.repState 26 24) (m := major) rfl
    rw [← hw] at hd ha hb hhigh hlow
    clear_value w old
    have hbit : ∀ j, on j ↔ fieldOf t.repState 29 27 / 2 ^ j % 2 = 1 := fun _ => Iff.rfl
    have hnarrow : ∀ lo, lo ≠ 19 → (major = 0x38 ↔ narrow lo) := fun lo hlo => ⟨.inl, fun h => h.resolve_right fun h => hlo h.2⟩
    refine ⟨fieldMoves_congr hd Iff.rfl ⟨?_, ?_⟩, fieldMoves_congr ha Iff.rfl (hnarrow 14 (by decide)),
      fieldMoves_congr hb ?_ (hnarrow 9 (by decide)), hhigh, hlow⟩
    · exact fun h => h.imp id fun h => ⟨h, rfl⟩
    · exact fun h => h.imp id And.left
    · rw [hbit, pow_zero, Nat.div_one]
      rfl

end Sys2Proof.Machine
end

section
/-! PROOFS. Helper strands (R79 to R83): START, WAITS, YIELD and END. -/

namespace Sys2Proof.Machine

open Sys2Proof.Safety

/-! ### What `retire` leaves of the core -/

theorem getStrand_retire_other (s : State) {n : Fin 4} (h : n ≠ s.ctx.strand) :
    getStrand (retire s) s.ctx.core n = getStrand s s.ctx.core n := by
  obtain ⟨-, -, -, -, hstrands, -⟩ := retire_onlyMyStrand s
  exact hstrands n h

/-- The held words and the slot of the core. -/
theorem myCore_retire (s : State) : (myCore (retire s)).fetched = (myCore s).fetched ∧ (myCore (retire s)).slotGone = (myCore s).slotGone := by
  obtain ⟨-, -, -, -, -, hcore⟩ := retire_onlyMyStrand s
  rw [myCore, myCore, retire_ctx]
  rw [CoreRegistersSame] at hcore
  have hfetched := congrArg Core.fetched hcore
  have hslot := congrArg Core.slotGone hcore
  exact ⟨hfetched, hslot⟩

/-! ### `START` (R79, R80) -/

section
variable {a b : BitVec 5} {n : BitVec 2} {s : State}

/-- What the issuer learns from the helper's last run (R138). -/
def helperLearnt (s : State) (n : BitVec 2) : State := learn s s.ctx.core s.ctx.strand [agentClock s s.ctx.core n.toFin]

/-- The helper as START begins it (R80). -/
def helperStarted (a b : BitVec 5) (n : BitVec 2) (s : State) : Strand :=
  let t := initStrand (getStrand s s.ctx.core n.toFin) ((readS s a).setWidth 18) (me (helperLearnt s n)).clock
  { t with regs := { t.regs with s := (t.regs.s.set 1 (readS s b)).set 2 (BitVec.ofNat 64 s.ctx.strand.val) } }

/-- The state with the helper begun, before START ends. -/
def startState (a b : BitVec 5) (n : BitVec 2) (s : State) : State :=
  dropFetched (setStrand (helperLearnt s n) s.ctx.core n.toFin (helperStarted a b n s)) s.ctx.core n.toFin

/-- What START does. -/
def startEffect (a b : BitVec 5) (n : BitVec 2) (s : State) : Except Stop State :=
  if n.toFin = strandNo (me s) || (myRegion s).phase = .t then .error (illegal s)
  else if badTarget (readS s a) then .error (.trap cInstrAddr 0 (readS s a) 7)
  else if (getStrand s s.ctx.core n.toFin).live then .error (.wait (.strands (1#4 <<< n.toNat)))
  else if !performedAll s then .error (.wait .stall)
  else .ok (retire (startState a b n s))

theorem exec_start : exec (.start a b n) s = issueWord (.start a b n) s (startEffect a b n) := by rfl

section
variable (hno : n.toFin ≠ strandNo (me s)) (hphase : (myRegion s).phase ≠ .t) (hlt : (readS s a).toNat < 2 ^ 18)
  (halign : (readS s a).toNat % 4 = 0)
include hno hphase hlt halign

theorem startEffect_checked :
    startEffect a b n s =
      if (getStrand s s.ctx.core n.toFin).live then .error (.wait (.strands (1#4 <<< n.toNat)))
      else if !performedAll s then .error (.wait .stall)
      else .ok (retire (startState a b n s)) := by
  have htarget : ¬badTarget (readS s a) = true := Bool.eq_false_iff.1 ((badTarget_eq_false_iff _).2 ⟨hlt, halign⟩)
  rw [startEffect, if_neg, if_neg htarget]
  rw [Bool.or_eq_true, decide_eq_true_eq, decide_eq_true_eq]
  exact not_or.2 ⟨hno, hphase⟩

theorem exec_start_live (hi : Issuable (.start a b n) s) (hlive : (getStrand s s.ctx.core n.toFin).live = true) :
    exec (.start a b n) s = .next (block s (.strands (1#4 <<< n.toNat))) := by
  rw [exec_start]
  exact issueWord_error _ _ _ _ hi ((startEffect_checked hno hphase hlt halign).trans (if_pos hlive))

theorem exec_start_not_live (hi : Issuable (.start a b n) s) (hlive : (getStrand s s.ctx.core n.toFin).live = false)
    (hdone : performedAll s = true) : exec (.start a b n) s = .next (retire (startState a b n s)) := by
  have hready : ¬(!performedAll s) = true := by rw [hdone]; decide
  rw [exec_start]
  exact issueWord_ok _ _ _ _ hi
    ((startEffect_checked hno hphase hlt halign).trans ((if_neg (Bool.eq_false_iff.1 hlive)).trans (if_neg hready)))

end

theorem helperStarted_regs (a b : BitVec 5) (n : BitVec 2) (s : State) :
    (helperStarted a b n s).regs.s[1] = readS s b ∧ (helperStarted a b n s).regs.s[2] = BitVec.ofNat 64 s.ctx.strand.val ∧
      ∀ r : Fin 32, r.val ≠ 1 → r.val ≠ 2 → (helperStarted a b n s).regs.s[r] = 0#64 := by
  refine ⟨rfl, rfl, fun r h1 h2 => ?_⟩
  have hset : (helperStarted a b n s).regs.s = ((Vector.replicate 32 0#64).set 1 (readS s b)).set 2 (BitVec.ofNat 64 s.ctx.strand.val) := rfl
  rw [hset, Fin.getElem_fin, Vector.getElem_set_ne _ _ (Ne.symm h2), Vector.getElem_set_ne _ _ (Ne.symm h1), Vector.getElem_replicate]

end

section
variable {a b : BitVec 5} {n : BitVec 2} {s : State} (hother : n.toFin ≠ s.ctx.strand)

theorem getStrand_dropFetched (s : State) (c : Nat) (k m : Fin 4) : getStrand (dropFetched s c k) c m = getStrand s c m := by
  rw [getStrand, dropFetched, getCore_modCore_same]
  rfl

theorem getStrand_startState : getStrand (startState a b n s) s.ctx.core n.toFin = helperStarted a b n s := by
  rw [startState, getStrand_dropFetched, setStrand, getStrand, getCore_modCore_same, coreStrand_setStrandOf_same]

include hother in
theorem regs_me_startState : (me (startState a b n s)).regs = (me s).regs := by
  have hme : me (startState a b n s) = getStrand (startState a b n s) s.ctx.core s.ctx.strand := rfl
  rw [hme, startState, getStrand_dropFetched, setStrand, getStrand, getCore_modCore_same, coreStrand_setStrandOf_other _ _ _ _ hother.symm]
  have hlearnt : coreStrand (getCore (helperLearnt s n) s.ctx.core) s.ctx.strand = me (helperLearnt s n) := rfl
  have hmine : helperLearnt s n = modMe s fun t => { t with clock := [agentClock s s.ctx.core n.toFin].foldl clockJoin t.clock } := rfl
  rw [hlearnt, hmine, me_modMe]

theorem not_fetched_dropFetched (s : State) (c : Nat) (k : Fin 4) : ∀ f ∈ (getCore (dropFetched s c k) c).fetched, f.1 ≠ k.val := by
  intro f hf
  rw [dropFetched, getCore_modCore_same] at hf
  simpa using (List.mem_filter.1 hf).2

theorem not_fetched_after_start : ∀ f ∈ (myCore (retire (startState a b n s))).fetched, f.1 ≠ n.toNat := by
  rw [(myCore_retire _).1]
  exact not_fetched_dropFetched _ s.ctx.core n.toFin

include hother in
/-- What START leaves of the helper and of the issuer. -/
theorem after_start :
    getStrand (retire (startState a b n s)) s.ctx.core n.toFin = helperStarted a b n s ∧
      (me (retire (startState a b n s))).regs = (me s).regs ∧ SameMemory s (retire (startState a b n s)) := by
  refine ⟨(getStrand_retire_other (startState a b n s) hother).trans getStrand_startState,
    (me_retire_regs _).trans (regs_me_startState hother), fun k => ?_⟩
  rw [retire_mem]
  rfl

end

/-! ### `WAITS`, `YIELD` and `END` (R81 to R83) -/

theorem exec_waits (g : BitVec 3) (s : State) :
    exec (.waits g) s = issueWord (.waits g) s fun s =>
      if (waitSet g).getLsbD (strandNo (me s)) || (myRegion s).phase = .t then .error (illegal s)
      else if (List.finRange 4).any fun (n : Fin 4) => (waitSet g).getLsbD n && (getStrand s s.ctx.core n).live then
        .error (.wait (.strands (waitSet g)))
      else if vqBusy s then .error (.wait .stall)
      else .ok (retire (learn s s.ctx.core s.ctx.strand
        (((List.finRange 4).filter fun (n : Fin 4) => (waitSet g).getLsbD n).map (agentClock s s.ctx.core)))) := by rfl

theorem exec_waits_over {g : BitVec 3} {s : State} (hi : Issuable (.waits g) s) (hown : (waitSet g).getLsbD (strandNo (me s)) = false)
    (hphase : (myRegion s).phase ≠ .t) (hall : ∀ k : Fin 4, (waitSet g).getLsbD k = true → (getStrand s s.ctx.core k).live = false)
    (hq : vqBusy s = false) : ∃ cs, exec (.waits g) s = .next (retire (learn s s.ctx.core s.ctx.strand cs)) := by
  refine ⟨_, (exec_waits g s).trans (issueWord_ok _ _ _ _ hi ((if_neg ?_).trans ((if_neg ?_).trans (if_neg (Bool.eq_false_iff.1 hq)))))⟩
  · rw [hown, Bool.false_or, decide_eq_true_eq]
    exact hphase
  · simp only [List.any_eq_true, List.mem_finRange, true_and, Bool.and_eq_true, not_exists, not_and, Bool.not_eq_true]
    exact hall

/-- What a strand learns is in its clock alone. -/
theorem learn_eq_modMe (s : State) (cs : List Clock) :
    learn s s.ctx.core s.ctx.strand cs = modMe s fun t => { t with clock := cs.foldl clockJoin t.clock } := rfl

theorem exec_yield (s : State) :
    exec .yield s = issueWord .yield s fun s => .ok (retire (modMyCore s fun x => { x with slotGone := true })) := by rfl

theorem after_yield (s : State) :
    (me (retire (modMyCore s fun x => { x with slotGone := true }))).regs = (me s).regs ∧
      (myCore (retire (modMyCore s fun x => { x with slotGone := true }))).slotGone = true := by
  have hcore := myCore_modMyCore s fun x => { x with slotGone := true }
  generalize hu : modMyCore s _ = u at hcore ⊢
  have hctx : u.ctx = s.ctx := hu ▸ rfl
  constructor
  · have hme : me u = coreStrand (myCore u) s.ctx.strand := by rw [← hctx]; rfl
    rw [me_retire_regs, hme, hcore]
    rfl
  · rw [(myCore_retire u).2, hcore]

theorem exec_endOp_helper {s : State} (hi : Issuable .endOp s) (hmode : (me s).trap.status.getLsbD 0 = false) (hno : strandNo (me s) ≠ 0)
    (hphase : (myRegion s).phase ≠ .t) (hdone : performedAll s = true) :
    exec .endOp s = .next (modMe s fun t => { t with live := false }) := by
  refine issueWord_ok .endOp s _ (fun s => _) hi ((if_neg ?_).trans ((if_neg ?_).trans ((if_pos hno).trans (if_pos hdone))))
  · rw [hmode]
    decide
  · rw [Bool.and_eq_true, decide_eq_true_eq]
    exact fun h => hphase h.1

/-- Settles O22, word by word. -/
theorem helpersStartAndEnd : Obligations.HelpersStartAndEnd := by
  intro a b n g s
  refine ⟨fun hi hno hphase hlt halign hlive hdone => ?_, fun hi hno hphase hlt halign hlive => exec_start_live hno hphase hlt halign hi hlive,
    fun hi hown hphase hall hq => ?_, fun hi => ?_, fun hi hmode hno hphase hdone => ?_⟩
  · have hother : n.toFin ≠ s.ctx.strand := by
      intro h
      rw [h] at hlive
      cases hi.1.symm.trans hlive
    obtain ⟨hhelper, hregs, hmem⟩ := after_start (a := a) (b := b) hother
    obtain ⟨hr1, hr2, hrest⟩ := helperStarted_regs a b n s
    refine ⟨_, exec_start_not_live hno hphase hlt halign hi hlive hdone, hmem, hregs, ?_⟩
    dsimp only
    rw [hhelper]
    exact ⟨rfl, rfl, hr1, hr2, hrest, rfl, rfl, rfl, rfl, rfl, rfl, rfl, not_fetched_after_start⟩
  · obtain ⟨cs, hexec⟩ := exec_waits_over hi hown hphase hall hq
    rw [learn_eq_modMe] at hexec
    refine ⟨_, hexec, onlyMyStrand_trans (modMe_ctx s _) (modMe_onlyMyStrand s _) (retire_onlyMyStrand _), ?_, ?_⟩
    · rw [me_retire_regs, me_modMe]
    · rw [me_retire_trap, me_modMe]
  · obtain ⟨hregs, hslot⟩ := after_yield s
    refine ⟨_, (exec_yield s).trans (issueWord_ok _ _ _ _ hi rfl), fun k => ?_, hregs, hslot⟩
    rw [retire_mem]
    rfl
  · exact ⟨_, exec_endOp_helper hi hmode hno hphase hdone, modMe_onlyMyStrand s _, me_modMe s _⟩

end Sys2Proof.Machine
end

section
/-! PROOFS. Control registers (R58, R87): what a register set reads as, and what else keeps its value. -/

namespace Sys2Proof.Machine

open Sys2Proof.Safety

/-- A control register's value, by the core, the strand and the package's defect signature it is read from. -/
def crRead (x : Core) (t : Strand) (d : Word) (sel : Nat) : Word :=
  match sel with
  | 0x000 => t.trap.status
  | 0x001 => t.trap.cause
  | 0x002 => t.trap.epc
  | 0x003 => t.trap.faultAddr
  | 0x004 => t.trap.faultInfo
  | 0x005 => t.trap.origPc
  | 0x006 => t.trap.unrollIdx
  | 0x007 => x.handler
  | 0x008 => x.saveArea
  | 0x010 => t.strandId
  | 0x011 => x.coreId
  | 0x012 => x.pkgId
  | 0x013 => x.superstep
  | 0x014 => x.phase
  | 0x020 => x.xplan
  | 0x021 => x.pendBytes
  | 0x022 => x.rqBase
  | 0x023 => x.rqLimit
  | 0x024 => x.rqHead
  | 0x025 => x.rqTail
  | 0x030 => x.landBase
  | 0x031 => x.guardLo
  | 0x032 => x.guardHi
  | 0x040 => t.loop0.start
  | 0x041 => t.loop0.stop
  | 0x042 => t.loop0.count
  | 0x044 => t.loop1.start
  | 0x045 => t.loop1.stop
  | 0x046 => t.loop1.count
  | 0x048 => t.repState
  | 0x050 => x.mx.fmtA
  | 0x051 => x.mx.fmtB
  | 0x052 => x.mx.scaleA
  | 0x053 => x.mx.scaleB
  | 0x054 => x.mx.stipA
  | 0x055 => x.mx.stipB
  | 0x056 => t.mseq
  | 0x057 => t.mfaultSeq
  | 0x060 => x.ceIdx[0]
  | 0x061 => x.ceIdx[1]
  | 0x062 => x.ceIdx[2]
  | 0x063 => x.ceIdx[3]
  | 0x064 => x.ceIdx[4]
  | 0x065 => x.ceState
  | 0x070 => d
  | _ => 0#64

theorem crValue_eq (s : State) (core : Nat) (n : Fin 4) (sel : Nat) :
    crValue s core n sel = crRead (getCore s core) (getStrand s core n) (getPackage s (pkgOfCore core)).defectSig sel := rfl

theorem crRead_putStrandCr_other (x : Core) (t : Strand) (d : Word) {sel other : Nat} (h : other ≠ sel) (v : Word) :
    crRead x (putStrandCr t sel v) d other = crRead x t d other := by
  refine Or.resolve_right ?_ h
  unfold putStrandCr
  split <;> (unfold crRead; split <;> simp)

theorem crRead_putCoreCr_other (x : Core) (t : Strand) (d : Word) {sel other : Nat} (h : other ≠ sel) (v : Word) :
    crRead (putCoreCr x sel v) t d other = crRead x t d other := by
  refine Or.resolve_right ?_ h
  unfold putCoreCr
  split <;> (unfold crRead; split <;> simp)

/-- A strand's register with a writable field reads as it was set. -/
theorem crRead_putStrandCr_same (x : Core) (t : Strand) (d : Word) {sel : Nat} (hs : crPerStrand sel = true) (h : crMask sel ≠ 0#64) (v : Word) :
    crRead x (putStrandCr t sel v) d sel = v := by
  refine Or.resolve_right (b := ¬crPerStrand sel = true) ?_ (not_not_intro hs)
  unfold crMask at h
  split at h <;> simp [crRead, putStrandCr, crPerStrand] at h ⊢

/-- So does a core's. -/
theorem crRead_putCoreCr_same (x : Core) (t : Strand) (d : Word) {sel : Nat} (hs : crPerStrand sel = false) (h : crMask sel ≠ 0#64) (v : Word) :
    crRead (putCoreCr x sel v) t d sel = v := by
  refine Or.resolve_right (b := ¬crPerStrand sel = false) ?_ (not_not_intro hs)
  unfold crMask at h
  split at h <;> simp [crRead, putCoreCr, crPerStrand] at h ⊢

theorem coreStrand_putCoreCr (x : Core) (sel : Nat) (v : Word) (n : Fin 4) : coreStrand (putCoreCr x sel v) n = coreStrand x n := by
  unfold putCoreCr
  split <;> rfl

/-- The core's other strands, and the strand that is set. -/
theorem crRead_setStrandOf (x : Core) (n : Fin 4) (u t : Strand) (d : Word) (sel : Nat) : crRead (setStrandOf x n u) t d sel = crRead x t d sel := rfl

/-! ### Registers set -/

section
variable (s : State) (core : Nat) (n : Fin 4) {sel : Nat} (v : Word)

theorem crPut_of_strand (hs : crPerStrand sel = true) : crPut s core n sel v = modStrand s core n fun t => putStrandCr t sel v := if_pos hs

theorem crPut_of_core (hs : crPerStrand sel = false) : crPut s core n sel v = modCore s core fun x => putCoreCr x sel v :=
  if_neg (Bool.eq_false_iff.1 hs)

theorem getCore_crPut_other {c : Nat} (hc : c ≠ core) : getCore (crPut s core n sel v) c = getCore s c := by
  unfold crPut
  split
  · exact getCore_modCore_other _ _ _ _ hc
  · exact getCore_modCore_other _ _ _ _ hc

theorem crPut_packages : (crPut s core n sel v).packages = s.packages := by
  unfold crPut; split <;> rfl

theorem crPut_mem : (crPut s core n sel v).mem = s.mem := by
  unfold crPut; split <;> rfl

/-- A strand's register set: the value that a strand of the core then reads. -/
theorem crValue_crPut_of_strand (hs : crPerStrand sel = true) (m : Fin 4) (other : Nat) :
    crValue (crPut s core n sel v) core m other =
      crRead (getCore s core) (if m = n then putStrandCr (getStrand s core n) sel v else getStrand s core m)
        (getPackage s (pkgOfCore core)).defectSig other := by
  rw [crPut_of_strand s core n v hs, crValue_eq, getStrand, modStrand, getCore_modCore_same, crRead_setStrandOf]
  split
  next h => rw [h, coreStrand_setStrandOf_same]; rfl
  next h => rw [coreStrand_setStrandOf_other _ _ _ _ h]; rfl

/-- A core's register set. -/
theorem crValue_crPut_of_core (hs : crPerStrand sel = false) (m : Fin 4) (other : Nat) :
    crValue (crPut s core n sel v) core m other =
      crRead (putCoreCr (getCore s core) sel v) (getStrand s core m) (getPackage s (pkgOfCore core)).defectSig other := by
  rw [crPut_of_core s core n v hs, crValue_eq, getStrand, getCore_modCore_same, coreStrand_putCoreCr]
  rfl

end

/-- Settles O26: a set register is the strand's or the core's, and each reads back by `crRead`. -/
theorem controlRegistersHold : Obligations.ControlRegistersHold := by
  intro s core n sel other v hmask
  have hmem : SameMemory s (crPut s core n sel v) := fun k => by rw [crPut_mem]
  have hcores : ∀ (c : Nat) (m : Fin 4), c ≠ core → crValue (crPut s core n sel v) c m other = crValue s c m other := by
    intro c m hc
    rw [crValue_eq, crValue_eq, getStrand, getStrand, getPackage, getPackage, getCore_crPut_other s core n v hc, crPut_packages]
  cases hs : crPerStrand sel with
  | true =>
    have hread := crValue_crPut_of_strand s core n v hs
    refine ⟨?_, fun hne => ?_, fun m hm _ => ?_, hcores, hmem⟩
    · rw [hread, if_pos rfl, crRead_putStrandCr_same _ _ _ hs hmask]
    · rw [hread, if_pos rfl, crRead_putStrandCr_other _ _ _ hne, crValue_eq]
    · rw [hread, if_neg hm, crValue_eq]
  | false =>
    have hread := crValue_crPut_of_core s core n v hs
    have hother : ∀ m, other ≠ sel → crValue (crPut s core n sel v) core m other = crValue s core m other := by
      intro m hne
      rw [hread, crRead_putCoreCr_other _ _ _ hne, crValue_eq]
    refine ⟨?_, hother n, fun m _ hne => hother m (hne.elim id fun hp he => ?_), hcores, hmem⟩
    · rw [hread, crRead_putCoreCr_same _ _ _ hs hmask]
    · rw [he, hs] at hp
      cases hp

end Sys2Proof.Machine
end

section
/-! PROOFS. The words on per-core registers (R192 to R194, R249, R266 to R271, R278). -/

namespace Sys2Proof.Machine

open Sys2Proof.Safety

/-! ### Changes of the issuing core and strand alone -/

/-- Nothing but the issuing core, its strand and the regions can differ. -/
structure Inside (s t : State) : Prop where
  ctx : t.ctx = s.ctx
  mem : SameMemory s t
  outside : OutsideSame s t

theorem inside_trans {s t u : State} (h1 : Inside s t) (h2 : Inside t u) : Inside s u := by
  obtain ⟨x1, m1, ⟨p1, w1, d1⟩, c1, n1⟩ := h1
  obtain ⟨x2, m2, ⟨p2, w2, d2⟩, c2, n2⟩ := h2
  simp only [OtherCoresSame, OtherStrandsSame, x1] at c2 n2
  exact ⟨x2.trans x1, fun k => (m2 k).trans (m1 k), ⟨p2.trans p1, w2.trans w1, d2.trans d1⟩, fun c h => (c2 c h).trans (c1 c h),
    fun n h => (n2 n h).trans (n1 n h)⟩

theorem inside_of_onlyMyStrand {s t : State} (hctx : t.ctx = s.ctx) (h : OnlyMyStrand s t) : Inside s t := by
  obtain ⟨hmem, -, hdom, hcores, hstrands, -⟩ := h
  exact ⟨hctx, hmem, hdom, hcores, hstrands⟩

/-- The core changed but for its strands. -/
theorem inside_modMyCore (s : State) {f : Core → Core} (hf : ∀ x, (f x).strands = x.strands) : Inside s (modMyCore s f) := by
  refine ⟨rfl, fun _ => rfl, ⟨rfl, rfl, rfl⟩, fun c h => getCore_modCore_other _ _ _ _ h, fun n _ => ?_⟩
  rw [getStrand, getStrand, modMyCore, getCore_modCore_same, coreStrand, coreStrand, hf]

theorem me_modMyCore (s : State) {f : Core → Core} (hf : ∀ x, (f x).strands = x.strands) : me (modMyCore s f) = me s := by
  have hme : me (modMyCore s f) = coreStrand (myCore (modMyCore s f)) s.ctx.strand := rfl
  rw [hme, myCore_modMyCore, coreStrand, hf]
  rfl

theorem inside_retire (s : State) : Inside s (retire s) := inside_of_onlyMyStrand (retire_ctx s) (retire_onlyMyStrand s)

theorem restOf_myCore_of_onlyMyStrand {s t : State} (hctx : t.ctx = s.ctx) (h : OnlyMyStrand s t) : restOf (myCore t) = restOf (myCore s) := by
  obtain ⟨-, -, -, -, -, hcore⟩ := h
  rw [myCore, myCore, hctx]
  exact hcore

/-- What the obligation keeps of a state: the core and its strand's scalar registers and clocks are its own business. -/
structure Kept (s t : State) : Prop where
  inside : Inside s t
  trap : (me t).trap = (me s).trap
  v : (me t).regs.v = (me s).regs.v
  k : (me t).regs.k = (me s).regs.k

theorem kept_trans {s t u : State} (h1 : Kept s t) (h2 : Kept t u) : Kept s u :=
  ⟨inside_trans h1.inside h2.inside, h2.trap.trans h1.trap, h2.v.trans h1.v, h2.k.trans h1.k⟩

theorem kept_of_plain {d : BitVec 5} {s t : State} (h : Plain d s t) : Kept s t := by
  obtain ⟨hctx, honly, -, hv, hk, hrest⟩ := h
  have htrap := congrArg Strand.trap hrest
  exact ⟨inside_of_onlyMyStrand hctx honly, htrap, hv, hk⟩

theorem kept_modMyCore (s : State) {f : Core → Core} (hf : ∀ x, (f x).strands = x.strands) : Kept s (modMyCore s f) := by
  have hme := me_modMyCore s hf
  exact ⟨inside_modMyCore s hf, by rw [hme], by rw [hme], by rw [hme]⟩

theorem kept_retire (s : State) : Kept s (retire s) := kept_of_plain (d := 0#5) (plain_retire s)

/-! ### Accesses to per-core registers (R86) -/

/-- The core with an access of a strand to a register recorded. -/
def regNoted (n : Fin 4) (sel : Nat) (write : Bool) (x : Core) : Core :=
  { x with regAcc := if x.regAcc.contains (sel, n.val, write) then x.regAcc else (sel, n.val, write) :: x.regAcc }

/-- An access in no conflict is only recorded. -/
theorem noteReg_of_quiet {s : State} (hq : RegistersQuiet s) (sel : Nat) (write : Bool) :
    noteReg s sel write = (modMyCore s (regNoted s.ctx.strand sel write), false) := by
  have hbad : ((getCore s s.ctx.core).regAcc.any fun a => a.1 = sel && a.2.1 ≠ (s.ctx.strand : Nat) && (write || a.2.2)) = false := by
    rw [List.any_eq_false]
    intro r hr
    simp [hq r hr]
  rw [noteReg, noteRegAs, hbad]
  rfl

theorem noteRegs_of_quiet {s : State} (hq : RegistersQuiet s) (sel : Nat) (write : Bool) :
    noteRegs s [(sel, write)] = modMyCore s (regNoted s.ctx.strand sel write) := by
  rw [noteRegs, List.foldl_cons, List.foldl_nil, noteReg_of_quiet hq]

/-! ### The scale keeper (R249, R266 to R269) -/

/-- The core with its pending values changed. -/
def pendingPut (g : Scale → Scale) (x : Core) : Core := { x with mx := { x.mx with pending := g x.mx.pending } }

/-- The keeper's pending values changed, in a state with the access recorded. -/
def pendingSet (s : State) (g : Scale → Scale) : State := retire (modMyCore (modMyCore s (regNoted s.ctx.strand selKeeper true)) (pendingPut g))

theorem myCore_retire_mx (s : State) : (myCore (retire s)).mx = (myCore s).mx := by
  have h := restOf_myCore_of_onlyMyStrand (retire_ctx s) (retire_onlyMyStrand s)
  have hmx := congrArg Core.mx h
  exact hmx

theorem kept_pendingSet (s : State) (g : Scale → Scale) :
    Kept s (pendingSet s g) ∧ (me (pendingSet s g)).regs = (me s).regs ∧
      (myCore (pendingSet s g)).mx = { (myCore s).mx with pending := g (myCore s).mx.pending } := by
  have hnoted : Kept s (modMyCore s (regNoted s.ctx.strand selKeeper true)) := kept_modMyCore s fun _ => rfl
  have hput := kept_modMyCore (modMyCore s (regNoted s.ctx.strand selKeeper true)) (f := pendingPut g) fun _ => rfl
  refine ⟨kept_trans (kept_trans hnoted hput) (kept_retire _), ?_, ?_⟩
  · rw [pendingSet, me_retire_regs, me_modMyCore _ (f := pendingPut g) fun _ => rfl,
      me_modMyCore _ (f := regNoted s.ctx.strand selKeeper true) fun _ => rfl]
  · rw [pendingSet, myCore_retire_mx, myCore_modMyCore, myCore_modMyCore]
    rfl

section
variable {i : Instr} {f : State → Scale → Scale} {s : State}

theorem isKeeper_iff (s : State) : isKeeper s = true ↔ s.ctx.core % 16 = 4 * (myCore s).mx.link.ky.toNat + (myCore s).mx.link.kx.toNat := by
  rw [isKeeper, decide_eq_true_eq]

theorem keeperWord_sets (hi : Issuable i s) (hphase : (myRegion s).phase ≠ .t) (hk : isKeeper s = true) (hq : RegistersQuiet s) :
    keeperWord i f s = .next (pendingSet s (f s)) := by
  refine issueWord_ok _ _ _ _ hi ((if_neg ?_).trans ?_)
  · rw [hk, Bool.or_eq_true, decide_eq_true_eq]
    exact not_or.2 ⟨hphase, Bool.false_ne_true⟩
  · rw [noteReg_of_quiet hq]
    rfl

theorem keeperWord_refuses (hl : (me s).live = true) (hd : drainPoint i s = .ok ()) (h : (myRegion s).phase = .t ∨ isKeeper s = false) :
    keeperWord i f s = .next (raise s 0x01 0 (s.ctx.word.setWidth 64) 7) := by
  by_cases hw : wellFormed i = true
  · refine issueWord_error i s (illegal s) (fun s => _) ⟨hl, hd, hw⟩ (if_pos ?_)
    rw [Bool.or_eq_true, decide_eq_true_eq, Bool.not_eq_true']
    exact h
  · exact issueWord_illFormed hl hd (Bool.eq_false_iff.2 hw)

end

theorem toNat_append_eq_add {m n : Nat} (x : BitVec m) (y : BitVec n) : (x ++ y).toNat = x.toNat * 2 ^ n + y.toNat := by
  rw [BitVec.toNat_append, ← Nat.shiftLeft_add_eq_or_of_lt y.isLt, Nat.shiftLeft_eq]

/-- The link latch as MSKGET gives it: GA, GB, their sum of nine bits, and the keeper's position (R269). -/
theorem linkWord_eq (l : Scale) :
    (l.ky ++ l.kx ++ 0#7 ++ BitVec.ofInt 9 (scaleSum l) ++ l.gb ++ l.ga).setWidth 64 = BitVec.ofNat 64
      (l.ga.toNat + 2 ^ 8 * l.gb.toNat + 2 ^ 16 * ((l.ga.toInt + l.gb.toInt) % 2 ^ 9).toNat + 2 ^ 32 * (4 * l.ky.toNat + l.kx.toNat)) := by
  refine BitVec.eq_of_toNat_eq ?_
  simp only [BitVec.toNat_setWidth, toNat_append_eq_add, BitVec.toNat_ofInt, BitVec.toNat_ofNat, scaleSum]
  refine congrArg (· % 2 ^ 64) ?_
  push_cast
  ring

/-! ### `MWAIT` (R271) -/

theorem le_clockGet_mapSet (c : Clock) {k v : Nat} (h : clockGet c k ≤ v) (e : Nat) : clockGet c e ≤ clockGet (mapSet c k v) e := by
  by_cases he : e = k
  · rw [he, clockGet, clockGet, mapGet_mapSet_same]
    exact h
  · rw [clockGet, clockGet, mapGet_mapSet_other _ _ _ _ he]

/-- Joining a clock only raises times. -/
theorem le_clockGet_clockJoin_left (a b : Clock) (e : Nat) : clockGet a e ≤ clockGet (clockJoin a b) e := by
  unfold clockJoin
  induction b generalizing a with
  | nil => exact le_rfl
  | cons x b ih =>
    rw [List.foldl_cons]
    refine le_trans ?_ (ih _)
    split
    next hlt => exact le_clockGet_mapSet a hlt.le e
    next => exact le_rfl

theorem le_clockGet_clockJoin_right (a b : Clock) (e : Nat) : clockGet b e ≤ clockGet (clockJoin a b) e := by
  induction b generalizing a with
  | nil => exact Nat.zero_le _
  | cons x b ih =>
    obtain ⟨k, v⟩ := x
    have hjoin : clockJoin a ((k, v) :: b) = clockJoin (if clockGet a k < v then mapSet a k v else a) b := rfl
    rw [hjoin]
    by_cases he : e = k
    · have hv : clockGet ((k, v) :: b) e = v := by rw [he, clockGet, mapGet?, if_pos rfl, Option.getD_some]
      rw [hv]
      refine le_trans ?_ (le_clockGet_clockJoin_left _ b e)
      split
      next => rw [he, clockGet, mapGet_mapSet_same, Option.getD_some]
      next hlt => rw [he]; exact Nat.le_of_not_lt hlt
    · have hrest : clockGet ((k, v) :: b) e = clockGet b e := by rw [clockGet, clockGet, mapGet?, if_neg he]
      rw [hrest]
      exact ih _

end Sys2Proof.Machine
end

section
/-! PROOFS. MWAIT, the bound and view registers and the specialiser's back-map (R192 to R194, R271, R278). -/

namespace Sys2Proof.Machine

open Sys2Proof.Safety

/-! ### `MWAIT` (R271) -/

theorem issueWord_drain_error {i : Instr} {s : State} {e : Stop} (f : State → Except Stop State) (hl : (me s).live = true)
    (hd : drainPoint i s = .error e) : issueWord i s f = .next (stopWord s e) := by
  rw [issueWord, if_pos hl, hd]

theorem drainPoint_mwait_of_inFlight {s : State} (hmode : (me s).trap.status.getLsbD 0 = false) (hf : inFlightOf (me s) none = true) :
    drainPoint .mwait s = .error (.wait .stall) := by
  have hdrain : drain s none = .error (.wait .stall) := by rw [drain, if_neg (Bool.eq_false_iff.1 hmode), if_pos hf]
  exact hdrain

/-- The strand ordered after its settled matrix commands. -/
def joinMatrixClock (t : Strand) : Strand := { t with clock := clockJoin t.clock t.mxClock }

theorem exec_mwait (s : State) :
    exec .mwait s = issueWord .mwait s fun s =>
      if (myCore s).mq.any fun c => c.strand = s.ctx.strand then .error (.wait (.engine (myCore s).settled))
      else .ok (retire (modMe s joinMatrixClock)) := by rfl

theorem after_mwait (s : State) :
    Kept s (retire (modMe s joinMatrixClock)) ∧ (me (retire (modMe s joinMatrixClock))).regs = (me s).regs ∧
      CoreRegistersSame s (retire (modMe s joinMatrixClock)) ∧
      (me (retire (modMe s joinMatrixClock))).clock = clockJoin (me s).clock (me s).mxClock := by
  have hme : me (modMe s joinMatrixClock) = joinMatrixClock (me s) := me_modMe _ _
  have hregs : (me (retire (modMe s joinMatrixClock))).regs = (me s).regs := by rw [me_retire_regs, hme]; rfl
  have htrap : (me (retire (modMe s joinMatrixClock))).trap = (me s).trap := by rw [me_retire_trap, hme]; rfl
  have hclock := congrArg Strand.clock (plain_retire (d := 0#5) (modMe s joinMatrixClock)).mine.rest
  rw [hme] at hclock
  have honly : OnlyMyStrand s (retire (modMe s joinMatrixClock)) :=
    onlyMyStrand_trans (modMe_ctx s _) (modMe_onlyMyStrand s _) (retire_onlyMyStrand _)
  have hinside : Inside s (retire (modMe s joinMatrixClock)) := inside_of_onlyMyStrand (retire_ctx _) honly
  obtain ⟨-, -, -, -, -, hcore⟩ := honly
  exact ⟨⟨hinside, htrap, by rw [hregs], by rw [hregs]⟩, hregs, hcore, hclock⟩

/-! ### `EBSET` and `EBGET` (R278) -/

/-- A bound or view register written. -/
def ebPut (r : BitVec 5) (v : Word) (x : Core) : Core :=
  if r.toNat < 16 then { x with eb := x.eb.set (r.toNat % 16) v (Nat.mod_lt _ (by decide)) }
  else { x with sv := x.sv.set (r.toNat % 8) (v &&& 0x3FF80#64) (Nat.mod_lt _ (by decide)) }

theorem strands_ebPut (r : BitVec 5) (v : Word) (x : Core) : (ebPut r v x).strands = x.strands := by
  unfold ebPut; split <;> rfl

theorem eb_ebPut (r : BitVec 5) (v : Word) (x : Core) (k : Fin 16) : (ebPut r v x).eb[k] = if r.toNat = k then v else x.eb[k] := by
  unfold ebPut
  split
  next h =>
    simp only [Fin.getElem_fin, Vector.getElem_set, Nat.mod_eq_of_lt h]
  next h => exact (if_neg fun he : r.toNat = k => h (he ▸ k.isLt)).symm

theorem sv_ebPut {r : BitVec 5} (hr : r.toNat < 24) (v : Word) (x : Core) (k : Fin 8) :
    (ebPut r v x).sv[k] = if r.toNat = 16 + k then v &&& 0x3FF80#64 else x.sv[k] := by
  have hk := k.isLt
  unfold ebPut
  split
  next h =>
    have hne : ¬r.toNat = 16 + k.val := by omega
    exact (if_neg hne).symm
  next h =>
    have hiff : r.toNat % 8 = k.val ↔ r.toNat = 16 + k.val := by omega
    simp only [Fin.getElem_fin, Vector.getElem_set, hiff]

/-- The bound and view registers after EBSET. -/
def ebState (r : BitVec 5) (v : Word) (s : State) : State := modMyCore (modMyCore s (regNoted s.ctx.strand (ebSel r) true)) (ebPut r v)

section
variable {a d r : BitVec 5} {s : State}

theorem exec_ebset (hi : Issuable (.ebset a r) s) (hq : RegistersQuiet s) :
    exec (.ebset a r) s = .next (retire (ebState r (readS s a) s)) := by
  refine issueWord_ok _ _ _ (fun s => _) hi ?_
  rw [noteReg_of_quiet hq]
  rfl

/-- The core's bound and view registers are no strand's. -/
theorem myCore_retire_eb (s : State) : (myCore (retire s)).eb = (myCore s).eb ∧ (myCore (retire s)).sv = (myCore s).sv := by
  have h := restOf_myCore_of_onlyMyStrand (retire_ctx s) (retire_onlyMyStrand s)
  have heb := congrArg Core.eb h
  have hsv := congrArg Core.sv h
  exact ⟨heb, hsv⟩

theorem after_ebset (v : Word) :
    Kept s (retire (ebState r v s)) ∧ (me (retire (ebState r v s))).regs = (me s).regs ∧
      (myCore (retire (ebState r v s))).eb = (ebPut r v (myCore s)).eb ∧ (myCore (retire (ebState r v s))).sv = (ebPut r v (myCore s)).sv := by
  have hnoted : Kept s (modMyCore s (regNoted s.ctx.strand (ebSel r) true)) := kept_modMyCore s fun _ => rfl
  have hput := kept_modMyCore (modMyCore s (regNoted s.ctx.strand (ebSel r) true)) (f := ebPut r v) (strands_ebPut r v)
  have hcore : myCore (ebState r v s) = ebPut r v (regNoted s.ctx.strand (ebSel r) true (myCore s)) := by
    rw [ebState, myCore_modMyCore, myCore_modMyCore]
  obtain ⟨heb, hsv⟩ := myCore_retire_eb (ebState r v s)
  refine ⟨kept_trans (kept_trans hnoted hput) (kept_retire _), ?_, ?_, ?_⟩
  · rw [me_retire_regs, ebState, me_modMyCore _ (strands_ebPut r v), me_modMyCore _ (f := regNoted s.ctx.strand (ebSel r) true) fun _ => rfl]
  · rw [heb, hcore]
    unfold ebPut
    split <;> rfl
  · rw [hsv, hcore]
    unfold ebPut
    split <;> rfl

/-- What EBGET reads. -/
def ebValue (r : BitVec 5) (x : Core) : Word :=
  if r.toNat < 16 then ebRead r.toNat (x.eb[r.toNat % 16]'(Nat.mod_lt _ (by decide))) else x.sv[r.toNat % 8]'(Nat.mod_lt _ (by decide))

theorem ebValue_bound {x : Core} {k : Fin 16} (hk : r.toNat = k) :
    ebValue r x = if r.toNat = 14 then x.eb[k] &&& 0x0000FFFFFFFF0F77#64 else x.eb[k] := by
  have hlt : r.toNat < 16 := hk ▸ k.isLt
  simp only [ebValue, if_pos hlt, ebRead, Nat.mod_eq_of_lt hlt, Fin.getElem_fin, ← hk]

theorem ebValue_view {x : Core} {k : Fin 8} (hk : r.toNat = 16 + k) : ebValue r x = x.sv[k] := by
  have hlt : ¬r.toNat < 16 := by omega
  have hmod : r.toNat % 8 = k := by omega
  simp only [ebValue, if_neg hlt, Fin.getElem_fin, hmod]

theorem exec_ebget_eq : exec (.ebget d r) s = issueWord (.ebget d r) s fun s =>
    .ok (retire (writeS (noteRegs s [(ebSel r, false)]) d (ebValue r (myCore (noteRegs s [(ebSel r, false)]))))) := by rfl

theorem exec_ebget (hi : Issuable (.ebget d r) s) (hq : RegistersQuiet s) :
    exec (.ebget d r) s =
      .next (retire (writeS (modMyCore s (regNoted s.ctx.strand (ebSel r) false)) d (ebValue r (myCore s)))) := by
  rw [exec_ebget_eq]
  refine issueWord_ok _ _ _ _ hi ?_
  rw [noteRegs_of_quiet hq, myCore_modMyCore]
  rfl

/-- What EBGET leaves: its destination has the register's value. -/
theorem after_ebget (v : Word) :
    let u := modMyCore s (regNoted s.ctx.strand (ebSel r) false)
    let t := retire (writeS u d v)
    Kept s t ∧ ScalarsSameBut d s t ∧ (d ≠ 0#5 → newS t d = v) ∧ (myCore t).eb = (myCore s).eb ∧ (myCore t).sv = (myCore s).sv := by
  intro u t
  have hme : me u = me s := me_modMyCore s fun _ => rfl
  have hcore : myCore u = regNoted s.ctx.strand (ebSel r) false (myCore s) := myCore_modMyCore _ _
  have hplain : Plain d u t := plain_retire_writeS u v
  have hscalars := hplain.mine.scalars
  rw [hme] at hscalars
  have hrest := restOf_myCore_of_onlyMyStrand hplain.ctx hplain.only
  have heb := congrArg Core.eb hrest
  have hsv := congrArg Core.sv hrest
  change (myCore t).eb = (myCore u).eb at heb
  change (myCore t).sv = (myCore u).sv at hsv
  rw [hcore] at heb hsv
  refine ⟨kept_trans (kept_modMyCore s (f := regNoted s.ctx.strand (ebSel r) false) fun _ => rfl) (kept_of_plain hplain), hscalars, fun hd => ?_, heb, hsv⟩
  rw [newS, me_retire_regs, me_writeS]
  exact putS_s_same _ _ _ hd

end

/-! ### `SBMAP` (R194) -/

theorem extractLsb'_high_eq_zero_iff (x : Word) : x.extractLsb' 18 46 = 0#46 ↔ x.toNat < 2 ^ 18 := by
  have hx := x.isLt
  rw [← BitVec.toNat_inj, BitVec.extractLsb'_toNat, Nat.shiftRight_eq_div_pow, BitVec.toNat_ofNat]
  omega

/-- The word a code address lies in. -/
theorem toNat_and_not_three (y : TcmAddr) : (y &&& ~~~3#18).toNat = y.toNat / 4 * 4 := by
  have hmask : ∀ j < 18, (~~~3#18 : TcmAddr).getLsbD j = decide (2 ≤ j) := by decide
  have hword : y &&& ~~~3#18 = BitVec.ofNat 18 (y.toNat / 4 * 4) := by
    refine BitVec.eq_of_getLsbD_eq fun j hj => ?_
    have hbit : (y.toNat / 4 * 4).testBit j = (decide (2 ≤ j) && y.toNat.testBit j) := by
      rw [show y.toNat / 4 * 4 = (y.toNat / 2 ^ 2) * 2 ^ 2 from rfl, Nat.testBit_mul_two_pow, Nat.testBit_div_two_pow]
      by_cases h2 : 2 ≤ j
      · rw [Nat.sub_add_cancel h2]
      · simp [h2]
    rw [BitVec.getLsbD_and, hmask j hj, BitVec.getLsbD_ofNat, hbit, decide_eq_true hj, Bool.true_and, Bool.and_comm]
    rfl
  have hy := y.isLt
  rw [hword, BitVec.toNat_ofNat]
  omega

/-- The loaded code of the core's routine that holds an offset. -/
def HoldsCode (s : State) (off : Nat) (c : LoadedCode) : Prop :=
  c.routine = (myCore s).routine ∧ c.loadAddr ≤ off ∧ off < c.loadAddr + 4 * c.words.length

/-- The back-map's answer as a word. -/
def mapAnswer (rout idx off : Nat) : Word := BitVec.ofNat 64 (rout % 2 ^ 16 * 2 ^ 32 + idx % 2 ^ 12 * 2 ^ 20 + off % 2 ^ 20)

section
variable {s : State} {z : Word}

theorem sbmapValue_beyond (h : 2 ^ 18 ≤ z.toNat) : sbmapValue s z = 0x0000FFFF00000000#64 := by
  refine if_pos fun hz => ?_
  rw [extractLsb'_high_eq_zero_iff] at hz
  exact absurd hz (Nat.not_lt.2 h)

/-- The code address that SBMAP looks up. -/
def codeWord (z : Word) : TcmAddr := z.setWidth 18 &&& ~~~3#18

theorem toNat_codeWord (h : z.toNat < 2 ^ 18) : (codeWord z).toNat = z.toNat / 4 * 4 := by
  rw [codeWord, toNat_and_not_three, BitVec.toNat_setWidth, Nat.mod_eq_of_lt h]

theorem sbmapValue_inside (h : z.toNat < 2 ^ 18) :
    sbmapValue s z = mapAnswer (backMap s s.ctx.core (codeWord z)).1 (backMap s s.ctx.core (codeWord z)).2.2
      (backMap s s.ctx.core (codeWord z)).2.1 :=
  if_neg (not_not_intro ((extractLsb'_high_eq_zero_iff z).2 h))

theorem holdsCode_iff (s : State) (e : TcmAddr) (c : LoadedCode) :
    (c.routine = (myCore s).routine && c.loadAddr ≤ e.toNat && e.toNat < c.loadAddr + 4 * c.words.length) = true ↔ HoldsCode s e.toNat c := by
  simp only [Bool.and_eq_true, decide_eq_true_eq, and_assoc, HoldsCode]

theorem backMap_of_none {e : TcmAddr} (h : ∀ c ∈ (myRegion s).code, ¬HoldsCode s e.toNat c) :
    backMap s s.ctx.core e = (0xFFFF, e.toNat / 4, 0) := by
  have hfind : (myRegion s).code.find? (fun c => c.routine = (myCore s).routine && c.loadAddr ≤ e.toNat && e.toNat < c.loadAddr + 4 * c.words.length)
      = none := List.find?_eq_none.2 fun c hc hp => h c hc ((holdsCode_iff s e c).1 hp)
  rw [myRegion, myCore] at hfind
  rw [backMap, hfind]

/-- The entry for a code that holds the address. -/
def mapEntry (c : LoadedCode) (i : Nat) : Nat × Nat × Nat :=
  if c.specialised then (c.routine, ((c.backMap[i]?).getD 0#32).toNat % 2 ^ 20, ((c.backMap[i]?).getD 0#32).toNat / 2 ^ 20) else (c.routine, i, 0)

theorem backMap_of_one {e : TcmAddr} {c : LoadedCode} (hone : (myRegion s).code = [c]) (h : HoldsCode s e.toNat c) :
    backMap s s.ctx.core e = mapEntry c ((e.toNat - c.loadAddr) / 4) := by
  have hfind : (myRegion s).code.find? (fun c => c.routine = (myCore s).routine && c.loadAddr ≤ e.toNat && e.toNat < c.loadAddr + 4 * c.words.length)
      = some c := by rw [hone]; exact List.find?_cons_of_pos ((holdsCode_iff s e c).2 h)
  rw [myRegion, myCore] at hfind
  rw [backMap, hfind]
  rfl

end

theorem exec_sbmap (d a : BitVec 5) {s : State} (hl : (me s).live = true) :
    exec (.sbmap d a) s = .next (retire (writeS s d (sbmapValue s (readS s a)))) := by
  unfold exec
  exact issueWord_ok _ _ _ _ ⟨hl, rfl, rfl⟩ rfl

theorem exec_mskget_eq (d : BitVec 5) (s : State) : exec (.mskget d) s = issueWord (.mskget d) s fun s =>
    .ok (retire (writeS s d (((myCore s).mx.link.ky ++ (myCore s).mx.link.kx ++ 0#7 ++ BitVec.ofInt 9 (scaleSum (myCore s).mx.link) ++
      (myCore s).mx.link.gb ++ (myCore s).mx.link.ga).setWidth 64))) := by rfl

theorem exec_mskget (d : BitVec 5) {s : State} (hl : (me s).live = true) :
    exec (.mskget d) s = .next (retire (writeS s d (BitVec.ofNat 64
      ((myCore s).mx.link.ga.toNat + 2 ^ 8 * (myCore s).mx.link.gb.toNat +
        2 ^ 16 * (((myCore s).mx.link.ga.toInt + (myCore s).mx.link.gb.toInt) % 2 ^ 9).toNat +
        2 ^ 32 * (4 * (myCore s).mx.link.ky.toNat + (myCore s).mx.link.kx.toNat))))) := by
  rw [← linkWord_eq, exec_mskget_eq]
  exact issueWord_ok _ _ _ _ ⟨hl, rfl, rfl⟩ rfl

/-- The pending values that MSKSET names. -/
def pendingNamed (a b : BitVec 5) (w : BitVec 2) (s : State) (p : Scale) : Scale :=
  { p with ga := if w.getLsbD 0 then (readS s a).setWidth 8 else p.ga, gb := if w.getLsbD 1 then (readS s b).setWidth 8 else p.gb }

theorem exec_mskset (a b : BitVec 5) (w : BitVec 2) (s : State) : exec (.mskset a b w) s = keeperWord (.mskset a b w) (pendingNamed a b w) s := by
  change execMskset a b w s = _
  unfold execMskset
  congr 1
  funext s p
  unfold pendingNamed
  cases w.getLsbD 0 <;> cases w.getLsbD 1 <;> rfl

theorem exec_mkeep (y x : BitVec 2) (s : State) :
    exec (.mkeep y x) s = keeperWord (.mkeep y x) (fun _ p => { p with ky := y, kx := x }) s := by rfl

/-- Settles O45, word by word. -/
theorem coreRegisterWordsComplete : Obligations.CoreRegisterWordsComplete := by
  intro a b d w y x r cnd pr s hl l old keeper kept pending
  have hkept : ∀ {t}, Kept s t → kept t := fun h => ⟨h.inside.mem, h.trap, h.inside.outside, h.v, h.k⟩
  have hsets : ∀ {i : Instr} {f : State → Scale → Scale}, exec i s = keeperWord i f s → Issuable i s → RegistersQuiet s →
      (myRegion s).phase ≠ .t → keeper → pending i (f s old) := by
    intro i f hexec hi hq hphase hk
    obtain ⟨hkeep, hregs, hmx⟩ := kept_pendingSet s (f s)
    exact ⟨_, hexec.trans (keeperWord_sets hi hphase ((isKeeper_iff s).2 hk) hq), hmx, hkept hkeep, congrArg Regs.s hregs⟩
  refine ⟨fun hw hq hphase hk => ?_, fun hq hphase hk => hsets (exec_mkeep y x s) ⟨hl, rfl, rfl⟩ hq hphase hk, fun h => ?_, exec_mskget d hl,
    fun hmode hf => ?_, fun hd => ⟨?_, ?_⟩, fun hr hq => ⟨?_, ?_⟩, fun hc => ?_, ?_, ?_⟩
  · exact hsets (exec_mskset a b w s) ⟨hl, rfl, hw⟩ hq hphase hk
  · have hk : (myRegion s).phase = .t ∨ isKeeper s = false := h.imp_right fun hk => Bool.eq_false_iff.2 fun hc => hk ((isKeeper_iff s).1 hc)
    exact ⟨(exec_mkeep y x s).trans (keeperWord_refuses hl rfl hk), (exec_mskset a b w s).trans (keeperWord_refuses hl rfl hk)⟩
  · rw [exec_mwait]
    exact issueWord_drain_error _ hl (drainPoint_mwait_of_inFlight hmode hf)
  · rintro ⟨c, hc, hstrand⟩
    refine (exec_mwait s).trans (issueWord_error _ _ (.wait (.engine (myCore s).settled)) _ ⟨hl, hd, rfl⟩ (if_pos ?_))
    exact List.any_eq_true.2 ⟨c, hc, decide_eq_true hstrand⟩
  · intro hnone
    obtain ⟨hkeep, hregs, hcore, hclock⟩ := after_mwait s
    refine ⟨_, (exec_mwait s).trans (issueWord_ok _ _ _ _ ⟨hl, hd, rfl⟩ (if_neg ?_)), hkept hkeep, congrArg Regs.s hregs, hcore, fun e => ?_⟩
    · simpa using hnone
    · rw [hclock]
      exact le_clockGet_clockJoin_right _ _ e
  · obtain ⟨hkeep, hregs, heb, hsv⟩ := after_ebset (r := r) (s := s) (readS s a)
    refine ⟨_, exec_ebset ⟨hl, rfl, decide_eq_true hr⟩ hq, hkept hkeep, congrArg Regs.s hregs, fun k => ?_, fun k => ?_⟩
    · rw [heb, eb_ebPut]
    · rw [hsv, sv_ebPut hr]
  · obtain ⟨hkeep, hscalars, hnew, heb, hsv⟩ := after_ebget (d := d) (r := r) (s := s) (ebValue r (myCore s))
    refine ⟨_, exec_ebget ⟨hl, rfl, decide_eq_true hr⟩ hq, hkept hkeep, hscalars, fun k hk hne => ?_, fun k hk hne => ?_, heb, hsv⟩
    · rw [hnew hne, ebValue_bound hk]
    · rw [hnew hne, ebValue_view hk]
  · exact issueWord_ok (.sassert a b cnd) s (retire s) (fun s => .ok (retire s)) ⟨hl, rfl, decide_eq_true hc⟩ rfl
  · exact issueWord_ok (.sgrow pr) s (retire s) (fun s => .ok (retire s)) ⟨hl, rfl, rfl⟩ rfl
  · refine ⟨_, exec_sbmap d a hl, fun hz => sbmapValue_beyond hz, fun hz hnone => ?_, fun c hone hhere hz => ⟨fun hspec => ?_, fun e hspec he => ?_⟩⟩
    · rw [← toNat_codeWord hz] at hnone ⊢
      rw [sbmapValue_inside hz, backMap_of_none hnone]
      rfl
    · rw [← toNat_codeWord hz] at hhere ⊢
      rw [sbmapValue_inside hz, backMap_of_one hone hhere, mapEntry, hspec]
      rfl
    · rw [← toNat_codeWord hz] at hhere he
      rw [sbmapValue_inside hz, backMap_of_one hone hhere, mapEntry, hspec, he]
      rfl

end Sys2Proof.Machine
end

section
/-! PROOFS. Every step of the part but the words answers a next state. -/

namespace Sys2Proof.Machine

open Sys2Proof.Safety

/-- The step answers a next state. -/
def Proceeds (o : Out State) : Prop := ∃ t, o = .next t

theorem proceeds_next (t : State) : Proceeds (.next t) := ⟨t, rfl⟩

theorem proceeds_ite {c : Prop} [Decidable c] {o o' : Out State} (h : Proceeds o) (h' : Proceeds o') : Proceeds (if c then o else o') := by
  split
  · exact h
  · exact h'

/-- The test of most events: it can move, or nothing happens. -/
theorem proceeds_if_next {c : Prop} [Decidable c] {t u : State} : Proceeds (if c then .next t else .next u) :=
  proceeds_ite (proceeds_next t) (proceeds_next u)

/-- A packet's arguments are checked, and it acts or completes as malformed (R413). -/
theorem proceeds_issuePacket (p : Packet) (ok : Bool) (f : State → State) (s : State) : Proceeds (issuePacket p ok f s) := proceeds_next _

theorem proceeds_regionPacket (p : Packet) (f : Region → State → State) (s : State) : Proceeds (regionPacket p f s) := proceeds_next _

section
variable {s : State} {pkg q core region num req idx : Nat}

theorem proceeds_execIssueSlotGiveUp : Proceeds (execIssueSlotGiveUp core s) := by
  rw [execIssueSlotGiveUp]
  split
  · exact proceeds_next _
  · exact proceeds_next _

theorem proceeds_execFaultRecord : Proceeds (execFaultRecord pkg s) := by
  rw [execFaultRecord]
  split
  · exact proceeds_next _
  · exact proceeds_ite (proceeds_next _) proceeds_if_next

/-! #### The T phase (R345 to R359) -/

theorem proceeds_execLockRequestEnqueue : Proceeds (execLockRequestEnqueue region num req s) := by
  rw [execLockRequestEnqueue]
  split
  · exact proceeds_next _
  · exact proceeds_if_next

theorem proceeds_execLockGrant : Proceeds (execLockGrant region num req s) := by
  rw [execLockGrant]
  split
  · exact proceeds_next _
  · exact proceeds_if_next

theorem proceeds_execTilePush : Proceeds (execTilePush region num req s) := by
  rw [execTilePush]
  split
  · exact proceeds_next _
  · refine proceeds_ite (proceeds_next _) ?_
    extract_lets -underBinder r s1
    split
    · exact proceeds_next _
    · split
      · exact proceeds_next _
      · split
        · exact proceeds_next _
        · exact proceeds_next _
        · exact proceeds_next _

theorem proceeds_execTransactionDispatch : Proceeds (execTransactionDispatch region num s) := by
  rw [execTransactionDispatch]
  split
  · exact proceeds_next _
  · exact proceeds_if_next

/-! #### The X phase (R295 to R312) -/

theorem proceeds_execPlanEntryStart : Proceeds (execPlanEntryStart core idx s) := by
  rw [execPlanEntryStart]
  split
  · exact proceeds_ite (proceeds_next _) proceeds_if_next
  · exact proceeds_next _

theorem proceeds_execSendfFlit {flit : Nat} : Proceeds (execSendfFlit core idx flit s) := by
  rw [execSendfFlit]
  split
  · exact proceeds_ite (proceeds_next _) proceeds_if_next
  · exact proceeds_next _

theorem proceeds_execFlitReceive {xfer : Nat} : Proceeds (execFlitReceive region xfer s) := by
  rw [execFlitReceive]
  split
  · exact proceeds_next _
  · exact proceeds_if_next

theorem proceeds_execContributionApply {xfer : Nat} : Proceeds (execContributionApply region xfer s) := by
  rw [execContributionApply]
  split
  · exact proceeds_next _
  · split
    · exact proceeds_next _
    · refine proceeds_ite (proceeds_next _) ?_
      extract_lets -underBinder core x set mismatch
      split
      · exact proceeds_next _
      · exact proceeds_ite (proceeds_next _) (proceeds_ite (proceeds_next _) (proceeds_ite (proceeds_next _) proceeds_if_next))

theorem proceeds_execContributionResend {xfer : Nat} : Proceeds (execContributionResend region xfer s) := by
  rw [execContributionResend]
  split
  · exact proceeds_next _
  · exact proceeds_if_next

theorem proceeds_execAcknowledgement {xfer : Nat} : Proceeds (execAcknowledgement region xfer s) := by
  rw [execAcknowledgement]
  split
  · exact proceeds_next _
  · exact proceeds_if_next

theorem proceeds_execDeferredStorePerform : Proceeds (execDeferredStorePerform region s) := by
  rw [execDeferredStorePerform]
  refine proceeds_ite ?_ (proceeds_next _)
  split
  · exact proceeds_next _
  · exact proceeds_next _

theorem proceeds_execBarrierExit : Proceeds (execBarrierExit region s) := proceeds_ite (proceeds_next _) proceeds_if_next

/-! #### Engines and atomics (R125 to R129, R222, R251, R287, R379) -/

theorem proceeds_execExchangeRound {cluster : Nat} : Proceeds (execExchangeRound cluster s) :=
  proceeds_ite (proceeds_next _) (proceeds_ite proceeds_if_next (proceeds_next _))

theorem proceeds_execVectorExecute : Proceeds (execVectorExecute core s) := by
  rw [execVectorExecute]
  split
  · exact proceeds_next _
  · split
    · exact proceeds_next _
    · exact proceeds_next _
    · exact proceeds_next _

theorem proceeds_execMatrixCommandStart : Proceeds (execMatrixCommandStart core s) := by
  rw [execMatrixCommandStart]
  split
  · exact proceeds_next _
  · refine proceeds_ite (proceeds_next _) (proceeds_ite proceeds_if_next ?_)
    split
    · exact proceeds_next _
    · exact proceeds_next _

theorem proceeds_execCopyCommandStart : Proceeds (execCopyCommandStart core s) := by
  rw [execCopyCommandStart]
  split
  · exact proceeds_next _
  · refine proceeds_ite (proceeds_next _) ?_
    split
    · exact proceeds_next _
    · split
      · exact proceeds_next _
      next l s1 _ =>
        generalize runCopy core _ l s1 = r
        obtain ⟨s2, res⟩ := r
        cases res with
        | none => exact proceeds_next _
        | some r => exact proceeds_next _

theorem proceeds_execSelvedgeCommandStart : Proceeds (execSelvedgeCommandStart core s) := by
  rw [execSelvedgeCommandStart]
  split
  · exact proceeds_next _
  · refine proceeds_ite (proceeds_next _) ?_
    split
    · exact proceeds_next _
    · refine proceeds_ite (proceeds_next _) ?_
      split
      · exact proceeds_next _
      · exact proceeds_next _

theorem proceeds_execNoReturnAtomicApply : Proceeds (execNoReturnAtomicApply idx s) := by
  rw [execNoReturnAtomicApply]
  split
  · exact proceeds_next _
  · exact proceeds_if_next

theorem proceeds_execAtomicReplay : Proceeds (execAtomicReplay idx s) := by
  rw [execAtomicReplay]
  split
  · exact proceeds_next _
  · exact proceeds_next _

/-! #### Launches and pre-emption (R167, R168, R428) -/

theorem proceeds_execPreemptionTake : Proceeds (execPreemptionTake region s) := by
  rw [execPreemptionTake]
  refine proceeds_ite (proceeds_next _) (proceeds_ite (proceeds_next _) ?_)
  split
  · exact proceeds_next _
  · exact proceeds_next _

theorem proceeds_execPreemptionResume : Proceeds (execPreemptionResume region s) := proceeds_ite (proceeds_next _) proceeds_if_next

theorem proceeds_execLaunchStart : Proceeds (execLaunchStart region s) := by
  rw [execLaunchStart]
  split
  · exact proceeds_next _
  · exact proceeds_ite (proceeds_next _) proceeds_if_next

theorem proceeds_execRecoveryPointValid : Proceeds (execRecoveryPointValid region s) := by
  rw [execRecoveryPointValid]
  split
  · exact proceeds_next _
  · exact proceeds_next _

/-! #### Queues and packets (R406 to R427) -/

theorem proceeds_execQclaimFetchadd {op : HostAtomic} : Proceeds (execQclaimFetchadd pkg q op s) := by
  unfold execQclaimFetchadd
  refine proceeds_ite (proceeds_next _) ?_
  split
  · exact proceeds_next _
  · exact proceeds_if_next

theorem proceeds_execDoorbellEvent : Proceeds (execDoorbellEvent pkg s) := by
  rw [execDoorbellEvent]
  split
  · exact proceeds_next _
  · exact proceeds_next _

theorem proceeds_runPacket (p : Packet) : Proceeds (runPacket p s) := by
  unfold runPacket
  split <;> exact proceeds_next _

theorem proceeds_issueHeld (p : Packet) : Proceeds (issueHeld p s) :=
  proceeds_ite (proceeds_runPacket p) (proceeds_issuePacket _ _ _ _)

theorem proceeds_execStampRecheck : Proceeds (execStampRecheck pkg q s) := by
  rw [execStampRecheck]
  split
  · exact proceeds_next _
  · exact proceeds_next _
  · exact proceeds_next _
  · exact proceeds_next _
  next p _ =>
    refine proceeds_ite (proceeds_next _) ?_
    split
    · exact proceeds_next _
    · obtain ⟨t, ht⟩ := proceeds_issueHeld p (s := modQueue s pkg q fun qu => { qu with held := none })
      rw [ht]
      exact proceeds_next _

theorem proceeds_execRegisterWrite {off : Nat} {value : Word} : Proceeds (execRegisterWrite pkg off value s) :=
  proceeds_ite (proceeds_next _) proceeds_if_next

/-! #### The host (R327 to R331, R404, R434) -/

theorem proceeds_execPageRequestResponse {pasid : BitVec 20} {page : Nat} {granted : Bool} :
    Proceeds (execPageRequestResponse pkg pasid page granted s) := proceeds_ite (proceeds_next _) proceeds_if_next

theorem proceeds_execPcieCompletion {what : Completion} : Proceeds (execPcieCompletion pkg what s) := by
  cases what with
  | atsTranslation => exact proceeds_ite (proceeds_next _) proceeds_if_next
  | postedAck => exact proceeds_if_next
  | hostData => exact proceeds_if_next

end

/-- Every step of the part but the words answers a next state: most test whether they can move, and the rest case by case. -/
theorem proceeds_exec_event {i : Instr} (hi : isEvent i = true) (s : State) : Proceeds (exec i s) := by
  unfold exec
  cases i with
  | firmwareFlush | throttleBubble | pasidTeardown | atsInvalidation | halt | dbgResume | dbgStep | rdreg | wrreg | rdtcm | wrtcm | brken
  | thermalTrip | eccCorrection | linkReplay | uncorrectableError | deviceReset => exact proceeds_next _
  | cDone | cClose | tClose | collectiveIncomplete | requestVote | preemptTimeout | parkTimeout | queueEnable | queueDisable | qtailWrite
  | hostWindowWrite => exact proceeds_if_next
  | nop | launch | hosttx | indirect | region | inval | evict | signal | destroy => exact proceeds_issuePacket _ _ _ _
  | kill | suspend | resume => exact proceeds_regionPacket _ _ _
  | issueSlotGiveUp => exact proceeds_execIssueSlotGiveUp
  | faultRecord => exact proceeds_execFaultRecord
  | lockRequestEnqueue => exact proceeds_execLockRequestEnqueue
  | lockGrant => exact proceeds_execLockGrant
  | tilePush => exact proceeds_execTilePush
  | transactionDispatch => exact proceeds_execTransactionDispatch
  | planEntryStart => exact proceeds_execPlanEntryStart
  | sendfFlit => exact proceeds_execSendfFlit
  | flitReceive => exact proceeds_execFlitReceive
  | contributionApply => exact proceeds_execContributionApply
  | contributionResend => exact proceeds_execContributionResend
  | acknowledgement => exact proceeds_execAcknowledgement
  | deferredStorePerform => exact proceeds_execDeferredStorePerform
  | barrierExit => exact proceeds_execBarrierExit
  | exchangeRound => exact proceeds_execExchangeRound
  | vectorExecute => exact proceeds_execVectorExecute
  | matrixCommandStart => exact proceeds_execMatrixCommandStart
  | copyCommandStart => exact proceeds_execCopyCommandStart
  | selvedgeCommandStart => exact proceeds_execSelvedgeCommandStart
  | noReturnAtomicApply => exact proceeds_execNoReturnAtomicApply
  | atomicReplay => exact proceeds_execAtomicReplay
  | preemptionTake => exact proceeds_execPreemptionTake
  | preemptionResume => exact proceeds_execPreemptionResume
  | launchStart => exact proceeds_execLaunchStart
  | qclaimFetchadd => exact proceeds_execQclaimFetchadd
  | doorbellEvent => exact proceeds_execDoorbellEvent
  | stampRecheck => exact proceeds_execStampRecheck
  | registerWrite => exact proceeds_execRegisterWrite
  | pageRequestResponse => exact proceeds_execPageRequestResponse
  | pcieCompletion => exact proceeds_execPcieCompletion
  | recoveryPointValid => exact proceeds_execRecoveryPointValid
  | _ => exact absurd hi Bool.false_ne_true

end Sys2Proof.Machine
end

section
/-! PROOFS. No step stops (R19, R26, R75): a live strand's words, the other steps of the part, and the machine's step. -/

namespace Sys2Proof.Machine

open Sys2Proof.Safety

/-! ### Instructions -/

theorem exec_of_word_not_live {i : Instr} (hi : IsWord i) {s : State} (hl : (me s).live = false) : exec i s = .fault .noStrand := by
  obtain ⟨f, hf⟩ := issuedAs_exec hi s
  rw [hf, issueWord, if_neg (Bool.eq_false_iff.1 hl)]

/-- What is no word is a step of the part, or the trap of a fetch. -/
theorem isEvent_or_illegalInstruction {i : Instr} (hi : ¬IsWord i) : isEvent i = true ∨ ∃ why, i = .illegalInstruction why := by
  cases i with
  | illegalInstruction why => exact .inr ⟨why, rfl⟩
  | _ => exact .inl (Option.isNone_iff_eq_none.2 (Option.not_isSome_iff_eq_none.1 hi))

/-- A live strand's instruction answers. -/
theorem proceeds_exec_of_live {s : State} (hl : (me s).live = true) (i : Instr) : Proceeds (exec i s) := by
  by_cases hi : IsWord i
  · obtain ⟨f, hf⟩ := issuedAs_exec hi s
    rw [hf]
    exact issueWord_next_of_live i s f hl
  · rcases isEvent_or_illegalInstruction hi with he | ⟨why, rfl⟩
    · exact proceeds_exec_event he s
    · unfold exec
      exact ⟨_, if_pos hl⟩

/-! ### Fetch -/

/-- The issuing strand and its life are as they were. -/
def SameIssuer (s t : State) : Prop := t.ctx = s.ctx ∧ (me t).live = (me s).live

theorem sameIssuer_trans {s t u : State} (h1 : SameIssuer s t) (h2 : SameIssuer t u) : SameIssuer s u :=
  ⟨h2.1.trans h1.1, h2.2.trans h1.2⟩

theorem sameIssuer_of_codeRead {s t : State} (h : CodeRead s t) : SameIssuer s t := by
  obtain ⟨-, -, -, hctx, hme, -⟩ := h
  exact ⟨hctx, by rw [hme]⟩

theorem sameIssuer_modMyCore (s : State) {f : Core → Core} (hf : ∀ x, (f x).strands = x.strands) : SameIssuer s (modMyCore s f) :=
  ⟨rfl, by rw [me_modMyCore s hf]⟩

theorem sameIssuer_fetchWord (s : State) (a : Nat) : SameIssuer s (fetchWord s s.ctx.core s.ctx.strand a).2 := by
  cases hheld : (getCore s s.ctx.core).fetched.find? fun f => f.1 = s.ctx.strand.val && f.2.1 = a with
  | some f =>
    rw [fetchWord_of_held hheld]
    exact ⟨rfl, rfl⟩
  | none =>
    rw [fetchWord_of_not_held hheld]
    have hread : SameIssuer s (codeLoad s s.ctx.core s.ctx.strand a).2 := sameIssuer_of_codeRead (codeRead_loadAt rfl 4)
    generalize codeLoad s s.ctx.core s.ctx.strand a = r at hread ⊢
    refine sameIssuer_trans hread ?_
    dsimp only
    rw [← hread.1]
    exact sameIssuer_modMyCore r.2 fun _ => rfl

theorem sameIssuer_fetchIssue (s : State) : SameIssuer s (fetchIssue s s.ctx.core s.ctx.strand).2 := by
  have hself : SameIssuer s s := ⟨rfl, rfl⟩
  have hfirst := sameIssuer_fetchWord s (coreStrand (getCore s s.ctx.core) s.ctx.strand).pc.toNat
  rw [fetchIssue]
  generalize fetchWord s s.ctx.core s.ctx.strand (coreStrand (getCore s s.ctx.core) s.ctx.strand).pc.toNat = f at hfirst ⊢
  obtain ⟨w, s1⟩ := f
  dsimp only at hfirst ⊢
  have hsecond := sameIssuer_fetchWord s1 ((coreStrand (getCore s s.ctx.core) s.ctx.strand).pc.toNat + 4)
  rw [hfirst.1] at hsecond
  split
  · exact hself
  · split
    · exact hself
    · split
      · exact hfirst
      · split
        · exact hfirst
        · split
          · exact hfirst
          · exact sameIssuer_trans hfirst hsecond

theorem live_me_setCtx (s : State) (slot : Slot) (pc last : TcmAddr) (w : Word32) (snap : Option Regs) :
    (me (setCtx s slot pc last w snap)).live = (me s).live := rfl

/-! ### What a strand issues -/

section
variable {s : State} (hl : (me s).live = true)
include hl

theorem proceeds_runPairWords (pc : TcmAddr) (c a : Word32) (ic ia : Instr) : Proceeds (runPairWords s pc c a ic ia) := by
  obtain ⟨u, hu⟩ := proceeds_exec_of_live (s := setCtx s .cslot pc (pc + 4#18) c (some (me s).regs)) hl ic
  obtain ⟨v, hv⟩ := proceeds_exec_of_live (s := setCtx s .aslot pc (pc + 4#18) a (some (me s).regs)) hl ia
  rw [runPairWords, hu, hv]
  refine proceeds_ite (proceeds_next _) (proceeds_ite (proceeds_next _) ?_)
  cases hlu : (me u).live with
  | false => exact proceeds_next _
  | true =>
    obtain ⟨r, hr⟩ := proceeds_exec_of_live (s := setCtx u .aslot pc (pc + 4#18) a (some (me s).regs)) hlu ia
    rw [hr]
    refine proceeds_ite (proceeds_next _) ?_
    dsimp only
    split
    · exact proceeds_next _
    · exact proceeds_next _
    · exact proceeds_ite (proceeds_next _) (proceeds_next _)

theorem proceeds_runPair (pc : TcmAddr) (c a : Word32) (ic ia : Instr) : Proceeds (runPair s pc c a ic ia) := by
  rw [runPair]
  split
  · exact proceeds_next _
  · exact proceeds_next _
  · exact proceeds_ite (proceeds_next _) (proceeds_ite (proceeds_next _) (proceeds_runPairWords hl pc c a ic ia))

theorem proceeds_runReplay : Proceeds (runReplay s) := by
  have hexec : ∀ i, Proceeds (exec i (replayCtx s)) := proceeds_exec_of_live (s := replayCtx s) hl
  rw [runReplay]
  split
  · exact hexec _
  next d _ =>
    obtain ⟨u, hu⟩ := hexec d.instr
    rw [hu]
    exact proceeds_next _

theorem proceeds_runFetched : Proceeds (runFetched s) := by
  have hfetch := sameIssuer_fetchIssue s
  rw [runFetched]
  generalize fetchIssue s s.ctx.core s.ctx.strand = r at hfetch ⊢
  obtain ⟨issue, s1⟩ := r
  have hl1 : (me s1).live = true := hfetch.2.trans hl
  cases issue with
  | lone w i => exact proceeds_exec_of_live (s := setCtx s1 .lone (me s).pc (me s).pc w none) hl1 i
  | pair c a ic ia => exact proceeds_runPair hl1 _ c a ic ia
  | bad why slotA => exact proceeds_exec_of_live (s := setCtx s1 (if slotA then .aslot else .lone) (me s).pc (me s).pc 0 none) hl1 _

theorem proceeds_spendOver : Proceeds (spendOver s) := by
  have hspend : ∀ i t, Proceeds (spendWord i t) := by
    intro i t
    unfold spendWord
    split
    · exact proceeds_next _
    · exact proceeds_next _
  have hfetched := proceeds_runFetched hl
  rw [spendOver]
  refine proceeds_ite ?_ ?_
  · split
    · exact proceeds_runReplay hl
    · exact hspend _ _
  · generalize fetchIssue s s.ctx.core s.ctx.strand = r
    obtain ⟨issue, s1⟩ := r
    cases issue with
    | lone w i => exact hspend _ _
    | pair c a ic ia =>
      dsimp only
      split
      · exact proceeds_next _
      · exact proceeds_next _
      · exact proceeds_ite (proceeds_next _) (proceeds_ite (proceeds_next _) (proceeds_next _))
    | bad why slotA => exact hfetched

end

/-! ### The machine's step -/

/-- The strand at its boundary, live, answers. -/
theorem proceeds_issueAt {s : State} {core : Nat} {n : Fin 4} (hl : (getStrand s core n).live = true) : Proceeds (issueAt s core n) := by
  have hl0 : (me (atBoundary s core n)).live = true := by rw [me_atBoundary]; exact hl
  unfold issueAt
  extract_lets x t y c s0 o
  refine proceeds_ite (proceeds_next _) (proceeds_ite (proceeds_next _) ?_)
  have ho : Proceeds o := proceeds_ite (proceeds_spendOver hl0) (proceeds_ite (proceeds_runReplay hl0) (proceeds_runFetched hl0))
  clear_value o
  obtain ⟨u, rfl⟩ := ho
  exact proceeds_next _

theorem live_of_nextStrand {s : State} {core : Nat} {n : Fin 4} (h : nextStrand s core = some n) : (getStrand s core n).live = true := by
  have hcan : canIssue s core n = true := List.find?_some h
  rw [canIssue] at hcan
  simp only [Bool.and_eq_true] at hcan
  obtain ⟨⟨⟨⟨hlive, -⟩, -⟩, -⟩, -⟩ := hcan
  exact hlive

theorem live_of_nextIssue {s : State} {core : Nat} {n : Fin 4} (h : nextIssue s = some (core, n)) : (getStrand s core n).live = true := by
  have htry : ∀ l : List (Nat × Core), l.findSome? (fun e => (nextStrand s e.1).map fun m => (e.1, m)) = some (core, n) →
      (getStrand s core n).live = true := by
    intro l hl
    obtain ⟨e, -, he⟩ := List.exists_of_findSome?_eq_some hl
    obtain ⟨m, hm, heq⟩ := Option.map_eq_some_iff.1 he
    cases heq
    exact live_of_nextStrand hm
  rw [nextIssue] at h
  split at h
  next r hr => exact htry _ (hr.trans h)
  · exact htry _ h

/-- An event chosen because it changes the state answers one. -/
theorem proceeds_of_progresses {s : State} {i : Instr} (h : progresses s i = true) : Proceeds (exec i s) := by
  rw [progresses] at h
  split at h
  next t ht => exact ⟨t, ht⟩
  · cases h

theorem proceeds_runHeld (s u : State) : Proceeds (runHeld s u) := by
  rw [runHeld]
  split
  next i hi => exact proceeds_of_progresses (List.find?_some hi)
  · exact proceeds_next u

theorem proceeds_runNext (s : State) : Proceeds (runNext s) := by
  rw [runNext]
  split
  next i hi => exact proceeds_of_progresses (List.find?_some hi)
  · split
    next core n hn =>
      obtain ⟨u, hu⟩ := proceeds_issueAt (live_of_nextIssue hn)
      rw [hu]
      exact proceeds_ite (proceeds_runHeld s u) (proceeds_next u)
    · exact proceeds_runHeld s s

theorem proceeds_runMove (s : State) (m : Move) : Proceeds (runMove s m) := by
  cases m with
  | event i =>
    rw [runMove]
    split
    next hi => exact proceeds_exec_event hi s
    · exact proceeds_next s
  | issue core =>
    rw [runMove]
    split
    next n hn => exact proceeds_issueAt (live_of_nextStrand hn)
    · exact proceeds_next s
  | hold => exact proceeds_next _
  | slice => exact proceeds_next _

/-- Settles O6: a live strand's instruction and every event answer, and a step issues for live strands alone. -/
theorem noStepStops : Obligations.NoStepStops := by
  refine ⟨fun i s => ⟨fun h => h.elim (fun hl => proceeds_exec_of_live hl i) fun hi => proceeds_exec_event hi s, fun hi hl => ?_⟩, fun s => ?_⟩
  · exact exec_of_word_not_live hi hl
  · rw [Machine.step]
    split
    · exact proceeds_runMove _ _
    · exact proceeds_runNext s

end Sys2Proof.Machine
end

section
/-! PROOFS. Pre-emption taken by a core whose first listing no region holds. -/

namespace Sys2Proof.Machine
open Sys2Proof.Safety

/-- A core that no region holds, with a pre-emption handler and a save area its entries fit. -/
def freeCore : Core :=
  { Core.idle 0 0 with handler := 0x10000#64, saveArea := 0x2000#64, guardHi := 0x3FF00#64 }

/-- Core 0 listed twice: the listing that counts is free, the other is held by region 0, which has to give way. -/
def twiceListed : State :=
  { State.reset with
    cores := [(0, freeCore), (0, { freeCore with region := some 0 })]
    regions := [{ Region.idle Rcb.zero with state := .running, preemptReq := true, phase := .c }] }

theorem takers_twiceListed : takers twiceListed (getRegion twiceListed 0) = [0] := by decide

theorem heldCores_twiceListed : heldCores twiceListed 0 = [0] := by decide

theorem canKill_twiceListed : canKill twiceListed (getRegion twiceListed 0) = false := by decide

theorem canSpill_twiceListed : canSpill twiceListed (getRegion twiceListed 0) = false := by decide

theorem freeCore_enters (n : Fin 4) : entryFits freeCore (coreStrand freeCore n) cPreempt = true := by
  revert n
  decide

/-! ### A free core takes nothing -/

theorem foldl_preemptStrand_of_none_live {s : State} {core : Nat} (h : ∀ n, (getStrand s core n).live = false) (l : List (Fin 4)) :
    l.foldl (preemptStrand core) s = s := by
  induction l with
  | nil => rfl
  | cons n l ih => simpa [preemptStrand, h n] using ih

/-- The mark of R167 is left out where no region holds the core, as after an entry that kills. -/
theorem getCore_preemptCore_of_free {s : State} {core : Nat} (hl : ∀ n, (getStrand s core n).live = false)
    (hr : (getCore s core).region = none) : getCore (preemptCore s core) core = getCore s core := by
  simp [preemptCore, foldl_preemptStrand_of_none_live hl, hr]

theorem exec_preemptionTake_twiceListed :
    ∃ u, exec (.preemptionTake 0) twiceListed = .next u ∧ (getCore u 0).taken = false := by
  refine ⟨preemptCore
    (modRegion twiceListed 0 fun r => { (if r.phase = .t then withdrawAll r else r) with preempting := true }) 0, ?_, ?_⟩
  · show execPreemptionTake 0 twiceListed = _
    simp [execPreemptionTake, canKill_twiceListed, canSpill_twiceListed, takers_twiceListed]
  · rw [getCore_preemptCore_of_free (by decide) (by rfl)]
    rfl

/-- Refutes O60, at the clause on a pre-emption that cores take. `twiceListed` lists core 0 twice: first free, and so the core is read, then
as held by the region that has to give way. The region holds the core once, which is what the clause supposes, and finds it at its point,
but taking marks only cores that a region holds. `mapSet` keeps one listing of each core; the statement does not suppose it of the state. -/
theorem not_preemptionPowerAndRecoveryRun : ¬ Obligations.PreemptionPowerAndRecoveryRun := by
  unfold Obligations.PreemptionPowerAndRecoveryRun
  intro h
  obtain ⟨hpre, -⟩ := h
  obtain ⟨-, -, -, htake, -⟩ := hpre twiceListed 0
  obtain ⟨u, hu, -, -, htaken⟩ := htake canKill_twiceListed canSpill_twiceListed (by simp [takers_twiceListed])
    (by simp [heldCores_twiceListed]) fun c hc => by
      obtain rfl : c = 0 := by simpa [takers_twiceListed] using hc
      exact ⟨by decide, freeCore_enters⟩
  obtain ⟨v, hv, hfree⟩ := exec_preemptionTake_twiceListed
  obtain rfl : u = v := by simpa using hu.symm.trans hv
  simpa [hfree] using htaken 0 (by simp [takers_twiceListed])

end Sys2Proof.Machine
end

section
/-! PROOFS. What the accesses of the issuing strand leave (R113, R116, R117, R136 to R141, R326): the leaf marked, the access noted, bytes read
and bytes written. An effect is spoken of by `Noted` (all but memory is as after a read of code), by `Framed` (so is all but the core's own
queues and counts) and by what memory reads as. -/

namespace Sys2Proof.Machine

open Sys2Proof.Safety

/-! ### Bytes in guard granules are not written (R141) -/

/-- One byte of a store, with its place in the bytes stored. -/
def putUnguarded (r : Region) (p : Place) (m : Memory) (e : Byte × Nat) : Memory :=
  if classAt r (p.key + e.2) = 2 && (watchCode p).isSome then m else memWrite m (p.key + e.2) e.1

theorem writeGuarded_eq (m : Memory) (r : Region) (p : Place) (bs : List Byte) :
    writeGuarded m r p bs = (bs.zipIdx 0).foldl (putUnguarded r p) m := rfl

section
variable {r : Region} {p : Place}

theorem memRead_putUnguarded_other {e : Byte × Nat} {a : Nat} (h : a ≠ p.key + e.2) (m : Memory) :
    memRead (putUnguarded r p m e) a = memRead m a := by
  unfold putUnguarded
  split
  · rfl
  · exact memRead_memWrite_other _ _ _ _ h

theorem memRead_foldl_putUnguarded_other (bs : List Byte) (m : Memory) (i : Nat) {a : Nat}
    (h : a < p.key + i ∨ p.key + i + bs.length ≤ a) : memRead ((bs.zipIdx i).foldl (putUnguarded r p) m) a = memRead m a := by
  induction bs generalizing m i with
  | nil => rfl
  | cons b bs ih =>
    rw [List.length_cons] at h
    rw [List.zipIdx_cons, List.foldl_cons, ih _ _ (by omega), memRead_putUnguarded_other (by simp only; omega)]

theorem memRead_writeGuarded_other (m : Memory) (bs : List Byte) {a : Nat} (h : a < p.key ∨ p.key + bs.length ≤ a) :
    memRead (writeGuarded m r p bs) a = memRead m a :=
  memRead_foldl_putUnguarded_other bs m 0 h

theorem foldl_putUnguarded_of_unguarded (bs : List Byte) (m : Memory) (i : Nat)
    (h : ∀ j, j < bs.length → classAt r (p.key + i + j) ≠ 2) :
    (bs.zipIdx i).foldl (putUnguarded r p) m = writeBytes m (p.key + i) bs := by
  induction bs generalizing m i with
  | nil => rfl
  | cons b bs ih =>
    have hopen : classAt r (p.key + i) ≠ 2 := h 0 (Nat.succ_pos _)
    have hb : putUnguarded r p m (b, i) = memWrite m (p.key + i) b := by
      rw [putUnguarded, decide_eq_false hopen]
      rfl
    rw [List.zipIdx_cons, List.foldl_cons, hb, writeBytes]
    refine ih _ _ fun j hj => ?_
    have hnext := h (j + 1) (Nat.succ_lt_succ hj)
    rwa [Nat.add_comm j 1, ← Nat.add_assoc] at hnext

/-- Where no byte lies in a guard granule, all are written. -/
theorem writeGuarded_of_unguarded (m : Memory) {bs : List Byte} (h : ∀ j, j < bs.length → classAt r (p.key + j) ≠ 2) :
    writeGuarded m r p bs = writeBytes m p.key bs :=
  foldl_putUnguarded_of_unguarded bs m 0 h

end

/-! ### The leaf marked (R326) -/

/-- Memory with the leaf of a place marked. -/
def markedMem (s : State) (p : Place) (write : Bool) : Memory :=
  match p.leaf with
  | none => s.mem
  | some k => memWrite s.mem k (memRead s.mem k ||| (if write then 0x0C#8 else 0x04#8))

theorem markLeaf_eq (s : State) (p : Place) (write : Bool) : markLeaf s p write = { s with mem := markedMem s p write } := by
  unfold markLeaf markedMem
  cases p.leaf <;> rfl

theorem memRead_markedMem_other {s : State} {p : Place} {write : Bool} {a : Nat} (h : p.leaf ≠ some a) :
    memRead (markedMem s p write) a = memRead s.mem a := by
  unfold markedMem
  split
  · rfl
  next k hk => exact memRead_memWrite_other _ _ _ _ fun he => h (he ▸ hk)

theorem wf_markedMem {s : State} (p : Place) (write : Bool) (h : Memory.wf s.mem = true) : Memory.wf (markedMem s p write) = true := by
  unfold markedMem
  split
  · exact h
  · exact Memory.wf_memWrite _ _ _ h

/-! ### All but memory as after a read of code -/

/-- Apart from memory the states differ as by a read of code: in the strand's clock, and in what the checker counts. -/
def Noted (s t : State) : Prop := CodeRead s { t with mem := s.mem }

theorem noted_of_codeRead {s t : State} (h : CodeRead s t) : Noted s t := ⟨fun _ => rfl, h.2⟩

theorem noted_trans {s t u : State} (h1 : Noted s t) (h2 : Noted t u) : Noted s u :=
  codeRead_trans h1 ⟨fun _ => rfl, h2.2⟩

/-- Memory is not spoken of. -/
theorem noted_mem {s t : State} (m : Memory) (h : Noted s t) : Noted s { t with mem := m } := h

theorem noted_refl (s : State) : Noted s s := codeRead_refl s

theorem noted_markLeaf (s : State) (p : Place) (write : Bool) : Noted s (markLeaf s p write) := by
  rw [markLeaf_eq]
  exact noted_mem _ (noted_refl s)

/-- An access noted by the issuing strand: nothing, or its clock and entries of the region's record (R136, R141). -/
theorem noteAccess_state (s : State) (p : Place) (n : Nat) (write : Bool) (atomic : Option (BitVec 3 × Bool)) (waitw handoff : Bool) :
    (noteAccess s (whoMe s) p n write atomic waitw handoff).1 = s ∨
      ∃ c log guards, (noteAccess s (whoMe s) p n write atomic waitw handoff).1 =
        modRegionOf (modMe s fun t => { t with clock := c }) s.ctx.core fun q => { q with log := log ++ q.log, guards := guards ++ q.guards } := by
  unfold noteAccess
  split
  · exact .inl rfl
  · exact .inr ⟨_, _, _, rfl⟩

theorem codeRead_noted (s : State) (p : Place) (n : Nat) (write : Bool) (atomic : Option (BitVec 3 × Bool)) (waitw handoff : Bool) :
    CodeRead s (noteAccess s (whoMe s) p n write atomic waitw handoff).1 := by
  rcases noteAccess_state s p n write atomic waitw handoff with h | ⟨c, log, guards, h⟩ <;> rw [h]
  · exact codeRead_refl s
  · exact codeRead_trans (codeRead_clock s c) (codeRead_log _ _ _ _)

/-- The state in which an access has marked its leaf and been noted. -/
def markedNote (s : State) (p : Place) (n : Nat) (write : Bool) (atomic : Option (BitVec 3 × Bool)) (handoff : Bool) : State :=
  (noteAccess (markLeaf s p write) (whoMe s) p n write atomic false handoff).1

section
variable (s : State) (p : Place) (n : Nat) (write : Bool) (atomic : Option (BitVec 3 × Bool)) (handoff : Bool)

theorem codeRead_markedNote : CodeRead (markLeaf s p write) (markedNote s p n write atomic handoff) := by
  rw [markedNote, markLeaf_eq]
  exact codeRead_noted _ p n write atomic false handoff

theorem noted_markedNote : Noted s (markedNote s p n write atomic handoff) :=
  noted_trans (noted_markLeaf s p write) (noted_of_codeRead (codeRead_markedNote s p n write atomic handoff))

theorem noteAccess_mem (waitw : Bool) : (noteAccess s (whoMe s) p n write atomic waitw handoff).1.mem = s.mem := by
  rcases noteAccess_state s p n write atomic waitw handoff with h | ⟨c, log, guards, h⟩ <;> rw [h]
  rw [modRegionOf]
  split <;> rfl

theorem markedNote_mem : (markedNote s p n write atomic handoff).mem = markedMem s p write := by
  rw [markedNote, markLeaf_eq]
  exact noteAccess_mem _ _ _ _ _ _ _

end

/-! ### The region's record -/

/-- A region but for the checker's record. -/
def logless (r : Region) : Region := { r with log := [], guards := [] }

theorem map_logless_getRegion? (s : State) (id : Nat) :
    (getRegion? s id).map logless = (s.regions.map logless).find? fun r => r.rcb.id = id := by
  rw [List.find?_map]
  rfl

/-- What is read of the issuing core apart from its strands. -/
theorem core_of_coreRegistersSame {α : Type} (g : Core → α) {s t : State} (hctx : t.ctx = s.ctx) (h : CoreRegistersSame s t)
    (hg : ∀ x, g (restOf x) = g x) : g (myCore t) = g (myCore s) := by
  rw [myCore, myCore, hctx, ← hg, ← hg (getCore s s.ctx.core)]
  exact congrArg g h

theorem core_of_noted {α : Type} (g : Core → α) {s t : State} (h : Noted s t) (hg : ∀ x, g (restOf x) = g x) :
    g (myCore t) = g (myCore s) := by
  obtain ⟨-, -, hcore, hctx, -, -⟩ := h
  exact core_of_coreRegistersSame g hctx hcore hg

theorem core_modMe {α : Type} (g : Core → α) (s : State) (f : Strand → Strand) (hg : ∀ x, g (restOf x) = g x) :
    g (myCore (modMe s f)) = g (myCore s) := by
  obtain ⟨-, -, -, -, -, hcore⟩ := modMe_onlyMyStrand s f
  exact core_of_coreRegistersSame g rfl hcore hg

theorem core_retire {α : Type} (g : Core → α) (s : State) (hg : ∀ x, g (restOf x) = g x) : g (myCore (retire s)) = g (myCore s) := by
  obtain ⟨-, -, -, -, -, hcore⟩ := retire_onlyMyStrand s
  exact core_of_coreRegistersSame g (retire_ctx s) hcore hg

theorem region_myCore_of_noted {s t : State} (h : Noted s t) : (myCore t).region = (myCore s).region :=
  core_of_noted Core.region h fun _ => rfl

theorem map_logless_getRegion?_of_noted {s t : State} (h : Noted s t) (id : Nat) :
    (getRegion? t id).map logless = (getRegion? s id).map logless := by
  obtain ⟨-, -, -, -, -, hregions⟩ := h
  rw [map_logless_getRegion?, map_logless_getRegion?]
  exact congrArg (List.find? fun r => r.rcb.id = id) hregions

/-- The region's record alone can differ. -/
theorem logless_myRegion_of_noted {s t : State} (h : Noted s t) : logless (myRegion t) = logless (myRegion s) := by
  have hcore := region_myCore_of_noted h
  have hctx : t.ctx = s.ctx := h.2.2.2.1
  rw [myCore, myCore, hctx] at hcore
  rw [myRegion, myRegion, hctx, regionOf, regionOf, hcore]
  cases (getCore s s.ctx.core).region with
  | none => rfl
  | some id =>
    have hlisted := map_logless_getRegion?_of_noted h id
    simp only [getRegion]
    rw [← Option.getD_map logless, ← Option.getD_map logless, hlisted]

theorem classAt_of_noted {s t : State} (h : Noted s t) (k : Nat) : classAt (myRegion t) k = classAt (myRegion s) k := by
  have hclasses := congrArg Region.classes (logless_myRegion_of_noted h)
  change (myRegion t).classes = (myRegion s).classes at hclasses
  rw [classAt, classAt, hclasses]

/-! ### What a word leaves when its accesses are made -/

/-- The issuing core and the regions apart, the states differ in memory at most; and no register of the strand differs. -/
structure Framed (s t : State) : Prop where
  ctx : t.ctx = s.ctx
  outside : OutsideSame s t
  regs : (me t).regs = (me s).regs
  trap : (me t).trap = (me s).trap

theorem framed_trans {s t u : State} (h1 : Framed s t) (h2 : Framed t u) : Framed s u := by
  obtain ⟨x1, ⟨⟨p1, w1, d1⟩, c1, n1⟩, r1, t1⟩ := h1
  obtain ⟨x2, ⟨⟨p2, w2, d2⟩, c2, n2⟩, r2, t2⟩ := h2
  simp only [OtherCoresSame, OtherStrandsSame, x1] at c2 n2
  exact ⟨x2.trans x1, ⟨⟨p2.trans p1, w2.trans w1, d2.trans d1⟩, fun c h => (c2 c h).trans (c1 c h), fun n h => (n2 n h).trans (n1 n h)⟩,
    r2.trans r1, t2.trans t1⟩

theorem framed_of_noted {s t : State} (h : Noted s t) : Framed s t := by
  obtain ⟨-, hout, -, hctx, hme, -⟩ := h
  change me t = _ at hme
  exact ⟨hctx, hout, by rw [hme], by rw [hme]⟩

/-- Memory is not spoken of. -/
theorem framed_mem {s t : State} (m : Memory) (h : Framed s t) : Framed s { t with mem := m } := ⟨h.ctx, h.outside, h.regs, h.trap⟩

theorem framed_modMyCore (s : State) {f : Core → Core} (hf : ∀ x, (f x).strands = x.strands) : Framed s (modMyCore s f) := by
  obtain ⟨hctx, -, hout⟩ := inside_modMyCore s hf
  have hme := me_modMyCore s hf
  exact ⟨hctx, hout, by rw [hme], by rw [hme]⟩

theorem framed_modMe (s : State) {f : Strand → Strand} (hregs : (f (me s)).regs = (me s).regs) (htrap : (f (me s)).trap = (me s).trap) :
    Framed s (modMe s f) := by
  obtain ⟨-, -, hdom, hcores, hstrands, -⟩ := modMe_onlyMyStrand s f
  exact ⟨rfl, ⟨hdom, hcores, hstrands⟩, by rwa [me_modMe], by rwa [me_modMe]⟩

/-- A region changed, and no core. -/
theorem framed_modRegionOf (s : State) (c : Nat) (f : Region → Region) : Framed s (modRegionOf s c f) := by
  unfold modRegionOf
  split
  · exact ⟨rfl, ⟨⟨rfl, rfl, rfl⟩, fun _ _ => rfl, fun _ _ => rfl⟩, rfl, rfl⟩
  · exact ⟨rfl, ⟨⟨rfl, rfl, rfl⟩, fun _ _ => rfl, fun _ _ => rfl⟩, rfl, rfl⟩

theorem framed_retire (s : State) : Framed s (retire s) := by
  obtain ⟨hctx, -, hout⟩ := inside_retire s
  exact ⟨hctx, hout, me_retire_regs s, me_retire_trap s⟩

/-- A completed store's frame, as the statements write it. -/
theorem registers_of_framed {s t : State} (h : Framed s t) :
    ScalarsSame s t ∧ VectorsSame s t ∧ MasksSame s t ∧ TrapRegsSame s t ∧ DomainSame s t ∧ OtherCoresSame s.ctx.core s t ∧
      OtherStrandsSame s t := by
  obtain ⟨-, ⟨hdom, hcores, hstrands⟩, hregs, htrap⟩ := h
  exact ⟨congrArg Regs.s hregs, congrArg Regs.v hregs, congrArg Regs.k hregs, htrap, hdom, hcores, hstrands⟩

/-! ### Loads (R116, R141, R142) -/

/-- Whether a load at a place that passed its checks conflicts (R142). -/
def loadConflicts (s : State) (w : Who) (p : Place) (n : Nat) : Bool := (noteAccess (markLeaf s p false) w p n false none false false).2

/-- The bytes of a load in no conflict. -/
def clearBytes (s : State) (w : Who) (p : Place) (n : Nat) : List Byte :=
  (List.range n).map fun i =>
    if classAt (regionOf s w.core) (p.key + i) = 2 && (watchCode p).isSome then 0#8 else memRead (memSeen s w.core p) (p.key + i)

theorem loadAt_of_clear {s : State} {w : Who} {p : Place} {n : Nat} (h : loadConflicts s w p n = false) :
    loadAt s w p n = (clearBytes s w p n, (noteAccess (markLeaf s p false) w p n false none false false).1) := by
  rw [loadConflicts] at h
  rw [loadAt, clearBytes]
  generalize noteAccess (markLeaf s p false) w p n false none false false = q at h ⊢
  obtain ⟨s1, conflict⟩ := q
  obtain rfl : conflict = false := h
  rfl

/-- A load leaves its note, and has handed out free values where it conflicted. -/
theorem loadAt_note (s : State) (p : Place) (n : Nat) :
    (loadAt s (whoMe s) p n).2 = markedNote s p n false none false ∨
      (loadAt s (whoMe s) p n).2 = (freshBytes (markedNote s p n false none false) n).2 := by
  rw [loadAt, markedNote]
  generalize noteAccess (markLeaf s p false) (whoMe s) p n false none false false = q
  obtain ⟨s1, conflict⟩ := q
  cases conflict with
  | false => exact .inl rfl
  | true => exact .inr rfl

theorem noted_loadAt (s : State) (p : Place) (n : Nat) : Noted s (loadAt s (whoMe s) p n).2 := by
  have hnote := noted_markedNote s p n false none false
  rcases loadAt_note s p n with h | h <;> rw [h]
  · exact hnote
  · exact noted_trans hnote (noted_of_codeRead (codeRead_freshBytes _ n))

theorem loadAt_mem (s : State) (p : Place) (n : Nat) : (loadAt s (whoMe s) p n).2.mem = markedMem s p false := by
  have hnote := markedNote_mem s p n false none false
  rcases loadAt_note s p n with h | h <;> rw [h]
  · exact hnote
  · exact hnote

/-- Outside guard granules, on memory that is read as it stands, a load's bytes are memory's. -/
theorem clearBytes_of_unguarded {s : State} {p : Place} {n : Nat} (hmode : p.mode ≠ .ex) (hro : p.readOnly = false)
    (hopen : Unguarded s p.key n) : clearBytes s (whoMe s) p n = readBytes s.mem p.key n := by
  have hseen : memSeen s (whoMe s).core p = s.mem := by
    unfold memSeen
    split
    next h => exact absurd h hmode
    · rw [hro]
      rfl
  refine List.map_congr_left fun i hi => ?_
  have hi : classAt (regionOf s (whoMe s).core) (p.key + i) ≠ 2 := hopen i (List.mem_range.1 hi)
  rw [hseen, decide_eq_false hi]
  rfl

/-- What a word leaves that has loaded and then changes its strand. -/
theorem outside_of_noted {s s1 t : State} (h : Noted s s1) (honly : OnlyMyStrand s1 t) :
    OutsideSame s t ∧ CoreRegistersSame s t := by
  obtain ⟨-, ⟨⟨hp, hw, hd⟩, hc, hn⟩, hcore, hctx1, -, -⟩ := h
  have hctx1 : s1.ctx = s.ctx := hctx1
  obtain ⟨-, -, ⟨hp', hw', hd'⟩, hc', hn', hcore'⟩ := honly
  simp only [OtherCoresSame, OtherStrandsSame, CoreRegistersSame, hctx1] at hc' hn' hcore'
  exact ⟨⟨⟨hp'.trans hp, hw'.trans hw, hd'.trans hd⟩, fun c h => (hc' c h).trans (hc c h), fun n h => (hn' n h).trans (hn n h)⟩,
    hcore'.trans hcore⟩

/-- So it is with one that writes a scalar register. -/
theorem after_load {s s1 : State} (h : Noted s s1) (d : BitVec 5) (x : Word) :
    let t := retire (writeS s1 d x)
    ScalarsSameBut d s t ∧ VectorsSame s t ∧ MasksSame s t ∧ TrapRegsSame s t ∧ OutsideSame s t ∧ CoreRegistersSame s t ∧
      t.mem = s1.mem ∧ (d ≠ 0#5 → (me t).regs.s[d.toNat]'d.isLt = x) := by
  intro t
  have hplain : Plain d s1 t := plain_retire_writeS s1 x
  have hframed := framed_of_noted h
  have htrap := (kept_of_plain hplain).trap
  obtain ⟨-, honly, hscalars, hv, hk, -⟩ := hplain
  obtain ⟨hout, hcore⟩ := outside_of_noted h honly
  rw [hframed.regs] at hscalars hv hk
  refine ⟨hscalars, hv, hk, htrap.trans hframed.trap, hout, hcore, retire_mem _, fun hd => ?_⟩
  have hregs : (me t).regs = putS (me s1).regs d x := by rw [me_retire_regs, me_writeS]
  rw [hregs]
  exact putS_s_same _ _ _ hd

/-! ### Stores (R117, R135, R141) -/

/-- Memory after a store. -/
def storedMem (s : State) (p : Place) (bs : List Byte) : Memory := writeGuarded (markedMem s p true) (myRegion s) p bs

/-- A store that is not deferred: the access noted, the bytes written, and a posted write to the host counted. -/
def storedAt (s : State) (p : Place) (bs : List Byte) (handoff : Bool) : State :=
  { markedNote s p bs.length true none handoff with mem := storedMem s p bs }

theorem storeAt_eq (s : State) (p : Place) (bs : List Byte) (handoff : Bool) :
    storeAt s (whoMe s) p bs handoff =
      if spaceOf p.key = 5 then modCore (storedAt s p bs handoff) s.ctx.core fun x => { x with unacked := x.unacked + 1 }
      else storedAt s p bs handoff := by
  have hmem := markedNote_mem s p bs.length true none handoff
  rw [storedAt, storedMem, ← hmem]
  rfl

theorem storeAt_mem (s : State) (p : Place) (bs : List Byte) (handoff : Bool) : (storeAt s (whoMe s) p bs handoff).mem = storedMem s p bs := by
  rw [storeAt_eq]
  split <;> rfl

theorem noted_storedAt (s : State) (p : Place) (bs : List Byte) (handoff : Bool) : Noted s (storedAt s p bs handoff) :=
  noted_mem _ (noted_markedNote s p bs.length true none handoff)

theorem framed_storeAt (s : State) (p : Place) (bs : List Byte) (handoff : Bool) : Framed s (storeAt s (whoMe s) p bs handoff) := by
  have hnoted := framed_of_noted (noted_storedAt s p bs handoff)
  rw [storeAt_eq]
  split
  · rw [← hnoted.ctx]
    exact framed_trans hnoted (framed_modMyCore _ fun _ => rfl)
  · exact hnoted

/-- Away from the bytes stored and from the leaf, memory is as it was. -/
theorem memRead_storedMem_other {s : State} {p : Place} {bs : List Byte} {a : Nat} (h : a < p.key ∨ p.key + bs.length ≤ a)
    (hleaf : p.leaf ≠ some a) : memRead (storedMem s p bs) a = memRead s.mem a :=
  (memRead_writeGuarded_other _ bs h).trans (memRead_markedMem_other hleaf)

/-- A number stored with no guard granule in the way reads back, modulo its range. -/
theorem memNat_storedMem {s : State} {p : Place} {n : Nat} (x : Nat) (hwf : Memory.wf s.mem = true) (h : Unguarded s p.key n) :
    memNat (storedMem s p (leBytes n x)) p.key n = x % 2 ^ (8 * n) := by
  have hput : storedMem s p (leBytes n x) = memPut (markedMem s p true) p.key n x :=
    writeGuarded_of_unguarded _ (by rwa [leBytes_length])
  rw [hput, memNat_memPut_same _ _ _ _ (wf_markedMem p true hwf), show (256 : Nat) = 2 ^ 8 from rfl, ← pow_mul]

/-! ### Checks that stop a word without a late fault -/

/-- A stop that is no delivery of a late fault. -/
theorem pending_accStop (s : State) (va : Word) (kind : AccKind) (e : AccErr) : Pending s (accStop va kind e) := by
  cases e <;> exact fun _ h => Stop.noConfusion h

theorem pending_trap (s : State) (code sub : Nat) (faddr : Word) (acc : Nat) : Pending s (.trap code sub faddr acc) :=
  fun _ h => Stop.noConfusion h

theorem pending_wait (s : State) (w : Wait) : Pending s (.wait w) := fun _ h => Stop.noConfusion h

theorem leaves_strandCheck (u s : State) (va : Word) (n al : Nat) (kind : AccKind) :
    Leaves (Pending u) (fun p => strandCheck s va n al kind = .ok p) (strandCheck s va n al kind) := by
  cases h : strandCheck s va n al kind with
  | ok p => exact rfl
  | error e =>
    rw [strandCheck] at h
    split at h
    · cases h
    · exact Except.error.inj h ▸ pending_accStop u va kind _

theorem leaves_accessReady (u s : State) (p : Place) (n : Nat) (write : Bool) :
    Leaves (Pending u) (fun _ => True) (accessReady s p n write) := by
  unfold accessReady
  refine leaves_ite (pending_wait u _) (leaves_ite (pending_wait u _) trivial)

theorem leaves_vectorsDone (u s : State) : Leaves (Pending u) (fun _ => True) (vectorsDone s) := leaves_ite (pending_wait u _) trivial

theorem vectorsDone_of_idle {s : State} (h : vqBusy s = false) : vectorsDone s = .ok () := if_neg (Bool.eq_false_iff.1 h)

/-- A word that completes with such stops only has gone through. -/
theorem leaves_of_completed {i : Instr} {s t : State} {f : State → Except Stop State} {P : State → Prop} (hf : Leaves (Pending s) P (f s))
    (h : issueWord i s f = .next t) (hc : Completed t) : P t := by
  have hstops : ∀ e, f s = .error e → Pending s e := by
    intro e he
    rw [he] at hf
    exact hf
  obtain ⟨-, hok⟩ := ok_of_completed hstops h hc
  rw [hok] at hf
  exact hf

end Sys2Proof.Machine
end

section
/-! PROOFS. `LD` (R116, R119, R121, R141). -/

namespace Sys2Proof.Machine

open Sys2Proof.Safety

/-! ### Little-endian numbers extended (R4, R116) -/

theorem leNat_lt (bs : List Byte) : leNat bs < 256 ^ bs.length := by
  induction bs with
  | nil => exact Nat.one_pos
  | cons b bs ih =>
    have hb : b.toNat < 256 := b.isLt
    have hcons : leNat (b :: bs) = b.toNat + 256 * leNat bs := rfl
    rw [hcons, List.length_cons, Nat.pow_succ]
    omega

theorem memNat_lt (m : Memory) (k n : Nat) : memNat m k n < 2 ^ (8 * n) := by
  have h := leNat_lt (readBytes m k n)
  rwa [readBytes, List.length_map, List.length_range, show (256 : Nat) = 2 ^ 8 from rfl, ← pow_mul] at h

/-- A number of `w` bits, sign-extended. -/
theorem signExtend_ofNat {w x : Nat} (hw : 0 < w) (hx : x < 2 ^ w) :
    (BitVec.ofNat w x).signExtend 64 = BitVec.ofInt 64 (if 2 ^ (w - 1) ≤ x then (x : Int) - 2 ^ w else x) := by
  have hpow : 2 ^ w = 2 * 2 ^ (w - 1) := by rw [← pow_succ', Nat.sub_add_cancel hw]
  rw [BitVec.signExtend, BitVec.toInt_eq_toNat_cond, BitVec.toNat_ofNat, Nat.mod_eq_of_lt hx]
  by_cases h : 2 ^ (w - 1) ≤ x
  · rw [if_pos h, if_neg (by omega)]
    push_cast
    rfl
  · rw [if_neg h, if_pos (by omega)]

/-- Bit 2 of the type clears the sign. -/
theorem extendLoad_eq (ty : BitVec 3) {x : Nat} (hx : x < 2 ^ (8 * 2 ^ (ty.toNat % 4))) :
    extendLoad ty x =
      if ty.toNat < 4 then BitVec.ofInt 64 (if 2 ^ (8 * 2 ^ (ty.toNat % 4) - 1) ≤ x then (x : Int) - 2 ^ (8 * 2 ^ (ty.toNat % 4)) else x)
      else BitVec.ofNat 64 x := by
  have hbit : ∀ ty : BitVec 3, ty.getLsbD 2 = !decide (ty.toNat < 4) := by decide
  have hwidth : 0 < 8 * 2 ^ (ty.toNat % 4) := by positivity
  rw [extendLoad, hbit, signExtend_ofNat hwidth hx]
  by_cases h : ty.toNat < 4
  · rw [if_pos h, decide_eq_true h]
    rfl
  · rw [if_neg h, decide_eq_false h]
    rfl

/-! ### `LD` (R116) -/

/-- What `LD` does. -/
def ldEffect (d b : BitVec 5) (t : BitVec 3) (o : BitVec 11) (s : State) : Except Stop State := do
  vectorsDone s
  let n := 2 ^ (t.toNat % 4)
  let (bs, s1) ← strandLoad s (scaledAddr (readS s b) o n) n n
  pure (retire (writeS s1 d (extendLoad t (leNat bs))))

section
variable {d b : BitVec 5} {t : BitVec 3} {o : BitVec 11} {s : State} {p : Place}

theorem exec_ld : exec (.ld d b t o) s = issueWord (.ld d b t o) s (ldEffect d b t o) := by rfl

theorem strandLoad_of_checked {va : Word} {n al : Nat} (hp : strandCheck s va n al .load = .ok p) (hr : accessReady s p n false = .ok ()) :
    strandLoad s va n al = .ok (loadAt s (whoMe s) p n) := by
  rw [strandLoad, hp]
  change (accessReady s p n false >>= fun _ => _) = _
  rw [hr]
  rfl

theorem strandLoad_of_refused {va : Word} {n al : Nat} {e : Stop} (h : strandCheck s va n al .load = .error e) :
    strandLoad s va n al = .error e := by
  rw [strandLoad, h]
  rfl

/-- Past the vector unit, the load is all that can stop it. -/
theorem ldEffect_of_idle (hq : vqBusy s = false) :
    ldEffect d b t o s = (strandLoad s (scaledAddr (readS s b) o (2 ^ (t.toNat % 4))) (2 ^ (t.toNat % 4)) (2 ^ (t.toNat % 4)) >>=
      fun r => .ok (retire (writeS r.2 d (extendLoad t (leNat r.1))))) := by
  rw [ldEffect, vectorsDone_of_idle hq]
  rfl

theorem exec_ld_of_checked (hl : (me s).live = true) (hq : vqBusy s = false)
    (hp : strandCheck s (scaledAddr (readS s b) o (2 ^ (t.toNat % 4))) (2 ^ (t.toNat % 4)) (2 ^ (t.toNat % 4)) .load = .ok p)
    (hr : accessReady s p (2 ^ (t.toNat % 4)) false = .ok ()) :
    exec (.ld d b t o) s = .next (retire (writeS (loadAt s (whoMe s) p (2 ^ (t.toNat % 4))).2 d
      (extendLoad t (leNat (loadAt s (whoMe s) p (2 ^ (t.toNat % 4))).1)))) := by
  rw [exec_ld]
  refine issueWord_ok _ _ _ _ ⟨hl, rfl, rfl⟩ ?_
  rw [ldEffect_of_idle hq, strandLoad_of_checked hp hr]
  rfl

theorem exec_ld_of_refused {e : Stop} (hl : (me s).live = true) (hq : vqBusy s = false)
    (h : strandCheck s (scaledAddr (readS s b) o (2 ^ (t.toNat % 4))) (2 ^ (t.toNat % 4)) (2 ^ (t.toNat % 4)) .load = .error e) :
    exec (.ld d b t o) s = .next (stopWord s e) := by
  rw [exec_ld]
  refine issueWord_error _ _ _ _ ⟨hl, rfl, rfl⟩ ?_
  rw [ldEffect_of_idle hq, strandLoad_of_refused h]
  rfl

end

/-- Settles O29: the load's bytes are memory's (`clearBytes_of_unguarded`), and a load and one register written leave the rest. -/
theorem loadsComplete : Obligations.LoadsComplete := by
  intro d b ty o s p hl n va x hq hp hr hclear hmode hro hopen
  have hload : loadAt s (whoMe s) p n = (readBytes s.mem p.key n, markedNote s p n false none false) := by
    rw [loadAt_of_clear hclear, clearBytes_of_unguarded hmode hro hopen]
    rfl
  have hexec := exec_ld_of_checked (d := d) hl hq hp hr
  rw [hload] at hexec
  have hvalue : extendLoad ty (leNat (readBytes s.mem p.key n)) =
      if ty.toNat < 4 then BitVec.ofInt 64 (if 2 ^ (8 * n - 1) ≤ x then (x : Int) - 2 ^ (8 * n) else x) else BitVec.ofNat 64 x :=
    extendLoad_eq ty (memNat_lt s.mem p.key n)
  obtain ⟨hscalars, hv, hk, htrap, ⟨hdom, hcores, hstrands⟩, hcore, hmem, hdest⟩ :=
    after_load (noted_markedNote s p n false none false) d (extendLoad ty (leNat (readBytes s.mem p.key n)))
  refine ⟨_, hexec, fun hd => (hdest hd).trans hvalue, hscalars, hv, hk, htrap, hdom, hcores, hstrands, hcore, fun a ha => ?_⟩
  rw [hmem, markedNote_mem, memRead_markedMem_other ha]

/-- Settles O30: the bytes of a load in no conflict (`loadAt_of_clear`), one by one. -/
theorem specialLoadsReadOldContent : Obligations.SpecialLoadsReadOldContent := by
  intro s w p n j hj hclear r seen
  have hseen : memSeen s w.core p = seen := by
    unfold memSeen
    split
    next h => exact (if_pos h).symm
    next h => exact (if_neg h).symm
  rw [loadAt_of_clear hclear, clearBytes, List.getElem?_map, List.getElem?_range hj, Option.map_some, hseen]
  simp only [Bool.and_eq_true, decide_eq_true_eq]
  rfl

end Sys2Proof.Machine
end

section
/-! PROOFS. `ST` and `ST.h` (R117, R119, R120, R138). -/

namespace Sys2Proof.Machine

open Sys2Proof.Safety

/-! ### What a store leaves -/

/-- Of memory, `n` bytes at the place and its leaf can differ, and no register of the strand. -/
structure WroteAt (p : Place) (n : Nat) (s t : State) : Prop where
  mem : ∀ a, (a < p.key ∨ p.key + n ≤ a) → p.leaf ≠ some a → memRead t.mem a = memRead s.mem a
  framed : Framed s t

section
variable {p : Place} {n : Nat} {s : State}

theorem wroteAt_framed {t u : State} (h : WroteAt p n s t) (hmem : u.mem = t.mem) (hf : Framed t u) : WroteAt p n s u :=
  ⟨fun a ha hleaf => by rw [hmem]; exact h.mem a ha hleaf, framed_trans h.framed hf⟩

theorem wroteAt_retire {t : State} (h : WroteAt p n s t) : WroteAt p n s (retire t) := wroteAt_framed h (retire_mem t) (framed_retire t)

theorem wroteAt_storeAt (s : State) (p : Place) (bs : List Byte) (handoff : Bool) :
    WroteAt p bs.length s (storeAt s (whoMe s) p bs handoff) :=
  ⟨fun _ ha hleaf => by rw [storeAt_mem]; exact memRead_storedMem_other ha hleaf, framed_storeAt s p bs handoff⟩

/-- So the statements write it. -/
theorem kept_of_wroteAt {t : State} (h : WroteAt p n s t) :
    (∀ a, (a < p.key ∨ p.key + n ≤ a) → p.leaf ≠ some a → memRead t.mem a = memRead s.mem a) ∧ ScalarsSame s t ∧ VectorsSame s t ∧
      MasksSame s t ∧ TrapRegsSame s t ∧ DomainSame s t ∧ OtherCoresSame s.ctx.core s t ∧ OtherStrandsSame s t :=
  ⟨h.mem, registers_of_framed h.framed⟩

end

/-! ### Stores deferred (R119, R120) -/

/-- The deferred store of the strand's next place in program order. -/
def deferral (s : State) (p : Place) (bs : List Byte) : DStore :=
  { order := (nextOrder s s.ctx.core s.ctx.strand).1, core := s.ctx.core, key := p.key, va := p.va, bytes := bs }

/-- The strand's next access has the next place in program order (R120). -/
def nextPlace (t : Strand) : Strand := { t with place := t.place + 1 }

/-- One more store of the strand is deferred. -/
def oneDeferred (t : Strand) : Strand := { t with deferred := t.deferred + 1 }

theorem nextOrder_me (s : State) :
    nextOrder s s.ctx.core s.ctx.strand = ((nextOrder s s.ctx.core s.ctx.strand).1, modMe s nextPlace) := rfl

/-- The state with the store queued: the leaf is marked, and the strand's place and count have advanced. -/
def deferredAt (s : State) (p : Place) (bs : List Byte) : State :=
  modMyCore { modMe (modMe s nextPlace) oneDeferred with mem := markedMem s p true }
    fun x => { x with deferred := x.deferred ++ [deferral s p bs] }

section
variable {s : State} {p : Place} {bs : List Byte}

theorem wroteAt_deferredAt (n : Nat) : WroteAt p n s (deferredAt s p bs) := by
  have hplace : Framed s (modMe s nextPlace) := framed_modMe s rfl rfl
  have hcount : Framed (modMe s nextPlace) (modMe (modMe s nextPlace) oneDeferred) := framed_modMe _ rfl rfl
  exact ⟨fun _ _ hleaf => memRead_markedMem_other hleaf,
    framed_trans (framed_mem (markedMem s p true) (framed_trans hplace hcount)) (framed_modMyCore _ fun _ => rfl)⟩

/-- One more store is queued, of those bytes. -/
theorem deferred_deferredAt : (myCore (deferredAt s p bs)).deferred = (myCore s).deferred ++ [deferral s p bs] := by
  have hqueue : (myCore (modMe (modMe s nextPlace) oneDeferred)).deferred = (myCore s).deferred :=
    (core_modMe Core.deferred _ _ fun _ => rfl).trans (core_modMe Core.deferred s _ fun _ => rfl)
  rw [deferredAt, myCore_modMyCore, ← hqueue]
  rfl

theorem putStore_of_plain (h : p.mode ≠ .ex) : putStore s p bs = .ok (storeAt s (whoMe s) p bs false) := by
  unfold putStore
  split
  next hex => exact absurd hex h
  · rfl

theorem putStore_of_copies (h : p.mode = .ex) (hc : copiesOut s = true) : putStore s p bs = .error (.wait .stall) := by
  rw [putStore, h]
  exact if_pos hc

theorem deferStore_me (u : State) (o : Order) :
    deferStore u u.ctx.core u.ctx.strand o p bs =
      if queueLimit (me u) ≤ (me u).deferred then none
      else some (modMyCore { modMe u oneDeferred with mem := markedMem u p true }
        fun x => { x with deferred := x.deferred ++ [{ order := o, core := u.ctx.core, key := p.key, va := p.va, bytes := bs }] }) := by
  unfold deferStore
  rw [markLeaf_eq]
  rfl

/-- The store that was queued, or the program's fault past the limit (R120). -/
def queuedOrFault (o : Option State) : Except Stop State := o.elim (.error (programTrap 1)) .ok

theorem putStore_ex (h : p.mode = .ex) (hc : copiesOut s = false) :
    putStore s p bs =
      queuedOrFault (deferStore (modMe s nextPlace) s.ctx.core s.ctx.strand (nextOrder s s.ctx.core s.ctx.strand).1 p bs) := by
  rw [putStore, h]
  refine (if_neg (Bool.eq_false_iff.1 hc)).trans ?_
  rw [nextOrder_me]
  dsimp only
  cases deferStore (modMe s nextPlace) s.ctx.core s.ctx.strand (nextOrder s s.ctx.core s.ctx.strand).1 p bs <;> rfl

/-- Past the copies, a store to an EX page is queued, or is one too many. -/
theorem putStore_deferred (h : p.mode = .ex) (hc : copiesOut s = false) :
    putStore s p bs = if queueLimit (me s) ≤ (me s).deferred then .error (programTrap 1) else .ok (deferredAt s p bs) := by
  have hme : me (modMe s nextPlace) = nextPlace (me s) := me_modMe s _
  have hdefer : deferStore (modMe s nextPlace) s.ctx.core s.ctx.strand (nextOrder s s.ctx.core s.ctx.strand).1 p bs =
      if queueLimit (me s) ≤ (me s).deferred then none else some (deferredAt s p bs) := by
    have hgeneral := deferStore_me (p := p) (bs := bs) (modMe s nextPlace) (nextOrder s s.ctx.core s.ctx.strand).1
    rw [hme] at hgeneral
    exact hgeneral
  rw [putStore_ex h hc, hdefer]
  split_ifs
  · rfl
  · rfl

/-- A store to an EX page that stops is a wait or the program's fault; one that does not is queued. -/
theorem leaves_putStore (s : State) (p : Place) (bs : List Byte) : Leaves (Pending s) (WroteAt p bs.length s) (putStore s p bs) := by
  by_cases h : p.mode = .ex
  · cases hc : copiesOut s with
    | true =>
      rw [putStore_of_copies h hc]
      exact pending_wait s _
    | false =>
      rw [putStore_deferred h hc]
      exact leaves_ite (pending_trap s _ _ _ _) (wroteAt_deferredAt _)
  · rw [putStore_of_plain h]
    exact wroteAt_storeAt s p bs false

end

/-! ### `ST` (R117) -/

/-- What `ST` does. -/
def stEffect (d b : BitVec 5) (z : BitVec 2) (o : BitVec 11) (s : State) : Except Stop State := do
  vectorsDone s
  let n := 2 ^ z.toNat
  let p ← strandCheck s (scaledAddr (readS s b) o n) n n .store
  accessReady s p n true
  let s1 ← putStore s p (leBytes n (readS s d).toNat)
  pure (retire s1)

section
variable {d b : BitVec 5} {z : BitVec 2} {o : BitVec 11} {s : State} {p : Place}

theorem exec_st : exec (.st d b z o) s = issueWord (.st d b z o) s (stEffect d b z o) := by rfl

/-- Past the vector unit, the address check comes first. -/
theorem stEffect_of_idle (hq : vqBusy s = false) :
    stEffect d b z o s = (strandCheck s (scaledAddr (readS s b) o (2 ^ z.toNat)) (2 ^ z.toNat) (2 ^ z.toNat) .store >>= fun p =>
      accessReady s p (2 ^ z.toNat) true >>= fun _ => putStore s p (leBytes (2 ^ z.toNat) (readS s d).toNat) >>= fun t => .ok (retire t)) := by
  rw [stEffect, vectorsDone_of_idle hq]
  rfl

theorem exec_st_of_refused {e : Stop} (hl : (me s).live = true) (hq : vqBusy s = false)
    (h : strandCheck s (scaledAddr (readS s b) o (2 ^ z.toNat)) (2 ^ z.toNat) (2 ^ z.toNat) .store = .error e) :
    exec (.st d b z o) s = .next (stopWord s e) := by
  rw [exec_st]
  refine issueWord_error _ _ _ _ ⟨hl, rfl, rfl⟩ ?_
  rw [stEffect_of_idle hq, h]
  rfl

section
variable (hq : vqBusy s = false)
  (hp : strandCheck s (scaledAddr (readS s b) o (2 ^ z.toNat)) (2 ^ z.toNat) (2 ^ z.toNat) .store = .ok p)
  (hr : accessReady s p (2 ^ z.toNat) true = .ok ())
include hq hp hr

theorem stEffect_of_checked :
    stEffect d b z o s = (putStore s p (leBytes (2 ^ z.toNat) (readS s d).toNat) >>= fun t => .ok (retire t)) := by
  rw [stEffect_of_idle hq, hp]
  change (accessReady s p (2 ^ z.toNat) true >>= fun _ => _) = _
  rw [hr]
  rfl

theorem exec_st_of_stored (hl : (me s).live = true) {t : State} (h : putStore s p (leBytes (2 ^ z.toNat) (readS s d).toNat) = .ok t) :
    exec (.st d b z o) s = .next (retire t) := by
  rw [exec_st]
  refine issueWord_ok _ _ _ _ ⟨hl, rfl, rfl⟩ ?_
  rw [stEffect_of_checked hq hp hr, h]
  rfl

theorem exec_st_of_stopped (hl : (me s).live = true) {e : Stop} (h : putStore s p (leBytes (2 ^ z.toNat) (readS s d).toNat) = .error e) :
    exec (.st d b z o) s = .next (stopWord s e) := by
  rw [exec_st]
  refine issueWord_error _ _ _ _ ⟨hl, rfl, rfl⟩ ?_
  rw [stEffect_of_checked hq hp hr, h]
  rfl

end

/-- `ST` stops with no late fault, or has written at a place that its check gives. -/
theorem leaves_stEffect (d b : BitVec 5) (z : BitVec 2) (o : BitVec 11) (s : State) :
    Leaves (Pending s) (fun t => ∃ p, strandCheck s (scaledAddr (readS s b) o (2 ^ z.toNat)) (2 ^ z.toNat) (2 ^ z.toNat) .store = .ok p ∧
      WroteAt p (2 ^ z.toNat) s t) (stEffect d b z o s) := by
  refine leaves_bind (leaves_vectorsDone s s) fun _ _ => leaves_bind (leaves_strandCheck s s _ _ _ _) fun p hp =>
    leaves_bind (leaves_accessReady s s _ _ _) fun _ _ => leaves_bind (leaves_putStore s p _) fun t ht => ⟨p, hp, ?_⟩
  rw [leBytes_length] at ht
  exact wroteAt_retire ht

end

/-! ### Handoffs (R138) -/

section
variable {s t : State}

theorem myRegion_retire (s : State) : myRegion (retire s) = myRegion s := by
  have hregion := core_retire Core.region s fun _ => rfl
  rw [myCore, myCore, retire_ctx] at hregion
  rw [myRegion, myRegion, retire_ctx, regionOf, regionOf, hregion]
  simp only [getRegion, getRegion?, retire_regions]

theorem held_of_noted (h : Noted s t) (hs : Held s) : Held t := by
  obtain ⟨id, r, hid, hr⟩ := hs
  have hlisted := map_logless_getRegion?_of_noted h id
  rw [hr] at hlisted
  obtain ⟨q, hq, -⟩ := Option.map_eq_some_iff.1 hlisted
  exact ⟨id, q, (region_myCore_of_noted h).trans hid, hq⟩

/-- The region of a held core is changed where it is listed. -/
theorem myRegion_modRegionOf_of_held (hs : Held s) {f : Region → Region} (hf : ∀ r, (f r).rcb = r.rcb) :
    myRegion (modRegionOf s s.ctx.core f) = f (myRegion s) := by
  obtain ⟨id, r, hid, hr⟩ := hs
  have hid : (getCore s s.ctx.core).region = some id := hid
  have hmod : modRegionOf s s.ctx.core f = modRegion s id f := by rw [modRegionOf, hid]
  have hid' : (getCore (modRegion s id f) s.ctx.core).region = some id := hid
  have hctx : (modRegion s id f).ctx = s.ctx := rfl
  rw [hmod, myRegion, myRegion, hctx, regionOf, regionOf, hid, hid']
  simp only [getRegion, getRegion?_modRegion s id hf, hr, Option.map_some, Option.getD_some]

end

/-! ### `ST.h` (R117) -/

/-- The handoff that `ST.h` is. -/
def storeHandoff (s : State) (p : Place) (v : Word) : Handoff :=
  { key := p.key, value := v, clock := (me s).clock, any := true, core := s.ctx.core, strand := s.ctx.strand }

/-- The bytes stored, and the handoff recorded. -/
def handedOff (s : State) (p : Place) (v : Word) : State :=
  noteHandoff (storeAt s (whoMe s) p (leBytes 8 v.toNat) true) s.ctx.core (storeHandoff s p v)

/-- What `ST.h` does at a place that passed its check. -/
def stHAt (d : BitVec 5) (va : Word) (s : State) (p : Place) : Except Stop State :=
  if spaceOf p.key > 1 || classAt (myRegion s) p.key ≠ 1 then .error (.trap cSyncClass 0 va 2)
  else do
    accessReady s p 8 true
    if atomsPending s then .error (.wait .stall) else .ok (retire (handedOff s p (readS s d)))

/-- What `ST.h` does. -/
def stHEffect (d b : BitVec 5) (o : BitVec 11) (s : State) : Except Stop State := do
  vectorsDone s
  let p ← strandCheck s (scaledAddr (readS s b) o 8) 8 8 .store
  stHAt d (scaledAddr (readS s b) o 8) s p

section
variable {d b : BitVec 5} {o : BitVec 11} {s : State} {p : Place}

theorem exec_stH : exec (.stH d b o) s = issueWord (.stH d b o) s (stHEffect d b o) := by rfl

theorem stHEffect_of_checked (hq : vqBusy s = false) (hp : strandCheck s (scaledAddr (readS s b) o 8) 8 8 .store = .ok p) :
    stHEffect d b o s = stHAt d (scaledAddr (readS s b) o 8) s p := by
  rw [stHEffect, vectorsDone_of_idle hq, hp]
  rfl

theorem stHAt_of_sync {va : Word} (hspace : spaceOf p.key ≤ 1) (hclass : classAt (myRegion s) p.key = 1) (hr : accessReady s p 8 true = .ok ())
    (hatoms : atomsPending s = false) : stHAt d va s p = .ok (retire (handedOff s p (readS s d))) := by
  refine (if_neg ?_).trans ?_
  · simp [hclass, hspace]
  · rw [hr, hatoms]
    rfl

theorem stHAt_elsewhere {va : Word} (h : 1 < spaceOf p.key ∨ classAt (myRegion s) p.key ≠ 1) :
    stHAt d va s p = .error (.trap cSyncClass 0 va 2) := by
  refine if_pos ?_
  rw [Bool.or_eq_true, decide_eq_true_eq, decide_eq_true_eq]
  exact h

theorem wroteAt_handedOff (s : State) (p : Place) (v : Word) : WroteAt p 8 s (handedOff s p v) := by
  have hstore := wroteAt_storeAt s p (leBytes 8 v.toNat) true
  rw [leBytes_length] at hstore
  refine wroteAt_framed hstore ?_ (framed_modRegionOf _ _ _)
  rw [handedOff, noteHandoff, modRegionOf]
  split <;> rfl

theorem handedOff_mem (s : State) (p : Place) (v : Word) : (handedOff s p v).mem = storedMem s p (leBytes 8 v.toNat) := by
  rw [← storeAt_mem s p _ true, handedOff, noteHandoff, modRegionOf]
  split <;> rfl

/-- A store to TCM or scratchpad by a strand of a held core is on record as a handoff. -/
theorem mem_handoffs_handedOff (hs : Held s) (hspace : spaceOf p.key ≤ 1) (v : Word) :
    storeHandoff s p v ∈ (myRegion (retire (handedOff s p v))).handoffs := by
  have hstore : storeAt s (whoMe s) p (leBytes 8 v.toNat) true = storedAt s p (leBytes 8 v.toNat) true := by
    rw [storeAt_eq, if_neg (by omega)]
  have hnoted := noted_storedAt s p (leBytes 8 v.toNat) true
  have hctx := (framed_of_noted hnoted).ctx
  have hregion := myRegion_modRegionOf_of_held (held_of_noted hnoted hs)
    (f := fun r => { r with handoffs := storeHandoff s p v :: r.handoffs }) fun _ => rfl
  rw [hctx] at hregion
  rw [myRegion_retire, handedOff, hstore, noteHandoff, hregion]
  exact List.mem_cons_self

theorem leaves_stHEffect (d b : BitVec 5) (o : BitVec 11) (s : State) :
    Leaves (Pending s) (fun t => ∃ p, strandCheck s (scaledAddr (readS s b) o 8) 8 8 .store = .ok p ∧ WroteAt p 8 s t)
      (stHEffect d b o s) := by
  refine leaves_bind (leaves_vectorsDone s s) fun _ _ => leaves_bind (leaves_strandCheck s s _ _ _ _) fun p hp =>
    leaves_ite (pending_trap s _ _ _ _) (leaves_bind (leaves_accessReady s s _ _ _) fun _ _ => leaves_ite (pending_wait s _) ⟨p, hp, ?_⟩)
  exact wroteAt_retire (wroteAt_handedOff s p _)

end

/-- Settles O31: what each form stores is `storedMem`, or one more deferral, and `WroteAt` is its frame. -/
theorem storesComplete : Obligations.StoresComplete := by
  intro d b z o s p hl hwf n va vh x kept free hq
  refine ⟨fun hp hr hmode hfree => ?_, fun hp hr hmode hc => ?_, fun hp hr hmode hc hlim => ?_,
    fun hp hspace hclass hr hatoms hfree => ?_, fun hp helse => ?_⟩
  · have hwrote := wroteAt_storeAt s p (leBytes n x) false
    rw [leBytes_length] at hwrote
    refine ⟨_, exec_st_of_stored hq hp hr hl (putStore_of_plain hmode), ?_, kept_of_wroteAt (wroteAt_retire hwrote)⟩
    rw [retire_mem, storeAt_mem]
    exact memNat_storedMem _ hwf hfree
  · exact exec_st_of_stopped hq hp hr hl (putStore_of_copies hmode hc)
  · have hput := (putStore_deferred (bs := leBytes n x) hmode hc).trans (if_neg (Nat.not_le.2 hlim))
    refine ⟨_, exec_st_of_stored hq hp hr hl hput, kept_of_wroteAt (wroteAt_retire (wroteAt_deferredAt 0)), deferral s p (leBytes n x), ?_,
      rfl, rfl⟩
    exact (core_retire Core.deferred _ fun _ => rfl).trans deferred_deferredAt
  · have hdone := (stHEffect_of_checked hq hp).trans (stHAt_of_sync (d := d) hspace hclass hr hatoms)
    refine ⟨_, exec_stH.trans (issueWord_ok _ _ _ _ ⟨hl, rfl, rfl⟩ hdone), ?_, kept_of_wroteAt (wroteAt_retire (wroteAt_handedOff s p _)),
      fun hsome hlisted => ⟨_, mem_handoffs_handedOff ?_ hspace (readS s d), rfl, rfl, rfl⟩⟩
    · rw [retire_mem, handedOff_mem, memNat_storedMem _ hwf hfree]
      exact Nat.mod_eq_of_lt (readS s d).isLt
    · obtain ⟨id, hid⟩ := Option.isSome_iff_exists.1 hsome
      rw [hid] at hlisted
      obtain ⟨r, hr⟩ := Option.isSome_iff_exists.1 hlisted
      exact ⟨id, r, hid, hr⟩
  · exact exec_stH.trans (issueWord_error _ _ _ _ ⟨hl, rfl, rfl⟩ ((stHEffect_of_checked hq hp).trans (stHAt_elsewhere helse)))

end Sys2Proof.Machine
end

section
/-! PROOFS. Bit fields (R122, R123), and what a completed store changes (R117, R119). -/

namespace Sys2Proof.Machine

open Sys2Proof.Safety

/-! ### A field of bits replaced in a number -/

/-- The number with its field of `wd` bits from bit `o` replaced. -/
def fieldReplaced (t o wd x : Nat) : Nat := t - t / 2 ^ o % 2 ^ wd * 2 ^ o + x % 2 ^ wd * 2 ^ o

section
variable (t o wd x : Nat)

theorem fieldReplaced_eq : fieldReplaced t o wd x = t % 2 ^ o + 2 ^ o * (x % 2 ^ wd + 2 ^ wd * (t / 2 ^ o / 2 ^ wd)) := by
  have hsplit : t = t % 2 ^ o + 2 ^ o * (t / 2 ^ o % 2 ^ wd + 2 ^ wd * (t / 2 ^ o / 2 ^ wd)) := by
    rw [Nat.mod_add_div, Nat.mod_add_div]
  have hfield : t - t / 2 ^ o % 2 ^ wd * 2 ^ o = t % 2 ^ o + 2 ^ o * (2 ^ wd * (t / 2 ^ o / 2 ^ wd)) := by
    refine Nat.sub_eq_of_eq_add ?_
    conv_lhs => rw [hsplit]
    ring
  rw [fieldReplaced, hfield]
  ring

theorem fieldReplaced_mod : fieldReplaced t o wd x % 2 ^ o = t % 2 ^ o := by
  rw [fieldReplaced_eq, Nat.add_mul_mod_self_left, Nat.mod_mod]

theorem fieldReplaced_div : fieldReplaced t o wd x / 2 ^ o = x % 2 ^ wd + 2 ^ wd * (t / 2 ^ o / 2 ^ wd) := by
  rw [fieldReplaced_eq, Nat.add_mul_div_left _ _ (Nat.two_pow_pos o), Nat.div_eq_of_lt (Nat.mod_lt _ (Nat.two_pow_pos o)), Nat.zero_add]

theorem fieldReplaced_field : fieldReplaced t o wd x / 2 ^ o % 2 ^ wd = x % 2 ^ wd := by
  rw [fieldReplaced_div, Nat.add_mul_mod_self_left, Nat.mod_mod]

theorem fieldReplaced_above : fieldReplaced t o wd x / 2 ^ (o + wd) = t / 2 ^ (o + wd) := by
  rw [pow_add, ← Nat.div_div_eq_div_mul, ← Nat.div_div_eq_div_mul, fieldReplaced_div, Nat.add_mul_div_left _ _ (Nat.two_pow_pos wd),
    Nat.div_eq_of_lt (Nat.mod_lt _ (Nat.two_pow_pos wd)), Nat.zero_add]

/-- It needs no more bits than the number and the field. -/
theorem fieldReplaced_lt {t o wd : Nat} {n : Nat} (ht : t < 2 ^ n) (h : o + wd ≤ n) : fieldReplaced t o wd x < 2 ^ n := by
  have hpow : 2 ^ n = 2 ^ (n - (o + wd)) * 2 ^ (o + wd) := by rw [← pow_add, Nat.sub_add_cancel h]
  rw [hpow] at ht ⊢
  rw [← Nat.div_lt_iff_lt_mul (Nat.two_pow_pos _)] at ht ⊢
  rwa [fieldReplaced_above]

end

/-! ### The check of a bit address (R122) -/

/-- A place in memory without translation, read as it stands. -/
structure Untranslated (p : Place) : Prop where
  mode : p.mode = .untranslated
  readOnly : p.readOnly = false
  leaf : p.leaf = none

theorem strandCheck_eq_ok {s : State} {va : Word} {n al : Nat} {kind : AccKind} {p : Place} :
    strandCheck s va n al kind = .ok p ↔ checkAccess s (asMe s) va n al kind = .ok p := by
  rw [strandCheck]
  cases checkAccess s (asMe s) va n al kind with
  | ok q => exact ⟨fun h => congrArg _ (Except.ok.inj h), fun h => congrArg _ (Except.ok.inj h)⟩
  | error e => exact ⟨nofun, nofun⟩

/-- TCM and scratchpad are not translated. -/
theorem untranslated_of_check {s : State} {va : Word} {n al : Nat} {kind : AccKind} {p : Place}
    (h : strandCheck s va n al kind = .ok p) (hpath : fieldOf va 63 60 ≤ 1) : Untranslated p := by
  rw [strandCheck_eq_ok, checkAccess] at h
  rcases Nat.le_one_iff_eq_zero_or_eq_one.1 hpath with h0 | h1
  · simp only [h0, checkTcm] at h
    split_ifs at h
    cases h
    exact ⟨rfl, rfl, rfl⟩
  · simp only [h1] at h
    split_ifs at h
    cases h
    exact ⟨rfl, rfl, rfl⟩

/-- A bit address's word lies in TCM or scratchpad. -/
theorem path_of_bitAddress {ba wa : Word} {q : Nat} (h : bitAddress ba = some (q, wa)) : fieldOf wa 63 60 ≤ 1 := by
  rw [bitAddress] at h
  dsimp only at h
  split_ifs at h with hbad
  simp only [Bool.or_eq_true, decide_eq_true_eq, not_or, not_lt] at hbad
  obtain ⟨⟨hpath, -⟩, -⟩ := hbad
  cases h
  have hq : fieldOf ba 21 0 < 2 ^ 22 := Nat.mod_lt _ (by decide)
  rw [fieldOf, BitVec.toNat_ofNat]
  omega

/-- What a bit address's check gives: an offset, a number of words that holds the field, and a place without translation. -/
structure BitPlace (wd : Nat) (r : Nat × Nat × Place) : Prop where
  fits : r.1 + wd ≤ 8 * (8 * r.2.1)
  place : Untranslated r.2.2

theorem leaves_bitCheck (s : State) (ba : Word) {wd : Nat} (hwd : wd ≤ 64) (kind : AccKind) :
    Leaves (Pending s) (fun r => bitCheck s ba wd kind = .ok r ∧ BitPlace wd r) (bitCheck s ba wd kind) := by
  suffices h : Leaves (Pending s) (BitPlace wd) (bitCheck s ba wd kind) by
    cases hb : bitCheck s ba wd kind <;> rw [hb] at h
    · exact h
    · exact ⟨rfl, h⟩
  unfold bitCheck
  split
  · exact pending_trap s _ _ _ _
  next q wa hba =>
    have hfits : q % 64 + wd ≤ 8 * (8 * if 64 < q % 64 + wd then 2 else 1) := by
      have ho : q % 64 < 64 := Nat.mod_lt _ (by decide)
      split <;> omega
    refine leaves_bind (leaves_strandCheck s s _ _ _ _) fun p hp => ?_
    have hplace : BitPlace wd (q % 64, if 64 < q % 64 + wd then 2 else 1, p) := ⟨hfits, untranslated_of_check hp (path_of_bitAddress hba)⟩
    exact leaves_ite
      (leaves_bind (leaves_strandCheck s s _ _ _ _) fun _ _ => leaves_bind (leaves_accessReady s s _ _ _) fun _ _ => hplace)
      (leaves_bind (Q := fun _ => True) trivial fun _ _ => leaves_bind (leaves_accessReady s s _ _ _) fun _ _ => hplace)

theorem bitPlace_of_check {s : State} {ba : Word} {wd : Nat} {kind : AccKind} {r : Nat × Nat × Place} (hwd : wd ≤ 64)
    (h : bitCheck s ba wd kind = .ok r) : BitPlace wd r := by
  have hleaves := leaves_bitCheck s ba hwd kind
  rw [h] at hleaves
  exact hleaves.2

/-! ### `LDBIT` (R123) -/

/-- The field of `wd` bits from bit `o` of a number, extended. -/
def bitsLoaded (e : BitVec 1) (wd o x : Nat) : Word :=
  if e = 1#1 then (BitVec.ofNat wd (x / 2 ^ o % 2 ^ wd)).signExtend 64 else BitVec.ofNat 64 (x / 2 ^ o % 2 ^ wd)

theorem bitsLoaded_eq (e : BitVec 1) {wd : Nat} (hwd : 0 < wd) (o x : Nat) :
    bitsLoaded e wd o x =
      if e = 1#1 then BitVec.ofInt 64
        (if 2 ^ (wd - 1) ≤ x / 2 ^ o % 2 ^ wd then (↑(x / 2 ^ o % 2 ^ wd) : Int) - 2 ^ wd else ↑(x / 2 ^ o % 2 ^ wd))
      else BitVec.ofNat 64 (x / 2 ^ o % 2 ^ wd) := by
  rw [bitsLoaded, signExtend_ofNat hwd (Nat.mod_lt _ (Nat.two_pow_pos wd))]

/-- What `LDBIT` does at the words that its check gives. -/
def ldbitAt (d : BitVec 5) (e : BitVec 1) (wd : Nat) (s : State) (r : Nat × Nat × Place) : State :=
  retire (writeS (loadAt s (whoMe s) r.2.2 (8 * r.2.1)).2 d (bitsLoaded e wd r.1 (leNat (loadAt s (whoMe s) r.2.2 (8 * r.2.1)).1)))

/-- What `LDBIT` does. -/
def ldbitEffect (d a : BitVec 5) (e : BitVec 1) (w : BitVec 6) (s : State) : Except Stop State := do
  vectorsDone s
  let r ← bitCheck s (readS s a) (w.toNat + 1) .load
  pure (ldbitAt d e (w.toNat + 1) s r)

/-- What `STBIT` does at the words that its check gives. -/
def stbitAt (b : BitVec 5) (wd : Nat) (s : State) (r : Nat × Nat × Place) : State :=
  retire (storeAt s (whoMe s) r.2.2 (leBytes (8 * r.2.1) (fieldReplaced (memNat s.mem r.2.2.key (8 * r.2.1)) r.1 wd (readS s b).toNat)) false)

/-- What `STBIT` does. -/
def stbitEffect (a b : BitVec 5) (w : BitVec 6) (s : State) : Except Stop State := do
  vectorsDone s
  let r ← bitCheck s (readS s a) (w.toNat + 1) .store
  pure (stbitAt b (w.toNat + 1) s r)

section
variable {d a b : BitVec 5} {e : BitVec 1} {w : BitVec 6} {s : State} {r : Nat × Nat × Place}

theorem exec_ldbit : exec (.ldbit d a e w) s = issueWord (.ldbit d a e w) s (ldbitEffect d a e w) := by rfl

theorem exec_stbit : exec (.stbit a b w) s = issueWord (.stbit a b w) s (stbitEffect a b w) := by rfl

theorem exec_ldbit_of_checked (hl : (me s).live = true) (hq : vqBusy s = false) (h : bitCheck s (readS s a) (w.toNat + 1) .load = .ok r) :
    exec (.ldbit d a e w) s = .next (ldbitAt d e (w.toNat + 1) s r) := by
  rw [exec_ldbit]
  refine issueWord_ok _ _ _ _ ⟨hl, rfl, rfl⟩ ?_
  rw [ldbitEffect, vectorsDone_of_idle hq, h]
  rfl

theorem exec_stbit_of_checked (hl : (me s).live = true) (hq : vqBusy s = false) (h : bitCheck s (readS s a) (w.toNat + 1) .store = .ok r) :
    exec (.stbit a b w) s = .next (stbitAt b (w.toNat + 1) s r) := by
  rw [exec_stbit]
  refine issueWord_ok _ _ _ _ ⟨hl, rfl, rfl⟩ ?_
  rw [stbitEffect, vectorsDone_of_idle hq, h]
  rfl

theorem wroteAt_stbitAt (b : BitVec 5) (wd : Nat) (s : State) (r : Nat × Nat × Place) : WroteAt r.2.2 (8 * r.2.1) s (stbitAt b wd s r) := by
  have hstore := wroteAt_storeAt s r.2.2
    (leBytes (8 * r.2.1) (fieldReplaced (memNat s.mem r.2.2.key (8 * r.2.1)) r.1 wd (readS s b).toNat)) false
  rw [leBytes_length] at hstore
  exact wroteAt_retire hstore

/-- The words after `STBIT`: the field replaced. -/
theorem memNat_stbitAt {wd : Nat} (hwf : Memory.wf s.mem = true) (hopen : Unguarded s r.2.2.key (8 * r.2.1)) (hfits : BitPlace wd r) :
    memNat (stbitAt b wd s r).mem r.2.2.key (8 * r.2.1) =
      fieldReplaced (memNat s.mem r.2.2.key (8 * r.2.1)) r.1 wd (readS s b).toNat := by
  rw [stbitAt, retire_mem, storeAt_mem, memNat_storedMem _ hwf hopen]
  exact Nat.mod_eq_of_lt (fieldReplaced_lt _ (memNat_lt _ _ _) hfits.fits)

theorem leaves_stbitEffect (a b : BitVec 5) (w : BitVec 6) (s : State) :
    Leaves (Pending s) (fun t => ∃ r, bitCheck s (readS s a) (w.toNat + 1) .store = .ok r ∧ WroteAt r.2.2 (8 * r.2.1) s t)
      (stbitEffect a b w s) :=
  leaves_bind (leaves_vectorsDone s s) fun _ _ => leaves_bind (leaves_bitCheck s _ (Nat.succ_le_of_lt w.isLt) _) fun r hr =>
    ⟨r, hr.1, wroteAt_stbitAt b _ s r⟩

end

/-- Settles O34: what is loaded is memory's (`clearBytes_of_unguarded`), and what is stored has the field replaced (`fieldReplaced`). -/
theorem bitFieldsComplete : Obligations.BitFieldsComplete := by
  intro d a b e w s o k p hl hwf hq wd free old
  have hwd : wd ≤ 64 := Nat.succ_le_of_lt w.isLt
  refine ⟨fun hcheck hfree hclear => ?_, fun hcheck hfree => ?_⟩
  · obtain ⟨-, hmode, hro, hleaf⟩ := bitPlace_of_check hwd hcheck
    dsimp only at hmode hro hleaf
    have hload : loadAt s (whoMe s) p (8 * k) = (readBytes s.mem p.key (8 * k), markedNote s p (8 * k) false none false) := by
      rw [loadAt_of_clear hclear, clearBytes_of_unguarded (by simp [hmode]) hro hfree]
      rfl
    obtain ⟨hscalars, hv, hk, -, -, -, hmem, hdest⟩ := after_load (noted_markedNote s p (8 * k) false none false) d (bitsLoaded e wd o old)
    have hexec := exec_ldbit_of_checked (d := d) (e := e) hl hq hcheck
    rw [ldbitAt, hload] at hexec
    refine ⟨_, hexec, fun a => ?_, hscalars, hv, hk, fun hd => (hdest hd).trans (bitsLoaded_eq e (Nat.succ_pos _) o old)⟩
    refine (congrArg (memRead · a) hmem).trans ?_
    rw [markedNote_mem, memRead_markedMem_other (by simp [hleaf])]
  · have hplace := bitPlace_of_check hwd hcheck
    have hleaf := hplace.place.leaf
    dsimp only at hleaf
    refine ⟨_, exec_stbit_of_checked hl hq hcheck, fun a ha => (wroteAt_stbitAt b wd s (o, k, p)).mem a ha (by simp [hleaf]), ?_⟩
    rw [memNat_stbitAt (r := (o, k, p)) hwf hfree hplace]
    exact ⟨fieldReplaced_field _ _ _ _, fieldReplaced_mod _ _ _ _, fieldReplaced_above _ _ _ _⟩

/-- Settles O32: a word that completes has gone through (`leaves_of_completed`), and written where its check says. -/
theorem storeFrame : Obligations.StoreFrame := by
  intro d b z o w s t hc kept
  refine ⟨fun h => ?_, fun h => ?_, fun h => ?_⟩
  · obtain ⟨p, hp, hwrote⟩ := leaves_of_completed (leaves_stEffect d b z o s) (exec_st.symm.trans h) hc
    exact ⟨p, hp, kept_of_wroteAt hwrote⟩
  · obtain ⟨p, hp, hwrote⟩ := leaves_of_completed (leaves_stHEffect d b o s) (exec_stH.symm.trans h) hc
    exact ⟨p, hp, kept_of_wroteAt hwrote⟩
  · obtain ⟨r, hr, hwrote⟩ := leaves_of_completed (leaves_stbitEffect d b w s) (exec_stbit.symm.trans h) hc
    exact ⟨r, hr, kept_of_wroteAt hwrote⟩

end Sys2Proof.Machine
end

section
/-! PROOFS. The checks of a load's and a store's address (R32, R113 to R115). -/

namespace Sys2Proof.Machine

open Sys2Proof.Safety

/-! ### Addresses on no path, and misaligned ones (R32, R113) -/

section
variable {s : State} {va : Word} {n al : Nat} {kind : AccKind}

theorem strandCheck_of_no_path (h : zeroBitsOk va = false) : strandCheck s va n al kind = .error (.trap cAccess 0 va (accCode kind)) := by
  rw [strandCheck, checkAccess, h]
  rfl

theorem strandCheck_of_misaligned (h : zeroBitsOk va = true) (hal : va.toNat % al ≠ 0) :
    strandCheck s va n al kind = .error (.trap cMisaligned 0 va (accCode kind)) := by
  rw [strandCheck, checkAccess, h]
  simp only [Bool.not_true, Bool.false_eq_true, if_false, if_pos hal]
  rfl

end

/-! ### The check of a TCM access (R114, R115) -/

theorem inBounds_iff (x : Core) (o n : Nat) :
    inBounds x o n = true ↔ x.guardLo.toNat / 256 % 1024 ≤ o / 256 ∧ (o + n - 1) / 256 ≤ x.guardHi.toNat / 256 % 1024 := by
  rw [inBounds, Bool.and_eq_true, decide_eq_true_eq, decide_eq_true_eq]
  rfl

section
variable {va : Word} (hva : va.toNat < 2 ^ 18)
include hva

theorem fields_of_tcm_address : fieldOf va 63 60 = 0 ∧ fieldOf va 17 0 = va.toNat ∧ zeroBitsOk va = true := by
  have hpath : fieldOf va 63 60 = 0 := by
    rw [fieldOf]
    omega
  have hzero : fieldOf va 59 18 = 0 := by
    rw [fieldOf]
    omega
  refine ⟨hpath, ?_, ?_⟩
  · rw [fieldOf]
    omega
  · rw [zeroBitsOk, hpath]
    exact decide_eq_true hzero

/-- An aligned TCM access passes as `checkTcm` says. -/
theorem checkAccess_tcm (s : State) (n : Nat) {al : Nat} (kind : AccKind) (hal : va.toNat % al = 0) :
    checkAccess s (asMe s) va n al kind = checkTcm s (asMe s) va n kind := by
  obtain ⟨hpath, -, hzero⟩ := fields_of_tcm_address hva
  rw [checkAccess, hzero, if_neg (by decide), if_neg (not_not_intro hal)]
  simp only [hpath]

/-- Inside the bounds and past the uniform area, or a load wholly in it; never the target of an `AMOSEQ`. -/
theorem checkTcm_eq_ok (s : State) (n : Nat) (kind : AccKind) (p : Place) :
    checkTcm s (asMe s) va n kind = .ok p ↔
      (kind = .load ∨ 0x1000 ≤ va.toNat) ∧ (inBounds (myCore s) va.toNat n = true ∨ (kind = .load ∧ va.toNat + n ≤ 0x1000)) ∧
        kind ≠ .amoseq ∧ { tcmPlace s.ctx.core va.toNat with va := va } = p := by
  obtain ⟨-, hoff, -⟩ := fields_of_tcm_address hva
  have hcore : guardedBy (getCore s (asMe s).core) (asMe s).guard = myCore s := rfl
  have huniform : (kind ≠ .load && va.toNat < 0x1000) = true ↔ ¬(kind = .load ∨ 0x1000 ≤ va.toNat) := by simp
  have hbounds : (!inBounds (myCore s) va.toNat n && !(kind = .load && va.toNat + n ≤ 0x1000)) = true ↔
      ¬(inBounds (myCore s) va.toNat n = true ∨ (kind = .load ∧ va.toNat + n ≤ 0x1000)) := by
    rw [← Bool.not_or, Bool.not_eq_true', ← Bool.not_eq_true, Bool.or_eq_true, Bool.and_eq_true, decide_eq_true_eq, decide_eq_true_eq]
  rw [checkTcm, hoff, hcore]
  simp only [huniform, hbounds]
  split_ifs with hu hb hseq
  · exact ⟨nofun, fun h => absurd hseq h.2.2.1⟩
  · exact ⟨fun h => ⟨hu, hb, hseq, Except.ok.inj h⟩, fun h => congrArg Except.ok h.2.2.2⟩
  · exact ⟨nofun, fun h => absurd h.2.1 hb⟩
  · exact ⟨nofun, fun h => absurd h.1 hu⟩

/-- `checkTcm_eq_ok` for the check of an aligned access, with the bounds in granules of 256 bytes. -/
theorem strandCheck_tcm_eq_ok (s : State) (n : Nat) {al : Nat} (kind : AccKind) (hal : va.toNat % al = 0) (p : Place) :
    strandCheck s va n al kind = .ok p ↔
      (kind = .load ∨ 0x1000 ≤ va.toNat) ∧
        (((myCore s).guardLo.toNat / 256 % 1024 ≤ va.toNat / 256 ∧ (va.toNat + n - 1) / 256 ≤ (myCore s).guardHi.toNat / 256 % 1024) ∨
          (kind = .load ∧ va.toNat + n ≤ 0x1000)) ∧
        kind ≠ .amoseq ∧ { tcmPlace s.ctx.core va.toNat with va := va } = p := by
  rw [strandCheck_eq_ok, checkAccess_tcm hva s n kind hal, checkTcm_eq_ok hva, inBounds_iff]

/-- An `AMOSEQ` has no target in TCM, aligned or not. -/
theorem not_amoseq_tcm (s : State) (n al : Nat) (p : Place) : strandCheck s va n al .amoseq ≠ .ok p := by
  obtain ⟨-, -, hzero⟩ := fields_of_tcm_address hva
  intro h
  by_cases hal : va.toNat % al = 0
  · rw [strandCheck_eq_ok, checkAccess_tcm hva s n _ hal, checkTcm_eq_ok hva] at h
    exact h.2.2.1 rfl
  · rw [strandCheck_of_misaligned hzero hal] at h
    cases h

end

/-- Settles O33: the order of the checks, and `checkTcm_eq_ok`. -/
theorem accessesAreChecked : Obligations.AccessesAreChecked := by
  refine ⟨fun d b ty z o s hl hq => ⟨fun hz hal => ?_, fun hz => ?_, fun hz hal => ?_, fun hz => ?_⟩, fun s va n kind hva _ hal hseq => ?_⟩
  · exact exec_ld_of_refused hl hq (strandCheck_of_misaligned hz hal)
  · exact exec_ld_of_refused hl hq (strandCheck_of_no_path hz)
  · exact exec_st_of_refused hl hq (strandCheck_of_misaligned hz hal)
  · exact exec_st_of_refused hl hq (strandCheck_of_no_path hz)
  · have hcheck := strandCheck_tcm_eq_ok hva s n kind hal
    refine ⟨⟨fun ⟨p, hp⟩ => ?_, fun h => ?_⟩, fun m al ⟨p, hp⟩ => not_amoseq_tcm hva s m al p hp, fun p hp => ?_⟩
    · obtain ⟨huniform, hbounds, -⟩ := (hcheck p).1 hp
      exact ⟨huniform, hbounds⟩
    · exact ⟨_, (hcheck _).2 ⟨h.1, h.2, hseq, rfl⟩⟩
    · obtain ⟨-, -, -, rfl⟩ := (hcheck p).1 hp
      exact ⟨rfl, rfl, rfl⟩

end Sys2Proof.Machine
end

section
/-! PROOFS. The transposing load (R124). -/

namespace Sys2Proof.Machine

open Sys2Proof.Safety

/-! ### Pieces of a little-endian run (R4) -/

theorem leNat_append (a b : List Byte) : leNat (a ++ b) = leNat a + 256 ^ a.length * leNat b := by
  induction a with
  | nil => simp [leNat]
  | cons x a ih =>
    have hcons : ∀ (y : Byte) (l : List Byte), leNat (y :: l) = y.toNat + 256 * leNat l := fun _ _ => rfl
    rw [List.cons_append, hcons, hcons, ih, List.length_cons, pow_succ]
    ring

/-- Of pieces of one length in a row, each is found at its place. -/
theorem leNat_flatMap_piece {α : Type} (f : α → List Byte) {w : Nat} (l : List α) (hf : ∀ x ∈ l, (f x).length = w)
    {i : Nat} (hi : i < l.length) :
    leNat (l.flatMap f) / 256 ^ (w * i) % 256 ^ w = leNat (f l[i]) := by
  induction l generalizing i with
  | nil => exact absurd hi (Nat.not_lt_zero i)
  | cons x l ih =>
    have hx : (f x).length = w := hf x List.mem_cons_self
    have hlt : leNat (f x) < 256 ^ w := hx ▸ leNat_lt (f x)
    rw [List.flatMap_cons, leNat_append, hx]
    cases i with
    | zero =>
      rw [Nat.mul_zero, pow_zero, Nat.div_one, Nat.add_mul_mod_self_left, Nat.mod_eq_of_lt hlt]
      rfl
    | succ i =>
      have hpow : 256 ^ (w * (i + 1)) = 256 ^ w * 256 ^ (w * i) := by rw [← pow_add, Nat.mul_add_one, Nat.add_comm]
      rw [hpow, ← Nat.div_div_eq_div_mul, Nat.add_mul_div_left _ _ (Nat.pow_pos (by decide)), Nat.div_eq_of_lt hlt, Nat.zero_add]
      exact ih (fun y hy => hf y (List.mem_cons_of_mem _ hy)) (Nat.lt_of_succ_lt_succ hi)

theorem readBytes_slice (m : Memory) (k : Nat) {n i w : Nat} (h : i + w ≤ n) : ((readBytes m k n).drop i).take w = readBytes m (k + i) w := by
  refine List.ext_getElem ?_ fun j _ _ => ?_
  · simp only [readBytes, List.length_take, List.length_drop, List.length_map, List.length_range]
    omega
  · simp only [readBytes, List.getElem_take, List.getElem_drop, List.getElem_map, List.getElem_range, Nat.add_assoc]

/-- Element `i` of column `j` of a block of rows that memory holds is element `j` of row `i`. -/
theorem elemOf_ldtColumn (m : Memory) (key : Nat → Nat) {w n i j : Nat} (hw : w * n = 32) (hi : i < n) (hj : j < n) :
    elemOf (ldtColumn ((List.range n).map fun i => readBytes m (key i) 32) w j) w i = memNat m (key i + w * j) w := by
  have hfit : w * j + w ≤ 32 := hw ▸ (Nat.mul_succ w j ▸ Nat.mul_le_mul_left w hj)
  have hpiece : ∀ k, ((readBytes m k 32).drop (w * j)).take w = readBytes m (k + w * j) w := fun k => readBytes_slice m k hfit
  have hlen : ∀ k, (readBytes m k w).length = w := fun k => by rw [readBytes, List.length_map, List.length_range]
  have hbytes : ((List.range n).map fun i => readBytes m (key i) 32).flatMap (fun r => (r.drop (w * j)).take w) =
      (List.range n).flatMap fun i => readBytes m (key i + w * j) w := by
    simp only [List.flatMap_map, hpiece]
  have hlt : leNat ((List.range n).flatMap fun i => readBytes m (key i + w * j) w) < 2 ^ 256 := by
    have h := leNat_lt ((List.range n).flatMap fun i => readBytes m (key i + w * j) w)
    have hlength : ((List.range n).flatMap fun i => readBytes m (key i + w * j) w).length = 32 := by
      simp only [List.length_flatMap, hlen, List.map_const', List.sum_replicate, List.length_range, smul_eq_mul]
      rw [Nat.mul_comm, hw]
    rwa [hlength, show (256 : Nat) ^ 32 = 2 ^ 256 from by norm_num] at h
  have hfind := leNat_flatMap_piece (fun i => readBytes m (key i + w * j) w) (List.range n) (fun _ _ => hlen _) (i := i) (by rwa [List.length_range])
  rw [List.getElem_range, show (256 : Nat) = 2 ^ 8 from rfl, ← pow_mul, ← pow_mul, ← Nat.mul_assoc] at hfind
  rw [elemOf, ldtColumn, hbytes, BitVec.toNat_ofNat, Nat.mod_eq_of_lt hlt]
  exact hfind

/-! ### The rows (R124) -/

/-- The rows pass their checks. -/
theorem ldtRows_of_checked {s : State} {base stride : Word} {row : Nat → Place} (n i : Nat)
    (h : ∀ k, i ≤ k → k < i + n → strandCheck s (base + BitVec.ofNat 64 k * stride) 32 32 .load = .ok (row k) ∧
      accessReady s (row k) 32 false = .ok ()) : ldtRows s base stride n i = .ok ((List.range' i n).map row) := by
  induction n generalizing i with
  | zero => rfl
  | succ n ih =>
    obtain ⟨hp, hr⟩ := h i le_rfl (by omega)
    have hrest := ih (i + 1) fun k hk hlt => h k (by omega) (by omega)
    rw [ldtRows, hp]
    change (accessReady s (row i) 32 false >>= fun _ => ldtRows s base stride n (i + 1) >>= fun ps => .ok (row i :: ps)) = _
    rw [hr, hrest]
    rfl

theorem ldtLoad_cons (s : State) (p : Place) (ps : List Place) :
    ldtLoad s (p :: ps) =
      ((loadAt s (whoMe s) p 32).1 :: (ldtLoad (loadAt s (whoMe s) p 32).2 ps).1, (ldtLoad (loadAt s (whoMe s) p 32).2 ps).2) := rfl

/-- Loads one after the other leave their notes and marks. -/
theorem noted_ldtLoad (ps : List Place) (s : State) :
    Noted s (ldtLoad s ps).2 ∧ ∀ k, (∀ p ∈ ps, p.leaf ≠ some k) → memRead (ldtLoad s ps).2.mem k = memRead s.mem k := by
  induction ps generalizing s with
  | nil => exact ⟨noted_refl s, fun _ _ => rfl⟩
  | cons p ps ih =>
    obtain ⟨hnoted, hmem⟩ := ih (loadAt s (whoMe s) p 32).2
    rw [ldtLoad_cons]
    refine ⟨noted_trans (noted_loadAt s p 32) hnoted, fun k hk => (hmem k fun q hq => hk q (List.mem_cons_of_mem _ hq)).trans ?_⟩
    rw [loadAt_mem, memRead_markedMem_other (hk p List.mem_cons_self)]

/-- A place whose bytes a load reads as memory holds them: open, not translated to a leaf, and read as it stands. -/
structure PlainRow (s : State) (p : Place) : Prop where
  unguarded : Unguarded s p.key 32
  leaf : p.leaf = none
  readOnly : p.readOnly = false
  mode : p.mode ≠ .ex

/-- In a quiet log the rows loaded are memory's. -/
theorem ldtLoad_of_quiet (ps : List Place) (s : State) (hq : Safety.Quiet s) (h : ∀ p ∈ ps, PlainRow s p) :
    (ldtLoad s ps).1 = ps.map fun p => readBytes s.mem p.key 32 := by
  induction ps generalizing s with
  | nil => rfl
  | cons p ps ih =>
    obtain ⟨hopen, hleaf, hro, hmode⟩ := h p List.mem_cons_self
    have hmark : markedMem s p false = s.mem := by rw [markedMem, hleaf]
    have hclear : loadConflicts s (whoMe s) p 32 = false := by
      rw [loadConflicts, markLeaf_eq, hmark]
      exact (noteAccess_of_quiet hq p 32).1
    have hbytes : (loadAt s (whoMe s) p 32).1 = readBytes s.mem p.key 32 := by
      rw [loadAt_of_clear hclear, clearBytes_of_unguarded hmode hro hopen]
    have hmem : (loadAt s (whoMe s) p 32).2.mem = s.mem := (loadAt_mem s p 32).trans hmark
    obtain ⟨-, hquiet, hclasses⟩ := staysQuiet_loadAt hq hleaf 32
    have hrest := ih (loadAt s (whoMe s) p 32).2 hquiet fun q hq => by
      obtain ⟨hopen, hleaf, hro, hmode⟩ := h q (List.mem_cons_of_mem _ hq)
      exact ⟨unguarded_of_classes_eq hclasses hopen, hleaf, hro, hmode⟩
    rw [ldtLoad_cons, List.map_cons, hbytes, hrest, hmem]

/-! ### The columns (R124) -/

/-- The first `n` columns written to the registers from `d` on. -/
def columnsWritten (d : BitVec 5) (rows : List (List Byte)) (w n : Nat) (s : State) : State :=
  (List.range n).foldl (fun s j => writeV s (d + BitVec.ofNat 5 j) (ldtColumn rows w j)) s

section
variable {d : BitVec 5} {rows : List (List Byte)} {w : Nat}

theorem columnsWritten_succ (n : Nat) (s : State) :
    columnsWritten d rows w (n + 1) s = writeV (columnsWritten d rows w n s) (d + BitVec.ofNat 5 n) (ldtColumn rows w n) := by
  rw [columnsWritten, List.range_succ, List.foldl_append]
  rfl

theorem columnsWritten_frame (n : Nat) (s : State) :
    (columnsWritten d rows w n s).ctx = s.ctx ∧ OnlyMyStrand s (columnsWritten d rows w n s) ∧
      (me (columnsWritten d rows w n s)).regs.s = (me s).regs.s ∧ (me (columnsWritten d rows w n s)).regs.k = (me s).regs.k ∧
      (me (columnsWritten d rows w n s)).trap = (me s).trap := by
  induction n with
  | zero => exact ⟨rfl, onlyMyStrand_refl s, rfl, rfl, rfl⟩
  | succ n ih =>
    obtain ⟨hctx, honly, hs, hk, htrap⟩ := ih
    rw [columnsWritten_succ, me_writeV]
    exact ⟨hctx, onlyMyStrand_trans hctx honly (modMe_onlyMyStrand _ _), hs, hk, htrap⟩

/-- A vector register from `d` on has its column, and the others are as they were. -/
theorem columnsWritten_v {n : Nat} (hn : d.toNat + n ≤ 32) (s : State) (r : Fin 32) :
    (me (columnsWritten d rows w n s)).regs.v[r] =
      if d.toNat ≤ r ∧ r < d.toNat + n then ldtColumn rows w (r - d.toNat) else (me s).regs.v[r] := by
  induction n with
  | zero => rw [if_neg (by omega)]; rfl
  | succ n ih =>
    have hreg : (d + BitVec.ofNat 5 n).toNat = d.toNat + n := by
      rw [BitVec.toNat_add, BitVec.toNat_ofNat]
      omega
    rw [columnsWritten_succ, me_writeV]
    simp only [putV, Fin.getElem_fin, Vector.getElem_set, hreg]
    by_cases hr : d.toNat + n = r
    · rw [if_pos hr, if_pos (by omega), ← hr, Nat.add_sub_cancel_left]
    · rw [if_neg hr]
      refine (ih (by omega)).trans ?_
      have hiff : (d.toNat ≤ r ∧ r < d.toNat + n) ↔ d.toNat ≤ r ∧ r < d.toNat + (n + 1) := by omega
      simp only [hiff]
      rfl

end

/-! ### `LDT` -/

/-- What `LDT` does once its rows have passed their checks. -/
def ldtDone (d : BitVec 5) (w n : Nat) (s : State) (ps : List Place) : State :=
  retire (columnsWritten d (ldtLoad s ps).1 w n (ldtLoad s ps).2)

/-- What `LDT` does. -/
def ldtEffect (d a b : BitVec 5) (e : BitVec 2) (s : State) : Except Stop State := do
  vectorsDone s
  if 1 < fieldOf (readS s a) 63 60 then .error (.trap cAccess 0 (readS s a) 1)
  else if (readS s a).toNat % 32 ≠ 0 || (readS s b).toNat % 32 ≠ 0 then .error (.trap cMisaligned 0 (readS s a) 1)
  else
    let ps ← ldtRows s (readS s a) (readS s b) (32 / 2 ^ e.toNat) 0
    pure (ldtDone d (2 ^ e.toNat) (32 / 2 ^ e.toNat) s ps)

section
variable {d a b : BitVec 5} {e : BitVec 2} {s : State} {row : Nat → Place}

theorem exec_ldt : exec (.ldt d a b e) s = issueWord (.ldt d a b e) s (ldtEffect d a b e) := by rfl

theorem exec_ldt_of_checked (hi : Issuable (.ldt d a b e) s) (hq : vqBusy s = false) (hpath : (readS s a).toNat / 2 ^ 60 ≤ 1)
    (hbase : (readS s a).toNat % 32 = 0) (hstride : (readS s b).toNat % 32 = 0)
    (hrows : ∀ i, i < 32 / 2 ^ e.toNat → strandCheck s (readS s a + BitVec.ofNat 64 i * readS s b) 32 32 .load = .ok (row i) ∧
      accessReady s (row i) 32 false = .ok ()) :
    exec (.ldt d a b e) s = .next (ldtDone d (2 ^ e.toNat) (32 / 2 ^ e.toNat) s ((List.range (32 / 2 ^ e.toNat)).map row)) := by
  have hfield : ¬1 < fieldOf (readS s a) 63 60 := by
    rw [fieldOf]
    omega
  have hchecked := ldtRows_of_checked (32 / 2 ^ e.toNat) 0 fun k _ hk => hrows k (by omega)
  rw [exec_ldt]
  refine issueWord_ok _ _ _ _ hi ?_
  rw [ldtEffect, vectorsDone_of_idle hq]
  refine (if_neg hfield).trans ((if_neg ?_).trans ?_)
  · simp [hbase, hstride]
  · rw [hchecked, ← List.range_eq_range']
    rfl

/-- The columns fit the registers (R124). -/
theorem ldt_fits (h : wellFormed (.ldt d a b e) = true) : d.toNat + 32 / 2 ^ e.toNat ≤ 32 := by
  have hd := d.isLt
  simp only [wellFormed, Bool.or_eq_true, Bool.and_eq_true, decide_eq_true_eq] at h
  rcases h with ⟨rfl, h⟩ | ⟨rfl, h⟩
  · change d.toNat + 16 ≤ 32
    omega
  · change d.toNat + 8 ≤ 32
    omega

end

/-- Settles O35: the rows loaded (`ldtLoad_of_quiet`), and columns written of them (`columnsWritten_v`, `elemOf_ldtColumn`). -/
theorem transposingLoadCompletes : Obligations.TransposingLoadCompletes := by
  intro d a b e s row hi hq sz n va hpath hbase hstride hrows
  have hfits : d.toNat + n ≤ 32 := ldt_fits hi.2.2
  obtain ⟨hnoted, hmem⟩ := noted_ldtLoad ((List.range n).map row) s
  have hcolumns := columnsWritten_v (rows := (ldtLoad s ((List.range n).map row)).1) (w := sz) hfits (ldtLoad s ((List.range n).map row)).2
  obtain ⟨hctx, honly, hs, hk, htrap⟩ := columnsWritten_frame (d := d) (rows := (ldtLoad s ((List.range n).map row)).1) (w := sz) n
    (ldtLoad s ((List.range n).map row)).2
  have hframed := framed_of_noted hnoted
  have hregs := me_retire_regs (columnsWritten d (ldtLoad s ((List.range n).map row)).1 sz n (ldtLoad s ((List.range n).map row)).2)
  have honly' := onlyMyStrand_trans hctx honly (retire_onlyMyStrand _)
  obtain ⟨hout, hcore⟩ := outside_of_noted hnoted honly'
  refine ⟨_, exec_ldt_of_checked hi hq hpath hbase hstride hrows, fun k hk => ?_, ?_, ?_, ?_, hout, hcore, fun r hr => ?_,
    fun hlog hdoubts hplain j hj i hi hr => ?_⟩
  · refine (honly'.1 k).trans (hmem k fun p hp => ?_)
    obtain ⟨i, hi, rfl⟩ := List.mem_map.1 hp
    exact hk i (List.mem_range.1 hi)
  · rw [ScalarsSame, ldtDone, hregs, hs, hframed.regs]
  · rw [MasksSame, ldtDone, hregs, hk, hframed.regs]
  · rw [TrapRegsSame, ldtDone, me_retire_trap, htrap, hframed.trap]
  · rw [ldtDone, hregs, hcolumns, if_neg (by omega), hframed.regs]
  · have hquiet := ldtLoad_of_quiet ((List.range n).map row) s ⟨hlog, hdoubts⟩ fun p hp => by
      obtain ⟨k, hk, rfl⟩ := List.mem_map.1 hp
      obtain ⟨hopen, hleaf, hro, hmode⟩ := hplain k (List.mem_range.1 hk)
      exact ⟨hopen, hleaf, hro, hmode⟩
    have hsize : sz * n = 32 := by
      have : ∀ e : BitVec 2, 2 ^ e.toNat * (32 / 2 ^ e.toNat) = 32 := by decide
      exact this e
    have hcolumn := hcolumns ⟨d.toNat + j, hr⟩
    rw [if_pos ⟨Nat.le_add_right _ _, Nat.add_lt_add_left hj _⟩] at hcolumn
    rw [ldtDone, hregs]
    refine (congrArg (elemOf · sz i) hcolumn).trans ?_
    rw [Nat.add_sub_cancel_left, hquiet, List.map_map]
    exact elemOf_ldtColumn s.mem (fun i => (row i).key) hsize hi hj

end Sys2Proof.Machine
end

section
/-! PROOFS. Atomics sent to their homes (R125 to R130, R434). -/

namespace Sys2Proof.Machine

open Sys2Proof.Safety

/-! ### What a queued request leaves -/

section
variable {p : Place} {s t : State}

/-- Memory but for the leaf, and every register, as the statement writes it. -/
theorem kept_of_leaf_marked (hmem : ∀ k, p.leaf ≠ some k → memRead t.mem k = memRead s.mem k) (hf : Framed s t) :
    (∀ k, p.leaf ≠ some k → memRead t.mem k = memRead s.mem k) ∧ RegsSame s t ∧ TrapRegsSame s t ∧ OutsideSame s t := by
  obtain ⟨hs, hv, hk, htrap, hout⟩ := registers_of_framed hf
  exact ⟨hmem, ⟨hs, hv, hk⟩, htrap, hout⟩

/-- The region's queues are not the checker's record. -/
theorem atoms_of_noted (h : Noted s t) : (myRegion t).atoms = (myRegion s).atoms := by
  have hatoms := congrArg Region.atoms (logless_myRegion_of_noted h)
  exact hatoms

end

section
variable {s : State}

theorem myCore_modRegionOf (s : State) (c : Nat) (f : Region → Region) : myCore (modRegionOf s c f) = myCore s := by
  unfold modRegionOf
  split <;> rfl

variable {f : Core → Core} (hf : ∀ x, (f x).region = x.region)
include hf

theorem held_modMyCore (hs : Held s) : Held (modMyCore s f) := by
  obtain ⟨id, r, hid, hr⟩ := hs
  exact ⟨id, r, by rw [myCore_modMyCore, hf]; exact hid, hr⟩

theorem myRegion_modMyCore : myRegion (modMyCore s f) = myRegion s := by
  have hregion : (getCore (modMyCore s f) s.ctx.core).region = (getCore s s.ctx.core).region := by
    rw [modMyCore, getCore_modCore_same, hf]
  rw [myRegion, myRegion, modMyCore_ctx, regionOf, regionOf, hregion]
  rfl

end

/-! ### No-return atomics (R125 to R128) -/

/-- Bytes of an atomic's operand. -/
def atomSize (w : BitVec 1) : Nat := if w = 1#1 then 8 else 4

/-- The request of a no-return atomic. -/
def atomRequest (op : BitVec 3) (a b : BitVec 5) (w : BitVec 1) (s : State) (p : Place) : AtomReq :=
  { core := s.ctx.core, strand := s.ctx.strand, count := (myCore s).atomCount, op := op, wide := decide (w = 1#1), key := p.key
    va := readS s a, operand := BitVec.ofNat 64 ((readS s b).toNat % 2 ^ (8 * atomSize w)) }

/-- The atomic's access marked and noted. -/
def atomNoted (op : BitVec 3) (w : BitVec 1) (s : State) (p : Place) : State :=
  markedNote s p (atomSize w) true (some (op, decide (w = 1#1))) false

/-- The region with one more request on its way. -/
def requestAdded (q : AtomReq) (r : Region) : Region := { r with atoms := r.atoms ++ [q] }

/-- The core with one request id used up. -/
def nextAtom (x : Core) : Core := { x with atomCount := x.atomCount + 1#16 }

/-- The request sent with the next request id. -/
def atomSent (op : BitVec 3) (a b : BitVec 5) (w : BitVec 1) (s : State) (p : Place) : State :=
  modRegionOf (modMyCore (atomNoted op w s p) nextAtom) s.ctx.core (requestAdded (atomRequest op a b w s p))

/-- What a no-return atomic does at a place that passed its check. -/
def noReturnAt (op : BitVec 3) (a b : BitVec 5) (w : BitVec 1) (s : State) (p : Place) : Except Stop State :=
  if spaceOf p.key = 5 && (op ≠ 0#3 || !decide (w = 1#1)) then .error (.trap cAccess 2 (readS s a) 3)
  else do
    accessReady s p (atomSize w) true
    if atomsFull s then .error (.wait .stall)
    else if classAt (myRegion s) p.key = 2 && (watchCode p).isSome then pure (retire (atomNoted op w s p))
    else pure (retire (atomSent op a b w s p))

/-- What a no-return atomic does. -/
def noReturnEffect (op : BitVec 3) (a b : BitVec 5) (w : BitVec 1) (s : State) : Except Stop State := do
  vectorsDone s
  let p ← strandCheck s (readS s a) (atomSize w) (atomSize w) .amo
  noReturnAt op a b w s p

section
variable {i : Instr} {op : BitVec 3} {a b : BitVec 5} {w : BitVec 1} {s : State} {p : Place}

theorem noReturn_eq (i : Instr) (op : BitVec 3) (a b : BitVec 5) (w : BitVec 1) (s : State) :
    noReturn i op a b w s = issueWord i s (noReturnEffect op a b w) := by rfl

/-- The eight forms, one by one. -/
theorem exec_of_atomicForm (h : atomicForm i = some (op, a, b, w)) (hl : (me s).live = true) :
    exec i s = issueWord i s (noReturnEffect op a b w) ∧ Issuable i s := by
  unfold exec
  cases i <;> cases h
  all_goals exact ⟨noReturn_eq _ _ _ _ _ s, hl, rfl, rfl⟩

theorem noReturnEffect_of_checked (hq : vqBusy s = false) (hp : strandCheck s (readS s a) (atomSize w) (atomSize w) .amo = .ok p) :
    noReturnEffect op a b w s = noReturnAt op a b w s p := by
  rw [noReturnEffect, vectorsDone_of_idle hq, hp]
  rfl

/-- The host has the 64-bit FetchAdd alone. -/
def HostRefuses (op : BitVec 3) (w : BitVec 1) (p : Place) : Prop := spaceOf p.key = 5 ∧ (op ≠ 0#3 ∨ w = 0#1)

theorem hostRefuses_iff (op : BitVec 3) (w : BitVec 1) (p : Place) :
    (spaceOf p.key = 5 && (op ≠ 0#3 || !decide (w = 1#1))) = true ↔ HostRefuses op w p := by
  have hw : ¬w = 1#1 ↔ w = 0#1 := by
    revert w
    decide
  simp [HostRefuses, hw]

theorem noReturnAt_of_refused (h : HostRefuses op w p) : noReturnAt op a b w s p = .error (.trap cAccess 2 (readS s a) 3) :=
  if_pos ((hostRefuses_iff op w p).2 h)

theorem noReturnAt_of_ready (h : ¬HostRefuses op w p) (hr : accessReady s p (atomSize w) true = .ok ())
    (hfull : ((myRegion s).atoms.countP fun r => r.core = s.ctx.core) < 256) :
    noReturnAt op a b w s p =
      .ok (retire (if classAt (myRegion s) p.key = 2 ∧ (watchCode p).isSome then atomNoted op w s p else atomSent op a b w s p)) := by
  have hroom : atomsFull s = false := decide_eq_false (Nat.not_le.2 hfull)
  refine (if_neg (mt (hostRefuses_iff op w p).1 h)).trans ?_
  rw [hr]
  change (if atomsFull s = true then _ else _) = _
  rw [hroom, if_neg Bool.false_ne_true]
  simp only [Bool.and_eq_true, decide_eq_true_eq]
  split_ifs
  · rfl
  · rfl

theorem noted_atomNoted (op : BitVec 3) (w : BitVec 1) (s : State) (p : Place) : Noted s (atomNoted op w s p) :=
  noted_markedNote _ _ _ _ _ _

theorem atomNoted_mem {k : Nat} (hk : p.leaf ≠ some k) : memRead (atomNoted op w s p).mem k = memRead s.mem k := by
  rw [atomNoted, markedNote_mem, memRead_markedMem_other hk]

theorem framed_atomSent (op : BitVec 3) (a b : BitVec 5) (w : BitVec 1) (s : State) (p : Place) : Framed s (atomSent op a b w s p) := by
  have hcount : Framed (atomNoted op w s p) (modMyCore (atomNoted op w s p) nextAtom) := framed_modMyCore _ fun _ => rfl
  exact framed_trans (framed_trans (framed_of_noted (noted_atomNoted op w s p)) hcount) (framed_modRegionOf _ _ _)

theorem atomSent_mem (op : BitVec 3) (a b : BitVec 5) (w : BitVec 1) (s : State) (p : Place) :
    (atomSent op a b w s p).mem = (atomNoted op w s p).mem := by
  rw [atomSent, modRegionOf]
  split <;> rfl

/-- The core's next request id, and its region's requests, once the request is sent. -/
theorem request_atomSent (hs : Held s) :
    (myCore (atomSent op a b w s p)).atomCount = (myCore s).atomCount + 1#16 ∧
      (myRegion (atomSent op a b w s p)).atoms = (myRegion s).atoms ++ [atomRequest op a b w s p] := by
  have hnoted := noted_atomNoted op w s p
  have hctx : (modMyCore (atomNoted op w s p) nextAtom).ctx = s.ctx := (framed_of_noted hnoted).ctx
  constructor
  · rw [atomSent, myCore_modRegionOf, myCore_modMyCore]
    exact congrArg (· + 1#16) (core_of_noted Core.atomCount hnoted fun _ => rfl)
  · have hheld : Held (modMyCore (atomNoted op w s p) nextAtom) := held_modMyCore (fun _ => rfl) (held_of_noted hnoted hs)
    have hregion := myRegion_modRegionOf_of_held hheld (f := requestAdded (atomRequest op a b w s p)) fun _ => rfl
    rw [hctx, myRegion_modMyCore (f := nextAtom) fun _ => rfl] at hregion
    rw [atomSent, hregion]
    exact congrArg (· ++ [atomRequest op a b w s p]) (atoms_of_noted hnoted)

end

/-! ### `AMOSEQ` (R129, R130) -/

/-- One more of the allowance that `AMOSEQ` and `POST` share is used up. -/
def oneAllowance (t : Strand) : Strand := { t with allowance := t.allowance + 1 }

theorem takeAllowance_eq (s : State) :
    takeAllowance s = if queueLimit (me s) ≤ (me s).allowance then .error (programTrap 2) else .ok (modMe s oneAllowance) := rfl

/-- The request of an `AMOSEQ`. -/
def seqRequest (a b c : BitVec 5) (w : BitVec 1) (s : State) (p q : Place) : SeqReq :=
  { order := (nextOrder (modMe s oneAllowance) s.ctx.core s.ctx.strand).1, core := s.ctx.core, key := p.key, size := atomSize w
    addend := (readS s b).toNat % 2 ^ (8 * atomSize w), prio := fieldOf (readS s c) 31 0
    limit := if fieldOf (readS s c) 63 32 = 0xFFFFFFFF then 2 ^ (8 * atomSize w) - 1 else fieldOf (readS s c) 63 32
    slot := q.key, va := readS s a }

/-- The request queued: the leaf is marked, and the strand's allowance and place have advanced. -/
def seqQueued (a b c : BitVec 5) (w : BitVec 1) (s : State) (p q : Place) : State :=
  modMyCore { modMe (modMe s oneAllowance) nextPlace with mem := markedMem s p true }
    fun x => { x with seqReqs := x.seqReqs ++ [seqRequest a b c w s p q] }

/-- What `AMOSEQ` does once its target and its slot have passed their checks. -/
def amoseqAt (a b c : BitVec 5) (w : BitVec 1) (s : State) (p q : Place) : Except Stop State := do
  let s1 ← takeAllowance s
  let (o, s2) := nextOrder s1 s.ctx.core s.ctx.strand
  pure (retire (modMyCore (markLeaf s2 p true) fun x => { x with seqReqs := x.seqReqs ++ [{ seqRequest a b c w s p q with order := o }] }))

/-- What `AMOSEQ` does. -/
def amoseqEffect (d a b c : BitVec 5) (w : BitVec 1) (s : State) : Except Stop State := do
  vectorsDone s
  let p ← strandCheck s (readS s a) (atomSize w) (atomSize w) .amoseq
  if spaceOf p.key = 5 then .error (.trap cAccess 2 (readS s a) 3)
  else if fieldOf (readS s d) 63 60 ≠ 0 then .error (.trap cAccess 0 (readS s d) 2)
  else
    let q ← strandCheck s (readS s d) 16 16 .store
    amoseqAt a b c w s p q

section
variable {d a b c : BitVec 5} {w : BitVec 1} {s : State} {p q : Place}

theorem exec_amoseq : exec (.amoseq d a b c w) s = issueWord (.amoseq d a b c w) s (amoseqEffect d a b c w) := by rfl

theorem amoseqEffect_of_checked (hq : vqBusy s = false) (hp : strandCheck s (readS s a) (atomSize w) (atomSize w) .amoseq = .ok p)
    (hspace : spaceOf p.key ≠ 5) (hpath : fieldOf (readS s d) 63 60 = 0) (hslot : strandCheck s (readS s d) 16 16 .store = .ok q) :
    amoseqEffect d a b c w s = amoseqAt a b c w s p q := by
  rw [amoseqEffect, vectorsDone_of_idle hq, hp]
  refine (if_neg hspace).trans ((if_neg (not_not_intro hpath)).trans ?_)
  rw [hslot]
  rfl

theorem amoseqAt_eq (a b c : BitVec 5) (w : BitVec 1) (s : State) (p q : Place) :
    amoseqAt a b c w s p q =
      if queueLimit (me s) ≤ (me s).allowance then .error (programTrap 2) else .ok (retire (seqQueued a b c w s p q)) := by
  rw [amoseqAt, takeAllowance_eq]
  split_ifs
  · rfl
  · rw [seqQueued]
    change Except.ok (retire (modMyCore (markLeaf (modMe (modMe s oneAllowance) nextPlace) p true) _)) = _
    rw [markLeaf_eq]
    rfl

theorem framed_seqQueued (a b c : BitVec 5) (w : BitVec 1) (s : State) (p q : Place) : Framed s (seqQueued a b c w s p q) := by
  have hallowance : Framed s (modMe s oneAllowance) := framed_modMe s rfl rfl
  have hplace : Framed (modMe s oneAllowance) (modMe (modMe s oneAllowance) nextPlace) := framed_modMe _ rfl rfl
  exact framed_trans (framed_mem (markedMem s p true) (framed_trans hallowance hplace)) (framed_modMyCore _ fun _ => rfl)

/-- The strand's allowance and the core's requests, once the request is queued. -/
theorem request_seqQueued :
    (me (retire (seqQueued a b c w s p q))).allowance = (me s).allowance + 1 ∧
      (myCore (retire (seqQueued a b c w s p q))).seqReqs = (myCore s).seqReqs ++ [seqRequest a b c w s p q] := by
  constructor
  · have hretire := congrArg Strand.allowance (plain_retire (d := 0#5) (seqQueued a b c w s p q)).mine.rest
    have hme : me (seqQueued a b c w s p q) = nextPlace (oneAllowance (me s)) := by
      have hstrands : me (seqQueued a b c w s p q) = me (modMe (modMe s oneAllowance) nextPlace) := me_modMyCore _ fun _ => rfl
      rw [hstrands, me_modMe, me_modMe]
    refine hretire.trans ?_
    rw [hme]
    rfl
  · have hqueue : (myCore (modMe (modMe s oneAllowance) nextPlace)).seqReqs = (myCore s).seqReqs :=
      (core_modMe Core.seqReqs _ _ fun _ => rfl).trans (core_modMe Core.seqReqs s _ fun _ => rfl)
    refine (core_retire Core.seqReqs _ fun _ => rfl).trans ?_
    rw [seqQueued, myCore_modMyCore, ← hqueue]
    rfl

/-- The fields of the key register. -/
theorem fields_of_key (x : Word) : fieldOf x 31 0 = x.toNat % 2 ^ 32 ∧ fieldOf x 63 32 = x.toNat / 2 ^ 32 := by
  have hx := x.isLt
  constructor <;> (rw [fieldOf]; omega)

end

/-- Settles O36: what each form leaves is `atomNoted`, `atomSent` or `seqQueued`, or the trap. -/
theorem atomicsLeaveForTheirHomes : Obligations.AtomicsLeaveForTheirHomes := by
  intro i op d a b c w s p q hl hq hheld n va kept
  have hkept : ∀ t, (∀ k, p.leaf ≠ some k → memRead t.mem k = memRead s.mem k) → Framed s t → kept t :=
    fun t hmem hf => kept_of_leaf_marked hmem hf
  refine ⟨fun hform hp => ?_, fun hp hspace hpath hslot => ⟨fun hlimit => ?_, fun hlimit => ?_⟩⟩
  · obtain ⟨hexec, hissue⟩ := exec_of_atomicForm hform hl
    have heffect := noReturnEffect_of_checked (op := op) (b := b) hq hp
    refine ⟨fun hspace hop => ?_, fun hhost hr hfull => ?_⟩
    · exact hexec.trans (issueWord_error _ _ _ _ hissue (heffect.trans (noReturnAt_of_refused ⟨hspace, hop⟩)))
    · have hdone := hexec.trans (issueWord_ok _ _ _ _ hissue (heffect.trans (noReturnAt_of_ready hhost hr hfull)))
      by_cases hguard : classAt (myRegion s) p.key = 2 ∧ (watchCode p).isSome
      · rw [if_pos hguard] at hdone
        refine ⟨_, hdone, hkept _ (fun k hk => ?_) (framed_trans (framed_of_noted (noted_atomNoted op w s p)) (framed_retire _)), fun _ _ => ?_,
          fun h => absurd hguard.1 h⟩
        · rw [retire_mem, atomNoted_mem hk]
        · rw [myRegion_retire, atoms_of_noted (noted_atomNoted op w s p)]
      · rw [if_neg hguard] at hdone
        obtain ⟨hcount, hatoms⟩ := request_atomSent (op := op) (a := a) (b := b) (w := w) (p := p) hheld
        refine ⟨_, hdone, hkept _ (fun k hk => ?_) (framed_trans (framed_atomSent op a b w s p) (framed_retire _)), fun h2 hwatch =>
          absurd ⟨h2, hwatch⟩ hguard, fun _ => ⟨(core_retire Core.atomCount _ fun _ => rfl).trans hcount, ?_⟩⟩
        · rw [retire_mem, atomSent_mem, atomNoted_mem hk]
        · rw [myRegion_retire, hatoms]
          rfl
  · have hdone := (amoseqEffect_of_checked (b := b) (c := c) hq hp hspace hpath hslot).trans
      ((amoseqAt_eq a b c w s p q).trans (if_neg (Nat.not_le.2 hlimit)))
    obtain ⟨hallowance, hreqs⟩ := request_seqQueued (a := a) (b := b) (c := c) (w := w) (s := s) (p := p) (q := q)
    obtain ⟨hprio, hlim⟩ := fields_of_key (readS s c)
    refine ⟨_, _, exec_amoseq.trans (issueWord_ok _ _ _ _ ⟨hl, rfl, rfl⟩ hdone),
      hkept _ (fun k hk => ?_) (framed_trans (framed_seqQueued a b c w s p q) (framed_retire _)), hallowance, hreqs, rfl, rfl, rfl, rfl, hprio, rfl, ?_⟩
    · rw [retire_mem]
      exact memRead_markedMem_other hk
    · simp only [seqRequest, hlim]
      rfl
  · have hdone := (amoseqEffect_of_checked (b := b) (c := c) hq hp hspace hpath hslot).trans
      ((amoseqAt_eq a b c w s p q).trans (if_pos hlimit))
    exact exec_amoseq.trans (issueWord_error _ _ _ _ ⟨hl, rfl, rfl⟩ hdone)

end Sys2Proof.Machine
end

section
/-! PROOFS. Fences, and the wait on a sync word (R131 to R133, R138, R145, R161). -/

namespace Sys2Proof.Machine

open Sys2Proof.Safety

/-! ### `FENCE` (R133) -/

/-- A class that the fence names has something outstanding. -/
def FenceWaits (c : BitVec 3) (p : BitVec 4) (s : State) : Prop :=
  (p.getLsbD 0 = true ∧ ringSettled (me s) = false) ∨ (p.getLsbD 1 = true ∧ atomsPending s = true) ∨
    (c = 6#3 ∧ p.getLsbD 2 = true ∧ (myCore s).unacked ≠ 0)

section
variable {c : BitVec 3} {p q : BitVec 4} {s : State}

theorem fenceEffect_of_waits (hq : vqBusy s = false) (h : FenceWaits c p s) : fenceEffect c p s = .error (.wait .stall) := by
  rw [fenceEffect, vectorsDone_of_idle hq]
  change (if _ then _ else if _ then _ else if _ then _ else _) = _
  split_ifs with hring hatoms hposted
  · rfl
  · rfl
  · rfl
  · simp only [Bool.and_eq_true, Bool.not_eq_true', decide_eq_true_eq, and_assoc] at hring hatoms hposted
    rcases h with h | h | h
    · exact absurd h hring
    · exact absurd h hatoms
    · exact absurd h hposted

theorem fenceEffect_of_clear (hq : vqBusy s = false) (h : ¬FenceWaits c p s) : fenceEffect c p s = .ok (retire s) := by
  rw [fenceEffect, vectorsDone_of_idle hq]
  change (if _ then _ else if _ then _ else if _ then _ else _) = _
  split_ifs with hring hatoms hposted
  · simp only [Bool.and_eq_true, Bool.not_eq_true'] at hring
    exact absurd (.inl hring) h
  · simp only [Bool.and_eq_true] at hatoms
    exact absurd (.inr (.inl hatoms)) h
  · simp only [Bool.and_eq_true, decide_eq_true_eq, and_assoc] at hposted
    exact absurd (.inr (.inr hposted)) h
  · rfl

end

/-! ### `WAITW` (R131, R138) -/

/-- The strand ordered after what the handoff releases. -/
def joinHandoff (h : Handoff) (t : Strand) : Strand := { t with clock := clockJoin t.clock h.clock }

/-- The word's access noted, and the handoff acquired, unless it orders another strand alone. -/
def acquired (s : State) (p : Place) (h : Handoff) : State :=
  let s1 := (noteAccess s (whoMe s) p 8 false none true false).1
  if h.any || (h.core = s.ctx.core && h.strand = s.ctx.strand) then modMe s1 (joinHandoff h) else s1

/-- What `WAITW` does at a place that passed its check. -/
def waitwAt (va v : Word) (s : State) (p : Place) : Except Stop State :=
  if classAt (myRegion s) p.key ≠ 1 then .error (.trap cSyncClass 0 va 4)
  else
    match handoffOf s p.key v with
    | none => .error (.wait (.word p.key v))
    | some h => .ok (retire (acquired s p h))

/-- What `WAITW` does. -/
def waitwEffect (a b : BitVec 5) (s : State) : Except Stop State := do
  vectorsDone s
  if 1 < fieldOf (readS s a) 63 60 then .error (.trap cSyncClass 0 (readS s a) 4)
  else
    let p ← strandCheck s (readS s a) 8 8 .wait
    waitwAt (readS s a) (readS s b) s p

section
variable {a b : BitVec 5} {s : State} {p : Place} {va v : Word}

theorem exec_waitw : exec (.waitw a b) s = issueWord (.waitw a b) s (waitwEffect a b) := by rfl

theorem path_eq (x : Word) : fieldOf x 63 60 = x.toNat / 2 ^ 60 := by
  have hx := x.isLt
  rw [fieldOf]
  omega

theorem waitwEffect_elsewhere (hq : vqBusy s = false) (h : 1 < (readS s a).toNat / 2 ^ 60) :
    waitwEffect a b s = .error (.trap cSyncClass 0 (readS s a) 4) := by
  rw [waitwEffect, vectorsDone_of_idle hq, path_eq]
  exact if_pos h

theorem waitwEffect_of_checked (hq : vqBusy s = false) (h : (readS s a).toNat / 2 ^ 60 ≤ 1) (hp : strandCheck s (readS s a) 8 8 .wait = .ok p) :
    waitwEffect a b s = waitwAt (readS s a) (readS s b) s p := by
  rw [waitwEffect, vectorsDone_of_idle hq, path_eq]
  refine (if_neg (Nat.not_lt.2 h)).trans ?_
  rw [hp]
  rfl

theorem waitwAt_of_class (h : classAt (myRegion s) p.key ≠ 1) : waitwAt va v s p = .error (.trap cSyncClass 0 va 4) := if_pos h

theorem waitwAt_of_none (h : classAt (myRegion s) p.key = 1) (hnone : ∀ x ∈ (myRegion s).handoffs, ¬(x.key = p.key ∧ x.value = v)) :
    waitwAt va v s p = .error (.wait (.word p.key v)) := by
  have hfind : handoffOf s p.key v = none := List.find?_eq_none.2 fun x hx => by
    rw [Bool.and_eq_true, decide_eq_true_eq, decide_eq_true_eq]
    exact hnone x hx
  rw [waitwAt, if_neg (not_not_intro h), hfind]

/-- A handoff of the value to the word is acquired. -/
theorem waitwAt_of_some (h : classAt (myRegion s) p.key = 1) (hsome : ∃ x ∈ (myRegion s).handoffs, x.key = p.key ∧ x.value = v) :
    ∃ x ∈ (myRegion s).handoffs, (x.key = p.key ∧ x.value = v) ∧ waitwAt va v s p = .ok (retire (acquired s p x)) := by
  cases hfind : handoffOf s p.key v with
  | none =>
    obtain ⟨x, hx, hkey⟩ := hsome
    have hmiss := List.find?_eq_none.1 hfind x hx
    rw [Bool.and_eq_true, decide_eq_true_eq, decide_eq_true_eq] at hmiss
    exact absurd hkey hmiss
  | some x =>
    have hkey := List.find?_some hfind
    rw [Bool.and_eq_true, decide_eq_true_eq, decide_eq_true_eq] at hkey
    refine ⟨x, List.mem_of_find?_eq_some hfind, hkey, ?_⟩
    rw [waitwAt, if_neg (not_not_intro h), hfind]

/-- The acquisition is a change of the strand's clock, in the state with the access noted. -/
theorem acquired_frame (s : State) (p : Place) (h : Handoff) :
    let s1 := (noteAccess s (whoMe s) p 8 false none true false).1
    OnlyMyStrand s1 (acquired s p h) ∧ Framed s1 (acquired s p h) := by
  intro s1
  rw [acquired]
  split
  · exact ⟨modMe_onlyMyStrand _ _, framed_modMe _ rfl rfl⟩
  · exact ⟨onlyMyStrand_refl _, framed_of_noted (noted_refl _)⟩

/-- What the acquisition leaves alone. -/
theorem after_waitw (s : State) (p : Place) (h : Handoff) :
    let t := retire (acquired s p h)
    SameMemory s t ∧ RegsSame s t ∧ TrapRegsSame s t ∧ OutsideSame s t ∧ CoreRegistersSame s t := by
  intro t
  obtain ⟨honly, hframed⟩ := acquired_frame s p h
  have hnoted : Noted s (noteAccess s (whoMe s) p 8 false none true false).1 := noted_of_codeRead (codeRead_noted s p 8 false none true false)
  have hthrough := onlyMyStrand_trans hframed.ctx honly (retire_onlyMyStrand (acquired s p h))
  obtain ⟨hout, hcore⟩ := outside_of_noted hnoted hthrough
  obtain ⟨-, -, hregs, htrap⟩ := framed_trans (framed_of_noted hnoted) (framed_trans hframed (framed_retire _))
  refine ⟨fun k => ?_, ⟨congrArg Regs.s hregs, congrArg Regs.v hregs, congrArg Regs.k hregs⟩, htrap, hout, hcore⟩
  obtain ⟨hmem, -⟩ := hthrough
  rw [hmem k, noteAccess_mem]

/-- A handoff to any strand is learnt (R138). -/
theorem clock_after_waitw (s : State) (p : Place) {h : Handoff} (hany : h.any = true) (e : Nat) :
    clockGet h.clock e ≤ clockGet (me (retire (acquired s p h))).clock e := by
  have hrest := congrArg Strand.clock (plain_retire (d := 0#5) (acquired s p h)).mine.rest
  have hclock : (me (retire (acquired s p h))).clock = (me (acquired s p h)).clock := hrest
  rw [hclock, acquired, hany, Bool.true_or, if_pos rfl, me_modMe]
  exact le_clockGet_clockJoin_right _ _ e

end

/-! ### `IFENCE` (R132, R145) -/

/-- The core without a strand's fetched words. -/
def withoutFetched (n : Fin 4) (x : Core) : Core := { x with fetched := x.fetched.filter fun f => f.1 ≠ n }

/-- What `IFENCE` does. -/
def ifenceEffect (s : State) : Except Stop State :=
  if vqBusy s then .error (.wait .stall) else .ok (retire (modMyCore s (withoutFetched s.ctx.strand)))

theorem exec_ifence (s : State) : exec .ifence s = issueWord .ifence s ifenceEffect := by rfl

theorem ifenceEffect_of_busy {s : State} (h : vqBusy s = true) : ifenceEffect s = .error (.wait .stall) := if_pos h

theorem ifenceEffect_of_idle {s : State} (h : vqBusy s = false) :
    ifenceEffect s = .ok (retire (modMyCore s (withoutFetched s.ctx.strand))) := if_neg (Bool.eq_false_iff.1 h)

theorem after_ifence (s : State) :
    let t := retire (modMyCore s (withoutFetched s.ctx.strand))
    SameMemory s t ∧ t.regions = s.regions ∧ Framed s t ∧ (∀ f ∈ (myCore t).fetched, f.1 ≠ (s.ctx.strand : Nat)) ∧
      restOf { myCore t with fetched := [] } = restOf { myCore s with fetched := [] } := by
  intro t
  have hcore := myCore_modMyCore s (withoutFetched s.ctx.strand)
  have hfetched : (myCore t).fetched = (withoutFetched s.ctx.strand (myCore s)).fetched :=
    (core_retire Core.fetched _ fun _ => rfl).trans (congrArg Core.fetched hcore)
  have hrest := core_retire (fun x => restOf { x with fetched := [] }) (modMyCore s (withoutFetched s.ctx.strand)) fun _ => rfl
  refine ⟨fun k => ?_, retire_regions _, framed_trans (framed_modMyCore s (f := withoutFetched s.ctx.strand) fun _ => rfl) (framed_retire _),
    fun f hf => ?_, ?_⟩
  · rw [retire_mem]
    rfl
  · rw [hfetched] at hf
    exact of_decide_eq_true (List.mem_filter.1 hf).2
  · refine hrest.trans ?_
    rw [hcore]
    rfl

/-- Settles O38: each word waits, or ends with what it acquires or drops. -/
theorem orderingWordsComplete : Obligations.OrderingWordsComplete := by
  intro c p q a b s pl
  refine ⟨fun hi hq => ⟨fun h => ?_, fun h => ?_⟩,
    fun hi hq => ⟨fun hpath => ?_, fun hpath hp => ⟨fun hclass => ?_, fun hclass => ⟨fun hnone => ?_, fun hsome => ?_⟩⟩⟩,
    fun hi hq => ?_, fun hi hq => ?_⟩
  · exact (exec_fence c p q s).trans (issueWord_ok _ _ _ _ hi (fenceEffect_of_clear hq h))
  · exact (exec_fence c p q s).trans (issueWord_error _ _ _ _ hi (fenceEffect_of_waits hq h))
  · exact exec_waitw.trans (issueWord_error _ _ _ _ hi (waitwEffect_elsewhere hq hpath))
  · exact exec_waitw.trans (issueWord_error _ _ _ _ hi ((waitwEffect_of_checked hq hpath hp).trans (waitwAt_of_class hclass)))
  · exact exec_waitw.trans (issueWord_error _ _ _ _ hi ((waitwEffect_of_checked hq hpath hp).trans (waitwAt_of_none hclass hnone)))
  · obtain ⟨x, hx, ⟨hkey, hvalue⟩, hdone⟩ := waitwAt_of_some (va := readS s a) hclass hsome
    obtain ⟨hmem, hregs, htrap, hout, hcore⟩ := after_waitw s pl x
    exact ⟨_, exec_waitw.trans (issueWord_ok _ _ _ _ hi ((waitwEffect_of_checked hq hpath hp).trans hdone)), hmem, hregs, htrap, hout, hcore,
      x, hx, hkey, hvalue, fun hany => clock_after_waitw s pl hany⟩
  · exact (exec_ifence s).trans (issueWord_error _ _ _ _ hi (ifenceEffect_of_busy hq))
  · obtain ⟨hmem, hregions, hframed, hfetched, hrest⟩ := after_ifence s
    obtain ⟨hs, hv, hk, htrap, hout⟩ := registers_of_framed hframed
    exact ⟨_, (exec_ifence s).trans (issueWord_ok _ _ _ _ hi (ifenceEffect_of_idle hq)), hmem, hregions, ⟨hs, hv, hk⟩, htrap, hout,
      hfetched, hrest⟩

end Sys2Proof.Machine
end
